-- ==== Sys2Proof/Word.lean ====
section
/-!
DEFINITION. The word types of the machine (spec/00_scope.md R3, R4: little-endian bytes, bits numbered from the
least significant end) and the finite tables the state is made of.
-/

namespace Sys2Proof

/-- A byte. -/
abbrev Byte := BitVec 8

/-- An instruction word, a vector register, an f32 image (spec/13 R274; spec/06 R131). -/
abbrev W32 := BitVec 32

/-- A scalar register, an address, a control register (spec/06 R131). -/
abbrev Word := BitVec 64

/-- A lane mask: bit L stands for lane L (spec/06 R117). -/
abbrev Mask := BitVec 32

/-- A finite table by number: pairs of a key and a value. The operations keep the keys strictly rising, so that equal
tables are equal lists. -/
abbrev Tab (V : Type) := List (Nat × V)

/-- The value under key `n`, if one is listed. -/
def Tab.get? {V : Type} : Tab V → Nat → Option V
  | [], _ => none
  | (k, v) :: t, n => if n = k then some v else Tab.get? t n

/-- The value under key `n`, or `d` where none is listed. -/
def Tab.getD {V : Type} (t : Tab V) (n : Nat) (d : V) : V := (Tab.get? t n).getD d

/-- The table with `v` under key `n`, in its place in the order of keys. -/
def Tab.put {V : Type} : Tab V → Nat → V → Tab V
  | [], n, v => [(n, v)]
  | (k, x) :: t, n, v =>
    if n < k then (n, v) :: (k, x) :: t
    else if n = k then (n, v) :: t
    else (k, x) :: Tab.put t n v

/-- The table without any entry under key `n`. -/
def Tab.erase {V : Type} : Tab V → Nat → Tab V
  | [], _ => []
  | (k, x) :: t, n => if n = k then Tab.erase t n else (k, x) :: Tab.erase t n

/-- The table that reads `v` under key `n`, where an unlisted key reads `d`: no entry ever equals `d`. -/
def Tab.set {V : Type} [DecidableEq V] (d : V) (t : Tab V) (n : Nat) (v : V) : Tab V :=
  if v = d then Tab.erase t n else Tab.put t n v

/-- The table with the entry under `n` changed by `f`, starting from `d` where none is listed. -/
def Tab.modify {V : Type} (d : V) (t : Tab V) (n : Nat) (f : V → V) : Tab V :=
  Tab.put t n (f (Tab.getD t n d))

/-- The keys rise strictly. -/
def Tab.sorted {V : Type} : Tab V → Bool
  | [] => true
  | [_] => true
  | (j, _) :: (k, x) :: t => decide (j < k) && Tab.sorted ((k, x) :: t)

/-- The canonical form of a table whose unlisted keys read `d`: strictly rising keys, and no entry equal to `d`. -/
def Tab.canonical {V : Type} [DecidableEq V] (d : V) (t : Tab V) : Bool :=
  Tab.sorted t && t.all (fun e => decide (e.2 ≠ d))

/-- The first key at or above `n` that no entry holds, looking `fuel` keys far. -/
def Tab.freeFrom {V : Type} (t : Tab V) : Nat → Nat → Nat
  | n, 0 => n
  | n, fuel + 1 => if (Tab.get? t n).isSome then Tab.freeFrom t (n + 1) fuel else n

/-- A set of numbers, strictly rising. -/
abbrev NatSet := List Nat

/-- The set with `n` in it. -/
def NatSet.add : NatSet → Nat → NatSet
  | [], n => [n]
  | k :: t, n => if n < k then n :: k :: t else if n = k then k :: t else k :: NatSet.add t n

/-- The set without `n`. -/
def NatSet.del (t : NatSet) (n : Nat) : NatSet := t.filter (fun k => k != n)

end Sys2Proof
end

