-- ==== Sys2Proof/Syntax.lean ====
section
/-!
DEFINITION. The instructions: one constructor of `Instr` for every row of spec/opcode_table.json. The first two hundred
are instruction words (spec/13_encoding_and_assembly.md gives the formats, spec/14 to spec/18 the pages); the others are
the part's events, whose operands hold what the event's agent supplies (spec/95_what_each_step_holds.md).
-/

namespace Sys2Proof

/-! ### Register numbers (spec/06 R131, spec/13 R284) -/

abbrev SReg := Fin 64
abbrev VNum := Fin 64
abbrev PReg := Fin 8
abbrev XReg := Fin 4
abbrev CReg := Fin 8
abbrev LcReg := Fin 3
abbrev TReg := Fin 16
abbrev EmReg := Fin 8
abbrev AccReg := Fin 8
abbrev HReg := Fin 64
abbrev FlagNum := Fin 12

/-- A v operand: direct, or indexed by an index literal (spec/06 R132, spec/13 R279). -/
inductive VOp where
  | dir (n : VNum)
  | idx (x : XReg) (imm : Fin 64)
deriving DecidableEq, Repr

/-- Predicate codes of the integer comparisons, in code order (spec/14 R302). -/
inductive Pred where
  | eq | ne | lt | le | gt | ge | ltn | len | gtn | gen
deriving DecidableEq, Repr

/-- Integer types of the vector words, in code order (spec/15 R319). -/
inductive IntTy where
  | i32 | n32 | i64 | n64
deriving DecidableEq, Repr

/-- Float types of the vector words, in code order (spec/15 R326). -/
inductive FTy where
  | f32 | f64 | f16x2 | bf16x2
deriving DecidableEq, Repr

/-- The sixteen type codes of conversions, in code order (spec/13 R286). -/
inductive CvtTy where
  | f64 | f32 | f16 | bf16 | e4m3 | e5m2 | e2m1 | i4 | i8 | n8 | i16 | n16 | i32 | n32 | i64 | n64
deriving DecidableEq, Repr

/-- Rounding selections of VCVT, in code order (spec/13 R286). -/
inductive CvtMode where
  | rne | rtz | rup | rdn | dyn
deriving DecidableEq, Repr

/-- The four static rounding modes, in code order (spec/12 R263, R265). -/
inductive RMode where
  | rne | rtz | rup | rdn
deriving DecidableEq, Repr

/-- The selector of VSHFL by its mode (spec/15 R324). -/
inductive ShflSel where
  | idx (b : VOp)
  | xor (imm : Fin 32)
  | up (imm : Fin 32)
  | down (imm : Fin 32)
deriving DecidableEq, Repr

/-- Operations of VRDC, in code order (spec/15 R324). -/
inductive RdcOp where
  | add | min | max | and | or | xor
deriving DecidableEq, Repr

/-- Types of VRDC, in code order (spec/15 R324). -/
inductive RdcTy where
  | i32 | n32 | f32
deriving DecidableEq, Repr

/-- Codes of VFCMP, in code order (spec/15 R329). -/
inductive FPred where
  | eq | ne | lt | le | gt | ge | un | ord
deriving DecidableEq, Repr

/-- Packed element kinds of VPACK and VUNPK, in code order (spec/15 R335). -/
inductive PackKind where
  | f16 | bf16 | i8 | n8 | i4 | e2m1 | e4m3 | e5m2
deriving DecidableEq, Repr

/-- Kinds of VQNT, in code order (spec/15 R336). -/
inductive QntKind where
  | q8 | q4 | e2m1 | ent8 | ent4
deriving DecidableEq, Repr

/-- Kinds of VDQNT, in code order (spec/15 R337). -/
inductive DqntKind where
  | q8 | q4 | e2m1 | i4 | i8
deriving DecidableEq, Repr

/-- The source of XMOV and XADD by KIND (spec/14 R316). -/
inductive XSrc where
  | imm
  | v (a : VOp)
  | s (a : SReg)
  | x (a : XReg)
deriving DecidableEq, Repr

/-- The count operand of LOOP (spec/14 R308). -/
inductive LoopCount where
  | imm (n : Fin 64)
  | reg (s : SReg)
deriving DecidableEq, Repr

/-- The special registers that R133 lists, in number order (spec/06 R133). -/
inductive SpecialReg where
  | lane | group | team | teamx | teamy | teamz | nteams | ngroups | role | wb | walloc | fmask | fflag | fpsr
  | region | rail | time | dtst | aggidx | cohort | wdog | tvec | tcause | tsyn | tunit | ttile | tpc | tlanes
  | pcore | hmdie | hmap | ltsel | ltab | lksel | lkstat | cflip
deriving DecidableEq, Repr

/-- Access widths, in code order (spec/13 R285). -/
inductive Width where
  | b8 | b16 | b32 | b64 | b128
deriving DecidableEq, Repr

/-- Scopes, in code order (spec/08 R163). -/
inductive Scope where
  | fib | grp | team | clu | die | dev | dom | sys
deriving DecidableEq, Repr

/-- Ordering kinds, in code order (spec/08 R169). -/
inductive Ord where
  | none | acq | rel | ar
deriving DecidableEq, Repr

/-- Address spaces of the X words, in code order (spec/16 R349, spec/17 R384). -/
inductive Space where
  | virt | sp | cm | ds
deriving DecidableEq, Repr

/-- Local spaces of the matrix words, in code order (spec/17 R374, R378). -/
inductive LSpace where
  | sp | cm | ds
deriving DecidableEq, Repr

/-- The operand literal of format G (spec/13 R285). -/
structure GLit where
  ext : BitVec 2
  scope : Scope
  ord : Ord
  off : BitVec 16
deriving DecidableEq, Repr

/-- The operands of a format-G word but REG, W, ST and SEL (spec/13 R285): the base, the index register (63 means none)
and the operand literal, if LT = 1. -/
structure GAddr where
  base : SReg
  idx : Fin 64
  lit : Option GLit
deriving DecidableEq, Repr

/-- Operations of the atomics, in code order (spec/16 R351). -/
inductive AOp where
  | add | and | or | xor | min | max | minn | maxn | exch | cas | fadd | fmin | fmax
deriving DecidableEq, Repr

/-- The operand literal of an atomic (spec/16 R350). -/
structure ALit where
  aop : AOp
  wd : Bool
  scope : Scope
  ord : Ord
  off : BitVec 13
deriving DecidableEq, Repr

/-- Levels of WAITM, in code order (spec/16 R357). -/
inductive WLevel where
  | fibre | group | team | grid | ext
deriving DecidableEq, Repr

/-- Conditions of WAITM, in code order (spec/16 R357). -/
inductive WCond where
  | eq | ne | gen | ltn | ge | lt | set | clr
deriving DecidableEq, Repr

/-- The operand literal of WAITM (spec/16 R357); `any` is DIR. -/
structure WLit where
  level : WLevel
  any : Bool
  cond : WCond
  wd : Bool
  scope : Scope
  off : BitVec 12
deriving DecidableEq, Repr

/-- Formats of MMA, in code order (spec/17 R374). -/
inductive MmaFmt where
  | e4m3 | e5m2 | e2m1 | i8 | i4 | q8 | q4 | bf16 | f16
deriving DecidableEq, Repr

/-- Operand forms of MMA (spec/17 R374, R375). -/
inductive MmaForm where
  | rs (a : Fin 64) (b : SReg) (space : LSpace)
  | ss (a b : SReg) (space : LSpace)
  | gt (a b : TReg) (co : SReg)
deriving DecidableEq, Repr

/-- Formats of NMV, in code order (spec/17 R390). -/
inductive NmvFmt where
  | e4m3 | bf16 | q8 | q4
deriving DecidableEq, Repr

/-- Checksum modes of CPY, in code order (spec/17 R384). -/
inductive CkMode where
  | none | sum | crc
deriving DecidableEq, Repr

/-- The operand literal of CPY (spec/17 R384). -/
structure CLit where
  ssp : Space
  dsp : Space
  ck : CkMode
  chk : Bool
  t : Bool
  mc : Bool
  mem : BitVec 4
  xs : SReg
deriving DecidableEq, Repr

/-- Region modes, in code order (spec/09 R197). -/
inductive RegionMode where
  | exact | checked | tolerant
deriving DecidableEq, Repr

/-! ### What the events' agents supply -/

/-- A compute-die core, physical die and physical core number (spec/01 R10). -/
structure CoreId where
  die : Fin 32
  core : Fin 36
deriving DecidableEq, Repr

/-- A link of the package (spec/02 R45). -/
inductive LinkId where
  | spoke (n : Fin 48)
  | host
  | cxl (n : Fin 8)
  | ualink (n : Fin 24)
deriving DecidableEq, Repr

/-- A trained link: up or not, and for a CXL port its mapped capacity in GiB (spec/02 R46). -/
structure LinkTrain where
  link : LinkId
  up : Bool
  capg : Nat
deriving DecidableEq, Repr

/-- What calibration finds for one core: the code of the lowest passing voltage, or none (spec/01 R25). -/
structure CalResult where
  core : CoreId
  vpass : Option Nat
deriving DecidableEq, Repr

/-- What the boot agents find: the result code of each image (0 verified, else the codes of ERRA), the calibration
results and the trained links (spec/01 R23 to R25). -/
structure BootFindings where
  imageA : Nat
  imageB : Nat
  cal : List CalResult
  links : List LinkTrain
deriving DecidableEq, Repr

/-- A PCIe configuration request: the function it names, and the number of virtual functions that it enables through the SR-IOV
capability, where it writes that (spec/03 R49). -/
structure ConfigRequest where
  fn : Nat
  numVfs : Option Nat
deriving DecidableEq, Repr

/-- A die of the package (spec/01 R10). -/
inductive DieId where
  | hub
  | compute (d : Fin 32)
  | memory (d : Fin 16)
deriving DecidableEq, Repr

/-- Kinds of access of a walk (spec/07 R151). -/
inductive AccKind where
  | read | write | fetch
deriving DecidableEq, Repr

/-- Requests from another package (spec/07 R152; spec/02 R39: atomics carry a transaction tag); `clean` is the write-back of a line that a
CWB asks for (spec/16 R348). -/
inductive RemoteReq where
  | read (n : Nat)
  | write (bytes : List Byte)
  | atomic (tag : Nat) (aop : AOp) (wd : Bool) (x exp : Word)
  | clean
  | fetch
deriving DecidableEq, Repr

/-- Where a frame rests (spec/07 R146, R147). -/
inductive Place where
  | stack (d : Fin 16)
  | cxl (p : Fin 8)
deriving DecidableEq, Repr

/-- What an uncorrectable error strikes (spec/07 R158; spec/16 R345): a unit, sector or line of frame space, or an aligned
32 bytes of a team's scratchpad, of a die scratchpad or of a lane's slice. -/
inductive EccStrike where
  | unit (pa : Nat)
  | sector (pa : Nat)
  | line (pa : Nat)
  | scratch (team off : Nat)
  | die (d : Fin 32) (off : Nat)
  | slice (group : Nat) (lane : Fin 32) (off : Nat)
deriving DecidableEq, Repr

/-- A wrong value that the array delivers on the eave rail: the row and column of its element, and the 32-bit image of the element, or, for a
group-quantised format, the wrong integer sum of one of its runs (spec/09 R192, R199). -/
structure ArrayError where
  row : Fin 64
  col : Fin 64
  image : W32
  run : Nat := 0
deriving DecidableEq, Repr

/-- A replay of a flit on a link; `again` says that the flit is the one of the last replay (spec/02 R39). -/
structure FlitReplay where
  link : LinkId
  again : Bool
deriving DecidableEq, Repr

/-- A reduction packet between nodes (spec/10 R218, R226, R228, R230): the group, channel, round, what was combined,
the sender, the contributor map (bit i is participant i) and the values. -/
structure RedPacket where
  gid : Nat
  chan : Nat
  round : Nat
  op : Nat
  type : Nat
  len : Nat
  sender : Nat
  cidx : Nat
  map : NatSet
  values : List W32
  crc : W32
  d : Nat
  slack : Nat
  key : Nat
deriving DecidableEq, Repr

/-- The instruction words and the events: one constructor for each row of the table. -/
inductive Instr where
  -- framing (spec/13 R277 to R279)
  | hdr (wait : BitVec 12) (seta setb : Fin 16) (safe : Bool)
  | live (q h : Bool) (ac : BitVec 8) (sq : BitVec 4) (vo : BitVec 8)
  | nop
  -- scalar integer (spec/14 R300 to R303)
  | sadd (d a b : SReg)
  | ssub (d a b : SReg)
  | smul (d a b : SReg)
  | smulh (d a b : SReg)
  | smulhn (d a b : SReg)
  | sand (d a b : SReg)
  | sor (d a b : SReg)
  | sxor (d a b : SReg)
  | sshl (d a b : SReg)
  | sshr (d a b : SReg)
  | ssra (d a b : SReg)
  | smin (d a b : SReg)
  | smax (d a b : SReg)
  | sminn (d a b : SReg)
  | smaxn (d a b : SReg)
  | smov (d a : SReg)
  | smovLc (d : SReg) (lc : LcReg)
  | saddi (d a : SReg) (imm : BitVec 12)
  | smovi (d : SReg) (imm : BitVec 18)
  | smovh (d : SReg) (q : Fin 4) (chunk : BitVec 16)
  | scmp (c : CReg) (a b : SReg) (p : Pred)
  | scmpi (c : CReg) (a : SReg) (p : Pred) (imm : BitVec 8)
  | ssel (d : SReg) (c : CReg) (a b : SReg)
  | sclz (d a : SReg)
  | spopc (d a : SReg)
  | sbfe (d a b : SReg)
  | sbfeSx (d a b : SReg)
  | sbfi (d a b : SReg)
  -- special registers, predicates, votes (spec/14 R304)
  | srdS (d : SReg) (n : SpecialReg)
  | srdV (d : VOp) (n : SpecialReg) (hi : Bool)
  | spredSp (d : SReg) (p : PReg)
  | spredPs (p : PReg) (a : SReg)
  | swr (n : SpecialReg) (a : SReg)
  | svoteAny (c : CReg) (p : PReg)
  | svoteAll (c : CReg) (p : PReg)
  | svoteUni (c : CReg) (p : PReg)
  | slane (d : SReg) (a : VOp) (b : SReg)
  -- control (spec/14 R306 to R312)
  | brCond (c : CReg) (n : Bool) (off : BitVec 17)
  | brAlways (off : BitVec 17)
  | call (l : Fin 8) (off : BitVec 17)
  | bri (a : SReg)
  | ret (a : SReg)
  | loop (lc : LcReg) (cnt : LoopCount) (len : BitVec 8)
  | lbrk (lc : LcReg) (cond : Option CReg)
  | fsplit (p : PReg) (n : Bool) (off : BitVec 17)
  | fjoin
  | fend
  | winset (a : Option SReg) (imm : BitVec 10)
  | winadd (a : Option SReg) (imm : BitVec 10)
  | xmov (d : XReg) (src : XSrc) (imm : BitVec 9)
  | xadd (d : XReg) (src : XSrc) (imm : BitVec 9)
  | trap (code : BitVec 16)
  | rett
  | bkpt (code : BitVec 16)
  | gend
  | yield
  -- vector integer (spec/15 R319 to R325)
  | vadd (ty : IntTy) (d a b : VOp)
  | vsub (ty : IntTy) (d a b : VOp)
  | vmul (ty : IntTy) (d a b : VOp)
  | vmulh (ty : IntTy) (d a b : VOp)
  | vand (ty : IntTy) (d a b : VOp)
  | vor (ty : IntTy) (d a b : VOp)
  | vxor (ty : IntTy) (d a b : VOp)
  | vnot (ty : IntTy) (d a : VOp)
  | vshl (ty : IntTy) (d a b : VOp)
  | vshr (ty : IntTy) (d a b : VOp)
  | vsra (ty : IntTy) (d a b : VOp)
  | vmin (ty : IntTy) (d a b : VOp)
  | vmax (ty : IntTy) (d a b : VOp)
  | vabs (ty : IntTy) (d a : VOp)
  | vneg (ty : IntTy) (d a : VOp)
  | vmov (ty : IntTy) (d a : VOp)
  | vaddi (d a : VOp) (imm : BitVec 12)
  | vmovi (d : VOp) (imm : BitVec 18)
  | vmad (d a b c : VOp)
  | vcmp (p : PReg) (wide : Bool) (pred : Pred) (a b : VOp)
  | vsel (d : VOp) (wide : Bool) (p : PReg) (a b : VOp)
  | vclz (d a : VOp)
  | vpopc (d a : VOp)
  | vbfe (d a b : VOp)
  | vbfeSx (d a b : VOp)
  | vbfi (d a b : VOp)
  | vdot4 (sa sb sat : Bool) (d a b : VOp)
  | vdot8 (sa sb sat : Bool) (d a b : VOp)
  | vshfl (d a : VOp) (sel : ShflSel)
  | vperm (d a b : VOp)
  | vrdc (op : RdcOp) (ty : RdcTy) (d a : VOp)
  | pand (d a b : PReg)
  | por (d a b : PReg)
  | pxor (d a b : PReg)
  | pnot (d a : PReg)
  | pmov (d a : PReg)
  | vmovs (d : VOp) (a : SReg)
  | vmovsHi (d : VOp) (a : SReg)
  | pset (d : PReg) (b : Bool)
  -- vector float (spec/15 R326 to R330)
  | vfadd (ty : FTy) (rmd : Bool) (d a b : VOp)
  | vfsub (ty : FTy) (rmd : Bool) (d a b : VOp)
  | vfmul (ty : FTy) (rmd : Bool) (d a b : VOp)
  | vfmin (ty : FTy) (d a b : VOp)
  | vfmax (ty : FTy) (d a b : VOp)
  | vfscl (ty : FTy) (rmd : Bool) (d a b : VOp)
  | vfmaF32 (d a b c : VOp)
  | vfmaF64 (d a b c : VOp)
  | vfmaF16x2 (d a b c : VOp)
  | vfmaBf16x2 (d a b c : VOp)
  | vfabs (ty : FTy) (d a : VOp)
  | vfneg (ty : FTy) (d a : VOp)
  | vfclass (ty : FTy) (d a : VOp)
  | vfrnd (ty : FTy) (m : RMode) (d a : VOp)
  | vfcmp (p : PReg) (wide : Bool) (code : FPred) (a b : VOp)
  | vfdot2 (bf : Bool) (d a b : VOp)
  -- conversions (spec/15 R331 to R337)
  | vcvt (st dt : CvtTy) (rm : CvtMode) (sat : Bool) (d a : VOp)
  | vcvtsr (st dt : CvtTy) (sat : Bool) (d a : VOp)
  | vpack (kind : PackKind) (d a : VOp) (k : Fin 8)
  | vunpk (kind : PackKind) (d a : VOp) (k : Fin 8)
  | vqnt (kind : QntKind) (d a b : VOp)
  | vdqnt (kind : DqntKind) (d a b : VOp)
  | vrng (d : VOp) (a b : SReg)
  -- special functions (spec/15 R338)
  | vrcp (d a : VOp) (sel : Bool)
  | vrsq (d a : VOp) (sel : Bool)
  | vsqrt (d a : VOp) (sel : Bool)
  | vexp2 (d a : VOp) (sel : Bool)
  | vlog2 (d a : VOp) (sel : Bool)
  | vsin (d a : VOp) (sel : Bool)
  | vcos (d a : VOp) (sel : Bool)
  | vtanh (d a : VOp) (sel : Bool)
  -- loads and stores (spec/16 R339 to R348)
  | vld (reg : VNum) (m : GAddr) (w : Width) (sel : Bool)
  | vst (reg : VNum) (m : GAddr) (w : Width)
  | vldr (reg : VNum) (m : GAddr) (sel : Bool)
  | vstr (reg : VNum) (m : GAddr)
  | sld (reg : SReg) (m : GAddr) (w : Width) (sel : Bool)
  | sst (reg : SReg) (m : GAddr) (w : Width)
  | vlds (reg : VNum) (m : GAddr) (w : Width) (sel : Bool)
  | vsts (reg : VNum) (m : GAddr) (w : Width)
  | vldc (reg : VNum) (m : GAddr) (w : Width) (sel : Bool)
  | vstc (reg : VNum) (m : GAddr) (w : Width)
  | vldd (reg : VNum) (m : GAddr) (w : Width) (sel : Bool)
  | vstd (reg : VNum) (m : GAddr) (w : Width)
  | vldp (reg : VNum) (m : GAddr) (w : Width) (sel : Bool)
  | vstp (reg : VNum) (m : GAddr) (w : Width)
  | prefL1 (m : GAddr)
  | prefL2 (m : GAddr)
  | prefSc (m : GAddr)
  | cwb (m : GAddr) (sel : Bool)
  | cinv (m : GAddr)
  -- atomics and synchronisation (spec/16 R349 to R363)
  | vatom (a : VNum) (base : SReg) (idx : Fin 64) (space : Space) (sel : Bool) (lit : ALit)
  | vred (a : VNum) (base : SReg) (idx : Fin 64) (space : Space) (sel : Bool) (lit : ALit)
  | satom (a : SReg) (base : SReg) (space : Space) (sel : Bool) (lit : ALit)
  | fence (scope : Scope) (ord : Ord)
  | waitm (base cmp : SReg) (space : Space) (lit : WLit)
  | bar (n : Fin 16) (count : Fin 33)
  | bara (n : Fin 16) (count : Fin 33)
  | barw (n : Fin 16) (c : CReg)
  | gbar
  -- matrix, near-memory, copy, handles, descriptors (spec/17)
  | mma (fmt : MmaFmt) (pair : Fin 4) (tile : AccReg) (form : MmaForm) (sel : Bool)
  | mzero (tile : AccReg)
  | mlda (tile : AccReg) (off : SReg) (space : LSpace) (sel : Bool)
  | msta (tile : AccReg) (off : SReg) (space : LSpace) (sel : Bool)
  | mfrgRd (d : VNum) (tile : AccReg) (q : Fin 4) (sel : Bool)
  | mfrgWr (tile : AccReg) (v : VNum) (q : Fin 4)
  | medge (em : EmReg) (s : SReg)
  | medgeN (em : EmReg) (s : SReg)
  | mchk (s : SReg) (tile : AccReg)
  | nmv (fmt : NmvFmt) (acc : Bool) (h : HReg) (w : TReg) (c : SReg)
  | cpy (h : HReg) (src : Fin 64) (c : SReg) (lit : CLit)
  | hset (h : HReg) (s : SReg)
  | hwait (h : HReg)
  | htake (c : CReg) (h : HReg)
  | hfree (h : HReg)
  | hfill (s : SReg) (h : HReg)
  | hstat (s : SReg) (h : HReg)
  | tdset (t : TReg) (s : SReg)
  | tdldRow (d : VNum) (t : TReg) (c : SReg) (sel : Bool)
  | tdldCol (d : VNum) (t : TReg) (c : SReg) (sel : Bool)
  -- reductions, launch, tapes, signalling (spec/18 R393)
  | redOpen (h : HReg) (s : SReg)
  | redOpenDef (b c : SReg)
  | redSub (h : HReg) (s : SReg) (space : Space)
  | redWait (h : HReg)
  | redMap (s : SReg) (h : HReg) (idx : Fin 64)
  | redCorr (h : HReg) (s : SReg) (space : Space) (sel : Bool)
  | redNext (h : HReg) (s : SReg)
  | redClose (h : HReg)
  | redCloseDef (s : SReg)
  | launch (c : CReg) (s : SReg)
  | lagg (a b : SReg)
  | lflush
  | tapePush (c : CReg) (b : SReg) (r : SReg)
  | tapeRun (h : HReg) (s : SReg)
  | tapeDrop (c : CReg) (s : SReg)
  | qsig (a b : SReg)
  -- region, rail, telemetry, auditor (spec/18 R394)
  | region (m : RegionMode) (l : Fin 8)
  | railr (s : SReg)
  | railt (s : SReg)
  | railtScript (c : CReg) (s : SReg)
  | tlmrDie (d s : SReg)
  | tlmrOwn (d s : SReg)
  | auds (s : SReg)
  -- events that the device itself brings about (spec/01, spec/03 to spec/05, spec/07, spec/09, spec/10, spec/16, spec/17)
  | boot (f : BootFindings)
  | dieResetEnd (d : DieId) (f : BootFindings)
  | launchCommand (slot : Nat)
  | copy (slot : Nat)
  | signal (slot : Nat)
  | waitge (slot : Nat)
  | waitgePoll (slot : Nat)
  | keygen (slot : Nat)
  | keyimp (slot : Nat) (unwrapped : Option Nat)
  | keydel (slot : Nat)
  | tlbinv (slot : Nat)
  | copyChunk (op : Nat)
  | instanceAdmission (fn : Nat) (shared : Bool)
  | teamDeal (fn : Nat) (shared : Bool)
  | instanceRetire (inst : Nat)
  | aggWindowTimeout (fn : Nat) (blk : Nat)
  | teamStop (team : Nat)
  | teamResume (team : Nat)
  | loadCompletion (op : Nat)
  | atomicCompletion (op : Nat)
  | sfCompletion (op : Nat)
  | frameMoveCompletion (frame : Nat) (dest : Place)
  | cowServiceCompletion (id : Nat)
  | waitmRecheck (group fibre : Nat)
  | cwbCompletion (op : Nat)
  | engineQueueResend (c : CoreId)
  | nmvCompletion (op : Nat)
  | railSlewStep (c : CoreId)
  | tileProductAttemptEnd (op : Nat) (errs : List ArrayError) (sampled : Bool)
  | auditEnd (op : Nat) (errs : List ArrayError)
  | auditMismatchTrap (group : Nat)
  | accumulatorMoveCompletion (op : Nat)
  | contributionPresent (op : Nat)
  | nodeForwardingTime (gid chan round : Nat)
  | roundGiveUp (team h : Nat)
  | redCorrCompletion (op : Nat)
  | flushReadCompletion (id : Nat) (error : Bool)
  | functionReset (fn : Nat)
  | meterTick
  | sharedTurnEnd
  | stopTimeout (team : Nat)
  | watchdogExpiry (group : Nat)
  | portRetrain (l : LinkId) (ok : Bool)
  | portDown (l : LinkId) (lost : List Nat)
  -- events: boot, reset, power (spec/01)
  | configurationRequest (r : ConfigRequest)
  | recoveryGo (store : Bool)
  | recoveryVerifyEnd (code : Nat) (flashOk : Bool) (f : BootFindings)
  | hubDieReset
  | computeDieReset (d : Fin 32)
  | memoryDieReset (d : Fin 16)
  | currentPacing (d : Fin 32) (exceeded : Bool)
  | powerClockStep
  | powerClockRestore
  | thermalClockStep (d : Fin 32)
  | thermalShutdownReset (d : DieId)
  | thermalClockRestore (d : Fin 32)
  | supplyOff
  -- events: links and the domain (spec/02)
  | flitReplay (r : FlitReplay)
  | cxlPoisonResponse (pa : Nat)
  | flushReadTimeout (id : Nat)
  | remoteRequest (slot pa : Nat) (r : RemoteReq)
  | timeExchange (ppm : Int) (ns : Nat)
  | syncLoss
  | domainJoin (pkg npkg : Nat) (time : Nat) (peers : List Nat)
  -- events: the host interface (spec/03)
  | bar2Read (fn off n : Nat)
  | bar2Write (fn off : Nat) (bytes : List Byte) (poisoned : Bool)
  | hostAtomicop (fn : Nat)
  | doorbell (fn q value : Nat)
  | feataWrite (fn : Nat) (value : Word)
  | vfEnable (value : Word)
  | functionResetTimeout (fn inst : Nat)
  | queueEnable (fn : Nat) (value : Word)
  | queueResume (fn : Nat) (value : Word)
  | errcntRead (fn : Nat)
  | registerWrite (fn off : Nat) (value : Word)
  | spdmGetVersion (fn : Nat)
  | spdmGetCapabilities (fn : Nat)
  | spdmNegotiateAlgorithms (fn : Nat) (offers : Bool)
  | spdmGetDigests (fn : Nat)
  | spdmGetCertificate (fn slot : Nat)
  | spdmChallenge (fn : Nat)
  | spdmGetMeasurements (fn idx : Nat)
  | spdmKeyExchange (fn : Nat)
  | spdmFinish (fn : Nat)
  | spdmHeartbeat (fn : Nat)
  | spdmEndSession (fn : Nat)
  | spdmUnsupportedRequest (fn : Nat)
  -- events: launch and teams (spec/04, spec/05, spec/11)
  | heartbeatMiss (c : CoreId) (misses : Nat)
  -- events: completions and memory (spec/07, spec/16)
  | pageWalk (slot va : Nat) (kind : AccKind)
  | frameMoveStart (frame : Nat) (dest : Place)
  | eccUncorrectable (e : EccStrike)
  -- events: packets of reductions (spec/10)
  | partialArrival (p : RedPacket)
  | deliveryArrival (p : RedPacket)
  | correctionArrival (p : RedPacket)
deriving DecidableEq, Repr

end Sys2Proof
end

