-- ==== Sys2Proof/Decode.lean ====
section
/-!
DEFINITION. Decoding and encoding of instruction words (spec/13_encoding_and_assembly.md R274 to R290 and the encoding
rules of the pages, spec/14 to spec/18). `decode` is total: it answers `none` for every value that raises the
illegal-encoding trap whatever the machine's state (R284, R289). `encode` is written from the same tables.
-/

namespace Sys2Proof

/-! ### Codes -/

/-- The code of a Pred. -/
def Pred.code : Pred → Nat
  | .eq => 0 | .ne => 1 | .lt => 2 | .le => 3 | .gt => 4 | .ge => 5 | .ltn => 6 | .len => 7 | .gtn => 8
  | .gen => 9

/-- The Pred of a code, if one is assigned. -/
def Pred.ofCode : Nat → Option Pred
  | 0 => some .eq | 1 => some .ne | 2 => some .lt | 3 => some .le | 4 => some .gt | 5 => some .ge | 6 => some .ltn
  | 7 => some .len | 8 => some .gtn | 9 => some .gen | _ => none

/-- The code of a IntTy. -/
def IntTy.code : IntTy → Nat
  | .i32 => 0 | .n32 => 1 | .i64 => 2 | .n64 => 3

/-- The IntTy of a code, if one is assigned. -/
def IntTy.ofCode : Nat → Option IntTy
  | 0 => some .i32 | 1 => some .n32 | 2 => some .i64 | 3 => some .n64 | _ => none

/-- The code of a FTy. -/
def FTy.code : FTy → Nat
  | .f32 => 0 | .f64 => 1 | .f16x2 => 2 | .bf16x2 => 3

/-- The FTy of a code, if one is assigned. -/
def FTy.ofCode : Nat → Option FTy
  | 0 => some .f32 | 1 => some .f64 | 2 => some .f16x2 | 3 => some .bf16x2 | _ => none

/-- The code of a CvtTy. -/
def CvtTy.code : CvtTy → Nat
  | .f64 => 0 | .f32 => 1 | .f16 => 2 | .bf16 => 3 | .e4m3 => 4 | .e5m2 => 5 | .e2m1 => 6 | .i4 => 7 | .i8 => 8
  | .n8 => 9 | .i16 => 10 | .n16 => 11 | .i32 => 12 | .n32 => 13 | .i64 => 14 | .n64 => 15

/-- The CvtTy of a code, if one is assigned. -/
def CvtTy.ofCode : Nat → Option CvtTy
  | 0 => some .f64 | 1 => some .f32 | 2 => some .f16 | 3 => some .bf16 | 4 => some .e4m3 | 5 => some .e5m2
  | 6 => some .e2m1 | 7 => some .i4 | 8 => some .i8 | 9 => some .n8 | 10 => some .i16 | 11 => some .n16
  | 12 => some .i32 | 13 => some .n32 | 14 => some .i64 | 15 => some .n64 | _ => none

/-- The code of a CvtMode. -/
def CvtMode.code : CvtMode → Nat
  | .rne => 0 | .rtz => 1 | .rup => 2 | .rdn => 3 | .dyn => 4

/-- The CvtMode of a code, if one is assigned. -/
def CvtMode.ofCode : Nat → Option CvtMode
  | 0 => some .rne | 1 => some .rtz | 2 => some .rup | 3 => some .rdn | 4 => some .dyn | _ => none

/-- The code of a RMode. -/
def RMode.code : RMode → Nat
  | .rne => 0 | .rtz => 1 | .rup => 2 | .rdn => 3

/-- The RMode of a code, if one is assigned. -/
def RMode.ofCode : Nat → Option RMode
  | 0 => some .rne | 1 => some .rtz | 2 => some .rup | 3 => some .rdn | _ => none

/-- The code of a RdcOp. -/
def RdcOp.code : RdcOp → Nat
  | .add => 0 | .min => 1 | .max => 2 | .and => 3 | .or => 4 | .xor => 5

/-- The RdcOp of a code, if one is assigned. -/
def RdcOp.ofCode : Nat → Option RdcOp
  | 0 => some .add | 1 => some .min | 2 => some .max | 3 => some .and | 4 => some .or | 5 => some .xor | _ => none

/-- The code of a RdcTy. -/
def RdcTy.code : RdcTy → Nat
  | .i32 => 0 | .n32 => 1 | .f32 => 2

/-- The RdcTy of a code, if one is assigned. -/
def RdcTy.ofCode : Nat → Option RdcTy
  | 0 => some .i32 | 1 => some .n32 | 2 => some .f32 | _ => none

/-- The code of a FPred. -/
def FPred.code : FPred → Nat
  | .eq => 0 | .ne => 1 | .lt => 2 | .le => 3 | .gt => 4 | .ge => 5 | .un => 6 | .ord => 7

/-- The FPred of a code, if one is assigned. -/
def FPred.ofCode : Nat → Option FPred
  | 0 => some .eq | 1 => some .ne | 2 => some .lt | 3 => some .le | 4 => some .gt | 5 => some .ge | 6 => some .un
  | 7 => some .ord | _ => none

/-- The code of a PackKind. -/
def PackKind.code : PackKind → Nat
  | .f16 => 0 | .bf16 => 1 | .i8 => 2 | .n8 => 3 | .i4 => 4 | .e2m1 => 5 | .e4m3 => 6 | .e5m2 => 7

/-- The PackKind of a code, if one is assigned. -/
def PackKind.ofCode : Nat → Option PackKind
  | 0 => some .f16 | 1 => some .bf16 | 2 => some .i8 | 3 => some .n8 | 4 => some .i4 | 5 => some .e2m1
  | 6 => some .e4m3 | 7 => some .e5m2 | _ => none

/-- The code of a QntKind. -/
def QntKind.code : QntKind → Nat
  | .q8 => 0 | .q4 => 1 | .e2m1 => 2 | .ent8 => 3 | .ent4 => 4

/-- The QntKind of a code, if one is assigned. -/
def QntKind.ofCode : Nat → Option QntKind
  | 0 => some .q8 | 1 => some .q4 | 2 => some .e2m1 | 3 => some .ent8 | 4 => some .ent4 | _ => none

/-- The code of a DqntKind. -/
def DqntKind.code : DqntKind → Nat
  | .q8 => 0 | .q4 => 1 | .e2m1 => 2 | .i4 => 3 | .i8 => 4

/-- The DqntKind of a code, if one is assigned. -/
def DqntKind.ofCode : Nat → Option DqntKind
  | 0 => some .q8 | 1 => some .q4 | 2 => some .e2m1 | 3 => some .i4 | 4 => some .i8 | _ => none

/-- The code of a Width. -/
def Width.code : Width → Nat
  | .b8 => 0 | .b16 => 1 | .b32 => 2 | .b64 => 3 | .b128 => 4

/-- The Width of a code, if one is assigned. -/
def Width.ofCode : Nat → Option Width
  | 0 => some .b8 | 1 => some .b16 | 2 => some .b32 | 3 => some .b64 | 4 => some .b128 | _ => none

/-- The code of a Scope. -/
def Scope.code : Scope → Nat
  | .fib => 0 | .grp => 1 | .team => 2 | .clu => 3 | .die => 4 | .dev => 5 | .dom => 6 | .sys => 7

/-- The Scope of a code, if one is assigned. -/
def Scope.ofCode : Nat → Option Scope
  | 0 => some .fib | 1 => some .grp | 2 => some .team | 3 => some .clu | 4 => some .die | 5 => some .dev
  | 6 => some .dom | 7 => some .sys | _ => none

/-- The code of a Ord. -/
def Ord.code : Ord → Nat
  | .none => 0 | .acq => 1 | .rel => 2 | .ar => 3

/-- The Ord of a code, if one is assigned. -/
def Ord.ofCode : Nat → Option Ord
  | 0 => some .none | 1 => some .acq | 2 => some .rel | 3 => some .ar | _ => Option.none

/-- The code of a Space. -/
def Space.code : Space → Nat
  | .virt => 0 | .sp => 1 | .cm => 2 | .ds => 3

/-- The Space of a code, if one is assigned. -/
def Space.ofCode : Nat → Option Space
  | 0 => some .virt | 1 => some .sp | 2 => some .cm | 3 => some .ds | _ => none

/-- The code of a LSpace. -/
def LSpace.code : LSpace → Nat
  | .sp => 0 | .cm => 1 | .ds => 2

/-- The LSpace of a code, if one is assigned. -/
def LSpace.ofCode : Nat → Option LSpace
  | 0 => some .sp | 1 => some .cm | 2 => some .ds | _ => none

/-- The code of a AOp. -/
def AOp.code : AOp → Nat
  | .add => 0 | .and => 1 | .or => 2 | .xor => 3 | .min => 4 | .max => 5 | .minn => 6 | .maxn => 7 | .exch => 8
  | .cas => 9 | .fadd => 10 | .fmin => 11 | .fmax => 12

/-- The AOp of a code, if one is assigned. -/
def AOp.ofCode : Nat → Option AOp
  | 0 => some .add | 1 => some .and | 2 => some .or | 3 => some .xor | 4 => some .min | 5 => some .max
  | 6 => some .minn | 7 => some .maxn | 8 => some .exch | 9 => some .cas | 10 => some .fadd | 11 => some .fmin
  | 12 => some .fmax | _ => none

/-- The code of a WLevel. -/
def WLevel.code : WLevel → Nat
  | .fibre => 0 | .group => 1 | .team => 2 | .grid => 3 | .ext => 4

/-- The WLevel of a code, if one is assigned. -/
def WLevel.ofCode : Nat → Option WLevel
  | 0 => some .fibre | 1 => some .group | 2 => some .team | 3 => some .grid | 4 => some .ext | _ => none

/-- The code of a WCond. -/
def WCond.code : WCond → Nat
  | .eq => 0 | .ne => 1 | .gen => 2 | .ltn => 3 | .ge => 4 | .lt => 5 | .set => 6 | .clr => 7

/-- The WCond of a code, if one is assigned. -/
def WCond.ofCode : Nat → Option WCond
  | 0 => some .eq | 1 => some .ne | 2 => some .gen | 3 => some .ltn | 4 => some .ge | 5 => some .lt
  | 6 => some .set | 7 => some .clr | _ => none

/-- The code of a MmaFmt. -/
def MmaFmt.code : MmaFmt → Nat
  | .e4m3 => 0 | .e5m2 => 1 | .e2m1 => 2 | .i8 => 3 | .i4 => 4 | .q8 => 5 | .q4 => 6 | .bf16 => 7 | .f16 => 8

/-- The MmaFmt of a code, if one is assigned. -/
def MmaFmt.ofCode : Nat → Option MmaFmt
  | 0 => some .e4m3 | 1 => some .e5m2 | 2 => some .e2m1 | 3 => some .i8 | 4 => some .i4 | 5 => some .q8
  | 6 => some .q4 | 7 => some .bf16 | 8 => some .f16 | _ => none

/-- The code of a NmvFmt. -/
def NmvFmt.code : NmvFmt → Nat
  | .e4m3 => 0 | .bf16 => 1 | .q8 => 2 | .q4 => 3

/-- The NmvFmt of a code, if one is assigned. -/
def NmvFmt.ofCode : Nat → Option NmvFmt
  | 0 => some .e4m3 | 1 => some .bf16 | 2 => some .q8 | 3 => some .q4 | _ => none

/-- The code of a CkMode. -/
def CkMode.code : CkMode → Nat
  | .none => 0 | .sum => 1 | .crc => 2

/-- The CkMode of a code, if one is assigned. -/
def CkMode.ofCode : Nat → Option CkMode
  | 0 => some .none | 1 => some .sum | 2 => some .crc | _ => Option.none

/-- The code of a RegionMode. -/
def RegionMode.code : RegionMode → Nat
  | .exact => 0 | .checked => 1 | .tolerant => 2

/-- The RegionMode of a code, if one is assigned. -/
def RegionMode.ofCode : Nat → Option RegionMode
  | 0 => some .exact | 1 => some .checked | 2 => some .tolerant | _ => none

/-- The code of a SpecialReg. -/
def SpecialReg.code : SpecialReg → Nat
  | .lane => 0 | .group => 1 | .team => 2 | .teamx => 3 | .teamy => 4 | .teamz => 5 | .nteams => 6 | .ngroups => 7
  | .role => 8 | .wb => 9 | .walloc => 10 | .fmask => 11 | .fflag => 12 | .fpsr => 13 | .region => 14
  | .rail => 15 | .time => 16 | .dtst => 17 | .aggidx => 18 | .cohort => 19 | .wdog => 20 | .tvec => 21
  | .tcause => 22 | .tsyn => 23 | .tunit => 24 | .ttile => 25 | .tpc => 26 | .tlanes => 27 | .pcore => 32
  | .hmdie => 33 | .hmap => 34 | .ltsel => 35 | .ltab => 36 | .lksel => 37 | .lkstat => 38 | .cflip => 39

/-- The SpecialReg of a code, if one is assigned. -/
def SpecialReg.ofCode : Nat → Option SpecialReg
  | 0 => some .lane | 1 => some .group | 2 => some .team | 3 => some .teamx | 4 => some .teamy | 5 => some .teamz
  | 6 => some .nteams | 7 => some .ngroups | 8 => some .role | 9 => some .wb | 10 => some .walloc
  | 11 => some .fmask | 12 => some .fflag | 13 => some .fpsr | 14 => some .region | 15 => some .rail
  | 16 => some .time | 17 => some .dtst | 18 => some .aggidx | 19 => some .cohort | 20 => some .wdog
  | 21 => some .tvec | 22 => some .tcause | 23 => some .tsyn | 24 => some .tunit | 25 => some .ttile
  | 26 => some .tpc | 27 => some .tlanes | 32 => some .pcore | 33 => some .hmdie | 34 => some .hmap
  | 35 => some .ltsel | 36 => some .ltab | 37 => some .lksel | 38 => some .lkstat | 39 => some .cflip | _ => none

/-! ### Fields (R274, R283) -/

/-- The `n` bits of `w` from bit `lo` up. -/
def bits (w lo n : Nat) : Nat := w / 2 ^ lo % 2 ^ n

/-- OP, bits 29:24 (R274). -/
def fOp (w : Nat) : Nat := bits w 24 6
/-- Bits 23:18. -/
def fD (w : Nat) : Nat := bits w 18 6
/-- Bits 17:12. -/
def fA (w : Nat) : Nat := bits w 12 6
/-- Bits 11:6. -/
def fB (w : Nat) : Nat := bits w 6 6
/-- Bits 5:0. -/
def fC (w : Nat) : Nat := bits w 0 6
/-- K, bit 31 (R274). -/
def fK (w : Nat) : Bool := bits w 31 1 == 1
/-- E, bit 30 (R274). -/
def fE (w : Nat) : Bool := bits w 30 1 == 1

/-- A register number of a class of 64. -/
def r6 (x : Nat) : Fin 64 := Fin.ofNat 64 x

/-- A number below `n`, else no value (R284: a value outside its class is illegal). -/
def cls (n x : Nat) : Option (Fin n) := if h : x < n then some ⟨x, h⟩ else none

/-- The value where the condition holds. -/
def req {α : Type} (c : Bool) (o : Option α) : Option α := if c then o else none

/-- A one-bit field. -/
def bit (w i : Nat) : Bool := bits w i 1 == 1

/-! ### Literals (R279) -/

/-- An index literal: the index register and the field that it makes indexed (R279). -/
structure IdxLit where
  x : XReg
  fld : Nat
deriving DecidableEq, Repr

/-- An index literal's payload, with no Res bit set (R279). -/
def idxLitOf (l : Nat) : Option IdxLit :=
  if fOp l = 3 ∧ bits l 23 1 = 1 ∧ bits l 0 19 = 0 then some ⟨Fin.ofNat 4 (bits l 21 2), bits l 19 2⟩ else none

/-- The v operand in field `f` holding `v`, under the owner's index literal (R132, R279). -/
def vopOf (ix : Option IdxLit) (f v : Nat) : VOp :=
  match ix with
  | none => .dir (r6 v)
  | some l => if l.fld = f then .idx l.x (r6 v) else .dir (r6 v)

/-- The literal names one of the fields `fs`, where there is one (R279, R318). -/
def ixIn (ix : Option IdxLit) (fs : List Nat) : Bool :=
  match ix with
  | none => true
  | some l => fs.contains l.fld

/-- Formats whose words may own an index literal: A to F (R279, R288). -/
def formatAF (op : Nat) : Bool :=
  [5, 8, 9, 10, 11, 12, 13, 14, 15, 17, 18, 19, 20, 24, 25, 26, 27, 28, 29, 30, 31, 32, 33, 34, 35, 36, 37, 38, 39,
    40, 41, 42].contains op

/-- Format G (R288). -/
def formatG (op : Nat) : Bool := decide (44 ≤ op ∧ op ≤ 51)

/-- Format X (R288). -/
def formatX (op : Nat) : Bool := decide (52 ≤ op ∧ op ≤ 54 ∨ 56 ≤ op ∧ op ≤ 63)

/-- LT of a word of format G (bit 0) or X (bit 4); 0 elsewhere (R279, R283). -/
def fLT (w : Nat) : Bool := (formatG (fOp w) && bit w 0) || (formatX (fOp w) && bit w 4)

/-- The operand literal of format G (R285). -/
def gLitOf (l : Nat) : Option GLit := do
  let scope ← Scope.ofCode (bits l 18 3)
  let ord ← Ord.ofCode (bits l 16 2)
  some { ext := BitVec.ofNat 2 (bits l 21 2), scope := scope, ord := ord, off := BitVec.ofNat 16 (bits l 0 16) }

/-- BASE, IDX and the literal of a word of format G. -/
def gAddrOf (w : Nat) (ol : Option Nat) : Option GAddr :=
  match ol with
  | none => some ⟨r6 (fA w), r6 (fB w), none⟩
  | some l => (gLitOf l).map fun g => ⟨r6 (fA w), r6 (fB w), some g⟩

/-- The operand literal of an atomic (R350). -/
def aLitOf (l : Nat) : Option ALit := do
  let aop ← AOp.ofCode (bits l 19 4)
  let scope ← Scope.ofCode (bits l 15 3)
  let ord ← Ord.ofCode (bits l 13 2)
  some { aop := aop, wd := bit l 18, scope := scope, ord := ord, off := BitVec.ofNat 13 (bits l 0 13) }

/-- The operand literal of WAITM (R357). -/
def wLitOf (l : Nat) : Option WLit := do
  let level ← WLevel.ofCode (bits l 20 3)
  let cond ← WCond.ofCode (bits l 16 3)
  let scope ← Scope.ofCode (bits l 12 3)
  some { level := level, any := bit l 19, cond := cond, wd := bit l 15, scope := scope,
         off := BitVec.ofNat 12 (bits l 0 12) }

/-- The operand literal of CPY (R384). -/
def cLitOf (l : Nat) : Option CLit := do
  let ssp ← Space.ofCode (bits l 21 2)
  let dsp ← Space.ofCode (bits l 19 2)
  let ck ← CkMode.ofCode (bits l 17 2)
  req (bits l 0 4 == 0) <|
    some { ssp := ssp, dsp := dsp, ck := ck, chk := bit l 16, t := bit l 15, mc := bit l 14,
           mem := BitVec.ofNat 4 (bits l 10 4), xs := r6 (bits l 4 6) }

/-! ### The majors: each function gives the words of the pages named -/

/-- Major 0x01 (R277). -/
def parseHdr (w : Nat) : Option Instr :=
  req (bits w 30 2 == 0 && bits w 0 3 == 0) <|
    some (.hdr (BitVec.ofNat 12 (bits w 12 12)) (Fin.ofNat 16 (bits w 8 4)) (Fin.ofNat 16 (bits w 4 4)) (bit w 3))

/-- Major 0x02 (R278). -/
def parseLive (w : Nat) : Option Instr :=
  req (bits w 30 2 == 1 && bits w 22 2 == 0) <|
    some (.live (bit w 21) (bit w 20) (BitVec.ofNat 8 (bits w 12 8)) (BitVec.ofNat 4 (bits w 8 4))
      (BitVec.ofNat 8 (bits w 0 8)))

/-- Major 0x04, BR and CALL (R306). -/
def parseBr (w : Nat) : Option Instr :=
  let off := BitVec.ofNat 17 (bits w 0 17)
  req (!fK w) <|
    match bits w 21 3 with
    | 0 => some (.brCond (Fin.ofNat 8 (bits w 18 3)) (bit w 17) off)
    | 1 => req (bits w 17 4 == 0) (some (.brAlways off))
    | 2 => req (!bit w 17) (some (.call (Fin.ofNat 8 (bits w 18 3)) off))
    | _ => none

/-- Major 0x05, BRI and RET (R307). -/
def parseBri (w : Nat) : Option Instr :=
  req (!fK w && fD w == 0 && fB w == 0) <|
    match fC w with
    | 0 => some (.bri (r6 (fA w)))
    | 1 => some (.ret (r6 (fA w)))
    | _ => none

/-- Major 0x06, LOOP and LBRK (R308). -/
def parseLoop (w : Nat) : Option Instr :=
  req (!fK w && fC w == 0) <| do
    let lc ← cls 3 (bits w 22 2)
    if bit w 6 then
      req (bits w 7 8 == 0) <|
        if bit w 21 then req (bits w 18 3 == 0) (some (.lbrk lc (some (Fin.ofNat 8 (bits w 15 3)))))
        else req (bits w 15 6 == 0) (some (.lbrk lc none))
    else
      some (.loop lc (if bit w 21 then .imm (r6 (bits w 15 6)) else .reg (r6 (bits w 15 6)))
        (BitVec.ofNat 8 (bits w 7 8)))

/-- Major 0x08 (R300). -/
def parse08 (w : Nat) : Option Instr :=
  let d := r6 (fD w)
  let a := r6 (fA w)
  let b := r6 (fB w)
  match fC w with
  | 0 => some (.sadd d a b)
  | 1 => some (.ssub d a b)
  | 2 => some (.smul d a b)
  | 3 => some (.smulh d a b)
  | 4 => some (.smulhn d a b)
  | 5 => some (.sand d a b)
  | 6 => some (.sor d a b)
  | 7 => some (.sxor d a b)
  | 8 => some (.sshl d a b)
  | 9 => some (.sshr d a b)
  | 10 => some (.ssra d a b)
  | 11 => some (.smin d a b)
  | 12 => some (.smax d a b)
  | 13 => some (.sminn d a b)
  | 14 => some (.smaxn d a b)
  | 15 => req (fB w == 0) (some (.smov d a))
  | 16 => req (fB w == 0) ((cls 3 (fA w)).map (.smovLc d))
  | _ => none

/-- Majors 0x09 to 0x0D (R301, R302). -/
def parse09 (w : Nat) : Option Instr := some (.saddi (r6 (fD w)) (r6 (fA w)) (BitVec.ofNat 12 (bits w 0 12)))
/-- SMOVI (R301). -/
def parse0A (w : Nat) : Option Instr := some (.smovi (r6 (fD w)) (BitVec.ofNat 18 (bits w 0 18)))
/-- SMOVH (R301). -/
def parse0B (w : Nat) : Option Instr :=
  some (.smovh (r6 (fD w)) (Fin.ofNat 4 (bits w 16 2)) (BitVec.ofNat 16 (bits w 0 16)))
/-- SCMP (R302). -/
def parse0C (w : Nat) : Option Instr := do
  let c ← cls 8 (fD w)
  let p ← Pred.ofCode (fC w)
  some (.scmp c (r6 (fA w)) (r6 (fB w)) p)
/-- SCMPI (R302). -/
def parse0D (w : Nat) : Option Instr := do
  let c ← cls 8 (fD w)
  let p ← Pred.ofCode (bits w 8 4)
  some (.scmpi c (r6 (fA w)) p (BitVec.ofNat 8 (bits w 0 8)))

/-- Major 0x0E (R303). -/
def parse0E (w : Nat) : Option Instr :=
  let d := r6 (fD w)
  let a := r6 (fA w)
  let b := r6 (fB w)
  match fC w with
  | 8 => req (fB w == 0) (some (.sclz d a))
  | 9 => req (fB w == 0) (some (.spopc d a))
  | 10 => some (.sbfe d a b)
  | 11 => some (.sbfeSx d a b)
  | 12 => some (.sbfi d a b)
  | f => (cls 8 f).map fun c => .ssel d c a b

/-- Major 0x0F (R304). -/
def parse0F (w : Nat) (ix : Option IdxLit) : Option Instr :=
  let d := r6 (fD w)
  let a := r6 (fA w)
  match fC w with
  | 1 => req (ixIn ix [0] && decide (fB w ≤ 1)) <|
      (SpecialReg.ofCode (fA w)).map fun n => .srdV (vopOf ix 0 (fD w)) n (fB w == 1)
  | 8 => req (ixIn ix [1]) (some (.slane d (vopOf ix 1 (fA w)) (r6 (fB w))))
  | f => req (ix.isNone && fB w == 0) <|
      match f with
      | 0 => (SpecialReg.ofCode (fA w)).map (.srdS d)
      | 2 => (cls 8 (fA w)).map (.spredSp d)
      | 3 => (cls 8 (fD w)).map fun p => .spredPs p a
      | 4 => (SpecialReg.ofCode (fD w)).map fun n => .swr n a
      | 5 => do some (.svoteAny (← cls 8 (fD w)) (← cls 8 (fA w)))
      | 6 => do some (.svoteAll (← cls 8 (fD w)) (← cls 8 (fA w)))
      | 7 => do some (.svoteUni (← cls 8 (fD w)) (← cls 8 (fA w)))
      | _ => none

/-- Major 0x10 (R313). -/
def parse10 (w : Nat) : Option Instr :=
  req (!fK w) <|
    match bits w 21 3 with
    | 0 => some (.fsplit (Fin.ofNat 8 (bits w 18 3)) (bit w 17) (BitVec.ofNat 17 (bits w 0 17)))
    | 1 => req (bits w 0 21 == 0) (some .fjoin)
    | 2 => req (bits w 0 21 == 0) (some .fend)
    | _ => none

/-- Major 0x11 (R315). -/
def parse11 (w : Nat) : Option Instr :=
  req (fD w == 0 && (bit w 10 || fA w == 0)) <|
    let a := if bit w 10 then some (r6 (fA w)) else none
    let imm := BitVec.ofNat 10 (bits w 0 10)
    some (if bit w 11 then .winadd a imm else .winset a imm)

/-- The source of XMOV and XADD (R316). -/
def xSrcOf (w : Nat) (ix : Option IdxLit) : Option XSrc :=
  match bits w 9 2 with
  | 0 => req (ix.isNone && fA w == 0) (some .imm)
  | 1 => req (ixIn ix [1]) (some (.v (vopOf ix 1 (fA w))))
  | 2 => req ix.isNone (some (.s (r6 (fA w))))
  | _ => req ix.isNone ((cls 4 (fA w)).map .x)

/-- Major 0x12 (R316). -/
def parse12 (w : Nat) (ix : Option IdxLit) : Option Instr := do
  let d ← cls 4 (fD w)
  let src ← xSrcOf w ix
  let imm := BitVec.ofNat 9 (bits w 0 9)
  some (if bit w 11 then .xadd d src imm else .xmov d src imm)

/-- Major 0x13 (R312). -/
def parse13 (w : Nat) : Option Instr :=
  match fD w with
  | 0 => req (bits w 16 2 == 0) (some (.trap (BitVec.ofNat 16 (bits w 0 16))))
  | 1 => req (!fK w && bits w 0 18 == 0) (some .rett)
  | 2 => req (bits w 16 2 == 0) (some (.bkpt (BitVec.ofNat 16 (bits w 0 16))))
  | _ => none

/-- Major 0x14 (R312). -/
def parse14 (w : Nat) : Option Instr :=
  req (!fK w && bits w 0 18 == 0) <|
    match fD w with
    | 0 => some .gend
    | 1 => some .yield
    | _ => none

/-- Major 0x18 (R319). -/
def parse18 (w : Nat) (ix : Option IdxLit) : Option Instr := do
  let ty ← IntTy.ofCode (bits w 0 2)
  let d := vopOf ix 0 (fD w)
  let a := vopOf ix 1 (fA w)
  let b := vopOf ix 2 (fB w)
  let two (i : Instr) : Option Instr := req (ixIn ix [0, 1, 2]) (some i)
  let one (i : Instr) : Option Instr := req (ixIn ix [0, 1] && fB w == 0) (some i)
  match bits w 2 4 with
  | 0 => two (.vadd ty d a b)
  | 1 => two (.vsub ty d a b)
  | 2 => two (.vmul ty d a b)
  | 3 => two (.vmulh ty d a b)
  | 4 => two (.vand ty d a b)
  | 5 => two (.vor ty d a b)
  | 6 => two (.vxor ty d a b)
  | 7 => one (.vnot ty d a)
  | 8 => two (.vshl ty d a b)
  | 9 => two (.vshr ty d a b)
  | 10 => two (.vsra ty d a b)
  | 11 => two (.vmin ty d a b)
  | 12 => two (.vmax ty d a b)
  | 13 => one (.vabs ty d a)
  | 14 => one (.vneg ty d a)
  | _ => one (.vmov ty d a)

/-- Majors 0x19 to 0x1B (R320). -/
def parse19 (w : Nat) (ix : Option IdxLit) : Option Instr :=
  req (ixIn ix [0, 1]) <| some (.vaddi (vopOf ix 0 (fD w)) (vopOf ix 1 (fA w)) (BitVec.ofNat 12 (bits w 0 12)))
/-- VMOVI (R320). -/
def parse1A (w : Nat) (ix : Option IdxLit) : Option Instr :=
  req (ixIn ix [0]) <| some (.vmovi (vopOf ix 0 (fD w)) (BitVec.ofNat 18 (bits w 0 18)))
/-- VMAD (R320). -/
def parse1B (w : Nat) (ix : Option IdxLit) : Option Instr :=
  req (ixIn ix [0, 1, 2, 3]) <|
    some (.vmad (vopOf ix 0 (fD w)) (vopOf ix 1 (fA w)) (vopOf ix 2 (fB w)) (vopOf ix 3 (fC w)))

/-- Major 0x1C (R321). -/
def parse1C (w : Nat) (ix : Option IdxLit) : Option Instr :=
  let a := vopOf ix 1 (fA w)
  let b := vopOf ix 2 (fB w)
  if bit w 5 then
    req (ixIn ix [0, 1, 2] && !bit w 3) <|
      some (.vsel (vopOf ix 0 (fD w)) (bit w 4) (Fin.ofNat 8 (bits w 0 3)) a b)
  else
    req (ixIn ix [1, 2]) <| do
      let p ← cls 8 (fD w)
      let c ← Pred.ofCode (bits w 0 4)
      some (.vcmp p (bit w 4) c a b)

/-- Major 0x1D (R322). -/
def parse1D (w : Nat) (ix : Option IdxLit) : Option Instr :=
  let d := vopOf ix 0 (fD w)
  let a := vopOf ix 1 (fA w)
  let b := vopOf ix 2 (fB w)
  match bits w 3 3 with
  | 0 => req (ixIn ix [0, 1] && fB w == 0 && bits w 0 3 == 0) (some (.vclz d a))
  | 1 => req (ixIn ix [0, 1] && fB w == 0 && bits w 0 3 == 0) (some (.vpopc d a))
  | 2 => req (ixIn ix [0, 1, 2] && bits w 0 3 == 0) (some (.vbfe d a b))
  | 3 => req (ixIn ix [0, 1, 2] && bits w 0 3 == 0) (some (.vbfeSx d a b))
  | 4 => req (ixIn ix [0, 1, 2] && bits w 0 3 == 0) (some (.vbfi d a b))
  | 5 => req (ixIn ix [0, 1, 2]) (some (.vdot4 (bit w 0) (bit w 1) (bit w 2) d a b))
  | 6 => req (ixIn ix [0, 1, 2]) (some (.vdot8 (bit w 0) (bit w 1) (bit w 2) d a b))
  | _ => none

/-- The selector of VSHFL (R324). -/
def shflOf (w : Nat) (ix : Option IdxLit) : Option ShflSel :=
  match bits w 2 2 with
  | 0 => req (ixIn ix [0, 1, 2]) (some (.idx (vopOf ix 2 (fB w))))
  | 1 => req (ixIn ix [0, 1]) ((cls 32 (fB w)).map .xor)
  | 2 => req (ixIn ix [0, 1]) ((cls 32 (fB w)).map .up)
  | _ => req (ixIn ix [0, 1]) ((cls 32 (fB w)).map .down)

/-- Major 0x1E (R324). -/
def parse1E (w : Nat) (ix : Option IdxLit) : Option Instr :=
  let d := vopOf ix 0 (fD w)
  let a := vopOf ix 1 (fA w)
  req (bits w 0 2 == 0) <|
    match bits w 4 2 with
    | 0 => (shflOf w ix).map fun s => .vshfl d a s
    | 1 => req (ixIn ix [0, 1, 2] && bits w 2 2 == 0) (some (.vperm d a (vopOf ix 2 (fB w))))
    | 2 => req (ixIn ix [0, 1]) <| do
        let op ← RdcOp.ofCode (fB w)
        let ty ← RdcTy.ofCode (bits w 2 2)
        some (.vrdc op ty d a)
    | _ => none

/-- Major 0x1F (R325). -/
def parse1F (w : Nat) (ix : Option IdxLit) : Option Instr :=
  match fC w with
  | 5 => req (ixIn ix [0] && fB w == 0) (some (.vmovs (vopOf ix 0 (fD w)) (r6 (fA w))))
  | 6 => req (ixIn ix [0] && fB w == 0) (some (.vmovsHi (vopOf ix 0 (fD w)) (r6 (fA w))))
  | f => req ix.isNone <| do
      let d ← cls 8 (fD w)
      match f with
      | 0 => do some (.pand d (← cls 8 (fA w)) (← cls 8 (fB w)))
      | 1 => do some (.por d (← cls 8 (fA w)) (← cls 8 (fB w)))
      | 2 => do some (.pxor d (← cls 8 (fA w)) (← cls 8 (fB w)))
      | 3 => req (fB w == 0) ((cls 8 (fA w)).map (.pnot d))
      | 4 => req (fB w == 0) ((cls 8 (fA w)).map (.pmov d))
      | 7 => req (fA w == 0 && decide (fB w ≤ 1)) (some (.pset d (fB w == 1)))
      | _ => none

/-- Major 0x20 (R326). -/
def parse20 (w : Nat) (ix : Option IdxLit) : Option Instr := do
  let ty ← FTy.ofCode (bits w 0 2)
  let d := vopOf ix 0 (fD w)
  let a := vopOf ix 1 (fA w)
  let b := vopOf ix 2 (fB w)
  let r := bit w 2
  req (ixIn ix [0, 1, 2]) <|
    match bits w 3 3 with
    | 0 => some (.vfadd ty r d a b)
    | 1 => some (.vfsub ty r d a b)
    | 2 => some (.vfmul ty r d a b)
    | 3 => req (!r) (some (.vfmin ty d a b))
    | 4 => req (!r) (some (.vfmax ty d a b))
    | 5 => some (.vfscl ty r d a b)
    | _ => none

/-- Majors 0x21, 0x25, 0x26, 0x27 (R327). -/
def parseFma (w : Nat) (ix : Option IdxLit) (f : VOp → VOp → VOp → VOp → Instr) : Option Instr :=
  req (ixIn ix [0, 1, 2, 3]) <|
    some (f (vopOf ix 0 (fD w)) (vopOf ix 1 (fA w)) (vopOf ix 2 (fB w)) (vopOf ix 3 (fC w)))

/-- Major 0x22 (R328). -/
def parse22 (w : Nat) (ix : Option IdxLit) : Option Instr := do
  let ty ← FTy.ofCode (bits w 0 2)
  let d := vopOf ix 0 (fD w)
  let a := vopOf ix 1 (fA w)
  req (ixIn ix [0, 1] && fB w == 0) <|
    match bits w 4 2 with
    | 0 => req (bits w 2 2 == 0) (some (.vfabs ty d a))
    | 1 => req (bits w 2 2 == 0) (some (.vfneg ty d a))
    | 2 => req (bits w 2 2 == 0) (some (.vfclass ty d a))
    | _ => (RMode.ofCode (bits w 2 2)).map fun m => .vfrnd ty m d a

/-- Major 0x23 (R329). -/
def parse23 (w : Nat) (ix : Option IdxLit) : Option Instr :=
  req (ixIn ix [1, 2] && !bit w 5 && !bit w 1) <| do
    let p ← cls 8 (fD w)
    let c ← FPred.ofCode (bits w 2 3)
    some (.vfcmp p (bit w 0) c (vopOf ix 1 (fA w)) (vopOf ix 2 (fB w)))

/-- Major 0x24 (R330). -/
def parse24 (w : Nat) (ix : Option IdxLit) : Option Instr :=
  req (ixIn ix [0, 1, 2] && bits w 1 5 == 0) <|
    some (.vfdot2 (bit w 0) (vopOf ix 0 (fD w)) (vopOf ix 1 (fA w)) (vopOf ix 2 (fB w)))

/-- Major 0x28 (R331). -/
def parse28 (w : Nat) (ix : Option IdxLit) : Option Instr :=
  req (ixIn ix [0, 1]) <| do
    let st ← CvtTy.ofCode (bits w 8 4)
    let dt ← CvtTy.ofCode (bits w 4 4)
    let d := vopOf ix 0 (fD w)
    let a := vopOf ix 1 (fA w)
    if bits w 1 3 = 5 then some (.vcvtsr st dt (bit w 0) d a)
    else (CvtMode.ofCode (bits w 1 3)).map fun m => .vcvt st dt m (bit w 0) d a

/-- Major 0x29 (R334 to R337). -/
def parse29 (w : Nat) (ix : Option IdxLit) : Option Instr :=
  let d := vopOf ix 0 (fD w)
  let a := vopOf ix 1 (fA w)
  let b := vopOf ix 2 (fB w)
  match bits w 3 3 with
  | 0 => req (ixIn ix [0, 1]) <| do
      let k ← PackKind.ofCode (bits w 0 3)
      (cls 8 (fB w)).map fun n => .vpack k d a n
  | 1 => req (ixIn ix [0, 1]) <| do
      let k ← PackKind.ofCode (bits w 0 3)
      (cls 8 (fB w)).map fun n => .vunpk k d a n
  | 2 => req (ixIn ix [0, 1, 2]) ((QntKind.ofCode (bits w 0 3)).map fun k => .vqnt k d a b)
  | 3 => req (ixIn ix [0, 1, 2]) ((DqntKind.ofCode (bits w 0 3)).map fun k => .vdqnt k d a b)
  | 4 => req (ixIn ix [0] && bits w 0 3 == 0) (some (.vrng d (r6 (fA w)) (r6 (fB w))))
  | _ => none

/-- Major 0x2A (R338). -/
def parse2A (w : Nat) (ix : Option IdxLit) : Option Instr :=
  let d := vopOf ix 0 (fD w)
  let a := vopOf ix 1 (fA w)
  let s := bit w 8
  req (ixIn ix [0, 1] && bits w 0 8 == 0) <|
    match bits w 9 3 with
    | 0 => some (.vrcp d a s)
    | 1 => some (.vrsq d a s)
    | 2 => some (.vsqrt d a s)
    | 3 => some (.vexp2 d a s)
    | 4 => some (.vlog2 d a s)
    | 5 => some (.vsin d a s)
    | 6 => some (.vcos d a s)
    | _ => some (.vtanh d a s)

/-- Majors 0x2C to 0x32 (R339, R340). -/
def parseMem (op w : Nat) (ol : Option Nat) : Option Instr := do
  let m ← gAddrOf w ol
  let wd ← Width.ofCode (bits w 2 3)
  let r := r6 (fD w)
  let s := bit w 5
  if bit w 1 then
    req (!s) <|
      match op with
      | 44 => some (.vst r m wd)
      | 45 => req (bits w 2 3 == 4) (some (.vstr r m))
      | 46 => some (.sst r m wd)
      | 47 => some (.vsts r m wd)
      | 48 => some (.vstc r m wd)
      | 49 => some (.vstd r m wd)
      | _ => some (.vstp r m wd)
  else
    match op with
    | 44 => some (.vld r m wd s)
    | 45 => req (bits w 2 3 == 4) (some (.vldr r m s))
    | 46 => some (.sld r m wd s)
    | 47 => some (.vlds r m wd s)
    | 48 => some (.vldc r m wd s)
    | 49 => some (.vldd r m wd s)
    | _ => some (.vldp r m wd s)

/-- Major 0x33 (R347). -/
def parse33 (w : Nat) (ol : Option Nat) : Option Instr := do
  let m ← gAddrOf w ol
  let s := bit w 5
  req (bits w 1 4 == 0 && (!s || fD w == 3)) <|
    match fD w with
    | 0 => some (.prefL1 m)
    | 1 => some (.prefL2 m)
    | 2 => some (.prefSc m)
    | 3 => some (.cwb m s)
    | 4 => some (.cinv m)
    | _ => none

/-- Major 0x34 (R349). -/
def parse34 (w : Nat) (ol : Option Nat) : Option Instr := do
  let l ← aLitOf (← ol)
  let spc ← Space.ofCode (bits w 0 2)
  let s := bit w 5
  match bits w 2 2 with
  | 0 => some (.vatom (r6 (fD w)) (r6 (fA w)) (r6 (fB w)) spc s l)
  | 1 => some (.vred (r6 (fD w)) (r6 (fA w)) (r6 (fB w)) spc s l)
  | 2 => req (fB w == 0) (some (.satom (r6 (fD w)) (r6 (fA w)) spc s l))
  | _ => none

/-- Major 0x35 (R354, R356). -/
def parse35 (w : Nat) (ol : Option Nat) : Option Instr :=
  req (fB w == 0 && !bit w 5) <|
    match bits w 2 2 with
    | 0 => req (ol.isNone && bits w 0 2 == 0 && bits w 21 3 == 0 && bits w 14 4 == 0) <| do
        let sc ← Scope.ofCode (bits w 18 3)
        let o ← Ord.ofCode (bits w 12 2)
        some (.fence sc o)
    | 1 => do
        let l ← wLitOf (← ol)
        let spc ← Space.ofCode (bits w 0 2)
        some (.waitm (r6 (fD w)) (r6 (fA w)) spc l)
    | _ => none

/-- Major 0x36 (R360). -/
def parse36 (w : Nat) (ol : Option Nat) : Option Instr :=
  req (ol.isNone && bits w 4 2 == 0 && bits w 0 2 == 0 && (!fK w || bits w 2 2 == 1)) <| do
    let n ← cls 16 (fD w)
    match bits w 2 2 with
    | 0 => req (fB w == 0) ((cls 33 (fA w)).map (.bar n))
    | 1 => req (fB w == 0) ((cls 33 (fA w)).map (.bara n))
    | 2 => req (fA w == 0) ((cls 8 (fB w)).map (.barw n))
    | _ => req (fD w == 0 && fA w == 0 && fB w == 0) (some .gbar)

/-- The operand form of MMA (R374). -/
def mmaFormOf (w l : Nat) : Option MmaForm :=
  let a := r6 (fA w)
  let b := r6 (fB w)
  req (bits l 0 13 == 0) <|
    match bits l 21 2 with
    | 0 => req (bits l 13 6 == 0) ((LSpace.ofCode (bits l 19 2)).map (.rs a b))
    | 1 => req (bits l 13 6 == 0) ((LSpace.ofCode (bits l 19 2)).map (.ss a b))
    | 2 => req (bits l 19 2 == 0) <| do some (.gt (← cls 16 (fA w)) (← cls 16 (fB w)) (r6 (bits l 13 6)))
    | _ => none

/-- Major 0x38 (R374). -/
def parse38 (w : Nat) (ol : Option Nat) : Option Instr := do
  let l ← ol
  let fmt ← MmaFmt.ofCode (bits w 0 4)
  let f ← mmaFormOf w l
  req (bits w 21 1 == 0) <|
    some (.mma fmt (Fin.ofNat 4 (bits w 22 2)) (Fin.ofNat 8 (bits w 18 3)) f (bit w 5))

/-- Major 0x39 (R378). -/
def parse39 (w : Nat) (ol : Option Nat) : Option Instr :=
  let s := bit w 5
  req ol.isNone <|
    match bits w 0 4 with
    | 0 => req (!s && fA w == 0 && fB w == 0) ((cls 8 (fD w)).map .mzero)
    | 1 => do some (.mlda (← cls 8 (fD w)) (r6 (fA w)) (← LSpace.ofCode (fB w)) s)
    | 2 => do some (.msta (← cls 8 (fD w)) (r6 (fA w)) (← LSpace.ofCode (fB w)) s)
    | 3 => do some (.mfrgRd (r6 (fD w)) (← cls 8 (fA w)) (← cls 4 (fB w)) s)
    | 4 => req (!s) <| do some (.mfrgWr (← cls 8 (fD w)) (r6 (fA w)) (← cls 4 (fB w)))
    | _ => none

/-- Major 0x3A (R372). -/
def parse3A (w : Nat) (ol : Option Nat) : Option Instr :=
  req (ol.isNone && fB w == 0 && !bit w 5) <|
    match bits w 0 4 with
    | 0 => (cls 8 (fD w)).map fun e => .medge e (r6 (fA w))
    | 1 => (cls 8 (fD w)).map fun e => .medgeN e (r6 (fA w))
    | 2 => (cls 8 (fA w)).map fun t => .mchk (r6 (fD w)) t
    | _ => none

/-- Major 0x3B (R390). -/
def parse3B (w : Nat) (ol : Option Nat) : Option Instr :=
  req (ol.isNone && !bit w 5) <| do
    let f ← NmvFmt.ofCode (bits w 0 3)
    let t ← cls 16 (fA w)
    some (.nmv f (bit w 3) (r6 (fD w)) t (r6 (fB w)))

/-- Major 0x3C (R384). -/
def parse3C (w : Nat) (ol : Option Nat) : Option Instr := do
  let l ← cLitOf (← ol)
  req (!bit w 5 && bits w 0 4 == 0) (some (.cpy (r6 (fD w)) (r6 (fA w)) (r6 (fB w)) l))

/-- Major 0x3D (R381). -/
def parse3D (w : Nat) (ol : Option Nat) : Option Instr :=
  let s := bit w 5
  let d := r6 (fD w)
  let a := r6 (fA w)
  req ol.isNone <|
    match bits w 0 4 with
    | 7 => (cls 16 (fA w)).map fun t => .tdldRow d t (r6 (fB w)) s
    | 8 => (cls 16 (fA w)).map fun t => .tdldCol d t (r6 (fB w)) s
    | f => req (!s && fB w == 0) <|
        match f with
        | 0 => some (.hset d a)
        | 1 => req (!fK w && fA w == 0) (some (.hwait d))
        | 2 => (cls 8 (fD w)).map fun c => .htake c a
        | 3 => req (fA w == 0) (some (.hfree d))
        | 4 => some (.hfill d a)
        | 5 => some (.hstat d a)
        | 6 => (cls 16 (fD w)).map fun t => .tdset t a
        | _ => none

/-- Major 0x3E (R393). -/
def parse3E (w : Nat) (ol : Option Nat) : Option Instr :=
  let s := bit w 5
  let a := r6 (fD w)
  let b := r6 (fA w)
  let c := r6 (fB w)
  let z (n : Nat) : Bool := n == 0
  req ol.isNone <|
    match bits w 0 4 with
    | 5 => (Space.ofCode (fB w)).map fun spc => .redCorr a b spc s
    | f => req (!s) <|
        match f with
        | 0 => req (z (fB w)) (some (.redOpen a b))
        | 1 => req (z (fD w)) (some (.redOpenDef b c))
        | 2 => (Space.ofCode (fB w)).map fun spc => .redSub a b spc
        | 3 => req (!fK w && z (fA w) && z (fB w)) (some (.redWait a))
        | 4 => some (.redMap a b c)
        | 6 => req (z (fB w)) (some (.redNext a b))
        | 7 => req (z (fA w) && z (fB w)) (some (.redClose a))
        | 8 => req (z (fD w) && z (fB w)) (some (.redCloseDef b))
        | 9 => req (z (fB w)) ((cls 8 (fD w)).map fun k => .launch k b)
        | 10 => req (z (fB w)) (some (.lagg a b))
        | 11 => req (z (fD w) && z (fA w) && z (fB w)) (some .lflush)
        | 12 => (cls 8 (fD w)).map fun k => .tapePush k b c
        | 13 => req (z (fB w)) (some (.tapeRun a b))
        | 14 => req (z (fB w)) ((cls 8 (fD w)).map fun k => .tapeDrop k b)
        | 15 => req (z (fB w)) (some (.qsig a b))
        | _ => none

/-- Major 0x3F (R394). -/
def parse3F (w : Nat) (ol : Option Nat) : Option Instr :=
  let a := r6 (fD w)
  let b := r6 (fA w)
  req (ol.isNone && !bit w 5 && fB w == 0) <|
    match bits w 0 4 with
    | 0 => do some (.region (← RegionMode.ofCode (fD w)) (← cls 8 (fA w)))
    | 1 => req (fA w == 0) (some (.railr a))
    | 2 => req (fA w == 0) (some (.railt a))
    | 3 => (cls 8 (fD w)).map fun c => .railtScript c b
    | 4 => some (.tlmrDie a b)
    | 5 => some (.tlmrOwn a b)
    | 6 => req (fA w == 0) (some (.auds a))
    | _ => none

/-- A word by its major (R288), with its index literal or its operand literal. -/
def parse (w : Nat) (ix : Option IdxLit) (ol : Option Nat) : Option Instr :=
  match fOp w with
  | 1 => parseHdr w
  | 2 => parseLive w
  | 3 => req (bits w 0 24 == 0) (some .nop)
  | 4 => parseBr w
  | 5 => req ix.isNone (parseBri w)
  | 6 => parseLoop w
  | 8 => req ix.isNone (parse08 w)
  | 9 => req ix.isNone (parse09 w)
  | 10 => req ix.isNone (parse0A w)
  | 11 => req ix.isNone (parse0B w)
  | 12 => req ix.isNone (parse0C w)
  | 13 => req ix.isNone (parse0D w)
  | 14 => req ix.isNone (parse0E w)
  | 15 => parse0F w ix
  | 16 => parse10 w
  | 17 => req ix.isNone (parse11 w)
  | 18 => parse12 w ix
  | 19 => req ix.isNone (parse13 w)
  | 20 => req ix.isNone (parse14 w)
  | 24 => parse18 w ix
  | 25 => parse19 w ix
  | 26 => parse1A w ix
  | 27 => parse1B w ix
  | 28 => parse1C w ix
  | 29 => parse1D w ix
  | 30 => parse1E w ix
  | 31 => parse1F w ix
  | 32 => parse20 w ix
  | 33 => parseFma w ix .vfmaF32
  | 34 => parse22 w ix
  | 35 => parse23 w ix
  | 36 => parse24 w ix
  | 37 => parseFma w ix .vfmaF64
  | 38 => parseFma w ix .vfmaF16x2
  | 39 => parseFma w ix .vfmaBf16x2
  | 40 => parse28 w ix
  | 41 => parse29 w ix
  | 42 => parse2A w ix
  | 44 => parseMem 44 w ol
  | 45 => parseMem 45 w ol
  | 46 => parseMem 46 w ol
  | 47 => parseMem 47 w ol
  | 48 => parseMem 48 w ol
  | 49 => parseMem 49 w ol
  | 50 => parseMem 50 w ol
  | 51 => parse33 w ol
  | 52 => parse34 w ol
  | 53 => parse35 w ol
  | 54 => parse36 w ol
  | 56 => parse38 w ol
  | 57 => parse39 w ol
  | 58 => parse3A w ol
  | 59 => parse3B w ol
  | 60 => parse3C w ol
  | 61 => parse3D w ol
  | 62 => parse3E w ol
  | 63 => parse3F w ol
  | _ => none

/-! ### The checks of the pages on operands that were read (R284, R285, R318, R340, R351) -/

/-- A direct register pair starts at an even number (R318). -/
def pairOk : VOp → Bool
  | .dir n => n.val % 2 == 0
  | .idx _ _ => true

/-- Whether an operand is indexed. -/
def VOp.isIdx : VOp → Bool
  | .dir _ => false
  | .idx _ _ => true

/-- At most one indexed operand (R293, R318). -/
def oneIdx (l : List VOp) : Bool := decide ((l.filter VOp.isIdx).length ≤ 1)

/-- 64-bit integer types (R319). -/
def IntTy.wide : IntTy → Bool
  | .i64 | .n64 => true
  | .i32 | .n32 => false

/-- 64-bit conversion types (R286). -/
def CvtTy.wide : CvtTy → Bool
  | .f64 | .i64 | .n64 => true
  | _ => false

/-- Float types of conversions (R286). -/
def CvtTy.isFloat (t : CvtTy) : Bool := decide (t.code < 7)

/-- The operands of an integer word of type `ty` (R318, R319). -/
def ivOk (ty : IntTy) (l : List VOp) : Bool := oneIdx l && (!ty.wide || l.all pairOk)

/-- The operands of a word that works on pairs when `wide`. -/
def wvOk (wide : Bool) (pairs singles : List VOp) : Bool :=
  oneIdx (pairs ++ singles) && (!wide || pairs.all pairOk)

/-- What R332 accepts of VCVT: the pair, the mode and SAT; `rm` is RM of R286. -/
def cvtOk (st dt : CvtTy) (rm : Nat) (sat : Bool) : Bool :=
  if st = dt then false
  else
    match st.isFloat, dt.isFloat with
    | true, false => decide (rm ≤ 4) && !sat
    | false, false => decide (rm = 0)
    | false, true => decide (rm ≤ 4) && (!sat || dt == .e4m3 || dt == .e5m2)
    | true, true =>
      match st, dt with
      | .e2m1, _ => decide (rm = 0) && !sat
      | .e4m3, .f16 | .e4m3, .bf16 | .e4m3, .f32 | .e4m3, .f64 => decide (rm = 0) && !sat
      | .e5m2, .f16 | .e5m2, .bf16 | .e5m2, .f32 | .e5m2, .f64 => decide (rm = 0) && !sat
      | .f16, .f32 | .f16, .f64 | .bf16, .f32 | .bf16, .f64 => decide (rm = 0) && !sat
      | .f32, .f64 => decide (rm = 0) && !sat
      | .f64, .f32 => decide (rm ≤ 5) && !sat
      | .f64, .f16 | .f64, .bf16 => decide (rm ≤ 4) && !sat
      | .f32, .f16 | .f32, .bf16 => decide (rm ≤ 5) && !sat
      | .f32, .e4m3 | .f32, .e5m2 => decide (rm ≤ 5)
      | .f16, .e4m3 | .f16, .e5m2 | .bf16, .e4m3 | .bf16, .e5m2 => decide (rm ≤ 4)
      | .f32, .e2m1 => decide (rm ≤ 5) && !sat
      | _, _ => false

/-- Elements of a packed kind (R335). -/
def PackKind.count : PackKind → Nat
  | .f16 | .bf16 => 2
  | .i8 | .n8 | .e4m3 | .e5m2 => 4
  | .i4 | .e2m1 => 8

/-- Rows of R340 for the operand literal: which ordering a word carries, and which EXT bits. -/
def litOk (store : Bool) (ordered nt sx : Bool) (lit : Option GLit) : Bool :=
  match lit with
  | none => true
  | some l =>
    (match l.ord with
      | .none => l.scope == .fib
      | .acq => ordered && !store
      | .rel => ordered && store
      | .ar => false)
    && (!l.ext.getLsbD 0 || (sx && !store)) && (!l.ext.getLsbD 1 || nt)

/-- A v register group of an access (R285). -/
def vGroupOk (r : VNum) : Width → Bool
  | .b64 => r.val % 2 == 0
  | .b128 => r.val % 4 == 0
  | _ => true

/-- SX has a use on loads of W 0 to 1 (R340). -/
def Width.narrow : Width → Bool
  | .b8 | .b16 => true
  | _ => false

/-- A vector word of R340 over virtual memory (`nt`), or over an ordered local level. -/
def vMemOk (store nt ordered : Bool) (r : VNum) (m : GAddr) (w : Width) : Bool :=
  vGroupOk r w && litOk store ordered nt w.narrow m.lit

/-- SLD and SST (R340, R285). -/
def sMemOk (store : Bool) (r : SReg) (m : GAddr) (w : Width) : Bool :=
  (w != .b128 || r.val % 2 == 0) && m.idx.val == 63 && litOk store true true (w.narrow || w == .b32) m.lit

/-- VLDR and VSTR (R340, R346): EXT selects fields. -/
def rMemOk (store : Bool) (r : VNum) (m : GAddr) : Bool :=
  r.val % 4 == 0 && litOk store true true true (m.lit.map fun l => { l with ext := 0 })

/-- The words of major 0x33 (R347). -/
def lineOk (m : GAddr) : Bool := litOk false false false false m.lit

/-- The data registers of VATOM and VRED (R351). -/
def vAtomOk (a : VNum) (l : ALit) : Bool :=
  match l.wd, l.aop == .cas with
  | false, false => true
  | false, true => a.val % 2 == 0
  | true, false => a.val % 2 == 0
  | true, true => a.val % 4 == 0

/-- A block of 32 registers (R375, R379). -/
def fragOk (v : VNum) : Bool := v.val % 8 == 0 && decide (v.val ≤ 32)

/-- The literal of CPY (R384). -/
def cLitOk (src : Fin 64) (l : CLit) : Bool :=
  (l.ck != .none || !l.chk) && (!l.t || (l.ssp == .virt && decide (src.val < 16)))
  && (!l.mc || (l.dsp == .cm && l.mem != 0)) && (l.mc || l.mem == 0)
  && (l.t || l.chk || l.xs.val == 0) && (!(l.t && l.chk) || l.xs.val % 2 == 0)

/-- The operands that no encoding rule of the pages refuses. Events have no encoding. -/
def legal : Instr → Bool
  | .hdr _ seta setb _ => (decide (seta.val ≤ 11) || seta.val == 15) && (decide (setb.val ≤ 11) || setb.val == 15)
  | .vadd ty d a b | .vsub ty d a b | .vmul ty d a b | .vmulh ty d a b | .vand ty d a b | .vor ty d a b
  | .vxor ty d a b | .vshl ty d a b | .vshr ty d a b | .vsra ty d a b | .vmin ty d a b | .vmax ty d a b =>
    ivOk ty [d, a, b]
  | .vnot ty d a | .vneg ty d a | .vmov ty d a => ivOk ty [d, a]
  | .vabs ty d a => (ty == .i32 || ty == .i64) && ivOk ty [d, a]
  | .vaddi d a _ => oneIdx [d, a]
  | .vmad d a b c => oneIdx [d, a, b, c]
  | .vcmp _ wide _ a b => wvOk wide [a, b] []
  | .vsel d wide _ a b => wvOk wide [d, a, b] []
  | .vclz d a | .vpopc d a => oneIdx [d, a]
  | .vbfe d a b | .vbfeSx d a b | .vbfi d a b | .vdot4 _ _ _ d a b | .vdot8 _ _ _ d a b | .vperm d a b =>
    oneIdx [d, a, b]
  | .vshfl d a (.idx b) => oneIdx [d, a, b]
  | .vshfl d a _ => oneIdx [d, a]
  | .vrdc op ty d a => oneIdx [d, a] && (ty != .f32 || op == .add || op == .min || op == .max)
  | .vfadd ty _ d a b | .vfsub ty _ d a b | .vfmul ty _ d a b | .vfmin ty d a b | .vfmax ty d a b =>
    wvOk (ty == .f64) [d, a, b] []
  | .vfscl ty _ d a b => wvOk (ty == .f64) [d, a] [b]
  | .vfmaF32 d a b c | .vfmaF16x2 d a b c | .vfmaBf16x2 d a b c => oneIdx [d, a, b, c]
  | .vfmaF64 d a b c => wvOk true [d, a, b, c] []
  | .vfabs ty d a | .vfneg ty d a | .vfrnd ty _ d a => wvOk (ty == .f64) [d, a] []
  | .vfclass ty d a => wvOk (ty == .f64) [a] [d]
  | .vfcmp _ wide _ a b => wvOk wide [a, b] []
  | .vfdot2 _ d a b => oneIdx [d, a, b]
  | .vcvt st dt rm sat d a =>
    cvtOk st dt rm.code sat && oneIdx [d, a] && (!dt.wide || pairOk d) && (!st.wide || pairOk a)
  | .vcvtsr st dt sat d a =>
    (st == .f64 && dt == .f32 || st == .f32 && (dt == .f16 || dt == .bf16 || dt == .e4m3 || dt == .e5m2 || dt == .e2m1))
    && cvtOk st dt 5 sat && oneIdx [d, a] && (!st.wide || pairOk a)
  | .vpack k d a n | .vunpk k d a n => oneIdx [d, a] && decide (n.val < k.count)
  | .vqnt _ d a b | .vdqnt _ d a b => oneIdx [d, a, b]
  | .vrng _ a _ => a.val % 2 == 0
  | .vrcp d a _ | .vrsq d a _ | .vsqrt d a _ | .vexp2 d a _ | .vlog2 d a _ | .vsin d a _ | .vcos d a _
  | .vtanh d a _ => oneIdx [d, a]
  | .vld r m w _ => vMemOk false true true r m w
  | .vst r m w => vMemOk true true true r m w
  | .vldr r m _ => rMemOk false r m
  | .vstr r m => rMemOk true r m
  | .sld r m w _ => sMemOk false r m w
  | .sst r m w => sMemOk true r m w
  | .vlds r m w _ | .vldc r m w _ | .vldd r m w _ => vMemOk false false true r m w
  | .vsts r m w | .vstc r m w | .vstd r m w => vMemOk true false true r m w
  | .vldp r m w _ => vMemOk false false false r m w
  | .vstp r m w => vMemOk true false false r m w
  | .prefL1 m | .prefL2 m | .prefSc m | .cwb m _ | .cinv m => lineOk m
  | .vatom a _ _ _ _ l => vAtomOk a l
  | .vred a _ _ _ _ l => vAtomOk a l && l.aop != .exch && l.aop != .cas
  | .satom a _ _ _ l => l.aop != .cas || a.val % 2 == 0
  | .fence _ o => o != .none
  | .mma fmt _ _ (.rs a _ _) _ => fragOk a && fmt != .e2m1 && fmt != .q8 && fmt != .q4
  | .mma fmt _ _ (.ss _ _ _) _ => fmt != .e2m1 && fmt != .q8 && fmt != .q4
  | .mma _ _ _ (.gt _ _ co) _ => co.val % 2 == 0
  | .mfrgRd v _ _ _ => fragOk v
  | .mfrgWr _ v _ => fragOk v
  | .nmv _ _ _ _ c => c.val % 2 == 0
  | .cpy _ src c l => c.val % 2 == 0 && cLitOk src l
  | .tdset _ s => s.val % 4 == 0
  | .tapePush _ _ r => r.val % 2 == 0
  | _ => true

/-! ### Decoding -/

/-- A word with its operand literal, its index literal, or neither. -/
def parseLegal (w : Nat) (ix : Option IdxLit) (ol : Option Nat) : Option Instr :=
  (parse w ix ol).bind fun i => req (legal i) (some i)

/-- The instruction that a word gives, and how many words it takes: 1, or 2 with a literal (R279). `nxt` is the next word
of the same packet. A word with LT = 1 takes an operand literal; a word of formats A to F with K = 1 takes the index
literal that follows, if one does. -/
def decode (w : W32) (nxt : Option W32) : Option (Instr × Nat) :=
  let n := w.toNat
  if fLT n then
    match nxt with
    | some l =>
      if fK n && fOp l.toNat == 3 && bits l.toNat 23 1 == 0 then
        (parseLegal n none (some l.toNat)).map fun i => (i, 2)
      else none
    | none => none
  else
    match nxt with
    | some l =>
      if fK n && formatAF (fOp n) && fOp l.toNat == 3 && bits l.toNat 23 1 == 1 then
        match idxLitOf l.toNat with
        | some ix => (parseLegal n (some ix) none).map fun i => (i, 2)
        | none => none
      else (parseLegal n none none).map fun i => (i, 1)
    | none => (parseLegal n none none).map fun i => (i, 1)

/-! ### Encoding -/

/-- OP and the four register fields of a word (R274, R283). -/
def word (op d a b c : Nat) : Nat := op * 16777216 + d * 262144 + a * 4096 + b * 64 + c

/-- The number in a v operand's field. -/
def VOp.num : VOp → Nat
  | .dir n => n.val
  | .idx _ imm => imm.val

/-- The index literal's payload for the first indexed operand of a list of operands with their fields (R279). -/
def idxPayload : List (Nat × VOp) → Option Nat
  | [] => none
  | (f, .idx x _) :: _ => some (8388608 + x.val * 2097152 + f * 524288)
  | (_, .dir _) :: t => idxPayload t

/-- Bool as a bit. -/
def b2n (b : Bool) : Nat := if b then 1 else 0

/-- REG, BASE, IDX, SEL, W, ST and LT of a word of format G (R283, R285). -/
def gWord (op reg : Nat) (m : GAddr) (sel : Bool) (w st : Nat) : Nat :=
  word op reg m.base.val m.idx.val (b2n sel * 32 + w * 4 + st * 2 + b2n m.lit.isSome)

/-- The payload of format G's operand literal (R285). -/
def gPayload (m : GAddr) : Option Nat :=
  m.lit.map fun l => l.ext.toNat * 2097152 + l.scope.code * 262144 + l.ord.code * 65536 + l.off.toNat

/-- The payload of an atomic's literal (R350). -/
def aPayload (l : ALit) : Nat :=
  l.aop.code * 524288 + b2n l.wd * 262144 + l.scope.code * 32768 + l.ord.code * 8192 + l.off.toNat

/-- The payload of WAITM's literal (R357). -/
def wPayload (l : WLit) : Nat :=
  l.level.code * 1048576 + b2n l.any * 524288 + l.cond.code * 65536 + b2n l.wd * 32768 + l.scope.code * 4096 +
    l.off.toNat

/-- The payload of CPY's literal (R384). -/
def cPayload (l : CLit) : Nat :=
  l.ssp.code * 2097152 + l.dsp.code * 524288 + l.ck.code * 131072 + b2n l.chk * 65536 + b2n l.t * 32768 +
    b2n l.mc * 16384 + l.mem.toNat * 1024 + l.xs.val * 16

/-- The payload of MMA's literal (R374). -/
def mmaPayload : MmaForm → Nat
  | .rs _ _ spc => spc.code * 524288
  | .ss _ _ spc => 2097152 + spc.code * 524288
  | .gt _ _ co => 4194304 + co.val * 8192

/-- The two operand fields of MMA (R374). -/
def mmaFields : MmaForm → Nat × Nat
  | .rs a b _ => (a.val, b.val)
  | .ss a b _ => (a.val, b.val)
  | .gt a b _ => (a.val, b.val)

/-- An integer word of major 0x18 (R319). -/
def encI (code : Nat) (ty : IntTy) (d a : VOp) (b : Nat) : Nat := word 24 d.num a.num b (code * 4 + ty.code)

/-- Fields of three v operands. -/
def v3 (d a b : VOp) : Option Nat := idxPayload [(0, d), (1, a), (2, b)]

/-- Fields of two v operands. -/
def v2 (d a : VOp) : Option Nat := idxPayload [(0, d), (1, a)]

/-- The selector field, mode and literal of VSHFL (R324). -/
def encShfl (d a : VOp) : ShflSel → Nat × Nat × Option Nat
  | .idx b => (b.num, 0, v3 d a b)
  | .xor n => (n.val, 1, v2 d a)
  | .up n => (n.val, 2, v2 d a)
  | .down n => (n.val, 3, v2 d a)

/-- KIND, a and the literal of XMOV and XADD (R316). -/
def encXSrc : XSrc → Nat × Nat × Option Nat
  | .imm => (0, 0, none)
  | .v a => (1, a.num, idxPayload [(1, a)])
  | .s a => (2, a.val, none)
  | .x a => (3, a.val, none)

/-- Bits 30:0 without E of the owner word, and the payload of its literal; an event has no words. -/
def encodeParts : Instr → Option (Nat × Option Nat)
  | .hdr wait sa sb safe => some (16777216 + wait.toNat * 4096 + sa.val * 256 + sb.val * 16 + b2n safe * 8, none)
  | .live q h ac sq vo =>
    some (33554432 + b2n q * 2097152 + b2n h * 1048576 + ac.toNat * 4096 + sq.toNat * 256 + vo.toNat, none)
  | .nop => some (50331648, none)
  | .sadd d a b => some (word 8 d.val a.val b.val 0, none)
  | .ssub d a b => some (word 8 d.val a.val b.val 1, none)
  | .smul d a b => some (word 8 d.val a.val b.val 2, none)
  | .smulh d a b => some (word 8 d.val a.val b.val 3, none)
  | .smulhn d a b => some (word 8 d.val a.val b.val 4, none)
  | .sand d a b => some (word 8 d.val a.val b.val 5, none)
  | .sor d a b => some (word 8 d.val a.val b.val 6, none)
  | .sxor d a b => some (word 8 d.val a.val b.val 7, none)
  | .sshl d a b => some (word 8 d.val a.val b.val 8, none)
  | .sshr d a b => some (word 8 d.val a.val b.val 9, none)
  | .ssra d a b => some (word 8 d.val a.val b.val 10, none)
  | .smin d a b => some (word 8 d.val a.val b.val 11, none)
  | .smax d a b => some (word 8 d.val a.val b.val 12, none)
  | .sminn d a b => some (word 8 d.val a.val b.val 13, none)
  | .smaxn d a b => some (word 8 d.val a.val b.val 14, none)
  | .smov d a => some (word 8 d.val a.val 0 15, none)
  | .smovLc d lc => some (word 8 d.val lc.val 0 16, none)
  | .saddi d a imm => some (word 9 d.val a.val 0 0 + imm.toNat, none)
  | .smovi d imm => some (word 10 d.val 0 0 0 + imm.toNat, none)
  | .smovh d q c => some (word 11 d.val 0 0 0 + q.val * 65536 + c.toNat, none)
  | .scmp c a b p => some (word 12 c.val a.val b.val p.code, none)
  | .scmpi c a p imm => some (word 13 c.val a.val 0 0 + p.code * 256 + imm.toNat, none)
  | .ssel d c a b => some (word 14 d.val a.val b.val c.val, none)
  | .sclz d a => some (word 14 d.val a.val 0 8, none)
  | .spopc d a => some (word 14 d.val a.val 0 9, none)
  | .sbfe d a b => some (word 14 d.val a.val b.val 10, none)
  | .sbfeSx d a b => some (word 14 d.val a.val b.val 11, none)
  | .sbfi d a b => some (word 14 d.val a.val b.val 12, none)
  | .srdS d n => some (word 15 d.val n.code 0 0, none)
  | .srdV d n hi => some (word 15 d.num n.code (b2n hi) 1, idxPayload [(0, d)])
  | .spredSp d p => some (word 15 d.val p.val 0 2, none)
  | .spredPs p a => some (word 15 p.val a.val 0 3, none)
  | .swr n a => some (word 15 n.code a.val 0 4, none)
  | .svoteAny c p => some (word 15 c.val p.val 0 5, none)
  | .svoteAll c p => some (word 15 c.val p.val 0 6, none)
  | .svoteUni c p => some (word 15 c.val p.val 0 7, none)
  | .slane d a b => some (word 15 d.val a.num b.val 8, idxPayload [(1, a)])
  | .brCond c n off => some (word 4 0 0 0 0 + c.val * 262144 + b2n n * 131072 + off.toNat, none)
  | .brAlways off => some (word 4 0 0 0 0 + 2097152 + off.toNat, none)
  | .call l off => some (word 4 0 0 0 0 + 4194304 + l.val * 262144 + off.toNat, none)
  | .bri a => some (word 5 0 a.val 0 0, none)
  | .ret a => some (word 5 0 a.val 0 1, none)
  | .loop lc (.imm n) len =>
    some (word 6 0 0 0 0 + lc.val * 4194304 + 2097152 + n.val * 32768 + len.toNat * 128, none)
  | .loop lc (.reg s) len => some (word 6 0 0 0 0 + lc.val * 4194304 + s.val * 32768 + len.toNat * 128, none)
  | .lbrk lc none => some (word 6 0 0 0 0 + lc.val * 4194304 + 64, none)
  | .lbrk lc (some c) => some (word 6 0 0 0 0 + lc.val * 4194304 + 2097152 + c.val * 32768 + 64, none)
  | .fsplit p n off => some (word 16 0 0 0 0 + p.val * 262144 + b2n n * 131072 + off.toNat, none)
  | .fjoin => some (word 16 0 0 0 0 + 2097152, none)
  | .fend => some (word 16 0 0 0 0 + 4194304, none)
  | .winset none imm => some (word 17 0 0 0 0 + imm.toNat, none)
  | .winset (some a) imm => some (word 17 0 a.val 0 0 + 1024 + imm.toNat, none)
  | .winadd none imm => some (word 17 0 0 0 0 + 2048 + imm.toNat, none)
  | .winadd (some a) imm => some (word 17 0 a.val 0 0 + 3072 + imm.toNat, none)
  | .xmov d src imm =>
    let (k, a, l) := encXSrc src
    some (word 18 d.val a 0 0 + k * 512 + imm.toNat, l)
  | .xadd d src imm =>
    let (k, a, l) := encXSrc src
    some (word 18 d.val a 0 0 + 2048 + k * 512 + imm.toNat, l)
  | .trap c => some (word 19 0 0 0 0 + c.toNat, none)
  | .rett => some (word 19 1 0 0 0, none)
  | .bkpt c => some (word 19 2 0 0 0 + c.toNat, none)
  | .gend => some (word 20 0 0 0 0, none)
  | .yield => some (word 20 1 0 0 0, none)
  | .vadd ty d a b => some (encI 0 ty d a b.num, v3 d a b)
  | .vsub ty d a b => some (encI 1 ty d a b.num, v3 d a b)
  | .vmul ty d a b => some (encI 2 ty d a b.num, v3 d a b)
  | .vmulh ty d a b => some (encI 3 ty d a b.num, v3 d a b)
  | .vand ty d a b => some (encI 4 ty d a b.num, v3 d a b)
  | .vor ty d a b => some (encI 5 ty d a b.num, v3 d a b)
  | .vxor ty d a b => some (encI 6 ty d a b.num, v3 d a b)
  | .vnot ty d a => some (encI 7 ty d a 0, v2 d a)
  | .vshl ty d a b => some (encI 8 ty d a b.num, v3 d a b)
  | .vshr ty d a b => some (encI 9 ty d a b.num, v3 d a b)
  | .vsra ty d a b => some (encI 10 ty d a b.num, v3 d a b)
  | .vmin ty d a b => some (encI 11 ty d a b.num, v3 d a b)
  | .vmax ty d a b => some (encI 12 ty d a b.num, v3 d a b)
  | .vabs ty d a => some (encI 13 ty d a 0, v2 d a)
  | .vneg ty d a => some (encI 14 ty d a 0, v2 d a)
  | .vmov ty d a => some (encI 15 ty d a 0, v2 d a)
  | .vaddi d a imm => some (word 25 d.num a.num 0 0 + imm.toNat, v2 d a)
  | .vmovi d imm => some (word 26 d.num 0 0 0 + imm.toNat, idxPayload [(0, d)])
  | .vmad d a b c => some (word 27 d.num a.num b.num c.num, idxPayload [(0, d), (1, a), (2, b), (3, c)])
  | .vcmp p w c a b => some (word 28 p.val a.num b.num (b2n w * 16 + c.code), idxPayload [(1, a), (2, b)])
  | .vsel d w p a b => some (word 28 d.num a.num b.num (32 + b2n w * 16 + p.val), v3 d a b)
  | .vclz d a => some (word 29 d.num a.num 0 0, v2 d a)
  | .vpopc d a => some (word 29 d.num a.num 0 8, v2 d a)
  | .vbfe d a b => some (word 29 d.num a.num b.num 16, v3 d a b)
  | .vbfeSx d a b => some (word 29 d.num a.num b.num 24, v3 d a b)
  | .vbfi d a b => some (word 29 d.num a.num b.num 32, v3 d a b)
  | .vdot4 sa sb st d a b => some (word 29 d.num a.num b.num (40 + b2n st * 4 + b2n sb * 2 + b2n sa), v3 d a b)
  | .vdot8 sa sb st d a b => some (word 29 d.num a.num b.num (48 + b2n st * 4 + b2n sb * 2 + b2n sa), v3 d a b)
  | .vshfl d a sel =>
    let (b, m, l) := encShfl d a sel
    some (word 30 d.num a.num b (m * 4), l)
  | .vperm d a b => some (word 30 d.num a.num b.num 16, v3 d a b)
  | .vrdc op ty d a => some (word 30 d.num a.num op.code (32 + ty.code * 4), v2 d a)
  | .pand d a b => some (word 31 d.val a.val b.val 0, none)
  | .por d a b => some (word 31 d.val a.val b.val 1, none)
  | .pxor d a b => some (word 31 d.val a.val b.val 2, none)
  | .pnot d a => some (word 31 d.val a.val 0 3, none)
  | .pmov d a => some (word 31 d.val a.val 0 4, none)
  | .vmovs d a => some (word 31 d.num a.val 0 5, idxPayload [(0, d)])
  | .vmovsHi d a => some (word 31 d.num a.val 0 6, idxPayload [(0, d)])
  | .pset d b => some (word 31 d.val 0 (b2n b) 7, none)
  | .vfadd ty r d a b => some (word 32 d.num a.num b.num (b2n r * 4 + ty.code), v3 d a b)
  | .vfsub ty r d a b => some (word 32 d.num a.num b.num (8 + b2n r * 4 + ty.code), v3 d a b)
  | .vfmul ty r d a b => some (word 32 d.num a.num b.num (16 + b2n r * 4 + ty.code), v3 d a b)
  | .vfmin ty d a b => some (word 32 d.num a.num b.num (24 + ty.code), v3 d a b)
  | .vfmax ty d a b => some (word 32 d.num a.num b.num (32 + ty.code), v3 d a b)
  | .vfscl ty r d a b => some (word 32 d.num a.num b.num (40 + b2n r * 4 + ty.code), v3 d a b)
  | .vfmaF32 d a b c => some (word 33 d.num a.num b.num c.num, idxPayload [(0, d), (1, a), (2, b), (3, c)])
  | .vfmaF64 d a b c => some (word 37 d.num a.num b.num c.num, idxPayload [(0, d), (1, a), (2, b), (3, c)])
  | .vfmaF16x2 d a b c => some (word 38 d.num a.num b.num c.num, idxPayload [(0, d), (1, a), (2, b), (3, c)])
  | .vfmaBf16x2 d a b c => some (word 39 d.num a.num b.num c.num, idxPayload [(0, d), (1, a), (2, b), (3, c)])
  | .vfabs ty d a => some (word 34 d.num a.num 0 ty.code, v2 d a)
  | .vfneg ty d a => some (word 34 d.num a.num 0 (16 + ty.code), v2 d a)
  | .vfclass ty d a => some (word 34 d.num a.num 0 (32 + ty.code), v2 d a)
  | .vfrnd ty m d a => some (word 34 d.num a.num 0 (48 + m.code * 4 + ty.code), v2 d a)
  | .vfcmp p w c a b => some (word 35 p.val a.num b.num (c.code * 4 + b2n w), idxPayload [(1, a), (2, b)])
  | .vfdot2 bf d a b => some (word 36 d.num a.num b.num (b2n bf), v3 d a b)
  | .vcvt st dt m sat d a =>
    some (word 40 d.num a.num 0 0 + st.code * 256 + dt.code * 16 + m.code * 2 + b2n sat, v2 d a)
  | .vcvtsr st dt sat d a => some (word 40 d.num a.num 0 0 + st.code * 256 + dt.code * 16 + 10 + b2n sat, v2 d a)
  | .vpack k d a n => some (word 41 d.num a.num n.val k.code, v2 d a)
  | .vunpk k d a n => some (word 41 d.num a.num n.val (8 + k.code), v2 d a)
  | .vqnt k d a b => some (word 41 d.num a.num b.num (16 + k.code), v3 d a b)
  | .vdqnt k d a b => some (word 41 d.num a.num b.num (24 + k.code), v3 d a b)
  | .vrng d a b => some (word 41 d.num a.val b.val 32, idxPayload [(0, d)])
  | .vrcp d a s => some (word 42 d.num a.num 0 0 + b2n s * 256, v2 d a)
  | .vrsq d a s => some (word 42 d.num a.num 0 0 + 512 + b2n s * 256, v2 d a)
  | .vsqrt d a s => some (word 42 d.num a.num 0 0 + 1024 + b2n s * 256, v2 d a)
  | .vexp2 d a s => some (word 42 d.num a.num 0 0 + 1536 + b2n s * 256, v2 d a)
  | .vlog2 d a s => some (word 42 d.num a.num 0 0 + 2048 + b2n s * 256, v2 d a)
  | .vsin d a s => some (word 42 d.num a.num 0 0 + 2560 + b2n s * 256, v2 d a)
  | .vcos d a s => some (word 42 d.num a.num 0 0 + 3072 + b2n s * 256, v2 d a)
  | .vtanh d a s => some (word 42 d.num a.num 0 0 + 3584 + b2n s * 256, v2 d a)
  | .vld r m w s => some (gWord 44 r.val m s w.code 0, gPayload m)
  | .vst r m w => some (gWord 44 r.val m false w.code 1, gPayload m)
  | .vldr r m s => some (gWord 45 r.val m s 4 0, gPayload m)
  | .vstr r m => some (gWord 45 r.val m false 4 1, gPayload m)
  | .sld r m w s => some (gWord 46 r.val m s w.code 0, gPayload m)
  | .sst r m w => some (gWord 46 r.val m false w.code 1, gPayload m)
  | .vlds r m w s => some (gWord 47 r.val m s w.code 0, gPayload m)
  | .vsts r m w => some (gWord 47 r.val m false w.code 1, gPayload m)
  | .vldc r m w s => some (gWord 48 r.val m s w.code 0, gPayload m)
  | .vstc r m w => some (gWord 48 r.val m false w.code 1, gPayload m)
  | .vldd r m w s => some (gWord 49 r.val m s w.code 0, gPayload m)
  | .vstd r m w => some (gWord 49 r.val m false w.code 1, gPayload m)
  | .vldp r m w s => some (gWord 50 r.val m s w.code 0, gPayload m)
  | .vstp r m w => some (gWord 50 r.val m false w.code 1, gPayload m)
  | .prefL1 m => some (gWord 51 0 m false 0 0, gPayload m)
  | .prefL2 m => some (gWord 51 1 m false 0 0, gPayload m)
  | .prefSc m => some (gWord 51 2 m false 0 0, gPayload m)
  | .cwb m s => some (gWord 51 3 m s 0 0, gPayload m)
  | .cinv m => some (gWord 51 4 m false 0 0, gPayload m)
  | .vatom a b c spc s l => some (word 52 a.val b.val c.val (b2n s * 32 + 16 + spc.code), some (aPayload l))
  | .vred a b c spc s l => some (word 52 a.val b.val c.val (b2n s * 32 + 20 + spc.code), some (aPayload l))
  | .satom a b spc s l => some (word 52 a.val b.val 0 (b2n s * 32 + 24 + spc.code), some (aPayload l))
  | .fence sc o => some (word 53 sc.code o.code 0 0, none)
  | .waitm a b spc l => some (word 53 a.val b.val 0 (20 + spc.code), some (wPayload l))
  | .bar n c => some (word 54 n.val c.val 0 0, none)
  | .bara n c => some (word 54 n.val c.val 0 4, none)
  | .barw n c => some (word 54 n.val 0 c.val 8, none)
  | .gbar => some (word 54 0 0 0 12, none)
  | .mma fmt p t f s =>
    some (word 56 (p.val * 16 + t.val) (mmaFields f).1 (mmaFields f).2 (b2n s * 32 + 16 + fmt.code),
      some (mmaPayload f))
  | .mzero t => some (word 57 t.val 0 0 0, none)
  | .mlda t o spc s => some (word 57 t.val o.val spc.code (b2n s * 32 + 1), none)
  | .msta t o spc s => some (word 57 t.val o.val spc.code (b2n s * 32 + 2), none)
  | .mfrgRd d t q s => some (word 57 d.val t.val q.val (b2n s * 32 + 3), none)
  | .mfrgWr t v q => some (word 57 t.val v.val q.val 4, none)
  | .medge e s => some (word 58 e.val s.val 0 0, none)
  | .medgeN e s => some (word 58 e.val s.val 0 1, none)
  | .mchk s t => some (word 58 s.val t.val 0 2, none)
  | .nmv f acc h w c => some (word 59 h.val w.val c.val (b2n acc * 8 + f.code), none)
  | .cpy h src c l => some (word 60 h.val src.val c.val 16, some (cPayload l))
  | .hset h s => some (word 61 h.val s.val 0 0, none)
  | .hwait h => some (word 61 h.val 0 0 1, none)
  | .htake c h => some (word 61 c.val h.val 0 2, none)
  | .hfree h => some (word 61 h.val 0 0 3, none)
  | .hfill s h => some (word 61 s.val h.val 0 4, none)
  | .hstat s h => some (word 61 s.val h.val 0 5, none)
  | .tdset t s => some (word 61 t.val s.val 0 6, none)
  | .tdldRow d t c s => some (word 61 d.val t.val c.val (b2n s * 32 + 7), none)
  | .tdldCol d t c s => some (word 61 d.val t.val c.val (b2n s * 32 + 8), none)
  | .redOpen h s => some (word 62 h.val s.val 0 0, none)
  | .redOpenDef b c => some (word 62 0 b.val c.val 1, none)
  | .redSub h s spc => some (word 62 h.val s.val spc.code 2, none)
  | .redWait h => some (word 62 h.val 0 0 3, none)
  | .redMap s h n => some (word 62 s.val h.val n.val 4, none)
  | .redCorr h s spc sel => some (word 62 h.val s.val spc.code (b2n sel * 32 + 5), none)
  | .redNext h s => some (word 62 h.val s.val 0 6, none)
  | .redClose h => some (word 62 h.val 0 0 7, none)
  | .redCloseDef s => some (word 62 0 s.val 0 8, none)
  | .launch c s => some (word 62 c.val s.val 0 9, none)
  | .lagg a b => some (word 62 a.val b.val 0 10, none)
  | .lflush => some (word 62 0 0 0 11, none)
  | .tapePush c b r => some (word 62 c.val b.val r.val 12, none)
  | .tapeRun h s => some (word 62 h.val s.val 0 13, none)
  | .tapeDrop c s => some (word 62 c.val s.val 0 14, none)
  | .qsig a b => some (word 62 a.val b.val 0 15, none)
  | .region m l => some (word 63 m.code l.val 0 0, none)
  | .railr s => some (word 63 s.val 0 0 1, none)
  | .railt s => some (word 63 s.val 0 0 2, none)
  | .railtScript c s => some (word 63 c.val s.val 0 3, none)
  | .tlmrDie d s => some (word 63 d.val s.val 0 4, none)
  | .tlmrOwn d s => some (word 63 d.val s.val 0 5, none)
  | .auds s => some (word 63 s.val 0 0 6, none)
  | _ => none

/-- Words that hold K = 0, because they are terminal, or HDR or LIVE (R277, R278, R281, R306); WAITM's owner holds K = 1
for its literal. -/
def kZero : Instr → Bool
  | .hdr .. | .live .. | .brCond .. | .brAlways .. | .call .. | .bri .. | .ret .. | .loop .. | .lbrk .. | .fsplit ..
  | .fjoin | .fend | .rett | .gend | .yield | .bar .. | .barw .. | .gbar | .hwait .. | .redWait .. => true
  | _ => false

/-- The words of an instruction with the chain bit `k` and the end bit `e` of its last word (R274, R279): the owner of a
literal holds K = 1 and E = 0. HDR holds K = E = 0 and LIVE holds E = 1. -/
def encode (k e : Bool) (i : Instr) : List W32 :=
  match encodeParts i with
  | none => []
  | some (n, none) =>
    let k' := if kZero i then 0 else b2n k
    let e' := match i with
      | .hdr .. => 0
      | .live .. => 1
      | _ => b2n e
    [BitVec.ofNat 32 (k' * 2147483648 + e' * 1073741824 + n)]
  | some (n, some l) =>
    [BitVec.ofNat 32 (2147483648 + n), BitVec.ofNat 32 (b2n k * 2147483648 + b2n e * 1073741824 + 50331648 + l)]

/-- The instruction that the decoder reads from `nbits` bits of words `w`, bit 0 the least significant bit of the first
word; bits above are 0. -/
def decodeTableWord (_nbits w : Nat) : Option Instr :=
  (decode (BitVec.ofNat 32 w) (some (BitVec.ofNat 32 (w / 4294967296)))).map (·.1)


/-! ### Every constructor's word, written out from the tables of spec/13 to spec/18 -/

/-- Each owner word, with the word after it, decodes to the instruction beside it. -/
def decodesTo (l : List (Nat × Nat × Instr)) : Bool :=
  l.all fun e => (decode (BitVec.ofNat 32 e.1) (some (BitVec.ofNat 32 e.2.1))).map (·.1) == some e.2.2

/-- Words of this family, written out from the spec's encodings, decode to what they stand for. -/
theorem decode_framing_words : decodesTo [
    (0x01801128, 0, .hdr 0x801 1 2 true),
    (0x42212381, 0, .live true false 0x12 3 0x81),
    (0x03000000, 0, .nop)] = true := by decide +kernel

/-- Words of this family, written out from the spec's encodings, decode to what they stand for. -/
theorem decode_scalar_words : decodesTo [
    (0x08294780, 0, .sadd 10 20 30),
    (0x08294781, 0, .ssub 10 20 30),
    (0x08294782, 0, .smul 10 20 30),
    (0x08294783, 0, .smulh 10 20 30),
    (0x08294784, 0, .smulhn 10 20 30),
    (0x08294785, 0, .sand 10 20 30),
    (0x08294786, 0, .sor 10 20 30),
    (0x08294787, 0, .sxor 10 20 30),
    (0x08294788, 0, .sshl 10 20 30),
    (0x08294789, 0, .sshr 10 20 30),
    (0x0829478A, 0, .ssra 10 20 30),
    (0x0829478B, 0, .smin 10 20 30),
    (0x0829478C, 0, .smax 10 20 30),
    (0x0829478D, 0, .sminn 10 20 30),
    (0x0829478E, 0, .smaxn 10 20 30),
    (0x0829400F, 0, .smov 10 20),
    (0x08282010, 0, .smovLc 10 2),
    (0x09294FFF, 0, .saddi 10 20 0xFFF),
    (0x0A2A0001, 0, .smovi 10 0x20001),
    (0x0B2A1234, 0, .smovh 10 2 0x1234),
    (0x0C0D4787, 0, .scmp 3 20 30 .len),
    (0x0D0D4980, 0, .scmpi 3 20 .gen 0x80),
    (0x0E294785, 0, .ssel 10 5 20 30),
    (0x0E294008, 0, .sclz 10 20),
    (0x0E294009, 0, .spopc 10 20),
    (0x0E29478A, 0, .sbfe 10 20 30),
    (0x0E29478B, 0, .sbfeSx 10 20 30),
    (0x0E29478C, 0, .sbfi 10 20 30)] = true := by decide +kernel

/-- Words of this family, written out from the spec's encodings, decode to what they stand for. -/
theorem decode_special_words : decodesTo [
    (0x0F2A1000, 0, .srdS 10 .hmdie),
    (0x0F290041, 0, .srdV (.dir 10) .time true),
    (0x0F287002, 0, .spredSp 10 7),
    (0x0F1CA003, 0, .spredPs 7 10),
    (0x0F554004, 0, .swr .tvec 20),
    (0x0F0C7005, 0, .svoteAny 3 7),
    (0x0F0C7006, 0, .svoteAll 3 7),
    (0x0F0C7007, 0, .svoteUni 3 7),
    (0x0F294788, 0, .slane 10 (.dir 20) 30)] = true := by decide +kernel

/-- Words of this family, written out from the spec's encodings, decode to what they stand for. -/
theorem decode_control_words : decodesTo [
    (0x0417FFFF, 0, .brCond 5 true 0x1FFFF),
    (0x04210000, 0, .brAlways 0x10000),
    (0x04540009, 0, .call 5 9),
    (0x05014000, 0, .bri 20),
    (0x05014001, 0, .ret 20),
    (0x06A28100, 0, .loop 2 (.imm 5) 2),
    (0x06630040, 0, .lbrk 1 (some 6)),
    (0x10160007, 0, .fsplit 5 true 7),
    (0x10200000, 0, .fjoin),
    (0x10400000, 0, .fend),
    (0x110147F8, 0, .winset (some 20) 0x3F8),
    (0x11014C08, 0, .winadd (some 20) 8),
    (0x120437FF, 0, .xmov 1 (.x 3) 0x1FF),
    (0x12054C01, 0, .xadd 1 (.s 20) 1),
    (0x1300ABCD, 0, .trap 0xABCD),
    (0x13040000, 0, .rett),
    (0x13080001, 0, .bkpt 1),
    (0x14000000, 0, .gend),
    (0x14040000, 0, .yield)] = true := by decide +kernel

/-- Words of this family, written out from the spec's encodings, decode to what they stand for. -/
theorem decode_vector_integer_words : decodesTo [
    (0x18294783, 0, .vadd .n64 (.dir 10) (.dir 20) (.dir 30)),
    (0x18294787, 0, .vsub .n64 (.dir 10) (.dir 20) (.dir 30)),
    (0x1829478B, 0, .vmul .n64 (.dir 10) (.dir 20) (.dir 30)),
    (0x1829478F, 0, .vmulh .n64 (.dir 10) (.dir 20) (.dir 30)),
    (0x18294793, 0, .vand .n64 (.dir 10) (.dir 20) (.dir 30)),
    (0x18294797, 0, .vor .n64 (.dir 10) (.dir 20) (.dir 30)),
    (0x1829479B, 0, .vxor .n64 (.dir 10) (.dir 20) (.dir 30)),
    (0x1829401E, 0, .vnot .i64 (.dir 10) (.dir 20)),
    (0x182947A3, 0, .vshl .n64 (.dir 10) (.dir 20) (.dir 30)),
    (0x182947A7, 0, .vshr .n64 (.dir 10) (.dir 20) (.dir 30)),
    (0x182947AB, 0, .vsra .n64 (.dir 10) (.dir 20) (.dir 30)),
    (0x182947AF, 0, .vmin .n64 (.dir 10) (.dir 20) (.dir 30)),
    (0x182947B3, 0, .vmax .n64 (.dir 10) (.dir 20) (.dir 30)),
    (0x18294036, 0, .vabs .i64 (.dir 10) (.dir 20)),
    (0x1829403A, 0, .vneg .i64 (.dir 10) (.dir 20)),
    (0x1829403E, 0, .vmov .i64 (.dir 10) (.dir 20)),
    (0x192D5800, 0, .vaddi (.dir 11) (.dir 21) 0x800),
    (0x1A2FFFFF, 0, .vmovi (.dir 11) 0x3FFFF),
    (0x1B0420C4, 0, .vmad (.dir 1) (.dir 2) (.dir 3) (.dir 4)),
    (0x1C0D4796, 0, .vcmp 3 true .ltn (.dir 20) (.dir 30)),
    (0x1C2947B6, 0, .vsel (.dir 10) true 6 (.dir 20) (.dir 30)),
    (0x1D042000, 0, .vclz (.dir 1) (.dir 2)),
    (0x1D042008, 0, .vpopc (.dir 1) (.dir 2)),
    (0x1D0420D0, 0, .vbfe (.dir 1) (.dir 2) (.dir 3)),
    (0x1D0420D8, 0, .vbfeSx (.dir 1) (.dir 2) (.dir 3)),
    (0x1D0420E0, 0, .vbfi (.dir 1) (.dir 2) (.dir 3)),
    (0x1D0420EA, 0, .vdot4 false true false (.dir 1) (.dir 2) (.dir 3)),
    (0x1D0420F5, 0, .vdot8 true false true (.dir 1) (.dir 2) (.dir 3)),
    (0x1E0427C8, 0, .vshfl (.dir 1) (.dir 2) (.up 31)),
    (0x1E0420D0, 0, .vperm (.dir 1) (.dir 2) (.dir 3)),
    (0x1E0420A8, 0, .vrdc .max .f32 (.dir 1) (.dir 2)),
    (0x1F0420C0, 0, .pand 1 2 3),
    (0x1F0420C1, 0, .por 1 2 3),
    (0x1F0420C2, 0, .pxor 1 2 3),
    (0x1F042003, 0, .pnot 1 2),
    (0x1F042004, 0, .pmov 1 2),
    (0x1F042005, 0, .vmovs (.dir 1) 2),
    (0x1F042006, 0, .vmovsHi (.dir 1) 2),
    (0x1F040047, 0, .pset 1 true)] = true := by decide +kernel

/-- Words of this family, written out from the spec's encodings, decode to what they stand for. -/
theorem decode_vector_float_words : decodesTo [
    (0x20084185, 0, .vfadd .f64 true (.dir 2) (.dir 4) (.dir 6)),
    (0x2008418D, 0, .vfsub .f64 true (.dir 2) (.dir 4) (.dir 6)),
    (0x20084195, 0, .vfmul .f64 true (.dir 2) (.dir 4) (.dir 6)),
    (0x2008419A, 0, .vfmin .f16x2 (.dir 2) (.dir 4) (.dir 6)),
    (0x200841A2, 0, .vfmax .f16x2 (.dir 2) (.dir 4) (.dir 6)),
    (0x200841AD, 0, .vfscl .f64 true (.dir 2) (.dir 4) (.dir 6)),
    (0x21084188, 0, .vfmaF32 (.dir 2) (.dir 4) (.dir 6) (.dir 8)),
    (0x25084188, 0, .vfmaF64 (.dir 2) (.dir 4) (.dir 6) (.dir 8)),
    (0x26084188, 0, .vfmaF16x2 (.dir 2) (.dir 4) (.dir 6) (.dir 8)),
    (0x27084188, 0, .vfmaBf16x2 (.dir 2) (.dir 4) (.dir 6) (.dir 8)),
    (0x22084003, 0, .vfabs .bf16x2 (.dir 2) (.dir 4)),
    (0x22084013, 0, .vfneg .bf16x2 (.dir 2) (.dir 4)),
    (0x22084023, 0, .vfclass .bf16x2 (.dir 2) (.dir 4)),
    (0x22084038, 0, .vfrnd .f32 .rup (.dir 2) (.dir 4)),
    (0x2308418D, 0, .vfcmp 2 true .le (.dir 4) (.dir 6)),
    (0x24084181, 0, .vfdot2 true (.dir 2) (.dir 4) (.dir 6))] = true := by decide +kernel

/-- Words of this family, written out from the spec's encodings, decode to what they stand for. -/
theorem decode_convert_words : decodesTo [
    (0x28083149, 0, .vcvt .f32 .e4m3 .dyn true (.dir 2) (.dir 3)),
    (0x2808313A, 0, .vcvtsr .f32 .bf16 false (.dir 2) (.dir 3)),
    (0x290831C4, 0, .vpack .i4 (.dir 2) (.dir 3) 7),
    (0x29083049, 0, .vunpk .bf16 (.dir 2) (.dir 3) 1),
    (0x29083113, 0, .vqnt .ent8 (.dir 2) (.dir 3) (.dir 4)),
    (0x2908311A, 0, .vdqnt .e2m1 (.dir 2) (.dir 3) (.dir 4)),
    (0x290945A0, 0, .vrng (.dir 2) 20 22),
    (0x2A083100, 0, .vrcp (.dir 2) (.dir 3) true),
    (0x2A083300, 0, .vrsq (.dir 2) (.dir 3) true),
    (0x2A083500, 0, .vsqrt (.dir 2) (.dir 3) true),
    (0x2A083700, 0, .vexp2 (.dir 2) (.dir 3) true),
    (0x2A083900, 0, .vlog2 (.dir 2) (.dir 3) true),
    (0x2A083B00, 0, .vsin (.dir 2) (.dir 3) true),
    (0x2A083D00, 0, .vcos (.dir 2) (.dir 3) true),
    (0x2A083F00, 0, .vtanh (.dir 2) (.dir 3) true)] = true := by decide +kernel

/-- Words of this family, written out from the spec's encodings, decode to what they stand for. -/
theorem decode_memory_words : decodesTo [
    (0x2C1841EC, 0, .vld 6 ⟨4, 7, none⟩ .b64 true),
    (0x2C1841C6, 0, .vst 6 ⟨4, 7, none⟩ .b16),
    (0x2D2041F0, 0, .vldr 8 ⟨4, 7, none⟩ true),
    (0x2D2041D2, 0, .vstr 8 ⟨4, 7, none⟩),
    (0x2E206FEC, 0, .sld 8 ⟨6, 63, none⟩ .b64 true),
    (0x2E206FCA, 0, .sst 8 ⟨6, 63, none⟩ .b32),
    (0x2F1841EC, 0, .vlds 6 ⟨4, 7, none⟩ .b64 true),
    (0x2F1841C6, 0, .vsts 6 ⟨4, 7, none⟩ .b16),
    (0x301841EC, 0, .vldc 6 ⟨4, 7, none⟩ .b64 true),
    (0x301841C6, 0, .vstc 6 ⟨4, 7, none⟩ .b16),
    (0x311841EC, 0, .vldd 6 ⟨4, 7, none⟩ .b64 true),
    (0x311841C6, 0, .vstd 6 ⟨4, 7, none⟩ .b16),
    (0x321841EC, 0, .vldp 6 ⟨4, 7, none⟩ .b64 true),
    (0x321841C6, 0, .vstp 6 ⟨4, 7, none⟩ .b16),
    (0x330041C0, 0, .prefL1 ⟨4, 7, none⟩),
    (0x330441C0, 0, .prefL2 ⟨4, 7, none⟩),
    (0x330841C0, 0, .prefSc ⟨4, 7, none⟩),
    (0x330C41E0, 0, .cwb ⟨4, 7, none⟩ true),
    (0x331041C0, 0, .cinv ⟨4, 7, none⟩)] = true := by decide +kernel

/-- Words of this family, written out from the spec's encodings, decode to what they stand for. -/
theorem decode_sync_words : decodesTo [
    (0xB4104090, 0x03028000, .vatom 4 4 2 .virt false ⟨.add, false, .dev, .none, 0⟩),
    (0xB4104094, 0x03028000, .vred 4 4 2 .virt false ⟨.add, false, .dev, .none, 0⟩),
    (0xB4104038, 0x034CBFFF, .satom 4 4 .virt true ⟨.cas, true, .grp, .acq, 0x1FFF⟩),
    (0x350C3000, 0, .fence .clu .ar),
    (0xB5187014, 0x4322D008, .waitm 6 7 .virt ⟨.team, false, .gen, true, .dev, 8⟩),
    (0x360A0000, 0, .bar 2 32),
    (0x36081004, 0, .bara 2 1),
    (0x360800C8, 0, .barw 2 3),
    (0x3600000C, 0, .gbar)] = true := by decide +kernel

/-- Words of this family, written out from the spec's encodings, decode to what they stand for. -/
theorem decode_matrix_words : decodesTo [
    (0xB808A2D0, 0x03200000, .mma .e4m3 0 2 (.ss 10 11 .sp) false),
    (0x39080000, 0, .mzero 2),
    (0x3908A061, 0, .mlda 2 10 .cm true),
    (0x3908A082, 0, .msta 2 10 .ds false),
    (0x392020E3, 0, .mfrgRd 8 2 3 true),
    (0x390880C4, 0, .mfrgWr 2 8 3),
    (0x3A084000, 0, .medge 2 4),
    (0x3A084001, 0, .medgeN 2 4),
    (0x3A282002, 0, .mchk 10 2),
    (0x3BA0328A, 0, .nmv .q8 true 40 3 10),
    (0xBC0C8290, 0x030300C0, .cpy 3 8 10 ⟨.virt, .virt, .sum, true, false, false, 0, 12⟩),
    (0x3DA0A000, 0, .hset 40 10),
    (0x3D0C0001, 0, .hwait 3),
    (0x3D0E8002, 0, .htake 3 40),
    (0x3DA00003, 0, .hfree 40),
    (0x3D2A8004, 0, .hfill 10 40),
    (0x3D143005, 0, .hstat 5 3),
    (0x3D0D4006, 0, .tdset 3 20),
    (0x3D1C32A7, 0, .tdldRow 7 3 10 true),
    (0x3D1C3288, 0, .tdldCol 7 3 10 false)] = true := by decide +kernel

/-- Words of this family, written out from the spec's encodings, decode to what they stand for. -/
theorem decode_system_words : decodesTo [
    (0x3E114000, 0, .redOpen 4 20),
    (0x3E014541, 0, .redOpenDef 20 21),
    (0x3E114042, 0, .redSub 4 20 .sp),
    (0x3E100003, 0, .redWait 4),
    (0x3E204444, 0, .redMap 8 4 17),
    (0x3E116025, 0, .redCorr 4 22 .virt true),
    (0x3E117006, 0, .redNext 4 23),
    (0x3E100007, 0, .redClose 4),
    (0x3E014008, 0, .redCloseDef 20),
    (0x3E086009, 0, .launch 2 6),
    (0x3E14600A, 0, .lagg 5 6),
    (0x3E00000B, 0, .lflush),
    (0x3E04828C, 0, .tapePush 1 8 10),
    (0x3E10800D, 0, .tapeRun 4 8),
    (0x3E04800E, 0, .tapeDrop 1 8),
    (0x3E14600F, 0, .qsig 5 6),
    (0x3F043000, 0, .region .checked 3),
    (0x3F140001, 0, .railr 5),
    (0x3F140002, 0, .railt 5),
    (0x3F045003, 0, .railtScript 1 5),
    (0x3F146004, 0, .tlmrDie 5 6),
    (0x3F146005, 0, .tlmrOwn 5 6),
    (0x3F140006, 0, .auds 5)] = true := by decide +kernel

end Sys2Proof
end

