-- ==== Sys2Proof/Config.lean ====
section
/-!
DEFINITION. What one module fixes and the spec does not state, and the free values. Every constant here is opaque: no proof
can see its value (log 3, 4, 8).
-/

namespace Sys2Proof.Config

open Sys2Proof

/-! ### Unspecified values (spec/00 R7): the first argument is the counter of the state, the second says which -/

/-- A byte that the spec leaves unspecified (spec/07 R146, R141; spec/17 R387; log 8). -/
opaque freeByte : Nat → Nat → Byte

/-- A byte of frame space that no write has reached, as it reads under a key: by the times that the module lost its memory's contents, the
key's identity and the address (spec/07 R146; spec/08 R168; log 2). -/
opaque initByte : Nat → Nat → Nat → Byte

/-- A byte of a unit written under one key as it reads under another: by the two keys, the address and the unit's bytes (spec/07 R141;
log 14). -/
opaque otherKey : Nat → Nat → Nat → List Byte → Byte

/-- A 64-bit value that the spec leaves unspecified (log 8). -/
opaque freeWord : Nat → Nat → Word

/-- A choice that the spec leaves to the device (log 8). -/
opaque freeBool : Nat → Nat → Bool

/-- A number that the spec leaves to the device (log 8). -/
opaque freeNat : Nat → Nat → Nat

/-- Nanoseconds that pass before a read of %time (log 4). -/
opaque timeStep : Nat → Nat

/-- Counted cycles of a group's progress timer at a read of %wdog (spec/05 R104; log 13). -/
opaque wdogCount : Nat → Nat

/-! ### The module (spec/01 R12, R23 to R25: "fw" and "cal") -/

/-- The result codes of the two firmware images at power-up, 0 for verified (log 3). -/
opaque imageCode : Nat → Nat

/-- The fused cores of a die before the bound of R12 (log 3). -/
opaque fusedRaw : Nat → BitVec 36

/-- The lowest passing voltage code of a core at calibration, if any (spec/01 R25; log 3). -/
opaque vpass : Nat → Nat → Option Nat

/-- Whether a link trains, and the mapped capacity of a CXL port in GiB (spec/02 R33, R46; log 3). -/
opaque linkUp : Nat → Bool
opaque linkCap : Nat → Nat

/-- The features offered, before BASE is added (spec/03 R58; log 3). -/
opaque featureBits : BitVec 64

/-- The identifier that the firmware gives a core's matrix engine (spec/09 R201; log 3). -/
opaque unitId : Nat → Nat

/-- The measure of the running firmware and its security version (spec/03 R66; log 3). -/
opaque firmwareDigest : Nat

/-- The SHA-512 digest of some 64-bit words (spec/03 R66): its arithmetic is not the machine's (log 15). -/
opaque sha512 : List Nat → Nat
opaque securityVersion : Nat

end Sys2Proof.Config
end

