-- ==== Sys2Proof/Machine/Bits.lean ====
section
/-!
DEFINITION. Bit, byte and lane helpers that the meanings share: byte order (spec/00 R4), sign extension, fields, counts of
bits, lane masks.
-/

namespace Sys2Proof.Machine

open Sys2Proof

/-- Bits `hi` down to `lo` of a number. -/
def fieldOf (x hi lo : Nat) : Nat := x / 2 ^ lo % 2 ^ (hi + 1 - lo)

/-- `x` read as an `n`-bit two's-complement number. -/
def signedOf (n x : Nat) : Int :=
  let y := x % 2 ^ n
  if n = 0 then 0 else if y < 2 ^ (n - 1) then (y : Int) else (y : Int) - (2 ^ n : Nat)

/-- An integer modulo 2^n. -/
def wrap (n : Nat) (x : Int) : Nat := (x % ((2 ^ n : Nat) : Int)).toNat

/-- An integer as a 64-bit word. -/
def wordOfInt (x : Int) : Word := BitVec.ofInt 64 x

/-- The lesser bound applied, then the greater. -/
def clampInt (lo hi x : Int) : Int := if x < lo then lo else if hi < x then hi else x

/-- A Bool as 0 or 1. -/
def bnat (b : Bool) : Nat := if b then 1 else 0

/-- Number of ones among the low `n` bits. -/
def popCount (x : Nat) : Nat → Nat
  | 0 => 0
  | n + 1 => popCount x n + x / 2 ^ n % 2

/-- Number of leading zeros of an `n`-bit number. -/
def leadZeros (x : Nat) : Nat → Nat
  | 0 => 0
  | n + 1 => if x / 2 ^ n % 2 = 1 then 0 else leadZeros x n + 1

/-- Little-endian value of bytes (spec/00 R4). -/
def leNat : List Byte → Nat
  | [] => 0
  | b :: t => b.toNat + 256 * leNat t

/-- The low `n` bytes of a number, the least significant first. -/
def leBytes : Nat → Nat → List Byte
  | 0, _ => []
  | n + 1, x => BitVec.ofNat 8 x :: leBytes n (x / 256)

/-- Numbers from `a` up, `n` of them. -/
def natsFrom (a : Nat) : Nat → List Nat
  | 0 => []
  | n + 1 => a :: natsFrom (a + 1) n

/-- The lanes of a mask, ascending. -/
def lanesOf (m : Mask) : List Nat := (List.range 32).filter fun l => m.getLsbD l

/-- The mask of one lane. -/
def laneBit (l : Nat) : Mask := BitVec.ofNat 32 (2 ^ l)

/-- The mask of a list of lanes. -/
def maskOf (ls : List Nat) : Mask := ls.foldl (fun m l => m ||| laneBit l) 0

/-- Every lane. -/
def allLanes : Mask := BitVec.allOnes 32

/-- The lowest lane of a mask, 32 for none (the rank of spec/05 R89). -/
def lowLane (m : Mask) : Nat := ((lanesOf m).head?).getD 32

/-- A list put in order of a key, the earlier of two equal elements first. -/
def insertBy {α : Type} (key : α → Nat) (x : α) : List α → List α
  | [] => [x]
  | y :: t => if key x < key y then x :: y :: t else y :: insertBy key x t

/-- Insertion sort by a key; equal keys keep their order. -/
def sortBy {α : Type} (key : α → Nat) (l : List α) : List α := l.foldl (fun acc x => insertBy key x acc) []

/-- The fold of a function over the numbers below `n`, ascending. -/
def loopN {α : Type} (f : Nat → α → α) : Nat → Nat → α → α
  | 0, _, x => x
  | n + 1, i, x => loopN f n (i + 1) (f i x)

end Sys2Proof.Machine
end

