-- ==== Sys2Proof/Machine/State.lean ====
section
/-!
DEFINITION. The state of the module as plain data: everything spec/01 to spec/18 name, and the machine after reset.
INVENTORY.md lists each piece beside the rule that names it.
-/

namespace Sys2Proof.Machine

open Sys2Proof

/-- A zeroed memory: bytes by address, keys strictly rising, no entry equal to `memUnlisted`. The slices, the core
scratchpads, the die scratchpads (spec/07 R134, R138), the staging window and host memory (log 2) are of this kind. -/
abbrev Memory := Tab Byte

/-- What an unlisted byte of a zeroed memory holds. -/
def memUnlisted : Byte := 0

/-- The canonical form of a zeroed memory. -/
def Memory.wf (m : Memory) : Bool := Tab.canonical memUnlisted m

/-- Frame space: bytes by domain address, keys strictly rising, as plaintext and as every cache of the home package shows them. An
unlisted byte has no value of its own: no write has reached it, and it reads as what `Config.initByte` names (spec/07 R146; log 2). -/
abbrev FrameMem := Tab Byte

/-- The canonical form of frame space. -/
def FrameMem.wf (m : FrameMem) : Bool := Tab.sorted m

/-- The phase of the device (spec/01 R22 to R24); `resuming` is the boot of a staged image, from its verification on until step 7
ends. -/
inductive Phase where
  | off | booting | recovery | resuming | ready
deriving DecidableEq, Repr

/-- The recovery registers and the staging window (spec/01 R24); `found` is what the boot agents of the resumed boot find. -/
structure Recovery where
  erra : Nat := 0
  errb : Nat := 0
  errh : Nat := 0
  busy : Bool := false
  store : Bool := false
  len : Nat := 0
  staging : Memory := []
  found : Option BootFindings := none
deriving DecidableEq, Repr

/-- A link (spec/02 R39, R46): UP, whether it trained at boot, CAPG, the two counters read by %lkstat, consecutive replays of the flit in hand,
a retrain that is due, and the times of the retrains that failed within the last second. -/
structure Link where
  up : Bool := false
  trained : Bool := false
  capg : Nat := 0
  retrn : Nat := 0
  replay : Nat := 0
  consecutive : Nat := 0
  retraining : Bool := false
  failed : List Nat := []
deriving DecidableEq, Repr

/-- SPDM session progress of a function (spec/03 R66). -/
structure Spdm where
  version : Bool := false
  caps : Bool := false
  algs : Bool := false
  exchanged : Bool := false
  live : Bool := false
  session : Nat := 0
deriving DecidableEq, Repr

/-- The last write to host memory of some COPY commands of a queue slot (spec/08 R186): its place in order, its bus address, and whether a
fenced command of the slot has started after them. -/
structure PostedWrite where
  at_ : Nat
  addr : Nat
  slot : Nat
  fenced : Bool := false
deriving DecidableEq, Repr

/-- A function's registers and resources (spec/03 R49 to R60); `flr` says that a reset of the physical function waits for
those of the virtual functions (R67), and `posted` lists the writes to host memory that no flushing read has followed, in order
(spec/08 R186). -/
structure Function where
  feata : Word := 0
  lock : Bool := false
  badf : Bool := false
  reset : Bool := false
  en : Bool := false
  err : Bool := false
  dies : BitVec 32 := 0
  share : Bool := false
  weight : Nat := 0
  memq : Nat := 0
  memqUsed : Nat := 0
  qbase : Nat := 0
  qcount : Nat := 0
  kbase : Nat := 0
  kcount : Nat := 0
  qsel : Nat := 0
  apbase : Word := 0
  wdrop : Nat := 0
  rabrt : Nat := 0
  tbRate : Nat := 0
  tbEn : Bool := false
  tbCap : Nat := 0
  tbBlim : Nat := 0
  tokens : Nat := 0
  debt : Nat := 0
  audit : Nat := 0
  spdm : Spdm := {}
  hmdie : Nat := 0
  ltselOwn : Nat := 0
  ltselShared : Nat := 0
  cursorOwn : Nat := 0
  flr : Bool := false
  posted : List PostedWrite := []
deriving DecidableEq, Repr

/-- A command a slot has fetched and not yet retired (spec/03 R56); `index` is its place in the ring. -/
inductive SlotWork where
  | launch (inst : Nat) (irq : Bool)
  | copy (op : Nat) (irq : Bool) (index : Nat)
  | signal (flush : Nat) (irq : Bool) (index : Nat)
deriving DecidableEq, Repr

/-- A global queue slot (spec/03 R54, R55), QBASE, QHEAD and the tail 0 at reset (log 5); `skip` says that the command at QHEAD caused ERR,
`past` is where fetching had come when a command that had started failed (R57), `waitge` holds the address and value of a WAITGE in progress. -/
structure QSlot where
  qbase : Word := 0
  en : Bool := false
  loc : Bool := false
  size : Nat := 0
  prio : Nat := 0
  vec : Nat := 0
  err : Nat := 0
  root : Nat := 0
  owner : Nat := 0
  qhead : Nat := 0
  tail : Nat := 0
  skip : Bool := false
  past : Option Nat := none
  waitge : Option (Nat × Word) := none
  waitgeIrq : Bool := false
  busy : List SlotWork := []
deriving DecidableEq, Repr

/-- States of a key slot (spec/03 R61). -/
inductive KeyState where
  | empty | live | draining
deriving DecidableEq, Repr

/-- The counters of a telemetry block, in the order of R65 (spec/03). -/
structure Telemetry where
  corr : Nat := 0
  reiss : Nat := 0
  escal : Nat := 0
  unlacc : Nat := 0
  sdet : Nat := 0
  audmm : Nat := 0
  tplow : Nat := 0
  tpvg : Nat := 0
  memue : Nat := 0
  poisc : Nat := 0
  throt : Nat := 0
  cows : Nat := 0
  cpyb : Nat := 0
deriving DecidableEq, Repr

/-- A global key slot (spec/03 R61): its state, the identity of the key it holds, and its telemetry block. -/
structure KeySlot where
  state : KeyState := .empty
  key : Nat := 0
  tele : Telemetry := {}
deriving DecidableEq, Repr

/-- A tape record (spec/04 R82). -/
structure TapeRec where
  blk : Nat
  sup : Bool
  arg : Word
deriving DecidableEq, Repr

/-- A run of a tape (spec/04 R83, spec/18 R404): the handle bound (team and number; none once the team ended), the
submitting function and slot, the effective priority, the records of the snapshot, those retired, and the instance in flight;
the tape itself holds the records that are left. -/
structure TapeRun where
  team : Nat
  handle : Nat
  slot : Nat
  fn : Nat
  prio : Nat
  total : Nat
  retired : Nat
  inst : Option Nat
deriving DecidableEq, Repr

/-- A tape (spec/04 R81): its records with the top first, the owning global key slot, LOST, and the run in progress. -/
structure Tape where
  recs : List TapeRec := []
  owner : Option Nat := none
  lost : Bool := false
  run : Option TapeRun := none
deriving DecidableEq, Repr

/-- A task control block as read at submission (spec/04 R68); `bad` says that it breaks a rule of its layout. -/
structure Tcb where
  entry : Nat := 0
  nx : Nat := 0
  ny : Nat := 0
  nz : Nat := 0
  g0 : Nat := 0
  g1 : Nat := 0
  g2 : Nat := 0
  b0 : Nat := 0
  b1 : Nat := 0
  b2 : Nat := 0
  scr : Nat := 0
  acc : Nat := 0
  clf : Nat := 0
  clg : Nat := 0
  clt : Nat := 0
  sup : Bool := false
  reg : Nat := 0
  prio : Nat := 0
  cset : Nat := 0
  cohs : Nat := 0
  gsid : Nat := 0
  predc : Nat := 0
  nsuc : Nat := 0
  novf : Nat := 0
  param : Word := 0
  sovp : Nat := 0
  suc : List Nat := []
  tnum : Nat := 0
  tpsh : Bool := false
  tbwd : Nat := 0
  targ : Word := 0
  aggt : Nat := 0
  bad : Bool := false
deriving DecidableEq, Repr

/-- States of an instance, STAT.STATE (spec/04 R69). -/
inductive InstState where
  | pending | ready | running | retired | failed
deriving DecidableEq, Repr

/-- A live instance (spec/04 R70 to R79): its block's address and copy, the submitting function and queue slot, what is
left of its dependences, its priority, its place in READY order, the die set that admitted it, its dealing progress,
its strikes and whether it was killed (spec/05 R105, R106), and the data of a replayed or aggregated grid. -/
structure Instance where
  blk : Nat
  tcb : Tcb
  fn : Nat
  slot : Nat
  state : InstState := .pending
  count : Nat := 0
  marked : Bool := false
  derr : Bool := false
  sup : Bool := false
  prio : Nat := 0
  seq : Nat := 0
  shared : Option Bool := none
  dealt : Nat := 0
  strikes : Nat := 0
  killed : Bool := false
  replayTape : Option Nat := none
  s1 : Word := 0
  children : List Word := []
  setMembers : List Nat := []
deriving DecidableEq, Repr

/-- A credit for a block address without an instance (spec/04 R71). -/
structure Credit where
  fn : Nat
  blk : Nat
  count : Nat
  marked : Bool
deriving DecidableEq, Repr

/-- An open merge window of the aggregator (spec/04 R85): block, its copy or none when it could not be read, the children,
the opening time, the submitting slot, mode and priority, and whether it has closed and waits for a table entry. -/
structure Window where
  fn : Nat
  blk : Nat
  tcb : Option Tcb
  children : List Word
  opened : Nat
  slot : Nat
  sup : Bool
  prio : Nat
  closed : Bool := false
deriving DecidableEq, Repr

/-- What a unit of frame space stands under (spec/03 R61; spec/07 R142): the identity of the key, and the global key slot. -/
structure UnitTag where
  key : Nat
  slot : Nat
deriving DecidableEq, Repr

/-- A line of an L1 (spec/07 R139): its key slot, its 128 bytes, and which of its four units hold poison. -/
structure L1Line where
  slot : Nat
  bytes : List Byte
  poison : BitVec 4
deriving DecidableEq, Repr

/-- An entry of the home directory (spec/07 R140): the line's key slot, the dies that hold it, its owner, whether it is dirty, and the
units that were struck in a die cache (R158), whose poison stands nowhere else while the line is clean. -/
structure DirLine where
  slot : Nat
  sharers : BitVec 32
  owner : Option Nat
  dirty : Bool
  struck : NatSet := []
deriving DecidableEq, Repr

/-- The states in which a die cache holds a line (spec/07 R140). -/
inductive LineState where
  | i | s | e | o | m
deriving DecidableEq, Repr

/-- A sector of a store cache (spec/07 R142 to R145): its tag, the units of its rows, those that it holds and those held dirty, and the
count of consecutive crossing reads; `struck` are the units whose poison came of a strike in the sector (R158). A sector of linear memory
has TID 0. -/
structure Sector where
  fn : Nat
  tid : Nat
  trow : Nat
  tcol : Nat
  ori : Bool := false
  count : Nat := 0
  rows : List Nat
  held : NatSet := []
  dirty : NatSet := []
  struck : NatSet := []
deriving DecidableEq, Repr

/-- A cached translation (spec/07 R153): the context, the page's size and number, and the leaf with the address that it was read from. -/
structure TlbEntry where
  slot : Nat
  size : Nat
  page : Nat
  entry : Nat
  leaf : Nat
deriving DecidableEq, Repr

/-- A compute die (spec/01 R12, R15, R21; spec/09 R210): its harvest map, clock, die scratchpad and counters 0 to 15. -/
structure Die where
  fused : BitVec 36 := 0
  en : BitVec 36 := 0
  calf : Nat := 0
  inrst : Bool := false
  clock : Nat := 1800
  thermal : Bool := false
  thermalSteps : Nat := 0
  pacing : Bool := false
  scratch : Memory := []
  scratchPoison : NatSet := []
  counters : Tab Nat := []
deriving DecidableEq, Repr

/-- A memory die (spec/01 R26, R28). -/
structure MemDie where
  inrst : Bool := false
deriving DecidableEq, Repr

/-- An entry of a timing-error script (spec/09 R213). -/
structure ScriptEntry where
  seq : Nat
  tries : BitVec 8
  vg : Bool
  row : Nat
  col : Nat
  bit : Nat
deriving DecidableEq, Repr

/-- A range-lock entry (spec/08 R182): the operation that holds it, the context (queue slot), the space, the team or the cluster
set that owns its bytes (0 where none does), and the first and last byte of a source or destination range; `start` is the first byte as registered,
and `since` the number that the next operation had then: what is issued later has it or a greater one. -/
structure LockEntry where
  op : Nat
  slot : Nat
  space : Space
  team : Nat
  first : Nat
  last : Nat
  dst : Bool
  start : Nat := first
  since : Nat := op
deriving DecidableEq, Repr

/-- %cflip (spec/02 R47); `targeted` is the copy chosen while ARM = 1 (R48). -/
structure Cflip where
  arm : Bool := false
  done : Bool := false
  miss : Bool := false
  skip : Nat := 0
  bit : Nat := 0
  offset : Nat := 0
  targeted : Bool := false
deriving DecidableEq, Repr

/-- A core (spec/01 R18, R19; spec/09 R202 to R205, R211, R213; spec/07 R136, R139; spec/17 R366). Voltages are codes of R18; `l1` holds the
lines of its L1 by line number. -/
structure Core where
  vg : Nat := 0
  vcur : Nat := 0
  vcmd : Nat := 0
  vfloor : Nat := 0
  v : Nat := 0
  holdVg : Bool := false
  p : Nat := 1
  q : Nat := 64
  w : Nat := 64
  e : Nat := 0
  n : Nat := 0
  degraded : Bool := false
  vgMismatch : List Nat := []
  script : List ScriptEntry := []
  scriptSeq : Nat := 0
  cflip : Cflip := {}
  locks : Tab LockEntry := []
  l1 : Tab L1Line := []
  gen : Nat := 1
  queue : List Nat := []
  refused : List Nat := []
  backoff : Nat := 0
  missed : Nat := 0
deriving DecidableEq, Repr

/-- Wait words in which a fibre may be parked (spec/05 R91, R96), each with what its wake needs; `reenter` of the fibre
says how the word issues again. -/
inductive Wait where
  | join
  | barrier (n : Nat) (phase : Bool)
  | barw (n : Nat) (c : CReg)
  | handle (h : Nat)
  | red (h : Nat)
  | mem (ea : Word) (space : Space) (n : Nat) (cond : WCond) (k : Word) (scope : Scope) (reg : Nat)
  | grid
deriving DecidableEq, Repr

/-- What a terminal word does at the clause boundary (spec/13 R281). -/
inductive Term where
  | goto (pc : Word)
  | park (w : Wait)
  | split (t n : Mask) (target : Word)
  | endLanes
  | endGroup
  | yield
  | rett
  | next
deriving DecidableEq, Repr

/-- Where a fibre goes on (spec/11 R237): at a clause address, or inside a clause at a word position after issuing
again the words named with their lanes; `term` is what the clause's terminal word does to these lanes at its end, where it
has issued already. -/
structure Resume where
  pc : Word := 0
  mid : Option Nat := none
  reissue : List (Nat × Mask) := []
  term : Option Term := none
deriving DecidableEq, Repr

/-- Loop state of a fibre (spec/14 R309). -/
structure LoopState where
  lc : Tab W32 := []
  bound : Tab W32 := []
  start : Tab Word := []
  stop : Tab Word := []
  levels : Nat := 0
deriving DecidableEq, Repr

/-- The LIVE mask that governs a fibre (spec/11 R249); a fibre without one names every field. -/
structure Live where
  q : Bool
  h : Bool
  ac : BitVec 8
  sq : BitVec 4
  vo : BitVec 8
deriving DecidableEq, Repr

/-- A failure mark of a flag (spec/09 R200, R201): the trap registers of the earliest failed operation, and the operations
that failed, the earliest first. -/
structure FailMark where
  tsyn : Word
  tunit : Word
  ttile : Word
  ops : NatSet := []
deriving DecidableEq, Repr

/-- The trap registers and the return state of a trap fibre (spec/11 R240, R246, R247). -/
structure TrapRegs where
  cause : Nat
  sup : Bool
  tsyn : Word
  tunit : Tab Word
  ttile : Word
  tpc : Word
  tl : Mask
  il : Mask
  wait : BitVec 12 := 0
  retResume : Resume
  retWb : Nat
  retLoops : LoopState
  retEntry : Option Nat
  retFail : Tab FailMark
  retPoison : Tab Word
deriving DecidableEq, Repr

/-- What keeps a fibre from being ready (spec/05 R90); `faultWait` names the services (spec/07 R156), or the flushing read
(spec/02 R31), that the fibre awaits. -/
inductive FibreKind where
  | run
  | header (wait : BitVec 12)
  | parked (w : Wait)
  | faultWait (services : List Nat)
deriving DecidableEq, Repr

/-- A fibre (spec/06 R117). `fail` holds failure marks by flag, `poison` the poisoned unit's address by 32 * flag + lane
(spec/11 R243); `flushed` says that the release it issues again has had its flushing read (spec/08 R186), and `again` that the WAITM it
waits in is still to be issued again after a resumption (spec/16 R359). -/
structure Fibre where
  id : Nat
  mask : Mask
  at_ : Resume
  kind : FibreKind := .run
  reenter : Resume := {}
  wb : Nat := 0
  c : BitVec 8 := 0
  loops : LoopState := {}
  entry : Option Nat := none
  fail : Tab FailMark := []
  poison : Tab Word := []
  trap : Option TrapRegs := none
  drain : Bool := false
  delivered : Nat := 0
  yielded : Bool := false
  flushed : Bool := false
  again : Bool := false
  live : Option Live := none
deriving DecidableEq, Repr

/-- A split-table entry (spec/06 R117). -/
structure SplitEntry where
  join : Mask
  outer : Option Nat
deriving DecidableEq, Repr

/-- What is delivered to a group at a clause boundary, in order of detection (spec/09 R208; spec/11 R254). -/
inductive Due where
  | audit (m : FailMark)
  | timeout
deriving DecidableEq, Repr

/-- A group (spec/06 R114, R115, R131): `v` by 256 * lane + register, `p` and its lanes as masks, `x` by 4 * lane + number,
`slice` by 64 * lane + offset; t and em by number. `parked` says that since the last clause
boundary the group has had no ready fibre and one parked in a wait word (R104 of spec/05), `due` are the
audit mismatches, and the progress timeouts of a stopped team, to be delivered (spec/09 R208; spec/11 R254), `served` says that this
clause boundary has delivered one, and `failed` are the failed operations whose marks nothing has waited on (R200). -/
structure Group where
  team : Nat := 0
  num : Nat := 0
  role : Nat := 0
  walloc : Nat := 0
  quarter : Nat := 0
  s : Tab Word := []
  v : Tab W32 := []
  p : Tab Mask := []
  x : Tab (BitVec 16) := []
  t : Tab (BitVec 256) := []
  em : Tab Word := []
  slice : Memory := []
  slicePoison : NatSet := []
  fpsr : Word := 0
  tvec : Word := 0
  texp : Nat := 28
  esc : Nat := 2
  expn : Nat := 0
  cnt : Nat := 0
  split : Tab SplitEntry := []
  fibres : List Fibre := []
  nextFibre : Nat := 0
  lastFibre : Option Nat := none
  parked : Bool := false
  due : List Due := []
  served : Bool := false
  failed : NatSet := []
  delivered : Nat := 0
  ended : Bool := false
deriving DecidableEq, Repr

/-- Where RETT resumes from a cause (spec/11 R237): the words without effect again, after the issue group, at a clause
address, or at a clause address with the words before `pos` left out. -/
inductive ResumeAt where
  | word
  | after
  | clause (pc : Word)
deriving DecidableEq, Repr

/-- A trap found in a word of the issue group in hand, not yet delivered (spec/11 R239); `tunit` is by lane. -/
structure PendTrap where
  fibre : Nat
  lanes : Mask
  cause : Nat
  tsyn : Word := 0
  tunit : Tab Word := []
  ttile : Word := 0
  tpc : Word
  wait : BitVec 12 := 0
  resume : ResumeAt
  word : Nat
deriving DecidableEq, Repr

/-- A fault-wait fibre to be formed at the end of the issue group (spec/07 R156; spec/02 R31). -/
structure PendWait where
  fibre : Nat
  lanes : Mask
  services : List Nat
  word : Nat
deriving DecidableEq, Repr

/-- A write that an issue group makes when it writes, and that none of its own words sees. -/
inductive LateWrite where
  | tvec (x : Word)
  | cflip (x : Word)
  | region (m : RegionMode) (l : Nat)
deriving DecidableEq, Repr

/-- The clause that a quarter is issuing (spec/06 R124, spec/13 R275): the group, the fibres of the batch, the clause's
words, the position of the word in hand, the start of its issue group, the group as it stood when that issue group began,
the %fpsr flags that its words have set (spec/12 R264), whether it is held, for free entries of the lock table (spec/08 R182) or for a
frame (spec/01 R26; spec/07 R148), and what the words of the group have left to do at its end. `fpsr0`, `region0` and `expn0` are %fpsr, the
region and EXPN as the clause began, as its own earlier issue groups updated them (spec/06 R133), `time` is what an SRD of %time has read in
the issue group, `fflags` the members' flags as the issue group
began (R125), `late` the writes that its SWR and REGION words make when it writes (spec/14 R304; spec/18 R407). Where the members of a batch
take turns at two words of the group (R120, R127), `turns` are the runs left, each with its lanes, `seen` is the group as the member in hand
sees it, and `made` the same with the writes that the runs so far have made. -/
structure Issue where
  group : Nat
  members : List Nat
  clause : Word
  words : List W32
  pos : Nat
  groupStart : Nat
  snap : Group
  seta : Nat := 15
  setb : Nat := 15
  safe : Bool := false
  started : Bool := false
  only : Option Mask := none
  reissue : List (Nat × Mask) := []
  turns : List (Nat × Mask) := []
  seen : Option Group := none
  made : Option Group := none
  resumePos : Nat := 0
  gflags : Word := 0
  held : Bool := false
  fpsr0 : Word := 0
  region0 : RegionMode × Nat := (.exact, 2)
  expn0 : Nat := 0
  time : Option Nat := none
  fflags : Tab Nat := []
  late : List LateWrite := []
  traps : List PendTrap := []
  waits : List PendWait := []
  term : List (Nat × Term) := []
deriving DecidableEq, Repr

/-- A quarter (spec/05 R92): what it chose last, and the clause it is issuing. Quarter q of core c of die d has the number
(36 * d + c) * 4 + q. -/
structure Quarter where
  lastTeam : Option Nat := none
  lastGroup : Tab Nat := []
  issue : Option Issue := none
deriving DecidableEq, Repr

/-- States of a handle (spec/17 R380). -/
inductive HState where
  | free | filling | full | draining
deriving DecidableEq, Repr

/-- The reduction part of a handle (spec/10 R220 to R231): what RED.OPEN bound it to, the bitmap of the last delivery, the
counters of R229, the write position of the correction area, the records in it (round and position, the oldest first), and the
rounds held with their give-up times. -/
structure RedHandle where
  grp : Nat := 0
  chan : Nat := 0
  gid : Nat := 0
  op : Nat := 0
  type : Nat := 0
  len : Nat := 0
  d : Nat := 0
  slack : Nat := 0
  cqn : Nat := 0
  dst : Nat := 0
  cqa : Nat := 0
  submitted : Bool := false
  map : NatSet := []
  cdrop : Nat := 0
  stale : Nat := 0
  conf : Nat := 0
  wpos : Nat := 0
  recs : List (Nat × Nat) := []
  openRounds : List (Nat × Nat) := []
deriving DecidableEq, Repr

/-- A handle (spec/17 R380, spec/11 R253); `run` says that what it was started for last is a run of a tape (spec/18 R404). -/
structure Handle where
  state : HState := .free
  fault : Bool := false
  sumbad : Bool := false
  gone : Bool := false
  late : Bool := false
  isRed : Bool := false
  round : Nat := 0
  sum : W32 := 0
  fill : Nat := 0
  op : Option Nat := none
  tape : Option Nat := none
  run : Bool := false
  red : RedHandle := {}
deriving DecidableEq, Repr

/-- A barrier (spec/16 R361, R364): `lanes` by group number are the lanes of a group that have arrived by BAR while the
group has not, `counted` the lanes whose arrival by BAR has been counted in this phase, `want` the count that a group's lanes
named last. -/
structure Barrier where
  arrivals : Nat := 0
  required : Nat := 0
  phase : Bool := false
  lanes : Tab Mask := []
  counted : Tab Mask := []
  want : Tab Nat := []
deriving DecidableEq, Repr

/-- A team (spec/06 R115, R116; spec/11 R251 to R253). Tiles are by number, element (i, j) under 64 * i + j; `saved` are
the queue entries that its image holds (R251), and `frames` the frames that its image takes from MEMQ (R252). -/
structure Team where
  inst : Nat := 0
  index : Nat := 0
  child : Nat := 0
  local_ : Nat := 0
  cohort : Nat := 0
  core : Nat := 0
  slot : Nat := 0
  csetMember : Nat := 0
  ngroups : Nat := 0
  mode : RegionMode := .exact
  limit : Nat := 2
  scrBytes : Nat := 0
  scratch : Memory := []
  scratchPoison : NatSet := []
  acc : Nat := 0
  tiles : Tab (Tab W32) := []
  checks : Tab Word := []
  gen : Nat := 0
  handles : Tab Handle := []
  barriers : Tab Barrier := []
  gbar : Tab Mask := []
  shared : Bool := false
  stopReq : Bool := false
  stopped : Bool := false
  stopSeq : Nat := 0
  ended : Bool := false
  frames : List Nat := []
  saved : List Nat := []
deriving DecidableEq, Repr

/-- A register that a long-latency operation writes at completion. -/
inductive RegWrite where
  | v (lane reg : Nat) (x : W32)
  | s (reg : Nat) (x : Word)
deriving DecidableEq, Repr

/-- Kinds of long-latency operations without an engine. -/
inductive OpKind where
  | load | atomic | sf | cwb
deriving DecidableEq, Repr

/-- A long-latency operation in flight (spec/06 R128 to R130): its lanes, those that FEND ended left out (spec/14 R313), the
register writes with the lanes that each belongs to, by lane the address of the poisoned unit read and the %fpsr flags, and the
lines that a CWB writes back. -/
structure Op where
  kind : OpKind
  group : Nat
  quarter : Nat
  flag : Option Nat
  holders : List Nat
  lanes : Mask
  writes : List RegWrite
  poison : Tab Word := []
  fpsr : Tab Word := []
  lines : NatSet := []
deriving DecidableEq, Repr

/-- A copy in progress (spec/17 R385 to R389): `members` are the teams whose scratchpads it writes with their generation
tags, `done` the bytes delivered, `fillBase` the fill pointer at its start, `dstSum` the destination-side checksum carried on
from the handle's SUM, `faultBase` the FAULT bit before the service it waits for, `flip` the core whose %cflip targets it (spec/02 R48).
A queue slot's COPY command has team 0. -/
structure CopyOp where
  handle : Nat
  ssp : Space
  src : Nat
  srcHost : Bool := false
  dsp : Space
  dst : Nat
  dstHost : Bool := false
  len : Nat
  tdesc : Option (BitVec 256) := none
  row0 : Nat := 0
  col0 : Nat := 0
  nr : Nat := 0
  nc : Nat := 0
  ck : CkMode := .none
  chk : Option W32 := none
  mc : Bool := false
  members : List (Nat × Nat) := []
  done : Nat := 0
  fillBase : Nat := 0
  dstSum : W32 := 0
  faultBase : Bool := false
  flip : Option Nat := none
  stop : Bool := false
  service : Option Nat := none
deriving DecidableEq, Repr

/-- A near-memory product in progress (spec/17 R390, R391): `gen` is its scratchpad's tag, `row` the row of y that comes next, `faultBase`
the FAULT bit before the service it waits for. -/
structure NmvOp where
  handle : Nat
  fmt : NmvFmt
  acc : Bool
  desc : BitVec 256
  x : Nat
  y : Nat
  gen : Nat
  row : Nat := 0
  faultBase : Bool := false
  service : Option Nat := none
  stop : Bool := false
deriving DecidableEq, Repr

/-- A value: (-1)^neg * m * 2^e when finite. -/
inductive FVal where
  | nan (signalling : Bool)
  | inf (neg : Bool)
  | fin (neg : Bool) (m : Nat) (e : Int)
deriving DecidableEq, Repr

/-- An operand element: its value; for the integer and q formats the integer that enters the sum, and for q formats its group
and the group's scale. `nv` says that its read is invalid: a signalling NaN (spec/12 R257), or an infinite scale of a code equal to
its zero point (R262). -/
structure Elem where
  val : FVal := .fin false 0 0
  code : Int := 0
  grp : Nat := 0
  scale : FVal := .fin false 1 0
  i4c : Bool := false
  nv : Bool := false
deriving DecidableEq, Repr

/-- The operands: rows of A and columns of B, with the active ones. -/
structure Operands where
  fmt : MmaFmt
  rows : Word
  cols : Word
  a : List (List Elem)
  b : List (List Elem)
deriving DecidableEq, Repr

/-- A tile product in progress (spec/09 R199, spec/17 R376). `fetched` are its operands once they are fetched; `head` says that it stands at the
head of the engine until the rail is at Vg (spec/09 R202). `regs` are the A rows of a register form; of one that is audited, `ps` are the
p(i, j) with which it was accepted, row by row over its active elements, and `replay` is the core that replays it (spec/09 R207). -/
structure MmaOp where
  tile : Nat
  fmt : MmaFmt
  rows : Word
  cols : Word
  regs : List Byte
  aDesc : BitVec 256
  bDesc : BitVec 256
  space : Space
  aOff : Nat
  bOff : Nat
  gt : Bool
  i : Nat
  j : Nat
  kk : Nat
  mode : RegionMode
  limit : Nat
  tries : Nat := 0
  corrected : Bool := false
  escalating : Bool := false
  head : Bool := false
  addr : Word
  seq : Option Nat := none
  fetched : Option Operands := none
  audited : Bool := false
  ps : List FVal := []
  replay : Nat := 0
deriving DecidableEq, Repr

/-- Accumulator moves in progress (spec/17 R378, R379); `kept` is the tile that a store goes on to write when its team has stopped
(spec/11 R251). -/
inductive AccMove where
  | load (tile : Nat) (space : Space) (off : Nat)
  | store (tile : Nat) (space : Space) (off : Nat) (kept : Option (Tab W32))
  | read (tile : Nat) (base : Nat) (q : Nat)
  | write (tile : Nat) (q : Nat) (image : Tab W32)
  | zero (tile : Nat)
deriving DecidableEq, Repr

/-- A contribution on its way to the node (spec/10 R225). -/
structure SubOp where
  handle : Nat
  gid : Nat
  chan : Nat
  round : Nat
  op : Nat
  type : Nat
  len : Nat
  d : Nat
  slack : Nat
  space : Space
  src : Nat
  bind : Option Nat := none
deriving DecidableEq, Repr

/-- A correction being copied to a program's buffer (spec/18 R398): the record's position, the address and length of its bytes, and the
binding of the handle. -/
structure CorrOp where
  handle : Nat
  space : Space
  buf : Nat
  rec_ : Option Nat
  round : Nat
  area : Nat := 0
  len : Nat := 0
  bind : Option Nat := none
deriving DecidableEq, Repr

/-- Engine operations. -/
inductive EngKind where
  | copy (c : CopyOp)
  | nmv (n : NmvOp)
  | mma (m : MmaOp)
  | move (a : AccMove)
  | sub (s : SubOp)
  | corr (c : CorrOp)
deriving DecidableEq, Repr

/-- An engine operation in progress: its core, team, context (queue slot), group and flag with the fibres that hold it,
and the
generation tags of the scratchpads of its cluster set as it was issued (spec/07 R136); `without` are the lanes of its group that FEND has
ended since, of which it writes no register (spec/14 R313). -/
structure EngOp where
  kind : EngKind
  core : Nat
  team : Nat
  slot : Nat
  fn : Nat
  group : Nat := 0
  flag : Option Nat := none
  holders : List Nat := []
  tags : List (Nat × Nat) := []
  started : Bool := true
  without : Mask := 0
deriving DecidableEq, Repr

/-- A defined reduction group slot (spec/10 R216). -/
structure RedSlot where
  fn : Nat
  gid : Nat
  n : Nat
  self : Nat
  kslot : Nat
  pkgs : List Nat
  closing : Bool := false
deriving DecidableEq, Repr

/-- State of this package's node for one (GID, channel, round) (spec/10 R226); `bound` says that a handle of this package has started
the round. -/
structure NodeState where
  gid : Nat
  chan : Nat
  round : Nat
  op : Nat
  type : Nat
  len : Nat
  d : Nat
  slack : Nat
  own : Option (List W32) := none
  partials : Tab RedPacket := []
  bound : Bool := false
  forwarded : Bool := false
deriving DecidableEq, Repr

/-- A flushing read outstanding (spec/02 R31, spec/08 R186): the function, the group whose fibres are parked for it or the
queue slot whose SIGNAL waits with the releasing write that follows, the address of the releasing write, by lane for a word,
that of the read, and the last of the posted writes that the read follows. -/
structure Flush where
  fn : Nat
  group : Option Nat
  slot : Option Nat
  upTo : Nat := 0
  index : Nat := 0
  irq : Bool
  host : Bool
  addr : Nat
  addrs : Tab Word := []
  read : Nat := 0
  value : Word
deriving DecidableEq, Repr

/-- A service of a resolvable fault (spec/07 R154): copy-on-write of a page of a context (the frame address of its entry, the
domain address of the source frame, the address written, the key slot of the source), or placement of a frame by the entry of
a function's access. -/
inductive Service where
  | cow (slot fn entry frame va : Nat) (srcKey : Nat)
  | place (frame fn entry : Nat)
deriving DecidableEq, Repr

/-- Answers and reports to the host (spec/01 R23; spec/03). Codes of reports: 1 a compute die in reset, 2 a memory die in reset
with the key slots that lost data, 3 a package lost, 4 a core degraded with the times of its mismatches at Vg, 5 an audit
mismatch that no group takes, 6 a die short of cores, 7 a failed product whose group ended without a wait. -/
inductive HostMsg where
  | config (retry : Bool)
  | data (fn off : Nat) (bytes : List Byte) (poisoned : Bool)
  | abort (fn off : Nat)
  | unsupported (fn : Nat)
  | reg (fn off : Nat) (value : Word)
  | spdm (fn code param : Nat)
  | measurement (fn idx : Nat) (value : Nat)
  | report (code arg : Nat) (who : List Nat)
deriving DecidableEq, Repr

/-- What leaves for another package (spec/02 R37, R38; spec/07 R152): the package, and a reduction packet, a request under a global key
slot, poison carried to a unit, or a timestamp for the time master; or data of a served request. -/
inductive Outgoing where
  | request (pkg slot pa : Nat) (r : RemoteReq)
  | poison (pkg pa : Nat)
  | time (pkg : Nat)
  | partialSum (pkg : Nat) (p : RedPacket)
  | delivery (pkg : Nat) (p : RedPacket)
  | correction (pkg : Nat) (p : RedPacket)
  | reply (bytes : List Byte) (poisoned : Bool)
deriving DecidableEq, Repr

/-- Fault reasons of the model: none of them is the hardware's, which never stops (spec/00 R7). -/
inductive Fault where
  /-- Raised by a step of a device whose supply is off (spec/01 R22: it keeps no state and answers nothing). Safe. -/
  | supplyOff
deriving DecidableEq, Repr

/-- Refusal reasons. -/
inductive Refusal where
  /-- Raised by exec's arm of an instruction without a meaning. Safe. -/
  | notModelled (mnemonic : String)
deriving DecidableEq, Repr

/-- Where some threads of a fibre stand: their team, group and core, and the lanes of the fibre and of the threads (spec/08 R162, R163).
The command processor stands on core 1152. -/
structure Seat where
  team : Nat := 0
  group : Nat := 0
  core : Nat := 1152
  fibre : Mask := 0
  lanes : Mask := 0
deriving DecidableEq, Repr

/-- How the value of a byte stands to the write that a release goes with (spec/08 R171): it is that write's, it is that of a later atomic by
some threads at a scope, or that of another later write. -/
inductive Carry where
  | own
  | rmw (by_ : Seat) (scope : Scope)
  | past
deriving DecidableEq, Repr

/-- A release that a location carries to those who read it (spec/08 R171): who made it, its scope, the writes to host memory that it
covers, and how the value at hand stands to its write. -/
structure Mark where
  by_ : Seat
  scope : Scope
  posts : NatSet
  carry : Carry := .own
deriving DecidableEq, Repr

/-- What the device knows of happens-before (spec/08 R172, R173, R186): the writes to host memory that happen before what each party does
next; by byte of memory, the releases that its value carries, and by core and byte those that the value in that core's L1 carries; and by
thread, its release fences, and the releases that its loads have met. -/
structure Order where
  known : Tab NatSet := []
  marks : Tab (List Mark) := []
  copies : Tab (List Mark) := []
  fences : Tab (List Mark) := []
  reads : Tab (List Mark) := []
deriving DecidableEq, Repr

/-- The state of the module. `stalled` stands only while an event is worked out: an access of the command processor that it makes must
wait (spec/01 R26; spec/07 R148), and the event waits with it. `epoch` counts the times that the module lost its memory's contents; `dir`
is by line number, `tlb` by core number, or by 2048 and the number of a die (spec/07 R153). -/
structure State where
  phase : Phase
  rcv : Recovery
  flashed : Bool
  measure : Nat
  svn : Nat
  time : Nat
  ppm : Int
  pkg : Nat
  npkg : Nat
  master : Bool
  sync : Bool
  exchTime : Nat
  peers : NatSet
  numVfs : Nat
  feato : Word
  lksel : Word
  links : Tab Link
  outgoing : List Outgoing
  msix : List (Nat × Nat)
  hostLog : List HostMsg
  fns : Tab Function
  vfsel : Nat
  gqsel : Nat
  pool : Nat
  pcap : Nat
  meterStart : Nat
  turnFn : Nat
  cursorShared : Nat
  slots : Tab QSlot
  keys : Tab KeySlot
  tapes : Tab Tape
  insts : Tab Instance
  credits : List Credit
  windows : List Window
  dies : Tab Die
  memDies : Tab MemDie
  powerSteps : Nat
  cores : Tab Core
  quarters : Tab Quarter
  teams : Tab Team
  groups : Tab Group
  mem : FrameMem
  units : Tab UnitTag
  epoch : Nat
  dir : Tab DirLine
  sectors : List Sector
  tlb : Tab (List TlbEntry)
  poison : NatSet
  lost : NatSet
  healed : NatSet
  hostMem : Memory
  placed : Tab Place
  moving : Tab Place
  advice : Tab (Nat × Nat)
  ops : Tab Op
  engs : Tab EngOp
  redSlots : Tab RedSlot
  nodes : List NodeState
  flushes : Tab Flush
  order : Order
  services : Tab Service
  remoteTags : Tab Word
  agenda : List Instr
  turns : List Nat
  cur : Nat
  stalled : Bool
  free : Nat
  nextId : Nat
deriving DecidableEq, Repr

/-- The module right after power-good, before boot step 1 (spec/01 R23); the fields whose value the spec does not state
stand as log 1 to 5 name them. -/
def State.reset : State where
  phase := .booting
  rcv := {}
  flashed := false
  measure := 0
  svn := 0
  time := 0
  ppm := 0
  pkg := 0
  npkg := 0
  master := false
  sync := false
  exchTime := 0
  peers := []
  numVfs := 0
  feato := 0
  lksel := 0
  links := []
  outgoing := []
  msix := []
  hostLog := []
  fns := []
  vfsel := 0
  gqsel := 0
  pool := 0
  pcap := 0
  meterStart := 0
  turnFn := 0
  cursorShared := 0
  slots := []
  keys := []
  tapes := []
  insts := []
  credits := []
  windows := []
  dies := []
  memDies := []
  powerSteps := 0
  cores := []
  quarters := []
  teams := []
  groups := []
  mem := []
  units := []
  epoch := 0
  dir := []
  sectors := []
  tlb := []
  poison := []
  lost := []
  healed := []
  hostMem := []
  placed := []
  moving := []
  advice := []
  ops := []
  engs := []
  redSlots := []
  nodes := []
  flushes := []
  order := {}
  services := []
  remoteTags := []
  agenda := []
  turns := []
  cur := 0
  stalled := false
  free := 0
  nextId := 1

end Sys2Proof.Machine
end

