-- ==== Sys2Proof/Machine/Mem.lean ====
section
/-!
DEFINITION. Memory: frame space with its keys and poison, the local levels, host memory, translation and its faults,
range locks (spec/07; spec/08 R182; spec/03 R61 to R64).
-/

namespace Sys2Proof.Machine

open Sys2Proof

/-! ### Functions, contexts and keys (spec/03 R51 to R61) -/

/-- The number of a link (spec/02 R45): spokes 0 to 47, host 48, CXL 49 to 56, UALink 57 to 80. -/
def linkNum : LinkId → Nat
  | .spoke n => n.val
  | .host => 48
  | .cxl n => 49 + n.val
  | .ualink n => 57 + n.val

def State.fn (s : State) (f : Nat) : Function := s.fns.getD f {}
def State.slot (s : State) (g : Nat) : QSlot := s.slots.getD g {}
def State.keySlot (s : State) (g : Nat) : KeySlot := s.keys.getD g {}
def State.link (s : State) (l : Nat) : Link := s.links.getD l {}
def State.coreAt (s : State) (c : Nat) : Core := s.cores.getD c {}
def State.dieAt (s : State) (d : Nat) : Die := s.dies.getD d {}
def State.setFn (s : State) (f : Nat) (x : Function) : State := { s with fns := s.fns.put f x }
def State.setSlot (s : State) (g : Nat) (x : QSlot) : State := { s with slots := s.slots.put g x }
def State.setKey (s : State) (g : Nat) (x : KeySlot) : State := { s with keys := s.keys.put g x }
def State.setCore (s : State) (c : Nat) (x : Core) : State := { s with cores := s.cores.put c x }
def State.setDie (s : State) (d : Nat) (x : Die) : State := { s with dies := s.dies.put d x }
def State.setLink (s : State) (l : Nat) (x : Link) : State := { s with links := s.links.put l x }
def State.team (s : State) (t : Nat) : Team := s.teams.getD t {}
def State.setTeam (s : State) (t : Nat) (x : Team) : State := { s with teams := s.teams.put t x }
def State.group (s : State) (g : Nat) : Group := s.groups.getD g {}
def State.setGroup (s : State) (g : Nat) (x : Group) : State := { s with groups := s.groups.put g x }
def State.quarter (s : State) (q : Nat) : Quarter := s.quarters.getD q {}
def State.setQuarter (s : State) (q : Nat) (x : Quarter) : State := { s with quarters := s.quarters.put q x }

/-- A fresh unspecified value has been taken (log 8). -/
def State.bump (s : State) : State := { s with free := s.free + 1 }

/-- Feature bit `n` of R58 is accepted by function `f`. -/
def State.accepted (s : State) (f n : Nat) : Bool := (s.fn f).lock && (s.fn f).feata.getLsbD n

/-- A function whose resources are in force: the physical function, or an enabled virtual one (spec/03 R52). -/
def State.inForce (s : State) (f : Nat) : Bool := f == 0 || (s.fn f).en

/-- The global key slot of local slot `k` of function `f`, when it is in a range in force and LIVE (spec/03 R52, R61). -/
def State.liveKey (s : State) (f k : Nat) : Option Nat :=
  let x := s.fn f
  if s.inForce f ∧ k < x.kcount ∧ (s.keySlot (x.kbase + k)).state = .live then some (x.kbase + k) else none

/-- A counter that saturates at 2^64 - 1 (spec/03 R65). -/
def sat64 (x : Nat) : Nat := min x 18446744073709551615

/-- A change of the telemetry block of a global key slot. -/
def State.modTele (s : State) (k : Nat) (f : Telemetry → Telemetry) : State :=
  let x := s.keySlot k
  s.setKey k { x with tele := f x.tele }

/-- The OWNER key slot, as a global number, of a context: queue slot `g` of function `f` (spec/03 R54). -/
def State.ownerSlot (s : State) (f g : Nat) : Nat := (s.fn f).kbase + (s.slot g).owner

/-! ### Frame space (spec/07 R142, R146, R158; spec/03 R61) -/

/-- The domain address of a local frame address (spec/02 R37). -/
def State.dom (s : State) (pa : Nat) : Nat := s.pkg * 70368744177664 + pa

/-- The first address beyond the frame space (spec/07 R146). -/
def State.frameEnd (s : State) : Nat :=
  1099511627776 + ((List.range 8).map fun p => (s.link (49 + p)).capg).sum * 1073741824

/-- The frame address of a domain address (spec/02 R37). -/
def frameAddr (dom : Nat) : Nat := dom % 70368744177664

/-- A domain address is this package's own (spec/02 R37). -/
def State.isOwn (s : State) (dom : Nat) : Bool := dom / 70368744177664 == s.pkg

/-- What leaves for another package. -/
def State.send (s : State) (o : Outgoing) : State := { s with outgoing := s.outgoing ++ [o] }

/-- A request to the home of a domain address (spec/07 R152). -/
def State.sendRequest (s : State) (k dom : Nat) (r : RemoteReq) : State :=
  s.send (.request (dom / 70368744177664) k (frameAddr dom) r)

/-- The 32-byte unit at a domain address holds poison (spec/07 R158; spec/01 R28); what another package answers is free. -/
def State.poisoned (s : State) (dom : Nat) : Bool :=
  if s.isOwn dom then s.poison.contains (dom / 32) || (s.lost.contains (dom / 65536) && !s.healed.contains (dom / 32))
  else Config.freeBool s.free (dom / 32)

/-- The identity of the key that a global slot holds (spec/03 R61). -/
def State.keyId (s : State) (k : Nat) : Nat := (s.keySlot k).key

/-- A byte of frame space under the key that its unit stands under: what was written, and else its initial value (spec/08 R168). -/
def State.plainByte (s : State) (key dom : Nat) : Byte := (s.mem.get? dom).getD (Config.initByte s.epoch key (frameAddr dom))

/-- One byte read under global key slot `k`: of a unit that no write has reached its initial value, of one under another key what
deciphering gives, and of another package's memory a free value (spec/07 R141, R146, R152). -/
def State.readByte (s : State) (k dom : Nat) : Byte :=
  if s.isOwn dom then
    match s.units.get? (dom / 32) with
    | none => Config.initByte s.epoch (s.keyId k) (frameAddr dom)
    | some t =>
      if t.key = s.keyId k then s.plainByte t.key dom
      else Config.otherKey t.key (s.keyId k) (frameAddr dom) ((natsFrom (dom / 32 * 32) 32).map (s.plainByte t.key))
  else Config.freeByte s.free dom

/-- `n` bytes from a domain address up. -/
def State.readFrame (s : State) (k dom n : Nat) : List Byte := (natsFrom dom n).map (s.readByte k)

/-- Some unit of `n` bytes from `dom` holds poison. -/
def State.rangePoisoned (s : State) (dom n : Nat) : Bool :=
  (natsFrom (dom / 32) ((dom + n - 1) / 32 - dom / 32 + 1)).any fun u => s.poisoned (32 * u)

/-- Bytes put at a domain address. -/
def putBytes (m : FrameMem) : Nat → List Byte → FrameMem
  | _, [] => m
  | a, b :: t => putBytes (m.put a b) (a + 1) t

/-- The unit of `dom` made to stand under global key slot `k`: what stood under another key is from now on what that key deciphers
(spec/07 R141). -/
def State.keyUnit (s : State) (k dom : Nat) : State :=
  let u := dom / 32
  let m :=
    match s.units.get? u with
    | some t => if t.key = s.keyId k then s.mem else putBytes s.mem (32 * u) (s.readFrame k (32 * u) 32)
    | none => s.mem
  { s with mem := m, units := s.units.put u { key := s.keyId k, slot := k } }

/-- A write of less than a unit: on a poisoned unit it is discarded (spec/07 R158). The bytes lie in one unit. -/
def State.writePart (s : State) (k dom : Nat) (bs : List Byte) : State :=
  if s.poisoned dom then s
  else
    let s := s.keyUnit k dom
    { s with mem := putBytes s.mem dom bs }

/-- A write of all 32 bytes of a unit clears its poison (spec/07 R158). -/
def State.writeUnit (s : State) (k dom : Nat) (bs : List Byte) : State :=
  let u := dom / 32
  let s := { s with poison := s.poison.del u,
                    healed := if s.lost.contains (dom / 65536) then s.healed.add u else s.healed }
  let s := s.keyUnit k dom
  { s with mem := putBytes s.mem dom bs }

/-- A unit left poisoned (spec/07 R158). -/
def State.poisonUnit (s : State) (dom : Nat) : State :=
  if s.isOwn dom then { s with poison := s.poison.add (dom / 32) }
  else s.send (.poison (dom / 70368744177664) (frameAddr dom))

/-- A range of bytes written piece by piece, each piece within one unit. -/
def State.writeFrame (s : State) (k : Nat) : Nat → Nat → List Byte → State
  | 0, _, _ => s
  | fuel + 1, dom, bs =>
    if bs.isEmpty then s
    else
      let n := min (32 - dom % 32) bs.length
      let s := if n = 32 then s.writeUnit k dom (bs.take 32) else s.writePart k dom (bs.take n)
      State.writeFrame s k fuel (dom + n) (bs.drop n)

/-- A range of bytes written (at most one piece a byte); to another package's memory a request leaves (spec/07 R152). -/
def State.writeRange (s : State) (k dom : Nat) (bs : List Byte) : State :=
  if s.isOwn dom then s.writeFrame k bs.length dom bs else s.sendRequest k dom (.write bs)

/-! ### Bytes of a zeroed memory -/

def readZ (m : Memory) (a n : Nat) : List Byte := (natsFrom a n).map fun x => m.getD x memUnlisted

def writeZ (m : Memory) : Nat → List Byte → Memory
  | _, [] => m
  | a, b :: t => writeZ (m.set memUnlisted a b) (a + 1) t

/-! ### Translation (spec/07 R149 to R155) -/

/-- How a walk ends; `stall` is the wait for a frame that moves, or for a memory die in reset (R148; spec/01 R26), and `barred` the failure of
a walk that cannot read a table (spec/01 R28; spec/07 R147). -/
inductive Walk where
  | ok (dom key : Nat)
  | fail (bit : Nat)
  | barred (bit : Nat)
  | poison (addr : Nat)
  | cow (entry frame key : Nat)
  | place (frame entry : Nat)
  | stall
deriving DecidableEq, Repr

/-- The index of a virtual address at a level (spec/07 R149). -/
def walkIndex (va lvl : Nat) : Nat :=
  match lvl with
  | 4 => fieldOf va 56 44
  | 3 => fieldOf va 43 30
  | 2 => fieldOf va 29 21
  | _ => fieldOf va 20 16

/-- Fields of an entry (spec/07 R150). -/
def pteKey (e : Nat) : Nat := fieldOf e 11 0
def pteAddr (e : Nat) : Nat := fieldOf e 43 12 * 4096
def ptePkg (e : Nat) : Nat := fieldOf e 53 44
def pteV (e : Nat) : Bool := fieldOf e 54 54 == 1
def ptePs (e : Nat) : Nat := fieldOf e 56 55
def pteW (e : Nat) : Bool := fieldOf e 57 57 == 1
def pteX (e : Nat) : Bool := fieldOf e 58 58 == 1
def pteCow (e : Nat) : Bool := fieldOf e 59 59 == 1
def pteTier (e : Nat) : Bool := fieldOf e 60 60 == 1
def pteTc (e : Nat) : Bool := fieldOf e 61 61 == 1
def pteAdv (e : Nat) : Nat := fieldOf e 63 62

/-- An entry with V = 1 that breaks the table of R150. -/
def malformed (pkg e lvl : Nat) : Bool :=
  match ptePs e with
  | 0 => lvl == 1 || ptePkg e != pkg
  | 1 => lvl != 1 || fieldOf e 15 12 != 0
  | 2 => lvl != 2 || fieldOf e 20 12 != 0
  | _ => lvl != 3 || fieldOf e 29 12 != 0

/-- The bytes that a leaf maps (spec/07 R149). -/
def pageBytes (e : Nat) : Nat :=
  match ptePs e with
  | 1 => 65536
  | 2 => 2097152
  | _ => 1073741824

/-- Package `n` can be reached (spec/02 R37, R39). -/
def State.reachable (s : State) (n : Nat) : Bool :=
  s.peers.contains n && ((List.range 24).any fun p => (s.link (57 + p)).up)

/-- Frames that rest on a stack, or on a CXL port. -/
def State.restingAt (s : State) (p : Place) : Nat := (s.placed.filter fun e => decide (e.2 = p)).length

/-- A place has room for one more frame (spec/07 R146, R147). -/
def State.hasRoom (s : State) (p : Place) : Bool :=
  match p with
  | .stack _ => decide (s.restingAt p < 1048576)
  | .cxl n => (s.link (49 + n.val)).up && decide (s.restingAt p < (s.link (49 + n.val)).capg * 16384)

/-- The home memory die of a frame that rests at a place (spec/07 R146): that of its stack, and of one in the second tier the die that bits
19:16 of its address name. -/
def homeAt (frame : Nat) (p : Place) : Nat :=
  match p with
  | .stack d => d.val
  | .cxl _ => frame % 16

/-- The home die of a frame at a place is in reset (spec/01 R26: an access that needs it waits). -/
def State.placeDown (s : State) (frame : Nat) (p : Place) : Bool := (s.memDies.getD (homeAt frame p) {}).inrst

/-- No other frame of the page of an entry rests on a port other than `n`, or moves to one (spec/02 R34). -/
def State.onePort (s : State) (frame e : Nat) (n : Fin 8) : Bool :=
  (s.placed ++ s.moving).all fun x =>
    match x.2 with
    | .cxl m => m == n || x.1 == frame || x.1 < pteAddr e / 65536 || (pteAddr e + pageBytes e) / 65536 ≤ x.1
    | .stack _ => true

/-- The places that an entry allows a frame (spec/07 R147), for a function that has accepted TIER2 or not; in the second tier a page
lies on one port (spec/02 R34). -/
def allowedPlace (s : State) (fn e pa : Nat) (p : Place) : Bool :=
  let tier := pteTier e && s.accepted fn 8 && (match p with | .cxl n => s.onePort (pa / 65536) e n | .stack _ => true)
  match pteAdv e, p with
  | 0, .stack _ => true
  | 0, .cxl _ => tier
  | 1, .stack _ => true
  | 1, .cxl _ => false
  | 2, .stack d => d.val == fieldOf pa 33 30
  | 2, .cxl _ => false
  | _, .stack _ => !(tier && (List.finRange 8).any fun n => s.onePort (pa / 65536) e n && s.hasRoom (.cxl n))
  | _, .cxl _ => tier

/-- A frame that an access cannot reach yet: it moves, or its die is in reset (spec/07 R148; spec/01 R26). -/
def State.frameWaits (s : State) (frame : Nat) : Bool :=
  (s.moving.get? frame).isSome || (s.placed.get? frame).any (s.placeDown frame)

/-- Every place there is. -/
def allPlaces : List Place := (List.finRange 16).map .stack ++ (List.finRange 8).map .cxl

/-- The highest frame of the frame space that no access has placed yet, looking `fuel` frames far (log 16). -/
def State.freeFrame (s : State) : Nat → Nat → Option Nat
  | 0, _ => none
  | fuel + 1, f =>
    if (s.placed.get? f).isNone then some f
    else if f = 0 then none
    else s.freeFrame fuel (f - 1)

/-- The frame that the command processor takes next (spec/03 R63; spec/11 R252). -/
def State.nextFrame (s : State) : Option Nat := s.freeFrame (s.placed.length + 1) (s.frameEnd / 65536 - 1)

/-- The stacks that have room for one more frame. -/
def State.roomyStacks (s : State) : List Place := ((List.finRange 16).map Place.stack).filter s.hasRoom

/-- The first of some places whose die is in service. -/
def State.upPlace (s : State) (frame : Nat) (l : List Place) : Option Place := l.find? fun p => !s.placeDown frame p

/-- What a frame at an address of this package makes of an access, by the places that `ok` allows it: it goes on as `k`, it must wait, it
needs a service, or there is no room (spec/07 R147, R148, R155). -/
def State.rested (s : State) (e pa : Nat) (ok : Place → Bool) (k : Walk) : Walk :=
  if s.frameWaits (pa / 65536) then .stall
  else if (s.placed.get? (pa / 65536)).any ok then k
  else if allPlaces.any fun p => ok p && s.hasRoom p then .place (pa / 65536) e
  else .fail 12

/-- The frame at a domain address is one of this package that does not rest where the entry allows it, or rests nowhere yet (spec/07 R147).
One beyond the frame space rests nowhere (log 107). -/
def State.unrested (s : State) (fn e dom : Nat) : Bool :=
  let pa := dom % 70368744177664
  s.isOwn dom && decide (pa < s.frameEnd) && !(s.placed.get? (pa / 65536)).any (allowedPlace s fn e pa)

/-- A write to a page to be copied, whose source is the frame at a domain address (spec/03 R63, R64; spec/07 R155): its service, or why there
can be none. A module without a frame or without room for one, or for a source that rests nowhere yet, has no room for placement. A source
beyond the frame space is copied as it reads (log 107). -/
def State.cowWalk (s : State) (fn entry e key : Nat) : Walk :=
  if !s.accepted fn 1 || ptePs e != 1 then .fail 1
  else if ptePkg e ≠ s.pkg ∧ !s.reachable (ptePkg e) then .fail 10
  else if (s.fn fn).memqUsed ≥ min (s.fn fn).memq 9216 * 16384 then .fail 2
  else if s.unrested fn e (ptePkg e * 70368744177664 + pteAddr e) &&
      !(allPlaces.any fun p => allowedPlace s fn e (pteAddr e) p && s.hasRoom p) then .fail 12
  else
    match s.nextFrame with
    | none => .fail 12
    | some f =>
      if s.roomyStacks.isEmpty then .fail 12
      else if (s.upPlace f s.roomyStacks).isNone then .stall
      else .cow entry (ptePkg e * 70368744177664 + pteAddr e) key

/-- What R151 makes of a leaf: the address, or the service or fault that it needs. -/
def leafWalk (s : State) (fn va : Nat) (kind : AccKind) (entry e : Nat) : Walk :=
  match s.liveKey fn (pteKey e) with
  | none => .fail 8
  | some key =>
    if kind = .fetch ∧ !pteX e then .fail 7
    else
      let pa := pteAddr e + va % pageBytes e
      if kind = .write ∧ !pteW e then (if pteCow e then s.cowWalk fn entry e key else .fail 6)
      else if ptePkg e ≠ s.pkg then
        if s.reachable (ptePkg e) then .ok (ptePkg e * 70368744177664 + pa) key else .fail 10
      else if s.frameEnd ≤ pa then .fail 9
      else s.rested e pa (allowedPlace s fn e pa) (.ok (s.dom pa) key)

/-- What lies in the way of reading a table's entry at an address, if anything: the frame waits, or is not placed yet and is placed on any
stack (spec/07 R147; log 16); a table lost with its die or port ends in the access-violation trap (spec/01 R28; log 68), any other
poisoned one in the poison-consumed trap (spec/07 R159). -/
def State.tableBar (s : State) (at_ : Nat) : Option Walk :=
  let dom := s.dom at_
  let f := at_ / 65536
  if s.frameEnd ≤ at_ then some (.fail 9)
  else if s.frameWaits f then some .stall
  else if (s.placed.get? f).isNone then some (if s.roomyStacks.isEmpty then .barred 12 else .place f 0)
  else if s.lost.contains (dom / 65536) && !s.healed.contains (dom / 32) then some (.barred (Config.freeNat s.free dom % 13))
  else if s.poisoned dom then some (.poison dom)
  else none

/-- One level of the walk of R151 and those below it, `k` the local key slot under which the table is read: the leaf with the address of
its entry, or how the walk ends before. -/
def leafFrom (s : State) (fn va : Nat) : Nat → Nat → Nat → Except Walk (Nat × Nat)
  | 0, _, _ => .error (.fail 5)
  | lvl + 1, tab, k =>
    match s.liveKey fn k with
    | none => .error (.fail 8)
    | some key =>
      let at_ := tab + 8 * walkIndex va (lvl + 1)
      match s.tableBar at_ with
      | some w => .error w
      | none =>
        let e := leNat (s.readFrame key (s.dom at_) 8)
        if !pteV e then .error (.fail 4)
        else if malformed s.pkg e (lvl + 1) then .error (.fail 5)
        else if ptePs e = 0 then leafFrom s fn va lvl (pteAddr e) (pteKey e)
        else .ok (at_, e)

/-- The leaf of a virtual address in the context of queue slot `g` of function `fn`. -/
def leafOf (s : State) (fn g va : Nat) : Except Walk (Nat × Nat) :=
  if va / 144115188075855872 ≠ 0 then .error (.fail 3) else leafFrom s fn va 4 (s.slot g).root (s.slot g).owner

/-- The tables' entries that a walk reads from a level on: their addresses, and the global slots under which they are read. -/
def tableReads (s : State) (fn va : Nat) : Nat → Nat → Nat → List (Nat × Nat)
  | 0, _, _ => []
  | lvl + 1, tab, k =>
    match s.liveKey fn k with
    | none => []
    | some key =>
      let at_ := tab + 8 * walkIndex va (lvl + 1)
      match s.tableBar at_ with
      | some (.poison dom) => [(dom, key)]
      | some _ => []
      | none =>
        let e := leNat (s.readFrame key (s.dom at_) 8)
        (s.dom at_, key) ::
          (if pteV e && !malformed s.pkg e (lvl + 1) && ptePs e == 0 then tableReads s fn va lvl (pteAddr e) (pteKey e) else [])

/-- The walk of R151. -/
def walk (s : State) (fn g va : Nat) (kind : AccKind) : Walk :=
  match leafOf s fn g va with
  | .error w => w
  | .ok (at_, e) => leafWalk s fn va kind at_ e

/-- A range cut at 64 KiB boundaries, the least size of a page. -/
def pagePieces : Nat → Nat → Nat → List (Nat × Nat)
  | 0, _, _ => []
  | fuel + 1, a, n =>
    if n = 0 then []
    else
      let k := min n (65536 - a % 65536)
      (a, k) :: pagePieces fuel (a + k) (n - k)

/-- Where the bytes of a range of a context lie in frame space, as far as they translate for reading: domain addresses and lengths. -/
def State.rangeFrames (s : State) (fn g a n : Nat) : List (Nat × Nat) :=
  (pagePieces (n / 65536 + 2) a n).filterMap fun p =>
    match walk s fn g p.1 .read with
    | .ok dom _ => some (dom, p.2)
    | _ => none

/-- Where a virtual address lies in frame space of this package by its tables, whatever waits or may rest where (spec/01 R27, R28). -/
def State.dataAt (s : State) (fn g va : Nat) : Option Nat :=
  match leafOf { s with moving := [], memDies := [] } fn g va with
  | .ok (_, e) => if ptePkg e = s.pkg then some (s.dom (pteAddr e + va % pageBytes e)) else some (ptePkg e * 70368744177664 + pteAddr e + va % pageBytes e)
  | .error _ => none

/-- A copy-on-write service of a page of a context. -/
def Service.sharesPage (x : Service) (g va : Nat) : Bool :=
  match x with
  | .cow g' _ _ _ va' _ => g' == g && va' / 65536 == va / 65536
  | .place .. => false

/-- The number of a service, a service of the same page or frame shared (spec/07 R154), and the state with it under way. -/
def State.serve (s : State) (fn g va : Nat) : Walk → State × Nat
  | .cow entry frame key =>
    let same : Nat × Service → Bool := fun e => e.2.sharesPage g va
    match s.services.find? same with
    | some e => (s, e.1)
    | none =>
      ({ s with services := s.services.put s.nextId (.cow g fn entry frame va key), nextId := s.nextId + 1 }, s.nextId)
  | .place frame e =>
    let same : Nat × Service → Bool := fun e =>
      match e.2 with
      | .cow .. => false
      | .place f _ _ => f == frame
    match s.services.find? same with
    | some e => (s, e.1)
    | none => ({ s with services := s.services.put s.nextId (.place frame fn e), nextId := s.nextId + 1 }, s.nextId)
  | _ => (s, 0)

/-! ### Where a local or virtual access lands -/

/-- The place of an access: frame space under a global key slot, a team's scratchpad, a die scratchpad, a lane's slice. -/
inductive Loc where
  | frame (dom key : Nat)
  | scratch (team off : Nat)
  | die (d off : Nat)
  | slice (group lane off : Nat)
deriving DecidableEq, Repr

/-- The die of a core number (36 cores a die). -/
def dieOf (core : Nat) : Nat := core / 36

/-- A die is owned by a virtual function (spec/03 R51). -/
def State.dieOwner (s : State) (d : Nat) : Option Nat :=
  (s.fns.find? fun e => e.1 != 0 && e.2.en && e.2.dies.getLsbD d).map (·.1)

/-- The team that is member `q` of the cluster set of team `t`, when it exists and is resident (spec/07 R135). -/
def State.clusterMember (s : State) (t q : Nat) : Option Nat :=
  let x := s.team t
  let cset := (s.insts.get? x.inst).elim 0 (·.tcb.cset)
  if cset < 2 then if q = 0 then some t else none
  else if cset ≤ q then none
  else
    let base := x.index - x.csetMember
    (s.teams.find? fun e => e.2.inst == x.inst && e.2.index == base + q && e.2.csetMember == q && !e.2.stopped
      && !e.2.ended).map (·.1)

/-- The place of offset `off` of a local space for team `t`, for `n` bytes (spec/07 R134, R135, R138; spec/16 R345). A team that is resident
on an owned die reaches its scratchpad, whoever owns the die (log 111). -/
def State.localLoc (s : State) (t : Nat) (space : Space) (off n : Nat) : Option Loc :=
  let x := s.team t
  match space with
  | .virt => none
  | .sp => if off + n ≤ x.scrBytes then some (.scratch t off) else none
  | .cm =>
    if off / 2097152 ≠ 0 then none
    else
      match s.clusterMember t (off / 524288) with
      | some m => if off % 524288 + n ≤ (s.team m).scrBytes then some (.scratch m (off % 524288)) else none
      | none => none
  | .ds =>
    match s.dieOwner (dieOf x.core) with
    | some _ => if off + n ≤ 24117248 then some (.die (dieOf x.core) off) else none
    | none => none

/-- Bytes read at a place. -/
def State.readLoc (s : State) (l : Loc) (n : Nat) : List Byte :=
  match l with
  | .frame dom key => s.readFrame key dom n
  | .scratch t off => readZ (s.team t).scratch off n
  | .die d off => readZ (s.dieAt d).scratch off n
  | .slice g lane off => readZ (s.group g).slice (64 * lane + off) n

/-- A place's unit holds poison, for `n` bytes. -/
def State.locPoisoned (s : State) (l : Loc) (n : Nat) : Bool :=
  let any (p : NatSet) (a : Nat) : Bool := (natsFrom (a / 32) ((a + n - 1) / 32 - a / 32 + 1)).any p.contains
  match l with
  | .frame dom _ => s.rangePoisoned dom n
  | .scratch t off => any (s.team t).scratchPoison off
  | .die d off => any (s.dieAt d).scratchPoison off
  | .slice g lane off => any (s.group g).slicePoison (64 * lane + off)

/-- A local write that keeps to the poison rule of R158: pieces within units. -/
def writeLocal (m : Memory) (p : NatSet) : Nat → Nat → List Byte → Memory × NatSet
  | 0, _, _ => (m, p)
  | fuel + 1, a, bs =>
    if bs.isEmpty then (m, p)
    else
      let n := min (32 - a % 32) bs.length
      if n = 32 then writeLocal (writeZ m a (bs.take 32)) (p.del (a / 32)) fuel (a + n) (bs.drop n)
      else if p.contains (a / 32) then writeLocal m p fuel (a + n) (bs.drop n)
      else writeLocal (writeZ m a (bs.take n)) p fuel (a + n) (bs.drop n)

/-- Bytes written at a place. -/
def State.writeLoc (s : State) (l : Loc) (bs : List Byte) : State :=
  match l with
  | .frame dom key => s.writeRange key dom bs
  | .scratch t off =>
    let x := s.team t
    let r := writeLocal x.scratch x.scratchPoison bs.length off bs
    s.setTeam t { x with scratch := r.1, scratchPoison := r.2 }
  | .die d off =>
    let x := s.dieAt d
    let r := writeLocal x.scratch x.scratchPoison bs.length off bs
    s.setDie d { x with scratch := r.1, scratchPoison := r.2 }
  | .slice g lane off =>
    let x := s.group g
    let r := writeLocal x.slice x.slicePoison bs.length (64 * lane + off) bs
    s.setGroup g { x with slice := r.1, slicePoison := r.2 }

/-- The unit of a place left poisoned (spec/07 R158). -/
def State.poisonLoc (s : State) (l : Loc) : State :=
  match l with
  | .frame dom _ => s.poisonUnit dom
  | .scratch t off => s.setTeam t { s.team t with scratchPoison := (s.team t).scratchPoison.add (off / 32) }
  | .die d off => s.setDie d { s.dieAt d with scratchPoison := (s.dieAt d).scratchPoison.add (off / 32) }
  | .slice g lane off =>
    s.setGroup g { s.group g with slicePoison := (s.group g).slicePoison.add ((64 * lane + off) / 32) }

/-! ### Range locks (spec/08 R182) -/

/-- The number of a team's cluster set: its instance and the index of the set's first member. -/
def Team.setNumber (x : Team) : Nat := 8589934592 * x.inst + (x.index - x.csetMember)

/-- The owner of the bytes of a space that team `t` names: the team itself, its cluster set, or none where every team names the
same bytes. -/
def State.lockOwner (s : State) (t : Nat) (space : Space) : Nat :=
  match space with
  | .sp => t
  | .cm => (s.team t).setNumber
  | .virt | .ds => 0

/-- The entry, and whether it is a destination range, that traps an access of `n` bytes at `a` by a thread of context
`g`: any destination range, and for a write any source range too. -/
def lockHit (locks : Tab LockEntry) (g : Nat) (space : Space) (owner a n : Nat) (write : Bool) : Option (Nat × Bool) :=
  (locks.find? fun e =>
    e.2.slot == g && e.2.space == space && e.2.team == owner
      && decide (a ≤ e.2.last) && decide (e.2.first ≤ a + n - 1) && (e.2.dst || write)).map fun e => (e.1, e.2.dst)

/-- The lowest free entry of a table that holds 128. -/
def freeLock (locks : Tab LockEntry) : Nat := Tab.freeFrom locks 0 128

/-- An entry registered on a core; an empty range registers none. -/
def State.lock (s : State) (core : Nat) (e : LockEntry) : State :=
  if e.last < e.first then s
  else
    let c := s.coreAt core
    s.setCore core { c with locks := c.locks.put (freeLock c.locks) e }

/-- Words that are held, for free lock entries (spec/08 R182) or for a frame (spec/01 R26; spec/07 R148), are tried again. -/
def State.unstall (s : State) : State :=
  let go (q : Quarter) : Quarter := { q with issue := q.issue.map fun it => { it with held := false } }
  { s with quarters := s.quarters.map fun e => (e.1, go e.2) }

/-- The entries of an operation released; those of a team that resumed elsewhere lie in the table of the core that issued them
(spec/11 R251). -/
def State.unlock (s : State) (op : Nat) : State :=
  State.unstall { s with cores := s.cores.map fun c =>
    (c.1, { c.2 with locks := c.2.locks.filter fun e => e.2.op != op }) }

end Sys2Proof.Machine
end

