-- ==== Sys2Proof/Machine/Order.lean ====
section
/-!
DEFINITION. Which writes to host memory happen before what the parties of the device do next, and the releases that locations carry between
them (spec/08 R162, R163, R170 to R174, R186; log 25).
-/

namespace Sys2Proof.Machine

open Sys2Proof

/-! ### Parties -/

/-- A party to an ordering: what every thread of a team starts with; a thread, by its group and lane (spec/08 R162); the arrivals at a
barrier of a team in the phase under way, and those of the phase that ended last; the arrivals at the grid barrier of an instance; an
instance, in which what it is admitted after, and what its teams have ended with, comes together (spec/04 R72); a queue slot, and its
retired commands; a tape's records and runs; the block that retired predecessors name; an open window; and the handle of a tape's run. -/
inductive Who where
  | team (t : Nat)
  | lane (g l : Nat)
  | arriving (t n : Nat)
  | arrived (t n : Nat)
  | grid (id : Nat)
  | inst (id : Nat)
  | slot (g : Nat)
  | done (g : Nat)
  | tape (t : Nat)
  | block (fn blk : Nat)
  | window (fn blk : Nat)
  | handle (t h : Nat)

/-- The number of a party. -/
def Who.num : Who → Nat
  | .team t => 16 * t
  | .inst id => 16 * id + 1
  | .slot g => 16 * g + 2
  | .done g => 16 * g + 3
  | .tape t => 16 * t + 4
  | .block fn blk => 16 * (18446744073709551616 * fn + blk) + 5
  | .window fn blk => 16 * (18446744073709551616 * fn + blk) + 6
  | .handle t h => 16 * (64 * t + h) + 7
  | .lane g l => 16 * (32 * g + l) + 8
  | .arriving t n => 16 * (16 * t + n) + 9
  | .arrived t n => 16 * (16 * t + n) + 10
  | .grid id => 16 * id + 11

/-- The writes to host memory that happen before what a party does next (spec/08 R173). -/
def State.known (s : State) (p : Who) : NatSet := s.order.known.getD p.num []

/-- Those that no flushing read has followed. -/
def State.unflushed (s : State) (xs : NatSet) : NatSet := xs.filter fun k => s.fns.any fun f => f.2.posted.any fun p => p.at_ == k

/-- A party comes to know of some writes. -/
def State.learn (s : State) (p : Who) (xs : NatSet) : State :=
  let new := (s.unflushed xs).filter fun k => !(s.known p).contains k
  if new.isEmpty then s
  else { s with order := { s.order with known := s.order.known.put p.num (new.foldl NatSet.add (s.known p)) } }

/-- A party that stands for something new. -/
def State.forget (s : State) (p : Who) : State := { s with order := { s.order with known := s.order.known.erase p.num } }

/-- The writes to host memory that happen before what some lanes of a group do next. -/
def State.knows (s : State) (g : Nat) (m : Mask) : NatSet :=
  s.known (.team (s.group g).team) ++ (lanesOf m).flatMap fun l => s.known (.lane g l)

/-- Some lanes of a group come to know of some writes. -/
def State.inform (s : State) (g : Nat) (m : Mask) (xs : NatSet) : State := (lanesOf m).foldl (fun s l => s.learn (.lane g l) xs) s

/-- Those that every thread of a team knows of together. -/
def State.teamKnows (s : State) (t : Nat) : NatSet :=
  s.known (.team t) ++ (s.groups.filter fun e => e.2.team == t).flatMap fun e => (List.range 32).flatMap fun l => s.known (.lane e.1 l)

/-! ### Releases and acquires of threads (spec/08 R170, R171) -/

def ordAcquires (o : Ord) : Bool := o == .acq || o == .ar
def ordReleases (o : Ord) : Bool := o == .rel || o == .ar

/-- The threads at `b` lie in the instance of a scope of those at `a` (spec/08 R163). -/
def Seat.spans (scope : Scope) (a b : Seat) : Bool :=
  match scope with
  | .fib => a.group == b.group && (b.lanes &&& ~~~a.fibre) == 0
  | .grp => a.group == b.group
  | .team => a.team == b.team
  | .clu => a.core / 4 == b.core / 4
  | .die => dieOf a.core == dieOf b.core
  | .dev | .dom | .sys => true

/-- The value that some threads read counts as the write of a release: it is its own, or that of a later atomic whose scope includes both
parties (spec/08 R171). -/
def Mark.reaches (m : Mark) (p : Seat) : Bool :=
  match m.carry with
  | .own => true
  | .rmw q sc => q.spans sc m.by_ && q.spans sc p
  | .past => false

/-- A release that an acquire of a scope by some threads synchronises with: each lies in the other's scope (spec/08 R164, R171). -/
def Mark.meets (m : Mark) (p : Seat) (scope : Scope) : Bool := m.by_.spans m.scope p && p.spans scope m.by_ && m.reaches p

/-- The bytes of memory, as numbers, that `n` bytes of a place are; no other thread reads a slice. -/
def Loc.octets (l : Loc) (n : Nat) : List Nat :=
  match l with
  | .frame dom _ => (natsFrom dom n).map fun a => 4 * a
  | .scratch t off => (natsFrom off n).map fun a => 4 * (524288 * t + a) + 1
  | .die d off => (natsFrom off n).map fun a => 4 * (33554432 * d + a) + 2
  | .slice .. => []

/-- The releases that the bytes of a place carry. -/
def State.marksAt (s : State) (l : Loc) (n : Nat) : List Mark :=
  if s.order.marks.isEmpty then []
  else (l.octets n).foldl (fun ms a => ms ++ (s.order.marks.getD a []).filter fun m => !ms.contains m) []

/-- A write to a place, which carries these releases. Those of earlier writes stay with it as of a value that a later write has made, an
atomic or another (spec/08 R171), until the writes that they cover are flushed. -/
def State.setMarks (s : State) (l : Loc) (n : Nat) (ms : List Mark) (carry : Carry := .past) : State :=
  if s.order.marks.isEmpty && ms.isEmpty then s
  else
    let kept (a : Nat) : List Mark :=
      (((s.order.marks.getD a []).filter fun m => !(s.unflushed m.posts).isEmpty).map fun m => { m with carry := carry }).eraseDups
    let new (a : Nat) : List Mark := ms ++ (kept a).filter fun m => !ms.contains m
    { s with order := { s.order with
        marks := (l.octets n).foldl (fun t a => if (new a).isEmpty then t.erase a else t.put a (new a)) s.order.marks } }

/-- The key of a byte of memory in a core's L1. -/
def copyKey (core a : Nat) : Nat := 288230376151711744 * core + a

/-- What the bytes of memory carry, taken to their copies in a core's L1. -/
def Order.copied (o : Order) (core : Nat) (as_ : List Nat) : Order :=
  { o with copies := as_.foldl (fun t a => match o.marks.get? a with
      | some ms => t.put (copyKey core a) ms
      | none => t.erase (copyKey core a)) o.copies }

/-- The bytes of a place in a core's L1 carry what those of memory carry: they have come from there, or were written with them. -/
def State.copyMarks (s : State) (core : Nat) (l : Loc) (n : Nat) : State :=
  if s.order.marks.isEmpty && s.order.copies.isEmpty then s else { s with order := s.order.copied core (l.octets n) }

/-- The releases that the bytes of a place carry in a core's L1. -/
def State.marksIn (s : State) (core : Nat) (l : Loc) (n : Nat) : List Mark :=
  if s.order.copies.isEmpty then []
  else (l.octets n).foldl (fun ms a => ms ++ (s.order.copies.getD (copyKey core a) []).filter fun m => !ms.contains m) []

/-- A release that covers some writes; none where nothing that it covers waits to be flushed. -/
def State.markOf (s : State) (p : Seat) (scope : Scope) (xs : NatSet) : List Mark :=
  let xs := s.unflushed xs
  if xs.isEmpty then [] else [{ by_ := p, scope := scope, posts := xs }]

/-- The threads at a seat, by number. -/
def Seat.threads (p : Seat) : List Nat := (lanesOf p.lanes).map fun l => 32 * p.group + l

/-- A read by threads of a value that carries the releases `ms`: an acquire orders what they do next after them, and an acquire fence can do
so later. -/
def State.readMarks (s : State) (p : Seat) (sync : Scope × Ord) (ms : List Mark) : State :=
  if ms.isEmpty then s
  else
    let met (t : Tab (List Mark)) (k : Nat) : Tab (List Mark) := t.put k (t.getD k [] ++ ms.filter fun m => !(t.getD k []).contains m)
    let s : State := { s with order := { s.order with reads := p.threads.foldl met s.order.reads } }
    if ordAcquires sync.2 then s.inform p.group p.lanes ((ms.filter fun m => m.meets p sync.1).flatMap (·.posts)) else s

/-- A write by threads: it carries its own release and those of their release fences; an atomic continues the release sequences of the
writes before it. -/
def State.writeMarks (s : State) (p : Seat) (sync : Scope × Ord) (atomic : Bool) (l : Loc) (n : Nat) : State :=
  let own := (if ordReleases sync.2 then s.markOf p sync.1 (s.knows p.group p.lanes) else []) ++
    (p.threads.flatMap fun k => s.order.fences.getD k []).filter fun m => !(s.unflushed m.posts).isEmpty
  (s.setMarks l n own (if atomic then .rmw p sync.1 else .past)).copyMarks p.core l n

/-- A fence of a thread. -/
def State.fenceMarks (s : State) (p : Seat) (scope : Scope) (ord : Ord) : State :=
  let met := (p.threads.flatMap fun k => s.order.reads.getD k []).filter fun m => m.meets p scope
  let s := if ordAcquires ord then s.inform p.group p.lanes (met.flatMap (·.posts)) else s
  let ms := if ordReleases ord then s.markOf p scope (s.knows p.group p.lanes) else []
  if ms.isEmpty then s
  else
    let made (t : Tab (List Mark)) (k : Nat) : Tab (List Mark) := t.put k (ms ++ (t.getD k []).filter fun m => m.scope != scope)
    { s with order := { s.order with fences := p.threads.foldl made s.order.fences } }

end Sys2Proof.Machine
end

