-- ==== Sys2Proof/Machine/Cache.lean ====
section
/-!
DEFINITION. What stands between an access and frame space: TLBs (spec/07 R153), the L1s and the home directory (R139 to R141, R161), the
sectors of the store caches (R142 to R145), and what is lost with them (R158 to R160; spec/03 R62). `State.mem` is at every moment what
the caches of this package show together; an L1 alone may hold older bytes.
-/

namespace Sys2Proof.Machine

open Sys2Proof

/-! ### TLBs (spec/07 R153) -/

/-- A cached translation is one of an address in a context. -/
def TlbEntry.maps (x : TlbEntry) (g va : Nat) : Bool := x.slot == g && x.page == va / x.size

/-- The cached translations that an access from a core may use: those of the core's TLB, then those of its die's. -/
def State.cachedLeaves (s : State) (core g va : Nat) : List TlbEntry :=
  (s.tlb.getD core [] ++ s.tlb.getD (2048 + dieOf core) []).filter fun x => x.maps g va

/-- The cached translation that an access from a core uses, none where it walks. -/
def State.usedLeaf (s : State) (core g va : Nat) : Option TlbEntry :=
  let l := if core < 1152 ∧ va / 144115188075855872 = 0 then s.cachedLeaves core g va else []
  l[Config.freeNat s.free (va / 65536) % (l.length + 1)]?

/-- The translation of an access from a core: by a cached leaf or by a walk; where both are there, which is free (log 9). A core number
of 1152 is the command processor, which walks. -/
def State.translate (s : State) (core fn g va : Nat) (kind : AccKind) : Walk :=
  match s.usedLeaf core g va with
  | some x => leafWalk s fn va kind x.entry x.leaf
  | none => walk s fn g va kind

/-- A translation put in front of those that a TLB of `n` entries holds. -/
def cacheIn (n : Nat) (x : TlbEntry) (l : List TlbEntry) : List TlbEntry := if l.contains x then l else (x :: l).take n

/-- The leaf of an address cached for a core and its die, where a walk comes to one. -/
def State.cacheLeaf (s : State) (core fn g va : Nat) : State :=
  match leafOf s fn g va with
  | .ok (at_, e) =>
    if core < 1152 then
      let x : TlbEntry := { slot := g, size := pageBytes e, page := va / pageBytes e, entry := at_, leaf := e }
      let t := s.tlb.put core (cacheIn 256 x (s.tlb.getD core []))
      { s with tlb := t.put (2048 + dieOf core) (cacheIn 16384 x (t.getD (2048 + dieOf core) [])) }
    else s
  | .error _ => s

/-- Cached translations dropped from every TLB. -/
def State.dropLeaves (s : State) (p : TlbEntry → Bool) : State :=
  { s with tlb := s.tlb.map fun e => (e.1, e.2.filter fun x => !p x) }

/-! ### Sectors (spec/07 R142 to R145) -/

/-- The home memory die of a frame that has been placed (spec/07 R146). -/
def State.homeDie (s : State) (frame : Nat) : Option Nat :=
  (s.placed.get? frame).map fun p => match p with | .stack d => d.val | .cxl _ => frame % 16

/-- The memory die whose store cache holds a sector: that of the frame of its first row (spec/07 R144). -/
def State.sectorHome (s : State) (x : Sector) : Option Nat := s.homeDie (frameAddr (32 * x.rows.headD 0) / 65536)

/-- The function in whose range a global key slot lies: that of the context whose access names it (spec/03 R61). -/
def State.keyFn (s : State) (k : Nat) : Nat :=
  ((s.fns.find? fun e => decide (e.2.kbase ≤ k ∧ k < e.2.kbase + e.2.kcount)).map (·.1)).getD 0

/-- A unit held by a sector, and dirty there where `dirty` says so. -/
def Sector.take (x : Sector) (u : Nat) (dirty : Bool) : Sector :=
  { x with held := x.held.add u, dirty := if dirty then x.dirty.add u else x.dirty, struck := if dirty then x.struck.del u else x.struck }

/-- A unit no longer held. -/
def Sector.without (x : Sector) (u : Nat) : Sector := { x with held := x.held.del u, dirty := x.dirty.del u, struck := x.struck.del u }

/-- A sector is the linear one of a unit. -/
def Sector.isLinear (x : Sector) (u : Nat) : Bool := x.tid == 0 && x.rows.contains u

/-- A slice read of a sector; `crossing` says that it runs against the orientation. At the fourth crossing read in a row the sector flips
(spec/07 R145). -/
def Sector.slice (x : Sector) (column : Bool) : Sector :=
  if column == x.ori then { x with count := 0 }
  else if 3 ≤ x.count then { x with count := 0, ori := !x.ori }
  else { x with count := x.count + 1 }

/-- A linear access of a unit under a key slot: it is served by the sector that holds it, whatever the tag, and else the linear sector takes
it (spec/07 R144). -/
def State.touchUnit (s : State) (k u : Nat) (dirty : Bool) : State :=
  let on (p : Sector → Bool) : State := { s with sectors := s.sectors.map fun x => if p x then x.take u dirty else x }
  if s.sectors.any fun x => x.held.contains u then on fun x => x.held.contains u
  else if s.sectors.any fun x => x.isLinear u then on fun x => x.isLinear u
  else
    let x : Sector := { fn := s.keyFn k, tid := 0, trow := frameAddr (32 * u) / 1024, tcol := 0, rows := natsFrom (u / 32 * 32) 32 }
    { s with sectors := s.sectors ++ [x.take u dirty] }

/-- A linear read of a unit from the sector that serves it: a row slice (spec/07 R145). -/
def State.readUnit (s : State) (k u : Nat) : State :=
  let s := s.touchUnit k u false
  { s with sectors := s.sectors.map fun x => if x.held.contains u then x.slice false else x }

/-- The units of a range of bytes. -/
def unitsOf (dom n : Nat) : List Nat := natsFrom (dom / 32) ((dom + n - 1) / 32 - dom / 32 + 1)

/-- A linear access of a range. -/
def State.touchRange (s : State) (k dom n : Nat) (dirty : Bool) : State :=
  (unitsOf dom n).foldl (fun s u => s.touchUnit k u dirty) s

/-- The units of the 32 rows of sector (i, j) of a tensor, where the sector may be held under its tensor tag: every row translates to this
package's HBM by an entry with TC = 1, and TID is not 0 (spec/07 R143). -/
def State.tileUnits (s : State) (fn g : Nat) (tid base pitch i j : Nat) : Option (List Nat) :=
  let row (r : Nat) : Option Nat :=
    let va := base + (32 * i + r) * pitch + 32 * j
    match leafOf s fn g va, walk s fn g va .read with
    | .ok (_, e), .ok dom _ =>
      if pteTc e && s.isOwn dom && (match s.placed.get? (frameAddr dom / 65536) with | some (.stack _) => true | _ => false) then
        some (dom / 32)
      else none
    | _, _ => none
  if tid = 0 then none
  else
    let l := (List.range 32).filterMap row
    if l.length = 32 then some l else none

/-- `n` slice reads. -/
def Sector.slices (column : Bool) : Nat → Sector → Sector
  | 0, x => x
  | n + 1, x => Sector.slices column n (x.slice column)

/-- A sector that is the one of a tile. -/
def Sector.isTile (x : Sector) (fn tid i j : Nat) : Bool := x.fn == fn && x.tid == tid && x.trow == i && x.tcol == j

/-! ### Poison that stands in a cached copy alone (spec/07 R158; log 48) -/

/-- A copy of a unit, clean in a die cache or a store cache, was struck there. -/
def State.struckAt (s : State) (u : Nat) : Bool :=
  (s.dir.any fun e => e.2.struck.contains u) || s.sectors.any fun x => x.struck.contains u

/-- Copies of some units that were struck are gone: poison that no other copy holds is gone with them. -/
def State.loseStruck (s : State) (us : List Nat) : State :=
  { s with poison := s.poison.filter fun u => !us.contains u || s.struckAt u }

/-- Those of some units whose home holds no poison: it has none, or a cached copy alone holds it. -/
def State.cleanHome (s : State) (us : List Nat) : List Nat := us.filter fun u => !s.poisoned (32 * u) || s.struckAt u

/-- Units whose poison stands at their home too, or nowhere: no cache alone holds it. -/
def State.unstrike (s : State) (us : List Nat) : State :=
  { s with dir := s.dir.map (fun e => (e.1, { e.2 with struck := e.2.struck.filter fun u => !us.contains u })),
           sectors := s.sectors.map fun x => { x with struck := x.struck.filter fun u => !us.contains u } }

/-- The sector of a tile made to hold its 32 units: each is taken out of the sector that held it, with its dirty bytes (spec/07 R144) and
its poison. A sector of the same tag over other rows is evicted. -/
def State.takeTile (s : State) (fn tid i j : Nat) (us : List Nat) : State :=
  let old := (s.sectors.find? fun x => x.isTile fn tid i j && x.rows == us).getD
    { fn := fn, tid := tid, trow := i, tcol := j, rows := us }
  let dirty := us.filter fun u => s.sectors.any fun x => x.dirty.contains u
  let struck := us.filter fun u => !dirty.contains u && s.sectors.any fun x => x.struck.contains u
  let gone := (s.sectors.filter fun x => x.isTile fn tid i j).flatMap (·.struck)
  let others := (s.sectors.filter fun x => !x.isTile fn tid i j).map fun x => us.foldl Sector.without x
  State.loseStruck { s with sectors := others.filter (fun x => !x.held.isEmpty) ++
      [{ old with held := us.foldl NatSet.add [], dirty := dirty.foldl NatSet.add [], struck := struck }] } gone

/-! ### The home directory (spec/07 R140, R141) -/

/-- The bit of a die in a sharer vector. -/
def dieBit (d : Nat) : BitVec 32 := BitVec.ofNat 32 (2 ^ d)

/-- The line of an address, and the units of a line. -/
def lineOf (dom : Nat) : Nat := dom / 128
def lineUnits (line : Nat) : List Nat := natsFrom (4 * line) 4

/-- The state in which die `d` holds a line. -/
def DirLine.state (x : DirLine) (d : Nat) : LineState :=
  if !x.sharers.getLsbD d then .i
  else if x.owner = some d then (if !x.dirty then .e else if x.sharers = dieBit d then .m else .o)
  else .s

/-- A line leaves every die cache; a dirty one is written back to its units' sectors, and of a clean one the poison that it alone held is
gone (log 48). -/
def State.evictLine (s : State) (line : Nat) : State :=
  match s.dir.get? line with
  | none => s
  | some x =>
    let s : State := { s with dir := s.dir.erase line }
    if x.dirty then (lineUnits line).foldl (fun s u => s.touchUnit x.slot u true) s
    else s.loseStruck ((lineUnits line).filter x.struck.contains)

/-- A line held under another key slot is written back and dropped (spec/07 R141). -/
def State.evictOther (s : State) (k line : Nat) : State :=
  if (s.dir.get? line).any fun x => x.slot != k then s.evictLine line else s

/-- A line comes to die `d`: one that no die held from its sectors in E, as `fetch` reads each unit, and of others the die becomes a sharer
(spec/07 R140); poison travels with it (R158). The holder of a line supplies it, clean or dirty, and no sector is read (log 108). -/
def State.dirJoin (s : State) (fetch : State → Nat → State) (d k dom : Nat) : State :=
  let l := lineOf dom
  let s := s.evictOther k l
  match s.dir.get? l with
  | some x =>
    if x.sharers.getLsbD d then s
    else { s with dir := s.dir.put l { x with sharers := x.sharers ||| dieBit d, owner := if x.dirty then x.owner else none } }
  | none =>
    let s := (lineUnits l).foldl fetch s
    let struck := (lineUnits l).filter fun u => s.sectors.any fun x => x.struck.contains u
    { s with dir := s.dir.put l { slot := k, sharers := dieBit d, owner := some d, dirty := false, struck := struck } }

/-- Die `d` reads a line; `rows` says that its units come as row slices of their sectors, and not by slices that a tensor access has counted
(spec/07 R143, R145). -/
def State.dirRead (s : State) (d k dom : Nat) (rows : Bool := true) : State :=
  s.dirJoin (fun s u => if rows then s.readUnit k u else s.touchUnit k u false) d k dom

/-- Die `d` writes a line: it alone holds it, in M, and what poison is left in it will come home. A write reads no slice of a sector (spec/07
R145). -/
def State.dirWrite (s : State) (d k dom : Nat) : State :=
  let s := (s.dirJoin (fun s u => s.touchUnit k u false) d k dom).unstrike (lineUnits (lineOf dom))
  { s with dir := s.dir.put (lineOf dom) { slot := k, sharers := dieBit d, owner := some d, dirty := true } }

/-- The lines of a range leave every die cache. -/
def State.evictRange (s : State) (dom n : Nat) : State :=
  (natsFrom (lineOf dom) ((dom + n - 1) / 128 - dom / 128 + 1)).foldl State.evictLine s

/-- A line written back but kept: M becomes E and O becomes S, and its units are written to frame space (spec/16 R348), still
poisoned where they were: such poison no longer stands in a cache alone (spec/07 R158). -/
def State.cleanLine (s : State) (line : Nat) : State :=
  let us := lineUnits line
  let back : Bool := (s.dir.get? line).any (·.dirty)
  { s with
    dir := match s.dir.get? line with
      | some x =>
        s.dir.put line { x with dirty := false, struck := if back then [] else x.struck, owner := if x.owner.any fun d => decide (x.sharers = dieBit d) then x.owner else none }
      | none => s.dir,
    sectors := s.sectors.map fun x =>
      { x with dirty := x.dirty.filter fun u => !us.contains u,
               struck := x.struck.filter fun u => !(us.contains u && (back || x.dirty.contains u)) } }

/-! ### The L1s (spec/07 R139) -/

/-- The copy of a line that a read by a thread on a core finds in its L1: a copy may have been evicted at any time (log 9). -/
def State.l1Copy (s : State) (core k dom : Nat) : Option L1Line :=
  ((s.coreAt core).l1.get? (lineOf dom)).filter fun x => x.slot == k && Config.freeBool s.free (lineOf dom)

/-- A change of a core's L1. -/
def State.modL1 (s : State) (core : Nat) (f : Tab L1Line → Tab L1Line) : State :=
  s.setCore core { s.coreAt core with l1 := f (s.coreAt core).l1 }

/-- Every line of a core's L1 invalidated for an acquire. -/
def State.clearL1 (s : State) (core : Nat) : State := s.setCore core { s.coreAt core with l1 := [] }

/-- The line of an address dropped from a core's L1. -/
def State.dropL1 (s : State) (core dom : Nat) : State := s.modL1 core fun t => t.erase (lineOf dom)

/-- The lines of a range dropped. -/
def State.dropL1Range (s : State) (core dom n : Nat) : State :=
  s.modL1 core fun t => t.filter fun e => !decide (lineOf dom ≤ e.1 ∧ e.1 ≤ (dom + n - 1) / 128)

/-- A line brought into a core's L1, with the poison of its units and the releases that its bytes carry. -/
def State.fillL1 (s : State) (core k dom : Nat) : State :=
  let a := lineOf dom * 128
  let x : L1Line :=
    { slot := k, bytes := s.readFrame k a 128,
      poison := (List.range 4).foldl (fun m i => if s.poisoned (a + 32 * i) then m ||| BitVec.ofNat 4 (2 ^ i) else m) 0 }
  (s.modL1 core fun t => t.put (lineOf dom) x).copyMarks core (.frame a k) 128

/-- Bytes put into a list at a place. -/
def splice (l : List Byte) (i : Nat) (bs : List Byte) : List Byte := l.take i ++ bs ++ l.drop (i + bs.length)

/-- A store of a thread on a core updates the L1's copy of its line: not in a poisoned unit (spec/07 R158); a copy under another key slot
goes. -/
def State.patchL1 (s : State) (core k dom : Nat) (bs : List Byte) : State :=
  s.modL1 core fun t =>
    match t.get? (lineOf dom) with
    | none => t
    | some x =>
      if x.slot ≠ k then t.erase (lineOf dom)
      else if x.poison.getLsbD (dom % 128 / 32) then t
      else t.put (lineOf dom) { x with bytes := splice x.bytes (dom % 128) bs }

/-! ### Accesses of threads -/

/-- A copy of a line shows poison in some unit of `n` bytes from `dom` on. -/
def L1Line.poisoned (x : L1Line) (dom n : Nat) : Bool :=
  (unitsOf (dom % 128) n).any fun i => x.poison.getLsbD i

/-- What a thread on a core reads of `n` bytes at a place, with whether some unit of it holds poison: the L1's copy where there is one. -/
def State.seenAt (s : State) (core : Nat) (l : Loc) (n : Nat) : List Byte × Bool :=
  match l with
  | .frame dom key =>
    match s.l1Copy core key dom with
    | some x => ((x.bytes.drop (dom % 128)).take n, x.poisoned dom n)
    | none => (s.readLoc l n, s.locPoisoned l n)
  | .scratch .. | .die .. | .slice .. => (s.readLoc l n, s.locPoisoned l n)

/-- The releases that such a value carries (spec/08 R171). -/
def State.marksSeen (s : State) (core : Nat) (l : Loc) (n : Nat) : List Mark :=
  match l with
  | .frame dom key => if (s.l1Copy core key dom).isSome then s.marksIn core l n else s.marksAt l n
  | .scratch .. | .die .. | .slice .. => s.marksAt l n

/-- A line fetched for a die: from its home, a line of another package by a request. -/
def State.fetchLine (s : State) (d k dom : Nat) (rows : Bool := true) : State :=
  if s.isOwn dom then s.dirRead d k dom rows else s.sendRequest k (lineOf dom * 128) (.read 128)

/-- What a thread's read leaves in the caches: a line that the L1 did not hold comes into it, through the die cache. -/
def State.readThrough (s : State) (core : Nat) (l : Loc) (rows : Bool := true) : State :=
  match l with
  | .frame dom key =>
    match s.l1Copy core key dom with
    | some _ => s
    | none => (s.fetchLine (dieOf core) key dom rows).fillL1 core key dom
  | .scratch .. | .die .. | .slice .. => s

/-- A store of a thread on a core: written through its L1 to the die cache, which holds the line in M, or to the line's home package
(spec/07 R139, R140). -/
def State.threadWrite (s : State) (core : Nat) (l : Loc) (bs : List Byte) : State :=
  let s := s.writeLoc l bs
  match l with
  | .frame dom key => (if s.isOwn dom then s.dirWrite (dieOf core) key dom else s).patchL1 core key dom bs
  | .scratch .. | .die .. | .slice .. => s

/-- A write performed at the home store cache: of an engine, the host, the command processor or another package, or an atomic of domain
or system scope (spec/08 R177). -/
def State.homeWrite (s : State) (k dom : Nat) (bs : List Byte) : State :=
  let s := s.setMarks (.frame dom k) bs.length []
  if s.isOwn dom && !bs.isEmpty then
    ((s.evictRange dom bs.length).writeRange k dom bs).touchRange k dom bs.length true
  else s.writeRange k dom bs

/-- A write of such an agent at a place. -/
def State.agentWrite (s : State) (l : Loc) (bs : List Byte) : State :=
  match l with
  | .frame dom key => s.homeWrite key dom bs
  | .scratch .. | .die .. | .slice .. => (s.setMarks l bs.length []).writeLoc l bs

/-- An engine's write: the L1 of the core of its team shows it too (spec/08 R180). -/
def State.engineWrite (s : State) (cores : List Nat) (l : Loc) (bs : List Byte) : State :=
  let s := s.agentWrite l bs
  match l with
  | .frame dom _ => cores.foldl (fun s c => s.dropL1Range c dom bs.length) s
  | .scratch .. | .die .. | .slice .. => s

/-- What a read of a range of frame space by an agent at its home leaves behind: lines held under another key slot are written back and
dropped (spec/07 R141), and the units that no die cache holds are read from their sectors where `linear` says so (R144, R145). The home of
another package is asked for the bytes (R152). -/
def State.homeRead (s : State) (linear : Bool) (k dom n : Nat) : State :=
  if !s.isOwn dom then s.sendRequest k dom (.read n)
  else if n = 0 then s
  else
    let s := (natsFrom (lineOf dom) ((dom + n - 1) / 128 - dom / 128 + 1)).foldl (fun s l => s.evictOther k l) s
    if linear then
      (unitsOf dom n).foldl (fun s u => if (s.dir.get? (u / 4)).isSome then s else s.readUnit k u) s
    else s

/-- A linear read at a place by such an agent. -/
def State.askLoc (s : State) (l : Loc) (n : Nat) : State :=
  match l with
  | .frame dom key => s.homeRead true key dom n
  | .scratch .. | .die .. | .slice .. => s

/-- What the translation of an access from a core leaves behind: a walk reads its tables' entries at the home directories, as linear data
(spec/07 R141, R143, R153). -/
def State.walked (s : State) (core fn g va : Nat) : State :=
  if (s.usedLeaf core g va).isSome || va / 144115188075855872 != 0 then s
  else (tableReads s fn va 4 (s.slot g).root (s.slot g).owner).foldl (fun s r => s.homeRead true r.2 r.1 8) s

/-- The 32 rows of sector (i, j) of a tensor translated one by one, and `n` slice reads of it; a tile that cannot be held under its tag is
served by linear row reads (spec/07 R143). -/
def State.readTile (s : State) (core fn g tid base pitch i j n : Nat) (column : Bool) : State :=
  let us := s.tileUnits fn g tid base pitch i j
  let s := if tid = 0 then s
    else (List.range 32).foldl (fun s r => s.walked core fn g (base + (32 * i + r) * pitch + 32 * j)) s
  match us with
  | none => s
  | some us =>
    let s := s.takeTile fn tid i j us
    { s with sectors := s.sectors.map fun x => if x.isTile fn tid i j then x.slices column n else x }

/-- Reads of a range of a context by such an agent for a core, as far as it translates. -/
def State.askRange (s : State) (linear : Bool) (core fn g a n : Nat) : State :=
  (pagePieces (n / 65536 + 2) a n).foldl (fun s p =>
    let t := s.walked core fn g p.1
    match s.translate core fn g p.1 .read with
    | .ok dom key => t.homeRead linear key dom p.2
    | _ => t) s

/-! ### Losses (spec/07 R158 to R161; spec/03 R62) -/

/-- The global slot to which an error of a unit is charged: the unit's own, while it holds that key. -/
def State.unitSlot (s : State) (u : Nat) : Option Nat :=
  (s.units.get? u).bind fun t =>
    if (s.keySlot t.slot).state = .live ∧ (s.keySlot t.slot).key = t.key then some t.slot else none

/-- MEMUE of a slot rises by one. -/
def State.chargeSlot (s : State) (k : Option Nat) : State :=
  k.elim s fun k => s.modTele k fun t => { t with memue := sat64 (t.memue + 1) }

/-- Units poisoned by one error at their home, which is charged once to a slot. -/
def State.poisonFor (s : State) (k : Option Nat) (us : List Nat) : State :=
  let s := s.unstrike us
  ({ s with poison := us.foldl NatSet.add s.poison, healed := s.healed.filter fun x => !us.contains x }).chargeSlot k

/-- Units poisoned by one error that strikes them at their home. -/
def State.poisonUnits (s : State) (us : List Nat) : State := s.poisonFor (us.findSome? s.unitSlot) us

/-- A line of a die cache poisoned: the error is charged to the slot under which the line is held (spec/07 R139, R160). -/
def State.poisonLine (s : State) (line : Nat) : State :=
  s.poisonFor ((s.dir.get? line).map (·.slot) |>.orElse fun _ => (lineUnits line).findSome? s.unitSlot) (lineUnits line)

/-- A unit whose last writes are lost: its bytes are unspecified, and its poison may be gone with them. -/
def State.loseWrites (s : State) (u : Nat) : State :=
  { s with mem := putBytes s.mem (32 * u) ((natsFrom (32 * u) 32).map (Config.freeByte s.free)),
           poison := if Config.freeBool s.free u then s.poison.del u else s.poison }

/-- Lines and sectors that the device has evicted before a loss: at any time it may write back what it holds (log 9). -/
def State.someEvicted (s : State) : State :=
  let s := (s.dir.filter fun e => Config.freeBool s.free (2 * e.1)).foldl (fun s e => s.evictLine e.1) s
  let gone (x : Sector) : Bool := Config.freeBool s.free (2 * x.rows.headD 0 + 1)
  State.bump (State.loseStruck { s with sectors := s.sectors.filter fun x => !gone x } ((s.sectors.filter gone).flatMap (·.struck)))

/-- Die `d` no longer holds any line, and what it held dirty is poisoned at its home (spec/07 R161); the copies that other dies hold of such a
line go with it (log 84). -/
def State.loseDie (s : State) (d : Nat) : State :=
  let s := s.someEvicted
  let dirty := (s.dir.filter fun e => e.2.dirty && e.2.owner == some d).map (·.1)
  let s := dirty.foldl State.poisonLine s
  let left (e : Nat × DirLine) : Option (Nat × DirLine) :=
    let x := { e.2 with sharers := e.2.sharers &&& ~~~dieBit d, owner := if e.2.owner = some d then none else e.2.owner }
    if dirty.contains e.1 || x.sharers == 0 then none else some (e.1, x)
  State.loseStruck
    { s with
           dir := s.dir.filterMap left,
           cores := s.cores.map (fun e => (e.1, if dieOf e.1 == d then { e.2 with l1 := [] } else e.2)),
           tlb := s.tlb.filter fun e => !(e.1 == 2048 + d || (decide (e.1 < 1152) && dieOf e.1 == d)) }
    ((s.dir.filter fun e => (left e).isNone && !dirty.contains e.1).flatMap (·.2.struck))

/-- What the L1s, the die caches and the store caches hold of some units is gone. -/
def State.forgetUnits (s : State) (mine : Nat → Bool) : State :=
  { s with
    cores := s.cores.map fun e => (e.1, { e.2 with l1 := e.2.l1.filter fun x => !(lineUnits x.1).any mine }),
    dir := s.dir.filter fun e => !(lineUnits e.1).any mine,
    sectors := (s.sectors.map fun x =>
      { x with held := x.held.filter (fun u => !mine u), dirty := x.dirty.filter (fun u => !mine u),
               struck := x.struck.filter fun u => !mine u }).filter fun x => !x.held.isEmpty }

/-- The store cache of memory die `d` is lost: the last writes of units of other frames that it alone held are gone with it (log 48). -/
def State.loseStore (s : State) (d : Nat) : State :=
  let s := s.someEvicted
  let lost := s.sectors.filter fun x => s.sectorHome x == some d
  let s := (lost.flatMap (·.dirty)).foldl State.loseWrites s
  State.bump (State.loseStruck { s with sectors := s.sectors.filter fun x => s.sectorHome x != some d } (lost.flatMap (·.struck)))

/-- Every line tagged with a key slot is dropped without a write-back from every cache, poisoned lines included (spec/03 R62 step 3). -/
def State.dropKey (s : State) (k : Nat) : State :=
  let s := s.someEvicted
  let mine (u : Nat) : Bool := (s.units.get? u).any fun t => t.slot == k
  let held := s.dir.filter fun e => e.2.slot == k
  let lines := (held.filter fun e => e.2.dirty).flatMap fun e => lineUnits e.1
  let units := s.sectors.flatMap fun x => x.dirty.filter mine
  let struck := (held.filter fun e => !e.2.dirty).flatMap (·.2.struck) ++ s.sectors.flatMap fun x => x.struck.filter mine
  let s := (lines ++ units).foldl State.loseWrites s
  let s : State := { s with
    dir := s.dir.filter (fun e => e.2.slot != k),
    cores := s.cores.map fun e => (e.1, { e.2 with l1 := e.2.l1.filter fun x => x.2.slot != k }) }
  State.bump (State.loseStruck { s with sectors := (s.sectors.map fun x =>
    { x with held := x.held.filter (fun u => !mine u), dirty := x.dirty.filter (fun u => !mine u),
             struck := x.struck.filter fun u => !mine u }).filter fun x => !x.held.isEmpty } struck)

end Sys2Proof.Machine
end

