-- ==== Sys2Proof/Machine/Ops.lean ====
section
/-!
DEFINITION. The named operations over the machine: the word in hand, writes of registers, flags, taking a trap and
returning from one (spec/06; spec/11 R237 to R248), and ending a team by force (spec/05 R106).
-/

namespace Sys2Proof.Machine

open Sys2Proof

/-- The outcome type of every meaning. -/
abbrev Res := Host.Outcome State Fault Refusal

/-! ### What the host is told -/

/-- An MSI-X message of a function. -/
def State.msi (s : State) (fn vec : Nat) : State := { s with msix := s.msix ++ [(fn, vec)] }

/-- A message in the host's log. -/
def State.tell (s : State) (m : HostMsg) : State := { s with hostLog := s.hostLog ++ [m] }

/-- A report of the firmware to the driver of the physical function, with its MSI-X message: vector 0 (log 60). -/
def State.report (s : State) (m : HostMsg) : State := (s.tell m).msi 0 0

/-! ### The word in hand -/

/-- The clause of a quarter that issues nothing. -/
def Issue.idle : Issue :=
  { group := 0, members := [], clause := 0, words := [], pos := 0, groupStart := 0, snap := {} }

/-- The clause that the quarter in hand is issuing. -/
def State.it (s : State) : Issue := ((s.quarter s.cur).issue).getD Issue.idle

/-- The quarter in hand is issuing a clause. -/
def State.issuing (s : State) : Bool := ((s.quarter s.cur).issue).isSome

/-- A change of the clause in hand; a quarter that issues nothing is left as it is. -/
def State.modIt (s : State) (f : Issue → Issue) : State :=
  match (s.quarter s.cur).issue with
  | some it => s.setQuarter s.cur { s.quarter s.cur with issue := some (f it) }
  | none => s

/-- The word at a position. -/
def Issue.word (it : Issue) (p : Nat) : W32 := it.words.getD p 0

/-- The word after position `p` in the same packet, if the word at `p` is chained to one (spec/13 R274, R275). -/
def Issue.follower (it : Issue) (p : Nat) : Option W32 :=
  if p % 3 = 2 then none else it.words[p + 1]?

/-- The decoded word at a position and the number of words it takes. -/
def Issue.decoded (it : Issue) (p : Nat) : Option (Instr × Nat) := decode (it.word p) (it.follower p)

/-- The words that the instruction at position `p` takes (spec/13 R279). -/
def Issue.len (it : Issue) (p : Nat) : Nat := ((it.decoded p).map (·.2)).getD 1

/-- The end of a run of chained words from `p` (spec/13 R280), looking `fuel` words far. -/
def Issue.runEnd (it : Issue) : Nat → Nat → Nat
  | 0, p => p
  | fuel + 1, p =>
    if it.words.length ≤ p then p
    else if fK (it.word p).toNat && p % 3 != 2 then it.runEnd fuel (p + 1) else p + 1

/-- The position after the issue group that starts at or holds `p`. -/
def Issue.groupNext (it : Issue) (p : Nat) : Nat := it.runEnd 3 p

/-- The address of the word in hand. -/
def Issue.addr (it : Issue) (p : Nat) : Word := it.clause + BitVec.ofNat 64 (4 * p)

/-- The address after the clause's last word (spec/14 R305). -/
def Issue.sequential (it : Issue) : Word := it.addr it.words.length

/-- The instruction in hand closes its issue group: nothing more of the group is to issue (spec/13 R280; of a group issued
again in part, spec/11 R237; of one whose members take turns, spec/06 R127). -/
def Issue.closes (it : Issue) : Bool :=
  match it.turns, it.reissue with
  | _ :: rest, _ => rest.isEmpty
  | [], [] => decide (it.groupNext it.pos ≤ it.pos + it.len it.pos)
  | [], _ :: rest => rest.isEmpty

/-- The word is a LIVE (spec/13 R278). -/
def isLive (w : W32) : Bool := fOp w.toNat == 2

/-- A terminal word stands where R281 allows: last in its clause, or directly before the LIVE that ends it. -/
def Issue.lastPlace (it : Issue) : Bool :=
  let p := it.pos + it.len it.pos
  p == it.words.length || (p + 1 == it.words.length && isLive (it.word p))

/-- The fibres of the batch as the issue group began, in rank order (spec/06 R120). -/
def Issue.whole (it : Issue) : List Fibre := it.members.filterMap fun m => it.snap.fibres.find? fun f => f.id == m

/-- The fibres of the batch cut to the lanes for which the word issues (spec/11 R237); one with no such lane has no run. -/
def Issue.parts (it : Issue) : List Fibre :=
  match it.only with
  | some m => (it.whole.map fun f => { f with mask := f.mask &&& m }).filter fun f => f.mask != 0
  | none => it.whole

/-- The registers that a member's run of a word reads: as the issue group began, with what the members that ran before it have written
(spec/06 R125, R127). -/
def Issue.view (it : Issue) : Group := if it.turns.isEmpty then it.snap else it.seen.getD it.snap

/-- The lanes for which the word issues. -/
def Issue.mask (it : Issue) : Mask := it.parts.foldl (fun m f => m ||| f.mask) 0

/-- The fibre that holds a lane. -/
def Issue.fibreOf (it : Issue) (l : Nat) : Fibre :=
  (it.parts.find? fun f => f.mask.getLsbD l).getD { id := 0, mask := 0, at_ := {} }

/-- The window base of the batch (spec/06 R120: equal in every member). -/
def Issue.wb (it : Issue) : Nat := (it.parts.head?).elim 0 (·.wb)

/-- Team and instance of the word in hand. -/
def State.myTeam (s : State) : Nat := (s.group s.it.group).team
def State.myInst (s : State) : Nat := (s.team s.myTeam).inst
def State.inst (s : State) (i : Nat) : Instance :=
  s.insts.getD i { blk := 0, tcb := {}, fn := 0, slot := 0 }
def State.myFn (s : State) : Nat := (s.inst s.myInst).fn
def State.mySlot (s : State) : Nat := (s.inst s.myInst).slot
def State.myCore (s : State) : Nat := (s.team s.myTeam).core
def State.mySup (s : State) : Bool := (s.inst s.myInst).sup

/-! ### Writes of a group's registers -/

/-- One write of a register or of a fibre's own state. -/
inductive GWrite where
  | s (n : Nat) (x : Word)
  | v (lane reg : Nat) (x : W32)
  | p (lane n : Nat) (b : Bool)
  | x (lane n : Nat) (y : BitVec 16)
  | t (n : Nat) (d : BitVec 256)
  | em (n : Nat) (y : Word)
  | flags (m : Word)
  | fpsr (y : Word)
  | wdog (texp esc : Nat)
  | c (fib n : Nat) (b : Bool)
  | wb (fib n : Nat)
  | loops (fib : Nat) (l : LoopState)
  | live (fib : Nat) (l : Live)
deriving DecidableEq, Repr

def Group.vreg (g : Group) (lane reg : Nat) : W32 := g.v.getD (256 * lane + reg) 0
def Group.sreg (g : Group) (n : Nat) : Word := g.s.getD n 0
def Group.preg (g : Group) (lane n : Nat) : Bool := (g.p.getD n 0).getLsbD lane
def Group.xreg (g : Group) (lane n : Nat) : BitVec 16 := g.x.getD (4 * lane + n) 0
def Group.treg (g : Group) (n : Nat) : BitVec 256 := g.t.getD n 0

/-- em0 to em7 start at all ones (spec/06 R115). -/
def Group.ereg (g : Group) (n : Nat) : Word := g.em.getD n (BitVec.allOnes 64)

/-- A change of one fibre. -/
def Group.modFibre (g : Group) (id : Nat) (f : Fibre → Fibre) : Group :=
  { g with fibres := g.fibres.map fun x => if x.id == id then f x else x }

def Group.fibre? (g : Group) (id : Nat) : Option Fibre := g.fibres.find? fun f => f.id == id

/-- A mask with the bit of one lane set to `b`. -/
def setLane (m : Mask) (lane : Nat) (b : Bool) : Mask := if b then m ||| laneBit lane else m &&& ~~~laneBit lane

/-- One write applied. -/
def Group.write (g : Group) : GWrite → Group
  | .s n y => { g with s := g.s.put n y }
  | .v lane reg y => { g with v := g.v.put (256 * lane + reg) y }
  | .p lane n b => { g with p := g.p.put n (setLane (g.p.getD n 0) lane b) }
  | .x lane n y => { g with x := g.x.put (4 * lane + n) y }
  | .t n d => { g with t := g.t.put n d }
  | .em n y => { g with em := g.em.put n y }
  | .flags m => { g with fpsr := g.fpsr ||| m }
  | .fpsr y => { g with fpsr := y }
  | .wdog a b => { g with texp := a, esc := b }
  | .c fib n b =>
    g.modFibre fib fun f => { f with c := if b then f.c ||| BitVec.ofNat 8 (2 ^ n) else f.c &&& ~~~BitVec.ofNat 8 (2 ^ n) }
  | .wb fib n => g.modFibre fib fun f => { f with wb := n }
  | .loops fib l => g.modFibre fib fun f => { f with loops := l }
  | .live fib l => g.modFibre fib fun f => { f with live := some l }

/-- Writes applied in order: of two writes of one register the later stands (spec/06 R126). -/
def Group.writes (g : Group) (ws : List GWrite) : Group := ws.foldl Group.write g

/-! ### Traps found in a word -/

/-- A lane's trap: cause, %tsyn, %tunit, %ttile (spec/11 R237, R247). -/
structure LaneTrap where
  lane : Nat
  cause : Nat
  tsyn : Word := 0
  tunit : Word := 0
  ttile : Word := 0
deriving DecidableEq, Repr

/-- Where RETT resumes by the cause raised at issue (spec/11 R237). -/
def resumeOf (cause : Nat) : ResumeAt :=
  if [4, 6, 7, 8, 9].contains cause then .word else .after

/-- A lane's trap joined to those of the same fibre, word, cause and syndrome (spec/11 R239). -/
def joinTrap (fibre word : Nat) (tpc : Word) (t : LaneTrap) : List PendTrap → List PendTrap
  | [] => [{ fibre := fibre, lanes := laneBit t.lane, cause := t.cause, tsyn := t.tsyn, tunit := [(t.lane, t.tunit)],
             ttile := t.ttile, tpc := tpc, resume := resumeOf t.cause, word := word }]
  | p :: rest =>
    if p.fibre = fibre ∧ p.word = word ∧ p.cause = t.cause ∧ p.tsyn = t.tsyn then
      { p with lanes := p.lanes ||| laneBit t.lane, tunit := p.tunit.put t.lane t.tunit } :: rest
    else p :: joinTrap fibre word tpc t rest

/-- The lanes' traps of the word in hand noted, each in the fibre that holds its lane. -/
def State.pend (s : State) (ts : List LaneTrap) : State :=
  s.modIt fun it =>
    { it with traps := ts.foldl (fun acc t => joinTrap (it.fibreOf t.lane).id it.pos (it.addr it.pos) t acc) it.traps }

/-- The same trap in every lane of a mask. -/
def trapLanes (m : Mask) (cause : Nat) (tsyn : Word) (tunit : Word := 0) : List LaneTrap :=
  (lanesOf m).map fun l => { lane := l, cause := cause, tsyn := tsyn, tunit := tunit }

/-- Lanes noted with the services (spec/07 R156), or the flushing read (spec/02 R31), that they await. -/
def State.pendWait (s : State) (ws : List (Nat × Nat)) : State :=
  s.modIt fun it =>
    { it with waits := ws.foldl (fun acc (w : Nat × Nat) =>
        let fid := (it.fibreOf w.1).id
        let same : PendWait → Bool := fun x => x.fibre == fid && x.word == it.pos
        if acc.any same then
          acc.map fun x => if same x then { x with lanes := x.lanes ||| laneBit w.1,
                                                   services := NatSet.add x.services w.2 } else x
        else acc ++ [{ fibre := fid, lanes := laneBit w.1, services := [w.2], word := it.pos }]) it.waits }

/-- The %fpsr flags among some writes. -/
def flagsOf (ws : List GWrite) : Word :=
  ws.foldl (fun m w => match w with | .flags x => m ||| x | _ => m) 0

/-- A write of the whole %fpsr leaves the flags of the same issue group's words set (spec/12 R264). -/
def keepFlags (m : Word) : GWrite → GWrite
  | .fpsr y => .fpsr (y ||| m)
  | w => w

/-- %fpsr after a write. -/
def fpsrAfter (x : Word) : GWrite → Word
  | .flags m => x ||| m
  | .fpsr y => y
  | _ => x

/-- A write of group-shared registers, s, t or em (spec/06 R127). -/
def GWrite.shared : GWrite → Bool
  | .s .. | .t .. | .em .. => true
  | _ => false

/-- The shared writes of a run noted for the members that run after it, where they take turns (spec/06 R127). -/
def Issue.note (it : Issue) (ws : List GWrite) : Issue :=
  if it.turns.isEmpty then it else { it with made := some ((it.made.getD it.view).writes (ws.filter GWrite.shared)) }

/-- Register writes of the word in hand made in the group. -/
def State.commit (s : State) (ws : List GWrite) : State :=
  if s.issuing then
    let m := s.it.gflags ||| flagsOf ws
    let ws := ws.map (keepFlags s.it.gflags)
    (s.setGroup s.it.group ((s.group s.it.group).writes ws)).modIt
      fun it => { it.note ws with gflags := m, fpsr0 := ws.foldl fpsrAfter it.fpsr0 }
  else s

/-! ### Ending a team by force (spec/05 R106; spec/03 R67 step 4) -/

/-- The engine operations that satisfy `p` ended at once and their range locks released. -/
def State.endEngs (s : State) (p : EngOp → Bool) : State :=
  let ids := (s.engs.filter fun e => p e.2).map (·.1)
  let s := { s with engs := s.engs.filter fun e => !p e.2 }
  State.unstall { s with cores := s.cores.map fun c =>
      (c.1, { c.2 with locks := c.2.locks.filter fun l => !ids.contains l.2.op,
                       queue := c.2.queue.filter fun q => !ids.contains q,
                       refused := c.2.refused.filter fun q => !ids.contains q }) }

/-- A round of a channel is still open at this package's node (spec/10 R226). -/
def State.roundOpen (s : State) (gid chan : Nat) : Bool :=
  s.nodes.any fun n => n.gid == gid && n.chan == chan && !n.forwarded

/-- A reduction handle that is bound drains, as by RED.CLOSE; a FULL one whose channel has no open round has nothing left to
wait for (spec/10 R224; spec/18 R392). -/
def State.closeRed (s : State) (h : Handle) : Handle :=
  if h.isRed && (h.state == .filling || h.state == .full) then
    { h with state := .draining,
             red := if h.state == .full && !s.roundOpen h.red.gid h.red.chan then { h.red with openRounds := [] } else h.red }
  else h

/-- A group that has ended leaves failed products whose marks nothing has waited on, and audit mismatches not delivered: the firmware
reports them to the driver of the physical function (spec/09 R200, R208). -/
def State.reportFailed (s : State) (gid : Nat) : State :=
  let g := s.group gid
  let core := (s.team g.team).core
  let s := s.setGroup gid { g with failed := [], due := [] }
  let s := if g.failed.isEmpty then s else s.report (.report 7 core g.failed)
  g.due.foldl (fun s d => match d with | .audit _ => s.report (.report 5 core []) | .timeout => s) s

/-- A team ended: its fibres are gone and its quarters drop its clauses; its reduction handles close (spec/06 R116). -/
def State.endTeam (s : State) (t : Nat) : State :=
  let gids := (s.groups.filter fun e => e.2.team == t).map (·.1)
  let drop (q : Quarter) : Quarter :=
    match q.issue with
    | some it => if gids.contains it.group then { q with issue := none } else q
    | none => q
  let s : State := { s with
    groups := s.groups.map (fun e => (e.1, if e.2.team == t then { e.2 with fibres := [], ended := true } else e.2)),
    quarters := s.quarters.map (fun e => (e.1, drop e.2)),
    ops := s.ops.filter (fun e => !gids.contains e.2.group) }
  let s := gids.foldl State.reportFailed s
  let x := s.team t
  let s := s.learn (.inst x.inst) (s.teamKnows t)
  s.setTeam t { x with ended := true, handles := x.handles.map fun e => (e.1, s.closeRed e.2) }

/-- A copy or a near-memory product of a killed team stops; its end leaves the rest of its destination unspecified (spec/05 R106
step 2). -/
def EngOp.halt (e : EngOp) : EngOp :=
  match e.kind with
  | .copy c => { e with kind := .copy { c with stop := true } }
  | .nmv o => { e with kind := .nmv { o with stop := true } }
  | _ => e

/-- Operations of a killed team that end at once: matrix words without writing, and values of reductions not yet present. -/
def EngOp.discards (e : EngOp) : Bool :=
  match e.kind with
  | .copy _ | .nmv _ => false
  | .mma m => !m.audited
  | .move _ | .sub _ | .corr _ => true

/-- A team killed: its copies and near-memory products stop, its other operations are discarded, and its handles close (spec/05 R106
step 2); audits go on (spec/09 R208). -/
def State.killTeam (s : State) (t : Nat) : State :=
  let s := s.endEngs fun e => e.team == t && e.discards
  let s : State := { s with engs := s.engs.map fun e => if e.2.team == t then (e.1, e.2.halt) else e }
  let s := s.endTeam t
  let x := s.team t
  s.setTeam t { x with handles := x.handles.map fun h =>
    if h.2.state == .filling && !h.2.isRed && h.2.op.isSome then (h.1, { h.2 with state := .draining }) else h }

/-- An instance, and its set, killed (spec/05 R102, R106 steps 1 and 2), for a grid of every class (log 61), with the engine operations that
its ended teams have left; INSTANCE_RETIRE writes its STAT. -/
def State.killInstance (s : State) (i : Nat) : State :=
  let all := i :: (s.inst i).setMembers
  let s := (s.teams.filter fun e => all.contains e.2.inst).foldl (fun s e => s.killTeam e.1) s
  { s with insts := s.insts.map fun e => if all.contains e.1 then (e.1, { e.2 with killed := true }) else e }

/-! ### Taking a trap (spec/11 R239 to R247) -/

/-- The marks of a fibre's flags in a set of lanes. -/
def markIn (p : Tab Word) (m : Mask) : Tab Word := p.filter fun e => m.getLsbD (e.1 % 32)

/-- Bits 56:2 of %tvec (spec/11 R245). -/
def tvecAddr (w : Word) : Word := w &&& BitVec.ofNat 64 144115188075855868

/-- The trap fibre's lanes leave their fibre and start at %tvec with the trap registers and the return state; a trap
without a handler, or of a fibre that holds trap registers, passes the instance to level 3 (spec/11 R240, R244). -/
def State.takeTrap (s : State) (gid : Nat) (p : PendTrap) (lanes : Mask) (r : Resume) : State :=
  let g := s.group gid
  match g.fibre? p.fibre with
  | none => s
  | some f =>
    let m := lanes &&& f.mask
    if m = 0 then s
    else if f.trap.isSome || tvecAddr g.tvec == 0 then s.killInstance (s.team g.team).inst
    else
      let nf : Fibre :=
        { id := g.nextFibre, mask := m, at_ := { pc := tvecAddr g.tvec }, wb := f.wb, c := f.c,
          drain := true, delivered := g.delivered + 1,
          trap := some
            { cause := p.cause, sup := (s.inst (s.team g.team).inst).sup, tsyn := p.tsyn, tunit := p.tunit,
              ttile := p.ttile, tpc := p.tpc, tl := m, il := f.mask, wait := p.wait,
              retResume := r, retWb := f.wb, retLoops := f.loops, retEntry := f.entry, retFail := f.fail,
              retPoison := markIn f.poison m } }
      let rest := f.mask &&& ~~~m
      let kept := if rest = 0 then g.fibres.filter fun x => x.id != f.id
        else (g.modFibre f.id fun x => { x with mask := rest, poison := markIn x.poison rest }).fibres
      let holds := fun (hs : List Nat) => if hs.contains f.id then hs ++ [nf.id] else hs
      let s := s.setGroup gid
        { g with fibres := kept ++ [nf], nextFibre := g.nextFibre + 1, delivered := g.delivered + 1 }
      { s with
        ops := s.ops.map fun e => if e.2.group == gid then (e.1, { e.2 with holders := holds e.2.holders }) else e,
        engs := s.engs.map fun e => if e.2.group == gid then (e.1, { e.2 with holders := holds e.2.holders }) else e }

/-- The lanes with resolvable faults form a fault-wait fibre at their word (spec/07 R156). -/
def State.takeWait (s : State) (gid : Nat) (fid : Nat) (lanes : Mask) (services : List Nat) (r : Resume) : State :=
  let g := s.group gid
  match g.fibre? fid with
  | none => s
  | some f =>
    let m := lanes &&& f.mask
    if m = 0 then s
    else
      let nf : Fibre := { f with id := g.nextFibre, mask := m, at_ := r, kind := .faultWait services, live := none,
                                 poison := markIn f.poison m }
      let rest := f.mask &&& ~~~m
      let kept := if rest = 0 then g.fibres.filter fun x => x.id != f.id
        else (g.modFibre f.id fun x => { x with mask := rest, poison := markIn x.poison rest }).fibres
      let holds := fun (hs : List Nat) => if hs.contains f.id then hs ++ [nf.id] else hs
      let s := s.setGroup gid { g with fibres := kept ++ [nf], nextFibre := g.nextFibre + 1 }
      { s with
        ops := s.ops.map fun e => if e.2.group == gid then (e.1, { e.2 with holders := holds e.2.holders }) else e,
        engs := s.engs.map fun e => if e.2.group == gid then (e.1, { e.2 with holders := holds e.2.holders }) else e }

/-- The traps with the lanes that each one takes: a lane that fails in two words is reported for the earlier
(spec/11 R238). -/
def claimTraps : List PendTrap → Mask → List (PendTrap × Mask)
  | [], _ => []
  | p :: rest, used =>
    let m := p.lanes &&& ~~~used
    if m = 0 then claimTraps rest used else (p, m) :: claimTraps rest (used ||| m)

/-- The words named, each with those of its lanes that are among `m`, in packet order. -/
def wordsFor (all : List (Nat × Mask)) (m : Mask) : List (Nat × Mask) :=
  let tab : Tab Mask := all.foldl (fun t (e : Nat × Mask) => t.put e.1 (t.getD e.1 0 ||| (e.2 &&& m))) []
  tab.filter fun e => e.2 != 0

/-- The words of the issue group that wait in some of these lanes (spec/07 R156). -/
def waitingOf (it : Issue) (m : Mask) : List (Nat × Mask) := wordsFor (it.waits.map fun w => (w.word, w.lanes)) m

/-- The words of the issue group that had no effect in some of these lanes (spec/11 R237). -/
def reissueOf (it : Issue) (m : Mask) : List (Nat × Mask) :=
  wordsFor (it.traps.map (fun p => (p.word, p.lanes)) ++ it.waits.map fun w => (w.word, w.lanes)) m

/-- What the clause's terminal word does to a fibre, when it stands in this issue group. -/
def termOf (it : Issue) (fid : Nat) : Option Term := (it.term.find? fun e => e.1 == fid).map (·.2)

/-- The position at which the lanes of an interrupted issue group go on. -/
def Issue.afterPos (it : Issue) : Nat := if it.reissue.isEmpty then it.groupNext it.pos else it.resumePos

/-- The return point of a trap (spec/11 R237); lanes that also met resolvable faults in other words of the group still receive the effects of
those words, which are issued again (R238). -/
def resumeFor (it : Issue) (p : PendTrap) (m : Mask) : Resume :=
  match p.resume with
  | .word => { pc := it.clause, mid := some it.afterPos, reissue := reissueOf it m, term := termOf it p.fibre }
  | .after => { pc := it.clause, mid := some it.afterPos, reissue := waitingOf it m, term := termOf it p.fibre }
  | .clause pc => { pc := pc }

/-- The order in which traps found together are delivered: by lowest lane (spec/11 R242), but of one fibre 0x09 before the 0x0E of its
other lanes (R243). -/
def deliveryOrder (l : List (PendTrap × Mask)) : List (PendTrap × Mask) :=
  let key (e : PendTrap × Mask) : Nat :=
    if e.1.cause = 14 then
      (l.filter fun x => x.1.fibre == e.1.fibre && x.1.cause == 9).foldl (fun n x => max n (lowLane x.2)) (lowLane e.2)
    else lowLane e.2
  sortBy key (l.filter (fun e => decide (e.1.cause ≠ 14)) ++ l.filter fun e => decide (e.1.cause = 14))

/-- The fault-wait fibres of the issue group formed, then its traps delivered, in ascending order of lowest lane (spec/07 R156;
spec/11 R242). -/
def State.settle (s : State) : State :=
  let it := s.it
  if it.traps.isEmpty && it.waits.isEmpty then s
  else
    let s := s.modIt fun x => { x with traps := [], waits := [] }
    let due := deliveryOrder (claimTraps (sortBy (·.word) it.traps) 0)
    let taken := due.foldl (fun m e => m ||| e.2) (0 : Mask)
    let s := it.waits.foldl (fun s w =>
      let m := w.lanes &&& ~~~taken
      s.takeWait it.group w.fibre m w.services
        { pc := it.clause, mid := some it.afterPos, reissue := reissueOf it m, term := termOf it w.fibre }) s
    due.foldl (fun s e => s.takeTrap it.group e.1 e.2 (resumeFor it e.1 e.2)) s

/-- A write of %cflip: ARM = 1 arms the flip and clears DONE and MISS, which otherwise stand unless 0 is written. A copy that is
targeted already keeps its flip, and is targeted no more where ARM is written 1 (log 62). -/
def Cflip.written (c : Cflip) (y : Word) : Cflip :=
  let n := y.toNat
  let arm := fieldOf n 0 0 == 1
  { arm := arm, done := !arm && c.done && fieldOf n 1 1 == 1, miss := !arm && c.miss && fieldOf n 2 2 == 1,
    skip := fieldOf n 7 4, bit := fieldOf n 10 8, offset := fieldOf n 63 32, targeted := !arm && c.targeted }

/-- A write noted for the end of the issue group in hand. -/
def State.later (s : State) (x : LateWrite) : State := s.modIt fun it => { it with late := it.late ++ [x] }

/-- A write that the issue group `it` makes when it writes (spec/14 R304; spec/18 R407). -/
def State.lateWrite (it : Issue) (s : State) : LateWrite → State
  | .tvec x => s.setGroup it.group { s.group it.group with tvec := x }
  | .cflip x =>
    let c := (s.team (s.group it.group).team).core
    s.setCore c { s.coreAt c with cflip := (s.coreAt c).cflip.written x }
  | .region m l =>
    let t := (s.group it.group).team
    (s.setTeam t { s.team t with mode := m, limit := l }).modIt fun x => { x with region0 := (m, l) }

/-- The end of a word's effect: the last word of an issue group has the group's traps delivered and its late writes made. -/
def State.finish (s : State) : State :=
  if !s.it.closes then s
  else if s.it.late.isEmpty then s.settle
  else s.it.late.foldl (State.lateWrite s.it) (s.settle.modIt fun it => { it with late := [] })

/-- The outcome of a word whose effect leaves `s`. -/
def done (s : State) : Res := .next s.finish

/-! ### Returning from a trap (spec/11 R248) -/

/-- Two marks of one flag: the earliest failed operation is reported, and all are counted (spec/09 R201). -/
def FailMark.merge (a b : FailMark) : FailMark :=
  { (if b.ops.headD 0 < a.ops.headD 0 then b else a) with ops := b.ops.foldl NatSet.add a.ops }

/-- %tsyn of a mark: MORE where it stands for more than one failure (spec/09 R201). -/
def FailMark.syn (a : FailMark) : Word := if 1 < a.ops.length then a.tsyn ||| BitVec.ofNat 64 (2 ^ 63) else a.tsyn

/-- Failure marks added, those of one flag merged. -/
def addFail (a b : Tab FailMark) : Tab FailMark :=
  b.foldl (fun t e => t.put e.1 ((t.get? e.1).elim e.2 fun y => y.merge e.2)) a

/-- Poison marks added where a lane has none for the flag. -/
def addPoison (a b : Tab Word) : Tab Word :=
  b.foldl (fun t e => if (t.get? e.1).isSome then t else t.put e.1 e.2) a

/-- The fibre made by RETT from a fibre that holds trap registers: the return state with this fibre's c0 to c7, the marks
of the flags that a marked header named gone, of both kinds whichever raised the trap (log 78). -/
def returned (f : Fibre) (t : TrapRegs) (id : Nat) : Fibre :=
  let named : Nat → Bool := fun n => (t.cause == 9 || t.cause == 14) && t.wait.getLsbD n
  { id := id, mask := f.mask, at_ := t.retResume, wb := t.retWb, c := f.c, loops := t.retLoops, entry := t.retEntry,
    fail := (addFail t.retFail f.fail).filter fun e => !named e.1,
    poison := (addPoison f.poison (markIn t.retPoison f.mask)).filter fun e => !named (e.1 / 32) }

/-- The lanes of a trap fibre return (spec/11 R248). -/
def State.returnTrap (s : State) (gid fid : Nat) : State :=
  let g := s.group gid
  match g.fibre? fid with
  | none => s
  | some f =>
    match f.trap with
    | none => s
    | some t =>
      let nf := returned f t g.nextFibre
      let holds := fun (hs : List Nat) => hs.map fun h => if h == fid then nf.id else h
      let s := s.setGroup gid
        { g with fibres := (g.fibres.filter fun x => x.id != fid) ++ [nf], nextFibre := g.nextFibre + 1 }
      { s with
        ops := s.ops.map fun e => if e.2.group == gid then (e.1, { e.2 with holders := holds e.2.holders }) else e,
        engs := s.engs.map fun e => if e.2.group == gid then (e.1, { e.2 with holders := holds e.2.holders }) else e }

/-! ### Flags and operations in flight (spec/06 R128, R129) -/

/-- A fibre's flag is set: no operation that the fibre holds is assigned to it. -/
def State.flagSet (s : State) (gid fid f : Nat) : Bool :=
  !(s.ops.any fun e => e.2.group == gid && e.2.flag == some f && e.2.holders.contains fid) &&
  !(s.engs.any fun e => e.2.group == gid && e.2.flag == some f && e.2.holders.contains fid)

/-- %fflag of a fibre (spec/06 R128). -/
def State.flagBits (s : State) (gid fid : Nat) : Nat :=
  (List.range 12).foldl (fun n f => if s.flagSet gid fid f then n + 2 ^ f else n) 0

/-- The flag that a selector names: SETA or SETB of the header, none for 15 (spec/06 R129). -/
def Issue.flagOf (it : Issue) (sel : Bool) : Option Nat :=
  let n := if sel then it.setb else it.seta
  if n < 12 then some n else none

/-- A long-latency operation issued: its flag clears in every member (spec/06 R120, R129). -/
def State.addOp (s : State) (o : Op) : State :=
  { s with ops := s.ops.put s.nextId o, nextId := s.nextId + 1 }

/-- The lanes of a group that have not ended (spec/06 R117). -/
def Group.alive (g : Group) : Mask := g.fibres.foldl (fun m f => m ||| f.mask) 0

/-! ### A word run for each member, or once for the batch -/

/-- What one member's run of a word gives. -/
structure MRes where
  st : State
  writes : List GWrite := []
  traps : List LaneTrap := []
  waits : List (Nat × Nat) := []

/-- The result of one run applied to the machine. -/
def MRes.apply (r : MRes) : State := ((r.st.commit r.writes).pend r.traps).pendWait r.waits

/-- A word run once for each member in rank order: each run sees the register writes that the word made for the members
before it, and otherwise the registers as the issue group began (spec/14 R299; spec/06 R125). -/
def runMembers (f : Fibre → Group → State → MRes) : List Fibre → Group → State → State
  | [], _, s => s
  | m :: rest, view, s =>
    let r := f m view s
    runMembers f rest (view.writes r.writes) r.apply

/-- The runs of a word for the members that issue it. -/
def State.runEach (s : State) (f : Fibre → Group → State → MRes) : State := runMembers f s.it.parts s.it.view s

/-- A word that runs once for each member. -/
def perMember (s : State) (f : Fibre → Group → State → MRes) : Res := done (s.runEach f)

/-- A word of each member that only writes registers. -/
def scalarWord (s : State) (f : Fibre → Group → List GWrite) : Res :=
  perMember s fun m g s => { st := s, writes := f m g }

/-- The word in hand is held and tried again: nothing of it has happened (spec/08 R182; spec/01 R26; spec/07 R148). -/
def State.hold_ (s : State) : State := s.modIt fun it => { it with held := true }

/-- An event whose outcome `t` found an access that waits does not happen yet. -/
def State.orWait (s t : State) : State := if t.stalled then s else t

/-- A request from outside whose outcome `t` found an access that waits has no effect yet: `step` keeps it pending. -/
def State.orLater (s t : State) : State := if t.stalled then { s with stalled := true } else t

/-- A word whose run `t` found an access that waits is held; any other ends. -/
def unlessHeld (s t : State) : Res := if t.it.held || t.stalled then .next s.hold_ else done t

/-- An access word that runs once for each member. -/
def accessEach (s : State) (f : Fibre → Group → State → MRes) : Res :=
  unlessHeld s (s.runEach f)

/-- An access word that runs once for the batch. -/
def accessWord (s : State) (f : Issue → Group → State → MRes) : Res := unlessHeld s (f s.it s.it.snap s).apply

/-- A word that runs once for the batch. -/
def batchWord (s : State) (f : Issue → Group → State → MRes) : Res :=
  done (f s.it s.it.snap s).apply

/-- The image of the word in hand (spec/11 R247). -/
def State.image (s : State) : Word := (s.it.word s.it.pos).setWidth 64

/-- The trap 0x01 in every lane that issues, with the word's image (spec/13 R284). -/
def illegalWord (s : State) : Res :=
  batchWord s fun it _ s => { st := s, traps := trapLanes it.mask 1 s.image }

/-- A word with effect only where it is legal on its page. -/
def legalWord (s : State) (ok : Bool) (r : Res) : Res := if ok then r else illegalWord s

/-- A supervisor-only word in user mode traps with %tsyn 0xFF (spec/18 R392); otherwise `r`. -/
def privileged (s : State) (tsyn : Word) (r : Res) : Res :=
  if s.mySup then r
  else batchWord s fun it _ s => { st := s, traps := trapLanes it.mask 3 tsyn }

/-- How a terminal word at position `p` issues again (spec/11 R237 for 0x0D). -/
def Issue.again (it : Issue) : Resume :=
  { pc := it.clause, mid := some (it.pos + it.len it.pos), reissue := [(it.pos, allLanes)] }

/-- What the clause's end does to a fibre noted, with how the word issues again. -/
def State.setTerm (s : State) (fid : Nat) (t : Term) : State :=
  if s.issuing then
    let r := s.it.again
    (s.setGroup s.it.group ((s.group s.it.group).modFibre fid fun f => { f with reenter := r })).modIt
      fun it => { it with term := (fid, t) :: it.term }
  else s

/-- A member's run of a terminal word, with what the clause's end does to it noted. -/
def withTerm (f : Fibre → Group → State → MRes × Option Term) (m : Fibre) (g : Group) (s : State) : MRes :=
  let r := f m g s
  match r.2 with
  | some t => { r.1 with st := r.1.st.setTerm m.id t }
  | none => r.1

/-- A terminal word: its place is checked, and it notes for each member what the clause's end does (spec/13 R281). -/
def terminalWord (s : State) (f : Fibre → Group → State → MRes × Option Term) : Res :=
  if s.it.lastPlace then perMember s (withTerm f) else illegalWord s

/-- A terminal word that reads memory. -/
def terminalAccess (s : State) (f : Fibre → Group → State → MRes × Option Term) : Res :=
  if s.it.lastPlace then accessEach s (withTerm f) else illegalWord s

end Sys2Proof.Machine
end

