-- ==== Sys2Proof/Machine/Operands.lean ====
section
/-!
DEFINITION. Operand forms: direct and indexed v operands and their bounds (spec/06 R132; spec/15 R317, R318), the runner of
lane-wise words, and the fields of tensor descriptors (spec/17 R368).
-/

namespace Sys2Proof.Machine

open Sys2Proof

/-- A v operand and whether it names a pair (spec/15 R318). -/
structure VArg where
  op : VOp
  wide : Bool := false
deriving DecidableEq, Repr

/-- d of R132 in a lane. -/
def opIndex (g : Group) (lane : Nat) : VOp → Int
  | .dir n => n.val
  | .idx x imm => signedOf 16 (g.xreg lane x.val).toNat + imm.val

/-- The bound of R132. -/
def regInside (g : Group) (wb : Nat) (d : Int) : Bool := decide (0 ≤ d ∧ d ≤ 63 ∧ wb + d < g.walloc)

/-- The physical register of an operand in a lane, or %tsyn of the register-bounds trap (spec/06 R132; for an indexed pair
%tsyn is the effective number e, spec/15 R318, log 20). -/
def resolve (g : Group) (wb lane : Nat) (a : VArg) : Except Word Nat :=
  let d := opIndex g lane a.op
  if a.wide then
    let e : Int := wb + d
    if e % 2 = 0 ∧ regInside g wb d ∧ regInside g wb (d + 1) then .ok e.toNat
    else .error (if a.op.isIdx then wordOfInt e else wordOfInt d)
  else if regInside g wb d then .ok (wb + d).toNat
  else .error (wordOfInt d)

/-- The registers of several operands in a lane; the first operand that fails decides. -/
def resolveAll (g : Group) (wb lane : Nat) : List VArg → Except Word (List Nat)
  | [] => .ok []
  | a :: t =>
    match resolve g wb lane a with
    | .error d => .error d
    | .ok e =>
      match resolveAll g wb lane t with
      | .error d => .error d
      | .ok es => .ok (e :: es)

/-- The value of a register, or of a pair (spec/15 R318). -/
def Group.vval (g : Group) (lane : Nat) (wide : Bool) (e : Nat) : Nat :=
  if wide then (g.vreg lane e).toNat + 4294967296 * (g.vreg lane (e + 1)).toNat else (g.vreg lane e).toNat

/-- The writes that put a value into a register, or into a pair. -/
def vput (lane : Nat) (wide : Bool) (e x : Nat) : List GWrite :=
  if wide then [.v lane e (BitVec.ofNat 32 x), .v lane (e + 1) (BitVec.ofNat 32 (x / 4294967296))]
  else [.v lane e (BitVec.ofNat 32 x)]

/-- The write that ORs %fpsr flags, where there are any (spec/12 R264). -/
def flagWrites (m : Word) : List GWrite := if m = 0 then [] else [.flags m]

/-- A lane's outcome: its registers, or %tsyn of its trap 0x04. -/
abbrev LaneRegs := Nat × Except Word (List Nat)

/-- Every lane of the word in hand with its registers. -/
def laneRegs (it : Issue) (g : Group) (ops : List VArg) : List LaneRegs :=
  (lanesOf it.mask).map fun l => (l, resolveAll g it.wb l ops)

/-- The traps of the lanes whose operands fail (spec/06 R132). -/
def boundTraps (rs : List LaneRegs) : List LaneTrap :=
  rs.filterMap fun r =>
    match r.2 with
    | .ok _ => none
    | .error d => some { lane := r.1, cause := 4, tsyn := d }

/-- The lanes whose operands are in bounds, with their registers. -/
def goodLanes (rs : List LaneRegs) : List (Nat × List Nat) :=
  rs.filterMap fun r =>
    match r.2 with
    | .ok es => some (r.1, es)
    | .error _ => none

/-- A short-latency word of the lanes: each lane in bounds makes its writes from the registers as they stood before the word
(spec/15 R317). -/
def laneWord (s : State) (ops : List VArg) (f : Group → Nat → List Nat → List GWrite) : Res :=
  batchWord s fun it g st =>
    let rs := laneRegs it g ops
    { st := st, writes := (goodLanes rs).flatMap fun r => f g r.1 r.2, traps := boundTraps rs }

/-- A lane-wise word with a v destination: `f` takes the destination's old value and the sources' values, and gives the
result and its %fpsr flags. -/
def vecWord (s : State) (d : VArg) (srcs : List VArg) (f : Group → Nat → List Nat → Nat × Word) : Res :=
  laneWord s (d :: srcs) fun g lane es =>
    match es with
    | [] => []
    | e :: rest =>
      let r := f g (g.vval lane d.wide e) ((srcs.zip rest).map fun a => g.vval lane a.1.wide a.2)
      vput lane d.wide e r.1 ++ flagWrites r.2

/-- A lane-wise word that sets no flag: two sources. -/
def vec2 (s : State) (wide : Bool) (d a b : VOp) (f : Nat → Nat → Nat) : Res :=
  vecWord s { op := d, wide := wide } [{ op := a, wide := wide }, { op := b, wide := wide }] fun _ _ xs =>
    match xs with
    | [x, y] => (f x y, 0)
    | _ => (0, 0)

/-- A lane-wise word that sets no flag: one source. -/
def vec1 (s : State) (wide : Bool) (d a : VOp) (f : Nat → Nat) : Res :=
  vecWord s { op := d, wide := wide } [{ op := a, wide := wide }] fun _ _ xs =>
    match xs with
    | [x] => (f x, 0)
    | _ => (0, 0)

/-- A lane-wise word with a predicate destination. -/
def vecPred (s : State) (p : PReg) (wide : Bool) (a b : VOp) (f : Nat → Nat → Bool × Word) : Res :=
  laneWord s [{ op := a, wide := wide }, { op := b, wide := wide }] fun g lane es =>
    match es with
    | [x, y] =>
      let r := f (g.vval lane wide x) (g.vval lane wide y)
      .p lane p.val r.1 :: flagWrites r.2
    | _ => []

/-! ### Tensor descriptors (spec/17 R368): fields of the 256-bit image -/

def dBase (d : BitVec 256) : Nat := fieldOf d.toNat 56 0
def dPitch (d : BitVec 256) : Nat := fieldOf d.toNat 95 64
def dTid (d : BitVec 256) : Nat := fieldOf d.toNat 111 96
def dEw (d : BitVec 256) : Nat := fieldOf d.toNat 113 112
def dTrans (d : BitVec 256) : Bool := fieldOf d.toNat 114 114 == 1
def dValid (d : BitVec 256) : Bool := fieldOf d.toNat 115 115 == 1
def dQg (d : BitVec 256) : Nat := fieldOf d.toNat 121 120
def dRows (d : BitVec 256) : Nat := fieldOf d.toNat 159 128
def dColb (d : BitVec 256) : Nat := fieldOf d.toNat 191 160
def dSplane (d : BitVec 256) : Nat := fieldOf d.toNat 248 192

/-- Bytes of an element. -/
def dWidth (d : BitVec 256) : Nat := 2 ^ dEw d

/-- The image with VALID = 0. -/
def dInvalid (d : BitVec 256) : BitVec 256 := d &&& ~~~BitVec.ofNat 256 (2 ^ 115)

/-- The faults of R369 in an image. -/
def dFaulty (d : BitVec 256) : Bool :=
  let n := d.toNat
  !dValid d || fieldOf n 63 57 != 0 || fieldOf n 119 116 != 0 || fieldOf n 127 122 != 0 || fieldOf n 255 249 != 0
    || dBase d % 32 != 0 || dSplane d % 4 != 0 || dPitch d == 0 || dPitch d % 32 != 0 || dEw d == 3 || dQg d == 3
    || dRows d == 0 || dColb d == 0 || decide (dPitch d < dColb d)

/-- The descriptor that TDSET stores (spec/17 R369). -/
def dStored (d : BitVec 256) : BitVec 256 := if dFaulty d then dInvalid d else d

end Sys2Proof.Machine
end

