-- ==== Sys2Proof/Machine/Flags.lean ====
section
/-!
DEFINITION. Flag computations: the sticky flags of %fpsr (spec/12 R263, R264), predicates of the integer comparisons
(spec/14 R302), saturation (spec/12 R260), bit fields (spec/14 R303, spec/15 R322).
-/

namespace Sys2Proof.Machine

open Sys2Proof

/-! ### The sticky flags of %fpsr (spec/12 R263) -/

def fNV : Word := 256
def fDZ : Word := 512
def fOF : Word := 1024
def fUF : Word := 2048
def fNX : Word := 4096
def fSAT : Word := 8192
def fI4C : Word := 16384

/-- A flag where a condition holds. -/
def flagIf (b : Bool) (m : Word) : Word := if b then m else 0

/-- The bits of %fpsr that a write stores (spec/12 R263, spec/00 R5). -/
def fpsrMask : Word := 32515

/-- The dynamic rounding mode (spec/12 R263). -/
def dynMode (fpsr : Word) : RMode :=
  match fpsr.toNat % 4 with
  | 0 => .rne
  | 1 => .rtz
  | 2 => .rup
  | _ => .rdn

/-! ### Integer comparisons and clamping -/

/-- A predicate of R302 over two `n`-bit values. -/
def predHolds (p : Pred) (n a b : Nat) : Bool :=
  match p with
  | .eq => a == b
  | .ne => a != b
  | .lt => decide (signedOf n a < signedOf n b)
  | .le => decide (signedOf n a ≤ signedOf n b)
  | .gt => decide (signedOf n b < signedOf n a)
  | .ge => decide (signedOf n b ≤ signedOf n a)
  | .ltn => decide (a < b)
  | .len => decide (a ≤ b)
  | .gtn => decide (b < a)
  | .gen => decide (b ≤ a)

/-- A predicate that compares unsigned values. -/
def predUnsigned : Pred → Bool
  | .ltn | .len | .gtn | .gen => true
  | .eq | .ne | .lt | .le | .gt | .ge => false

/-- A value clamped to a range, and SAT where it was clamped (spec/12 R260). -/
def satTo (lo hi x : Int) : Int × Word :=
  let y := clampInt lo hi x
  (y, flagIf (decide (y ≠ x)) fSAT)

/-! ### Shifts and fields of `n`-bit values -/

def shlN (n a b : Nat) : Nat := if n ≤ b then 0 else a * 2 ^ b % 2 ^ n
def shrN (n a b : Nat) : Nat := if n ≤ b then 0 else a / 2 ^ b
def sraN (n a b : Nat) : Nat := wrap n (signedOf n a / ((2 ^ min b n : Nat) : Int))

/-- The field of `len` bits at `pos`, zero-extended or sign-extended from its top bit; nothing for an empty field. -/
def extractN (n a pos len : Nat) (sx : Bool) : Nat :=
  let k := min len (n - pos)
  if k = 0 then 0
  else
    let x := a / 2 ^ pos % 2 ^ k
    if sx then wrap n (signedOf k x) else x

/-- `d` with the low bits of `a` put into the field of `len` bits at `pos`. -/
def insertN (n d a pos len : Nat) : Nat :=
  let k := min len (n - pos)
  d % 2 ^ pos + (a % 2 ^ k) * 2 ^ pos + d / 2 ^ (pos + k) * 2 ^ (pos + k)

end Sys2Proof.Machine
end

