-- ==== Sys2Proof/Machine/Float.lean ====
section
/-!
DEFINITION. Floating-point formats, exact values and rounding (spec/12 R256 to R258, R265, R266, R270), and the operations on
one element (spec/15 R326 to R330). Values are exact dyadic numbers until one rounding at the end.
-/

namespace Sys2Proof.Machine

open Sys2Proof

/-! ### Formats (spec/12 R256) -/

/-- Which codes at the top exponent are not numbers. -/
inductive FmtKind where
  | ieee | noInf | finite
deriving DecidableEq, Repr

/-- A format: exponent bits, fraction bits. -/
structure Fmt where
  eb : Nat
  mb : Nat
  kind : FmtKind
deriving DecidableEq, Repr

def fmtF64 : Fmt := { eb := 11, mb := 52, kind := .ieee }
def fmtF32 : Fmt := { eb := 8, mb := 23, kind := .ieee }
def fmtF16 : Fmt := { eb := 5, mb := 10, kind := .ieee }
def fmtBf16 : Fmt := { eb := 8, mb := 7, kind := .ieee }
def fmtE4m3 : Fmt := { eb := 4, mb := 3, kind := .noInf }
def fmtE5m2 : Fmt := { eb := 5, mb := 2, kind := .ieee }
def fmtE2m1 : Fmt := { eb := 2, mb := 1, kind := .finite }

def Fmt.width (f : Fmt) : Nat := 1 + f.eb + f.mb
def Fmt.bias (f : Fmt) : Nat := 2 ^ (f.eb - 1) - 1
def Fmt.signBit (f : Fmt) : Nat := 2 ^ (f.eb + f.mb)

/-- The image of max finite. -/
def Fmt.maxImage (f : Fmt) : Nat :=
  match f.kind with
  | .ieee => (2 ^ f.eb - 1) * 2 ^ f.mb - 1
  | .noInf => 2 ^ (f.eb + f.mb) - 2
  | .finite => 2 ^ (f.eb + f.mb) - 1

/-- The image of the infinity of a format that has one. -/
def Fmt.infImage (f : Fmt) : Nat := (2 ^ f.eb - 1) * 2 ^ f.mb

/-- The default NaN; e2m1 has none, and +0 stands for it (spec/12 R267). -/
def Fmt.nan (f : Fmt) : Nat :=
  match f.kind with
  | .ieee => (2 ^ f.eb - 1) * 2 ^ f.mb + 2 ^ (f.mb - 1)
  | .noInf => 2 ^ (f.eb + f.mb) - 1
  | .finite => 0

/-- The exponent of the last place of the subnormal range. -/
def Fmt.low (f : Fmt) : Int := 1 - (f.bias : Int) - f.mb

/-- An image with a sign. -/
def Fmt.signed (f : Fmt) (neg : Bool) (image : Nat) : Nat := if neg then f.signBit + image else image

/-! ### Values -/

/-- The value of an image (spec/12 R256, R257). -/
def Fmt.val (f : Fmt) (image : Nat) : FVal :=
  let neg := image / f.signBit % 2 == 1
  let ex := image / 2 ^ f.mb % 2 ^ f.eb
  let fr := image % 2 ^ f.mb
  if f.kind = .ieee ∧ ex = 2 ^ f.eb - 1 then
    if fr = 0 then .inf neg else .nan (fr / 2 ^ (f.mb - 1) == 0)
  else if f.kind = .noInf ∧ image % f.signBit = f.nan then .nan false
  else if ex = 0 then .fin neg fr f.low
  else .fin neg (2 ^ f.mb + fr) (f.low + (ex - 1 : Nat))

def FVal.isNan : FVal → Bool
  | .nan _ => true
  | _ => false

def FVal.isSnan : FVal → Bool
  | .nan b => b
  | _ => false

def FVal.isZero : FVal → Bool
  | .fin _ m _ => m == 0
  | _ => false

def FVal.neg : FVal → FVal
  | .nan b => .nan b
  | .inf n => .inf !n
  | .fin n m e => .fin (!n) m e

/-- NV where an operand is a signalling NaN (spec/12 R257). -/
def nanFlag (xs : List FVal) : Word := flagIf (xs.any FVal.isSnan) fNV

/-! ### Rounding (spec/12 R265, R266) -/

/-- The part of a magnitude below a place: nothing, less than half, half, more. -/
inductive Tail where
  | none | low | half | high
deriving DecidableEq, Repr

/-- A magnitude m * 2^e, plus something less than 2^e where `sticky`, in units of 2^q: whole units and the rest. -/
def unitsAt (m : Nat) (e q : Int) (sticky : Bool) : Nat × Tail :=
  if q ≤ e then (m * 2 ^ (e - q).toNat, if sticky then .low else .none)
  else
    let k := (q - e).toNat
    if m.log2 + 2 ≤ k then (0, if m = 0 && !sticky then .none else .low)
    else
      let r := m % 2 ^ k
      let h := 2 ^ (k - 1)
      (m / 2 ^ k, if r = 0 && !sticky then .none else if r < h then .low
                  else if r = h && !sticky then .half else .high)

/-- The whole units after rounding by a mode. -/
def roundUnits (mode : RMode) (neg : Bool) (u : Nat × Tail) : Nat :=
  match mode, u.2 with
  | _, .none => u.1
  | .rtz, _ => u.1
  | .rup, _ => if neg then u.1 else u.1 + 1
  | .rdn, _ => if neg then u.1 + 1 else u.1
  | .rne, .low => u.1
  | .rne, .high => u.1 + 1
  | .rne, .half => u.1 + u.1 % 2

/-- The image of `r` units of 2^q, where r has just the format's precision; the exponent is not bounded. -/
def Fmt.imageOf (f : Fmt) (r : Nat) (q : Int) : Int :=
  let step : Int := (2 ^ f.mb : Nat)
  (q - f.low + 1) * step + ((r : Int) - step)

/-- What an overflow delivers: the infinity or max finite of the mode; a saturating form and e2m1 deliver max finite, and
e4m3 its NaN for an infinity (spec/12 R266, R267). -/
def Fmt.overflow (f : Fmt) (mode : RMode) (sat neg : Bool) : Nat :=
  let toInf : Bool :=
    match mode with
    | .rne => true
    | .rtz => false
    | .rup => !neg
    | .rdn => neg
  if !toInf || sat then f.signed neg f.maxImage
  else
    match f.kind with
    | .ieee => f.signed neg f.infImage
    | .noInf => f.nan
    | .finite => f.signed neg f.maxImage

/-- A non-zero magnitude rounded to a format, with its flags (spec/12 R266). -/
def Fmt.round (f : Fmt) (mode : RMode) (sat neg : Bool) (m : Nat) (e : Int) (sticky : Bool) : Nat × Word :=
  let q := (m.log2 : Int) + e - f.mb
  let u := unitsAt m e q sticky
  let r := roundUnits mode neg u
  let img := if r = 2 ^ (f.mb + 1) then f.imageOf (2 ^ f.mb) (q + 1) else f.imageOf r q
  if (f.maxImage : Int) < img then (f.overflow mode sat neg, fOF ||| fNX)
  else if img < (2 ^ f.mb : Nat) then
    let v := unitsAt m e f.low sticky
    (f.signed neg (roundUnits mode neg v), flagIf (v.2 != .none) (fUF ||| fNX))
  else (f.signed neg img.toNat, flagIf (u.2 != .none) fNX)

/-- A value rounded to a format; a NaN gives the default NaN, and zeros and infinities keep their sign. -/
def Fmt.ofVal (f : Fmt) (mode : RMode) (x : FVal) : Nat × Word :=
  match x with
  | .nan b => (f.nan, flagIf b fNV)
  | .inf n => (f.signed n f.infImage, 0)
  | .fin n m e => if m = 0 then (f.signed n 0, 0) else f.round mode false n m e false

/-! ### Sums and products -/

/-- A finite value in units of 2^q, for q at or below its exponent. -/
def alignTo (q : Int) : FVal → Int
  | .fin n m e =>
    let x : Int := (m * 2 ^ (e - q).toNat : Nat)
    if n then -x else x
  | _ => 0

/-- The least exponent of some values, zeros left out. -/
def leastExp (xs : List FVal) : Int :=
  (xs.filterMap fun x => match x with | .fin _ m e => if m = 0 then none else some e | _ => none).foldl
    (fun a e => match a with | none => some e | some b => some (min b e)) (none : Option Int) |>.getD 0

/-- The sign of an exact zero sum (spec/12 R265). -/
def zeroSign (mode : RMode) (xs : List FVal) : Bool :=
  let negs := xs.filter fun x => match x with | .fin n _ _ => n | _ => false
  if negs.length = xs.length then true else if negs.isEmpty then false else mode = .rdn

/-- The sum of some values: exact, or special (spec/12 R257; spec/15 R326). -/
def sumVal (mode : RMode) (xs : List FVal) : FVal × Word :=
  if xs.any FVal.isNan then (.nan false, nanFlag xs)
  else
    let pos := xs.contains (.inf false)
    let neg := xs.contains (.inf true)
    if pos && neg then (.nan false, fNV)
    else if pos || neg then (.inf neg, 0)
    else
      let nz := xs.filter fun x => !x.isZero
      let q := leastExp xs
      let t := nz.foldl (fun a x => a + alignTo q x) (0 : Int)
      if t = 0 then (.fin (zeroSign mode xs) 0 0, 0) else (.fin (decide (t < 0)) t.natAbs q, 0)

/-- The exact product of two values; 0 times an infinity gives NaN and NV. -/
def mulVal (x y : FVal) : FVal × Word :=
  match x, y with
  | .nan _, _ | _, .nan _ => (.nan false, nanFlag [x, y])
  | .inf a, .inf b => (.inf (a != b), 0)
  | .inf a, .fin b m _ | .fin b m _, .inf a => if m = 0 then (.nan false, fNV) else (.inf (a != b), 0)
  | .fin a m e, .fin b n k => (.fin (a != b) (m * n) (e + k), 0)

/-- The sum rounded. -/
def Fmt.sum (f : Fmt) (mode : RMode) (xs : List FVal) : Nat × Word :=
  let s := sumVal mode xs
  let r := f.ofVal mode s.1
  (r.1, r.2 ||| s.2)

/-- Products summed with one rounding, a NaN operand's flag kept (spec/15 R327, R330). -/
def Fmt.dot (f : Fmt) (mode : RMode) (ps : List (FVal × FVal)) (add : FVal) : Nat × Word :=
  let ms := ps.map fun p => mulVal p.1 p.2
  let s := f.sum mode (ms.map (·.1) ++ [add])
  (s.1, ms.foldl (fun m p => m ||| p.2) s.2)

def Fmt.add (f : Fmt) (mode : RMode) (x y : FVal) : Nat × Word := f.sum mode [x, y]
def Fmt.sub (f : Fmt) (mode : RMode) (x y : FVal) : Nat × Word := f.sum mode [x, y.neg]

def Fmt.mul (f : Fmt) (mode : RMode) (x y : FVal) : Nat × Word :=
  let p := mulVal x y
  let r := f.ofVal mode p.1
  (r.1, r.2 ||| p.2)

/-- A value times 2^k. -/
def Fmt.scale (f : Fmt) (mode : RMode) (x : FVal) (k : Int) : Nat × Word :=
  f.ofVal mode (match x with | .fin n m e => .fin n m (e + k) | y => y)

/-! ### Order (spec/15 R326, R329) -/

/-- The order of the numbers of a format by image, with -0 below +0. -/
def Fmt.key (f : Fmt) (image : Nat) : Int :=
  let m : Int := (image % f.signBit : Nat)
  if image / f.signBit % 2 = 1 then -m - 1 else m

/-- VFMIN and VFMAX of two images. -/
def Fmt.pick (f : Fmt) (greater : Bool) (a b : Nat) : Nat × Word :=
  let x := f.val a
  let y := f.val b
  let fl := nanFlag [x, y]
  if x.isNan && y.isNan then (f.nan, fl)
  else if x.isNan then (b, fl)
  else if y.isNan then (a, fl)
  else if decide (f.key a ≤ f.key b) != greater then (a, fl)
  else (b, fl)

/-- How two numbers compare. -/
inductive Cmp where
  | lt | eq | gt | unordered
deriving DecidableEq, Repr

/-- The comparison of two images. -/
def Fmt.cmp (f : Fmt) (a b : Nat) : Cmp :=
  let x := f.val a
  let y := f.val b
  if x.isNan || y.isNan then .unordered
  else if x.isZero && y.isZero then .eq
  else if f.key a < f.key b then .lt
  else if f.key a = f.key b then .eq
  else .gt

/-- A code of VFCMP, with its flags (spec/15 R329). -/
def Fmt.compare (f : Fmt) (code : FPred) (a b : Nat) : Bool × Word :=
  let c := f.cmp a b
  let sn := nanFlag [f.val a, f.val b]
  let qn := flagIf (c = .unordered) fNV
  match code with
  | .eq => (c == .eq, sn)
  | .ne => (c != .eq, sn)
  | .lt => (c == .lt, sn ||| qn)
  | .le => (c == .lt || c == .eq, sn ||| qn)
  | .gt => (c == .gt, sn ||| qn)
  | .ge => (c == .gt || c == .eq, sn ||| qn)
  | .un => (c == .unordered, sn)
  | .ord => (c != .unordered, sn)

/-! ### One element -/

/-- VFRND: an integral value of the format; never NX (spec/15 R328). -/
def Fmt.integral (f : Fmt) (mode : RMode) (image : Nat) : Nat × Word :=
  match f.val image with
  | .fin n m e =>
    if 0 ≤ e then (image, 0) else ((f.ofVal .rne (.fin n (roundUnits mode n (unitsAt m e 0 false)) 0)).1, 0)
  | x => f.ofVal mode x

/-- VFCLASS: one bit per class (spec/15 R328). -/
def Fmt.class_ (f : Fmt) (image : Nat) : Nat :=
  match f.val image with
  | .nan s => if s then 256 else 512
  | .inf n => if n then 1 else 128
  | .fin n m _ =>
    if m = 0 then (if n then 8 else 16)
    else if m < 2 ^ f.mb then (if n then 4 else 32)
    else if n then 2 else 64

/-- The sign bit cleared, and the sign bit inverted (spec/12 R257). -/
def Fmt.absImage (f : Fmt) (image : Nat) : Nat := image % f.signBit
def Fmt.negImage (f : Fmt) (image : Nat) : Nat :=
  if image / f.signBit % 2 = 1 then image % f.signBit else f.signBit + image % f.signBit

/-- A value rounded to an integer by a mode, and whether that changed it. -/
def toIntegral (mode : RMode) (n : Bool) (m : Nat) (e : Int) : Int × Bool :=
  let u := unitsAt m e 0 false
  let r : Int := roundUnits mode n u
  (if n then -r else r, u.2 != .none)

/-! ### Stochastic rounding (spec/12 R270) -/

/-- sr of a finite non-zero value with `w` random bits taken from the top of `r`. -/
def Fmt.stochastic (f : Fmt) (w r : Nat) (n : Bool) (m : Nat) (e : Int) : Nat × Word :=
  let q := max ((m.log2 : Int) + e - f.mb) f.low
  -- the magnitude in units of 2^(q - w), rounded down: whole units of 2^q above the low w bits
  let t := (unitsAt m e (q - w) false).1
  let exact := (unitsAt m e q false).2 == .none
  let a := t / 2 ^ w
  let up := decide (2 ^ w ≤ t % 2 ^ w + r / 2 ^ (32 - w))
  let a' := if up then a + 1 else a
  let img : Int :=
    if q = f.low ∧ a' < 2 ^ f.mb then a'
    else if a' = 2 ^ (f.mb + 1) then f.imageOf (2 ^ f.mb) (q + 1) else f.imageOf a' q
  if (f.maxImage : Int) < img then (f.signed n f.maxImage, fOF ||| fNX)
  else
    let same := exact && !up
    (f.signed n img.toNat,
      flagIf (!same) fNX ||| flagIf (!same && decide (0 < img ∧ img < (2 ^ f.mb : Nat))) fUF)

/-! ### Packed types (spec/12 R256) -/

/-- The format of a float type's elements. -/
def ftyFmt : FTy → Fmt
  | .f32 => fmtF32
  | .f64 => fmtF64
  | .f16x2 => fmtF16
  | .bf16x2 => fmtBf16

/-- A type with two elements in a register. -/
def ftyPacked : FTy → Bool
  | .f16x2 | .bf16x2 => true
  | .f32 | .f64 => false

/-- Element `k` of a packed register. -/
def half (x k : Nat) : Nat := x / 65536 ^ k % 65536

/-- Two elements in a register, with their flags joined. -/
def packTwo (a b : Nat × Word) : Nat × Word := (a.1 + 65536 * b.1, a.2 ||| b.2)

/-- An element-wise operation on a register's value. -/
def eltwise1 (packed : Bool) (f : Nat → Nat × Word) (x : Nat) : Nat × Word :=
  if packed then packTwo (f (half x 0)) (f (half x 1)) else f x

def eltwise2 (packed : Bool) (f : Nat → Nat → Nat × Word) (x y : Nat) : Nat × Word :=
  if packed then packTwo (f (half x 0) (half y 0)) (f (half x 1) (half y 1)) else f x y

def eltwise3 (packed : Bool) (f : Nat → Nat → Nat → Nat × Word) (x y z : Nat) : Nat × Word :=
  if packed then packTwo (f (half x 0) (half y 0) (half z 0)) (f (half x 1) (half y 1) (half z 1)) else f x y z

end Sys2Proof.Machine
end

