-- ==== Sys2Proof/Machine/Chain.lean ====
section
/-!
DEFINITION. The checks of an issue group as a whole (spec/11 R238 steps 1 and 2): illegal encodings that depend on the
machine's state, terminal words out of place (spec/13 R281), and chain conflicts (spec/13 R282; pipes, spec/06 R111).
-/

namespace Sys2Proof.Machine

open Sys2Proof

/-- The pipes (spec/06 R111). -/
inductive Pipe where
  | none | s | v | sf | m | x
deriving DecidableEq, Repr

/-- The pipe of a major (spec/06 R111). -/
def pipeOf (op : Nat) : Pipe :=
  if op ≤ 3 then .none
  else if op ≤ 23 ∨ op = 63 then .s
  else if op ≤ 41 then .v
  else if op = 42 then .sf
  else if op ≤ 55 then .m
  else .x

/-- The terminal words (spec/13 R281; wait words of spec/05 R91). -/
def isTerminal : Instr → Bool
  | .brCond .. | .brAlways .. | .call .. | .bri .. | .ret .. | .loop .. | .lbrk .. | .fsplit .. | .fjoin | .fend
  | .rett | .gend | .yield | .waitm .. | .bar .. | .barw .. | .gbar | .hwait .. | .redWait .. => true
  | _ => false

/-! ### Features and descriptors (spec/03 R58; spec/17 R369, R375, R390) -/

/-- The feature that a word needs. -/
def featureOf : Instr → Option Nat
  | .redOpen .. | .redOpenDef .. | .redSub .. | .redWait .. | .redMap .. | .redCorr .. | .redNext .. | .redClose ..
  | .redCloseDef .. => some 4
  | .tapePush .. | .tapeRun .. | .tapeDrop .. => some 5
  | .lagg .. | .lflush => some 6
  | .auds .. => some 7
  | .cpy _ _ _ l => if l.ck = .crc then some 9 else none
  | _ => none

/-- A feature that the word needs is not accepted. -/
def State.featureMissing (s : State) (i : Instr) : Bool :=
  match featureOf i with
  | some n => !s.accepted s.myFn n
  | none => false

/-- A 4-bit format (spec/12 R259). -/
def mmaNibble : MmaFmt → Bool
  | .e2m1 | .i4 | .q4 => true
  | _ => false

/-- A format that takes a scale plane (spec/17 R375). -/
def mmaScaled : MmaFmt → Bool
  | .e2m1 | .q8 | .q4 => true
  | _ => false

/-- A format of 16-bit elements. -/
def mmaHalf : MmaFmt → Bool
  | .bf16 | .f16 => true
  | _ => false

/-- A descriptor suits an operand of MMA.gt (spec/17 R375). -/
def gtOk (fmt : MmaFmt) (d : BitVec 256) : Bool :=
  dValid d && dEw d == (if mmaHalf fmt then 1 else 0) && !(mmaNibble fmt && dTrans d) && !(mmaScaled fmt && dSplane d == 0)

/-- A descriptor suits NMV (spec/17 R390, R375; log 21). -/
def nmvOk (fmt : NmvFmt) (d : BitVec 256) : Bool :=
  dValid d && !dTrans d && dEw d == (if fmt = .bf16 then 1 else 0)
    && !((fmt == .q8 || fmt == .q4) && dSplane d == 0)

/-- NR and NC of a transposing copy (spec/17 R384, R385). -/
def nrNcOk (x : Word) : Bool :=
  let nr := fieldOf x.toNat 15 0
  let nc := fieldOf x.toNat 31 16
  decide (1 ≤ nr ∧ nr ≤ 4096 ∧ 1 ≤ nc ∧ nc ≤ 4096)

/-- A descriptor that the word uses does not allow it. -/
def badDescriptor (g : Group) : Instr → Bool
  | .mma fmt _ _ (.gt a b _) _ => !(gtOk fmt (g.treg a.val) && gtOk fmt (g.treg b.val))
  | .nmv fmt _ _ w _ => !nmvOk fmt (g.treg w.val)
  | .cpy _ src c l => l.t && !(dValid (g.treg src.val) && nrNcOk (g.sreg (c.val + 1)))
  | .tdldRow _ t _ _ | .tdldCol _ t _ _ => !dValid (g.treg t.val)
  | _ => false

/-- The illegal encodings that only the machine's state shows (spec/11 R238 step 1). -/
def State.stateIllegal (s : State) (it : Issue) (i : Instr) : Bool :=
  (isTerminal i && !it.lastPlace) || s.featureMissing i || badDescriptor it.snap i ||
    (i == .rett && it.parts.any fun f => f.trap.isNone)

/-! ### Chain conflicts (spec/13 R282) -/

/-- Names of registers for R282: an s register, a v register, or a v destination that is an indexed operand and counts as
every v register. -/
inductive RegName where
  | s (n : Nat)
  | v (n : Nat)
  | anyV
deriving DecidableEq, Repr

/-- The names that a v destination counts as. -/
def vNames (o : VOp) (wide : Bool) : List RegName :=
  match o with
  | .idx .. => [.anyV]
  | .dir n => if wide then [.v n.val, .v (n.val + 1)] else [.v n.val]

/-- The v and s registers that a word of pipe S, V, SF or X writes. -/
def destNames : Instr → List RegName
  | .sadd d .. | .ssub d .. | .smul d .. | .smulh d .. | .smulhn d .. | .sand d .. | .sor d .. | .sxor d .. | .sshl d ..
  | .sshr d .. | .ssra d .. | .smin d .. | .smax d .. | .sminn d .. | .smaxn d .. | .smov d .. | .smovLc d ..
  | .saddi d .. | .smovi d .. | .smovh d .. | .ssel d .. | .sclz d .. | .spopc d .. | .sbfe d .. | .sbfeSx d ..
  | .sbfi d .. | .srdS d .. | .spredSp d .. | .slane d .. => [.s d.val]
  | .call l _ => [.s (56 + l.val)]
  | .railr d | .tlmrDie d _ | .tlmrOwn d _ | .mchk d _ | .hfill d _ | .hstat d _ | .redMap d _ _ => [.s d.val]
  | .srdV d .. => vNames d false
  | .vadd ty d .. | .vsub ty d .. | .vmul ty d .. | .vmulh ty d .. | .vand ty d .. | .vor ty d .. | .vxor ty d ..
  | .vnot ty d .. | .vshl ty d .. | .vshr ty d .. | .vsra ty d .. | .vmin ty d .. | .vmax ty d .. | .vabs ty d ..
  | .vneg ty d .. | .vmov ty d .. => vNames d ty.wide
  | .vsel d wide .. => vNames d wide
  | .vaddi d .. | .vmovi d .. | .vmad d .. | .vclz d .. | .vpopc d .. | .vbfe d .. | .vbfeSx d .. | .vbfi d ..
  | .vshfl d .. | .vperm d .. | .vrdc _ _ d .. | .vmovs d .. | .vmovsHi d .. | .vfmaF32 d .. | .vfmaF16x2 d ..
  | .vfmaBf16x2 d .. | .vfclass _ d .. | .vpack _ d .. | .vunpk _ d .. | .vqnt _ d .. | .vdqnt _ d .. | .vrng d ..
  | .vrcp d .. | .vrsq d .. | .vsqrt d .. | .vexp2 d .. | .vlog2 d .. | .vsin d .. | .vcos d .. | .vtanh d ..
  | .vdot4 _ _ _ d .. | .vdot8 _ _ _ d .. | .vfdot2 _ d .. => vNames d false
  | .vfadd ty _ d .. | .vfsub ty _ d .. | .vfmul ty _ d .. | .vfmin ty d .. | .vfmax ty d .. | .vfscl ty _ d ..
  | .vfabs ty d .. | .vfneg ty d .. | .vfrnd ty _ d .. => vNames d (ty == .f64)
  | .vfmaF64 d .. => vNames d true
  | .vcvt _ dt _ _ d _ => vNames d dt.wide
  | .vcvtsr _ dt _ d _ => vNames d dt.wide
  | .mfrgRd d .. => (natsFrom d.val 32).map .v
  | .tdldRow d .. | .tdldCol d .. => [.v d.val]
  | _ => []

/-- Registers of a v register group of a width (spec/13 R285). -/
def vCount : Width → Nat
  | .b64 => 2
  | .b128 => 4
  | _ => 1

/-- Base and index of a format-G word. -/
def addrNames (m : GAddr) : List RegName :=
  .s m.base.val :: (if m.idx.val = 63 then [] else [.v m.idx.val])

/-- v registers from `r` up. -/
def vSpan (r n : Nat) : List RegName := (natsFrom r n).map .v

/-- The field selection of a record word (spec/16 R346): first register and how many, of the four. -/
def recSel (m : GAddr) : Nat × Nat :=
  match (m.lit.map fun l => l.ext.toNat).getD 0 with
  | 0 => (0, 4)
  | 1 => (0, 3)
  | 2 => (3, 1)
  | _ => (1, 2)

/-- v registers that hold an atomic's operand (spec/16 R351). -/
def atomRegs (l : ALit) : Nat := (if l.wd then 2 else 1) * (if l.aop = .cas then 2 else 1)

/-- The registers that a word of pipe M reads as R282 names them. -/
def sourceNames : Instr → List RegName
  | .vld _ m _ _ | .vldr _ m _ | .sld _ m _ _ | .vlds _ m _ _ | .vldc _ m _ _ | .vldd _ m _ _ | .vldp _ m _ _
  | .prefL1 m | .prefL2 m | .prefSc m | .cwb m _ | .cinv m => addrNames m
  | .vst r m w | .vsts r m w | .vstc r m w | .vstd r m w | .vstp r m w => addrNames m ++ vSpan r.val (vCount w)
  | .vstr r m => addrNames m ++ vSpan (r.val + (recSel m).1) (recSel m).2
  | .sst r m w => addrNames m ++ (if w = .b128 then [.s r.val, .s (r.val + 1)] else [.s r.val])
  | .vatom a b i _ _ l | .vred a b i _ _ l =>
    .s b.val :: ((if i.val = 63 then [] else [.v i.val]) ++ vSpan a.val (atomRegs l))
  | .satom a b _ _ l => .s b.val :: (if l.aop = .cas then [.s a.val, .s (a.val + 1)] else [.s a.val])
  | .waitm b _ _ _ => [.s b.val]
  | _ => []

/-- A source that a destination writes. -/
def nameHit (src dst : RegName) : Bool :=
  match dst, src with
  | .anyV, .v _ => true
  | .anyV, .s _ => false
  | d, x => x == d

/-- The chain conflict of a group's words (pipe and instruction of each), as %tsyn[33:32] (spec/11 R247); with both kinds in one group, 1
(spec/13 R282; log 103). -/
def chainFault (ws : List (Pipe × Instr)) : Option Nat :=
  let count (p : Pipe) := (ws.filter fun w => w.1 == p).length
  if 1 < count .s ∨ 1 < count .sf ∨ 1 < count .m ∨ 1 < count .x ∨ 2 < count .v then some 1
  else
    let dsts := (ws.filter fun w => w.1 != .m).flatMap fun w => destNames w.2
    let srcs := (ws.filter fun w => w.1 == .m).flatMap fun w => sourceNames w.2
    if srcs.any fun x => dsts.any (nameHit x) then some 2 else none

/-! ### The check -/

/-- The positions of the words of the issue group in hand. -/
def Issue.groupFrom (it : Issue) : Nat → Nat → Nat → List Nat
  | 0, _, _ => []
  | fuel + 1, p, e => if e ≤ p then [] else p :: it.groupFrom fuel (p + it.len p) e

def Issue.groupPositions (it : Issue) : List Nat :=
  match it.reissue with
  | [] => it.groupFrom 3 it.pos (it.groupNext it.pos)
  | l => l.map (·.1)

/-- The words of a group that run once for each member of a batch and reach its scalar registers: those of pipe S, and those of pipe X that
are not collective and write no vector register (spec/06 R120, R121). -/
def Issue.scalarAt (it : Issue) (p : Nat) : Bool :=
  let op := fOp (it.word p).toNat
  match pipeOf op, it.decoded p with
  | .s, _ => true
  | .x, some (i, _) => decide (58 ≤ op) && (destNames i).all fun d => match d with
    | .s _ => true
    | _ => false
  | _, _ => false

/-- The runs of an issue group of a batch that holds two such words, each with its lanes: a member's runs of both come before those of the
next member, so that the next sees what both have written (spec/06 R127). The group's other words keep their place beside the first of the
two that stands in pipe S (R126). With one member, or one such word, the words run in packet order, each for every member. -/
def Issue.turnsOf (it : Issue) : List (Nat × Mask) :=
  let all := match it.reissue with
    | [] => it.groupPositions.map fun p => (p, allLanes)
    | l => l
  let scalar := all.filter fun e => it.scalarAt e.1
  let others := all.filter fun e => !it.scalarAt e.1
  let first := ((scalar.find? fun e => pipeOf (fOp (it.word e.1).toNat) == .s).map (·.1)).getD 0
  if it.whole.length < 2 || scalar.length < 2 then []
  else
    others.filter (fun e => decide (e.1 < first)) ++
    (it.whole.flatMap fun m => (scalar.map fun e => (e.1, e.2 &&& m.mask)).filter fun e => e.2 != 0) ++
    others.filter fun e => decide (first ≤ e.1)

/-- The issue group in hand begins, its check passed. -/
def Issue.begun (it : Issue) : Issue :=
  match it.turnsOf with
  | [] => { it with started := true }
  | t :: rest => { it with started := true, pos := t.1, only := some t.2, turns := t :: rest }

/-- The fault of the issue group in hand, if it has one: cause, %tsyn and the position of the word reported. -/
def State.groupFault (s : State) : Option (Nat × Word × Nat) :=
  let it := s.it
  let ps := it.groupPositions
  let bad := ps.find? fun p =>
    match it.decoded p with
    | none => true
    | some (i, _) => s.stateIllegal { it with pos := p } i
  match bad with
  | some p => some (1, (it.word p).setWidth 64, p)
  | none =>
    let ws := ps.filterMap fun p => (it.decoded p).map fun i => (pipeOf (fOp (it.word p).toNat), i.1)
    let first := ps.headD it.pos
    (chainFault ws).map fun c => (2, (it.word first).setWidth 64 + BitVec.ofNat 64 (c * 4294967296), first)

end Sys2Proof.Machine
end

