-- ==== Sys2Proof/Machine/Boundary.lean ====
section
/-!
DEFINITION. From clause to clause: waits that end and joins (spec/06 R118 to R122; spec/16 R361 to R364), loops
(spec/14 R310), the clause boundary, the header and the framing check (spec/13 R275 to R279), the choice of the next clause
(spec/05 R92) and its fetch (spec/07 R151, R159).
-/

namespace Sys2Proof.Machine

open Sys2Proof

/-! ### Where a fibre goes on -/

/-- The loop check of R310 at the sequential address, for at most three levels. -/
def loopNext (seq : Word) : Nat → LoopState → Word × LoopState
  | 0, l => (seq, l)
  | n + 1, l =>
    let k := l.levels - 1
    if l.levels = 0 ∨ l.stop.getD k 0 ≠ seq then (seq, l)
    else
      let c := l.lc.getD k 0 + 1
      let l := { l with lc := l.lc.put k c }
      if c.toNat < (l.bound.getD k 0).toNat then (l.start.getD k 0, l) else loopNext seq n { l with levels := k }

/-- A fibre that falls through to the sequential address. -/
def Fibre.fall (f : Fibre) (seq : Word) : Fibre :=
  let r := loopNext seq 3 f.loops
  { f with at_ := { pc := r.1 }, loops := r.2, kind := .run }

/-- A parked fibre that goes on to the next clause. -/
def Fibre.wake (f : Fibre) : Fibre := f.fall f.at_.pc

/-- The address of the wait word of a parked fibre. -/
def Fibre.parkedAt (f : Fibre) : Word :=
  f.reenter.pc + BitVec.ofNat 64 (4 * ((f.reenter.reissue.head?).elim 0 (·.1)))

/-- A change of one fibre of a group. -/
def State.modFibre (s : State) (gid fid : Nat) (f : Fibre → Fibre) : State :=
  s.setGroup gid ((s.group gid).modFibre fid f)

/-- A new fibre holds the operations in flight that any of `from_` holds (spec/06 R118, R119). -/
def State.hold (s : State) (gid : Nat) (from_ : List Nat) (id : Nat) : State :=
  let add (hs : List Nat) : List Nat := if hs.any from_.contains && !hs.contains id then hs ++ [id] else hs
  { s with
    ops := s.ops.map (fun e => (e.1, if e.2.group == gid then { e.2 with holders := add e.2.holders } else e.2)),
    engs := s.engs.map (fun e => (e.1, if e.2.group == gid then { e.2 with holders := add e.2.holders } else e.2)) }

/-! ### Ends of waits -/

/-- The wait that a fibre is parked in, or will be at the end of the clause in hand. -/
def State.waitOf (s : State) (gid : Nat) (f : Fibre) : Option Wait :=
  match f.kind with
  | .parked w => some w
  | _ =>
    match (s.quarter (s.group gid).quarter).issue with
    | some it =>
      if it.group = gid then
        match termOf it f.id with
        | some (.park w) => some w
        | _ => none
      else none
    | none => none

/-- The fibres that wait so that `p` holds come to know of some writes to host memory: the end of their wait is an acquire (spec/08 R174). -/
def State.informWaiting (s : State) (p : Nat → Fibre → Wait → Bool) (xs : NatSet) : State :=
  if (s.unflushed xs).isEmpty then s
  else
    s.groups.foldl (fun s e => e.2.fibres.foldl (fun s f => if (s.waitOf e.1 f).elim false (p e.1 f) then s.inform e.1 f.mask xs else s) s) s

/-- The waits of which `p` holds end; `upd` is the change that the end makes in the fibre. A wait whose condition is met sets
EXPN to 0 (spec/05 R104). -/
def State.wakeWhere (s : State) (p : Nat → Fibre → Wait → Bool) (upd : Fibre → Fibre) : State :=
  let hit (gid : Nat) (f : Fibre) : Bool := (s.waitOf gid f).elim false (p gid f)
  let wakeF (f : Fibre) : Fibre := match f.kind with | .parked _ => upd f.wake | _ => upd f
  let wakeG (gid : Nat) (g : Group) : Group :=
    if g.fibres.any (hit gid) then
      { g with fibres := g.fibres.map fun f => if hit gid f then wakeF f else f, expn := 0 }
    else g
  let wakeQ (q : Quarter) : Quarter :=
    match q.issue with
    | some it =>
      let ids := ((s.group it.group).fibres.filter (hit it.group)).map (·.id)
      { q with issue := some { it with term := it.term.map fun t => if ids.contains t.1 then (t.1, .next) else t } }
    | none => q
  { s with groups := s.groups.map (fun e => (e.1, wakeG e.1 e.2)),
           quarters := s.quarters.map (fun e => (e.1, wakeQ e.2)) }

/-! ### Splits and joins (spec/06 R117 to R119; spec/14 R314) -/

/-- The lowest free entry of a split table, the one that FSPLIT takes (spec/14 R314; log 104). -/
def freeEntry (t : Tab SplitEntry) : Nat := Tab.freeFrom t 0 31

/-- FSPLIT at the end of its clause (spec/06 R118); the fibre that falls through stays the one that was split (log 76). -/
def State.splitFibre (s : State) (gid : Nat) (f : Fibre) (t n : Mask) (target seq : Word) : State :=
  let tm := t &&& f.mask
  let nm := n &&& f.mask
  if nm = 0 then s.modFibre gid f.id fun x => { x with at_ := { pc := target } }
  else if tm = 0 then s.modFibre gid f.id fun x => x.fall seq
  else
    let g := s.group gid
    let e := freeEntry g.split
    let a : Fibre := { f with id := g.nextFibre, mask := tm, at_ := { pc := target }, entry := some e,
                              poison := markIn f.poison tm }
    let b : Fibre := { f with mask := nm, entry := some e, poison := markIn f.poison nm }
    let s := s.setGroup gid
      { g with split := g.split.put e { join := f.mask, outer := f.entry }, nextFibre := g.nextFibre + 1,
               fibres := (g.fibres.map fun x => if x.id == f.id then b.fall seq else x) ++ [a] }
    s.hold gid [f.id] a.id

/-- The fibres parked at FJOIN with an entry. -/
def Group.joiners (g : Group) (e : Nat) : List Fibre :=
  sortBy (fun f => lowLane f.mask) (g.fibres.filter fun f => f.kind == .parked .join && f.entry == some e)

/-- The join of an entry can complete (spec/06 R119). -/
def Group.joinable (g : Group) (e : Nat) (x : SplitEntry) : Bool :=
  let m := (g.joiners e).foldl (fun m f => m ||| f.mask) (0 : Mask)
  m != 0 && (x.join &&& g.alive &&& ~~~m) == 0

/-- The union of two governing LIVEs, none where a part lacks one (spec/11 R249). -/
def liveUnion : Option Live → Option Live → Option Live
  | some a, some b =>
    some { q := a.q || b.q, h := a.h || b.h, ac := a.ac ||| b.ac, sq := a.sq ||| b.sq, vo := a.vo ||| b.vo }
  | _, _ => none

/-- The fibre that a completed join leaves (spec/06 R119). It keeps the number of the lowest-ranked part, and is the last chosen of R92 only
where that part was (log 113). -/
def joinFibre (f : Fibre) (rest : List Fibre) (outer : Option Nat) : Fibre :=
  { rest.foldl (fun m x =>
      { m with mask := m.mask ||| x.mask, fail := addFail m.fail x.fail, poison := addPoison m.poison x.poison,
               live := liveUnion m.live x.live }) f with entry := outer }

/-- One join completed: a release by each joining fibre, and an acquire of the merged one (spec/08 R174). -/
def State.joinAt (s : State) (gid e : Nat) : State :=
  let g := s.group gid
  match g.joiners e with
  | [] => s
  | f :: rest =>
    let ids := (f :: rest).map (·.id)
    let m := (joinFibre f rest ((g.split.get? e).bind (·.outer))).wake
    let s := (s.inform gid m.mask (s.knows gid m.mask)).setGroup gid
      { g with split := g.split.erase e, expn := 0, fibres := (g.fibres.filter fun x => !ids.contains x.id) ++ [m] }
    s.hold gid ids m.id

/-- Every join of a group that can complete, completed. -/
def State.joins : Nat → State → Nat → State
  | 0, s, _ => s
  | n + 1, s, gid =>
    match (s.group gid).split.find? fun e => (s.group gid).joinable e.1 e.2 with
    | none => s
    | some e => State.joins n (s.joinAt gid e.1) gid

/-- An entry is in use (spec/14 R314). -/
def Group.entryUsed (g : Group) (e : Nat) : Bool :=
  (g.fibres.any fun f => f.entry == some e || f.trap.elim false (fun t => t.retEntry == some e)) ||
    g.split.any fun x => x.2.outer == some e

/-- Entries that nothing holds are freed, outer ones after inner ones. -/
def Group.freeSplit : Nat → Group → Group
  | 0, g => g
  | n + 1, g => Group.freeSplit n { g with split := g.split.filter fun e => g.entryUsed e.1 }

/-- The rejoin deadlock of a group (spec/06 R122). -/
def State.rejoinTrap (s : State) (gid : Nat) : State :=
  let g := s.group gid
  if g.fibres.all fun f => f.kind == .parked .join then
    match (sortBy (fun f => lowLane f.mask) g.fibres).head? with
    | none => s
    | some f =>
      let s := s.modFibre gid f.id Fibre.wake
      s.takeTrap gid
        { fibre := f.id, lanes := f.mask, cause := 12, tsyn := BitVec.ofNat 64 (f.entry.getD 31), tpc := f.parkedAt,
          resume := .clause f.wake.at_.pc, word := 0 } f.mask { pc := f.wake.at_.pc }
  else s

/-! ### Barriers (spec/16 R361 to R364) -/

/-- Every lane of the group that has not ended is among `m`, and none is in a trap fibre or a fault-wait fibre. -/
def Group.allArrived (g : Group) (m : Mask) : Bool :=
  g.alive != 0 && (g.alive &&& ~~~m) == 0 &&
    g.fibres.all fun f => f.trap.isNone && (match f.kind with | .faultWait _ => false | _ => true)

/-- One group's arrival counted; the arrival that reaches the required count inverts the phase (spec/16 R361). -/
def Barrier.count (b : Barrier) (num want : Nat) (lanes : Mask) : Barrier :=
  let req := if b.arrivals = 0 then want else b.required
  if req ≤ b.arrivals + 1 then
    { b with arrivals := 0, required := req, phase := !b.phase, lanes := [], counted := [], want := [] }
  else
    { b with arrivals := b.arrivals + 1, required := req, lanes := b.lanes.erase num,
             counted := b.counted.put num (b.counted.getD num 0 ||| lanes) }

/-- Fibres parked in BAR or BARW on barrier `n` of team `t` wake at an inversion of the phase (spec/16 R361, R362), which is an acquire of
what came before the arrivals of the phase (spec/08 R174). -/
def State.wakeBarrier (s : State) (t n : Nat) (phase : Bool) : State :=
  let xs := s.known (.arriving t n)
  let s := (((s.forget (.arriving t n)).forget (.arrived t n)).learn (.arrived t n) xs).informWaiting (fun gid _ w =>
    (s.group gid).team == t && (match w with | .barrier m _ | .barw m _ => m == n | _ => false)) xs
  let s := s.wakeWhere (fun gid _ w => (s.group gid).team == t && (match w with | .barrier m _ => m == n | _ => false)) id
  (List.finRange 8).foldl (fun s c =>
    s.wakeWhere (fun gid _ w => (s.group gid).team == t && w == .barw n c)
      fun f => { f with c := if phase then f.c ||| BitVec.ofNat 8 (2 ^ c.val)
                             else f.c &&& ~~~BitVec.ofNat 8 (2 ^ c.val) }) s

/-- A group's arrival at barrier `n` of its team. -/
def State.arrive (s : State) (t n num want : Nat) (lanes : Mask) : State :=
  let x := s.team t
  let b := x.barriers.getD n {}
  let b' := b.count num want lanes
  let s := s.setTeam t { x with barriers := x.barriers.put n b' }
  if b'.phase = b.phase then s else s.wakeBarrier t n b'.phase

/-- A group whose lanes have all arrived at barrier `n` by BAR arrives. -/
def State.tryArrive (s : State) (gid n : Nat) : State :=
  let g := s.group gid
  let b := (s.team g.team).barriers.getD n {}
  let m := b.lanes.getD g.num 0
  if m != 0 && g.allArrived m then s.arrive g.team n g.num (b.want.getD g.num 0) m else s

/-- A team has arrived at GBAR: every lane of it that has not ended is parked there, or keeps its arrival after a wait that the progress
timeout abandoned (spec/16 R363, R364). -/
def State.atGbar (s : State) (t : Nat) : Bool :=
  let x := s.team t
  !x.ended && (s.groups.filter fun g => g.2.team == t).all fun g =>
    g.2.ended || (g.2.alive &&& ~~~(x.gbar.getD g.2.num 0)) == 0

/-- Every team of an instance has arrived at GBAR or ended, and one has arrived (spec/16 R363). -/
def State.gbarComplete (s : State) (i : Nat) : Bool :=
  let ts := s.teams.filter fun e => e.2.inst == i
  (ts.any fun e => !e.2.ended) && ts.all fun e => e.2.ended || s.atGbar e.1

/-- The grid barrier completed where every team has arrived: an acquire at device scope for each (spec/08 R174). -/
def State.tryGbar (s : State) (i : Nat) : State :=
  if (s.teams.any fun e => e.2.inst == i && e.2.gbar != []) && s.gbarComplete i then
    let cores := (s.teams.filter fun e => e.2.inst == i && !e.2.ended && !e.2.stopped).map fun e => e.2.core
    let here (gid : Nat) (_ : Fibre) (w : Wait) : Bool := (s.team (s.group gid).team).inst == i && w == .grid
    let s := (s.informWaiting here (s.known (.grid i))).forget (.grid i)
    let s : State := { s with teams := s.teams.map (fun e => (e.1, if e.2.inst == i then { e.2 with gbar := [] } else e.2)) }
    (cores.foldl State.clearL1 s).wakeWhere here id
  else s

/-! ### Readiness (spec/05 R90) -/

/-- The flags that a wait mask names, set for a fibre. -/
def State.waitClear (s : State) (gid fid : Nat) (wait : BitVec 12) : Bool :=
  (List.range 12).all fun n => !wait.getLsbD n || s.flagSet gid fid n

/-- A fibre stands at a safe point, or at a point at which a stop saves it as it is (spec/05 R107; spec/07 R157;
spec/11 R249). -/
def Fibre.atSafe (f : Fibre) : Bool :=
  f.live.isSome || f.drain || (match f.kind with | .faultWait _ => true | _ => false)

/-- The wait mask of the header at which a fibre stands: none inside a clause, or where no header can be read. -/
def State.headerMask (s : State) (g : Group) (f : Fibre) : BitVec 12 :=
  let i := s.inst (s.team g.team).inst
  if f.at_.mid.isSome then 0
  else
    match s.translate (s.team g.team).core i.fn i.slot f.at_.pc.toNat .fetch with
    | .ok dom key =>
      let w := leNat (s.readFrame key dom 4)
      if fOp w = 1 && !s.rangePoisoned dom 4 then BitVec.ofNat 12 (bits w 12 12) else 0
    | _ => 0

/-- The service or the flushing read `n` is not over. -/
def State.awaited (s : State) (n : Nat) : Bool := (s.services.get? n).isSome || (s.flushes.get? n).isSome

/-- A fibre is ready (spec/05 R90; spec/11 R241, R242). -/
def State.readyBare (s : State) (gid : Nat) (g : Group) (f : Fibre) : Bool :=
  let t := s.team g.team
  let held (e : Nat × Op) : Bool := e.2.group == gid && e.2.holders.contains f.id
  let heldE (e : Nat × EngOp) : Bool := e.2.group == gid && e.2.holders.contains f.id
  !g.ended && !t.ended && !t.stopped &&
  (match f.kind with
   | .run => s.waitClear gid f.id (s.headerMask g f)
   | .header w => s.waitClear gid f.id w
   | .parked _ => false
   | .faultWait l => !l.any s.awaited) &&
  (!f.drain || (!s.ops.any held && !s.engs.any heldE &&
    !g.fibres.any fun x => x.drain && decide (x.delivered < f.delivered)))

/-- A fibre is ready, and no stop that is due holds it at its safe point (spec/05 R107). -/
def State.ready (s : State) (gid : Nat) (g : Group) (f : Fibre) : Bool :=
  s.readyBare gid g f && !((s.team g.team).stopReq && f.atSafe)

/-- A fibre is parked in a wait word. -/
def Fibre.isParked (f : Fibre) : Bool := match f.kind with | .parked _ => true | _ => false

/-- A group whose timer counts: no fibre is ready, and one is parked in a wait word (spec/05 R104). -/
def State.idle (s : State) (gid : Nat) : Bool :=
  let g := s.group gid
  g.fibres.any Fibre.isParked && !g.fibres.any (s.readyBare gid g)

/-- A group found idle since its last clause boundary. -/
def State.noteParked (s : State) (gid : Nat) : State :=
  if s.idle gid then s.setGroup gid { s.group gid with parked := true } else s

/-! ### The clause boundary -/

/-- An operation in flight without some lanes: it writes no register of theirs (spec/14 R313). -/
def Op.without (o : Op) (m : Mask) : Op :=
  let rest := o.lanes &&& ~~~m
  { o with lanes := rest, poison := markIn o.poison rest, fpsr := markIn o.fpsr rest,
           writes := o.writes.filter fun w => match w with | .v l _ _ => rest.getLsbD l | .s .. => rest != 0 }

/-- The operations in flight of a group leave out lanes that have ended. -/
def State.endLanes (s : State) (gid : Nat) (m : Mask) : State :=
  { s with ops := s.ops.map (fun e => if e.2.group == gid then (e.1, e.2.without m) else e),
           engs := s.engs.map fun e => if e.2.group == gid then (e.1, { e.2 with without := e.2.without ||| m }) else e }

/-- What a fibre's clause end does (spec/13 R281). -/
def State.applyTerm (s : State) (it : Issue) (fid : Nat) (t : Term) : State :=
  let gid := it.group
  let seq := it.sequential
  match (s.group gid).fibre? fid with
  | none => s
  | some f =>
    match t with
    | .next => s.modFibre gid fid fun x => x.fall seq
    | .goto pc => s.modFibre gid fid fun x => { x with at_ := { pc := pc } }
    | .park w => s.modFibre gid fid fun x => { x with at_ := { pc := seq }, kind := .parked w, again := false }
    | .split t n target => s.splitFibre gid f t n target seq
    | .endLanes => (s.setGroup gid { s.group gid with fibres := (s.group gid).fibres.filter fun x => x.id != fid }).endLanes gid f.mask
    | .endGroup => s.setGroup gid { s.group gid with fibres := [] }
    | .yield => s.modFibre gid fid fun x => { x.fall seq with yielded := true }
    | .rett => s.returnTrap gid fid

/-- A group without a fibre has ended; its loads, atomics and SF operations write no register (spec/06 R116; spec/14 R312).
A team whose groups have all ended has ended. -/
def State.endCheck (s : State) (gid : Nat) : State :=
  let g := s.group gid
  if g.fibres.isEmpty then
    let s := { s.setGroup gid { g with ended := true } with ops := s.ops.filter (fun e => e.2.group != gid) }
    let s := s.reportFailed gid
    if s.groups.all fun e => e.2.team != g.team || e.2.ended then s.endTeam g.team else s
  else s

/-- What follows a change of a group's fibres at a clause boundary: joins, freed entries, the group's end, rejoin deadlock,
barriers that the group's remaining lanes have reached, and whether the group's timer starts to count (spec/05 R104). -/
def State.settleGroup (s : State) (gid : Nat) : State :=
  let s := s.joins 32 gid
  let s := s.setGroup gid (Group.freeSplit 31 (s.group gid))
  let s := s.endCheck gid
  let s := s.rejoinTrap gid
  let s := (List.range 16).foldl (fun s n => s.tryArrive gid n) s
  (s.tryGbar (s.team (s.group gid).team).inst).noteParked gid

/-- YIELD's boundary of a quarter is past (spec/14 R312). -/
def State.pastYield (s : State) (q : Nat) : State :=
  { s with groups := s.groups.map fun e =>
    (e.1, if e.2.quarter == q then { e.2 with fibres := e.2.fibres.map fun f => { f with yielded := false } } else e.2) }

/-- A quarter has a ready fibre. -/
def State.anyReady (s : State) (q : Nat) : Bool := s.groups.any fun e => e.2.quarter == q && e.2.fibres.any (s.ready e.1 e.2)

/-- The quarter in hand issues nothing more. -/
def State.dropIssue (s : State) : State := s.setQuarter s.cur { s.quarter s.cur with issue := none }

/-- The clause boundary of the clause in hand (spec/06 R124). CNT returns to 0 (spec/05 R104). Where no fibre is ready the quarter issues
nothing at this boundary, which is past for a fibre that yielded (R92; spec/14 R312). -/
def State.boundary (s : State) : State :=
  let it := s.it
  let s := it.members.foldl (fun s m => s.applyTerm it m ((termOf it m).getD .next)) s
  let s := s.dropIssue
  let s := s.setGroup it.group { s.group it.group with cnt := 0, parked := false, served := false }
  let s := s.settleGroup it.group
  if s.anyReady s.cur then s else s.pastYield s.cur

/-- The issue group that starts at position `p`; past the last word, or with no lane left, the clause ends. -/
def State.newGroup (s : State) (p : Nat) : State :=
  let g := s.group s.it.group
  let s := s.modIt fun it =>
    { it with pos := p, groupStart := p, snap := { g with fpsr := it.fpsr0, expn := it.expn0 }, time := none, started := false, gflags := 0, only := none,
              reissue := [], turns := [], seen := none, made := none, late := [], fflags := it.members.map fun m => (m, s.flagBits it.group m),
              members := it.members.filter fun m => (g.fibre? m).isSome }
  if s.it.members.isEmpty || decide (s.it.words.length ≤ p) then s.boundary else s

/-- The next run of an issue group whose members take turns: a member that comes after another sees what it has written (spec/06 R127). -/
def Issue.nextTurn (it : Issue) (t : Nat × Mask) (rest : List (Nat × Mask)) : Issue :=
  { it with pos := t.1, only := some t.2, turns := t :: rest, seen := if t.1 ≤ it.pos then it.made else it.seen }

/-- Past the word in hand, once its effect is made; a header stands alone. A word that is held stays in hand. -/
def State.advance (s : State) : State :=
  if !s.issuing || s.it.held then s
  else
    let it := s.it
    match it.turns, it.reissue with
    | _ :: t :: rest, _ => s.modIt fun x => x.nextTurn t rest
    | [], _ :: (p, m) :: rest => s.modIt fun x => { x with pos := p, only := some m, reissue := (p, m) :: rest }
    | [], [] =>
      if it.closes || it.pos == 0 then s.newGroup (it.pos + it.len it.pos)
      else s.modIt fun x => { x with pos := it.pos + it.len it.pos }
    | _, _ => s.newGroup it.afterPos

/-- An issue group that fails as a whole: the trap in every lane, and no word has effect (spec/11 R238). -/
def State.failGroup (s : State) (cause : Nat) (tsyn : Word) (p : Nat) : State :=
  let s := s.modIt fun it => { it with pos := p, only := none }
  let s := (s.pend (trapLanes s.it.mask cause tsyn)).settle
  if s.issuing then s.newGroup s.it.afterPos else s

/-! ### The header and the framing check -/

/-- An index literal stands where R279 allows (through K = 1 directly after an owner of formats A to F), its Res bits 0. -/
def indexLitOk (prev w : Nat) : Bool := fK prev && formatAF (fOp prev) && (idxLitOf w).isSome

/-- The word at position `i` breaks a framing rule (spec/13 R276 to R279). -/
def frameBad (ws : List W32) (safe : Bool) (i : Nat) : Bool :=
  let w := (ws.getD i 0).toNat
  let prev := (ws.getD (i - 1) 0).toNat
  let next := (ws.getD (i + 1) 0).toNat
  let hasNext := decide (i % 3 ≠ 2 ∧ i + 1 < ws.length)
  let last := i + 1 == ws.length
  let litAfter := i % 3 != 0 && fLT prev
  if i = 0 then fOp w != 1 || fK w || fE w || (decode (ws.getD 0 0) none).isNone
  else
    fOp w == 1
    || (fE w && i % 3 != 2)
    || (fK w && i % 3 == 2)
    || (i == 23 && !fE w)
    || (fOp w == 2 && !(safe && last && fE w && !fK prev && (decode (ws.getD i 0) none).isSome))
    || (safe && last && fE w && fOp w != 2)
    || (fLT w && !(fK w && hasNext && fOp next == 3 && bits next 23 1 == 0))
    || (fOp w == 3 && bits w 0 24 != 0 &&
        !(if bits w 23 1 == 0 then litAfter else i % 3 != 0 && indexLitOk prev w))

/-- The first word of a clause that breaks the framing. -/
def frameFault (ws : List W32) : Option Nat :=
  let safe := bits (ws.getD 0 0).toNat 3 1 == 1
  (List.range ws.length).find? (frameBad ws safe)

/-- The marks that the drain of a trap fibre brought in belong to its return state (spec/11 R240, R241). -/
def Fibre.drained (f : Fibre) : Fibre :=
  if f.drain then
    { f with drain := false, fail := [], poison := [],
             trap := f.trap.map fun t => { t with retFail := addFail t.retFail f.fail,
                                                  retPoison := addPoison t.retPoison f.poison } }
  else f

/-- Flag numbers that a wait mask names. -/
def namedFlags (wait : BitVec 12) : List Nat := (List.range 12).filter fun n => wait.getLsbD n

/-- The failure marks of the named flags, of the lowest flag first. -/
def namedMarks (f : Fibre) (wait : BitVec 12) : List FailMark := (namedFlags wait).filterMap fun n => f.fail.get? n

/-- The traps that marks of the named flags raise in a fibre: 0x09 in the poisoned lanes, then 0x0E in the others
(spec/11 R243; of several failed flags the lowest is reported, log 22). -/
def markTraps (f : Fibre) (wait : BitVec 12) (tpc : Word) : List PendTrap :=
  let mine := f.poison.filter fun e => wait.getLsbD (e.1 / 32) && f.mask.getLsbD (e.1 % 32)
  let pm := maskOf (mine.map fun e => e.1 % 32)
  let units : Tab Word := mine.foldl (fun t e => if (t.get? (e.1 % 32)).isSome then t else t.put (e.1 % 32) e.2) []
  let a : List PendTrap := if pm = 0 then [] else
    [{ fibre := f.id, lanes := pm, cause := 9, tunit := units, tpc := tpc, wait := wait, resume := .clause tpc, word := 0 }]
  let rest := f.mask &&& ~~~pm
  match namedMarks f wait with
  | [] => a
  | k :: _ => if rest = 0 then a else a ++
    [{ fibre := f.id, lanes := rest, cause := 14, tsyn := k.syn, ttile := k.ttile, tpc := tpc, wait := wait,
       tunit := (lanesOf rest).map fun l => (l, k.tunit), resume := .clause tpc, word := 0 }]

/-- The header's wait (spec/06 R128; spec/11 R243): members whose flags are not all set wait at the header, marked lanes
trap, and the others stay. -/
def State.headerWait (s : State) (wait : BitVec 12) : State :=
  let gid := s.it.group
  let tpc := s.it.clause
  let s := s.it.members.foldl (fun s m => s.modFibre gid m Fibre.drained) s
  let ok := s.it.members.filter fun m => s.waitClear gid m wait
  let s := s.it.members.foldl (fun s m =>
    if ok.contains m then s else s.modFibre gid m fun f => { f with kind := .header wait }) s
  let fs := ok.filterMap fun m => (s.group gid).fibre? m
  let traps := fs.flatMap fun f => markTraps f wait tpc
  let told := fs.flatMap fun f => (namedMarks f wait).flatMap (·.ops)
  let s := s.setGroup gid { s.group gid with failed := (s.group gid).failed.filter fun k => !told.contains k }
  let s := (s.modIt fun it => { it with members := ok, traps := traps }).settle
  s.modIt fun it => { it with members := it.members.filter fun m => ((s.group gid).fibre? m).isSome }

/-- The framing fault at position `p`: every lane that is left traps (spec/13 R276). -/
def State.frameTrap (s : State) (p : Nat) : State :=
  let it := s.it
  let g := s.group it.group
  let pc := it.clause + BitVec.ofNat 64 (12 * (p / 3 + 1))
  let traps := it.members.filterMap fun m => (g.fibre? m).map fun f =>
    ({ fibre := m, lanes := f.mask, cause := 1, tsyn := (it.word p).setWidth 64, tpc := it.addr p, resume := .clause pc,
       word := p } : PendTrap)
  (s.modIt fun x => { x with traps := traps }).settle

/-- 2^TEXP with TEXP held to 20 to 40 (spec/05 R103). -/
def wdogLimit (texp : Nat) : Nat := 2 ^ max 20 (min 40 texp)

/-- What a quarter chose is recorded, and YIELD's boundary is past (spec/05 R92; spec/14 R312). -/
def State.chosen (s : State) (q gid : Nat) (fs : List Fibre) : State :=
  let s := s.pastYield q
  let t := (s.group gid).team
  let s := s.setGroup gid { s.group gid with lastFibre := (fs.head?).map (·.id) }
  let x := s.quarter q
  s.setQuarter q { x with lastTeam := some t, lastGroup := x.lastGroup.put t gid }

/-- CNT as a clause of a group finds it: what it stood at, and where the group's timer has counted since, a count more that only the
device knows (spec/05 R104; log 13). -/
def Group.counted (g : Group) (free : Nat) : Nat := g.cnt + if g.parked then Config.wdogCount free % wdogLimit g.texp else 0

/-- The clause starts for the members that are left: governing LIVEs go (spec/11 R249), and CNT is what it counted before the clause
(spec/05 R104). -/
def State.startMembers (s : State) (seta setb : Nat) (safe : Bool) : State :=
  let it := s.it
  let gid := it.group
  let s := it.members.foldl (fun s m => s.modFibre gid m fun f => { f with live := none, kind := .run }) s
  let s := s.setGroup gid { s.group gid with cnt := (s.group gid).counted s.free }
  s.bump.modIt fun it => { it with seta := seta, setb := setb, safe := safe }

/-- A clause header (spec/13 R276, R277). -/
def State.header (s : State) (wait : BitVec 12) (seta setb : Nat) (safe : Bool) : State :=
  if s.issuing then
    let s := s.headerWait wait
    if s.it.members.isEmpty then s
    else
      match frameFault s.it.words with
      | some p => s.frameTrap p
      | none => s.startMembers seta setb safe
  else s

/-- A word of major 0x01 that is no well-formed header: its wait is made, and then it is a framing fault. -/
def State.badHeader (s : State) : State :=
  let s := s.headerWait (BitVec.ofNat 12 (bits (s.it.word 0).toNat 12 12))
  if s.it.members.isEmpty then s else s.frameTrap 0

/-! ### The choice of the next clause (spec/05 R90, R92) -/

/-- Two fibres go on at the same word: at one clause address or at one place inside a clause, with the same words to issue again. -/
def Resume.sameWord (a b : Resume) : Bool := a.pc == b.pc && a.mid == b.mid && a.reissue.map (·.1) == b.reissue.map (·.1)

/-- The batch of a ready fibre among the ready fibres of its group, in rank order; a trap fibre does not batch (spec/06 R120; spec/11 R239,
R248). -/
def batchOf (fs : List Fibre) (f : Fibre) : List Fibre :=
  if f.trap.isNone then
    sortBy (fun x => lowLane x.mask) (fs.filter fun x => x.trap.isNone && x.at_.sameWord f.at_ && x.wb == f.wb)
  else [f]

/-- The words that a batch issues again, each with the lanes of all its members. -/
def batchReissue (fs : List Fibre) : List (Nat × Mask) :=
  let lanes (p : Nat) : Mask := fs.foldl (fun m x => (x.at_.reissue.filter fun e => e.1 == p).foldl (fun m e => m ||| e.2) m) 0
  (fs.head?).elim [] fun f => f.at_.reissue.map fun e => (e.1, lanes e.1)

/-- The rank of a fibre as a party: the lowest lane of its batch. -/
def partyRank (fs : List Fibre) (f : Fibre) : Nat := ((batchOf fs f).head?).elim 32 fun x => lowLane x.mask

/-- pick of R92 over places in precedence order; the class is 0 C, 1 P, 2 W. -/
def pick (cls : Nat) (keys : List Nat) (last : Option Nat) : Option Nat :=
  let ks := sortBy id keys
  match cls, last with
  | 0, some l => ((ks.find? fun k => decide (l < k)).orElse fun _ => ks.head?)
  | 2, some l => if ks.contains l then some l else ks.head?
  | _, _ => ks.head?

/-- The ready fibres of a quarter, by group; one that yielded counts only when no other is ready (spec/14 R312). -/
def State.readyIn (s : State) (q : Nat) : List (Nat × List Fibre) :=
  let all := (s.groups.filter fun e => e.2.quarter == q).map fun e => (e.1, e.2.fibres.filter (s.ready e.1 e.2))
  let fresh := all.map fun e => (e.1, e.2.filter fun f => !f.yielded)
  (if fresh.any fun e => !e.2.isEmpty then fresh else all).filter fun e => !e.2.isEmpty

/-- The group and the batch that a quarter runs next; what it chose last counts for none once it has ended or left the quarter (spec/05
R92). -/
def State.select (s : State) (q : Nat) : Option (Nat × List Fibre) :=
  let rs := s.readyIn q
  let qr := s.quarter q
  let slotOf (t : Nat) : Nat := (s.team t).slot
  let resident (t : Nat) : Bool := (s.teams.get? t).isSome && !(s.team t).ended && !(s.team t).stopped
    && s.groups.any fun e => e.2.team == t && e.2.quarter == q && !e.2.ended
  let lastSlot := (qr.lastTeam.filter resident).map slotOf
  match pick 0 (rs.map fun e => slotOf (s.group e.1).team) lastSlot with
  | none => none
  | some sl =>
    let mine := rs.filter fun e => slotOf (s.group e.1).team == sl
    let t := (mine.head?).elim 0 fun e => (s.group e.1).team
    let tcb := (s.inst (s.team t).inst).tcb
    let lastG := ((qr.lastGroup.get? t).filter fun g => !(s.group g).ended).map fun g => (s.group g).num
    match pick tcb.clg (mine.map fun e => (s.group e.1).num) lastG with
    | none => none
    | some num =>
      match mine.find? fun e => (s.group e.1).num == num with
      | none => none
      | some (gid, fs) =>
        let lastF := ((s.group gid).lastFibre.bind (s.group gid).fibre?).map fun f =>
          if fs.any fun x => x.id == f.id then partyRank fs f else lowLane f.mask
        match pick tcb.clf (fs.map (partyRank fs)) lastF with
        | none => none
        | some r => (fs.find? fun f => lowLane f.mask == r).map fun f => (gid, batchOf fs f)

/-! ### The fetch of a clause -/

/-- What the fetch of a clause gives. -/
inductive Fetched where
  | words (l : List W32)
  | fail (bit addr : Nat)
  | poison (walk : Bool) (addr : Nat)
  | wait (w : Walk) (addr : Nat)
  | stall
deriving DecidableEq, Repr

/-- The words of a clause up to its E bit, at most 24 (spec/13 R275; spec/07 R151, R159), as memory holds them now, also where a grid runs what
it has just written (spec/08 R184; log 100). -/
def State.fetchFrom (s : State) (core fn g : Nat) : Nat → Nat → List W32 → Fetched
  | 0, _, acc => .words acc.reverse
  | n + 1, a, acc =>
    match s.translate core fn g a .fetch with
    | .ok dom key =>
      if s.rangePoisoned dom 4 then .poison false a
      else
        let w : W32 := BitVec.ofNat 32 (leNat (s.readFrame key dom 4))
        if fE w.toNat then .words (w :: acc).reverse else s.fetchFrom core fn g n (a + 4) (w :: acc)
    | .fail b | .barred b => .fail b a
    | .poison _ => .poison true a
    | .stall => .stall
    | w => .wait w a

/-- The same trap in every lane of the fibres of a batch before their clause starts. -/
def State.startTrap (s : State) (gid : Nat) (fs : List Fibre) (mk : Fibre → PendTrap) (r : Fibre → Resume) : State :=
  (fs.foldl (fun s f => s.takeTrap gid (mk f) f.mask (r f)) s).settleGroup gid

/-- A quarter starts the clause of a batch: its words fetched, and the header or the resume point in hand; a resume point after the
last word is the clause's end. Where the fetch must wait (spec/01 R26; spec/07 R148), nothing happens. -/
def State.startClause (s : State) (q gid : Nat) (fs : List Fibre) : State :=
  match fs with
  | [] => s
  | f :: _ =>
    let g := s.group gid
    let i := s.inst (s.team g.team).inst
    let pc := f.at_.pc
    let every (m : Mask) (x : Word) : Tab Word := (lanesOf m).map fun l => (l, x)
    let at_ := s
    let s := s.chosen q gid fs
    let read (s : State) (n : Nat) : State := s.askRange true (s.team g.team).core i.fn i.slot pc.toNat n
    let upTo (s : State) (a : Nat) : State := read s (a + 4 - pc.toNat)
    match s.fetchFrom (s.team g.team).core i.fn i.slot 24 pc.toNat [] with
    | .stall => at_
    | .fail b a =>
      let s := upTo s a
      s.startTrap gid fs (fun x => { fibre := x.id, lanes := x.mask, cause := 7, tsyn := BitVec.ofNat 64 (2 ^ b),
                                     tunit := every x.mask pc, tpc := pc, resume := .clause pc, word := 0 }) (·.at_)
    | .poison wk a =>
      let s := (upTo s a).modTele (s.ownerSlot i.fn i.slot) fun t => { t with poisc := sat64 (t.poisc + 1) }
      s.startTrap gid fs (fun x => { fibre := x.id, lanes := x.mask, cause := 9, tsyn := if wk then 1 else 2,
                                     tunit := every x.mask (BitVec.ofNat 64 (a / 32 * 32)), tpc := pc,
                                     resume := .clause pc, word := 0 }) (·.at_)
    | .wait w a =>
      let r := (upTo s a).serve i.fn i.slot a w
      (fs.foldl (fun s x => s.takeWait gid x.id x.mask [r.2] x.at_) r.1).noteParked gid
    | .words ws =>
      let s := ((read s (4 * ws.length)).cacheLeaf (s.team g.team).core i.fn i.slot pc.toNat).bump
      let w0 := (ws.getD 0 0).toNat
      if f.at_.mid.isNone && fOp w0 != 1 then
        s.startTrap gid fs (fun x => { fibre := x.id, lanes := x.mask, cause := 1, tsyn := BitVec.ofNat 64 w0, tpc := pc,
                                       resume := .clause (pc + 12), word := 0 }) fun _ => { pc := pc + 12 }
      else
        let s := fs.foldl (fun s x => s.modFibre gid x.id fun y => { y with kind := .run }) s
        let p := f.at_.mid.getD 0
        let again := batchReissue fs
        let it : Issue :=
          { group := gid, members := fs.map (·.id), clause := pc, words := ws, pos := (again.head?).elim p (·.1),
            groupStart := p, snap := s.group gid, fpsr0 := (s.group gid).fpsr, expn0 := (s.group gid).expn,
            region0 := ((s.team g.team).mode, (s.team g.team).limit), fflags := fs.map fun x => (x.id, s.flagBits gid x.id),
            seta := bits w0 8 4, setb := bits w0 4 4, safe := bits w0 3 1 == 1,
            only := (again.head?).map (·.2), reissue := again, resumePos := p,
            term := fs.filterMap fun x => x.at_.term.map fun t => (x.id, t) }
        let s : State := { s.setQuarter q { s.quarter q with issue := some it } with cur := q }
        if again.isEmpty && decide (ws.length ≤ p) then s.boundary else s

end Sys2Proof.Machine
end

