-- ==== Sys2Proof/Machine/Access.lean ====
section
/-!
DEFINITION. Accesses of threads to memory: addresses, the checks of spec/16 R344 and their outcomes, and the release at system
scope that waits for a flushing read (spec/08 R186; spec/02 R31).
-/

namespace Sys2Proof.Machine

open Sys2Proof

/-- Bytes of a width. -/
def widthBytes : Width → Nat
  | .b8 => 1
  | .b16 => 2
  | .b32 => 4
  | .b64 => 8
  | .b128 => 16

/-- Where a word's addresses lie: a space, or the slice of the lane (spec/16 R340). -/
inductive Target where
  | space (x : Space)
  | slice
deriving DecidableEq, Repr

/-- An access unit: its lanes, of which a vector word has one, and its address (spec/16 R341). -/
structure AUnit where
  lane : Nat
  lanes : List Nat
  ea : Word
deriving DecidableEq, Repr

/-- What the checks of an access unit find. -/
inductive Check where
  | ok (l : Loc)
  | trap (cause : Nat) (tsyn : Word)
  | wait (service : Nat)
  | stall
deriving DecidableEq, Repr

/-- The context's POISC rises by one (spec/07 R159). -/
def State.countPoison (s : State) : State :=
  s.modTele (s.ownerSlot s.myFn s.mySlot) fun t => { t with poisc := sat64 (t.poisc + 1) }

/-- %tsyn of the range-lock trap: the entry, and whether it is a destination range (spec/11 R247). -/
def lockSyn (e : Nat) (dst : Bool) : Word := BitVec.ofNat 64 (e + 128 * bnat dst)

/-- The range-lock check of an access of the word in hand (spec/08 R182). -/
def State.lockCheck (s : State) (space : Space) (a n : Nat) (write : Bool) (l : Loc) : Check :=
  match lockHit (s.coreAt s.myCore).locks s.mySlot space (s.lockOwner s.myTeam space) a n write with
  | some (e, dst) => .trap 8 (lockSyn e dst)
  | none => .ok l

/-- Translation and bound of `n` bytes at `a` (spec/16 R344); a walk that ends in poison is counted, and raises 0x09 (spec/07 R159; of a
table lost with its die or port, log 68). -/
def State.reach (s : State) (tgt : Target) (lane a n : Nat) (kind : AccKind) : State × Check :=
  match tgt with
  | .slice => (s, if a + n ≤ 64 then .ok (.slice s.it.group lane a) else .trap 7 2048)
  | .space .virt =>
    let t := s.walked s.myCore s.myFn s.mySlot a
    match s.translate s.myCore s.myFn s.mySlot a kind with
    | .ok dom key => (t.cacheLeaf s.myCore s.myFn s.mySlot a, .ok (.frame dom key))
    | .fail b | .barred b => (t, .trap 7 (BitVec.ofNat 64 (2 ^ b)))
    | .poison _ => (t.countPoison, .trap 9 1)
    | .stall => (t, .stall)
    | w =>
      let r := t.serve s.myFn s.mySlot a w
      (r.1, .wait r.2)
  | .space x => (s, (s.localLoc s.myTeam x a n).elim (.trap 7 2048) .ok)

/-- Translation and bound, and then the range lock, of `n` bytes at `a` (spec/16 R344; spec/11 R238). -/
def State.locate (s : State) (tgt : Target) (lane a n : Nat) (kind : AccKind) : State × Check :=
  let r := s.reach tgt lane a n kind
  match tgt, r.2 with
  | .space x, .ok l => (r.1, s.lockCheck x a n (kind == .write) l)
  | _, c => (r.1, c)

/-- The checks of one unit: alignment of its address, then the bytes from `off` on (spec/11 R238). -/
def State.check (s : State) (tgt : Target) (u : AUnit) (align off n : Nat) (kind : AccKind) : State × Check :=
  if u.ea.toNat % align ≠ 0 then (s, .trap 6 (BitVec.ofNat 64 align))
  else s.locate tgt u.lane (u.ea.toNat + off) n kind

/-- The units that pass their checks, and the traps and waits of the others. -/
structure Checked where
  st : State
  good : List (AUnit × Loc) := []
  traps : List LaneTrap := []
  waits : List (Nat × Nat) := []

/-- The address of the 32-byte unit that an access of a unit reads. -/
def AUnit.unitAddr (u : AUnit) (off : Nat) : Word := BitVec.ofNat 64 ((u.ea.toNat + off) / 32 * 32)

/-- The traps of a unit's lanes; %tunit is the lane's address, and for 0x09 that of the 32-byte unit accessed (spec/11 R247). -/
def AUnit.traps (u : AUnit) (off cause : Nat) (tsyn : Word) : List LaneTrap :=
  let a := if cause = 9 then u.unitAddr off else u.ea
  u.lanes.map fun l => { lane := l, cause := cause, tsyn := tsyn, tunit := a }

/-- The checks of every unit, before any access. -/
def State.checkAll (s : State) (tgt : Target) (us : List AUnit) (align off n : Nat) (kind : AccKind) : Checked :=
  us.foldl (fun c u =>
    let r := c.st.check tgt u align off n kind
    match r.2 with
    | .ok l => { c with st := r.1, good := c.good ++ [(u, l)] }
    | .trap k y =>
      { c with st := r.1, traps := c.traps ++ u.traps off k y }
    | .wait n => { c with st := r.1, waits := c.waits ++ u.lanes.map fun l => (l, n) }
    | .stall => { c with st := r.1.hold_ }) { st := s }

/-! ### Addresses and register groups (spec/13 R285; spec/16 R341) -/

/-- Fields of the operand literal; 0 without one. -/
def gOff (m : GAddr) : Word := m.lit.elim 0 fun l => l.off.signExtend 64
def gExt (m : GAddr) : Nat := m.lit.elim 0 fun l => l.ext.toNat

/-- A release at system scope. -/
def sysRelease (scope : Scope) (ord : Ord) : Bool := scope == .sys && (ord == .rel || ord == .ar)
/-- The scope and the ordering that a format-G word names. -/
def gSync (m : GAddr) : Scope × Ord := m.lit.elim (.fib, .none) fun l => (l.scope, l.ord)
def gRelease (m : GAddr) : Bool := sysRelease (gSync m).1 (gSync m).2

/-- The index register of a word. -/
def indexOp (idx : Fin 64) : List VArg := if idx.val = 63 then [] else [{ op := .dir idx }]

/-- s[BASE] + sext(v[IDX]) * n + OFF; `es` holds the index register, where there is one. -/
def effAddr (g : Group) (lane : Nat) (base : SReg) (es : List Nat) (n : Nat) (off : Word) : Word :=
  g.sreg base.val + (es.head?).elim 0 (fun e => (g.vreg lane e).signExtend 64 * BitVec.ofNat 64 n) + off

/-- The registers of a v group of `k` from `r` on: checked as a whole, with %tsyn of its first register (log 24). -/
def groupArgs (g : Group) (wb : Nat) (r : VNum) (k : Nat) : Except Word Nat :=
  if (List.range k).all fun i => regInside g wb (r.val + i) then .ok (wb + r.val) else .error (BitVec.ofNat 64 r.val)

/-- The lanes of a vector access with the group's first register and their units, or the traps 0x04 (spec/16 R342). -/
def vecUnits (it : Issue) (g : Group) (r : VNum) (k : Nat) (base : SReg) (idx : Fin 64) (scale : Nat) (off : Word) :
    Except (List LaneTrap) (Nat × List AUnit) :=
  match groupArgs g it.wb r k with
  | .error d => .error (trapLanes it.mask 4 d)
  | .ok e =>
    match resolveAll g it.wb 0 (indexOp idx) with
    | .error d => .error (trapLanes it.mask 4 d)
    | .ok es => .ok (e, (lanesOf it.mask).map fun l => { lane := l, lanes := [l], ea := effAddr g l base es scale off })

/-- The unit of a scalar access of a member. -/
def scalarUnit (m : Fibre) (g : Group) (base : SReg) (off : Word) : AUnit :=
  { lane := lowLane m.mask, lanes := lanesOf m.mask, ea := g.sreg base.val + off }

/-! ### A release at system scope (spec/08 R186; spec/02 R31) -/

/-- The lanes of some members. -/
def membersMask (ms : List Fibre) : Mask := ms.foldl (fun m f => m ||| f.mask) 0

/-- The writes to host memory that a release by some lanes of the group in hand covers, which no flushing read has followed yet (spec/08
R173, R186; log 25). -/
def State.coveredPosts (s : State) (m : Mask) : List PostedWrite :=
  (s.fn s.myFn).posted.filter fun p => (s.knows s.it.group m).contains p.at_

/-- The members whose release needs a flushing read first: it covers writes to host memory, and they have had none for it (spec/02 R31). -/
def State.flushers (s : State) (rel : Bool) (ms : List Fibre) : List Fibre :=
  if rel then ms.filter fun m => !m.flushed && !(s.coveredPosts m.mask).isEmpty else []

/-- A release of some members needs a flushing read first. -/
def State.flushDue (s : State) (rel : Bool) (ms : List Fibre) : Bool := !(s.flushers rel ms).isEmpty

/-- The flushing read of the releases of some members sent, to the address of the last write that they follow; the lanes that are to release
await it, each with the address of its releasing write. -/
def State.awaitFlush (s : State) (ms : List Fibre) (us : List (Nat × Word)) : State × List (Nat × Nat) :=
  let last := (s.coveredPosts (membersMask ms)).getLast?
  ({ s with
      nextId := s.nextId + 1,
      flushes := s.flushes.put s.nextId
        { fn := s.myFn, group := some s.it.group, slot := none, upTo := last.elim 0 (·.at_), irq := false, host := false, addr := 0,
          addrs := us, read := last.elim 0 (·.addr), value := 0 } },
    us.map fun u => (u.1, s.nextId))

/-- A release of some members made: the flushing read that they have had is spent. -/
def State.released (s : State) (rel : Bool) (ms : List Fibre) : State :=
  if rel then ms.foldl (fun s m => s.modFibre s.it.group m.id fun f => { f with flushed := false }) s else s

/-- The effect `k` of the units of an access that passed their checks; the members whose release needs a flushing read await it first. -/
def Checked.perform (c : Checked) (rel : Bool) (ms : List Fibre) (k : State → List (AUnit × Loc) → State) : MRes :=
  let due := c.st.flushers rel ms
  let late (u : AUnit × Loc) : Bool := due.any fun m => u.1.lanes.any fun l => m.mask.getLsbD l
  let held := c.good.filter late
  if held.isEmpty then { st := (k c.st c.good).released rel ms, traps := c.traps, waits := c.waits }
  else
    let r := c.st.awaitFlush due (held.flatMap fun u => u.1.lanes.map fun l => (l, u.1.ea))
    let now := c.good.filter fun u => !late u
    { st := if now.isEmpty then r.1 else (k r.1 now).released rel (ms.filter fun m => !due.any fun x => x.id == m.id)
      traps := c.traps, waits := c.waits ++ r.2 }

/-! ### Acquires (spec/07 R139; spec/08 R170) -/

/-- A scope of cluster or wider. -/
def wideScope (scope : Scope) : Bool :=
  match scope with
  | .fib | .grp | .team => false
  | .clu | .die | .dev | .dom | .sys => true

/-- An acquire that invalidates the L1. -/
def wideAcquire (scope : Scope) (ord : Ord) : Bool := wideScope scope && (ord == .acq || ord == .ar)
def gAcquire (m : GAddr) : Bool := wideAcquire (gSync m).1 (gSync m).2

/-- Where some lanes of one fibre stand for the word in hand (spec/08 R162). -/
def State.seat (s : State) (m : Mask) : Seat :=
  { team := s.myTeam, group := s.it.group, core := s.myCore,
    fibre := (s.it.snap.fibres.find? fun f => f.mask &&& m != 0).elim m (·.mask), lanes := m }

/-- The lanes of a unit. -/
def AUnit.mask (u : AUnit) : Mask := u.lanes.foldl (fun m l => m ||| laneBit l) 0

/-- Units read by the word in hand: what their values carry (spec/08 R171). -/
def State.readAll (s : State) (sync : Scope × Ord) (us : List (AUnit × Loc)) (n : Nat) : State :=
  us.foldl (fun s u => s.readMarks (s.seat u.1.mask) sync (s.marksSeen s.myCore u.2 n)) s

/-- The L1 of the core invalidated for an acquire, and left for any other access. -/
def State.acquired (s : State) (core : Nat) (acq : Bool) : State := if acq then s.clearL1 core else s

end Sys2Proof.Machine
end

