-- ==== Sys2Proof/Machine/Memory.lean ====
section
/-!
DEFINITION. Loads, stores, record moves, prefetch and cache maintenance (spec/16 R339 to R348).
-/

namespace Sys2Proof.Machine

open Sys2Proof

/-! ### Loads -/

/-- A read value extended to `to` bits (spec/16 R342). -/
def extended (sx : Bool) (n bits x : Nat) : Nat := if sx then wrap bits (signedOf (8 * n) x) else x

/-- v registers that an access of `n` bytes fills. -/
def vSlots (n : Nat) : Nat := if n ≤ 4 then 1 else n / 4

/-- The register writes of a lane's load of `n` bytes with value `x`. -/
def vLoadWrites (lane e n : Nat) (sx : Bool) (x : Nat) : List RegWrite :=
  if n ≤ 4 then [.v lane e (BitVec.ofNat 32 (extended sx n 32 x))]
  else (List.range (n / 4)).map fun k => .v lane (e + k) (BitVec.ofNat 32 (x / 4294967296 ^ k))

/-- The register writes of a scalar load. -/
def sLoadWrites (r n : Nat) (sx : Bool) (x : Nat) : List RegWrite :=
  if n = 16 then [.s r (BitVec.ofNat 64 x), .s (r + 1) (BitVec.ofNat 64 (x / 18446744073709551616))]
  else [.s r (BitVec.ofNat 64 (extended sx n 64 x))]

/-- What a load reads: the register writes that its completion makes, and the poisoned units read, by lane. -/
structure Loaded where
  st : State
  writes : List RegWrite := []
  poison : Tab Word := []

/-- The reads of the units that passed their checks, through the L1 and the die cache; a unit that reads poison writes no register and
is counted (spec/07 R139, R159). `rows` says which units come from their sectors as row slices (R145). -/
def readUnits (s : State) (us : List (AUnit × Loc)) (off n : Nat) (w : AUnit → Nat → List RegWrite)
    (rows : AUnit → Bool := fun _ => true) : Loaded :=
  us.foldl (fun r u =>
    let x := r.st.seenAt r.st.myCore u.2 n
    let st := r.st.readThrough r.st.myCore u.2 (rows u.1)
    if x.2 then { r with st := st.countPoison, poison := u.1.lanes.foldl (fun t l => t.put l (u.1.unitAddr off)) r.poison }
    else { r with st := st, writes := r.writes ++ w u.1 (leNat x.1) }) { st := s }

/-- The lanes of some units. -/
def unitLanes (us : List (AUnit × Loc)) : Mask := maskOf (us.flatMap fun u => u.1.lanes)

/-- The units checked and read, and the operation left in flight for the fibres `holders` (spec/06 R128, R129); `sync` are the scope and
the ordering that the word names, by which a wide acquire invalidates the L1 first. -/
def loadUnits (st : State) (it : Issue) (holders : List Nat) (flag : Option Nat) (sync : Scope × Ord) (tgt : Target) (us : List AUnit)
    (align off n : Nat) (w : AUnit → Nat → List RegWrite) : MRes :=
  let c := st.checkAll tgt us align off n .read
  let r := readUnits ((c.st.acquired c.st.myCore (wideAcquire sync.1 sync.2 && !c.good.isEmpty)).readAll sync c.good n) c.good off n w
  let o : Op :=
    { kind := .load, group := it.group, quarter := st.cur, flag := flag, holders := holders,
      lanes := unitLanes c.good, writes := r.writes, poison := r.poison }
  let s := r.st.bump
  { st := if c.good.isEmpty then s else s.addOp o, traps := c.traps, waits := c.waits }

/-- A vector load of `k` registers. -/
def vectorLoad (tgt : Target) (reg : VNum) (k : Nat) (m : GAddr) (align off n : Nat) (sel : Bool)
    (w : Nat → Nat → Nat → List RegWrite) (s : State) : Res :=
  accessWord s fun it g st =>
    match vecUnits it g reg k m.base m.idx align (gOff m) with
    | .error ts => { st := st, traps := ts }
    | .ok (e, us) => loadUnits st it it.members (it.flagOf sel) (gSync m) tgt us align off n fun u x => w u.lane e x

/-- A load of a width from a target; EXT[0] is SX. -/
def plainLoad (tgt : Target) (reg : VNum) (m : GAddr) (wd : Width) (sel : Bool) (s : State) : Res :=
  let n := widthBytes wd
  vectorLoad tgt reg (vSlots n) m n 0 n sel (fun lane e x => vLoadWrites lane e n (gExt m % 2 == 1) x) s

/-- VLD. -/
def execVld (reg : VNum) (m : GAddr) (w : Width) (sel : Bool) (s : State) : Res := plainLoad (.space .virt) reg m w sel s

/-- VLDS. -/
def execVlds (reg : VNum) (m : GAddr) (w : Width) (sel : Bool) (s : State) : Res := plainLoad (.space .sp) reg m w sel s

/-- VLDC. -/
def execVldc (reg : VNum) (m : GAddr) (w : Width) (sel : Bool) (s : State) : Res := plainLoad (.space .cm) reg m w sel s

/-- VLDD. -/
def execVldd (reg : VNum) (m : GAddr) (w : Width) (sel : Bool) (s : State) : Res := plainLoad (.space .ds) reg m w sel s

/-- VLDP. -/
def execVldp (reg : VNum) (m : GAddr) (w : Width) (sel : Bool) (s : State) : Res := plainLoad .slice reg m w sel s

/-- SLD: once for each member. -/
def execSld (reg : SReg) (m : GAddr) (w : Width) (sel : Bool) (s : State) : Res :=
  let n := widthBytes w
  accessEach s fun f g st =>
    loadUnits st s.it [f.id] (s.it.flagOf sel) (gSync m) (.space .virt) [scalarUnit f g m.base (gOff m)] n 0 n
      fun _ x => sLoadWrites reg.val n (gExt m % 2 == 1) x

/-! ### Stores -/

/-- The units checked, and their bytes written in order of lane, for the members `ms`, with the scope and the ordering that the word names
(spec/16 R343; spec/08 R167, R186). -/
def storeUnits (st : State) (sync : Scope × Ord) (ms : List Fibre) (tgt : Target) (us : List AUnit) (align off n : Nat) (x : AUnit → Nat) :
    MRes :=
  (st.checkAll tgt us align off n .write).perform (sysRelease sync.1 sync.2) ms fun s good =>
    (good.foldl (fun s u => (s.threadWrite s.myCore u.2 (leBytes n (x u.1))).writeMarks (s.seat u.1.mask) sync false u.2 n) s).bump

/-- `k` registers of a lane from `e` on, as one number. -/
def vSpanVal (g : Group) (lane e : Nat) : Nat → Nat
  | 0 => 0
  | k + 1 => (g.vreg lane e).toNat + 4294967296 * vSpanVal g lane (e + 1) k

/-- A vector store of `k` registers, of which those from `first` on hold the data. -/
def vectorStore (tgt : Target) (reg : VNum) (k first cnt : Nat) (m : GAddr) (align off n : Nat) (s : State) : Res :=
  accessWord s fun it g st =>
    match vecUnits it g reg k m.base m.idx align (gOff m) with
    | .error ts => { st := st, traps := ts }
    | .ok (e, us) => storeUnits st (gSync m) it.parts tgt us align off n fun u => vSpanVal g u.lane (e + first) cnt

/-- A store of a width. -/
def plainStore (tgt : Target) (reg : VNum) (m : GAddr) (wd : Width) (s : State) : Res :=
  let n := widthBytes wd
  vectorStore tgt reg (vSlots n) 0 (vSlots n) m n 0 n s

/-- VST. -/
def execVst (reg : VNum) (m : GAddr) (w : Width) (s : State) : Res := plainStore (.space .virt) reg m w s

/-- VSTS. -/
def execVsts (reg : VNum) (m : GAddr) (w : Width) (s : State) : Res := plainStore (.space .sp) reg m w s

/-- VSTC. -/
def execVstc (reg : VNum) (m : GAddr) (w : Width) (s : State) : Res := plainStore (.space .cm) reg m w s

/-- VSTD. -/
def execVstd (reg : VNum) (m : GAddr) (w : Width) (s : State) : Res := plainStore (.space .ds) reg m w s

/-- VSTP. -/
def execVstp (reg : VNum) (m : GAddr) (w : Width) (s : State) : Res := plainStore .slice reg m w s

/-- SST: once for each member. -/
def execSst (reg : SReg) (m : GAddr) (w : Width) (s : State) : Res :=
  let n := widthBytes w
  accessEach s fun f g st =>
    storeUnits st (gSync m) [f] (.space .virt) [scalarUnit f g m.base (gOff m)] n 0 n fun _ =>
      (g.sreg reg.val).toNat + (if n = 16 then 18446744073709551616 * (g.sreg (reg.val + 1)).toNat else 0)

/-! ### Records (spec/16 R346; spec/12 R271) -/

/-- The bytes that a field selection accesses: first and how many. -/
def recBytes (m : GAddr) : Nat × Nat :=
  match gExt m with
  | 0 => (0, 16)
  | 1 => (0, 12)
  | 2 => (12, 4)
  | _ => (4, 8)

/-- VLDR: registers that are not selected keep their values. -/
def execVldr (reg : VNum) (m : GAddr) (sel : Bool) (s : State) : Res :=
  let b := recBytes m
  let r := recSel m
  vectorLoad (.space .virt) reg 4 m 16 b.1 b.2 sel (fun lane e x =>
    (List.range r.2).map fun k => .v lane (e + r.1 + k) (BitVec.ofNat 32 (x / 4294967296 ^ k))) s

/-- VSTR. -/
def execVstr (reg : VNum) (m : GAddr) (s : State) : Res :=
  let b := recBytes m
  let r := recSel m
  vectorStore (.space .virt) reg 4 r.1 r.2 m 16 b.1 b.2 s

/-! ### Prefetch and cache maintenance (spec/16 R347, R348) -/

/-- The number of a line under a key slot. -/
def lineKey (dom key : Nat) : Nat := lineOf dom * 65536 + key

/-- PREF and CINV: their only check is that of the index register (spec/13 R284; spec/16 R347). `k` is what is done with the place that a
lane's address translates to, once for each line; a lane whose translation would fault is dropped, with poison counted (spec/07 R159), and a frame that moves, or
whose die is in reset, is waited for (spec/07 R148; spec/01 R26). -/
def indexedWord (m : GAddr) (s : State) (k : State → Nat → Nat → State) : Res :=
  accessWord s fun it g st =>
    match resolveAll g it.wb 0 (indexOp m.idx) with
    | .error d => { st := st, traps := trapLanes it.mask 4 d }
    | .ok es =>
      { st := ((lanesOf it.mask).foldl (fun (x : State × NatSet) l =>
          let a := (effAddr g l m.base es 1 (gOff m)).toNat
          let s := x.1.walked x.1.myCore x.1.myFn x.1.mySlot a
          match x.1.translate x.1.myCore x.1.myFn x.1.mySlot a .read with
          | .ok dom key => if x.2.contains (lineKey dom key) then (s, x.2) else (k s dom key, x.2.add (lineKey dom key))
          | .stall => (s.hold_, x.2)
          | .poison _ => (s.countPoison, x.2)
          | _ => (s, x.2)) (st, [])).1.bump }

/-- PREF.l1: the line comes into the core's L1. -/
def execPrefL1 (m : GAddr) (s : State) : Res := indexedWord m s fun s dom key => s.readThrough s.myCore (.frame dom key)

/-- PREF.l2: the line comes into the die cache, which holds no line of another package. -/
def execPrefL2 (m : GAddr) (s : State) : Res :=
  indexedWord m s fun s dom key => if s.isOwn dom then s.dirRead (dieOf s.myCore) key dom else s

/-- PREF.sc: the line's units come into their home store cache, as linear sectors; the home of another package is asked. -/
def execPrefSc (m : GAddr) (s : State) : Res :=
  indexedWord m s fun s dom key =>
    if s.isOwn dom then (s.evictOther key (lineOf dom)).touchRange key (lineOf dom * 128) 128 false else s.sendRequest key (lineOf dom * 128) .fetch

/-- CINV: the line is dropped from the core's L1. -/
def execCinv (m : GAddr) (s : State) : Res := indexedWord m s fun s dom _ => s.dropL1 s.myCore dom

/-- What CWB finds for a lane (spec/16 R348): the place of the line to write back, nothing to do, or a trap. The data's frame that is not
placed, rests where its entry forbids or finds no room completes the lane, and a table that cannot be read is a failure without remedy;
a frame that moves, or whose die is in reset, is waited for (spec/07 R148; spec/01 R26). -/
def cwbLane (s : State) (ea : Word) : State × Except LaneTrap (Option (Nat × Nat)) :=
  let t := s.walked s.myCore s.myFn s.mySlot ea.toNat
  match s.translate s.myCore s.myFn s.mySlot ea.toNat .read with
  | .ok dom key => (t.cacheLeaf s.myCore s.myFn s.mySlot ea.toNat, .ok (some (dom, key)))
  | .fail 12 | .cow .. | .place .. => (t, .ok none)
  | .fail b | .barred b => (t, .error { lane := 0, cause := 7, tsyn := BitVec.ofNat 64 (2 ^ b), tunit := ea })
  | .poison _ => (t.countPoison, .error { lane := 0, cause := 9, tsyn := 1, tunit := BitVec.ofNat 64 (ea.toNat / 32 * 32) })
  | .stall => (t.hold_, .ok none)

/-- What CWB has found for the lanes so far: the lines of this package to write back, those that another package's home has been asked to,
and the traps. -/
structure CwbLanes where
  st : State
  lines : NatSet := []
  asked : NatSet := []
  traps : List LaneTrap := []

/-- One lane more; lanes that name the same line act as one (spec/16 R347). -/
def CwbLanes.lane (x : CwbLanes) (l : Nat) (ea : Word) : CwbLanes :=
  match cwbLane x.st ea with
  | (s, .ok none) => { x with st := s }
  | (s, .error t) => { x with st := s, traps := x.traps ++ [{ t with lane := l }] }
  | (s, .ok (some (dom, key))) =>
    if s.isOwn dom then { x with st := s, lines := x.lines.add (lineOf dom) }
    else if x.asked.contains (lineKey dom key) then { x with st := s }
    else { x with st := s.sendRequest key (lineOf dom * 128) .clean, asked := x.asked.add (lineKey dom key) }

/-- CWB: its completion writes back the lines. -/
def execCwb (m : GAddr) (sel : Bool) (s : State) : Res :=
  accessWord s fun it g st =>
    match resolveAll g it.wb 0 (indexOp m.idx) with
    | .error d => { st := st, traps := trapLanes it.mask 4 d }
    | .ok es =>
      let r := (lanesOf it.mask).foldl (fun (x : CwbLanes) l => x.lane l (effAddr g l m.base es 1 (gOff m))) { st := st }
      let o : Op :=
        { kind := .cwb, group := it.group, quarter := st.cur, flag := it.flagOf sel, holders := it.members,
          lanes := it.mask, writes := [], lines := r.lines }
      { st := if r.traps.length = (lanesOf it.mask).length then r.st else r.st.addOp o, traps := r.traps }

end Sys2Proof.Machine
end

