-- ==== Sys2Proof/Machine/Atomic.lean ====
section
/-!
DEFINITION. Atomics (spec/16 R349 to R353; spec/08 R167, R177).
-/

namespace Sys2Proof.Machine

open Sys2Proof

/-- The new value of an atomic from the old value `m`, the operand `x` and, for .cas, the value `y` to store. -/
def atomNew (op : AOp) (wd : Bool) (m x y : Nat) : Nat :=
  let w := if wd then 64 else 32
  let f := if wd then fmtF64 else fmtF32
  match op with
  | .add => (m + x) % 2 ^ w
  | .and => m &&& x
  | .or => m ||| x
  | .xor => m ^^^ x
  | .min => if signedOf w m ≤ signedOf w x then m else x
  | .max => if signedOf w m ≤ signedOf w x then x else m
  | .minn => if m ≤ x then m else x
  | .maxn => if m ≤ x then x else m
  | .exch => x
  | .cas => if m = x then y else m
  | .fadd => (f.add .rne (f.val m) (f.val x)).1
  | .fmin => (f.pick false m x).1
  | .fmax => (f.pick true m x).1

/-- Bytes of an atomic. -/
def atomBytes (lit : ALit) : Nat := if lit.wd then 8 else 4

/-- An operand of an atomic's width from registers `k` values on: x, and for .cas the value to store. -/
def atomOperands (lit : ALit) (v : Nat → Nat) : Nat × Nat :=
  let one (k : Nat) : Nat := if lit.wd then v (2 * k) + 4294967296 * v (2 * k + 1) else v k
  (one 0, one 1)

/-- Where an atomic is performed (spec/08 R177). -/
inductive AtomPlace where
  | l1 | dieCache | home
deriving DecidableEq, Repr

/-- The place of an atomic by its scope. -/
def atomPlace (scope : Scope) : AtomPlace :=
  match scope with
  | .fib | .grp | .team => .l1
  | .clu | .die | .dev => .dieCache
  | .dom | .sys => .home

/-- What an atomic reads at its place. -/
def State.atomSees (s : State) (p : AtomPlace) (l : Loc) (n : Nat) : List Byte × Bool :=
  if p = .l1 then s.seenAt s.myCore l n else (s.readLoc l n, s.locPoisoned l n)

/-- The releases that the value read there carries. -/
def State.atomMarks (s : State) (p : AtomPlace) (l : Loc) (n : Nat) : List Mark :=
  if p = .l1 then s.marksSeen s.myCore l n else s.marksAt l n

/-- What the read of an atomic that makes no write leaves in the caches. -/
def State.atomRead (s : State) (p : AtomPlace) (l : Loc) (n : Nat) : State :=
  match p, l with
  | .l1, _ => s.readThrough s.myCore l
  | .dieCache, .frame dom key => s.fetchLine (dieOf s.myCore) key dom
  | .home, .frame .. => s.askLoc l n
  | _, _ => s

/-- The read and the write of an atomic: through the L1, to the line held in M, or at the home store cache; the old value comes from its sector
as a row slice where no die cache held it (spec/07 R145). An L1's copy that it passes by goes. -/
def State.atomWrite (s : State) (p : AtomPlace) (l : Loc) (bs : List Byte) : State :=
  match p, l with
  | .l1, _ => (s.readThrough s.myCore l).threadWrite s.myCore l bs
  | .dieCache, .frame dom key => ((s.fetchLine (dieOf s.myCore) key dom).threadWrite s.myCore l bs).dropL1 s.myCore dom
  | .home, .frame dom _ => (((s.evictRange dom bs.length).askLoc l bs.length).agentWrite l bs).dropL1 s.myCore dom
  | _, _ => s.writeLoc l bs

/-- An atomic of a thread on one unit of memory, with the operand `x` and for .cas the value `y`: the old value and whether it is poison,
which stops the write. On another package's memory its home performs it, under a tag of its own, and the old value is what the lane before
it at that place left, `left`, or else free (spec/02 R38, R39; spec/08 R167; log 14). -/
def State.atomOne (s : State) (lit : ALit) (l : Loc) (x y : Nat) (left : Option (Nat × Bool)) : State × Nat × Bool :=
  let n := atomBytes lit
  let there : Option (Nat × Nat) := match l with | .frame dom key => if s.isOwn dom then none else some (dom, key) | _ => none
  match there with
  | some (dom, key) =>
    let m := left.getD (leNat (s.seenAt 1152 l n).1, (s.seenAt 1152 l n).2)
    let new := if lit.aop = .cas then y else x
    ((({ s.bump with nextId := s.nextId + 1 } : State).sendRequest key dom
        (.atomic s.nextId lit.aop lit.wd (BitVec.ofNat 64 new) (BitVec.ofNat 64 x))).dropL1 s.myCore dom, m.1, m.2)
  | none =>
    let m := s.atomSees (atomPlace lit.scope) l n
    if m.2 then (s.atomRead (atomPlace lit.scope) l n, leNat m.1, true)
    else (s.atomWrite (atomPlace lit.scope) l (leBytes n (atomNew lit.aop lit.wd (leNat m.1) x y)), leNat m.1, false)

/-- The atomics of the units that passed their checks, in order of lane; a unit that reads poison makes no write. Beside the result stands
what the last lane at each place of frame space left there, a value or poison. An atomic continues the release sequence of the write before
it (spec/08 R171). -/
def atomUnits (s : State) (us : List (AUnit × Loc)) (lit : ALit) (ops : AUnit → Nat × Nat)
    (w : AUnit → Nat → List RegWrite) : Loaded :=
  (us.foldl (fun (r : Loaded × Tab (Nat × Bool)) u =>
    let x := ops u.1
    let at_ : Nat := match u.2 with | .frame dom _ => dom | _ => 0
    let n := atomBytes lit
    let sync := (lit.scope, lit.ord)
    let st := r.1.st.readMarks (r.1.st.seat u.1.mask) sync (r.1.st.atomMarks (atomPlace lit.scope) u.2 n)
    let a := st.atomOne lit u.2 x.1 x.2 (r.2.get? at_)
    if a.2.2 then
      ({ r.1 with st := a.1.countPoison, poison := u.1.lanes.foldl (fun t l => t.put l (u.1.unitAddr 0)) r.1.poison },
        r.2.put at_ (a.2.1, true))
    else ({ r.1 with st := a.1.writeMarks (st.seat u.1.mask) sync true u.2 n, writes := r.1.writes ++ w u.1 a.2.1 }, r.2.put at_ (atomNew lit.aop lit.wd a.2.1 x.1 x.2, false)))
    ({ st := s }, [])).1

/-- The units of an atomic checked as stores and performed for the members `ms`, and the operation left in flight. -/
def atomicUnits (st : State) (it : Issue) (ms : List Fibre) (sel : Bool) (space : Space) (us : List AUnit)
    (lit : ALit) (ops : AUnit → Nat × Nat) (w : AUnit → Nat → List RegWrite) : MRes :=
  let n := atomBytes lit
  (st.checkAll (.space space) us n 0 n .write).perform (sysRelease lit.scope lit.ord) ms fun s good =>
    let r := atomUnits (s.acquired s.myCore (wideAcquire lit.scope lit.ord && !good.isEmpty)) good lit ops w
    let o : Op :=
      { kind := .atomic, group := it.group, quarter := st.cur, flag := it.flagOf sel, holders := ms.map (·.id),
        lanes := unitLanes good, writes := r.writes, poison := r.poison }
    if good.isEmpty then r.st.bump else r.st.bump.addOp o

/-- VATOM and VRED: an access unit for each lane. -/
def vectorAtomic (a : VNum) (b : SReg) (idx : Fin 64) (space : Space) (sel : Bool) (lit : ALit) (old : Bool)
    (s : State) : Res :=
  accessWord s fun it g st =>
    match vecUnits it g a (atomRegs lit) b idx (atomBytes lit) (lit.off.signExtend 64) with
    | .error ts => { st := st, traps := ts }
    | .ok (e, us) =>
      atomicUnits st it it.parts sel space us lit
        (fun u => atomOperands lit fun k => (g.vreg u.lane (e + k)).toNat)
        (fun u m => if old then vLoadWrites u.lane e (atomBytes lit) false m else [])

/-- VATOM. -/
def execVatom (a : VNum) (base : SReg) (idx : Fin 64) (space : Space) (sel : Bool) (lit : ALit) (s : State) : Res :=
  vectorAtomic a base idx space sel lit true s

/-- VRED writes no register. -/
def execVred (a : VNum) (base : SReg) (idx : Fin 64) (space : Space) (sel : Bool) (lit : ALit) (s : State) : Res :=
  vectorAtomic a base idx space sel lit false s

/-- SATOM: once for each member. -/
def execSatom (a : SReg) (base : SReg) (space : Space) (sel : Bool) (lit : ALit) (s : State) : Res :=
  accessEach s fun m g st =>
    let cut (x : Word) : Nat := x.toNat % (if lit.wd then 18446744073709551616 else 4294967296)
    atomicUnits st s.it [m] sel space [scalarUnit m g base (lit.off.signExtend 64)] lit
      (fun _ => (cut (g.sreg a.val), cut (g.sreg (a.val + 1))))
      (fun _ x => [.s a.val (BitVec.ofNat 64 x)])

end Sys2Proof.Machine
end

