-- ==== Sys2Proof/Machine/Slots.lean ====
section
/-!
DEFINITION. Queue slots: messages to the host, errors and retirement of commands (spec/03 R54 to R57).
-/

namespace Sys2Proof.Machine

open Sys2Proof

/-- The function in whose range, in force, a global queue slot lies. -/
def State.slotOwner (s : State) (g : Nat) : Option Nat :=
  (s.fns.find? fun e => s.inForce e.1 && decide (e.2.qbase ≤ g ∧ g < e.2.qbase + e.2.qcount)).map (·.1)

/-- The function that owns a global queue slot; once its range is out of force, that whose range it is. -/
def State.slotFn (s : State) (g : Nat) : Nat :=
  ((s.slotOwner g).orElse fun _ =>
    (s.fns.find? fun e => decide (e.2.qbase ≤ g ∧ g < e.2.qbase + e.2.qcount)).map (·.1)).getD 0

/-- A slot stops fetching with an error; `skip` says that the command at QHEAD caused it (spec/03 R57). -/
def State.slotError (s : State) (g code : Nat) (skip : Bool) : State :=
  let x := s.slot g
  (s.setSlot g { x with err := code, skip := skip }).msi (s.slotFn g) x.vec

/-- A started command of a slot retires: a raised vector where IRQ asks for it. -/
def State.slotRetire (s : State) (g : Nat) (w : SlotWork) : State :=
  let x := s.slot g
  if x.busy.contains w then
    let irq := match w with | .launch _ b | .copy _ b _ | .signal _ b _ => b
    let s := s.setSlot g { x with busy := x.busy.erase w }
    if irq then s.msi (s.slotFn g) x.vec else s
  else s

/-- A started command of a slot fails: the slot stops with QHEAD at it, and RESUME goes on where fetching had come (spec/03 R57;
log 28). A slot that has stopped already keeps its error and its QHEAD, and the vector is raised. -/
def State.slotFail (s : State) (g : Nat) (w : SlotWork) (code : Nat) : State :=
  let x := s.slot g
  let i := match w with | .launch .. => x.qhead | .copy _ _ i | .signal _ _ i => i
  if !x.busy.contains w then s
  else
    let y := { x with busy := x.busy.erase w }
    if x.err ≠ 0 then (s.setSlot g y).msi (s.slotFn g) x.vec
    else (s.setSlot g { y with qhead := i, past := some x.qhead }).slotError g code true

end Sys2Proof.Machine
end

