-- ==== Sys2Proof/Machine/Service.lean ====
section
/-!
DEFINITION. The services of resolvable faults (spec/03 R63, R64; spec/07 R147, R148, R154), and the command processor's own accesses
to memory.
-/

namespace Sys2Proof.Machine

open Sys2Proof

/-! ### Handles, and the operations that wait for a service (spec/17 R380, R387) -/

def State.handle (s : State) (t h : Nat) : Handle := (s.team t).handles.getD h {}

def State.setHandle (s : State) (t h : Nat) (x : Handle) : State :=
  s.setTeam t { s.team t with handles := (s.team t).handles.put h x }

/-- A change of an operation. -/
def State.setEng (s : State) (id : Nat) (e : EngOp) : State := { s with engs := s.engs.put id e }

/-- The service that a copy or a product waits for, its handle, and FAULT as it stood before (spec/17 R387, R391). -/
def EngOp.pausedOn (e : EngOp) : Option (Nat × Nat × Bool) :=
  match e.kind with
  | .copy c => c.service.map fun n => (n, c.handle, c.faultBase)
  | .nmv o => o.service.map fun n => (n, o.handle, o.faultBase)
  | _ => none

/-- The operation waits for no service. -/
def EngOp.unpaused (e : EngOp) : EngOp :=
  match e.kind with
  | .copy c => { e with kind := .copy { c with service := none } }
  | .nmv o => { e with kind := .nmv { o with service := none } }
  | _ => e

/-- FAULT of the handle of an operation returns to what it was. -/
def State.restoreFault (s : State) (e : EngOp) : State :=
  match e.pausedOn with
  | some (_, h, f) => if e.team = 0 then s else s.setHandle e.team h { s.handle e.team h with fault := f }
  | none => s

/-- The operation waits for a service that ends. -/
def State.freed (s : State) (gone : Nat × Service → Bool) (e : EngOp) : Bool :=
  e.pausedOn.any fun p => s.services.any fun x => x.1 == p.1 && gone x

/-- Services end: the operations that each of them paused may go on, with FAULT as it stood before (spec/17 R387). -/
def State.served (s : State) (gone : Nat × Service → Bool) : State :=
  let t : State := { s with services := s.services.filter fun e => !gone e,
                            engs := s.engs.map fun e => (e.1, if s.freed gone e.2 then e.2.unpaused else e.2) }
  (s.engs.filter fun e => s.freed gone e.2).foldl (fun t e => t.restoreFault e.2) t

/-! ### Placement -/

/-- Where a frame comes to rest: the place offered, if the entry allows it, else the first allowed one with room that is in service. -/
def State.restPlace (s : State) (frame fn entry : Nat) (offer : Place) : Option Place :=
  let ok (p : Place) : Bool := allowedPlace s fn entry (frame * 65536) p && s.hasRoom p && !s.placeDown frame p
  if ok offer then some offer else allPlaces.find? ok

/-- A frame placed for the entry of an access, whose advice it takes; where no place has room, it stays where it is (spec/07 R147). -/
def State.placeFrame (s : State) (frame fn entry : Nat) (offer : Place) : State :=
  match s.restPlace frame fn entry offer with
  | some p => { s with placed := s.placed.put frame p, advice := s.advice.put frame (fn, entry) }
  | none => s

/-- The only places with room that an entry allows a frame are in reset: the access waits (spec/01 R26). -/
def State.restWaits (s : State) (frame fn entry : Nat) (offer : Place) : Bool :=
  (s.restPlace frame fn entry offer).isNone && allPlaces.any fun p => allowedPlace s fn entry (frame * 65536) p && s.hasRoom p

/-! ### Frames that the command processor takes (spec/03 R63; spec/11 R252) -/

/-- A frame taken and placed on the first stack with room that is in service. -/
def State.takeFrame (s : State) : Option (Nat × State) :=
  s.nextFrame.bind fun f => (s.upPlace f s.roomyStacks).map fun p => (f, { s with placed := s.placed.put f p })

/-- Frames that a function may still take under MEMQ (spec/03 R52). -/
def State.quotaLeft (s : State) (fn n : Nat) : Bool :=
  decide ((s.fn fn).memqUsed + n ≤ min (s.fn fn).memq 9216 * 16384)

/-! ### Copy-on-write (spec/03 R63) -/

/-- The 64 KiB at a domain address copied: the bytes as they read under the source's key, written under the destination's; poisoned units
stay poisoned. -/
def State.copyFrame (s : State) (srcKey dstKey src dst : Nat) : State :=
  let pois := (natsFrom 0 2048).filter fun i => s.poisoned (src + 32 * i)
  let bytes := s.readFrame srcKey src 65536
  let s := s.homeRead true srcKey src 65536
  pois.foldl (fun s i => s.poisonUnit (dst + 32 * i)) (s.homeWrite dstKey dst bytes)

/-- The entry rewritten by a service: the new frame, W = 1, COW = 0, KEY = OWNER and PKG = this package. -/
def cowEntry (e frame owner pkg : Nat) : Nat :=
  owner + frame * 65536 + pkg * 2 ^ 44 + fieldOf e 56 54 * 2 ^ 54 + 2 ^ 57 + fieldOf e 58 58 * 2 ^ 58
    + fieldOf e 63 60 * 2 ^ 60

/-- The entry of a page at its address in a table, under the key of its unit. -/
def State.entryAt (s : State) (entry : Nat) : Nat :=
  let a := s.dom entry
  leNat ((natsFrom a 8).map (s.plainByte ((s.units.get? (a / 32)).elim 0 (·.key))))

/-- An entry rewritten at the home directory. -/
def State.putEntry (s : State) (entry e : Nat) : State :=
  let s := s.evictLine (lineOf (s.dom entry))
  { s with mem := putBytes s.mem (s.dom entry) (leBytes 8 e) }.touchUnit ((s.units.get? (s.dom entry / 32)).elim 0 (·.slot)) (s.dom entry / 32) true

/-- A service finds the entry as the write found it. -/
def State.cowStands (s : State) (entry frame : Nat) : Bool :=
  let e := s.entryAt entry
  pteV e && !pteW e && pteCow e && ptePkg e * 70368744177664 + pteAddr e == frame

/-- A service waits for the source frame, for a place of it, or for the frame of the table (spec/01 R26; spec/07 R148). -/
def State.cowWaits (s : State) (fn entry frame : Nat) : Bool :=
  let n := frame % 70368744177664 / 65536
  let e := s.entryAt entry
  (s.isOwn frame && s.frameWaits n) || s.frameWaits (entry / 65536) || (s.cowStands entry frame && s.unrested fn e frame && s.restWaits n fn e (.stack 0))

/-- The source of a copy-on-write service comes to rest where its entry allows it, if it does not yet (spec/07 R147). -/
def State.restSource (s : State) (fn e frame : Nat) : State :=
  if s.unrested fn e frame then s.placeFrame (frame % 70368744177664 / 65536) fn e (.stack 0) else s

/-- The source of a service is this package's, or its package can still be reached; where it cannot, the write fails when it is made again
(spec/07 R152). -/
def State.cowReaches (s : State) (frame : Nat) : Bool := s.isOwn frame || s.reachable (frame / 70368744177664)

/-- A copy-on-write service made: frame, copy, entry, the translations cached of it dropped, COWS (spec/03 R63), its source at rest first
(spec/07 R147). Without a frame or quota, or without a place for the source, nothing is copied, and the write fails when it is made again.
Only the translations of the slot it serves are dropped (log 81). A frame once taken counts against MEMQ for good (log 106). -/
def State.cowDone (s : State) (slot fn entry frame srcKey : Nat) : State :=
  let e := s.entryAt entry
  let s := s.restSource fn e frame
  if !s.quotaLeft fn 1 || s.unrested fn e frame then s
  else
    match s.takeFrame with
    | none => s
    | some (f, s) =>
      let own := s.ownerSlot fn slot
      let s := s.copyFrame srcKey own frame (s.dom (65536 * f))
      let s := s.putEntry entry (cowEntry (s.entryAt entry) f (s.slot slot).owner s.pkg)
      let s := s.dropLeaves fun x => x.slot == slot && x.entry == entry
      let s := s.setFn fn { s.fn fn with memqUsed := (s.fn fn).memqUsed + 1 }
      s.modTele own fun t => { t with cows := sat64 (t.cows + 1) }

/-- A copy-on-write service ends: the copy is made where the entry still stands as the write found it. One that has to wait stays. Of an
entry that was written in between, what was written remains (spec/03 R64; log 97). -/
def State.cowEnd (s : State) (id : Nat) : State :=
  match s.services.get? id with
  | some (.cow slot fn entry frame _ key) =>
    let t := s.served fun e => e.1 == id
    if s.cowWaits fn entry frame then { s with stalled := true }
    else if s.cowStands entry frame && s.cowReaches frame then t.cowDone slot fn entry frame key
    else t
  | _ => s

/-- A copy-on-write service reads under key slot `k`, or writes under it. -/
def State.cowUnder (s : State) (k : Nat) : Service → Bool
  | .cow slot fn _ _ _ key => key == k || s.ownerSlot fn slot == k
  | .place .. => false

/-- The copy-on-write services under a key slot made: they are past translation (spec/03 R62 step 2). -/
def State.endCows (s : State) (k : Nat) : State :=
  (s.services.filter fun e => s.cowUnder k e.2).foldl (fun s e => s.cowEnd e.1) s

/-- What a walk asks for, done at once for an access of the command processor itself (log 31): a service of the same page that is under
way is the one made (spec/03 R64). -/
def State.serveNow (s : State) (fn slot va : Nat) : Walk → State
  | .cow entry frame key =>
    (s.served fun e => e.2.sharesPage slot va).cowDone slot fn entry frame key
  | .place frame e => s.placeFrame frame fn e (.stack 0)
  | _ => s

/-! ### Accesses of the command processor (spec/04 R68, R69, R86) -/

/-- A place in a context for bytes that lie in one page, its faults served; none where it cannot be reached, or where the access must
wait. -/
def State.cpPlace (fn slot va : Nat) (kind : AccKind) : Nat → State → State × Option (Nat × Nat)
  | 0, s => (s, none)
  | fuel + 1, s =>
    let t := s.walked 1152 fn slot va
    match walk s fn slot va kind with
    | .ok dom key => (t, some (dom, key))
    | .fail _ | .barred _ | .poison _ => (t, none)
    | .stall => ({ t with stalled := true }, none)
    | .cow entry frame key =>
      if s.cowWaits fn entry frame then ({ t with stalled := true }, none)
      else State.cpPlace fn slot va kind fuel (t.serveNow fn slot va (.cow entry frame key))
    | .place frame e =>
      if s.restWaits frame fn e (.stack 0) then ({ t with stalled := true }, none)
      else State.cpPlace fn slot va kind fuel (t.serveNow fn slot va (.place frame e))

/-- Bytes read by the command processor; none where they cannot be read or hold poison. -/
def State.cpRead (s : State) (fn slot va n : Nat) : State × Option (List Byte) :=
  let r := State.cpPlace fn slot va .read 8 s
  match r.2 with
  | none => (r.1, none)
  | some (dom, key) =>
    let s := r.1.homeRead true key dom n
    if r.1.rangePoisoned dom n then (s, none) else (s.bump, some (r.1.readFrame key dom n))

/-- Bytes written by the command processor, where they can be; they carry the releases `ms`. -/
def State.cpWrite (s : State) (fn slot va : Nat) (bs : List Byte) (ms : List Mark := []) : State × Bool :=
  let r := State.cpPlace fn slot va .write 8 s
  match r.2 with
  | none => (r.1, false)
  | some (dom, key) => ((r.1.homeWrite key dom bs).setMarks (.frame dom key) bs.length ms, true)

end Sys2Proof.Machine
end

