-- ==== Sys2Proof/Machine/Engine.lean ====
section
/-!
DEFINITION. What the engine words share: convergence (spec/06 R121), the command queue (spec/17 R366), range locks of operations
(spec/08 R182, R183), accesses of engines, handles (spec/17 R380), telemetry (spec/03 R65; spec/09 R209, R210), and tensor
addresses (spec/17 R370).
-/

namespace Sys2Proof.Machine

open Sys2Proof

/-! ### Collective words (spec/06 R121) -/

/-- %tsyn of the illegal-convergence trap (spec/11 R247). -/
def convergenceSyn (it : Issue) : Word :=
  BitVec.ofNat 64 (it.mask.toNat + 4294967296 * bnat (decide (1 < it.members.length)))

/-- A run that needs a single fibre of all 32 lanes. -/
def converged (f : Issue → Group → State → MRes) (it : Issue) (g : Group) (st : State) : MRes :=
  if it.parts.length = 1 ∧ it.mask = allLanes then f it g st
  else { st := st, traps := trapLanes it.mask 5 (convergenceSyn it) }

/-- A collective word. -/
def collective (s : State) (f : Issue → Group → State → MRes) : Res := batchWord s (converged f)

/-- A collective word that translates addresses. -/
def collectiveAccess (s : State) (f : Issue → Group → State → MRes) : Res := accessWord s (converged f)

/-- Every lane traps. -/
def trapAll (st : State) (it : Issue) (cause : Nat) (tsyn : Word) (tunit : Word := 0) : MRes :=
  { st := st, traps := trapLanes it.mask cause tsyn tunit }

/-! ### Telemetry -/

/-- Die counters of R210 by index. -/
def State.countDie (s : State) (d i : Nat) : State :=
  let x := s.dieAt d
  s.setDie d { x with counters := x.counters.put i (sat64 (x.counters.getD i 0 + 1)) }

/-- The counters of R209 and R210 that a tile product raises. -/
inductive Tally where
  | corr | reiss | escal | unlacc | sdet | audmm | tplow | tpvg
deriving DecidableEq, Repr

def Tally.index : Tally → Nat
  | .corr => 0
  | .reiss => 1
  | .escal => 2
  | .unlacc => 3
  | .sdet => 4
  | .audmm => 5
  | .tplow => 6
  | .tpvg => 7

/-- One more in a telemetry block. -/
def Tally.bump (k : Tally) (t : Telemetry) : Telemetry :=
  match k with
  | .corr => { t with corr := sat64 (t.corr + 1) }
  | .reiss => { t with reiss := sat64 (t.reiss + 1) }
  | .escal => { t with escal := sat64 (t.escal + 1) }
  | .unlacc => { t with unlacc := sat64 (t.unlacc + 1) }
  | .sdet => { t with sdet := sat64 (t.sdet + 1) }
  | .audmm => { t with audmm := sat64 (t.audmm + 1) }
  | .tplow => { t with tplow := sat64 (t.tplow + 1) }
  | .tpvg => { t with tpvg := sat64 (t.tpvg + 1) }

/-- A count charged to the OWNER slot of an operation's context and to its die. -/
def State.tally (s : State) (e : EngOp) (k : Tally) : State :=
  (s.modTele (s.ownerSlot e.fn e.slot) k.bump).countDie (dieOf e.core) k.index

/-- POISC of an operation's context. -/
def State.engPoison (s : State) (e : EngOp) : State :=
  s.modTele (s.ownerSlot e.fn e.slot) fun t => { t with poisc := sat64 (t.poisc + 1) }

/-! ### The command queue and the locks of an operation -/

/-- A range that an operation locks; nothing for an empty one. -/
structure LockReq where
  space : Space
  owner : Nat
  first : Nat
  len : Nat
  dst : Bool
deriving DecidableEq, Repr

/-- The lock-table entries registered for an operation. -/
def State.lockAll (s : State) (core slot op : Nat) (ls : List LockReq) : State :=
  ls.foldl (fun s l =>
    if l.len = 0 then s
    else s.lock core { op := op, slot := slot, space := l.space, team := l.owner, first := l.first,
                       last := l.first + l.len - 1, dst := l.dst, since := s.nextId }) s

/-- The queue of a core takes an entry or refuses it; a refused entry holds back the later ones (spec/17 R366). -/
def State.enqueue (s : State) (core op : Nat) : State × Bool :=
  let c := s.coreAt core
  if c.refused.isEmpty && decide (c.queue.length < 32) then
    (s.setCore core { c with queue := c.queue ++ [op] }, true)
  else
    (s.setCore core { c with refused := c.refused ++ [op], backoff := if c.refused.isEmpty then 64 else c.backoff },
      false)

/-- The generation tags of the scratchpads that a team's words can name: those of its cluster set (spec/07 R136). -/
def State.setTags (s : State) (t : Nat) : List (Nat × Nat) :=
  (s.teams.filter fun e => e.2.setNumber == (s.team t).setNumber && !e.2.ended && !e.2.stopped).map fun e => (e.1, e.2.gen)

/-- An engine operation of the word in hand put into the queue; `holders` are the fibres that hold its flag. -/
def State.addEng (s : State) (k : EngKind) (flag : Option Nat) (holders : List Nat) (ls : List LockReq) : State :=
  let id := s.nextId
  let core := s.myCore
  let s := { s with nextId := id + 1 }
  let r := s.enqueue core id
  let e : EngOp :=
    { kind := k, core := core, team := s.myTeam, slot := s.mySlot, fn := s.myFn, group := s.it.group, flag := flag,
      holders := holders, tags := s.setTags s.myTeam, started := r.2 }
  ({ r.1 with engs := r.1.engs.put id e }).lockAll core s.mySlot id ls

/-- A reduction's operation, which takes no entry of the command queue. -/
def State.addFree (s : State) (k : EngKind) (flag : Option Nat) (holders : List Nat) (ls : List LockReq) : State :=
  let id := s.nextId
  let e : EngOp :=
    { kind := k, core := s.myCore, team := s.myTeam, slot := s.mySlot, fn := s.myFn, group := s.it.group, flag := flag,
      holders := holders, tags := s.setTags s.myTeam }
  ({ s with nextId := id + 1, engs := s.engs.put id e }).lockAll s.myCore s.mySlot id ls

/-- A run that registers some ranges: the word is held until the lock table has an entry free for each that is not empty (spec/08 R182). -/
def withRoom (s : State) (ls : List LockReq) (r : MRes) : MRes :=
  if 128 < (s.coreAt s.myCore).locks.length + (ls.filter fun l => l.len != 0).length then { st := s.hold_ } else r

/-- An operation ended: it leaves its queue and releases its locks. -/
def State.dropEng (s : State) (id : Nat) : State :=
  match s.engs.get? id with
  | none => s
  | some e =>
    let c := s.coreAt e.core
    let s := s.setCore e.core { c with queue := c.queue.filter (fun q => q != id),
                                       refused := c.refused.filter (fun q => q != id) }
    ({ s with engs := s.engs.erase id }).unlock id

/-- The tile that a matrix operation names. -/
def engTile : EngKind → Option Nat
  | .mma m => some m.tile
  | .move (.load t _ _) | .move (.store t _ _ _) | .move (.read t _ _) | .move (.write t _ _) | .move (.zero t) => some t
  | _ => none

/-! ### Accesses of engines -/

/-- The bit of %tsyn that an access-violation trap of a walk's end sets (spec/11 R247). -/
def Walk.bit : Walk → Nat
  | .fail b | .barred b => b
  | .ok .. | .poison _ | .cow .. | .place .. | .stall => 0

/-- Where an engine's access of bytes within one unit lands. -/
inductive EngAcc where
  | ok (l : Loc)
  | fault (w : Walk)
  | poison
  | wait (w : Walk)
deriving DecidableEq, Repr

/-- An access of an operation that a team on a core issued in the context of a slot. -/
def State.engAcc (s : State) (fn slot team core : Nat) (space : Space) (a n : Nat) (kind : AccKind) : EngAcc :=
  match space with
  | .virt =>
    match s.translate core fn slot a kind with
    | .ok dom key => .ok (.frame dom key)
    | .fail b => .fault (.fail b)
    | .barred b => .fault (.barred b)
    | .poison _ => .poison
    | w => .wait w
  | x =>
    match s.localLoc team x a n with
    | some (.die _ off) => .ok (.die (dieOf core) off)
    | some l => .ok l
    | none => .fault (.fail 11)

/-- Bytes that an operation reads, unit by unit, with the first poisoned unit met; a unit that cannot be read gives unspecified
bytes (log 27). -/
def State.engRead (s : State) (e : EngOp) (space : Space) : Nat → Nat → Nat → List Byte × Option Nat
  | 0, _, _ => ([], none)
  | fuel + 1, a, n =>
    if n = 0 then ([], none)
    else
      let k := min n (32 - a % 32)
      let here : List Byte × Option Nat :=
        match s.engAcc e.fn e.slot e.team e.core space a k .read with
        | .ok l => (s.readLoc l k, if s.locPoisoned l k then some (a / 32 * 32) else none)
        | .poison => ((natsFrom a k).map (Config.freeByte s.free), some (a / 32 * 32))
        | _ => ((natsFrom a k).map (Config.freeByte s.free), none)
      let rest := s.engRead e space fuel (a + k) (n - k)
      (here.1 ++ rest.1, here.2.orElse fun _ => rest.2)

/-- `n` bytes read by an operation. -/
def State.engBytes (s : State) (e : EngOp) (space : Space) (a n : Nat) : List Byte × Option Nat :=
  s.engRead e space (n + 1) a n

/-- An allocation still carries the tag that an operation named (spec/07 R136): its team holds it and has not been stopped, or has ended
with something of its own in progress (spec/06 R116). -/
def State.tagged (s : State) (t gen : Nat) : Bool :=
  let x := s.team t
  x.gen == gen && !x.stopped && (!x.ended || s.engs.any fun e => e.2.team == t)

/-- A place that an operation may write: a scratchpad whose tag has changed since is lost. -/
def State.mayWrite (s : State) (e : EngOp) (l : Loc) : Bool :=
  match l with
  | .scratch m _ => e.tags.any fun x => x.1 == m && s.tagged m x.2
  | .frame .. | .die .. | .slice .. => true

/-- The cores whose L1 shows an operation's writes: its own, and that on which its team runs. -/
def State.engCores (s : State) (e : EngOp) : List Nat := if e.team = 0 then [] else [e.core, (s.team e.team).core]

/-- Bytes that an operation writes to a local level or to frame space that it can reach; what it cannot reach is left. -/
def State.engWrite (s : State) (e : EngOp) (space : Space) : Nat → Nat → List Byte → State
  | 0, _, _ => s
  | fuel + 1, a, bs =>
    if bs.isEmpty then s
    else
      let k := min bs.length (32 - a % 32)
      let s := match s.engAcc e.fn e.slot e.team e.core space a k .write with
        | .ok l => if s.mayWrite e l then s.engineWrite (s.engCores e) l (bs.take k) else s
        | _ => s
      s.engWrite e space fuel (a + k) (bs.drop k)

/-! ### Local offsets checked at issue (spec/17 R377, R387) -/

/-- A range of a local level lies within its bound (spec/16 R345). -/
def State.localRange (s : State) (space : Space) (off : Word) (n : Nat) : Bool :=
  n == 0 || (s.localLoc s.myTeam space off.toNat n).isSome

/-- The space of a matrix word. -/
def lspace : LSpace → Space
  | .sp => .sp
  | .cm => .cm
  | .ds => .ds

/-! ### Handles (spec/17 R380) -/

/-- The code of a handle's state. -/
def hsCode : HState → Nat
  | .free => 0
  | .filling => 1
  | .full => 2
  | .draining => 3

/-- The word that HSTAT reads (spec/17 R380). -/
def Handle.image (h : Handle) : Word :=
  BitVec.ofNat 64 (hsCode h.state + 4 * bnat h.fault + 8 * bnat h.sumbad + 16 * bnat h.gone + 32 * bnat h.late
    + 64 * bnat h.isRed + 65536 * (h.round % 65536) + 4294967296 * h.sum.toNat)

/-- %tsyn of the handle-state error (spec/11 R247). -/
def handleSyn (h : Nat) (x : Handle) : Word := BitVec.ofNat 64 (h + 256 * hsCode x.state)

/-- The handle-state error in every lane of a member. -/
def handleError (st : State) (m : Fibre) (h : Nat) (x : Handle) : MRes :=
  { st := st, traps := trapLanes m.mask 10 (handleSyn h x) }

/-- Fibres of a team parked in HWAIT or RED.WAIT on a handle go on. -/
def State.wakeHandle (s : State) (t h : Nat) : State :=
  s.wakeWhere (fun gid _ w => (s.group gid).team == t && (w == .handle h || w == .red h)) id

/-- Status bits cleared, with the fill pointer and SUM at given values. -/
def Handle.fresh (h : Handle) (fill : Nat) (sum : W32) : Handle :=
  { h with fault := false, sumbad := false, gone := false, late := false, run := false, fill := fill, sum := sum }

/-- An operation whose handle is DRAINING stands at a 4 KiB boundary of its destination, `a` being the next byte (spec/17 R383). -/
def State.atBoundary (s : State) (e : EngOp) (h a : Nat) : Bool :=
  e.team != 0 && (s.handle e.team h).state == .draining && a % 4096 == 0

/-- A handle made FULL, and its waiters woken. -/
def State.fillHandle (s : State) (t h : Nat) (x : Handle) : State :=
  (s.setHandle t h { x with state := .full, op := none }).wakeHandle t h

/-- A handle made FREE, and its waiters woken; a fibre parked on it in RED.WAIT goes on (log 86). -/
def State.freeHandle (s : State) (t h : Nat) (x : Handle) : State :=
  (s.setHandle t h { x with state := .free, op := none, isRed := false, tape := none }).wakeHandle t h

/-! ### Tensor addresses (spec/17 R370) -/

/-- Stored lines of a tensor, and elements of a line; `nib` says that elements are 4 bits wide. -/
def dLines (d : BitVec 256) (nib : Bool) : Nat :=
  if dTrans d then dColb d / dWidth d * (if nib then 2 else 1) else dRows d

def dLineLen (d : BitVec 256) (nib : Bool) : Nat :=
  if dTrans d then dRows d else dColb d / dWidth d * (if nib then 2 else 1)

/-- Row and element-within-row of element `e` of line `l`. -/
def dPlace (d : BitVec 256) (l e : Nat) : Nat × Nat := if dTrans d then (e, l) else (l, e)

/-- The byte offset of an element within its row. -/
def dByte (d : BitVec 256) (nib : Bool) (e : Nat) : Nat := if nib then e / 2 else e * dWidth d

/-- An element is stored (spec/17 R370). -/
def dInside (d : BitVec 256) (nib : Bool) (r e : Nat) : Bool :=
  decide (r < dRows d) && decide (dByte d nib e + dWidth d ≤ dColb d)

/-- The address of an element. -/
def dAddr (d : BitVec 256) (nib : Bool) (r e : Nat) : Nat := dBase d + r * dPitch d + dByte d nib e

/-- The sector that an element lies in, as one number. -/
def tileKey (d : BitVec 256) (nib : Bool) (p : Nat × Nat) : Nat := p.1 / 32 * 4294967296 + dByte d nib p.2 / 32

/-- The slice reads that some elements (row and element within the row) of a tensor take, sector by sector: by rows, or by element columns
(spec/07 R143, R145). -/
def State.readSlices (s : State) (core fn g : Nat) (d : BitVec 256) (nib column : Bool) (es : List (Nat × Nat)) : State :=
  ((es.map (tileKey d nib)).foldl NatSet.add []).foldl (fun s k =>
    let mine := es.filter fun p => tileKey d nib p == k
    let n := ((mine.map fun p => if column then dByte d nib p.2 else p.1).foldl NatSet.add []).length
    s.readTile core fn g (dTid d) (dBase d) (dPitch d) (k / 4294967296) (k % 4294967296) n column) s

/-- The elements of a tensor read as slices, and by linear reads, unit by unit, where their tile is not held under a tag; those of another
package are asked for (spec/07 R143, R152). -/
def State.fetchElems (s : State) (core fn g : Nat) (d : BitVec 256) (nib column : Bool) (es : List (Nat × Nat)) : State :=
  let es := es.filter fun p => dInside d nib p.1 p.2
  let tagged (s : State) (p : Nat × Nat) : Bool :=
    (s.tileUnits fn g (dTid d) (dBase d) (dPitch d) (p.1 / 32) (dByte d nib p.2 / 32)).isSome
  let units (l : List (Nat × Nat)) : NatSet := (l.map fun p => dAddr d nib p.1 p.2 / 32).foldl NatSet.add []
  let s := s.readSlices core fn g d nib column es
  let s := (units (es.filter (tagged s))).foldl (fun s u => s.askRange false core fn g (32 * u) 32) s
  (units (es.filter fun p => !tagged s p)).foldl (fun s u => s.askRange true core fn g (32 * u) 32) s

/-! ### Scale planes (spec/17 R375) -/

/-- Elements in a group or block of a scale plane. -/
def groupLen (fmt : MmaFmt) (d : BitVec 256) : Nat := if fmt = .e2m1 then 32 else 32 * 2 ^ dQg d

/-- The address of a line's scale entry for group `k`. -/
def scaleAddr (fmt : MmaFmt) (d : BitVec 256) (l k : Nat) : Nat :=
  let n := (dLineLen d (mmaNibble fmt) + groupLen fmt d - 1) / groupLen fmt d
  dSplane d + (if fmt = .e2m1 then 1 else 4) * (l * n + k)

/-- The span of `k` lines of a scale plane from line `l` on: first byte and length. -/
def planeSpan (fmt : MmaFmt) (d : BitVec 256) (l k : Nat) : Nat × Nat :=
  (scaleAddr fmt d l 0, scaleAddr fmt d (l + k) 0 - scaleAddr fmt d l 0)

/-- The element format of an NMV's W. -/
def nmvMma : NmvFmt → MmaFmt
  | .e4m3 => .e4m3
  | .bf16 => .bf16
  | .q8 => .q8
  | .q4 => .q4

/-- What an operation reads beside its lock entries: scale planes, and the record of a correction area. -/
def EngKind.planes : EngKind → List (Nat × Nat)
  | .mma m => if m.gt && mmaScaled m.fmt then [planeSpan m.fmt m.aDesc (64 * m.i) 64, planeSpan m.fmt m.bDesc (64 * m.j) 64] else []
  | .nmv n => if mmaScaled (nmvMma n.fmt) then [planeSpan (nmvMma n.fmt) n.desc 0 (dRows n.desc)] else []
  | .corr c => if c.rec_.isSome then [(c.area, c.len)] else []
  | _ => []

/-! ### Operations that wait for others (spec/08 R183; spec/17 R367) -/

/-- A range of bytes by the storage that holds it: 0 virtual addresses of a context, 1 frame space, 2 the scratchpads of a cluster set,
3 a die scratchpad. -/
structure ByteRange where
  kind : Nat
  owner : Nat
  first : Nat
  last : Nat
  dst : Bool
deriving DecidableEq, Repr

/-- Two ranges name a byte in common that one of them writes. -/
def ByteRange.clash (x y : ByteRange) : Bool :=
  x.kind == y.kind && x.owner == y.owner && decide (x.first ≤ y.last) && decide (y.first ≤ x.last) && (x.dst || y.dst)

/-- A virtual range of a context, and where it lies in frame space. -/
def State.virtRanges (s : State) (fn slot a n : Nat) (dst : Bool) : List ByteRange :=
  { kind := 0, owner := slot, first := a, last := a + n - 1, dst := dst } ::
    (s.rangeFrames fn slot a n).map fun p => { kind := 1, owner := 0, first := p.1, last := p.1 + p.2 - 1, dst := dst }

/-- The bytes that a lock entry stands for, as it was registered. -/
def State.lockRanges (s : State) (fn : Nat) (l : LockEntry) : List ByteRange :=
  let n := l.last + 1 - l.start
  match l.space with
  | .virt => s.virtRanges fn l.slot l.start n l.dst
  | .sp =>
    let x := s.team l.team
    let base := 524288 * x.csetMember
    [{ kind := 2, owner := x.setNumber, first := base + l.start, last := base + l.last, dst := l.dst }]
  | .cm => [{ kind := 2, owner := l.team, first := l.start, last := l.last, dst := l.dst }]
  | .ds => [{ kind := 3, owner := 0, first := l.start, last := l.last, dst := l.dst }]

/-- The bytes that an operation of a core reads and writes. -/
def State.engRanges (s : State) (id : Nat) (e : EngOp) : List ByteRange :=
  ((s.coreAt e.core).locks.filter fun l => l.2.op == id).flatMap (fun l => s.lockRanges e.fn l.2)
    ++ e.kind.planes.flatMap fun p => s.virtRanges e.fn e.slot p.1 p.2 false

/-- Two operations of one team name the same tile; an audit takes no part. -/
def EngOp.sameTile (x y : EngOp) : Bool :=
  x.team == y.team && (engTile x.kind).isSome && engTile x.kind == engTile y.kind
    && (match x.kind with | .mma m => !m.audited | _ => true)

/-- The lock entries of a core that bound reductions hold: they stand for no operation of its own (spec/10 R221). -/
def State.bindingLocks (s : State) (core : Nat) : List LockEntry :=
  ((s.coreAt core).locks.map Prod.snd).filter fun l => (s.engs.get? l.op).isNone

/-- An operation and the bytes of a bound reduction's lock entry conflict. -/
def State.clashes (s : State) (id : Nat) (e : EngOp) (l : LockEntry) : Bool :=
  (s.lockRanges (s.slotFn l.slot) l).any fun a => (s.engRanges id e).any a.clash

/-- Two lock ids are of one binding of a reduction handle: that of its area, which is even, and that of its DST after it. -/
def sameBinding (x y : Nat) : Bool := x / 2 == y / 2

/-- The operation is part of the binding that holds a lock entry: its contribution or its RED.CORR. -/
def EngOp.ofBinding (e : EngOp) (l : LockEntry) : Bool :=
  match e.kind with
  | .sub c => c.bind.any (sameBinding l.op)
  | .corr c => c.bind.any (sameBinding l.op)
  | _ => false

/-- An operation must wait: its entry is refused, an earlier operation on its tile is in progress (spec/17 R367), or an earlier
one of its core, or a reduction bound before it, conflicts with it (spec/08 R181, R183; log 69). -/
def State.engWaits (s : State) (id : Nat) (e : EngOp) : Bool :=
  !e.started
    || (s.engs.any fun x =>
      decide (x.1 < id) &&
        (x.2.sameTile e || (x.2.core == e.core && (s.engRanges x.1 x.2).any fun a => (s.engRanges id e).any a.clash)))
    || (s.bindingLocks e.core).any fun l => decide (l.since ≤ id) && !e.ofBinding l && s.clashes id e l

/-- A bound reduction's lock entry `l` and one of another reduction bound before it on its core conflict. -/
def State.bindingClash (s : State) (l k : LockEntry) : Bool :=
  decide (k.since < l.since) && !sameBinding k.op l.op
    && (s.lockRanges (s.slotFn k.slot) k).any fun a => (s.lockRanges (s.slotFn l.slot) l).any a.clash

/-- A write of a bound reduction under its lock `op` must wait for an operation of its core that was issued before it and conflicts with
it, or for a reduction bound before it that does (spec/08 R181, R183; log 69). -/
def State.bindingWaits (s : State) (op : Nat) : Bool :=
  (s.engs.any fun x => (s.bindingLocks x.2.core).any fun l =>
    l.op == op && decide (x.1 < l.since) && !x.2.ofBinding l && s.clashes x.1 x.2 l)
    || s.cores.any fun c => (s.bindingLocks c.1).any fun l => l.op == op && (s.bindingLocks c.1).any (s.bindingClash l)

end Sys2Proof.Machine
end

