-- ==== Sys2Proof/Machine/Sync.lean ====
section
/-!
DEFINITION. FENCE, WAITM and the barriers (spec/16 R354 to R364; legality of waits, spec/05 R97, R98).
-/

namespace Sys2Proof.Machine

open Sys2Proof

/-- FENCE: every store is accepted in its own step, so a release has only the flushing read of system scope to wait for; an acquire of
cluster scope or wider invalidates the core's L1 (spec/16 R355; log 9). -/
def execFence (scope : Scope) (ord : Ord) (s : State) : Res :=
  let rel := sysRelease scope ord
  batchWord s fun it _ st =>
    let due := st.flushers rel it.parts
    let now := it.parts.filter fun m => !due.any fun x => x.id == m.id
    let r := if due.isEmpty then (st, []) else st.awaitFlush due ((lanesOf (membersMask due)).map fun l => (l, 0))
    let made (s : State) (l : Nat) : State := s.fenceMarks (s.seat (laneBit l)) scope ord
    { st := if now.isEmpty then r.1
        else ((lanesOf (membersMask now)).foldl made (r.1.released rel now)).acquired st.myCore (wideAcquire scope ord)
      waits := r.2 }

/-! ### Legality (spec/05 R97, R98) -/

/-- The class at a level of a WAITM: 0 C, 1 P, 2 W. -/
def levelClass (b : Tcb) : WLevel → Nat
  | .fibre => b.clf
  | .group => b.clg
  | .team => b.clt
  | .grid | .ext => 3

/-- The code of a level in %tsyn. -/
def levelCode : WLevel → Nat
  | .fibre => 0
  | .group => 1
  | .team => 2
  | .grid => 3
  | .ext => 4

/-- A member of a formed set. -/
def Instance.inSet (i : Instance) : Bool := !i.setMembers.isEmpty

/-- %tsyn of the illegal-wait trap of a WAITM, when it is not legal (spec/05 R98); DIR is the bit of the literal, for .grid too (log 114). -/
def waitmIllegal (i : Instance) (l : WLevel) (any : Bool) : Option Word :=
  let cls := levelClass i.tcb l
  let legal : Bool :=
    match l with
    | .ext => true
    | .grid => i.inSet
    | .fibre | .group | .team => cls == 0 || (cls == 1 && !any)
  if legal then none
  else some (BitVec.ofNat 64 (levelCode l + 8 * bnat any + 16 * cls + 64 * bnat (l == .grid)))

/-- %tsyn of the illegal-wait trap of GBAR, when it is not legal. -/
def gbarIllegal (i : Instance) : Option Word :=
  if i.tcb.clt = 0 then none else some (BitVec.ofNat 64 (2 + 8 + 16 * i.tcb.clt + 128))

/-! ### WAITM (spec/16 R356 to R359) -/

/-- The condition of a WAITM over two values of `n` bytes. -/
def waitCond (c : WCond) (n m k : Nat) : Bool :=
  match c with
  | .eq => m == k
  | .ne => m != k
  | .gen => decide (k ≤ m)
  | .ltn => decide (m < k)
  | .ge => decide (signedOf (8 * n) k ≤ signedOf (8 * n) m)
  | .lt => decide (signedOf (8 * n) m < signedOf (8 * n) k)
  | .set => m &&& k != 0
  | .clr => m &&& k == 0

/-- A wait word whose condition is met sets EXPN to 0 (spec/05 R104). -/
def State.metWait (s : State) : State := s.setGroup s.it.group { s.group s.it.group with expn := 0 }

/-- WAITM. -/
def execWaitm (base cmp : SReg) (space : Space) (lit : WLit) (s : State) : Res :=
  terminalAccess s fun m g st =>
    match waitmIllegal (st.inst st.myInst) lit.level lit.any with
    | some y => ({ st := st, traps := trapLanes m.mask 11 y }, none)
    | none =>
      let n := if lit.wd then 8 else 4
      let k : Word := if lit.wd then g.sreg cmp.val else (g.sreg cmp.val) &&& 4294967295
      let u := scalarUnit m g base (lit.off.signExtend 64)
      let c := st.checkAll (.space space) [u] n 0 n .read
      match c.good with
      | [] => ({ st := c.st, traps := c.traps, waits := c.waits }, none)
      | (_, l) :: _ =>
        let a := c.st.acquired c.st.myCore (wideScope lit.scope)
        let x := a.seenAt a.myCore l n
        let st := a.readThrough a.myCore l
        if x.2 then ({ st := st.countPoison, traps := trapLanes m.mask 9 0 (u.unitAddr 0) }, none)
        else if waitCond lit.cond n (leNat x.1) k.toNat then
          ({ st := (st.readMarks (st.seat m.mask) (lit.scope, .acq) (a.marksSeen a.myCore l n)).bump.metWait }, some .next)
        else ({ st := st.bump }, some (.park (.mem u.ea space n lit.cond k lit.scope cmp.val)))

/-! ### Barriers (spec/16 R360 to R364) -/

/-- The count that a barrier word names. -/
def State.barCount (s : State) (count : Fin 33) : Nat :=
  if count.val = 32 then (s.team s.myTeam).ngroups else count.val + 1

/-- Lanes of the group in hand arrive at barrier `n`; lanes that issue the word again after a trap and have arrived in this
phase do not arrive a second time (spec/16 R364). -/
def State.laneArrive (s : State) (n want : Nat) (lanes : Mask) (again : Bool) : State :=
  let x := s.team s.myTeam
  let num := (s.group s.it.group).num
  let b := x.barriers.getD n {}
  let fresh := if again then lanes &&& ~~~(b.counted.getD num 0) else lanes
  if fresh = 0 then s
  else
    let b := { b with lanes := b.lanes.put num (b.lanes.getD num 0 ||| fresh), want := b.want.put num want }
    ((s.setTeam s.myTeam { x with barriers := x.barriers.put n b }).learn (.arriving s.myTeam n)
      (s.knows s.it.group fresh)).tryArrive s.it.group n

/-- BAR: the members park, and then their lanes arrive. -/
def execBar (n : Fin 16) (count : Fin 33) (s : State) : Res :=
  if s.it.lastPlace then
    batchWord s fun it _ st =>
      let phase := ((st.team st.myTeam).barriers.getD n.val {}).phase
      let parked := it.parts.foldl (fun st m => st.setTerm m.id (.park (.barrier n.val phase))) st
      { st := parked.laneArrive n.val (st.barCount count) it.mask (!it.reissue.isEmpty) }
  else illegalWord s

/-- BARA: an arrival that must hold every lane of the group that has not ended. -/
def execBara (n : Fin 16) (count : Fin 33) (s : State) : Res :=
  batchWord s fun it _ st =>
    if (st.group it.group).alive &&& ~~~it.mask = 0 then
      { st := st.laneArrive n.val (st.barCount count) it.mask false }
    else
      { st := st, traps := trapLanes it.mask 5
          (BitVec.ofNat 64 (it.mask.toNat + 4294967296 * bnat (decide (1 < it.members.length)))) }

/-- BARW: once for each member. -/
def execBarw (n : Fin 16) (c : CReg) (s : State) : Res :=
  terminalWord s fun m _ st =>
    let phase := ((st.team st.myTeam).barriers.getD n.val {}).phase
    if phase != m.c.getLsbD c.val then
      ({ st := (st.inform st.it.group m.mask (st.known (.arrived st.myTeam n.val))).metWait, writes := [.c m.id c.val phase] }, some .next)
    else ({ st := st }, some (.park (.barw n.val c)))

/-- GBAR: the lanes arrive at the grid barrier and park. -/
def execGbar (s : State) : Res :=
  terminalWord s fun m _ st =>
    match gbarIllegal (st.inst st.myInst) with
    | some y => ({ st := st, traps := trapLanes m.mask 11 y }, none)
    | none =>
      let x := st.team st.myTeam
      let num := (st.group st.it.group).num
      let st := st.learn (.grid st.myInst) (st.knows st.it.group m.mask)
      ({ st := st.setTeam st.myTeam { x with gbar := x.gbar.put num (x.gbar.getD num 0 ||| m.mask) } }, some (.park .grid))

end Sys2Proof.Machine
end

