-- ==== Sys2Proof/Machine/HandleWords.lean ====
section
/-!
DEFINITION. The handle words and the descriptor words (spec/17 R369, R371, R380 to R383; of a tape's handle, spec/18 R404).
-/

namespace Sys2Proof.Machine

open Sys2Proof

/-- A member's run of a handle word: an error where `bad` says so, and else the word's effect. -/
def onHandle (h : HReg) (bad : Handle → Bool) (k : Fibre → Group → State → Handle → MRes) (m : Fibre) (g : Group) (st : State) : MRes :=
  let x := st.handle st.myTeam h.val
  if bad x then handleError st m h.val x else k m g st x

/-- A handle word of each member. -/
def handleWord (s : State) (h : HReg) (bad : Handle → Bool) (k : Fibre → Group → State → Handle → MRes) : Res :=
  perMember s (onHandle h bad k)

/-- An operation of the handle is running. -/
def Handle.busy (x : Handle) : Bool := x.state == .filling || x.state == .draining

/-- FULL, or the fill pointer, observed: of a tape's run it is an acquire at device scope of what the replayed instances wrote
(spec/18 R404). -/
def State.observed (s : State) (m : Fibre) (h : Nat) (x : Handle) (seen : Bool) : State :=
  if x.run && seen then (s.inform s.it.group m.mask (s.known (.handle s.myTeam h))).acquired s.myCore true else s

/-- HSET: a known seed for a checksum chain. -/
def execHset (h : HReg) (a : SReg) (s : State) : Res :=
  handleWord s h (fun x => x.isRed || x.busy) fun _ g st x =>
    { st := st.setHandle st.myTeam h.val { x.fresh 0 ((g.sreg a.val).setWidth 32) with state := .full } }

/-- HWAIT: FILLING waits for FULL, DRAINING for FREE. -/
def execHwait (h : HReg) (s : State) : Res :=
  terminalWord s fun m _ st =>
    let x := st.handle st.myTeam h.val
    if x.busy then ({ st := st }, some (.park (.handle h.val))) else ({ st := (st.observed m h.val x (x.state == .full)).metWait }, some .next)

/-- HTAKE: a FULL handle is taken. -/
def execHtake (c : CReg) (h : HReg) (s : State) : Res :=
  handleWord s h (·.isRed) fun m _ st x =>
    if x.state = .full then { st := st.freeHandle st.myTeam h.val x, writes := [.c m.id c.val true] }
    else { st := st, writes := [.c m.id c.val false] }

/-- An operation whose handle is DRAINING stops at its next boundary (`State.atBoundary`); a tape run submits no further record
(spec/18 R404). -/
def State.stopHandle (s : State) (x : Handle) : State :=
  match x.tape with
  | some t =>
    let y := s.tapes.getD t {}
    { s with tapes := s.tapes.put t { y with recs := [] } }
  | none => s

/-- HFREE: it clears SUMBAD (spec/17 R386), frees a FULL handle and stops what a FILLING one runs. -/
def execHfree (h : HReg) (s : State) : Res :=
  handleWord s h (·.isRed) fun _ _ st x =>
    match x.state with
    | .full => { st := st.freeHandle st.myTeam h.val { x with sumbad := false } }
    | .filling => { st := (st.setHandle st.myTeam h.val { x with state := .draining, sumbad := false }).stopHandle x }
    | .free | .draining => { st := st }

/-- HFILL: of a tape's run it is an acquire at device scope too. -/
def execHfill (d : SReg) (h : HReg) (s : State) : Res :=
  handleWord s h (·.isRed) fun m _ st x => { st := st.observed m h.val x true, writes := [.s d.val (BitVec.ofNat 64 x.fill)] }

/-- HSTAT. -/
def execHstat (d : SReg) (h : HReg) (s : State) : Res :=
  handleWord s h (fun _ => false) fun m _ st x => { st := st.observed m h.val x (x.state == .full), writes := [.s d.val x.image] }

/-! ### Descriptors -/

/-- The image that four s registers hold. -/
def tensorImage (g : Group) (a : Nat) : BitVec 256 :=
  BitVec.ofNat 256 ((g.sreg a).toNat + 2 ^ 64 * (g.sreg (a + 1)).toNat + 2 ^ 128 * (g.sreg (a + 2)).toNat
    + 2 ^ 192 * (g.sreg (a + 3)).toNat)

/-- TDSET. -/
def execTdset (t : TReg) (a : SReg) (s : State) : Res :=
  scalarWord s fun _ g => [.t t.val (dStored (tensorImage g a.val))]

/-- TDLD with row and element of each lane: the lanes whose element is stored are checked and read as loads, tensor-tagged, and the others
read zero. -/
def tensorLoad (d : VNum) (t : TReg) (sel column : Bool) (place : Group → Nat → Nat × Nat) (s : State) : Res :=
  accessWord s fun it g st =>
    let x := g.treg t.val
    let n := dWidth x
    match groupArgs g it.wb d 1 with
    | .error y => { st := st, traps := trapLanes it.mask 4 y }
    | .ok e =>
      let ls := (lanesOf it.mask).map fun l => (l, place g l)
      let inside := ls.filter fun p => dInside x false p.2.1 p.2.2
      let outside := ls.filter fun p => !dInside x false p.2.1 p.2.2
      let us : List AUnit := inside.map fun p =>
        { lane := p.1, lanes := [p.1], ea := BitVec.ofNat 64 (dAddr x false p.2.1 p.2.2) }
      let c := st.checkAll (.space .virt) us n 0 n .read
      let read := inside.filter fun p => c.good.any fun u => u.1.lane == p.1
      let st := c.st.readSlices c.st.myCore c.st.myFn c.st.mySlot x false column (read.map (·.2))
      let tagged (u : AUnit) : Bool := read.any fun p => p.1 == u.lane &&
        (st.tileUnits st.myFn st.mySlot (dTid x) (dBase x) (dPitch x) (p.2.1 / 32) (dByte x false p.2.2 / 32)).isSome
      let r := readUnits (st.readAll (.fib, .none) c.good n) c.good 0 n (fun u y => [.v u.lane e (BitVec.ofNat 32 y)]) fun u => !tagged u
      let o : Op :=
        { kind := .load, group := it.group, quarter := st.cur, flag := it.flagOf sel, holders := it.members,
          lanes := unitLanes c.good ||| maskOf (outside.map (·.1)), writes := r.writes ++ outside.map fun p => .v p.1 e 0, poison := r.poison }
      { st := if c.good.isEmpty && outside.isEmpty then r.st.bump else r.st.bump.addOp o, traps := c.traps,
        waits := c.waits }

/-- TDLD.row. -/
def execTdldRow (d : VNum) (t : TReg) (c : SReg) (sel : Bool) (s : State) : Res :=
  tensorLoad d t sel false (fun g l =>
    ((g.sreg c.val).toNat % 4294967296, (g.sreg c.val).toNat / 4294967296 + l)) s

/-- TDLD.col. -/
def execTdldCol (d : VNum) (t : TReg) (c : SReg) (sel : Bool) (s : State) : Res :=
  tensorLoad d t sel true (fun g l =>
    ((g.sreg c.val).toNat / 4294967296 + l, (g.sreg c.val).toNat % 4294967296)) s

end Sys2Proof.Machine
end

