-- ==== Sys2Proof/Machine/Copy.lean ====
section
/-!
DEFINITION. The copy engine: the stream of a copy and its checksums (spec/17 R384 to R389), the copy meter (spec/03 R59, R60), the
bit flip of spec/02 R48, and CPY.
-/

namespace Sys2Proof.Machine

open Sys2Proof

/-! ### Checksums (spec/17 R386) -/

/-- One bit of CRC32C, reflected. -/
def crcBit (x : W32) : W32 := if x.getLsbD 0 then (x >>> 1) ^^^ 2197175160 else x >>> 1

/-- One byte of CRC32C on the running register. -/
def crcByte (x : W32) (b : Byte) : W32 := loopN (fun _ y => crcBit y) 8 0 (x ^^^ b.setWidth 32)

/-- CRC32C carried on from the CRC32C of the bytes before. -/
def crcMore (sum : W32) (bs : List Byte) : W32 := ~~~(bs.foldl crcByte (~~~sum))

/-- A checksum carried on by the bytes at stream offset `p`. -/
def ckMore (ck : CkMode) (p : Nat) (sum : W32) (bs : List Byte) : W32 :=
  match ck with
  | .none => sum
  | .sum => ((bs.foldl (fun (a : W32 × Nat) b => (a.1 + (b.setWidth 32 : W32) <<< (8 * (a.2 % 4)), a.2 + 1)) (sum, p))).1
  | .crc => crcMore sum bs

/-! ### The meter (spec/03 R60) -/

/-- A chunk of `n` bytes of a function is paid for, or must wait. -/
def State.meter (s : State) (f n : Nat) : Option State :=
  let x := s.fn f
  if f = 0 ∨ !x.tbEn then some s
  else if n ≤ x.tokens then some (s.setFn f { x with tokens := x.tokens - n })
  else
    let need := n - x.tokens
    if s.accepted f 3 ∧ s.pcap ≠ 0 ∧ x.debt + need ≤ x.tbBlim * 1024 ∧ need ≤ s.pool then
      some { s.setFn f { x with tokens := 0, debt := x.debt + need } with pool := s.pool - need }
    else none

/-! ### The stream and its destinations -/

/-- The place of a copy's destination range: host memory, or a place that `Loc` names. -/
abbrev Dest := Option Loc

/-- The destinations of a copy that are not lost. -/
def State.liveMembers (s : State) (c : CopyOp) : List Nat := (c.members.filter fun m => s.tagged m.1 m.2).map (·.1)

/-- How many destinations a copy writes. -/
def State.destCount (s : State) (c : CopyOp) : Nat :=
  match c.dsp with
  | .sp | .cm => (s.liveMembers c).length
  | .virt | .ds => 1

/-- Bytes of the next chunk: up to a 4 KiB boundary of the destination. -/
def CopyOp.chunk (c : CopyOp) : Nat := min (c.len - c.done) (4096 - (c.dst + c.done) % 4096)

/-- The destinations at stream offset `p`, or the walk that keeps the virtual one away. -/
def State.copyDests (s : State) (e : EngOp) (c : CopyOp) (p : Nat) : Except Walk (List Dest) :=
  if c.dstHost then .ok [none]
  else
    match c.dsp with
    | .virt =>
      match s.translate e.core e.fn e.slot (c.dst + p) .write with
      | .ok dom key => .ok [some (.frame dom key)]
      | w => .error w
    | .ds => .ok [some (.die (dieOf e.core) (c.dst + p))]
    | .sp => .ok ((s.liveMembers c).map fun m => some (.scratch m (c.dst + p)))
    | .cm => .ok ((s.liveMembers c).map fun m => some (.scratch m (c.dst % 524288 + p)))

/-- Row and element of a transposing copy at stream offset `p`, and the byte of the element. -/
def CopyOp.element (c : CopyOp) (d : BitVec 256) (p : Nat) : Nat × Nat × Nat :=
  let k := p / dWidth d
  (c.row0 + k % c.nr, c.col0 + k / c.nr, p % dWidth d)

/-- The address that the byte at stream offset `p` comes from; none for an element outside its tensor. -/
def CopyOp.source (c : CopyOp) (p : Nat) : Option Nat :=
  match c.tdesc with
  | none => some (c.src + p)
  | some d =>
    let x := c.element d p
    if dInside d false x.1 x.2.1 then some (dAddr d false x.1 x.2.1 + x.2.2) else none

/-- The source byte at stream offset `p` and whether its unit holds poison, or the walk that keeps it away and its address. -/
def State.copyByte (s : State) (e : EngOp) (c : CopyOp) (p : Nat) : Except (Walk × Nat) (Byte × Bool) :=
  match c.source p with
  | none => .ok (0, false)
  | some a =>
    if c.srcHost then .ok (s.hostMem.getD a memUnlisted, false)
    else
      match s.engAcc e.fn e.slot e.team e.core c.ssp a 1 .read with
      | .ok l => .ok ((s.readLoc l 1).headD 0, s.locPoisoned l 1)
      | .poison => .ok (Config.freeByte s.free a, true)
      | .fault w => .error (w, a)
      | .wait w => .error (w, a)

/-- `n` source bytes from stream offset `p` on. -/
def State.copyBytes (s : State) (e : EngOp) (c : CopyOp) : Nat → Nat → Except (Walk × Nat) (List (Byte × Bool))
  | 0, _ => .ok []
  | n + 1, p =>
    match s.copyByte e c p with
    | .error x => .error x
    | .ok b =>
      match s.copyBytes e c n (p + 1) with
      | .error x => .error x
      | .ok bs => .ok (b :: bs)

/-- An address lies in a range. -/
def within (first n a : Nat) : Bool := decide (first ≤ a ∧ a < first + n)

/-- An address is one that a transposing copy reads. -/
def CopyOp.reads (c : CopyOp) (d : BitVec 256) (a : Nat) : Bool :=
  let off := a - dBase d
  let e := off % dPitch d / dWidth d
  decide (dBase d ≤ a) && within c.row0 c.nr (off / dPitch d) && within c.col0 c.nc e && dInside d false (off / dPitch d) e

/-- The destination byte at stream offset `p` is a source byte of the copy too (spec/17 R387). -/
def State.overlapped (s : State) (e : EngOp) (c : CopyOp) (p : Nat) (d : Dest) : Bool :=
  match d with
  | none => c.srcHost && within c.src c.len (c.dst + p)
  | some (.frame ..) =>
    !c.srcHost && c.ssp == .virt &&
      (match c.tdesc with | none => within c.src c.len (c.dst + p) | some t => c.reads t (c.dst + p))
  | some (.die _ off) => c.ssp == .ds && within c.src c.len off
  | some (.scratch m off) =>
    (c.ssp == .sp && m == e.team && within c.src c.len off) ||
      (c.ssp == .cm && s.clusterMember e.team (c.src / 524288) == some m && within (c.src % 524288) c.len off)
  | some (.slice ..) => false

/-! ### Writes -/

/-- A place some bytes further on. -/
def Loc.shift (l : Loc) (n : Nat) : Loc :=
  match l with
  | .frame dom key => .frame (dom + n) key
  | .scratch t off => .scratch t (off + n)
  | .die d off => .die d (off + n)
  | .slice g lane off => .slice g lane (off + n)

/-- A write to host memory of a slot's copies sent: it takes the place of what they sent before, unless a fence stands between. -/
def Function.post (f : Function) (at_ a slot : Nat) : Function :=
  { f with posted := (f.posted.filter fun p => p.slot != slot || p.fenced) ++ [{ at_ := at_, addr := a, slot := slot }] }

/-- Bytes written to a destination for a slot of a function, the units of poisoned ones left poisoned (spec/07 R158). -/
def State.deposit (s : State) (cores : List Nat) (f slot : Nat) (a : Nat) (d : Dest) (bs : List (Byte × Bool)) : State :=
  match d with
  | none =>
    { s.setFn f ((s.fn f).post s.nextId a slot) with nextId := s.nextId + 1, hostMem := writeZ s.hostMem a (bs.map (·.1)) }
  | some l =>
    ((bs.zip (natsFrom 0 bs.length)).filter fun b => b.1.2).foldl (fun s b => s.poisonLoc (l.shift b.2))
      (s.engineWrite cores l (bs.map (·.1)))

/-- `n` unspecified bytes for places from `a` on (log 8). -/
def State.freeBytes (s : State) (a n : Nat) : List Byte := (natsFrom a n).map (Config.freeByte s.free)

/-- The `n` bytes from `a` on of a destination left unspecified: a unit that holds poison keeps it (log 8). -/
def State.unspecified (s : State) (d : Dest) (a n : Nat) : List (Byte × Bool) :=
  (s.freeBytes a n).zip ((natsFrom 0 n).map fun k => d.any fun l => s.locPoisoned (l.shift k) 1)

/-- Destination bytes from stream offset `p` on, chunk by chunk, left unspecified where they can be written
(spec/17 R383, R387). -/
def State.scramble (s : State) (e : EngOp) (c : CopyOp) : Nat → Nat → State
  | 0, _ => s
  | fuel + 1, p =>
    if c.len ≤ p then s
    else
      let n := min (c.len - p) (4096 - (c.dst + p) % 4096)
      let s := match s.copyDests e c p with
        | .ok ds => ds.foldl (fun (s : State) d => s.deposit (s.engCores e) e.fn e.slot (c.dst + p) d (s.unspecified d p n)) s.bump
        | .error _ => s
      s.scramble e c fuel (p + n)

/-! ### The bit flip (spec/02 R48) -/

/-- A CPY that issues is counted, and may become the targeted copy. -/
def Cflip.count (c : Cflip) : Cflip × Bool :=
  if c.arm && !c.targeted then
    if c.skip = 0 then ({ c with targeted := true }, true) else ({ c with skip := c.skip - 1 }, false)
  else (c, false)

/-- The flip is spent: applied, or missed. -/
def Cflip.spent (c : Cflip) (hit : Bool) : Cflip :=
  { c with arm := false, targeted := false, done := c.done || hit, miss := c.miss || !hit }

/-- A core's flip spent. -/
def State.spendFlip (s : State) (core : Nat) (hit : Bool) : State :=
  s.setCore core { s.coreAt core with cflip := (s.coreAt core).cflip.spent hit }

/-- The byte at `k` of a chunk with a bit inverted. -/
def flipAt (bs : List (Byte × Bool)) (k bit : Nat) : List (Byte × Bool) :=
  bs.modify k fun b => (b.1 ^^^ BitVec.ofNat 8 (2 ^ bit), b.2)

/-! ### The end of a copy (spec/17 R385, R387) -/

/-- A copy ends: with its whole stream delivered the comparisons are made, and else its SUM and the rest of its destination are
unspecified. The handle becomes FULL, or FREE after HFREE. -/
def State.copyEnd (s : State) (id : Nat) (e : EngOp) (c : CopyOp) (upd : Handle → Handle) : State :=
  let full := decide (c.len ≤ c.done)
  let s := c.flip.elim s fun k => s.spendFlip k false
  let s := if full then s else s.bump.scramble e c (c.len + 1) c.done
  if e.team = 0 then
    let s := { s with engs := s.engs.erase id }
    let irq : SlotWork → Bool := fun w => match w with | .copy op _ _ => op == id | _ => false
    match (s.slot e.slot).busy.find? irq with
    | none => s
    | some w => if full then s.slotRetire e.slot w else s.slotFail e.slot w 6
  else
    let x := upd (s.handle e.team c.handle)
    let x :=
      if full then
        { x with sumbad := x.sumbad || (c.ck != .none && c.dstSum != x.sum) || (c.chk.isSome && c.chk != some x.sum) }
      else if c.ck = .none then x
      else { x with sum := (Config.freeWord s.free c.done).setWidth 32 }
    let s := (s.dropEng id).bump
    if x.state = .draining then s.freeHandle e.team c.handle { x with sumbad := false }
    else s.fillHandle e.team c.handle x

/-! ### A chunk (spec/03 R60; spec/17 R385 to R389) -/

/-- The destination entries of an operation shrink to what lies above `done` bytes. -/
def State.shrinkLocks (s : State) (core id n : Nat) : State :=
  let c := s.coreAt core
  let cut := c.locks.map fun l =>
    if l.2.op == id && l.2.dst then (l.1, { l.2 with first := l.2.start + n }) else l
  s.setCore core { c with locks := cut.filter (fun l => decide (l.2.first ≤ l.2.last)) }

/-- The destination that takes the bit flip is not lost: the only one, or the lowest member of a multicast (spec/17 R388). -/
def State.flipReaches (s : State) (c : CopyOp) : Bool :=
  match c.dsp with
  | .sp | .cm => c.members.head?.any fun m => s.tagged m.1 m.2
  | .virt | .ds => true

/-- What the reads of `n` source bytes from stream offset `p` on and the walk of their destination do outside the engine: a transposing copy
reads element columns of its tensor, and bytes of another package are asked for (spec/07 R143, R152). -/
def State.copyFetch (s : State) (e : EngOp) (c : CopyOp) (p n : Nat) : State :=
  let s := if c.dstHost || c.dsp != .virt then s else s.walked e.core e.fn e.slot (c.dst + p)
  if c.srcHost then s
  else
    match c.tdesc with
    | some d =>
      let ps := (natsFrom p n).map (c.element d)
      s.fetchElems e.core e.fn e.slot d false true ((ps.filter fun x => x.2.2 == 0).map fun x => (x.1, x.2.1))
    | none => if c.ssp = .virt then s.askRange true e.core e.fn e.slot (c.src + p) n else s

/-- The chunk's bytes delivered to every live destination; of a function without a bucket they count in CPYB too (log 63). -/
def State.moveChunk (s : State) (id : Nat) (e : EngOp) (c : CopyOp) (ds : List Dest) (bs : List (Byte × Bool)) : State :=
  let fl := c.flip.elim {} fun k => (s.coreAt k).cflip
  let hit := c.flip.isSome && s.flipReaches c && within c.done bs.length fl.offset
  let flipped := if hit then flipAt bs (fl.offset - c.done) fl.bit else bs
  let free := s.freeBytes c.done bs.length
  let put (s : State) (d : Dest) (xs : List (Byte × Bool)) : State :=
    s.deposit (s.engCores e) e.fn e.slot (c.dst + c.done) d (((xs.zip free).zip (natsFrom c.done bs.length)).map fun y =>
      if s.overlapped e c y.2 d then (y.1.2, y.1.1.2) else y.1.1)
  let s := s.copyFetch e c c.done bs.length
  let s := match ds with
    | [] => s
    | d :: rest => rest.foldl (fun s d => put s d bs) (put s d flipped)
  let s := if hit then c.flip.elim s fun k => s.spendFlip k true else s
  let s := s.bump
  let c := { c with done := c.done + bs.length, dstSum := ckMore c.ck c.done c.dstSum (flipped.map (·.1)),
                    flip := if hit then none else c.flip }
  let s := s.setEng id { e with kind := .copy c }
  let s := s.modTele (s.ownerSlot e.fn e.slot) fun (t : Telemetry) => { t with cpyb := sat64 (t.cpyb + bs.length * ds.length) }
  if e.team = 0 then s
  else
    let x := s.handle e.team c.handle
    let s := s.setHandle e.team c.handle
      { x with fill := c.fillBase + c.done, fault := x.fault || bs.any Prod.snd,
               sum := ckMore c.ck (c.done - bs.length) x.sum (bs.map (·.1)) }
    s.shrinkLocks e.core id c.done

/-- The copy pauses for a service with FAULT set. -/
def State.pauseCopy (s : State) (id : Nat) (e : EngOp) (c : CopyOp) (w : Walk) (va : Nat) : State :=
  let r := s.serve e.fn e.slot va w
  let x := r.1.handle e.team c.handle
  let s := r.1.setEng id { e with kind := .copy { c with service := some r.2, faultBase := x.fault } }
  if e.team = 0 then s else s.setHandle e.team c.handle { x with fault := true }

/-- A copy waits for a service that is not over. -/
def State.paused (s : State) (c : CopyOp) : Bool := c.service.any fun n => (s.services.get? n).isSome

/-- A chunk of an earlier copy of the same function waits at the meter (spec/03 R60). -/
def State.heldBack (s : State) (id : Nat) (e : EngOp) : Bool :=
  s.engs.any fun x =>
    match x.2.kind with
    | .copy c => decide (x.1 < id) && x.2.fn == e.fn && !s.paused c && !s.engWaits x.1 x.2
        && (s.meter e.fn (c.chunk * s.destCount c)).isNone
    | _ => false

/-- A copy has lost the only destination it had. -/
def State.copyLost (s : State) (c : CopyOp) : Bool :=
  !c.mc && (match c.dsp with | .sp | .cm => (s.liveMembers c).isEmpty | .virt | .ds => false)

/-- A copy that a walk keeps from its next chunk: it pauses for a service, waits for its frame, or ends, with GONE where a package is
unreachable (spec/17 R387). -/
def State.copyBarred (s : State) (id : Nat) (e : EngOp) (c : CopyOp) (w : Walk) (va : Nat) : State :=
  let s := if w = .stall ∨ w = .fail 11 then s else s.walked e.core e.fn e.slot va
  match w with
  | .cow .. | .place .. => s.pauseCopy id e c w va
  | .stall => s
  | .fail 10 => s.copyEnd id e c fun x => { x with gone := true }
  | _ => s.copyEnd id e c fun x => { x with fault := true }

/-- The next chunk of a copy that may move. -/
def State.chunkNow (s : State) (id : Nat) (e : EngOp) (c : CopyOp) : State :=
  if s.copyLost c then s.copyEnd id e c fun x => { x with gone := true }
  else
    let s := if c.mc && decide ((s.liveMembers c).length < c.members.length) then
        s.setHandle e.team c.handle { s.handle e.team c.handle with gone := true }
      else s
    match s.copyBytes e c c.chunk c.done, s.copyDests e c c.done with
    | .error (w, a), _ => s.copyBarred id e c w a
    | .ok _, .error w => s.copyBarred id e c w (c.dst + c.done)
    | .ok bs, .ok ds =>
      match s.meter e.fn (bs.length * ds.length) with
      | none => s
      | some s =>
        let s := s.moveChunk id e c ds bs
        match s.engs.get? id with
        | some e' =>
          match e'.kind with
          | .copy c' => if c'.len ≤ c'.done then s.copyEnd id e' c' fun x => x else s
          | _ => s
        | none => s

/-- One chunk of a copy, where it may move (spec/03 R60). -/
def State.copyChunk (s : State) (id : Nat) (e : EngOp) (c : CopyOp) : State :=
  if c.stop || s.atBoundary e c.handle (c.dst + c.done) then s.copyEnd id e c fun x => x
  else if s.engWaits id e || s.paused c then s
  else if s.heldBack id e then s
  else s.chunkNow id e { c with service := none }

/-! ### CPY (spec/17 R384 to R389) -/

/-- Members that MEM names. -/
def memMembers (mem : BitVec 4) : List Nat := (List.range 4).filter fun q => mem.getLsbD q

/-- The destination of a copy fails its checks at issue: bits above the offset of a multicast, a member that is absent, a
bound (spec/17 R387, R388). -/
def State.badDest (s : State) (l : CLit) (dst : Word) (len : Nat) : Bool :=
  if l.mc then
    decide (dst.toNat / 524288 ≠ 0) || (memMembers l.mem).any fun q =>
      !s.localRange .cm (BitVec.ofNat 64 (524288 * q + dst.toNat)) len
  else l.dsp != .virt && !s.localRange l.dsp dst len

/-- The members whose scratchpads a copy writes, with their tags. -/
def State.copyMembers (s : State) (l : CLit) (dst : Nat) : List (Nat × Nat) :=
  let t := s.myTeam
  let of (m : Option Nat) : List (Nat × Nat) := m.toList.map fun x => (x, (s.team x).gen)
  if l.mc then (memMembers l.mem).flatMap fun q => of (s.clusterMember t q)
  else
    match l.dsp with
    | .sp => of (some t)
    | .cm => of (s.clusterMember t (dst / 524288))
    | .virt | .ds => []

/-- The locks of a copy (spec/17 R389). -/
def State.copyLocks (s : State) (l : CLit) (c : CopyOp) : List LockReq :=
  let t := s.myTeam
  let owner (x : Space) : Nat := s.lockOwner t x
  let src : LockReq :=
    match c.tdesc with
    | none => { space := c.ssp, owner := owner c.ssp, first := c.src, len := c.len, dst := false }
    | some d =>
      let rows := min c.nr (dRows d - c.row0)
      let cols := min c.nc (dColb d / dWidth d - c.col0)
      let lo := dAddr d false c.row0 c.col0
      let hi := dAddr d false (c.row0 + rows - 1) (c.col0 + cols - 1) + dWidth d
      { space := .virt, owner := 0, first := lo, len := if rows = 0 ∨ cols = 0 then 0 else hi - lo, dst := false }
  let at_ (first : Nat) : LockReq := { space := l.dsp, owner := owner l.dsp, first := first, len := c.len, dst := true }
  src :: (if l.mc then (memMembers l.mem).map fun q => at_ (524288 * q + c.dst) else [at_ c.dst])

/-- A copy that passed its checks starts (spec/17 R385; spec/02 R48). -/
def State.startCopy (s : State) (h : Nat) (x : Handle) (l : CLit) (c : CopyOp) : State :=
  let x := if x.state = .free then x.fresh 0 0 else { x with run := false }
  let core := s.myCore
  let fl := (s.coreAt core).cflip.count
  let s := s.setCore core { s.coreAt core with cflip := fl.1 }
  let c := { c with fillBase := x.fill, dstSum := x.sum, flip := if fl.2 then some core else none }
  if c.len = 0 then
    let s := if fl.2 then s.spendFlip core false else s
    s.fillHandle s.myTeam h { x with sumbad := x.sumbad || (c.chk.isSome && c.chk != some x.sum) }
  else
    (s.setHandle s.myTeam h { x with state := .filling, op := some s.nextId }).addEng (.copy c) none [] (s.copyLocks l c)

/-- CPY: once for each member. -/
def execCpy (h : HReg) (src : Fin 64) (c : SReg) (l : CLit) (s : State) : Res :=
  accessEach s fun m g st =>
    let x := st.handle st.myTeam h.val
    if x.isRed || x.busy then handleError st m h.val x
    else
      let from_ := g.sreg src.val
      let dst := g.sreg c.val
      let k := (g.sreg (c.val + 1)).toNat
      let d := g.treg src.val
      let rc := g.sreg l.xs.val
      let len := if l.t then k % 65536 * (k / 65536 % 65536) * dWidth d else k % 2199023255552
      if len ≠ 0 ∧ l.ssp ≠ .virt ∧ !st.localRange l.ssp from_ len then
        { st := st, traps := trapLanes m.mask 7 2048 from_ }
      else if len ≠ 0 ∧ st.badDest l dst len then { st := st, traps := trapLanes m.mask 7 2048 dst }
      else
        let o : CopyOp :=
          { handle := h.val, ssp := l.ssp, src := from_.toNat, dsp := l.dsp, dst := dst.toNat, len := len,
            tdesc := if l.t then some d else none, row0 := rc.toNat % 4294967296, col0 := rc.toNat / 4294967296,
            nr := k % 65536, nc := k / 65536 % 65536, ck := l.ck,
            chk := if l.chk then some ((g.sreg (l.xs.val + bnat l.t)).setWidth 32) else none,
            mc := l.mc, members := st.copyMembers l dst.toNat }
        withRoom st (st.copyLocks l o) { st := st.startCopy h.val x l o }

end Sys2Proof.Machine
end

