-- ==== Sys2Proof/Machine/VectorInt.lean ====
section
/-!
DEFINITION. Vector integer words, predicates and scalar broadcast (spec/15 R317 to R325).
-/

namespace Sys2Proof.Machine

open Sys2Proof

/-- The width of an integer type. -/
def ityBits (ty : IntTy) : Nat := if ty.wide then 64 else 32

/-- A signed integer type. -/
def itySigned : IntTy → Bool
  | .i32 | .i64 => true
  | .n32 | .n64 => false

/-- The number that an image of the type stands for. -/
def ityVal (ty : IntTy) (x : Nat) : Int := if itySigned ty then signedOf (ityBits ty) x else (x : Int)

/-- A two-operand word of a type, modulo 2^n (spec/15 R319). -/
def vint2 (ty : IntTy) (d a b : VOp) (f : Nat → Nat → Nat) (s : State) : Res := vec2 s ty.wide d a b f

/-- A one-operand word of a type. -/
def vint1 (ty : IntTy) (d a : VOp) (f : Nat → Nat) (s : State) : Res := vec1 s ty.wide d a f

/-! ### Major 0x18 (spec/15 R319) -/

/-- VADD. -/
def execVadd (ty : IntTy) (d a b : VOp) (s : State) : Res := vint2 ty d a b (fun x y => x + y) s

/-- VSUB. -/
def execVsub (ty : IntTy) (d a b : VOp) (s : State) : Res :=
  vint2 ty d a b (fun x y => wrap (ityBits ty) ((x : Int) - y)) s

/-- VMUL. -/
def execVmul (ty : IntTy) (d a b : VOp) (s : State) : Res := vint2 ty d a b (fun x y => x * y) s

/-- VMULH: the high half of the product. -/
def execVmulh (ty : IntTy) (d a b : VOp) (s : State) : Res :=
  vint2 ty d a b (fun x y =>
    wrap (ityBits ty) (ityVal ty x * ityVal ty y / ((2 ^ ityBits ty : Nat) : Int))) s

/-- VAND. -/
def execVand (ty : IntTy) (d a b : VOp) (s : State) : Res := vint2 ty d a b (fun x y => x &&& y) s

/-- VOR. -/
def execVor (ty : IntTy) (d a b : VOp) (s : State) : Res := vint2 ty d a b (fun x y => x ||| y) s

/-- VXOR. -/
def execVxor (ty : IntTy) (d a b : VOp) (s : State) : Res := vint2 ty d a b (fun x y => x ^^^ y) s

/-- VNOT. -/
def execVnot (ty : IntTy) (d a : VOp) (s : State) : Res :=
  vint1 ty d a (fun x => 2 ^ ityBits ty - 1 - x) s

/-- VSHL: 0 when the amount is n or more. -/
def execVshl (ty : IntTy) (d a b : VOp) (s : State) : Res := vint2 ty d a b (shlN (ityBits ty)) s

/-- VSHR. -/
def execVshr (ty : IntTy) (d a b : VOp) (s : State) : Res := vint2 ty d a b (shrN (ityBits ty)) s

/-- VSRA. -/
def execVsra (ty : IntTy) (d a b : VOp) (s : State) : Res := vint2 ty d a b (sraN (ityBits ty)) s

/-- VMIN. -/
def execVmin (ty : IntTy) (d a b : VOp) (s : State) : Res :=
  vint2 ty d a b (fun x y => if ityVal ty x ≤ ityVal ty y then x else y) s

/-- VMAX. -/
def execVmax (ty : IntTy) (d a b : VOp) (s : State) : Res :=
  vint2 ty d a b (fun x y => if ityVal ty x ≤ ityVal ty y then y else x) s

/-- VABS: the most negative value gives itself. -/
def execVabs (ty : IntTy) (d a : VOp) (s : State) : Res := vint1 ty d a (fun x => (ityVal ty x).natAbs) s

/-- VNEG. -/
def execVneg (ty : IntTy) (d a : VOp) (s : State) : Res := vint1 ty d a (fun x => wrap (ityBits ty) (-(x : Int))) s

/-- VMOV. -/
def execVmov (ty : IntTy) (d a : VOp) (s : State) : Res := vint1 ty d a id s

/-! ### Immediates and VMAD (spec/15 R320) -/

/-- VADDI. -/
def execVaddi (d a : VOp) (imm : BitVec 12) (s : State) : Res :=
  vec1 s false d a fun x => x + (imm.signExtend 32).toNat

/-- VMOVI. -/
def execVmovi (d : VOp) (imm : BitVec 18) (s : State) : Res :=
  vecWord s { op := d } [] fun _ _ _ => ((imm.signExtend 32).toNat, 0)

/-- VMAD. -/
def execVmad (d a b c : VOp) (s : State) : Res :=
  vecWord s { op := d } [{ op := a }, { op := b }, { op := c }] fun _ _ xs =>
    match xs with
    | [x, y, z] => (x * y + z, 0)
    | _ => (0, 0)

/-! ### Comparison, selection, bits (spec/15 R321, R322) -/

/-- VCMP. -/
def execVcmp (p : PReg) (wide : Bool) (pred : Pred) (a b : VOp) (s : State) : Res :=
  vecPred s p wide a b fun x y => (predHolds pred (if wide then 64 else 32) x y, 0)

/-- VSEL: by the lane's own predicate. -/
def execVsel (d : VOp) (wide : Bool) (p : PReg) (a b : VOp) (s : State) : Res :=
  laneWord s [{ op := d, wide := wide }, { op := a, wide := wide }, { op := b, wide := wide }] fun g lane es =>
    match es with
    | [e, x, y] => vput lane wide e (g.vval lane wide (if g.preg lane p.val then x else y))
    | _ => []

/-- VCLZ. -/
def execVclz (d a : VOp) (s : State) : Res := vec1 s false d a fun x => leadZeros x 32

/-- VPOPC. -/
def execVpopc (d a : VOp) (s : State) : Res := vec1 s false d a fun x => popCount x 32

/-- pos and len of a lane's field word. -/
def fieldPos32 (y : Nat) : Nat := fieldOf y 4 0
def fieldLen32 (y : Nat) : Nat := fieldOf y 13 8

/-- VBFE. -/
def execVbfe (d a b : VOp) (s : State) : Res :=
  vec2 s false d a b fun x y => extractN 32 x (fieldPos32 y) (fieldLen32 y) false

/-- VBFE.sx. -/
def execVbfeSx (d a b : VOp) (s : State) : Res :=
  vec2 s false d a b fun x y => extractN 32 x (fieldPos32 y) (fieldLen32 y) true

/-- VBFI. -/
def execVbfi (d a b : VOp) (s : State) : Res :=
  vecWord s { op := d } [{ op := a }, { op := b }] fun _ old xs =>
    match xs with
    | [x, y] => (insertN 32 old x (fieldPos32 y) (fieldLen32 y), 0)
    | _ => (0, 0)

/-! ### Dot products (spec/15 R323; i4, spec/12 R261) -/

/-- An i4 code read: the reserved code reads 0 and sets I4C. -/
def readI4 (x : Nat) : Int × Word := if x % 16 = 8 then (0, fI4C) else (signedOf 4 x, 0)

/-- Element `k` of `w` bits of a dot product's operand. -/
def dotElem (w : Nat) (sx : Bool) (x k : Nat) : Int × Word :=
  let y := x / 2 ^ (w * k) % 2 ^ w
  if !sx then ((y : Int), 0) else if w = 4 then readI4 y else (signedOf w y, 0)

/-- The sum of products of `32 / w` elements, and the flags. -/
def dotSum (w : Nat) (sa sb : Bool) (x y : Nat) : Int × Word :=
  (List.range (32 / w)).foldl (fun acc k =>
    let p := dotElem w sa x k
    let q := dotElem w sb y k
    (acc.1 + p.1 * q.1, acc.2 ||| p.2 ||| q.2)) (0, 0)

/-- VDOT4 and VDOT8. -/
def dotWord (w : Nat) (sa sb sat : Bool) (d a b : VOp) (s : State) : Res :=
  vecWord s { op := d } [{ op := a }, { op := b }] fun _ old xs =>
    match xs with
    | [x, y] =>
      let r := dotSum w sa sb x y
      let t := signedOf 32 old + r.1
      if sat then
        let c := satTo (-2147483648) 2147483647 t
        (wrap 32 c.1, r.2 ||| c.2)
      else (wrap 32 t, r.2)
    | _ => (0, 0)

/-- VDOT4. -/
def execVdot4 (sa sb sat : Bool) (d a b : VOp) (s : State) : Res := dotWord 8 sa sb sat d a b s

/-- VDOT8. -/
def execVdot8 (sa sb sat : Bool) (d a b : VOp) (s : State) : Res := dotWord 4 sa sb sat d a b s

/-! ### Predicates and broadcast (spec/15 R325) -/

/-- A predicate word: in each lane of the fibre p[d] := f p[a] p[b]. -/
def predWord (d a b : PReg) (f : Bool → Bool → Bool) (s : State) : Res :=
  laneWord s [] fun g lane _ => [.p lane d.val (f (g.preg lane a.val) (g.preg lane b.val))]

/-- PAND. -/
def execPand (d a b : PReg) (s : State) : Res := predWord d a b (fun x y => x && y) s

/-- POR. -/
def execPor (d a b : PReg) (s : State) : Res := predWord d a b (fun x y => x || y) s

/-- PXOR. -/
def execPxor (d a b : PReg) (s : State) : Res := predWord d a b (fun x y => x != y) s

/-- PNOT. -/
def execPnot (d a : PReg) (s : State) : Res := predWord d a a (fun x _ => !x) s

/-- PMOV. -/
def execPmov (d a : PReg) (s : State) : Res := predWord d a a (fun x _ => x) s

/-- PSET. -/
def execPset (d : PReg) (b : Bool) (s : State) : Res := predWord d d d (fun _ _ => b) s

/-- VMOVS: bits 31:0 of an s register. -/
def execVmovs (d : VOp) (a : SReg) (s : State) : Res :=
  vecWord s { op := d } [] fun g _ _ => ((g.sreg a.val).toNat % 4294967296, 0)

/-- VMOVS.hi: bits 63:32. -/
def execVmovsHi (d : VOp) (a : SReg) (s : State) : Res :=
  vecWord s { op := d } [] fun g _ _ => ((g.sreg a.val).toNat / 4294967296, 0)

end Sys2Proof.Machine
end

