-- ==== Sys2Proof/Machine/Convert.lean ====
section
/-!
DEFINITION. Conversions, packing, quantisation and random bits (spec/15 R331 to R337; spec/12 R258 to R262, R266 to R270).
-/

namespace Sys2Proof.Machine

open Sys2Proof

/-! ### Types (spec/13 R286) -/

/-- The format of a float type. -/
def cvtFmt : CvtTy → Option Fmt
  | .f64 => some fmtF64
  | .f32 => some fmtF32
  | .f16 => some fmtF16
  | .bf16 => some fmtBf16
  | .e4m3 => some fmtE4m3
  | .e5m2 => some fmtE5m2
  | .e2m1 => some fmtE2m1
  | .i4 | .i8 | .n8 | .i16 | .n16 | .i32 | .n32 | .i64 | .n64 => none

/-- Bits and signedness of an integer type. -/
def cvtInt : CvtTy → Nat × Bool
  | .i4 => (4, true)
  | .i8 => (8, true)
  | .n8 => (8, false)
  | .i16 => (16, true)
  | .n16 => (16, false)
  | .i32 => (32, true)
  | .n32 => (32, false)
  | .i64 => (64, true)
  | .n64 => (64, false)
  | .f64 | .f32 | .f16 | .bf16 | .e4m3 | .e5m2 | .e2m1 => (0, false)

/-- The range of an integer type; i4 runs from -7 to 7 (spec/12 R260). -/
def intRange (t : CvtTy) : Int × Int :=
  match cvtInt t with
  | (n, true) => (if n = 4 then -7 else -((2 ^ (n - 1) : Nat) : Int), ((2 ^ (n - 1) : Nat) : Int) - 1)
  | (n, false) => (0, ((2 ^ n : Nat) : Int) - 1)

/-- A source of an integer type read; the reserved i4 code reads 0 and sets I4C. -/
def readInt (t : CvtTy) (x : Nat) : Int × Word :=
  match cvtInt t with
  | (4, true) => readI4 x
  | (n, true) => (signedOf n x, 0)
  | (n, false) => ((x % 2 ^ n : Nat), 0)

/-! ### The rules of R266 to R268 -/

/-- A value rounded to a float format, saturating or not; NaN and infinities as R266 and R267 give. -/
def toFloat (f : Fmt) (mode : RMode) (sat : Bool) (x : FVal) : Nat × Word :=
  match x with
  | .nan b => (f.nan, flagIf (b || f.kind == .finite) fNV)
  | .inf n =>
    if sat || f.kind == .finite then (f.signed n f.maxImage, fOF ||| fNX)
    else if f.kind = .noInf then (f.nan, 0)
    else (f.signed n f.infImage, 0)
  | .fin n m e => if m = 0 then (f.signed n 0, 0) else f.round mode sat n m e false

/-- A value rounded stochastically (spec/12 R270). -/
def toFloatSr (f : Fmt) (w r : Nat) (sat : Bool) (x : FVal) : Nat × Word :=
  match x with
  | .fin n m e => if m = 0 then toFloat f .rne sat x else f.stochastic w r n m e
  | _ => toFloat f .rne sat x

/-- An integer as a value. -/
def intVal (x : Int) : FVal := .fin (decide (x < 0)) x.natAbs 0

/-- A value rounded to an integer type (spec/12 R268). -/
def toInteger (t : CvtTy) (mode : RMode) (x : FVal) : Int × Word :=
  let r := intRange t
  match x with
  | .nan _ => (0, fNV)
  | .inf n => (if n then r.1 else r.2, fNV)
  | .fin n m e =>
    -- a magnitude of 2^70 or more lies outside every range
    if 70 ≤ (m.log2 : Int) + e ∧ m ≠ 0 then (if n then r.1 else r.2, fNV)
    else
      let y := toIntegral mode n m e
      if y.1 < r.1 then (r.1, fNV) else if r.2 < y.1 then (r.2, fNV) else (y.1, flagIf y.2 fNX)

/-- An integer taken modulo 2^width, as a value of the type; i4 never gets its reserved code (spec/12 R261). -/
def truncInt (t : CvtTy) (x : Int) : Int × Word :=
  match cvtInt t with
  | (4, true) => if wrap 4 x = 8 then (-7, fSAT) else (signedOf 4 (wrap 4 x), 0)
  | (n, true) => (signedOf n (wrap n x), 0)
  | (n, false) => ((wrap n x : Nat), 0)

/-- A source image of a type as a value. -/
def sourceVal (t : CvtTy) (x : Nat) : FVal × Word :=
  match cvtFmt t with
  | some f => (f.val x, 0)
  | none =>
    let r := readInt t x
    (intVal r.1, r.2)

/-- Bits of a register or pair that a result of the type fills (spec/15 R331). -/
def destImage (t : CvtTy) (x : Int) : Nat := wrap (if t.wide then 64 else 32) x

/-- VCVT of one image. -/
def convert (st dt : CvtTy) (mode : RMode) (sat : Bool) (x : Nat) : Nat × Word :=
  match cvtFmt st, cvtFmt dt with
  | none, none =>
    let v := readInt st x
    let r := if sat then satTo (intRange dt).1 (intRange dt).2 v.1 else truncInt dt v.1
    (destImage dt r.1, v.2 ||| r.2)
  | _, some f =>
    let v := sourceVal st x
    let r := toFloat f mode sat v.1
    (r.1, v.2 ||| r.2)
  | some f, none =>
    let r := toInteger dt mode (f.val x)
    (destImage dt r.1, r.2)

/-- The rounding mode that VCVT selects. -/
def cvtMode (m : CvtMode) (g : Group) : RMode :=
  match m with
  | .rne => .rne
  | .rtz => .rtz
  | .rup => .rup
  | .rdn => .rdn
  | .dyn => dynMode g.fpsr

/-- VCVT. -/
def execVcvt (st dt : CvtTy) (rm : CvtMode) (sat : Bool) (d a : VOp) (s : State) : Res :=
  vecWord s { op := d, wide := dt.wide } [{ op := a, wide := st.wide }] fun g _ xs =>
    match xs with
    | [x] => convert st dt (cvtMode rm g) sat x
    | _ => (0, 0)

/-- VCVTSR: the random bits stand in v[d] before the word (spec/15 R333). -/
def execVcvtsr (st dt : CvtTy) (sat : Bool) (d a : VOp) (s : State) : Res :=
  vecWord s { op := d, wide := dt.wide } [{ op := a, wide := st.wide }] fun _ old xs =>
    match xs, cvtFmt dt with
    | [x], some f =>
      let v := sourceVal st x
      let r := toFloatSr f (if st = .f64 then 32 else 16) (old % 4294967296) sat v.1
      (r.1, v.2 ||| r.2)
    | _, _ => (0, 0)

/-! ### VPACK and VUNPK (spec/15 R335) -/

/-- The type of a packed kind. -/
def packTy : PackKind → CvtTy
  | .f16 => .f16
  | .bf16 => .bf16
  | .i8 => .i8
  | .n8 => .n8
  | .i4 => .i4
  | .e2m1 => .e2m1
  | .e4m3 => .e4m3
  | .e5m2 => .e5m2

/-- Bits of an element of a packed kind. -/
def packBits : PackKind → Nat
  | .f16 | .bf16 => 16
  | .i8 | .n8 | .e4m3 | .e5m2 => 8
  | .i4 | .e2m1 => 4

/-- The value that VPACK packs: the 8-bit and 4-bit kinds saturate. -/
def packed (kind : PackKind) (x : Nat) : Nat × Word :=
  match kind with
  | .f16 | .bf16 => convert .f32 (packTy kind) .rne false x
  | .e2m1 | .e4m3 | .e5m2 => convert .f32 (packTy kind) .rne true x
  | .i8 | .n8 | .i4 => convert .i32 (packTy kind) .rne true x

/-- VPACK. -/
def execVpack (kind : PackKind) (d a : VOp) (k : Fin 8) (s : State) : Res :=
  vecWord s { op := d } [{ op := a }] fun _ old xs =>
    match xs with
    | [x] =>
      let r := packed kind x
      (insertN 32 old r.1 (packBits kind * k.val) (packBits kind), r.2)
    | _ => (0, 0)

/-- The result of VUNPK for an element. -/
def unpacked (kind : PackKind) (x : Nat) : Nat × Word :=
  match kind with
  | .f16 | .bf16 | .e2m1 | .e4m3 | .e5m2 => convert (packTy kind) .f32 .rne false x
  | .i8 | .n8 | .i4 => convert (packTy kind) .i32 .rne false x

/-- VUNPK. -/
def execVunpk (kind : PackKind) (d a : VOp) (k : Fin 8) (s : State) : Res :=
  vecWord s { op := d } [{ op := a }] fun _ _ xs =>
    match xs with
    | [x] => unpacked kind (x / 2 ^ (packBits kind * k.val) % 2 ^ packBits kind)
    | _ => (0, 0)

/-! ### Quotients -/

/-- A quotient of two finite values, the divisor not zero, to 192 bits: magnitude, exponent and whether more follows. -/
def divVal (m : Nat) (e : Int) (n : Nat) (k : Int) : Nat × Int × Bool :=
  let up := n.log2 + 192
  let x := m * 2 ^ up
  (x / n, e - k - up, x % n != 0)

/-- A magnitude with more following, rounded to an integer by rne, and whether that changed it. -/
def quotInt (m : Nat) (e : Int) (more : Bool) : Nat × Bool :=
  let u := unitsAt m e 0 more
  (roundUnits .rne false u, u.2 != .none)

/-- A quotient of values rounded to an integer, when it is a number: rne of x / y and whether that changed it; an infinite
quotient gives `none` with its sign. -/
inductive Quot where
  | nan
  | inf (neg : Bool)
  | num (q : Int) (inexact : Bool)
deriving DecidableEq, Repr

/-- rne(x / y). -/
def quotient (x y : FVal) : Quot :=
  match x, y with
  | .nan _, _ | _, .nan _ => .nan
  | .inf _, .inf _ => .nan
  | .inf a, .fin b _ _ => .inf (a != b)
  | .fin _ _ _, .inf _ => .num 0 false
  | .fin a m e, .fin b n k =>
    if n = 0 then .nan
    else
      let d := divVal m e n k
      let r := quotInt d.1 d.2.1 d.2.2
      .num (if a != b then -(r.1 : Int) else r.1) r.2

/-! ### VQNT and VDQNT (spec/15 R336, R337; spec/12 R258, R262) -/

/-- SCALE and ZP of a group entry (spec/12 R262). -/
def entScale (y : Nat) : FVal := fmtF16.val (y % 65536)
def entZp (y : Nat) : Nat := fieldOf y 23 16

/-- The code of x under a group entry. -/
def quantCode (top : Nat) (x y : Nat) : Nat × Word :=
  let xv := fmtF32.val x
  let sc := entScale y
  let zp := entZp y
  if sc.isZero then (zp, fNV)
  else
    match quotient xv sc with
    | .nan => (zp, fNV)
    | .inf n => (if n then 0 else top, fSAT)
    | .num q ix =>
      let c := satTo 0 top (q + zp)
      (c.1.toNat, c.2 ||| flagIf ix fNX)

/-- A group entry from a minimum and a maximum. -/
def quantEntry (top : Nat) (x y : Nat) : Nat × Word :=
  let mn := fmtF32.val x
  let mx := fmtF32.val y
  if mn.isNan || mx.isNan then (32256, fNV)
  else
    let lo : FVal := match mn with | .fin true m e => .fin true m e | .inf true => .inf true | _ => .fin false 0 0
    let hi : FVal := match mx with | .fin false m e => .fin false m e | .inf false => .inf false | _ => .fin false 0 0
    if lo.isZero && hi.isZero then (15360, 0)
    else
      let sc : Nat × Word :=
        match (sumVal .rne [hi, lo.neg]).1 with
        | .fin _ m e =>
          let d := divVal m e top 0
          let r := fmtF16.round .rne false false d.1 d.2.1 d.2.2
          if r.1 = 0 then (1, r.2) else if fmtF16.maxImage < r.1 then (fmtF16.maxImage, r.2) else r
        | _ => (fmtF16.maxImage, fOF ||| fNX)
      let z : Nat × Word :=
        match quotient lo.neg (fmtF16.val sc.1) with
        | .num q ix =>
          let c := satTo 0 255 q
          (c.1.toNat, c.2 ||| flagIf ix fNX)
        | .inf _ => (255, fSAT)
        | .nan => (0, 0)
      (sc.1 + 65536 * z.1, sc.2 ||| z.2)

/-- x divided by a block scale: NaN where the scale is NaN (spec/12 R258, R267). -/
def byScale (x : FVal) (c : Nat) (up : Bool) : FVal :=
  if c = 255 then .nan false
  else
    match x with
    | .fin n m e => .fin n m (if up then e + c - 127 else e - c + 127)
    | y => y

/-- VQNT of one lane. -/
def quantise (kind : QntKind) (x y : Nat) : Nat × Word :=
  match kind with
  | .q8 => quantCode 255 x y
  | .q4 => quantCode 15 x y
  | .e2m1 => toFloat fmtE2m1 .rne true (byScale (fmtF32.val x) (y % 256) false)
  | .ent8 => quantEntry 255 x y
  | .ent4 => quantEntry 15 x y

/-- VQNT. -/
def execVqnt (kind : QntKind) (d a b : VOp) (s : State) : Res :=
  vecWord s { op := d } [{ op := a }, { op := b }] fun _ _ xs =>
    match xs with
    | [x, y] => quantise kind x y
    | _ => (0, 0)

/-- SCALE * (code - ZP) (spec/12 R262). -/
def groupValue (code y : Nat) : FVal × Word := mulVal (entScale y) (intVal ((code : Int) - entZp y))

/-- VDQNT of one lane. -/
def dequantise (kind : DqntKind) (x y : Nat) : Nat × Word :=
  match kind with
  | .q8 =>
    let v := groupValue (x % 256) y
    let r := fmtF32.ofVal .rne v.1
    (r.1, r.2 ||| v.2)
  | .q4 =>
    let v := groupValue (x % 16) y
    let r := fmtF32.ofVal .rne v.1
    (r.1, r.2 ||| v.2)
  | .e2m1 => fmtF32.ofVal .rne (byScale (fmtE2m1.val (x % 16)) (y % 256) true)
  | .i4 =>
    let v := readI4 x
    let r := fmtF32.mul .rne (intVal v.1) (fmtF32.val y)
    (r.1, r.2 ||| v.2)
  | .i8 => fmtF32.mul .rne (intVal (signedOf 8 x)) (fmtF32.val y)

/-- VDQNT. -/
def execVdqnt (kind : DqntKind) (d a b : VOp) (s : State) : Res :=
  vecWord s { op := d } [{ op := a }, { op := b }] fun _ _ xs =>
    match xs with
    | [x, y] => dequantise kind x y
    | _ => (0, 0)

/-! ### VRNG (spec/15 R334; spec/12 R269) -/

/-- srbits of R269. -/
def srbits (seed : Word) (tid idx : Nat) (step : Word) : W32 :=
  let x := seed ^^^ BitVec.ofNat 64 (tid % 65536 * 281474976710656 + idx % 281474976710656)
  let x := x + step * 0x9E3779B97F4A7C15
  let x := (x ^^^ (x >>> 30)) * 0xBF58476D1CE4E5B9
  let x := (x ^^^ (x >>> 27)) * 0x94D049BB133111EB
  let x := x ^^^ (x >>> 31)
  (x >>> 32).setWidth 32

/-- VRNG: the lane's old v[d] is its element offset. -/
def execVrng (d : VOp) (a b : SReg) (s : State) : Res :=
  vecWord s { op := d } [] fun g old _ =>
    let hi := (g.sreg (a.val + 1)).toNat
    ((srbits (g.sreg a.val) (hi / 281474976710656) (hi + old) (g.sreg b.val)).toNat, 0)

end Sys2Proof.Machine
end

