-- ==== Sys2Proof/Machine/MatrixArith.lean ====
section
/-!
DEFINITION. The arithmetic of tile products: elements, windowed sums, the flashing's check (spec/09 R190 to R196; spec/12 R258,
R259, R262).
-/

namespace Sys2Proof.Machine

open Sys2Proof

/-! ### Elements -/

/-- Depth of a tile product (spec/09 R190). -/
def mmaDepth (fmt : MmaFmt) : Nat :=
  match fmt with
  | .bf16 | .f16 => 32
  | .e4m3 | .e5m2 | .i8 | .q8 => 64
  | .e2m1 | .i4 | .q4 => 128

/-- The code of a format in %ttile and check records (spec/09 R201). -/
def mmaCode : MmaFmt → Nat
  | .e4m3 => 0
  | .e5m2 => 1
  | .e2m1 => 2
  | .i8 => 3
  | .i4 => 4
  | .q8 => 5
  | .q4 => 6
  | .bf16 => 7
  | .f16 => 8

/-- Formats whose accumulator is i32. -/
def mmaInteger : MmaFmt → Bool
  | .i8 | .i4 => true
  | _ => false

/-- Group-quantised formats. -/
def mmaGrouped : MmaFmt → Bool
  | .q8 | .q4 => true
  | _ => false

/-- The zero that an inactive line or an element outside its tensor reads as (spec/09 R193; spec/17 R370). -/
def Elem.zero : Elem := {}

/-- The element of a float value. -/
def floatElem (v : FVal) : Elem := { val := v, nv := v.isSnan }

/-- An element of raw bits; `sc` is its group entry or block scale, where the format has one. -/
def elemOf (fmt : MmaFmt) (raw grp sc : Nat) : Elem :=
  match fmt with
  | .e4m3 => floatElem (fmtE4m3.val raw)
  | .e5m2 => floatElem (fmtE5m2.val raw)
  | .bf16 => floatElem (fmtBf16.val raw)
  | .f16 => floatElem (fmtF16.val raw)
  | .e2m1 => { val := byScale (fmtE2m1.val raw) sc true }
  | .i8 => { code := signedOf 8 raw, val := intVal (signedOf 8 raw) }
  | .i4 =>
    let r := readI4 raw
    { code := r.1, val := intVal r.1, i4c := r.2 != 0 }
  | .q8 | .q4 =>
    let c : Int := (raw : Int) - entZp sc
    let inf := match entScale sc with | .inf _ => true | _ => false
    { code := c, val := (mulVal (entScale sc) (intVal c)).1, grp := grp, scale := entScale sc,
      nv := (entScale sc).isSnan || (inf && c == 0) }

/-- Element `k` of 64 bytes of a line (spec/12 R259). -/
def rawElem (fmt : MmaFmt) (line : List Byte) (k : Nat) : Nat :=
  if mmaHalf fmt then (line.getD (2 * k) 0).toNat + 256 * (line.getD (2 * k + 1) 0).toNat
  else if mmaNibble fmt then (line.getD (k / 2) 0).toNat / 16 ^ (k % 2) % 16
  else (line.getD k 0).toNat

/-- The elements of a line of 64 bytes. -/
def lineElems (fmt : MmaFmt) (line : List Byte) : List Elem :=
  (List.range (mmaDepth fmt)).map fun k => elemOf fmt (rawElem fmt line k) 0 0

/-! ### Windowed sums (spec/09 R191) -/

/-- floor(log2 |t|) of a finite value that is not zero. -/
def topExp : FVal → Int
  | .fin _ m e => (m.log2 : Int) + e
  | _ => 0

/-- A finite value cut toward zero to a multiple of 2^q, in units of 2^q, and whether bits were lost. -/
def cutTo (q : Int) : FVal → Int × Bool
  | .fin n m e =>
    let u := unitsAt m e q false
    (if n then -(u.1 : Int) else u.1, u.2 != .none)
  | _ => (0, false)

/-- The windowed sum of some terms, and whether a term lost bits. -/
def windowed (ts : List FVal) : FVal × Bool :=
  if ts.any FVal.isNan then (.nan false, false)
  else
    let pos := ts.contains (.inf false)
    let neg := ts.contains (.inf true)
    if pos && neg then (.nan false, false)
    else if pos || neg then (.inf neg, false)
    else
      let nz := ts.filter fun t => !t.isZero
      match nz with
      | [] => (.fin (!ts.isEmpty && ts.all fun t => match t with | .fin n _ _ => n | _ => false) 0 0, false)
      | h :: rest =>
        let top := rest.foldl (fun a t => max a (topExp t)) (topExp h)
        let q := top - 64
        let r := nz.foldl (fun (a : Int × Bool) t =>
          let c := cutTo q t
          (a.1 + c.1, a.2 || c.2)) (0, false)
        (.fin (decide (r.1 < 0)) r.1.natAbs q, r.2)

/-- element(i, j) of R191: `bad` says that an input was NaN, `nv` that the read of one is invalid. Bits that the window alone drops set NX, and
no UF (spec/12 R266; log 101). -/
def elementOf (acc : FVal) (ts : List FVal) (bad nv : Bool) : Nat × Word :=
  let w := windowed (acc :: ts)
  match w.1 with
  | .nan _ => (fmtF32.nan, flagIf (nv || !bad) fNV)
  | v =>
    let r := fmtF32.ofVal .rne v
    (r.1, r.2 ||| flagIf w.2 fNX ||| flagIf nv fNV)

/-! ### Product terms (spec/09 R190, R192) -/

/-- The exact sum of products of codes. -/
def codeSum (xs ys : List Elem) : Int := (xs.zip ys).foldl (fun a p => a + p.1.code * p.2.code) 0

/-- The runs of a q product: the pairs of a run share their groups of A and B. -/
def runSums : List (Elem × Elem) → List (Elem × Elem × Int)
  | [] => []
  | (x, y) :: t =>
    match runSums t with
    | (x', y', n) :: rest =>
      if x'.grp = x.grp ∧ y'.grp = y.grp then (x', y', n + x.code * y.code) :: rest
      else (x, y, x.code * y.code) :: (x', y', n) :: rest
    | [] => [(x, y, x.code * y.code)]

/-- The term of a run whose integer sum is `n` (spec/09 R192). The scales multiply the sum, so an infinite scale makes an infinity even where
a code equals ZP (spec/12 R262, log 91). -/
def runTerm (r : Elem × Elem × Int) (n : Int) : FVal := (mulVal (mulVal (intVal n) r.1.scale).1 r.2.1.scale).1

/-- The product terms that a fault-free array delivers for an element (spec/09 R190, R192). -/
def elemTerms (fmt : MmaFmt) (xs ys : List Elem) : List FVal :=
  if mmaInteger fmt then [intVal (codeSum xs ys)]
  else if mmaGrouped fmt then (runSums (xs.zip ys)).map fun r => runTerm r r.2.2
  else (xs.zip ys).map fun p => (mulVal p.1.val p.2.val).1

/-- The read of an input of an element is invalid (spec/12 R257, R262). -/
def invalidInput (acc : FVal) (xs ys : List Elem) : Bool := acc.isSnan || xs.any (·.nv) || ys.any (·.nv)

/-- An input of an element is NaN. -/
def nanInput (acc : FVal) (xs ys : List Elem) : Bool :=
  acc.isNan || xs.any (fun e => e.val.isNan) || ys.any fun e => e.val.isNan

/-! ### The operands of a product, and what the array delivers -/

def Operands.row (o : Operands) (i : Nat) : List Elem := o.a.getD i []
def Operands.col (o : Operands) (j : Nat) : List Elem := o.b.getD j []
def Operands.activeRows (o : Operands) : List Nat := (List.range 64).filter fun i => o.rows.getLsbD i
def Operands.activeCols (o : Operands) : List Nat := (List.range 64).filter fun j => o.cols.getLsbD j

/-- The fault-free terms of an element. -/
def Operands.terms (o : Operands) (i j : Nat) : List FVal := elemTerms o.fmt (o.row i) (o.col j)

/-- The runs of an element of a q product. -/
def Operands.runs (o : Operands) (i j : Nat) : List (Elem × Elem × Int) := runSums ((o.row i).zip (o.col j))

/-- The run of an element that place `k` falls in. -/
def Operands.runAt (o : Operands) (i j k : Nat) : Nat := (runSums (((o.row i).zip (o.col j)).take (k + 1))).length - 1

/-- An element whose terms an error replaces; where the error is in the integer sums of its runs, those sums as delivered. -/
structure Wrong where
  row : Nat
  col : Nat
  terms : List FVal
  sums : Option (List Int) := none
deriving DecidableEq, Repr

/-- The error is in element (i, j). -/
def Wrong.at_ (x : Wrong) (i j : Nat) : Bool := x.row == i && x.col == j

/-- The terms that an attempt delivers. -/
def Operands.delivered (o : Operands) (w : List Wrong) (i j : Nat) : List FVal :=
  match w.find? fun x => x.at_ i j with
  | some x => x.terms
  | none => o.terms i j

/-- p(i, j): the windowed sum of the delivered terms, unrounded; an integer format has one term, the exact sum. -/
def Operands.p (o : Operands) (w : List Wrong) (i j : Nat) : FVal :=
  let ts := o.delivered w i j
  if mmaInteger o.fmt then ts.headD (.fin false 0 0) else (windowed ts).1

/-- Two values are the same. -/
def FVal.same : FVal → FVal → Bool
  | .nan _, .nan _ => true
  | .inf a, .inf b => a == b
  | .fin a m e, .fin b n f => a == b && alignTo (min e f) (.fin a m e) == alignTo (min e f) (.fin b n f)
  | _, _ => false

/-- The active elements, row by row. -/
def Operands.places (o : Operands) : List (Nat × Nat) := o.activeRows.flatMap fun i => o.activeCols.map fun j => (i, j)

/-- The p of the active elements, row by row. -/
def Operands.ps (o : Operands) (w : List Wrong) : List FVal := o.places.map fun x => o.p w x.1 x.2

/-- The 32-bit image of p(i, j) (spec/09 R214). -/
def pImage (fmt : MmaFmt) (p : FVal) : Nat :=
  if mmaInteger fmt then
    wrap 32 (alignTo 0 p)
  else (fmtF32.ofVal .rne p).1

/-- The term of a 32-bit image. -/
def imageTerm (fmt : MmaFmt) (x : Nat) : FVal :=
  if mmaInteger fmt then intVal (signedOf 32 x) else fmtF32.val x

/-! ### The check (spec/09 R194 to R196) -/

/-- No NaN and no infinity. -/
def finiteLine (l : List Elem) : Bool := l.all fun e => match e.val with | .fin .. => true | _ => false

/-- The magnitude of a value. -/
def absVal : FVal → FVal
  | .fin _ m e => .fin false m e
  | .inf _ => .inf false
  | .nan b => .nan b

/-- k_f as a power of two, or none for 0 (spec/09 R195). -/
def tolerance : MmaFmt → Option Int
  | .i8 | .i4 | .q8 | .q4 => none
  | .e4m3 | .e5m2 | .e2m1 => some (-22)
  | .bf16 | .f16 => some (-20)

/-- A finite value exceeds another by magnitude. -/
def magGt (x y : FVal) : Bool :=
  let q := leastExp [x, y]
  decide ((alignTo q y).natAbs < (alignTo q x).natAbs)

/-- |d| > k_f * r, or d no number. -/
def exceeds (fmt : MmaFmt) (d r : FVal) : Bool :=
  match d with
  | .nan _ | .inf _ => true
  | .fin n m e =>
    match tolerance fmt with
    | none => m != 0
    | some k =>
      match r with
      | .fin n' m' e' => if m = 0 then false else m' == 0 || magGt (.fin n m e) (.fin n' m' (e' + k))
      | _ => false

/-- The sum of values at a place, one value of each of some lines. -/
def lineSum (ls : List (List Elem)) (abs : Bool) (k : Nat) : FVal :=
  (windowed (ls.map fun l => let v := (l.getD k Elem.zero).val; if abs then absVal v else v)).1

/-- The flashing's sum for a line: its elements times the sums of the other side. -/
def flashSum (l : List Elem) (abs : Bool) (sums : List FVal) : FVal :=
  (windowed ((l.zip sums).map fun p => (mulVal (if abs then absVal p.1.val else p.1.val) p.2).1)).1

/-- What a check finds: the rows and columns that exceed. -/
structure Verdict where
  rows : List Nat
  cols : List Nat
deriving DecidableEq, Repr

/-- The integer sums of some run of the elements `ls` of a q product, added up, differ from the fault-free ones (spec/09 R192, R194). -/
def Operands.runsDiffer (o : Operands) (w : List Wrong) (ls : List (Nat × Nat)) : Bool :=
  let errors : List (List Int) := (w.filter fun x => ls.contains (x.row, x.col)).filterMap fun x =>
    x.sums.map fun ns =>
      let ds := (ns.zip (o.runs x.row x.col)).map fun p => p.1 - p.2.2.2
      (List.range (mmaDepth o.fmt)).map fun k => ds.getD (o.runAt x.row x.col k) 0
  (List.range (mmaDepth o.fmt)).any fun k => errors.foldl (fun a d => a + d.getD k 0) 0 != 0

/-- The sums of the flashing and of the array's output, for every checked line; for the formats with k_f = 0 the flashing's sum
is the fault-free one, for q8 and q4 run by run, and of an injected term, which is no sum of a run, the fault-free p (log 26). -/
def Operands.check (o : Operands) (w : List Wrong) : Verdict :=
  let rs := o.activeRows.filter fun i => finiteLine (o.row i)
  let cs := o.activeCols.filter fun j => finiteLine (o.col j)
  let ps : List (Nat × List (Nat × FVal)) :=
    rs.map fun i => (i, cs.map fun j => (j, o.p w i j))
  let p (i j : Nat) : FVal := (((ps.find? fun r => r.1 == i).bind fun r => r.2.find? fun c => c.1 == j).map (·.2)).getD
    (.fin false 0 0)
  let k := mmaDepth o.fmt
  let bs := cs.map o.col
  let as_ := rs.map o.row
  let sumB := (List.range k).map (lineSum bs false)
  let absB := (List.range k).map (lineSum bs true)
  let sumA := (List.range k).map (lineSum as_ false)
  let absA := (List.range k).map (lineSum as_ true)
  let exact : Bool := (tolerance o.fmt).isNone
  let clean (i j : Nat) : FVal := o.p [] i j
  let wrongAt (i j : Nat) : Bool := w.any fun x => x.at_ i j && x.sums.isNone
  let diff (f : FVal) (es : List FVal) : FVal := (sumVal .rne (f :: es.map FVal.neg)).1
  let rowBad (i : Nat) : Bool :=
    if exact then
      o.runsDiffer w (cs.map fun j => (i, j)) ||
        exceeds o.fmt ((sumVal .rne ((cs.filter (wrongAt i)).flatMap fun j => [clean i j, (p i j).neg])).1) (.fin false 0 0)
    else exceeds o.fmt (diff (flashSum (o.row i) false sumB) (cs.map (p i))) (flashSum (o.row i) true absB)
  let colBad (j : Nat) : Bool :=
    if exact then
      o.runsDiffer w (rs.map fun i => (i, j)) ||
        exceeds o.fmt ((sumVal .rne ((rs.filter fun i => wrongAt i j).flatMap fun i => [clean i j, (p i j).neg])).1)
          (.fin false 0 0)
    else exceeds o.fmt (diff (flashSum (o.col j) false sumA) (rs.map fun i => p i j)) (flashSum (o.col j) true absA)
  { rows := rs.filter rowBad, cols := cs.filter colBad }

/-- An attempt's outcome (spec/09 R196). -/
inductive Attempt where
  | clean
  | locatable (i j : Nat)
  | unlocatable
deriving DecidableEq, Repr

def Verdict.outcome (v : Verdict) : Attempt :=
  match v.rows, v.cols with
  | [], [] => .clean
  | [i], [j] => .locatable i j
  | _, _ => .unlocatable

/-- The errors left once element (i, j) is recomputed. -/
def without (w : List Wrong) (i j : Nat) : List Wrong := w.filter fun x => !x.at_ i j

/-! ### The accumulator (spec/09 R191, R192) -/

/-- The new image of an element, and its flags. -/
def Operands.result (o : Operands) (w : List Wrong) (acc : W32) (i j : Nat) : Nat × Word :=
  let ts := o.delivered w i j
  let c := flagIf ((o.row i).any (·.i4c) || (o.col j).any (·.i4c)) fI4C
  if mmaInteger o.fmt then
    let sum := ts.foldl (fun a t => a + alignTo 0 t) (0 : Int)
    (wrap 32 ((acc.toNat : Int) + sum), c)
  else
    let a := fmtF32.val acc.toNat
    let r := elementOf a ts (nanInput a (o.row i) (o.col j)) (invalidInput a (o.row i) (o.col j))
    (r.1, r.2 ||| c)

/-- Every active element of a tile renewed, with the flags. A line of operands that meets no active element raises none (spec/12 R264; log
102). -/
def Operands.accumulate (o : Operands) (w : List Wrong) (tile : Tab W32) : Tab W32 × Word :=
  o.activeRows.foldl (fun acc i =>
    o.activeCols.foldl (fun (acc : Tab W32 × Word) j =>
      let r := o.result w (tile.getD (64 * i + j) 0) i j
      (acc.1.set 0 (64 * i + j) (BitVec.ofNat 32 r.1), acc.2 ||| r.2)) acc) (tile, 0)

end Sys2Proof.Machine
end

