-- ==== Sys2Proof/Machine/Matrix.lean ====
section
/-!
DEFINITION. Matrix words: MMA, the accumulator moves, edge masks and check records (spec/17 R372 to R379).
-/

namespace Sys2Proof.Machine

open Sys2Proof

/-- A tile at or beyond ACC traps 0x04 in every lane (spec/06 R132); else `k`. -/
def tileOk (st : State) (it : Issue) (tile : AccReg) (k : MRes) : MRes :=
  if (st.team st.myTeam).acc ≤ tile.val then trapAll st it 4 (BitVec.ofNat 64 tile.val) 2 else k

/-- A local offset's alignment and bound, for `n` bytes (spec/17 R377); else `k`. -/
def offsetOk (st : State) (it : Issue) (space : Space) (off : Word) (align n : Nat) (k : MRes) : MRes :=
  if off.toNat % align ≠ 0 then trapAll st it 6 (BitVec.ofNat 64 align) off
  else if st.localRange space off n then k
  else trapAll st it 7 2048 off

/-! ### MMA (spec/17 R374 to R377) -/

/-- The 64 rows of A that a register fragment holds, in order, from 32 registers of each lane. -/
def fragmentRows (g : Group) (e : Nat) : List Byte :=
  (List.range 64).flatMap fun i =>
    (List.range 16).flatMap fun r => leBytes 4 (g.vreg (i / 2) (e + 16 * (i % 2) + r)).toNat

/-- The active lines of a mask, from a first line on. -/
def activeLines (m : Word) (first : Nat) : List Nat :=
  ((List.range 64).filter fun i => m.getLsbD i).map fun i => first + i

/-- The addresses that a line touches: its stored elements, and their scale entries. -/
def lineAddrs (fmt : MmaFmt) (d : BitVec 256) (kk l : Nat) : List Nat :=
  let nib := mmaNibble fmt
  let k := mmaDepth fmt
  let es := (natsFrom (kk * k) k).filter fun e => dInside d nib (dPlace d l e).1 (dPlace d l e).2
  es.map (fun e => dAddr d nib (dPlace d l e).1 (dPlace d l e).2)
    ++ (if mmaScaled fmt then es.map fun e => scaleAddr fmt d l (e / groupLen fmt d) else [])

/-- The first address on each 64 KiB page, in order. -/
def firstOnPages (l : List Nat) : List Nat :=
  (l.foldl (fun (acc : List Nat × NatSet) a =>
    if acc.2.contains (a / 65536) then acc else (acc.1 ++ [a], acc.2.add (a / 65536))) ([], [])).1

/-- The translations of some addresses as reads: the first that fails or meets poison, else the services awaited; where one must wait,
the word is held. -/
def State.probe (s : State) (as_ : List Nat) : State × Except (Nat × Nat) (List Nat) :=
  let bad := as_.findSome? fun a =>
    match s.translate s.myCore s.myFn s.mySlot a .read with
    | .fail b | .barred b => some (some b, a)
    | .poison _ => some (none, a)
    | _ => none
  let t := as_.foldl (fun t a => t.walked s.myCore s.myFn s.mySlot a) s
  if as_.any fun a => decide (s.translate s.myCore s.myFn s.mySlot a .read = .stall) then (t.hold_, .ok [])
  else match bad with
  | some (some b, a) => (t, .error (b, a))
  | some (none, a) => (t, .error (64, a))
  | none =>
    let r := as_.foldl (fun (acc : State × List Nat) a =>
      match acc.1.translate s.myCore s.myFn s.mySlot a .read with
      | .ok .. => (acc.1.cacheLeaf s.myCore s.myFn s.mySlot a, acc.2)
      | w =>
        let x := acc.1.serve acc.1.myFn acc.1.mySlot a w
        (x.1, NatSet.add acc.2 x.2)) (t, [])
    (r.1, .ok r.2)

/-- What a probe's failure traps: 0x07 with the bit, or 0x09 for a poisoned walk. -/
def probeTrap (st : State) (it : Issue) (b a : Nat) : MRes :=
  if b = 64 then trapAll st.countPoison it 9 1 (BitVec.ofNat 64 (a / 32 * 32))
  else trapAll st it 7 (BitVec.ofNat 64 (2 ^ b)) (BitVec.ofNat 64 a)

/-- The span of the active lines of a descriptor operand, first byte and length (spec/17 R376). -/
def gtSpan (fmt : MmaFmt) (d : BitVec 256) (lines : List Nat) : Nat × Nat :=
  let nib := mmaNibble fmt
  match lines.filter fun l => decide (l < dLines d nib) with
  | [] => (0, 0)
  | l :: t =>
    let last := t.getLastD l
    let lo := dAddr d nib (dPlace d l 0).1 (dPlace d l 0).2
    let e := dPlace d last (dLineLen d nib - 1)
    (lo, dAddr d nib e.1 e.2 + dWidth d - lo)

/-- A product put into the queue with its locks. -/
def startMma (st : State) (it : Issue) (sel : Bool) (op : MmaOp) (ls : List LockReq) : MRes :=
  withRoom st ls { st := st.addEng (.mma op) (it.flagOf sel) it.members ls }

/-- MMA. -/
def execMma (fmt : MmaFmt) (pair : Fin 4) (tile : AccReg) (form : MmaForm) (sel : Bool) (s : State) : Res :=
  collectiveAccess s fun it g st =>
    let t := st.team st.myTeam
    let rows := g.ereg (2 * pair.val)
    let cols := g.ereg (2 * pair.val + 1)
    let op : MmaOp :=
      { tile := tile.val, fmt := fmt, rows := rows, cols := cols, regs := [], aDesc := 0, bDesc := 0, space := .sp,
        aOff := 0, bOff := 0, gt := false, i := 0, j := 0, kk := 0, mode := t.mode, limit := t.limit,
        addr := it.addr it.pos }
    tileOk st it tile <|
      match form with
      | .rs a b sp_ =>
        let off := g.sreg b.val
        match groupArgs g it.wb a 32 with
        | .error d => trapAll st it 4 d
        | .ok e =>
          offsetOk st it (lspace sp_) off 64 4096 <|
            startMma st it sel
              { op with regs := fragmentRows g e, space := lspace sp_, bOff := off.toNat }
              [{ space := lspace sp_, owner := st.lockOwner st.myTeam (lspace sp_), first := off.toNat, len := 4096,
                 dst := false }]
      | .ss a b sp_ =>
        let x := g.sreg a.val
        let y := g.sreg b.val
        let lock (o : Word) : LockReq :=
          { space := lspace sp_, owner := st.lockOwner st.myTeam (lspace sp_), first := o.toNat, len := 4096, dst := false }
        if x.toNat % 64 ≠ 0 then trapAll st it 6 64 x
        else
          offsetOk st it (lspace sp_) y 64 0 <|
            offsetOk st it (lspace sp_) x 64 4096 <|
              offsetOk st it (lspace sp_) y 64 4096 <|
                startMma st it sel { op with space := lspace sp_, aOff := x.toNat, bOff := y.toNat } [lock x, lock y]
      | .gt a b co =>
        let da := g.treg a.val
        let db := g.treg b.val
        let c0 := (g.sreg co.val).toNat
        let i := c0 % 4294967296
        let j := c0 / 4294967296
        let kk := (g.sreg (co.val + 1)).toNat % 4294967296
        let la := activeLines rows (64 * i)
        let lb := activeLines cols (64 * j)
        let as_ := firstOnPages ((la.flatMap (lineAddrs fmt da kk)) ++ lb.flatMap (lineAddrs fmt db kk))
        let span (d : BitVec 256) (ls : List Nat) : LockReq :=
          { space := .virt, owner := 0, first := (gtSpan fmt d ls).1, len := (gtSpan fmt d ls).2, dst := false }
        match st.probe as_ with
        | (st, .error (b, a)) => probeTrap st it b a
        | (st, .ok []) =>
          startMma st it sel { op with gt := true, aDesc := da, bDesc := db, i := i, j := j, kk := kk, space := .virt }
            [span da la, span db lb]
        | (st, .ok ws) => { st := st, waits := (lanesOf it.mask).flatMap fun l => ws.map fun w => (l, w) }

/-! ### Accumulator moves (spec/17 R378, R379) -/

/-- MZERO. -/
def execMzero (tile : AccReg) (s : State) : Res :=
  collective s fun it _ st =>
    tileOk st it tile { st := st.addEng (.move (.zero tile.val)) none it.members [] }

/-- A tile image moved between a tile and a local level. -/
def tileImage (tile : AccReg) (off : SReg) (space : LSpace) (flag : Issue → Option Nat) (dst : Bool)
    (k : Nat → AccMove) (s : State) : Res :=
  collectiveAccess s fun it g st =>
    let o := g.sreg off.val
    let ls : List LockReq :=
      [{ space := lspace space, owner := st.lockOwner st.myTeam (lspace space), first := o.toNat, len := 16384, dst := dst }]
    tileOk st it tile <|
      offsetOk st it (lspace space) o 256 16384 <|
        withRoom st ls { st := st.addEng (.move (k o.toNat)) (flag it) it.members ls }

/-- MLDA. -/
def execMlda (tile : AccReg) (off : SReg) (space : LSpace) (sel : Bool) (s : State) : Res :=
  tileImage tile off space (fun it => it.flagOf sel) false (fun o => .load tile.val (lspace space) o) s

/-- MSTA. -/
def execMsta (tile : AccReg) (off : SReg) (space : LSpace) (sel : Bool) (s : State) : Res :=
  tileImage tile off space (fun it => it.flagOf sel) true (fun o => .store tile.val (lspace space) o none) s

/-- The register group of a fragment, checked after the tile. -/
def fragmentWord (tile : AccReg) (v : VNum) (s : State) (k : State → Issue → Group → Nat → MRes) : Res :=
  collective s fun it g st =>
    tileOk st it tile <|
      match groupArgs g it.wb v 32 with
      | .error d => trapAll st it 4 d
      | .ok e => k st it g e

/-- MFRG.rd. -/
def execMfrgRd (d : VNum) (tile : AccReg) (q : Fin 4) (sel : Bool) (s : State) : Res :=
  fragmentWord tile d s fun st it _ e =>
    { st := st.addEng (.move (.read tile.val e q.val)) (it.flagOf sel) it.members [] }

/-- Row and first column that a lane of a fragment holds, within its 16 rows. -/
def fragmentPlace (q lane : Nat) : Nat × Nat := (16 * q + lane / 2, 32 * (lane % 2))

/-- The elements of a fragment that the registers of every lane hold. -/
def fragmentImage (g : Group) (e q : Nat) : Tab W32 :=
  (List.range 32).foldl (fun t l =>
    let p := fragmentPlace q l
    (List.range 32).foldl (fun t k => t.put (64 * p.1 + p.2 + k) (g.vreg l (e + k))) t) []

/-- MFRG.wr reads its registers at issue. -/
def execMfrgWr (tile : AccReg) (v : VNum) (q : Fin 4) (s : State) : Res :=
  fragmentWord tile v s fun st it g e =>
    { st := st.addEng (.move (.write tile.val q.val (fragmentImage g e q.val))) none it.members [] }

/-! ### Edge masks and check records (spec/17 R372, R373) -/

/-- MEDGE. -/
def execMedge (em : EmReg) (a : SReg) (s : State) : Res := scalarWord s fun _ g => [.em em.val (g.sreg a.val)]

/-- MEDGE.n: the low min(s, 64) bits set. -/
def execMedgeN (em : EmReg) (a : SReg) (s : State) : Res :=
  scalarWord s fun _ g => [.em em.val (BitVec.ofNat 64 (2 ^ min (g.sreg a.val).toNat 64 - 1))]

/-- MCHK. -/
def execMchk (d : SReg) (tile : AccReg) (s : State) : Res :=
  perMember s fun m _ st =>
    let t := st.team st.myTeam
    if t.acc ≤ tile.val then { st := st, traps := trapLanes m.mask 4 (BitVec.ofNat 64 tile.val) 2 }
    else { st := st, writes := [.s d.val (t.checks.getD tile.val 0)] }

end Sys2Proof.Machine
end

