-- ==== Sys2Proof/Machine/NearMem.lean ====
section
/-!
DEFINITION. The near-memory product (spec/17 R390, R391).
-/

namespace Sys2Proof.Machine

open Sys2Proof

/-- m and n of R391. -/
def nmvRows (d : BitVec 256) : Nat := dRows d
def nmvLen (fmt : NmvFmt) (d : BitVec 256) : Nat := dLineLen d (mmaNibble (nmvMma fmt))

/-- NMV: once for each member. -/
def execNmv (fmt : NmvFmt) (acc : Bool) (h : HReg) (w : TReg) (c : SReg) (s : State) : Res :=
  accessEach s fun m g st =>
    let p := st.handle st.myTeam h.val
    let d := g.treg w.val
    let rows := nmvRows d
    let n := nmvLen fmt d
    let x := g.sreg c.val
    let y := g.sreg (c.val + 1)
    let fail (cause : Nat) (tsyn a : Word) : MRes := { st := st, traps := trapLanes m.mask cause tsyn a }
    if p.isRed || p.busy then handleError st m h.val p
    else if x.toNat % 4 ≠ 0 then fail 6 4 x
    else if y.toNat % 4 ≠ 0 then fail 6 4 y
    else if 65536 < rows ∨ 16384 < n then fail 7 2048 (BitVec.ofNat 64 (dBase d))
    else if !st.localRange .sp x (2 * n) then fail 7 2048 x
    else if !st.localRange .sp y (4 * rows) then fail 7 2048 y
    else
      let t := st.myTeam
      let lo := dBase d
      let hi := dAddr d false (rows - 1) 0 + dColb d
      let ls : List LockReq :=
        [{ space := .virt, owner := 0, first := lo, len := hi - lo, dst := false },
         { space := .sp, owner := t, first := x.toNat, len := 2 * n, dst := false },
         { space := .sp, owner := t, first := y.toNat, len := 4 * rows, dst := true }]
      withRoom st ls
        { st := (st.setHandle t h.val { p.fresh 0 0 with state := .filling, op := some st.nextId }).addEng
            (.nmv { handle := h.val, fmt := fmt, acc := acc, desc := d, x := x.toNat, y := y.toNat,
                    gen := (st.team t).gen }) none [] ls }

/-- A sum of exact terms as an f32 image (spec/09 R191). -/
def elementOver (ts : List FVal) : Nat :=
  match (windowed ts).1 with
  | .nan _ => fmtF32.nan
  | v => (fmtF32.ofVal .rne v).1

/-- The bytes of a row of W that its elements take. -/
def NmvOp.rowBytes (o : NmvOp) : Nat :=
  let n := nmvLen o.fmt o.desc
  if mmaNibble (nmvMma o.fmt) then (n + 1) / 2 else n * dWidth o.desc

/-- The scale entries of row `i` of W: first byte and length. -/
def NmvOp.scales (o : NmvOp) (i : Nat) : Nat × Nat :=
  let f := nmvMma o.fmt
  let n := nmvLen o.fmt o.desc
  (scaleAddr f o.desc i 0, if mmaScaled f then 4 * ((n + groupLen f o.desc - 1) / groupLen f o.desc) else 0)

/-- The addresses at the ends of row `i` of W and of its scale entries. -/
def NmvOp.addrs (o : NmvOp) (i : Nat) : List Nat :=
  let a := dAddr o.desc false i 0
  let ends (a n : Nat) : List Nat := if n = 0 then [] else [a, a + n - 1]
  ends a o.rowBytes ++ ends (o.scales i).1 (o.scales i).2

/-- y(i) as bytes, and whether it uses poison. -/
def State.nmvRow (s : State) (e : EngOp) (o : NmvOp) (i : Nat) : List Byte × Bool :=
  let f := nmvMma o.fmt
  let n := nmvLen o.fmt o.desc
  let w := s.engBytes e .virt (dAddr o.desc false i 0) o.rowBytes
  let x := s.engBytes e .sp o.x (2 * n)
  let sc := s.engBytes e .virt (o.scales i).1 (o.scales i).2
  let y := if o.acc then s.engBytes e .sp (o.y + 4 * i) 4 else ([], none)
  let term (j : Nat) : FVal :=
    let g := j / groupLen f o.desc
    let a := elemOf f (rawElem f w.1 j) g (leNat ((sc.1.drop (4 * g)).take 4))
    (mulVal a.val (fmtBf16.val (leNat ((x.1.drop (2 * j)).take 2)))).1
  let ts := (List.range n).map term ++ (if o.acc then [fmtF32.val (leNat y.1)] else [])
  (leBytes 4 (elementOver ts), w.2.isSome || x.2.isSome || sc.2.isSome || y.2.isSome)

/-- The product's handle, once its y is written or lost. -/
def State.nmvEnd (s : State) (id : Nat) (e : EngOp) (o : NmvOp) (upd : Handle → Handle) : State :=
  let x := upd (s.handle e.team o.handle)
  let s := s.dropEng id
  if x.state = .draining then s.freeHandle e.team o.handle { x with sumbad := false } else s.fillHandle e.team o.handle x

/-- The rows of y that are not made yet left unspecified (spec/17 R387, R383). -/
def State.nmvLose (s : State) (e : EngOp) (o : NmvOp) : State :=
  let s := s.bump
  let a := o.y + 4 * o.row
  let d : Dest := some (.scratch e.team a)
  (s.deposit [] e.fn e.slot 0 d (s.unspecified d a (4 * (nmvRows o.desc - o.row)))).bump

/-- The next row made: y(i), the fill pointer, and FAULT where poison was used; bytes of y that x takes too are unspecified. After the last row
the handle is FULL (spec/17 R387, R391). -/
def State.nmvMake (s : State) (id : Nat) (e : EngOp) (o : NmvOp) : State :=
  let i := o.row
  let a := o.y + 4 * i
  let r := s.nmvRow e o i
  let ys := ((r.1.zip (s.freeBytes a 4)).zip (natsFrom a 4)).map fun z =>
    (if within o.x (2 * nmvLen o.fmt o.desc) z.2 then z.1.2 else z.1.1, r.2)
  let s := s.askRange true e.core e.fn e.slot (dAddr o.desc false i 0) o.rowBytes
  let s := s.askRange true e.core e.fn e.slot (o.scales i).1 (o.scales i).2
  let s := (s.deposit [] e.fn e.slot 0 (some (.scratch e.team a)) ys).bump
  let x := s.handle e.team o.handle
  let s := (s.setHandle e.team o.handle { x with fill := 4 * (i + 1), fault := x.fault || r.2 }).shrinkLocks e.core id (4 * (i + 1))
  if nmvRows o.desc ≤ i + 1 then s.nmvEnd id e o fun x => x
  else s.setEng id { e with kind := .nmv { o with row := i + 1, service := none } }

/-- The product ends with GONE, the rest of y left unspecified where its scratchpad is still its own (spec/01 R27 step 4; spec/17 R387). -/
def State.nmvGone (s : State) (id : Nat) (e : EngOp) (o : NmvOp) : State :=
  (if s.tagged e.team o.gen then s.nmvLose e o else s).nmvEnd id e o fun x => { x with gone := true }

/-- A copy, or a near-memory product, cut short: its destination bytes not yet final are unspecified, and a flip that was to take it is
spent without effect (spec/02 R47, R48). -/
def State.cutShort (s : State) (e : EngOp) : State :=
  match e.kind with
  | .copy c => (c.flip.elim s fun k => s.spendFlip k false).bump.scramble e c (c.len + 1) c.done
  | .nmv o => if s.tagged e.team o.gen then s.nmvLose e o else s
  | _ => s

/-- The next row of a product, where it may be made (log 29). -/
def State.nmvStep (s : State) (id : Nat) (e : EngOp) (o : NmvOp) : State :=
  if o.stop || s.atBoundary e o.handle (o.y + 4 * o.row) then
    (if s.tagged e.team o.gen then s.nmvLose e o else s).nmvEnd id e o fun x => x
  else if s.engWaits id e || o.service.any fun n => (s.services.get? n).isSome then s
  else if !s.tagged e.team o.gen then s.nmvEnd id e o fun x => { x with gone := true }
  else if nmvRows o.desc ≤ o.row then s.nmvEnd id e o fun x => x
  else
    let bad := (o.addrs o.row).findSome? fun a =>
      match s.translate e.core e.fn e.slot a .read with
      | .ok .. | .poison _ => none
      | w => some (w, a)
    match bad with
    | none => s.nmvMake id e o
    | some (w, a) =>
      let s := if w = .stall then s else s.walked e.core e.fn e.slot a
      match w with
      | .stall => s
      | .fail 10 => (s.nmvLose e o).nmvEnd id e o fun x => { x with gone := true }
      | .cow .. | .place .. =>
        let r := s.serve e.fn e.slot a w
        let x := r.1.handle e.team o.handle
        (r.1.setEng id { e with kind := .nmv { o with service := some r.2, faultBase := x.fault } }).setHandle e.team
          o.handle { x with fault := true }
      | _ => (s.nmvLose e o).nmvEnd id e o fun x => { x with fault := true }

end Sys2Proof.Machine
end

