-- ==== Sys2Proof/Machine/Reduce.lean ====
section
/-!
DEFINITION. Deadline reductions: records read at issue (spec/18 R392), the tree and its arithmetic (spec/10 R219, R227), handles and
rounds (spec/10 R220 to R233), and the RED words (spec/18 R395 to R399).
-/

namespace Sys2Proof.Machine

open Sys2Proof

/-! ### Records read at issue (spec/18 R392) -/

/-- The pieces of a range of `n` bytes in a space: a local range is one piece. -/
def rangePieces (space : Space) (a n : Nat) : List (Nat × Nat) :=
  if space = .virt then pagePieces (n / 65536 + 2) a n else if n = 0 then [] else [(a, n)]

/-- What a range checked as one access gives: the places of its pieces, or what stops the word and the address of the piece that it
stops at. -/
structure Ranged where
  st : State
  locs : List (Loc × Nat × Nat) := []
  bad : Option Check := none
  badAt : Nat := 0

/-- The translation and bound of a range, its pieces in order. -/
def State.reachRange (s : State) (space : Space) (a n : Nat) (kind : AccKind) : Ranged :=
  (rangePieces space a n).foldl (fun r p =>
    match r.bad with
    | some _ => r
    | none =>
      let c := r.st.reach (.space space) 0 p.1 p.2 kind
      match c.2 with
      | .ok l => { r with st := c.1, locs := r.locs ++ [(l, p.1, p.2)] }
      | b => { r with st := c.1, bad := some b, badAt := p.1 }) { st := s }

/-- A range checked as one load or store of a member (spec/16 R344): alignment, then translation and bound of the whole of it, and then the
range locks (spec/11 R238). -/
def State.checkRange (s : State) (space : Space) (ea : Word) (align n : Nat) (kind : AccKind) : Ranged :=
  if ea.toNat % align ≠ 0 then { st := s, bad := some (.trap 6 (BitVec.ofNat 64 align)) }
  else
    let r := s.reachRange space ea.toNat n kind
    match r.bad, s.lockCheck space ea.toNat n (kind == .write) (.frame 0 0) with
    | none, .trap k y => if n = 0 then r else { r with bad := some (.trap k y), badAt := ea.toNat }
    | _, _ => r

/-- A failed check in every lane of a member; %tunit is the record's address, and for 0x09 that of the 32-byte unit accessed. -/
def checkFails (r : Ranged) (m : Fibre) (ea : Word) : Check → MRes
  | .ok _ => { st := r.st }
  | .trap k y => { st := r.st, traps := trapLanes m.mask k y (if k = 9 then BitVec.ofNat 64 (r.badAt / 32 * 32) else ea) }
  | .wait n => { st := r.st, waits := (lanesOf m.mask).map fun l => (l, n) }
  | .stall => { st := r.st.hold_ }

/-- The first poisoned unit of some pieces. -/
def State.firstPoison (s : State) (ls : List (Loc × Nat × Nat)) : Option Nat :=
  ls.findSome? fun p =>
    ((natsFrom (p.2.1 / 32) ((p.2.1 + p.2.2 - 1) / 32 - p.2.1 / 32 + 1)).find? fun u =>
      let lo := max (32 * u) p.2.1
      s.locPoisoned (p.1.shift (lo - p.2.1)) (min (32 * u + 32) (p.2.1 + p.2.2) - lo)).map (32 * ·)

/-- A record read at issue by a member: its bytes, or what stops the word (spec/18 R392). -/
def State.readRecord (s : State) (m : Fibre) (ea : Word) (align n : Nat) : Except MRes (State × List Byte) :=
  let r := s.checkRange .virt ea align n .read
  match r.bad with
  | some b => .error (checkFails r m ea b)
  | none =>
    match r.st.firstPoison r.locs with
    | some a => .error { st := (r.locs.foldl (fun s p => s.askLoc p.1 p.2.2) r.st).countPoison, traps := trapLanes m.mask 9 0 (BitVec.ofNat 64 a) }
    | none => .ok ((r.locs.foldl (fun s p => s.askLoc p.1 p.2.2) r.st).bump, r.locs.flatMap fun p => r.st.readLoc p.1 p.2.2)

/-- Bytes `k` to `k + n - 1` of a record as a number. -/
def recField (bs : List Byte) (k n : Nat) : Nat := leNat ((bs.drop k).take n)

/-! ### The tree (spec/10 R219) -/

def treeParent (i : Nat) : Nat := (i - 1) / 8

/-- Children of participant `i` among `n`. -/
def treeChildren (n i : Nat) : List Nat := (natsFrom (8 * i + 1) 8).filter fun c => decide (c < n)

/-- depth(i): the number of steps to the root. -/
def treeDepth : Nat → Nat → Nat
  | 0, _ => 0
  | fuel + 1, i => if i = 0 then 0 else treeDepth fuel (treeParent i) + 1

/-- N is at most 1,024, and a depth at most 4. -/
def redDepth (i : Nat) : Nat := treeDepth 4 i

/-- H and l(i). -/
def treeHeight (n : Nat) : Nat := redDepth (n - 1)
def treeLevel (n i : Nat) : Nat := treeHeight n - redDepth i

/-- SLACK below 200 acts as 200 (spec/10 R220). -/
def slackOf (x : Nat) : Nat := max 200 x

/-- The package of a participant. -/
def RedSlot.pkg (x : RedSlot) (i : Nat) : Nat := x.pkgs.getD i 0

/-- A participant that can be reached; this package always can. -/
def State.joined (s : State) (x : RedSlot) (i : Nat) : Bool := i == x.self || s.reachable (x.pkg i)

/-- The nearest reachable ancestor of a participant (spec/10 R234). -/
def State.upNode (s : State) (x : RedSlot) : Nat → Nat → Option Nat
  | 0, _ => none
  | fuel + 1, i => if i = 0 then none else if s.joined x (treeParent i) then some (treeParent i) else s.upNode x fuel (treeParent i)

/-- The participants to which a node passes deliveries down: its children, and in place of an unreachable one its own
(spec/10 R234). -/
def State.downNodes (s : State) (x : RedSlot) : Nat → Nat → List Nat
  | 0, _ => []
  | fuel + 1, i =>
    (treeChildren x.n i).flatMap fun c => if s.joined x c then [c] else s.downNodes x fuel c

/-- The identity of the key under which a group's packets travel (spec/10 R218); of a slot that R67 has erased, that of the erased slot
(R234, log 88). -/
def State.redKey (s : State) (x : RedSlot) : Nat := s.keyId ((s.fn x.fn).kbase + x.kslot)

/-- The group slot of a GID. -/
def State.redGroup (s : State) (gid : Nat) : Option RedSlot := (s.redSlots.find? fun e => e.2.gid == gid).map (·.2)

/-! ### Arithmetic (spec/10 R227) -/

/-- combine of two elements. -/
def redCombine (op type a b : Nat) : Nat :=
  if type = 2 then
    match op with
    | 0 => (a + b) % 4294967296
    | 1 => if signedOf 32 a ≤ signedOf 32 b then a else b
    | _ => if signedOf 32 a ≤ signedOf 32 b then b else a
  else if op = 0 then (fmtF32.add .rne (fmtF32.val a) (fmtF32.val b)).1
  else if (fmtF32.val a).isNan || (fmtF32.val b).isNan then fmtF32.nan
  else (fmtF32.pick (op != 1) a b).1

/-- The result of an element to which nobody contributed. -/
def redNone (op type : Nat) : Nat :=
  match op with
  | 0 => 0
  | 1 => if type = 2 then 2147483647 else fmtF32.infImage
  | _ => if type = 2 then 2147483648 else fmtF32.signed true fmtF32.infImage

/-- Vectors combined element by element. -/
def redVectors (op type : Nat) (a b : List W32) : List W32 :=
  List.zipWith (fun x y => BitVec.ofNat 32 (redCombine op type x.toNat y.toNat)) a b

/-- The values and the bitmap of a node: its own, then its children's partials in ascending order (spec/10 R226). -/
def NodeState.sum (n : NodeState) (self : Nat) : Option (List W32) × NatSet :=
  n.partials.foldl (fun acc q =>
    if q.2.map.isEmpty then acc
    else (some (acc.1.elim q.2.values fun v => redVectors n.op n.type v q.2.values),
          q.2.map.foldl NatSet.add acc.2)) (n.own, if n.own.isSome then [self] else [])

/-- Words 0 to 15 of R229. -/
def mapWord (m : NatSet) (w : Nat) : Nat := (m.filter fun i => i / 64 == w).foldl (fun a i => a + 2 ^ (i % 64)) 0

/-- The CRC32C of R228. -/
def redCrc (values : List W32) (m : NatSet) : W32 :=
  crcMore 0 (values.flatMap (fun v => leBytes 4 v.toNat) ++ (List.range 16).flatMap fun w => leBytes 8 (mapWord m w))

/-! ### Handles of a channel -/

/-- The handle bound to a channel of a group on this package: team and number (spec/10 R221); where two slots hold one GID, the first
(log 38). -/
def State.channelHandle (s : State) (gid chan : Nat) : Option (Nat × Nat) :=
  s.teams.findSome? fun t =>
    (t.2.handles.find? fun h => h.2.isRed && h.2.red.gid == gid && h.2.red.chan == chan).map fun h => (t.1, h.1)

/-- A channel of a slot is bound; while the slot of a function that was reset waits for its rounds, it stays so (spec/10 R234). -/
def State.slotBound (s : State) (grp : Nat) : Bool :=
  (s.teams.any fun t => t.2.handles.any fun h => h.2.isRed && h.2.red.grp == grp)
    || (s.redSlots.get? grp).any (·.closing)

/-- A channel of a group slot is bound on this package (spec/10 R221). -/
def State.channelBound (s : State) (x : RedSlot) (grp chan : Nat) : Bool :=
  (s.teams.any fun t => t.2.handles.any fun h => h.2.isRed && h.2.red.grp == grp && h.2.red.chan == chan)
    || (x.closing && s.nodes.any fun n => n.gid == x.gid && n.chan == chan)

/-- A change of the reduction part of a handle. -/
def State.modRed (s : State) (t h : Nat) (f : RedHandle → RedHandle) : State :=
  s.setHandle t h { s.handle t h with red := f (s.handle t h).red }

/-- A counter of 16 bits that saturates (spec/10 R229). -/
def sat16 (x : Nat) : Nat := min x 65535

/-- CONF, STALE and CDROP of a channel's handle, where one is bound. -/
def State.countConf (s : State) (gid chan : Nat) : State :=
  match s.channelHandle gid chan with
  | some (t, h) => s.modRed t h fun r => { r with conf := sat16 (r.conf + 1) }
  | none => s

def State.countStale (s : State) (t h : Nat) : State := s.modRed t h fun r => { r with stale := sat16 (r.stale + 1) }

/-- G of a round (spec/10 R228). -/
def giveUpTime (n d slack : Nat) : Nat := d + (2 * treeHeight n + 2) * slackOf slack

/-- The lock id of DST of a bound handle, after that of its correction area, which is even. -/
def dstLock (op : Nat) : Nat := op + 1

/-- The operation, as its accesses see it, of the team that holds a handle. -/
def State.teamOp (s : State) (t : Nat) : EngOp :=
  let i := (s.team t).inst
  { kind := .move (.zero 0), core := (s.team t).core, team := t, slot := (s.inst i).slot, fn := (s.inst i).fn }

/-- A handle that is FULL for the round: DST leaves the lock table (spec/10 R221). -/
def State.fullRed (s : State) (t h : Nat) (x : Handle) : State :=
  let s := (x.op.map dstLock).elim s fun op => s.unlock op
  (s.setHandle t h { x with state := .full }).wakeHandle t h

/-- A reduction handle becomes FREE: its channel is unbound and its locks are released (spec/10 R224). -/
def State.freeRed (s : State) (t h : Nat) (x : Handle) : State :=
  let s := x.op.elim s fun op => (s.unlock op).unlock (dstLock op)
  s.freeHandle t h { x with red := {}, round := 0 }

/-! ### Nodes (spec/10 R226) -/

/-- The state of a round at the node. -/
def State.node? (s : State) (gid chan round : Nat) : Option NodeState :=
  s.nodes.find? fun n => n.gid == gid && n.chan == chan && n.round == round

/-- A node's state put in its place. -/
def State.setNode (s : State) (n : NodeState) : State :=
  { s with nodes := n :: s.nodes.filter fun x => !(x.gid == n.gid && x.chan == n.chan && x.round == n.round) }

/-- State for a round from the event that creates it; none where it would be the fifth round of its channel. -/
def State.openNode (s : State) (n : NodeState) : Option State :=
  if (s.node? n.gid n.chan n.round).isSome then some s
  else if 4 ≤ (s.nodes.filter fun x => x.gid == n.gid && x.chan == n.chan && !x.forwarded).length then none
  else some (s.setNode n)

/-- The state of a round that a handle starts: new where there is none, or where there is only what a round of that number that was
started before has left (spec/10 R226). -/
def State.startNode (s : State) (n : NodeState) : State :=
  match s.node? n.gid n.chan n.round with
  | none => (s.openNode { n with bound := true }).getD s
  | some y =>
    if y.forwarded && y.bound then
      let s : State := { s with nodes := s.nodes.filter fun x => !(x.gid == n.gid && x.chan == n.chan && x.round == n.round) }
      (s.openNode { n with bound := true }).getD s
    else s.setNode { y with bound := true }

/-! ### Nodes that are over -/

/-- G of a node. -/
def NodeState.giveUp (x : NodeState) (n : Nat) : Nat := giveUpTime n x.d x.slack

/-- Nodes that have forwarded are forgotten at their give-up times, and group slots of a function that was reset go with their last
node (spec/10 R233, R234). -/
def State.ageNodes (s : State) : State :=
  let keep (x : NodeState) : Bool :=
    !x.forwarded || ((s.redGroup x.gid).any fun g => decide (s.time < x.giveUp g.n))
  let ns := s.nodes.filter keep
  { s with nodes := ns,
           redSlots := s.redSlots.filter fun e => !e.2.closing || ns.any fun x => x.gid == e.2.gid }

/-! ### The words -/

/-- FILLING or FULL. -/
def redLive (x : HState) : Bool := x == .filling || x == .full

/-- The reduction-error trap (spec/10 R222). -/
def redTrap (st : State) (m : Fibre) (code : Nat) : MRes := { st := st, traps := trapLanes m.mask 18 (BitVec.ofNat 64 code) }

/-- A field of the binding record is out of range, or a Res field is not zero (spec/10 R220). -/
def bindingBad (b : List Byte) : Bool :=
  let w (k : Nat) : Nat := recField b k 8
  let head := w 0
  let len := fieldOf head 50 32
  let cqn := fieldOf (w 16) 38 32
  fieldOf head 1 0 == 3 || fieldOf head 3 2 == 3 || fieldOf head 7 4 != 0 || fieldOf head 31 22 != 0
    || fieldOf head 63 51 != 0 || len == 0 || decide (262144 < len) || decide (64 < cqn) || fieldOf (w 16) 63 39 != 0
    || fieldOf (w 24) 63 57 != 0 || fieldOf (w 24) 56 0 % 64 != 0 || fieldOf (w 32) 63 57 != 0
    || (cqn != 0 && fieldOf (w 32) 56 0 % 64 != 0) || w 40 != 0

/-- The reduction part that a binding record gives. -/
def bindingOf (b : List Byte) (gid : Nat) : RedHandle :=
  let head := recField b 0 8
  { grp := fieldOf head 15 8, chan := fieldOf head 21 16, gid := gid, op := fieldOf head 1 0, type := fieldOf head 3 2,
    len := fieldOf head 50 32, d := recField b 8 8, slack := recField b 16 4, cqn := fieldOf (recField b 16 8) 38 32,
    dst := fieldOf (recField b 24 8) 56 0, cqa := fieldOf (recField b 32 8) 56 0 }

/-- Bytes of a correction record. -/
def RedHandle.recBytes (r : RedHandle) : Nat := 144 + 4 * r.len

/-- The ranges that a binding registers: its correction area, and DST while the handle is FILLING (spec/10 R221). -/
def RedHandle.areaLock (r : RedHandle) : LockReq :=
  { space := .virt, owner := 0, first := r.cqa, len := r.cqn * r.recBytes, dst := true }
def RedHandle.resultLock (r : RedHandle) : LockReq := { space := .virt, owner := 0, first := r.dst, len := 4 * r.len, dst := true }

/-- A definition record breaks R217 in its fields or its list; `bs` is the head and then the list (spec/10 R216, R217). -/
def definitionBad (pkg : Nat) (bs : List Byte) : Bool :=
  let head := recField bs 0 8
  let n := fieldOf head 25 16 + 1
  let self := fieldOf head 41 32
  let es := (List.range n).map fun i => recField bs (16 + 2 * i) 2
  fieldOf head 15 0 == 0 || fieldOf head 31 26 != 0 || fieldOf head 47 42 != 0 || fieldOf head 63 60 != 0
    || recField bs 8 8 != 0 || decide (n ≤ self) || es.any (fun e => fieldOf e 15 10 != 0)
    || es.getD self 0 % 1024 != pkg || !(decide (es.map (· % 1024)).Nodup)

/-- The slot that a definition record gives to a function. -/
def definitionOf (fn : Nat) (bs : List Byte) : RedSlot :=
  let head := recField bs 0 8
  let n := fieldOf head 25 16 + 1
  { fn := fn, gid := fieldOf head 15 0, n := n, self := fieldOf head 41 32, kslot := fieldOf head 59 48,
    pkgs := (List.range n).map fun i => recField bs (16 + 2 * i) 2 % 1024 }

/-- A group slot is owned by another function or has a bound channel. -/
def State.slotTaken (s : State) (n fn : Nat) : Bool :=
  ((s.redSlots.get? n).any fun x => x.fn != fn) || s.slotBound n

/-- A group slot's entry changed; the nodes of the group that it held are gone with it (log 30). -/
def State.putSlot (s : State) (n : Nat) (x : Option RedSlot) : State :=
  let gone := (s.redSlots.get? n).map (·.gid)
  let s := { s with nodes := s.nodes.filter fun y => gone != some y.gid }
  match x with
  | some y => { s with redSlots := s.redSlots.put n y }
  | none => { s with redSlots := s.redSlots.erase n }

/-- RED.OPEN.def: the record is read only for a slot below 256 (spec/10 R222; spec/18 R395). -/
def execRedOpenDef (b c : SReg) (s : State) : Res :=
  privileged s 255 <| accessEach s fun m g st =>
    let st := st.ageNodes
    let ea := g.sreg b.val
    let n := (g.sreg c.val).toNat
    if 256 ≤ n then redTrap st m 5
    else
      match st.readRecord m ea 16 16 with
      | .error r => r
      | .ok (st1, head) =>
        match st1.readRecord m (ea + 16) 2 (2 * (fieldOf (recField head 0 8) 25 16 + 1)) with
        | .error r => r
        | .ok (st2, list) =>
          let bs := head ++ list
          let x := definitionOf st2.myFn bs
          if definitionBad st2.pkg bs then redTrap st2 m 5
          else if st2.slotTaken n st2.myFn || (st2.liveKey st2.myFn x.kslot).isNone then redTrap st2 m 6
          else { st := st2.putSlot n (some x) }

/-- RED.WAIT. -/
def execRedWait (h : HReg) (s : State) : Res :=
  terminalWord s fun m _ st =>
    let x := st.handle st.myTeam h.val
    if x.isRed && x.state == .full then ({ st := st.metWait }, some .next)
    else if x.isRed && x.state == .filling then ({ st := st }, some (.park (.red h.val)))
    else (handleError st m h.val x, none)

/-- An operation that takes a record of the area of a handle, as it is bound now, and satisfies `p`. -/
def State.takes (s : State) (t h : Nat) (p : CorrOp → Bool) (e : EngOp) : Bool :=
  match e.kind with
  | .corr c => e.team == t && c.handle == h && c.bind == (s.handle t h).op && c.rec_.isSome && p c
  | _ => false

/-- Record positions between a position of a ring of `n` and the one before `at_`, both counted. -/
def ringSpan (n at_ p : Nat) : Nat := (at_ + n - p - 1) % n + 1

/-- Record positions before the read position that are not free again: records leave in the order in which they came, so a record being taken
holds back those taken after it (spec/10 R231; log 79). -/
def State.takenRecs (s : State) (t h : Nat) : Nat :=
  let r := (s.handle t h).red
  let at_ := (r.recs.head?).elim r.wpos (·.2)
  s.engs.foldl (fun n e =>
    match e.2.kind with
    | .corr c => if s.takes t h (fun _ => true) e.2 then max n (ringSpan r.cqn at_ (c.rec_.getD 0)) else n
    | _ => n) 0

/-- Records of the current round in the area: those that stand there, and those of the round being taken. -/
def State.currentRecs (s : State) (t h : Nat) (x : Handle) : Nat :=
  (x.red.recs.filter fun r => r.1 == x.round).length
    + (s.engs.filter fun e => s.takes t h (fun c => c.round == x.round) e.2).length

/-- A word of R229. -/
def State.redMapWord (s : State) (t h : Nat) (x : Handle) (idx : Nat) : Word :=
  let r := x.red
  if idx < 16 then BitVec.ofNat 64 (mapWord r.map idx)
  else if idx = 16 then
    BitVec.ofNat 64 (s.currentRecs t h x + 65536 * r.cdrop + 2 ^ 32 * r.stale + 2 ^ 48 * r.conf)
  else if idx = 17 then
    let g := (s.redSlots.get? r.grp).getD { fn := 0, gid := 0, n := 0, self := 0, kslot := 0, pkgs := [] }
    BitVec.ofNat 64 (x.round + 65536 * r.map.length + 2 ^ 32 * g.self + 2 ^ 48 * g.n)
  else 0

/-- The records of other rounds at the read position discarded and counted, and the record chosen (spec/10 R231). -/
def chooseRec (round : Nat) : List (Nat × Nat) → Nat → Option Nat × List (Nat × Nat) × Nat
  | [], k => (none, [], k)
  | (r, p) :: rest, k => if r = round then (some p, rest, k) else chooseRec round rest (k + 1)

/-- RED.CLOSE.def. -/
def execRedCloseDef (a : SReg) (s : State) : Res :=
  privileged s 255 <| perMember s fun m g st =>
    let st := st.ageNodes
    let n := (g.sreg a.val).toNat
    if 256 ≤ n then redTrap st m 5
    else if (st.redSlots.get? n).isNone then { st := st }
    else if st.slotTaken n st.myFn then redTrap st m 6
    else { st := st.putSlot n none }

end Sys2Proof.Machine
end

