-- ==== Sys2Proof/Machine/Nodes.lean ====
section
/-!
DEFINITION. Events of deadline reductions: values and packets at a node, forwarding, deliveries, corrections, give-up times and
completions of RED.CORR (spec/10 R225 to R235; spec/18 R396 to R399).
-/

namespace Sys2Proof.Machine

open Sys2Proof

/-! ### Accesses of reductions, whose faults are served at once (log 31) -/

/-- The place of bytes within one page that an operation of a reduction reads or writes. -/
def State.handlePlace (s : State) (e : EngOp) (space : Space) (a n : Nat) (kind : AccKind) : State × Option Loc :=
  if space = .virt then
    let r := State.cpPlace e.fn e.slot a kind 8 s
    (r.1, r.2.map fun p => .frame p.1 p.2)
  else
    match s.engAcc e.fn e.slot e.team e.core space a n kind with
    | .ok l => (s, if kind = .write ∧ !s.mayWrite e l then none else some l)
    | _ => (s, none)

/-- Bytes written piece by piece, poisoned ones as poison; whether every piece could be reached. -/
def State.handleWrite (s : State) (e : EngOp) (space : Space) (a : Nat) (bs : List (Byte × Bool)) : State × Bool :=
  (rangePieces space a bs.length).foldl (fun (r : State × Bool) p =>
    let x := r.1.handlePlace e space p.1 p.2 .write
    match x.2 with
    | some l => (x.1.deposit (x.1.engCores e) e.fn e.slot p.1 (some l) ((bs.drop (p.1 - a)).take p.2), r.2)
    | none => (x.1, false)) (s, true)

/-- Bytes read piece by piece, each with whether its unit holds poison; none where a piece cannot be reached. -/
def State.handleRead (s : State) (e : EngOp) (space : Space) (a n : Nat) : State × Option (List (Byte × Bool)) :=
  (rangePieces space a n).foldl (fun (r : State × Option (List (Byte × Bool))) p =>
    let x := r.1.handlePlace e space p.1 p.2 .read
    match x.2, r.2 with
    | some l, some bs =>
      let ys := (x.1.readLoc l p.2).zip ((natsFrom 0 p.2).map fun k => x.1.locPoisoned (l.shift k) 1)
      (x.1.askLoc l p.2, some (bs ++ ys))
    | _, _ => (x.1, none)) (s, some [])

/-- Bytes without poison. -/
def clean (bs : List Byte) : List (Byte × Bool) := bs.map fun b => (b, false)

/-! ### Deliveries and corrections at the participant (spec/10 R228, R231) -/

/-- A bound handle agrees with a packet in OP, TYPE and LEN. -/
def RedHandle.agrees (r : RedHandle) (p : RedPacket) : Bool := r.op == p.op && r.type == p.type && r.len == p.len && p.values.length == p.len

/-- An accepted delivery: DST, the fill pointer, SUM, the status bits and the bitmap; it waits for what stands before it (spec/08 R183). -/
def State.acceptDelivery (s : State) (t h : Nat) (n : Nat) (p : RedPacket) : State :=
  if ((s.handle t h).op.map dstLock).any s.bindingWaits then { s with stalled := true }
  else
    let bytes := p.values.flatMap fun v => leBytes 4 v.toNat
    let w := s.handleWrite (s.teamOp t) .virt (s.handle t h).red.dst (clean bytes)
    let x := w.1.handle t h
    w.1.fullRed t h
      { x with fill := 4 * p.len, sum := p.crc, sumbad := x.sumbad || p.crc != redCrc p.values p.map, fault := x.fault || !w.2,
               late := !(List.range n).all p.map.contains, red := { x.red with map := p.map } }

/-- A delivery at this participant's handle. -/
def State.localDelivery (s : State) (x : RedSlot) (p : RedPacket) : State :=
  match s.channelHandle p.gid p.chan with
  | none => s
  | some (t, h) =>
    let y := s.handle t h
    if !y.red.agrees p then s.countConf p.gid p.chan
    else if y.round = p.round ∧ y.state = .filling ∧ s.time < giveUpTime x.n y.red.d y.red.slack then
      s.acceptDelivery t h x.n p
    else s.countStale t h

/-- The bytes of a correction record (spec/10 R231). -/
def corrRecord (p : RedPacket) : List Byte :=
  leBytes 2 p.round ++ leBytes 2 p.cidx ++ leBytes 2 p.map.length ++ leBytes 10 0
    ++ ((List.range 16).flatMap fun w => leBytes 8 (mapWord p.map w)) ++ p.values.flatMap fun v => leBytes 4 v.toNat

/-- A correction appended to the area as the next free record. -/
def State.appendCorr (s : State) (t h : Nat) (p : RedPacket) : State :=
  let r := (s.handle t h).red
  if r.cqn ≤ r.recs.length + s.takenRecs t h then s.modRed t h fun r => { r with cdrop := sat16 (r.cdrop + 1) }
  else if (s.handle t h).op.any s.bindingWaits then { s with stalled := true }
  else
    let w := s.handleWrite (s.teamOp t) .virt (r.cqa + r.wpos * r.recBytes) (clean (corrRecord p))
    let s := w.1.modRed t h fun r => { r with recs := r.recs ++ [(p.round, r.wpos)], wpos := (r.wpos + 1) % r.cqn }
    if w.2 then s else s.setHandle t h { s.handle t h with fault := true }

/-- A correction at this participant's handle. -/
def State.localCorr (s : State) (p : RedPacket) : State :=
  match s.channelHandle p.gid p.chan with
  | none => s
  | some (t, h) =>
    let y := s.handle t h
    if !y.red.agrees p then s.countConf p.gid p.chan
    else if y.round = p.round ∧ redLive y.state then s.appendCorr t h p
    else s.countStale t h

/-! ### What a node sends -/

/-- A packet that leaves for a participant. -/
def State.sendTo (s : State) (x : RedSlot) (i : Nat) (mk : Nat → Outgoing) : State :=
  if s.joined x i then { s with outgoing := s.outgoing ++ [mk (x.pkg i)] } else s

/-- A packet as this node sends it: under the group's key, with this node as its sender (spec/10 R218). -/
def State.seal (s : State) (x : RedSlot) (p : RedPacket) : RedPacket := { p with sender := x.self, key := s.redKey x }

/-- A packet as this node decrypts it: under another key its values, and the CRC32C that it carries, are unspecified (spec/10 R218). -/
def State.unseal (s : State) (x : RedSlot) (p : RedPacket) : RedPacket :=
  if p.key = s.redKey x then p
  else
    let w (k : Nat) : W32 := (Config.freeWord s.free k).setWidth 32
    { p with values := (List.range p.values.length).map w, crc := w p.values.length }

/-- A packet passed down the tree, with this node as its sender. -/
def State.passDown (s : State) (x : RedSlot) (p : RedPacket) (mk : Nat → RedPacket → Outgoing) : State :=
  (s.downNodes x 5 x.self).foldl (fun (s : State) i => s.sendTo x i fun k => mk k (s.seal x p)) s

/-- A delivery: to this participant, and down the tree. -/
def State.deliverHere (s : State) (x : RedSlot) (p : RedPacket) : State := (s.localDelivery x p).passDown x p .delivery

/-- A correction at the root or on its way down. -/
def State.correctHere (s : State) (x : RedSlot) (p : RedPacket) : State := (s.localCorr p).passDown x p .correction

/-- A late arrival goes to the root as a correction (spec/10 R230). -/
def State.lateArrival (s : State) (x : RedSlot) (p : RedPacket) : State :=
  let p := s.seal x p
  if x.self = 0 then s.correctHere x p else s.sendTo x 0 fun k => .correction k p

/-- forward(): the root delivers, and another node sends its partial to its parent or nearest reachable ancestor (spec/10 R226,
R234). -/
def State.forward (s : State) (x : RedSlot) (n : NodeState) : State :=
  let r := n.sum x.self
  let s := s.setNode { n with forwarded := true }
  let p (values : List W32) : RedPacket :=
    { gid := n.gid, chan := n.chan, round := n.round, op := n.op, type := n.type, len := n.len, sender := x.self,
      cidx := x.self, map := r.2, values := values, crc := redCrc values r.2, d := n.d, slack := n.slack, key := s.redKey x }
  if x.self = 0 then
    s.deliverHere x (p (r.1.getD (List.replicate n.len (BitVec.ofNat 32 (redNone n.op n.type)))))
  else
    match s.upNode x 5 x.self with
    | some i => s.sendTo x i fun k => .partialSum k (p (r.1.getD []))
    | none => s

/-- The own value and a partial from every child are present. -/
def NodeState.complete (n : NodeState) (x : RedSlot) : Bool :=
  n.own.isSome && (treeChildren x.n x.self).all fun c => (n.partials.get? c).isSome

/-- The forwarding time of a node. -/
def NodeState.due (n : NodeState) (x : RedSlot) : Nat := n.d + treeLevel x.n x.self * slackOf n.slack

/-- A node forwards once it is complete or its forwarding time has come. -/
def State.tryForward (s : State) (x : RedSlot) (n : NodeState) : State :=
  if !n.forwarded && (n.complete x || decide (n.due x ≤ s.time)) then s.forward x n else s

/-! ### What is due in a round (spec/10 R226, R228) -/

/-- A round of a handle passes its give-up time. -/
def State.giveUp (s : State) (t h : Nat) (round g : Nat) : State :=
  if (s.handle t h).red.openRounds.contains (round, g) then
    let s := s.modRed t h fun r => { r with openRounds := r.openRounds.erase (round, g) }
    let x := s.handle t h
    if x.state = .filling ∧ x.round = round then s.fullRed t h { x with gone := true, red := { x.red with map := [] } } else s
  else s

/-- A draining handle without an open round becomes FREE. -/
def State.drained (s : State) (t h : Nat) : State :=
  let x := s.handle t h
  if x.state = .draining ∧ x.red.openRounds.isEmpty then s.freeRed t h x else s

/-- What is due at a moment: a node forwards, or a round of a handle is given up. -/
inductive RedDue where
  | node (x : RedSlot) (n : NodeState)
  | round (t h round : Nat)

/-- The nodes whose forwarding times lie before `t`. -/
def State.dueNodes (s : State) (t : Nat) : List (Nat × RedDue) :=
  s.nodes.filterMap fun n =>
    if n.forwarded then none else (s.redGroup n.gid).bind fun x => if n.due x < t then some (n.due x, .node x n) else none

/-- The rounds whose give-up times lie before `t`. -/
def State.dueRounds (s : State) (t : Nat) : List (Nat × RedDue) :=
  s.teams.flatMap fun e => (e.2.handles.filter fun h => h.2.isRed).flatMap fun h =>
    (h.2.red.openRounds.filter fun o => decide (o.2 < t)).map fun o => (o.2, .round e.1 h.1 o.1)

/-- What is due happens at its own moment. -/
def State.dueItem (s : State) (e : Nat × RedDue) : State :=
  let u : State := { s with time := e.1 }
  let v := match e.2 with
    | .node x n => u.forward x n
    | .round t h round => (u.giveUp t h round e.1).drained t h
  { v with time := s.time }

/-- Some of it, in the order of its moments; what must wait holds back what comes after it. -/
def State.dueItems (s : State) (l : List (Nat × RedDue)) : State :=
  (sortBy (·.1) l).foldl (fun s e => if s.stalled then s else s.dueItem e) s

/-- The nodes that are due before `t` forward. -/
def State.forwardBefore (s : State) (t : Nat) : State := s.dueItems (s.dueNodes t)

/-- All that is due before `t`; at one moment a node forwards before a round is given up. -/
def State.redUntil (s : State) (t : Nat) : State := s.dueItems (s.dueNodes t ++ s.dueRounds t)

/-- Time goes on to `t`: what is due before it has happened by then, but for what must wait (spec/01 R26; spec/08 R183). -/
def State.overtake (s : State) (t : Nat) : State :=
  let u := (sortBy (·.1) (s.dueNodes t ++ s.dueRounds t)).foldl (fun s e => s.orWait (s.dueItem e)) s
  { u with time := t }

/-! ### What reaches a node -/

/-- A packet or value agrees with the state it joins. -/
def NodeState.agrees (n : NodeState) (op type len : Nat) : Bool := n.op == op && n.type == type && n.len == len

/-- A packet or value joins the state of its round, or is dropped and counted in CONF; `late` says what happens to one that comes after
the node has forwarded. Nodes whose forwarding times have come forward before it, and hold no state then (spec/10 R226). A late one that
does not agree with what the node has forwarded is dropped and counted too (log 85). -/
def State.joinNode (s : State) (x : RedSlot) (base : NodeState) (late : State → State) (upd : NodeState → NodeState) :
    State :=
  let s := s.forwardBefore (s.time + 1)
  match s.openNode base with
  | none => s.countConf base.gid base.chan
  | some s =>
    let n := (s.node? base.gid base.chan base.round).getD base
    if !n.agrees base.op base.type base.len then s.countConf base.gid base.chan
    else if n.forwarded then late s
    else
      let n := upd n
      (s.setNode n).tryForward x n

/-- This package's value present at its node. -/
def State.contribute (s : State) (x : RedSlot) (c : SubOp) (values : List W32) : State :=
  let base : NodeState :=
    { gid := c.gid, chan := c.chan, round := c.round, op := c.op, type := c.type, len := c.len, d := c.d, slack := c.slack }
  s.joinNode x base
    (fun s => s.lateArrival x
      { gid := c.gid, chan := c.chan, round := c.round, op := c.op, type := c.type, len := c.len, sender := x.self,
        cidx := x.self, map := [x.self], values := values, crc := redCrc values [x.self], d := c.d, slack := c.slack,
        key := s.redKey x })
    fun n => { n with own := some values }

/-- The elements of a source, bf16 widened to f32. -/
def redElems (type len : Nat) (bs : List Byte) : List W32 :=
  (List.range len).map fun k =>
    if type = 1 then BitVec.ofNat 32 (65536 * recField bs (2 * k) 2) else BitVec.ofNat 32 (recField bs (4 * k) 4)

/-- FAULT of the handle of a contribution that is absent. -/
def State.subFault (s : State) (t : Nat) (c : SubOp) : State :=
  let x := s.handle t c.handle
  if x.isRed ∧ x.op = c.bind ∧ x.round = c.round then
    s.setHandle t c.handle { x with fault := true }
  else s

/-- A contribution read: present at the node, or absent (spec/10 R225); a source that can no longer be reached makes it absent, with FAULT
(log 87). -/
def State.subDone (s : State) (id : Nat) (e : EngOp) (c : SubOp) : State :=
  let n := (if c.type = 1 then 2 else 4) * c.len
  let r := s.handleRead e c.space c.src n
  let s := (r.1.bump.dropEng id).ageNodes
  match r.2 with
  | none => s.subFault e.team c
  | some bs =>
    if bs.any Prod.snd then s.subFault e.team c
    else
      match s.redGroup c.gid with
      | some x => s.contribute x c (redElems c.type c.len (bs.map Prod.fst))
      | none => s

/-- CONTRIBUTION_PRESENT. -/
def execContributionPresent (op : Nat) (s : State) : Res :=
  .next <|
    match s.engs.get? op with
    | some e =>
      match e.kind with
      | .sub c => if s.engWaits op e then s else s.orWait (s.subDone op e c)
      | _ => s
    | none => s

/-- The values of a partial are as many as its LEN, or none with an empty bitmap. -/
def partialWhole (p : RedPacket) : Bool := p.values.length == (if p.map.isEmpty then 0 else p.len)

/-- A packet whose bitmap is a set of the 1,024 participants that there can be. -/
def packetOf (p : RedPacket) : RedPacket := { p with map := (p.map.filter fun i => decide (i < 1024)).foldl NatSet.add [] }

/-- PARTIAL_ARRIVAL: from a child, or from a descendant that every nearer ancestor leaves unreachable (spec/10 R227). -/
def execPartialArrival (p : RedPacket) (s : State) : Res :=
  let p := packetOf p
  let s := s.ageNodes
  .next <|
    match s.redGroup p.gid with
    | none => s
    | some x =>
      let p := s.unseal x p
      let s := s.bump
      if p.sender = 0 ∨ x.n ≤ p.sender ∨ !partialWhole p ∨ s.upNode x 5 p.sender ≠ some x.self then s.countConf p.gid p.chan
      else
        s.orLater <| s.joinNode x
          { gid := p.gid, chan := p.chan, round := p.round, op := p.op, type := p.type, len := p.len, d := p.d, slack := p.slack }
          (fun s => if p.map.isEmpty then s else s.lateArrival x { p with cidx := p.sender })
          fun n => { n with partials := n.partials.put p.sender p }

/-- NODE_FORWARDING_TIME. -/
def execNodeForwardingTime (gid chan round : Nat) (s : State) : Res :=
  .next <|
    match s.redGroup gid, s.node? gid chan round with
    | some x, some n =>
      if n.forwarded then s
      else s.orWait (State.ageNodes
        { (s.redUntil (n.due x)).dueItems [(n.due x, .node x n)] with time := max s.time (n.due x) })
    | _, _ => s

/-- DELIVERY_ARRIVAL: from the parent, or the nearest reachable ancestor (spec/10 R227, R228). -/
def execDeliveryArrival (p : RedPacket) (s : State) : Res :=
  let p := packetOf p
  let s := s.ageNodes
  .next <|
    match s.redGroup p.gid with
    | none => s
    | some x =>
      if x.self = 0 ∨ s.upNode x 5 x.self ≠ some p.sender then s.countConf p.gid p.chan
      else s.orLater (s.bump.deliverHere x (s.unseal x p))

/-- CORRECTION_ARRIVAL: at the root from any descendant, and else from the parent or the nearest reachable ancestor. -/
def execCorrectionArrival (p : RedPacket) (s : State) : Res :=
  let p := packetOf p
  let s := s.ageNodes
  .next <|
    match s.redGroup p.gid with
    | none => s
    | some x =>
      let ok : Bool :=
        if x.self = 0 then p.sender != 0 && decide (p.sender < x.n) else s.upNode x 5 x.self == some p.sender
      if ok then s.orLater (s.bump.correctHere x (s.unseal x p)) else s.countConf p.gid p.chan

/-! ### Give-up times (spec/10 R224, R228) -/

/-- The round of a handle whose give-up time comes first. -/
def RedHandle.nextRound (r : RedHandle) : Option (Nat × Nat) := (sortBy (·.2) r.openRounds).head?

/-- ROUND_GIVE_UP. -/
def execRoundGiveUp (team h : Nat) (s : State) : Res :=
  let x := s.handle team h
  .next <| s.orWait <|
    if !x.isRed then s
    else
      match x.red.nextRound with
      | some (_, g) => State.ageNodes { s.redUntil (g + 1) with time := max s.time g }
      | none => s.drained team h

/-! ### RED.CORR (spec/18 R398) -/

/-- The header of an empty answer. -/
def emptyCorr (round : Nat) : List Byte := leBytes 2 round ++ leBytes 14 0

/-- The record, or the empty header, written to the buffer. -/
def State.corrDone (s : State) (e : EngOp) (c : CorrOp) : State :=
  match c.rec_ with
  | none => (s.handleWrite e c.space c.buf (clean (emptyCorr c.round))).1
  | some _ =>
    let r := s.handleRead e .virt c.area c.len
    let s := r.1.bump
    match r.2 with
    | some bs => (s.handleWrite e c.space c.buf bs).1
    | none =>
      let x := s.handle e.team c.handle
      if x.op = c.bind then s.setHandle e.team c.handle { x with fault := true } else s

/-- RED_CORR_COMPLETION. -/
def execRedCorrCompletion (op : Nat) (s : State) : Res :=
  .next <|
    match s.engs.get? op with
    | some e =>
      match e.kind with
      | .corr c => if s.engWaits op e then s else s.orWait ((s.corrDone e c).dropEng op)
      | _ => s
    | none => s

end Sys2Proof.Machine
end

