-- ==== Sys2Proof/Machine/Special.lean ====
section
/-!
DEFINITION. Special registers, predicate and vote words, lane reads (spec/06 R133; spec/14 R304), and the views that the
registers give of the partition (spec/01 R13 to R19; spec/02 R42 to R48; spec/04 R77, R80, R426).
-/

namespace Sys2Proof.Machine

open Sys2Proof

/-! ### Die sets and the deal order (spec/04 R77, R426) -/

/-- The dies of the shared set. -/
def State.sharedDies (s : State) : List Nat := (List.range 32).filter fun d => (s.dieOwner d).isNone

/-- The dies that a function owns. -/
def State.ownedDies (s : State) (f : Nat) : List Nat := (List.range 32).filter fun d => s.dieOwner d == some f

/-- The function may use the shared set (spec/03 R51, R52). -/
def State.mayShare (s : State) (f : Nat) : Bool := f == 0 || ((s.fn f).en && (s.fn f).share)

/-- A die set of a function. -/
def State.dieSet (s : State) (f : Nat) (shared : Bool) : List Nat :=
  if shared then (if s.mayShare f then s.sharedDies else []) else s.ownedDies f

/-- The dies of a function's partition, in partition order (spec/01 R13). -/
def State.partition (s : State) (f : Nat) : List Nat :=
  if f = 0 then List.range 32
  else (List.range 32).filter fun d => s.dieOwner d == some f || (s.mayShare f && (s.dieOwner d).isNone)

/-- The enabled cores of a cluster of a die, as core numbers, in physical order. -/
def State.clusterCores (s : State) (d c : Nat) : List Nat :=
  ((List.range 4).map fun k => 4 * c + k).filterMap fun p =>
    if (s.dieAt d).en.getLsbD p && !(s.dieAt d).inrst then some (36 * d + p) else none

/-- The clusters of a die set in logical order. -/
def State.clusters (s : State) (ds : List Nat) : List (List Nat) :=
  ds.flatMap fun d => (List.range 9).map fun c => s.clusterCores d c

/-- The enabled cores of a die set in logical order. -/
def State.logicalCores (s : State) (ds : List Nat) : List Nat := (s.clusters ds).flatten

/-- The deal order of a die set (spec/04 R77). -/
def State.dealOrder (s : State) (ds : List Nat) : List Nat :=
  (List.range 4).flatMap fun k => (s.clusters ds).filterMap fun c => (c.drop k).head?

/-- The place of an element in a list. -/
def placeOf (l : List Nat) (x : Nat) : Nat := l.findIdx fun y => y == x

/-! ### Values -/

/-- %pcore (spec/01 R16). -/
def State.pcoreValue (s : State) (g : Group) : Word :=
  let core := (s.team g.team).core
  let die := placeOf (s.partition s.myFn) (dieOf core)
  BitVec.ofNat 64 (core % 36 + die * 256 + g.quarter % 4 * 65536)

/-- What %hmap reads of a die that is present (spec/01 R15). -/
def Die.hmapWord (x : Die) : Word :=
  BitVec.ofNat 64 (x.en.toNat + popCount x.en.toNat 36 * 2 ^ 36 + x.calf * 2 ^ 42 + 2 ^ 48 + bnat x.inrst * 2 ^ 49)

/-- %hmap (spec/01 R15). -/
def State.hmapValue (s : State) : Word :=
  match (s.partition s.myFn)[(s.fn s.myFn).hmdie]? with
  | none => 0
  | some d => (s.dieAt d).hmapWord

/-- %rail (spec/01 R19). -/
def Core.railValue (c : Core) : Word :=
  BitVec.ofNat 64 (c.vcur + c.vcmd * 256 + c.vg * 65536 + c.vfloor * 16777216 + bnat (c.vcur != c.vcmd) * 2147483648)

/-- LASTS: microseconds since the last exchange, 0 on the master (spec/02 R44). -/
def State.lasts (s : State) : Nat := if s.master then 0 else min 65535 ((s.time - s.exchTime) / 1000)

/-- SYNC: an exchange stands for 2 ms (spec/02 R43, R44). -/
def State.inSync (s : State) : Bool := s.sync && (s.master || decide (s.time < s.exchTime + 2000000))

/-- %dtst (spec/02 R44). -/
def State.dtstValue (s : State) : Word :=
  BitVec.ofNat 64 (s.pkg + bnat s.master * 1024 + bnat s.inSync * 2048 + s.npkg * 65536 + s.lasts * 4294967296)

/-- %ltab (spec/04 R80). -/
def State.ltabValue (s : State) : Word :=
  let f := s.myFn
  let shared := (s.team s.myTeam).shared
  let ds := s.dieSet f shared
  let log := if shared then (s.fn f).ltselShared else (s.fn f).ltselOwn
  match (s.logicalCores ds)[log]? with
  | none => 0
  | some core =>
    BitVec.ofNat 64 (core % 36 + placeOf (s.partition f) (dieOf core) * 2 ^ 8 + core % 36 / 4 * 2 ^ 16
      + placeOf (s.dealOrder ds) core * 2 ^ 32 + 2 ^ 63)

/-- The link that %lksel names, as a link number (spec/02 R45, R46). -/
def State.selectedLink (s : State) : Option Nat :=
  let i := fieldOf s.lksel.toNat 13 8
  match fieldOf s.lksel.toNat 1 0 with
  | 0 => if i < 48 then some i else none
  | 1 => if i = 0 then some 48 else none
  | 2 => if i < 8 then some (49 + i) else none
  | _ => if i < 24 then some (57 + i) else none

/-- Lanes and lane rate of a link that is up (spec/02 R46). -/
def linkShape (l : Nat) : Nat × Nat :=
  if l < 48 then (0, 0) else if l = 48 then (16, 128) else if l < 57 then (16, 64) else (4, 200)

/-- %lkstat (spec/02 R46); in a virtual function it reads zero (R45). -/
def State.lkstatValue (s : State) : Word :=
  match if s.myFn = 0 then s.selectedLink else none with
  | none => 0
  | some l =>
    let x := s.link l
    let shape := if x.up then linkShape l else (0, 0)
    BitVec.ofNat 64 (bnat x.up + shape.1 * 2 + shape.2 * 256 + min x.retrn 255 * 65536 + min x.replay 65535 * 16777216
      + x.capg * 2 ^ 40)

/-- A read of %lkstat clears its two counters (spec/02 R46). -/
def State.clearLkstat (s : State) : State :=
  match if s.myFn = 0 then s.selectedLink else none with
  | none => s
  | some l => s.setLink l { s.link l with retrn := 0, replay := 0 }

/-- %cflip (spec/02 R47). -/
def Cflip.value (c : Cflip) : Word :=
  BitVec.ofNat 64 (bnat c.arm + bnat c.done * 2 + bnat c.miss * 4 + c.skip * 16 + c.bit * 256 + c.offset * 4294967296)

/-- %wdog (spec/05 R103). -/
def Group.wdogValue (g : Group) : Word :=
  BitVec.ofNat 64 (g.texp + g.esc * 256 + g.expn * 4096 + g.cnt * 65536)

/-- %region (spec/09 R197). -/
def regionValue (x : RegionMode × Nat) : Word := BitVec.ofNat 64 (x.1.code + x.2 * 16)

/-- Teams of a block (spec/04 R68). -/
def Tcb.teams (b : Tcb) : Nat := (b.nx + 1) * (b.ny + 1) * (b.nz + 1)

/-- The value of a special register for a fibre in a lane (spec/06 R133; trap registers, spec/11 R246, R247). -/
def State.special (s : State) (m : Fibre) (g : Group) (lane : Nat) (n : SpecialReg) : Word :=
  let t := s.team g.team
  let b := (s.inst t.inst).tcb
  match n with
  | .lane => BitVec.ofNat 64 lane
  | .group => BitVec.ofNat 64 g.num
  | .team => BitVec.ofNat 64 t.local_
  | .teamx => BitVec.ofNat 64 (t.local_ % (b.nx + 1))
  | .teamy => BitVec.ofNat 64 (t.local_ / (b.nx + 1) % (b.ny + 1))
  | .teamz => BitVec.ofNat 64 (t.local_ / (b.nx + 1) / (b.ny + 1))
  | .nteams => BitVec.ofNat 64 b.teams
  | .ngroups => BitVec.ofNat 64 t.ngroups
  | .role => BitVec.ofNat 64 g.role
  | .wb => BitVec.ofNat 64 m.wb
  | .walloc => BitVec.ofNat 64 g.walloc
  | .fmask => ((g.fibre? m.id).elim m.mask (·.mask)).setWidth 64
  | .fflag => BitVec.ofNat 64 ((s.it.fflags.get? m.id).getD (s.flagBits s.it.group m.id))
  | .fpsr => g.fpsr
  | .region => regionValue s.it.region0
  | .rail => (s.coreAt t.core).railValue
  | .time => BitVec.ofNat 64 (s.it.time.getD s.time)
  | .dtst => s.dtstValue
  | .aggidx => BitVec.ofNat 64 t.child
  | .cohort => BitVec.ofNat 64 t.cohort
  | .wdog => g.wdogValue
  | .tvec => g.tvec
  | .tcause => m.trap.elim 0 fun r => BitVec.ofNat 64 (r.cause + bnat r.sup * 256)
  | .tsyn => m.trap.elim 0 (·.tsyn)
  | .tunit => m.trap.elim 0 fun r => r.tunit.getD lane 0
  | .ttile => m.trap.elim 0 (·.ttile)
  | .tpc => m.trap.elim 0 fun r => BitVec.ofNat 64 (r.tpc.toNat % 2 ^ 57)
  | .tlanes => m.trap.elim 0 fun r => BitVec.ofNat 64 (r.tl.toNat + r.il.toNat * 4294967296)
  | .pcore => s.pcoreValue g
  | .hmdie => BitVec.ofNat 64 (s.fn s.myFn).hmdie
  | .hmap => s.hmapValue
  | .ltsel => BitVec.ofNat 64 (if t.shared then (s.fn s.myFn).ltselShared else (s.fn s.myFn).ltselOwn)
  | .ltab => s.ltabValue
  | .lksel => s.lksel
  | .lkstat => s.lkstatValue
  | .cflip => (s.coreAt t.core).cflip.value

/-- A supervisor-only register (spec/06 R133). -/
def supervisorOnly (n : SpecialReg) : Bool := decide (32 ≤ n.code)

/-- A register that user-mode programs may write. -/
def userWritable : SpecialReg → Bool
  | .fpsr | .wdog | .tvec => true
  | _ => false

/-- What a read does before it: %time counts on at the first read of an issue group, and the group's other reads give the same count (spec/02
R42; spec/06 R133; log 4), and what the time that has gone by made due comes before the read. -/
def State.beforeRead (s : State) (n : SpecialReg) : State :=
  match n, s.it.time with
  | .time, none =>
    let now := s.time + Config.timeStep s.free
    ({ s.overtake now with free := s.free + 1 }).modIt fun it => { it with time := some now }
  | _, _ => s

/-- What a read does after it. -/
def State.afterRead (s : State) (n : SpecialReg) : State :=
  match n with
  | .lkstat => s.clearLkstat
  | _ => s

/-- The trap 0x03 of a fibre (spec/11 R247). -/
def privTrap (m : Fibre) (tsyn : Word) : List LaneTrap := trapLanes m.mask 3 tsyn

/-- SRD sD, %name: a per-lane register gives the value of the lowest lane (spec/06 R133). -/
def execSrdS (d : SReg) (n : SpecialReg) (s : State) : Res :=
  perMember s fun m g st =>
    if supervisorOnly n && !st.mySup then { st := st, traps := privTrap m (BitVec.ofNat 64 n.code) }
    else
      let st := st.beforeRead n
      { st := st.afterRead n, writes := [.s d.val (st.special m g (lowLane m.mask) n)] }

/-- SRD vD, %name and SRD.hi: each lane takes its own value (spec/14 R304). A word whose every lane traps for its destination has read, so
%lkstat's counts are cleared then too (log 105). -/
def execSrdV (d : VOp) (n : SpecialReg) (hi : Bool) (s : State) : Res :=
  perMember s fun m g st =>
    if supervisorOnly n && !st.mySup then { st := st, traps := privTrap m (BitVec.ofNat 64 n.code) }
    else
      let st := st.beforeRead n
      let rs : List LaneRegs := (lanesOf m.mask).map fun l => (l, resolveAll g m.wb l [{ op := d }])
      let val (l : Nat) : Nat := (st.special m g l n).toNat / (if hi then 4294967296 else 1)
      { st := st.afterRead n, traps := boundTraps rs,
        writes := (goodLanes rs).flatMap fun r => vput r.1 false (r.2.headD 0) (val r.1) }

/-- The effect of a write of a special register (spec/06 R133; R5 for Res and RO fields). %ltsel of the shared set is one for each function
(log 82). -/
def specialWrite (n : SpecialReg) (y : Word) (st : State) : MRes :=
  let f := st.myFn
  match n with
  | .fpsr => { st := st, writes := [.fpsr (y &&& fpsrMask)] }
  | .wdog => { st := st, writes := [.wdog (fieldOf y.toNat 5 0) (fieldOf y.toNat 11 8)] }
  | .tvec => { st := st.later (.tvec (tvecAddr y)) }
  | .hmdie => { st := st.setFn f { st.fn f with hmdie := fieldOf y.toNat 4 0 } }
  | .ltsel =>
    let x := fieldOf y.toNat 10 0
    if (st.team st.myTeam).shared then { st := st.setFn f { st.fn f with ltselShared := x } }
    else { st := st.setFn f { st.fn f with ltselOwn := x } }
  | .lksel => { st := { st with lksel := y &&& 16131 } }
  | .cflip => { st := st.later (.cflip y) }
  | _ => { st := st }

/-- SWR %name, sA. -/
def execSwr (n : SpecialReg) (a : SReg) (s : State) : Res :=
  perMember s fun m g st =>
    if !userWritable n && !st.mySup then { st := st, traps := privTrap m (BitVec.ofNat 64 n.code) }
    else specialWrite n (g.sreg a.val) st

/-! ### Predicates, votes and lane reads (spec/14 R304) -/

/-- SPRED sD, pA. -/
def execSpredSp (d : SReg) (p : PReg) (s : State) : Res :=
  scalarWord s fun m g => [.s d.val ((g.p.getD p.val 0 &&& m.mask).setWidth 64)]

/-- SPRED pD, sA. -/
def execSpredPs (p : PReg) (a : SReg) (s : State) : Res :=
  scalarWord s fun m g => (lanesOf m.mask).map fun l => .p l p.val ((g.sreg a.val).getLsbD l)

/-- The lanes of a fibre where a predicate is 1. -/
def ones (m : Fibre) (g : Group) (p : PReg) : Mask := g.p.getD p.val 0 &&& m.mask

/-- SVOTE.any. -/
def execSvoteAny (c : CReg) (p : PReg) (s : State) : Res :=
  scalarWord s fun m g => [.c m.id c.val (ones m g p != 0)]

/-- SVOTE.all. -/
def execSvoteAll (c : CReg) (p : PReg) (s : State) : Res :=
  scalarWord s fun m g => [.c m.id c.val (ones m g p == m.mask)]

/-- SVOTE.uni: all lanes hold equal values. -/
def execSvoteUni (c : CReg) (p : PReg) (s : State) : Res :=
  scalarWord s fun m g => [.c m.id c.val (ones m g p == m.mask || ones m g p == 0)]

/-- SLANE: the value of one lane; where that lane traps, an unspecified value (log 8). -/
def execSlane (d : SReg) (a : VOp) (b : SReg) (s : State) : Res :=
  perMember s fun m g st =>
    let rs : List LaneRegs := (lanesOf m.mask).map fun l => (l, resolveAll g m.wb l [{ op := a }])
    let l := (g.sreg b.val).toNat % 32
    let x : Word :=
      if m.mask.getLsbD l then
        match (goodLanes rs).find? fun r => r.1 == l with
        | some r => (g.vreg l (r.2.headD 0)).setWidth 64
        | none => Config.freeWord st.free 0
      else 0
    { st := st.bump, writes := [.s d.val x], traps := boundTraps rs }

end Sys2Proof.Machine
end

