-- ==== Sys2Proof/Machine/Device.lean ====
section
/-!
DEFINITION. Boot, recovery, resets of dies, power and temperature: the events of spec/01 (R12, R21 to R28). An event that is not
due changes nothing (log 11).
-/

namespace Sys2Proof.Machine

open Sys2Proof

/-! ### Bringing up (spec/01 R12, R23, R25) -/

/-- The `n` lowest ones of a map (at most 4 cores are fused off, R12). -/
def lowestOnes (x : BitVec 36) : Nat → Nat → BitVec 36
  | 0, _ => 0
  | fuel + 1, n =>
    let p := 35 - fuel
    if n = 0 then 0
    else if x.getLsbD p then lowestOnes x fuel (n - 1) ||| BitVec.ofNat 36 (2 ^ p)
    else lowestOnes x fuel n

/-- The fused cores of a die. -/
def fusedMap (d : Nat) : BitVec 36 := lowestOnes (Config.fusedRaw d) 36 4

/-- The code of Vg from the lowest passing voltage, none where the core fails (spec/01 R25). -/
def vgOf (vpass : Option Nat) : Option Nat :=
  match vpass with
  | none => none
  | some c => if max 30 (c + 4) ≤ 80 then some (max 30 (c + 4)) else none

/-- What calibration finds for a core. -/
def foundVg (f : BootFindings) (d p : Nat) : Option Nat :=
  (f.cal.find? fun r => r.core.die.val == d && r.core.core.val == p).bind fun r => vgOf r.vpass

/-- A calibrated core: the thatcher and the rail stand at Vg (spec/01 R19; spec/09 R205). -/
def freshCore (vg : Nat) : Core := { vg := vg, vcur := vg, vcmd := vg, vfloor := vg - 30, v := vg }

/-- A die's cores, unfused and calibrated. -/
def passingCores (f : BootFindings) (d : Nat) (fused : BitVec 36) : List (Nat × Nat) :=
  (List.range 36).filterMap fun p => if fused.getLsbD p then none else (foundVg f d p).map fun v => (p, v)

/-- Steps 3, 4 and 6 of R23 for one compute die; a die left short of cores is reported (spec/01 R25). -/
def State.bringDie (s : State) (f : BootFindings) (d : Nat) : State :=
  let fused := fusedMap d
  let ok := passingCores f d fused
  let en := ok.foldl (fun m e => m ||| BitVec.ofNat 36 (2 ^ e.1)) (0 : BitVec 36)
  let s := (List.range 36).foldl (fun s p =>
    s.setCore (36 * d + p) (freshCore (((ok.find? fun e => e.1 == p).map (·.2)).getD 0))) s
  let s := s.setDie d { fused := fused, en := en, calf := 36 - popCount fused.toNat 36 - ok.length,
                        clock := 1800 - 50 * min 12 s.powerSteps }
  if ok.length < 32 then s.report (.report 6 d []) else s

/-- Links as training leaves them. -/
def State.trainLinks (s : State) (f : BootFindings) : State :=
  f.links.foldl (fun s l =>
    let cap := match l.link with | .cxl _ => if l.up then min 1024 l.capg else 0 | _ => 0
    s.setLink (linkNum l.link) { up := l.up, trained := l.up, capg := cap }) s

/-- Steps 2 to 7 of R23: the device is ready; a package alone is its own time master (spec/02 R42, R44). -/
def State.bringUp (s : State) (f : BootFindings) (measure : Nat) : State :=
  let s := ((List.range 32).foldl (fun s d => s.bringDie f d) s).trainLinks f
  { s with phase := .ready, time := 0, master := true, sync := true, svn := Config.securityVersion, measure := measure,
           feato := (Config.featureBits &&& 1023) ||| 1 }

/-- BOOT: image A, else image B; where both fail, the recovery state (spec/01 R23, R24). A module whose supply was off begins its boot by
it, which the next BOOT ends, and one that resumes goes on at step 2 (log 40). -/
def execBoot (f : BootFindings) (s : State) : Res :=
  let a := if s.flashed then 0 else f.imageA
  .next <|
    if s.phase = .resuming then s.bringUp (s.rcv.found.getD f) s.measure
    else if s.phase = .off then { s with phase := .booting }
    else if s.phase ≠ .booting then s
    else if a = 0 ∨ f.imageB = 0 then s.bringUp f Config.firmwareDigest
    else { s with phase := .recovery, rcv := { erra := a, errb := f.imageB } }

/-- A function that the module presents: the physical function, and the virtual ones that the SR-IOV capability enables (spec/03 R49). -/
def State.presented (s : State) (fn : Nat) : Bool := fn == 0 || decide (fn ≤ min 64 s.numVfs)

/-- CONFIGURATION_REQUEST: Retry Status while the device boots; in recovery function 0 alone is there. A request of function 0 may set the
number of functions that the SR-IOV capability enables. -/
def execConfigurationRequest (r : ConfigRequest) (s : State) : Res :=
  .next <|
    match s.phase with
    | .off => s
    | .booting | .resuming => s.tell (.config true)
    | .recovery => s.tell (if r.fn = 0 then .config false else .unsupported r.fn)
    | .ready =>
      let t := s.tell (if s.presented r.fn then .config false else .unsupported r.fn)
      if r.fn = 0 then { t with numVfs := r.numVfs.getD t.numVfs } else t

/-- A GO written (spec/01 R24). -/
def State.goWritten (s : State) (store : Bool) : State :=
  if s.phase ≠ .recovery ∨ s.rcv.busy then s
  else if s.rcv.len = 0 ∨ 16777216 < s.rcv.len then { s with rcv := { s.rcv with store := store, errh := 2 } }
  else { s with rcv := { s.rcv with store := store, busy := true } }

/-- RECOVERY_GO. -/
def execRecoveryGo (store : Bool) (s : State) : Res := .next (s.goWritten store)

/-- RECOVERY_VERIFY_END: the code, a failed flash write, or the boot that goes on from the staged image at step 2, in which the
boot agents find `f`. -/
def execRecoveryVerifyEnd (code : Nat) (flashOk : Bool) (f : BootFindings) (s : State) : Res :=
  .next <|
    if s.phase ≠ .recovery ∨ !s.rcv.busy then s
    else if code ≠ 0 then { s with rcv := { s.rcv with busy := false, errh := code } }
    else if s.rcv.store && !flashOk then { s with rcv := { s.rcv with busy := false, errh := 6 } }
    else
      { s.bump with
        phase := .resuming, measure := Config.freeNat s.free 0, flashed := s.flashed || s.rcv.store,
        rcv := { s.rcv with busy := false, errh := 5, found := some f } }

/-! ### Where an engine operation reads and writes -/

/-- A range of a context touches an address of the domain of which `p` holds. -/
def State.rangeAt (s : State) (fn slot a n : Nat) (p : Nat → Bool) : Bool :=
  (pagePieces (n / 65536 + 2) a n).any fun x => (s.dataAt fn slot x.1).any p

/-- The bytes of a tensor from element (r, e) to element (r2, e2): first address and length. -/
def tensorSpan (d : BitVec 256) (r e r2 e2 : Nat) : Nat × Nat :=
  (dAddr d false r e, dAddr d false r2 e2 + dWidth d - dAddr d false r e)

/-- An engine operation has its source or destination where `p` holds: copies and near-memory products. -/
def State.engAt (s : State) (e : EngOp) (p : Nat → Bool) : Bool :=
  match e.kind with
  | .copy c =>
    let src : Nat × Nat := match c.tdesc with
      | none => (c.src, c.len)
      | some d => tensorSpan d c.row0 c.col0 (c.row0 + c.nr - 1) (c.col0 + c.nc - 1)
    (!c.srcHost && c.ssp == .virt && s.rangeAt e.fn e.slot src.1 src.2 p)
      || (!c.dstHost && c.dsp == .virt && s.rangeAt e.fn e.slot c.dst c.len p)
  | .nmv n =>
    s.rangeAt e.fn e.slot (dBase n.desc) (dAddr n.desc false (dRows n.desc - 1) 0 + dColb n.desc - dBase n.desc) p
      || e.kind.planes.any fun x => s.rangeAt e.fn e.slot x.1 x.2 p
  | _ => false

/-- An operation on another die has its source or destination in a scratchpad of die `d`. -/
def State.engOnDie (s : State) (e : EngOp) (d : Nat) : Bool :=
  match e.kind with
  | .copy c =>
    c.members.any (fun m => dieOf (s.team m.1).core == d && s.tagged m.1 m.2)
      || (c.ssp == .cm && (s.clusterMember e.team (c.src / 524288)).any fun m => dieOf (s.team m).core == d)
  | _ => false

/-- Copies and near-memory products of which `p` holds end with GONE (spec/01 R27 step 4). -/
def State.goneEngs (s : State) (p : State → Nat → EngOp → Bool) : State :=
  (s.engs.filter fun e => p s e.1 e.2).foldl (fun s e =>
    match e.2.kind with
    | .copy c => s.copyEnd e.1 e.2 c fun x => { x with gone := true }
    | .nmv n => s.nmvGone e.1 e.2 n
    | _ => s) s

/-! ### The reset of a compute die (spec/01 R26, R27) -/

/-- A team holds room on its core: it runs there, or it has stopped before the rest of its grid or set (spec/05 R108). -/
def State.unitOf (s : State) (t : Nat) : List Nat :=
  let x := s.team t
  let i := s.inst x.inst
  if i.tcb.clt = 0 then
    (s.teams.filter fun e => e.2.inst == x.inst || i.setMembers.contains e.2.inst).map (·.1)
  else [t]

/-- No team of the unit is still asked to stop. -/
def State.unitStopped (s : State) (t : Nat) : Bool :=
  (s.unitOf t).all fun k => (s.team k).ended || (s.team k).stopped || !(s.team k).stopReq

/-- A team stands on its core. -/
def State.onCore (s : State) (t : Nat) : Bool := !(s.team t).ended && !((s.team t).stopped && s.unitStopped t)

/-- An operation runs on an engine of a die: the queue entries that the image of a stopped team holds run on none. -/
def State.engRunsOn (s : State) (d id : Nat) (e : EngOp) : Bool :=
  dieOf e.core == d && e.team != 0 && !(s.team e.team).saved.contains id

/-- The operations that a reset of die `d` ends (spec/01 R27): those of teams that it killed go with their handles, and those of other
teams end with GONE, as do the operations of other dies that reach into the die. -/
def State.resetEngs (s : State) (d : Nat) : State :=
  let s := s.goneEngs fun s id e =>
    (s.engRunsOn d id e && !((s.team e.team).ended && dieOf (s.team e.team).core == d))
      || (dieOf e.core != d && s.engOnDie e d)
  let mine := (s.engs.filter fun e => s.engRunsOn d e.1 e.2).map (·.1)
  let s := (s.engs.filter fun e => mine.contains e.1).foldl (fun (s : State) e => s.cutShort e.2) s
  mine.foldl State.dropEng s

/-- An engine operation without the flip of a core of which `p` holds: its register has been reset (spec/02 R48). -/
def EngOp.noFlip (e : EngOp) (p : Nat → Bool) : EngOp :=
  match e.kind with
  | .copy c => if c.flip.any p then { e with kind := .copy { c with flip := none } } else e
  | _ => e

/-- A compute die enters reset (spec/01 R27, R40). -/
def State.resetDie (s : State) (d : Nat) : State :=
  if (s.dieAt d).inrst then s
  else
    let here (c : Nat) : Bool := dieOf c == d
    let hit := (s.teams.filter fun e => here e.2.core && s.onCore e.1).map fun e => e.2.inst
    let s := hit.foldl State.killInstance s
    let s : State :=
      { s with
        teams := s.teams.map (fun e => (e.1, if here e.2.core && e.2.ended then
          { e.2 with scratch := [], scratchPoison := [], tiles := [], scrBytes := 0, handles := e.2.handles.filter (fun h => h.2.isRed) } else e.2)),
        cores := s.cores.map (fun e => (e.1, if here e.1 then
          { e.2 with locks := [], queue := [], refused := [], cflip := {}, script := [] } else e.2)),
        engs := s.engs.map (fun e => (e.1, e.2.noFlip here)) }
    let s := (s.loseDie d).resetEngs d
    let x := s.dieAt d
    let s := s.setDie d { x with inrst := true, scratch := [], scratchPoison := [], counters := [],
                                 pacing := false, thermal := false, thermalSteps := 0 }
    (s.setLink d { s.link d with up := false }).report (.report 1 d [])

/-- COMPUTE_DIE_RESET. -/
def execComputeDieReset (d : Fin 32) (s : State) : Res := .next (if s.phase = .ready then s.resetDie d.val else s)

/-! ### The reset of a memory die (spec/01 R28; of a CXL port, spec/02 R35) -/

/-- The frame at an address of this package rests at a place. -/
def State.restsAt (s : State) (p : Place) (dom : Nat) : Bool :=
  dom / 70368744177664 == s.pkg && s.placed.get? (dom % 70368744177664 / 65536) == some p

/-- Every frame that rests at a place loses its contents: its units read as poison until they are written, and each unit
written before is charged to the slot of its key (spec/01 R28). The answer lists the slots charged. -/
def State.losePlace (s : State) (p : Place) : State × NatSet :=
  let s := s.goneEngs fun s _ e => s.engAt e (s.restsAt p)
  let fs := ((s.placed.filter fun e => decide (e.2 = p)).map fun e => s.dom (65536 * e.1) / 65536)
  let mine (u : Nat) : Bool := fs.contains (u / 2048)
  let us := (s.units.filter fun e => mine e.1).map (·.1)
  let s := s.forgetUnits mine
  let s : State := { s with lost := fs.foldl NatSet.add s.lost, healed := s.healed.filter (fun u => !mine u) }
  (us.foldl (fun s u => s.chargeSlot (s.unitSlot u)) s, (us.filterMap s.unitSlot).foldl NatSet.add [])

/-- A memory die enters reset (spec/01 R28, R40). -/
def State.resetMem (s : State) (d : Fin 16) : State :=
  if (s.memDies.getD d.val {}).inrst then s
  else
    let r := (s.loseStore d.val).losePlace (.stack d)
    let s : State := { r.1 with memDies := r.1.memDies.put d.val { inrst := true } }
    (s.setLink (32 + d.val) { s.link (32 + d.val) with up := false }).report (.report 2 d.val r.2)

/-- MEMORY_DIE_RESET. -/
def execMemoryDieReset (d : Fin 16) (s : State) : Res := .next (if s.phase = .ready then s.resetMem d else s)

/-! ### The whole package -/

/-- Every part of the device loses its state; the host's memory and what has left the device stay (spec/01 R22, R26). -/
def State.cleared (s : State) (p : Phase) : State :=
  { State.reset with
    phase := p, epoch := s.epoch + 1, flashed := s.flashed, hostMem := s.hostMem, hostLog := s.hostLog, msix := s.msix, outgoing := s.outgoing,
    agenda := s.agenda, turns := s.turns, free := s.free, nextId := s.nextId }

/-- HUB_DIE_RESET. -/
def execHubDieReset (s : State) : Res := .next (if s.phase = .off then s else s.cleared .booting)

/-- SUPPLY_OFF. -/
def execSupplyOff (s : State) : Res := .next (s.cleared .off)

/-- DIE_RESET_END: the die's steps have ended, and it returns to service. -/
def execDieResetEnd (d : DieId) (f : BootFindings) (s : State) : Res :=
  match d with
  | .hub => execBoot f s
  | .compute d =>
    .next <|
      if (s.dieAt d.val).inrst then
        let s := s.bringDie f d.val
        s.setLink d.val { s.link d.val with up := true }
      else s
  | .memory d =>
    .next <|
      if (s.memDies.getD d.val {}).inrst then
        let s : State := { s with memDies := s.memDies.put d.val {} }
        (s.setLink (32 + d.val) { s.link (32 + d.val) with up := true }).unstall
      else s

/-! ### Power and temperature (spec/01 R20, R21) -/

/-- A throttle step of a die, counted for each tenant that is resident on it. -/
def State.throttle (s : State) (d : Nat) : State :=
  let owners := (s.teams.filter fun e => dieOf e.2.core == d && s.onCore e.1).foldl (fun (l : NatSet) e =>
    let i := s.inst e.2.inst
    l.add (s.ownerSlot i.fn i.slot)) []
  owners.foldl (fun s k => s.modTele k fun t => { t with throt := sat64 (t.throt + 1) }) s

/-- The clock that the steps in force leave to a die: power and thermal steps add up, down to the minimum (spec/01 R21; log 73). -/
def State.setClock (s : State) (d : Nat) : State :=
  let x := s.dieAt d
  s.setDie d { x with clock := 1800 - 50 * min 12 (s.powerSteps + x.thermalSteps) }

/-- The clocks of every die. -/
def State.setClocks (s : State) : State := (List.range 32).foldl State.setClock s

/-- CURRENT_PACING. -/
def execCurrentPacing (d : Fin 32) (exceeded : Bool) (s : State) : Res :=
  let x := s.dieAt d.val
  .next (if exceeded && !x.pacing then (s.setDie d.val { x with pacing := true }).throttle d.val
         else if exceeded then s else s.setDie d.val { x with pacing := false })

/-- POWER_CLOCK_STEP: every compute die, down to 1.20 GHz. -/
def execPowerClockStep (s : State) : Res :=
  .next <|
    if 12 ≤ s.powerSteps then s
    else (List.range 32).foldl State.throttle ({ s with powerSteps := s.powerSteps + 1 }).setClocks

/-- POWER_CLOCK_RESTORE. -/
def execPowerClockRestore (s : State) : Res := .next ({ s with powerSteps := s.powerSteps - 1 }).setClocks

/-- THERMAL_CLOCK_STEP. -/
def execThermalClockStep (d : Fin 32) (s : State) : Res :=
  let x := s.dieAt d.val
  .next <|
    if 12 ≤ x.thermalSteps then s
    else ((s.setDie d.val { x with thermal := true, thermalSteps := x.thermalSteps + 1 }).setClock d.val).throttle d.val

/-- THERMAL_CLOCK_RESTORE. -/
def execThermalClockRestore (d : Fin 32) (s : State) : Res :=
  let x := s.dieAt d.val
  .next ((s.setDie d.val { x with thermal := decide (1 < x.thermalSteps), thermalSteps := x.thermalSteps - 1 }).setClock d.val)

/-- THERMAL_SHUTDOWN_RESET: a die of any kind at 115 °C. -/
def execThermalShutdownReset (d : DieId) (s : State) : Res :=
  match d with
  | .hub => execHubDieReset s
  | .compute d => execComputeDieReset d s
  | .memory d => execMemoryDieReset d s

end Sys2Proof.Machine
end

