-- ==== Sys2Proof/Machine/Complete.lean ====
section
/-!
DEFINITION. Completions of long-latency words, of walks and of services, re-checks of WAITM, and uncorrectable errors (spec/06 R128,
R129; spec/07 R147, R148, R151, R154, R158 to R160; spec/11 R243; spec/16 R345, R348, R358, R359).
-/

namespace Sys2Proof.Machine

open Sys2Proof

/-! ### Operations in flight -/

/-- A register write at completion. -/
def RegWrite.toWrite : RegWrite → GWrite
  | .v lane reg x => .v lane reg x
  | .s reg x => .s reg x

/-- The poison marks that an operation leaves on its flag in a fibre that holds it (spec/11 R243). -/
def Fibre.marked (f : Fibre) (flag : Nat) (p : Tab Word) : Fibre :=
  { f with poison := addPoison f.poison (((p.filter fun e => f.mask.getLsbD e.1).map fun e => (32 * flag + e.1, e.2))) }

/-- An operation ends: the registers of all its lanes at once (log 77), its marks, and its flag set (spec/06 R129). They replace what a
short-latency word wrote there meanwhile (spec/06 R126; log 99). -/
def State.endOp (s : State) (id : Nat) (o : Op) : State :=
  let g := (s.group o.group).writes (o.writes.map RegWrite.toWrite ++ [.flags (o.fpsr.foldl (fun m e => m ||| e.2) 0)])
  let g : Group :=
    match o.flag with
    | none => g
    | some n => { g with fibres := g.fibres.map fun f => if o.holders.contains f.id then f.marked n o.poison else f }
  { s.setGroup o.group g with ops := s.ops.erase id }

/-- The completion of an operation of a kind. -/
def State.complete (s : State) (kind : OpKind) (id : Nat) : State :=
  match s.ops.get? id with
  | some o => if o.kind = kind then s.endOp id o else s
  | none => s

/-- LOAD_COMPLETION. -/
def execLoadCompletion (op : Nat) (s : State) : Res := .next (s.complete .load op)

/-- ATOMIC_COMPLETION: the old values come to the registers; the memory was changed when the word issued. -/
def execAtomicCompletion (op : Nat) (s : State) : Res := .next (s.complete .atomic op)

/-- No older operation of the SF pipe of the same quarter is in flight (spec/11 R241). -/
def State.oldestSf (s : State) (id : Nat) : Bool :=
  match s.ops.get? id with
  | some o => s.ops.all fun e => e.2.kind != .sf || e.2.quarter != o.quarter || decide (id ≤ e.1)
  | none => false

/-- SF_COMPLETION: the pipe of a quarter completes in issue order. -/
def execSfCompletion (op : Nat) (s : State) : Res := .next (if s.oldestSf op then s.complete .sf op else s)

/-- CWB_COMPLETION: the lines are written back, and no cache holds them dirty (spec/16 R348). -/
def execCwbCompletion (op : Nat) (s : State) : Res :=
  let lines := ((s.ops.get? op).filter fun o => o.kind == .cwb).elim [] (·.lines)
  .next (lines.foldl State.cleanLine (s.complete .cwb op))

/-! ### Walks and services -/

/-- PAGE_WALK: a walk that asks for a service starts it, after its reads of tables; its other ends belong to the accesses that walk. -/
def execPageWalk (slot va : Nat) (kind : AccKind) (s : State) : Res :=
  let f := s.slotFn slot
  .next (if s.phase = .ready then ((s.walked 1152 f slot va).serve f slot va (walk s f slot va kind)).1 else s)

/-- The services that wait for a frame to be placed, with their function and entry. -/
def State.placing (s : State) (frame : Nat) : List (Nat × Nat × Nat) :=
  s.services.filterMap fun e =>
    match e.2 with
    | .place f fn entry => if f = frame then some (e.1, fn, entry) else none
    | .cow .. => none

/-- The device may move a frame to a place by the advice of the access that placed it; a frame without one stays in HBM (spec/07 R147). -/
def State.mayMove (s : State) (frame : Nat) (dest : Place) : Bool :=
  match s.advice.get? frame, dest with
  | some (fn, entry), _ => allowedPlace s fn entry (frame * 65536) dest
  | none, .stack _ => true
  | none, .cxl _ => false

/-- FRAME_MOVE_START: a frame at rest that is to move to a place with room that its advice allows. -/
def execFrameMoveStart (frame : Nat) (dest : Place) (s : State) : Res :=
  .next <|
    match s.placed.get? frame with
    | some p =>
      if p = dest ∨ s.frameWaits frame ∨ s.placeDown frame dest ∨ !s.hasRoom dest ∨ !s.mayMove frame dest ∨ !(s.placing frame).isEmpty then s
      else { s with moving := s.moving.put frame dest }
    | none => s

/-- FRAME_MOVE_COMPLETION: a move of the device's own ends at its destination; a frame that an access waits for rests where its entry
allows, at the place offered if it may. What needs a die in reset waits (spec/01 R26). -/
def execFrameMoveCompletion (frame : Nat) (dest : Place) (s : State) : Res :=
  .next <|
    if (s.placed.get? frame).any (s.placeDown frame) then s
    else
      match s.moving.get? frame with
      | some d =>
        if s.placeDown frame d then s
        else State.unstall
          { s with placed := if s.hasRoom d && s.mayMove frame d then s.placed.put frame d else s.placed, moving := s.moving.erase frame }
      | none =>
        match s.placing frame with
        | (_, fn, entry) :: _ =>
          if s.restWaits frame fn entry dest then s
          else
            let gone := (s.placing frame).map (·.1)
            (s.placeFrame frame fn entry dest).served fun e => gone.contains e.1
        | [] => s

/-- COW_SERVICE_COMPLETION: the copy is made where the entry still stands as the write found it. -/
def execCowServiceCompletion (id : Nat) (s : State) : Res :=
  .next (s.orWait (s.cowEnd id))

/-! ### Re-checks of WAITM (spec/16 R358, R359) -/

/-- The parked fibre traps in every lane, and its wait ends. -/
def State.waitmTrap (s : State) (gid : Nat) (f : Fibre) (cause : Nat) (tsyn ea : Word) : State :=
  (s.takeTrap gid
    { fibre := f.id, lanes := f.mask, cause := cause, tsyn := tsyn, tunit := (lanesOf f.mask).map fun l => (l, ea),
      tpc := f.parkedAt, resume := .word, word := 0 } f.mask f.reenter).settleGroup gid

/-- POISC of the context of a group. -/
def State.groupPoison (s : State) (gid : Nat) : State :=
  let i := s.inst (s.team (s.group gid).team).inst
  s.modTele (s.ownerSlot i.fn i.slot) fun t => { t with poisc := sat64 (t.poisc + 1) }

/-- The watched location read again; a WAITM issued again after a resumption is checked against the range locks too (spec/16 R359). -/
def State.recheck (s : State) (gid : Nat) (f : Fibre) (ea : Word) (space : Space) (n : Nat) (cond : WCond) (k : Word)
    (scope : Scope) : State :=
  let t := (s.group gid).team
  let i := s.inst (s.team t).inst
  let unit : Word := BitVec.ofNat 64 (ea.toNat / 32 * 32)
  let c := (s.team t).core
  let at_ := s
  let s := if space = .virt then s.walked c i.fn i.slot ea.toNat else s
  match at_.engAcc i.fn i.slot t c space ea.toNat n .read with
  | .fault w => s.waitmTrap gid f 7 (BitVec.ofNat 64 (2 ^ w.bit)) ea
  | .poison => (s.groupPoison gid).waitmTrap gid f 9 1 unit
  | .wait .stall => at_
  | .wait w =>
    let r := s.serve i.fn i.slot ea.toNat w
    r.1.takeWait gid f.id f.mask [r.2] f.reenter
  | .ok l =>
    match if f.again then lockHit (s.coreAt c).locks i.slot space (s.lockOwner t space) ea.toNat n false else none with
    | some (e, dst) => s.waitmTrap gid f 8 (lockSyn e dst) ea
    | none =>
      let a := s.acquired c (wideScope scope)
      let x := a.seenAt c l n
      let s := a.readThrough c l
      if x.2 then (s.groupPoison gid).waitmTrap gid f 9 0 unit
      else if waitCond cond n (leNat x.1) k.toNat then
        ((s.readMarks { team := t, group := gid, core := c, fibre := f.mask, lanes := f.mask } (scope, .acq) (a.marksSeen c l n)).bump.wakeWhere (fun g x _ => g == gid && x.id == f.id) id)
      else if f.again then s.bump.modFibre gid f.id fun x => { x with again := false }
      else s.bump

/-- The fibre that waits in a WAITM, and its wait, when it may be read again. -/
def State.watcher (s : State) (gid fid : Nat) : Option (Fibre × Word × Space × Nat × WCond × Word × Scope) :=
  let g := s.group gid
  if g.ended || (s.team g.team).stopped then none
  else
    (g.fibre? fid).bind fun f =>
      match f.kind with
      | .parked (.mem ea space n cond k scope _) => some (f, ea, space, n, cond, k, scope)
      | _ => none

/-- WAITM_RECHECK. -/
def execWaitmRecheck (group fibre : Nat) (s : State) : Res :=
  .next <|
    match s.watcher group fibre with
    | some (f, ea, space, n, cond, k, scope) => s.recheck group f ea space n cond k scope
    | none => s

/-! ### Uncorrectable errors (spec/07 R158, R160; spec/16 R345) -/

/-- MEMUE of the OWNER slot of a team's context. -/
def State.chargeTeam (s : State) (t : Nat) : State :=
  let i := s.inst (s.team t).inst
  s.modTele (s.ownerSlot i.fn i.slot) fun x => { x with memue := sat64 (x.memue + 1) }

/-- Units poisoned by one error that strikes cached copies of them, `clean` those that are clean: the poison of these stands in the copies
alone, where no home holds it already, and that of the others comes home with them (spec/07 R158; log 48). `mark` puts down in the copies
which poison they alone hold. -/
def State.strikeCopies (s : State) (k : Option Nat) (us : List Nat) (clean : Nat → Bool) (mark : List Nat → State → State) : State :=
  let alone := s.cleanHome (us.filter clean)
  let s := s.unstrike (us.filter fun u => !clean u)
  mark alone (State.chargeSlot { s with poison := us.foldl NatSet.add s.poison } k)

/-- An uncorrectable error in store-cache SRAM: the whole sector that holds a unit, or the linear one around it where none does. -/
def State.strikeSector (s : State) (u : Nat) : State :=
  match s.sectors.find? fun x => x.held.contains u with
  | none => s.poisonUnits (natsFrom (u / 32 * 32) 32)
  | some x =>
    s.strikeCopies (x.held.findSome? s.unitSlot) x.held (fun u => !x.dirty.contains u && !(s.dir.get? (u / 4)).any (·.dirty)) fun us s =>
      { s with sectors := s.sectors.map fun x => if x.held.contains u then { x with struck := us.foldl NatSet.add x.struck } else x }

/-- An uncorrectable error in a die cache: the whole line, charged to the slot under which it is held. -/
def State.strikeLine (s : State) (l : Nat) : State :=
  match s.dir.get? l with
  | none => s.poisonLine l
  | some x => s.strikeCopies (some x.slot) (lineUnits l) (fun _ => !x.dirty) fun us s =>
      { s with dir := s.dir.put l { s.dir.getD l x with struck := us.foldl NatSet.add (s.dir.getD l x).struck } }

/-- ECC_UNCORRECTABLE: what is struck is poisoned and charged once; the die scratchpad, which has no key slot, is poisoned by the line and
charged to none (log 48). -/
def execEccUncorrectable (e : EccStrike) (s : State) : Res :=
  .next <|
    match e with
    | .unit pa => if s.frameEnd ≤ pa then s else s.poisonUnits [s.dom pa / 32]
    | .sector pa => if s.frameEnd ≤ pa then s else s.strikeSector (s.dom pa / 32)
    | .line pa => if s.frameEnd ≤ pa then s else s.strikeLine (lineOf (s.dom pa))
    | .scratch t off => if off < (s.team t).scrBytes then (s.poisonLoc (.scratch t off)).chargeTeam t else s
    | .die d off =>
      if off < 24117248 ∧ (s.dieOwner d.val).isSome then
        (List.range 4).foldl (fun s k => s.poisonLoc (.die d.val (off / 128 * 128 + 32 * k))) s
      else s
    | .slice g lane off =>
      if off < 64 ∧ (s.groups.get? g).any (fun x => !x.ended) then
        (s.poisonLoc (.slice g lane.val off)).chargeTeam (s.group g).team
      else s

end Sys2Proof.Machine
end

