-- ==== Sys2Proof/Machine/Control.lean ====
section
/-!
DEFINITION. Terminal words, TRAP and BKPT, fibre words, window and index words (spec/14 R305 to R316; spec/06 R117 to R119;
spec/11 R248).
-/

namespace Sys2Proof.Machine

open Sys2Proof

/-- The target of format J (spec/13 R287). -/
def Issue.target (it : Issue) (off : BitVec 17) : Word := it.clause + off.signExtend 64 * 4

/-- A terminal word that only says where each member goes on. -/
def transfer (s : State) (f : Fibre → Group → Option Word) : Res :=
  terminalWord s fun m g st => ({ st := st }, some ((f m g).elim .next .goto))

/-! ### Branches (spec/14 R306, R307) -/

/-- Conditional BR: each member by its own condition bit. -/
def execBrCond (c : CReg) (n : Bool) (off : BitVec 17) (s : State) : Res :=
  transfer s fun m _ => if m.c.getLsbD c.val != n then some (s.it.target off) else none

/-- BR always. -/
def execBrAlways (off : BitVec 17) (s : State) : Res := transfer s fun _ _ => some (s.it.target off)

/-- CALL: s(56 + C) := the sequential address. -/
def execCall (l : Fin 8) (off : BitVec 17) (s : State) : Res :=
  terminalWord s fun _ _ st =>
    ({ st := st, writes := [.s (56 + l.val) s.it.sequential] }, some (.goto (s.it.target off)))

/-- A jump to a register's value; a value off a word boundary traps 0x06 (spec/14 R307). -/
def jumpTo (m : Fibre) (x : Word) (st : State) : MRes × Option Term :=
  if x.toNat % 4 = 0 then ({ st := st }, some (.goto x)) else ({ st := st, traps := trapLanes m.mask 6 4 x }, none)

/-- BRI. -/
def execBri (a : SReg) (s : State) : Res := terminalWord s fun m g st => jumpTo m (g.sreg a.val) st

/-- RET. -/
def execRet (a : SReg) (s : State) : Res := terminalWord s fun m g st => jumpTo m (g.sreg a.val) st

/-! ### Loops (spec/14 R308 to R311) -/

/-- The count of a LOOP. -/
def loopCount (g : Group) : LoopCount → W32
  | .imm n => BitVec.ofNat 32 n.val
  | .reg r => (g.sreg r.val).setWidth 32

/-- One more level open (spec/14 R309). -/
def openLevel (l : LoopState) (bound : W32) (start stop : Word) : LoopState :=
  let k := l.levels
  { lc := l.lc.put k 0, bound := l.bound.put k bound, start := l.start.put k start, stop := l.stop.put k stop,
    levels := k + 1 }

/-- LOOP. -/
def execLoop (lc : LcReg) (cnt : LoopCount) (len : BitVec 8) (s : State) : Res :=
  terminalWord s fun m g st =>
    let start := s.it.sequential
    let stop := start + BitVec.ofNat 64 (4 * (len.toNat + 1))
    let k := m.loops.levels
    let n := loopCount g cnt
    if 3 ≤ k then ({ st := st, traps := trapLanes m.mask 19 3 }, none)
    else if lc.val ≠ k ∨ (k ≠ 0 ∧ (m.loops.stop.getD (k - 1) 0).toNat < stop.toNat) then
      ({ st := st, traps := trapLanes m.mask 1 st.image }, none)
    else if n = 0 then ({ st := st }, some (.goto stop))
    else ({ st := st, writes := [.loops m.id (openLevel m.loops n start stop)] }, some (.goto start))

/-- LBRK (spec/14 R311). -/
def execLbrk (lc : LcReg) (cond : Option CReg) (s : State) : Res :=
  terminalWord s fun m _ st =>
    if m.loops.levels ≤ lc.val ∨ cond.elim false (fun c => !m.c.getLsbD c.val) then ({ st := st }, some .next)
    else
      ({ st := st, writes := [.loops m.id { m.loops with levels := lc.val }] },
        some (.goto (m.loops.stop.getD lc.val 0)))

/-! ### Fibres (spec/14 R313; spec/06 R118, R119) -/

/-- FSPLIT: T is the lanes where p XOR N = 1. -/
def execFsplit (p : PReg) (n : Bool) (off : BitVec 17) (s : State) : Res :=
  terminalWord s fun m g st =>
    let one := g.p.getD p.val 0 &&& m.mask
    let zero := m.mask &&& ~~~one
    ({ st := st }, some (if n then .split zero one (s.it.target off) else .split one zero (s.it.target off)))

/-- FJOIN: no effect in a fibre without a split entry. -/
def execFjoin (s : State) : Res :=
  terminalWord s fun m _ st => ({ st := st }, some (if m.entry.isSome then .park .join else .next))

/-- FEND. -/
def execFend (s : State) : Res := terminalWord s fun _ _ st => ({ st := st }, some .endLanes)

/-! ### Window and index words (spec/14 R315, R316) -/

/-- The new window base checked and taken. -/
def moveWindow (base : Fibre → Int) (a : Option SReg) (imm : BitVec 10) (s : State) : Res :=
  perMember s fun m g st =>
    let w := base m + a.elim 0 (fun r => (g.sreg r.val).toInt) + imm.toInt
    if w % 8 ≠ 0 ∨ w < 0 ∨ (g.walloc : Int) - 8 < w then { st := st, traps := trapLanes m.mask 4 (wordOfInt w) 1 }
    else { st := st, writes := [.wb m.id w.toNat] }

/-- WINSET. -/
def execWinset (a : Option SReg) (imm : BitVec 10) (s : State) : Res := moveWindow (fun _ => 0) a imm s

/-- WINADD. -/
def execWinadd (a : Option SReg) (imm : BitVec 10) (s : State) : Res := moveWindow (fun m => (m.wb : Int)) a imm s

/-- The base value of XMOV and XADD in a lane; `es` holds the v register, where the source is one. -/
def xBase (g : Group) (lane : Nat) (src : XSrc) (es : List Nat) : BitVec 16 :=
  match src with
  | .imm => 0
  | .v _ => (g.vreg lane (es.headD 0)).setWidth 16
  | .s a => (g.sreg a.val).setWidth 16
  | .x a => g.xreg lane a.val

/-- The v operand of an index word. -/
def xArgs : XSrc → List VArg
  | .v a => [{ op := a }]
  | .imm | .s _ | .x _ => []

/-- An index word: `f old val`. -/
def indexWord (d : XReg) (src : XSrc) (imm : BitVec 9) (f : BitVec 16 → BitVec 16 → BitVec 16) (s : State) : Res :=
  perMember s fun m g st =>
    let rs : List LaneRegs := (lanesOf m.mask).map fun l => (l, resolveAll g m.wb l (xArgs src))
    { st := st, traps := boundTraps rs,
      writes := (goodLanes rs).map fun r =>
        .x r.1 d.val (f (g.xreg r.1 d.val) (xBase g r.1 src r.2 + imm.signExtend 16)) }

/-- XMOV. -/
def execXmov (d : XReg) (src : XSrc) (imm : BitVec 9) (s : State) : Res := indexWord d src imm (fun _ y => y) s

/-- XADD. -/
def execXadd (d : XReg) (src : XSrc) (imm : BitVec 9) (s : State) : Res := indexWord d src imm (fun x y => x + y) s

/-! ### Traps from programs, return, group end, yield (spec/14 R312) -/

/-- TRAP: the user trap in every lane. -/
def execTrap (code : BitVec 16) (s : State) : Res :=
  perMember s fun m _ st => { st := st, traps := trapLanes m.mask 17 (code.setWidth 64) }

/-- RETT: the return of spec/11 R248, at the clause boundary; illegal in a fibre without trap registers. -/
def execRett (s : State) : Res :=
  terminalWord s fun m _ st =>
    if m.trap.isSome then ({ st := st }, some .rett) else ({ st := st, traps := trapLanes m.mask 1 st.image }, none)

/-- BKPT: the breakpoint trap in every lane. -/
def execBkpt (code : BitVec 16) (s : State) : Res :=
  perMember s fun m _ st => { st := st, traps := trapLanes m.mask 16 (code.setWidth 64) }

/-- GEND. -/
def execGend (s : State) : Res := terminalWord s fun _ _ st => ({ st := st }, some .endGroup)

/-- YIELD. -/
def execYield (s : State) : Res := terminalWord s fun _ _ st => ({ st := st }, some .yield)

end Sys2Proof.Machine
end

