-- ==== Sys2Proof/Machine/CrossLane.lean ====
section
/-!
DEFINITION. Words across lanes (spec/15 R324). A lane that traps in the word counts as outside the fibre (spec/15 R317).
-/

namespace Sys2Proof.Machine

open Sys2Proof

/-- A word across lanes: `f` takes the lanes that are in, each with its registers, and gives the writes. -/
def crossWord (s : State) (ops : List VArg) (f : Group → List (Nat × List Nat) → List GWrite) : Res :=
  batchWord s fun it g st =>
    let rs := laneRegs it g ops
    { st := st, writes := f g (goodLanes rs), traps := boundTraps rs }

/-- The registers of a lane that is in. -/
def laneIn (ls : List (Nat × List Nat)) (l : Nat) : Option (List Nat) := (ls.find? fun r => r.1 == l).map (·.2)

/-- The lane that a lane reads from, when it is a lane number. -/
def shflSource (g : Group) (sel : ShflSel) (l : Nat) (es : List Nat) : Option Nat :=
  match sel with
  | .idx _ => some ((g.vreg l (es.getD 2 0)).toNat % 32)
  | .xor imm => some (l ^^^ imm.val)
  | .up imm => if imm.val ≤ l then some (l - imm.val) else none
  | .down imm => if l + imm.val ≤ 31 then some (l + imm.val) else none

/-- VSHFL. -/
def execVshfl (d a : VOp) (sel : ShflSel) (s : State) : Res :=
  let idx : List VArg := match sel with | .idx b => [{ op := b }] | .xor _ | .up _ | .down _ => []
  crossWord s ({ op := d } :: { op := a } :: idx) fun g ls =>
    ls.map fun r =>
      let own := g.vreg r.1 (r.2.getD 1 0)
      let x := match shflSource g sel r.1 r.2 with
        | none => own
        | some src =>
          match laneIn ls src with
          | some es => g.vreg src (es.getD 1 0)
          | none => own
      .v r.1 (r.2.headD 0) x

/-- VPERM: the selector is the destination's old value. -/
def execVperm (d a b : VOp) (s : State) : Res :=
  crossWord s [{ op := d }, { op := a }, { op := b }] fun g ls =>
    ls.map fun r =>
      let j := (g.vreg r.1 (r.2.headD 0)).toNat % 64
      let x := match laneIn ls (j % 32) with
        | some es => g.vreg (j % 32) (if j < 32 then es.getD 1 0 else es.getD 2 0)
        | none => 0
      .v r.1 (r.2.headD 0) x

/-- One step of VRDC. -/
def rdcOp (op : RdcOp) (ty : RdcTy) (x y : Nat) : Nat × Word :=
  let less : Bool :=
    match ty with
    | .i32 => decide (signedOf 32 x ≤ signedOf 32 y)
    | .n32 | .f32 => decide (x ≤ y)
  match ty, op with
  | .f32, .add => fmtF32.add .rne (fmtF32.val x) (fmtF32.val y)
  | .f32, .min => fmtF32.pick false x y
  | .f32, .max => fmtF32.pick true x y
  | _, .add => ((x + y) % 4294967296, 0)
  | _, .min => (if less then x else y, 0)
  | _, .max => (if less then y else x, 0)
  | _, .and => (x &&& y, 0)
  | _, .or => (x ||| y, 0)
  | _, .xor => (x ^^^ y, 0)

/-- The result of VRDC over lanes of which the first holds `x`: the result of a float word is no NaN but the default one, and a
signalling NaN that meets no operation sets NV too (spec/12 R257; of one lane against the copy of spec/15 R324, log 115). -/
def rdcEnd (ty : RdcTy) (x : Nat) (r : Nat × Word) : Nat × Word :=
  match ty with
  | .f32 => (if (fmtF32.val r.1).isNan then fmtF32.nan else r.1, r.2 ||| nanFlag [fmtF32.val x])
  | _ => r

/-- VRDC: the lanes in ascending order; every lane that is in gets the result. -/
def execVrdc (op : RdcOp) (ty : RdcTy) (d a : VOp) (s : State) : Res :=
  crossWord s [{ op := d }, { op := a }] fun g ls =>
    match ls with
    | [] => []
    | h :: rest =>
      let value (r : Nat × List Nat) : Nat := (g.vreg r.1 (r.2.getD 1 0)).toNat
      let acc := rdcEnd ty (value h) <| rest.foldl (fun acc r =>
        let y := rdcOp op ty acc.1 (value r)
        (y.1, acc.2 ||| y.2)) (value h, (0 : Word))
      ls.map (fun r => .v r.1 (r.2.headD 0) (BitVec.ofNat 32 acc.1)) ++ flagWrites acc.2

end Sys2Proof.Machine
end

