-- ==== Sys2Proof/Machine/Launch.lean ====
section
/-!
DEFINITION. Task control blocks, instances and their ends, tapes and the aggregator (spec/04 R68 to R75, R79, R81 to R87; spec/05 R100,
R101), and the words LAUNCH, LAGG, LFLUSH, TAPE and QSIG (spec/18 R401 to R406).
-/

namespace Sys2Proof.Machine

open Sys2Proof

/-! ### The task control block (spec/04 R68) -/

/-- The bits of the word at an offset that are not reserved. -/
def tcbMask (off : Nat) : Nat :=
  if off = 16 then 63 * (1 + 2 ^ 8 + 2 ^ 16 + 2 ^ 24 + 2 ^ 32 + 2 ^ 40)
  else if off = 24 then 4095 + 15 * 2 ^ 16
  else if off = 32 then 191 + 3 * 2 ^ 8 + 7 * 2 ^ 12 + 7 * 2 ^ 16 + 255 * 2 ^ 24 + 65535 * 2 ^ 32
  else if off = 40 then 65535 + 7 * 2 ^ 16 + 4095 * 2 ^ 20
  else if off = 112 then 1023 + 2 ^ 63
  else if off = 8 ∨ off = 48 ∨ off = 128 ∨ off = 248 then 2 ^ 64 - 1
  else if off ≤ 136 then 2 ^ 57 - 1
  else 0

/-- A reserved bit of the block is set. -/
def tcbReserved (bs : List Byte) : Bool :=
  (List.range 31).any fun k => let x := recField bs (8 * k) 8; x &&& tcbMask (8 * k) != x

/-- The fields of a block. -/
def tcbFields (bs : List Byte) : Tcb :=
  let f (off hi lo : Nat) : Nat := fieldOf (recField bs off 8) hi lo
  { entry := f 0 56 0, nx := f 8 31 0, ny := f 8 47 32, nz := f 8 63 48,
    g0 := f 16 5 0, g1 := f 16 21 16, g2 := f 16 37 32, b0 := f 16 13 8, b1 := f 16 29 24, b2 := f 16 45 40,
    scr := f 24 11 0, acc := f 24 19 16,
    clf := f 32 1 0, clg := f 32 3 2, clt := f 32 5 4, sup := f 32 7 7 == 1, reg := f 32 9 8, prio := f 32 14 12,
    cset := f 32 18 16, cohs := f 32 31 24, gsid := f 32 47 32,
    predc := f 40 15 0, nsuc := f 40 18 16, novf := f 40 31 20, param := BitVec.ofNat 64 (f 48 63 0), sovp := f 56 56 0,
    suc := (List.range 6).map fun k => f (64 + 8 * k) 56 0,
    tnum := f 112 9 0, tpsh := f 112 63 63 == 1, tbwd := f 120 56 0, targ := BitVec.ofNat 64 (f 128 63 0), aggt := f 136 56 0 }

/-- A field stands outside its range, or an address in use is misaligned (spec/04 R68; spec/05 R100). -/
def Tcb.outOfRange (b : Tcb) : Bool :=
  let budget (g n : Nat) : Bool := g != 0 && (n == 0 || decide (32 < n))
  b.g0 == 0 || decide (32 < b.g0 + b.g1 + b.g2) || budget b.g0 b.b0 || budget b.g1 b.b1 || budget b.g2 b.b2
    || decide (2048 < b.scr) || decide (8 < b.acc) || b.clf == 3 || b.clg == 3 || b.clt == 3 || b.reg == 3
    || decide (5 ≤ b.cset) || (decide (2 ≤ b.cset) && b.cohs % b.cset != 0) || b.nsuc == 7
    || decide (4294967296 < b.teams) || b.entry % 4 != 0 || (b.novf != 0 && b.sovp % 8 != 0)
    || (b.suc.take b.nsuc).any (fun a => a % 256 != 0) || (b.tpsh && b.tbwd % 256 != 0)
    || (b.gsid != 0 && (b.gsid % 4096 == 0 || b.gsid / 4096 == 0 || b.clt != 0))

/-- A block as read. -/
def parseTcb (bs : List Byte) : Tcb :=
  let b := tcbFields bs
  { b with bad := tcbReserved bs || b.outOfRange }

/-- The block at an address read by the command processor, where it can be (spec/04 R68). -/
def State.readTcb (s : State) (fn slot blk : Nat) : State × Option Tcb :=
  if blk % 256 ≠ 0 then (s, none)
  else
    let r := s.cpRead fn slot blk 256
    (r.1, r.2.map parseTcb)

/-! ### STAT (spec/04 R69) -/

/-- Codes of STATE. -/
def instCode : InstState → Nat
  | .pending => 1
  | .ready => 2
  | .running => 3
  | .retired => 4
  | .failed => 5

/-- The writes to host memory that happen before what an instance of the table does: those it is submitted after, its predecessors' and
its own teams' (spec/04 R72; log 25). -/
def State.behind (s : State) (id : Nat) : NatSet :=
  let i := s.inst id
  s.known (.inst id) ++ s.known (.block i.fn i.blk)

/-- STAT written, as a release at device scope that covers `xs` (spec/04 R69); a STAT that cannot be written is passed over (log 83). -/
def State.writeStat (s : State) (i : Instance) (xs : NatSet) (st : InstState) (reason : Nat) (tfail : Bool) : State :=
  (s.cpWrite i.fn i.slot (i.blk + 248)
    (leBytes 8 (instCode st + 256 * reason + 65536 * bnat i.derr + 131072 * bnat tfail)) (s.markOf {} .dev xs)).1

/-! ### Readiness (spec/04 R71, R75; spec/05 R101) -/

/-- Members of a set: NGM + 1. -/
def setSize (gsid : Nat) : Nat := gsid / 4096 + 1

/-- A set formed where NGM + 1 members of the GSID have gathered. -/
def State.formSet (s : State) (fn gsid : Nat) : State :=
  if gsid = 0 then s
  else
    let ms := s.insts.filter fun e => e.2.fn == fn && e.2.tcb.gsid == gsid && decide (e.2.state = .ready)
      && e.2.setMembers.isEmpty
    let ids := ms.map (·.1)
    if ms.length < setSize gsid then s
    else { s with insts := s.insts.map fun e =>
      if ids.contains e.1 then (e.1, { e.2 with setMembers := ids.filter (fun k => k != e.1) }) else e }

/-- An instance whose count is 0 is READY. -/
def State.makeReady (s : State) (id : Nat) : State :=
  let i := { s.inst id with state := .ready, seq := s.nextId }
  (({ s with insts := s.insts.put id i, nextId := s.nextId + 1 }).writeStat i (s.behind id) .ready 0 false).formSet i.fn i.tcb.gsid

/-! ### The ends of instances (spec/04 R73) -/

/-- An instance that has ended, with its number where it had an entry, and the writes to host memory that happen before its end. -/
structure Ended where
  id : Option Nat
  inst : Instance
  behind : NatSet
  failed : Bool
  reason : Nat := 0
  tfail : Bool := false

/-- An instance of the table ends, with a reason if it fails: its entry is free, and its block's name. -/
def State.ending (s : State) (id reason : Nat) : State × Ended :=
  let i := s.inst id
  (({ s with insts := s.insts.erase id } : State).forget (.block i.fn i.blk),
    { id := some id, inst := i, behind := s.behind id, failed := reason != 0, reason := reason })

/-- The successor addresses of an instance that ends, in order, none for one that cannot be read; and whether a field was
skipped. Bits 63:57 of an entry of the overflow list are left out of account (spec/04 R73; log 98). -/
def State.successors (s : State) (e : Ended) : State × List (Option Nat) × Bool :=
  let b := e.inst.tcb
  let inline_ := if b.nsuc = 7 then [] else (b.suc.take b.nsuc).map some
  let skip := b.nsuc == 7
  if b.novf ≠ 0 ∧ b.sovp % 8 ≠ 0 then (s, inline_, true)
  else
    let r := (List.range b.novf).foldl (fun (acc : State × List (Option Nat)) k =>
      let x := acc.1.cpRead e.inst.fn e.inst.slot (b.sovp + 8 * k) 8
      (x.1, acc.2 ++ [x.2.map fun bs => leNat bs % 2 ^ 57])) (s, [])
    if e.reason = 1 ∧ r.2.any Option.isNone then (r.1, inline_, true) else (r.1, inline_ ++ r.2, skip)

/-- The instance table is full for a function (spec/04 R70). -/
def State.tableFull (s : State) (fn : Nat) : Bool :=
  decide (16384 ≤ s.insts.length + s.credits.length) ||
    decide (4096 ≤ (s.insts.filter fun e => e.2.fn == fn).length + (s.credits.filter fun c => c.fn == fn).length)

/-- One decrement: whether it sets DERR, and the instance that it makes READY or failed (spec/04 R71); one that needs a credit of which
the table holds no more is lost with DERR (log 65). Of several instances of the address a plain one takes it, else the first (log 72). -/
def State.decrement (s : State) (fn addr : Nat) (failed : Bool) : State × Bool × Option Nat :=
  let same (e : Nat × Instance) : Bool := e.2.fn == fn && e.2.blk == addr
  match (s.insts.find? fun e => same e && e.2.children.isEmpty).orElse fun _ => s.insts.find? same with
  | none =>
    let old := s.credits.find? fun c => c.fn == fn && c.blk == addr
    let c := old.getD { fn := fn, blk := addr, count := 0, marked := false }
    if old.isNone && s.tableFull fn then (s, true, none)
    else ({ s with credits := { c with count := c.count + 1, marked := c.marked || failed } ::
        s.credits.filter fun c => !(c.fn == fn && c.blk == addr) }, false, none)
  | some (id, i) =>
    if i.state = .pending ∧ i.count ≠ 0 then
      let i := { i with count := i.count - 1, marked := i.marked || failed }
      ({ s with insts := s.insts.put id i }, false, if i.count = 0 then some id else none)
    else (s, true, none)

/-- Instances that ended: STAT, then the decrements of their successors; an instance that fails by it ends in turn. The answer
lists every instance that ended. -/
def State.drain : Nat → State → List Ended → List Ended → State × List Ended
  | 0, s, _, out => (s, out)
  | _ + 1, s, [], out => (s, out)
  | fuel + 1, s, e :: rest, out =>
    let st : InstState := if e.failed then .failed else .retired
    let s := s.writeStat e.inst e.behind st e.reason e.tfail
    let r := s.successors e
    let d := r.2.1.foldl (fun (acc : State × Bool × List Nat) a =>
      match a with
      | none => (acc.1, true, acc.2.2)
      | some x =>
        if x % 256 ≠ 0 then (acc.1, true, acc.2.2)
        else
          let y := (acc.1.learn (.block e.inst.fn x) e.behind).decrement e.inst.fn x e.failed
          (y.1, acc.2.1 || y.2.1, acc.2.2 ++ y.2.2.toList)) (r.1, r.2.2, [])
    let s := if d.2.1 then d.1.writeStat { e.inst with derr := true } e.behind st e.reason e.tfail else d.1
    let z := d.2.2.foldl (fun (acc : State × List Ended) k =>
      let i := acc.1.inst k
      if i.marked then
        let x := acc.1.ending k 6
        (x.1, acc.2 ++ [x.2])
      else (acc.1.makeReady k, acc.2)) (s, [])
    State.drain fuel z.1 (rest ++ z.2) (out ++ [e])

/-! ### Tapes (spec/04 R81 to R84; spec/18 R403 to R405) -/

def State.tape (s : State) (t : Nat) : Tape := s.tapes.getD t {}
def State.setTape (s : State) (t : Nat) (x : Tape) : State := { s with tapes := s.tapes.put t x }

/-- A record pushed, or dropped (spec/04 R81, R83); a push by whatever owner during a run sets LOST (log 74). -/
def State.tapePush (s : State) (t owner : Nat) (r : TapeRec) : State × Bool :=
  let x := s.tape t
  if 1024 ≤ t then (s, false)
  else if x.run.isSome then (s.setTape t { x with lost := true }, false)
  else if x.owner.any fun o => o != owner then (s, false)
  else if 4096 ≤ x.recs.length then (s.setTape t { x with lost := true }, false)
  else (s.setTape t { x with recs := r :: x.recs, owner := some owner }, true)

/-- A run's handle, while its team has it bound. -/
def State.runHandle (s : State) (t : Nat) (r : TapeRun) : Option Handle :=
  match s.teams.get? r.team with
  | some x =>
    if x.ended then none
    else (x.handles.get? r.handle).filter fun h => h.tape == some t
  | none => none

/-- A fibre of a team waits in HWAIT on a handle, or is to park in it at its clause's end. -/
def State.waitsOn (s : State) (t h : Nat) : Bool :=
  s.groups.any fun g => g.2.team == t && g.2.fibres.any fun f => s.waitOf g.1 f == some (.handle h)

/-- What the replayed instances of a run wrote stands before what observes its handle from now on, and before what fibres that wait for it do
next: an acquire at device scope (spec/18 R404). -/
def State.ranUntil (s : State) (t : Nat) (r : TapeRun) : State :=
  let s := s.learn (.handle r.team r.handle) (s.known (.tape t))
  if s.waitsOn r.team r.handle then
    (s.informWaiting (fun gid _ w => (s.group gid).team == r.team && w == .handle r.handle) (s.known (.tape t))).acquired
      (s.team r.team).core true
  else s

/-- A run ends: the tape is empty, and its handle becomes FULL, or FREE after HFREE (spec/18 R404); fibres that wait for it observe
FULL, an acquire at device scope. -/
def State.endRun (s : State) (t : Nat) (gone : Bool) : State :=
  let x := s.tape t
  let s := s.setTape t { x with recs := [], owner := none, run := none }
  let s := match x.run with
    | none => s
    | some r =>
      match s.runHandle t r with
      | none => s
      | some h =>
        if h.state = HState.draining then s.freeHandle r.team r.handle { h with sumbad := false }
        else (s.ranUntil t r).fillHandle r.team r.handle { h with tape := none, gone := gone, fill := r.retired }
  s.forget (.tape t)

/-- What follows the failure of an instance: its LAUNCH command retires, and its run ends early. -/
def State.afterFail (s : State) (e : Ended) : State :=
  match e.id with
  | none => s
  | some id =>
    let isIt : SlotWork → Bool := fun w => match w with | .launch k _ => k == id | _ => false
    let s := match (s.slot e.inst.slot).busy.find? isIt with
      | some w => (s.learn (.done e.inst.slot) (s.known (.inst id))).slotRetire e.inst.slot w
      | none => s
    match e.inst.replayTape with
    | some t =>
      if (s.tape t).run.any fun r => r.inst == some id then (s.learn (.tape t) (s.known (.inst id))).endRun t true else s
    | none => s

/-- Every instance that a failure ends. -/
def State.failAll (s : State) (e : Ended) : State :=
  let r := s.drain (s.insts.length + 2) [e] []
  r.2.foldl State.afterFail r.1

/-! ### Submission (spec/04 R68, R70, R71, R79) -/

/-- What is submitted: the context, the block, the ceiling on its priority, the right to supervisor mode, and the data of a
replayed or merged instance, and the parties after whose writes it is submitted (spec/04 R72, R87). -/
structure Submission where
  fn : Nat
  slot : Nat
  blk : Nat
  cap : Nat
  sup : Bool
  replay : Option (Nat × Word) := none
  children : List Word := []
  after : List Who := []

/-- What becomes of a submission. -/
inductive Submitted where
  | full
  | unreadable
  | failed (e : Ended)
  | live (id : Nat)

/-- The aggregator's table written (spec/04 R86). -/
def State.writeTable (s : State) (fn slot at_ : Nat) : List Word → Nat → State × Bool
  | [], _ => (s, true)
  | p :: rest, c =>
    let r := s.cpWrite fn slot (at_ + 16 * c) (leBytes 8 p.toNat ++ leBytes 8 c)
    if r.2 then State.writeTable r.1 fn slot at_ rest (c + 1) else (r.1, false)

/-- The instance that a submission makes. -/
def Submission.instance_ (o : Submission) (b : Tcb) : Instance :=
  { blk := o.blk, tcb := b, fn := o.fn, slot := o.slot, sup := b.sup,
    prio := if o.replay.isSome then o.cap else min o.cap b.prio,
    count := if o.replay.isSome || !o.children.isEmpty then 0 else b.predc,
    replayTape := o.replay.map (·.1), s1 := o.replay.elim 0 (·.2), children := o.children }

/-- A submission meets a live instance of its block (spec/04 R70, R86). -/
def State.duplicate (s : State) (o : Submission) : Bool :=
  o.children.isEmpty && s.insts.any fun e => e.2.fn == o.fn && e.2.blk == o.blk && e.2.children.isEmpty

/-- The reason for which a submission fails, if it does (spec/04 R69); of several, the first in the order DUP, BADF, PRIV (log 66). -/
def State.rejectReason (s : State) (o : Submission) (b : Tcb) : Option Nat :=
  if s.duplicate o then some 5
  else if b.bad || (!o.children.isEmpty && b.aggt % 1024 != 0) then some 1
  else if b.sup && !o.sup then some 8
  else none

/-- The credit entry of a block freed, which its submission takes (spec/04 R71). -/
def State.freeCredit (s : State) (fn blk : Nat) : State :=
  { s with credits := s.credits.filter fun c => !(c.fn == fn && c.blk == blk) }

/-- The credit that waits for a block. -/
def State.creditFor (s : State) (fn blk : Nat) : Option Credit := s.credits.find? fun c => c.fn == fn && c.blk == blk

/-- A block submitted, once it is read: a duplicate fails at once, and any other submission needs an entry of the table before its block
is judged (spec/04 R70; log 66). It takes the credits of its block, also where it fails (spec/04 R71); credits beyond PREDC leave the count
at 0 and set no DERR (log 66). -/
def State.submit (s : State) (o : Submission) (tcb : Option Tcb) : State × Submitted :=
  if s.tableFull o.fn && !(tcb.isSome && s.duplicate o) then (s, .full)
  else
    match tcb with
    | none => (s.freeCredit o.fn o.blk, .unreadable)
    | some b =>
      let i := o.instance_ b
      let after := o.after.flatMap s.known
      let fails (s : State) (k : Nat) : State × Submitted :=
        if k = 5 then (s, .failed { id := none, inst := i, behind := after, failed := true, reason := k })
        else
          ((s.freeCredit o.fn o.blk).forget (.block o.fn o.blk),
            .failed { id := none, inst := i, behind := after ++ s.known (.block o.fn o.blk), failed := true, reason := k })
      match s.rejectReason o b with
      | some k => fails s k
      | none =>
        let w := s.writeTable o.fn o.slot b.aggt o.children 0
        let c := s.creditFor o.fn o.blk
        let s := w.1.freeCredit o.fn o.blk
        if !w.2 then fails s 1
        else
          let i : Instance := { i with count := i.count - c.elim 0 (·.count), marked := c.any (·.marked) }
          if i.count = 0 ∧ i.marked then fails s 6
          else
            let id := s.nextId
            let s : State := { s with insts := s.insts.put id i, nextId := id + 1 }
            let s := s.learn (.inst id) after
            (if i.count = 0 then s.makeReady id else s.writeStat i (s.behind id) .pending 0 false, .live id)

/-- A DUP submission decrements nothing (spec/04 R73); any other failure drains. -/
def State.rejected (s : State) (e : Ended) : State :=
  if e.reason = 5 then s.writeStat e.inst e.behind .failed 5 false else s.failAll e

/-! ### Runs and windows -/

/-- The next record of a run submitted, or the run ended; a full table lets it wait (spec/04 R70, R83). -/
def State.tapeNext (s : State) (t : Nat) : State :=
  let x := s.tape t
  match x.run with
  | none => s
  | some r =>
    match x.recs with
    | [] => s.endRun t false
    | top :: rest =>
      let b := s.readTcb r.fn r.slot top.blk
      let y := b.1.submit { fn := r.fn, slot := r.slot, blk := top.blk, cap := r.prio, sup := top.sup,
                            replay := some (t, top.arg), after := [.tape t] } b.2
      let popped (run : TapeRun) : Tape :=
        { x with recs := rest, owner := if rest.isEmpty then none else x.owner, run := some run }
      match y.2 with
      | .full => s.setTape t { x with run := some { r with inst := none } }
      | .unreadable => (y.1.setTape t (popped r)).endRun t true
      | .failed e => ((y.1.setTape t (popped r)).endRun t true).rejected e
      | .live id => y.1.setTape t (popped { r with inst := some id })

/-- A replayed instance retired: the fill pointer counts it, and the next is submitted (spec/18 R404). -/
def State.tapeRetired (s : State) (t : Nat) : State :=
  let x := s.tape t
  match x.run with
  | none => s
  | some r =>
    let r := { r with retired := r.retired + 1, inst := none }
    let s := s.setTape t { x with run := some r }
    let s := match s.runHandle t r with
      | some h => (s.setHandle r.team r.handle { h with fill := r.retired }).learn (.handle r.team r.handle) (s.known (.tape t))
      | none => s
    s.tapeNext t

/-- A window submitted; a full table lets it wait (spec/04 R70, R86). -/
def State.submitWindow (s : State) (w : Window) : State :=
  let gone := { s with windows := s.windows.erase w }
  let y := gone.submit { fn := w.fn, slot := w.slot, blk := w.blk, cap := w.prio, sup := w.sup, children := w.children,
                         after := [.window w.fn w.blk] } w.tcb
  match y.2 with
  | .full => { s with windows := s.windows.map fun x => if x = w then { x with closed := true } else x }
  | .unreadable => y.1
  | .live _ => y.1.forget (.window w.fn w.blk)
  | .failed e => y.1.rejected e

/-- Runs and windows that wait for a table entry tried again. -/
def State.pump (s : State) : State :=
  let s := (s.tapes.filter fun e => e.2.run.any fun r => r.inst.isNone).foldl (fun s e => s.tapeNext e.1) s
  (s.windows.filter (·.closed)).foldl State.submitWindow s

/-- A submission that fails, and what waits for the entry that its credits held (spec/04 R70, R71). -/
def State.failedSubmission (s : State) (e : Ended) : State := if e.reason = 5 then s.rejected e else (s.rejected e).pump

/-- The open windows of a function, the oldest first. -/
def State.openWindows (s : State) (fn : Nat) : List Window := s.windows.filter fun w => w.fn == fn && !w.closed

/-- A child offered to the aggregator (spec/04 R85); a window is its opener's, whoever adds to it (log 75). -/
def State.offerChild (s : State) (fn slot blk : Nat) (sup : Bool) (prio : Nat) (param : Word) : State :=
  let mine (w : Window) : Bool := w.fn == fn && w.blk == blk && !w.closed
  let past (w : Window) : Bool :=
    decide (4294967296 < (w.children.length + 1) * w.tcb.elim 1 (·.teams)) || decide (w.opened + 2000 ≤ s.time)
  let s := match s.windows.find? mine with
    | some w => if past w then s.submitWindow w else s
    | none => s
  match s.windows.find? mine with
  | some w =>
    let w' := { w with children := w.children ++ [param] }
    let s := { s with windows := s.windows.map fun x => if x = w then w' else x }
    if w'.children.length = 64 then s.submitWindow w' else s
  | none =>
    let s := match s.openWindows fn with
      | w :: rest => if 16 ≤ rest.length + 1 then s.submitWindow w else s
      | [] => s
    let b := s.readTcb fn slot blk
    { b.1 with windows := b.1.windows ++
        [{ fn := fn, blk := blk, tcb := b.2, children := [param], opened := b.1.time, slot := slot, sup := sup, prio := prio }] }

/-! ### The words -/

/-- The parties that a fibre of the word in hand is: what its threads know (spec/04 R87). -/
def State.voices (s : State) (m : Fibre) : List Who := .team s.myTeam :: (lanesOf m.mask).map fun l => .lane s.it.group l

/-- LAUNCH: a full table refuses it, whatever the block (spec/18 R401). -/
def execLaunch (c : CReg) (a : SReg) (s : State) : Res :=
  accessEach s fun m g st =>
    let ea := g.sreg a.val
    match st.readRecord m ea 256 256 with
    | .error r => r
    | .ok (st, bs) =>
      let i := st.inst st.myInst
      if st.tableFull i.fn then { st := st, writes := [.c m.id c.val false] }
      else
        let y := st.submit { fn := i.fn, slot := i.slot, blk := ea.toNat, cap := i.prio, sup := i.sup,
                             after := st.voices m } (some (parseTcb bs))
        { st := match y.2 with
            | .failed e => y.1.failedSubmission e
            | .full | .unreadable | .live _ => y.1
          writes := [.c m.id c.val true] }

/-- LAGG. -/
def execLagg (a b : SReg) (s : State) : Res :=
  accessEach s fun m g st =>
    let ea := g.sreg a.val
    let r := st.checkRange .virt ea 256 256 .read
    match r.bad with
    | some x => checkFails r m ea x
    | none =>
      let i := r.st.inst r.st.myInst
      let s := r.st.offerChild i.fn i.slot ea.toNat i.sup i.prio (g.sreg b.val)
      { st := s.learn (.window i.fn ea.toNat) (s.knows s.it.group m.mask) }

/-- LFLUSH. -/
def execLflush (s : State) : Res :=
  accessEach s fun _ _ st => { st := (st.openWindows st.myFn).foldl State.submitWindow st }

/-- TAPE.PUSH. -/
def execTapePush (c : CReg) (b r : SReg) (s : State) : Res :=
  perMember s fun m g st =>
    let y := st.tapePush (g.sreg b.val).toNat (st.ownerSlot st.myFn st.mySlot)
      { blk := (g.sreg r.val).toNat % 2 ^ 57, sup := st.mySup, arg := g.sreg (r.val + 1) }
    { st := y.1.learn (.tape (g.sreg b.val).toNat) (if y.2 then y.1.knows y.1.it.group m.mask else []), writes := [.c m.id c.val y.2] }

/-- A tape that the caller's OWNER may run or drop. -/
def State.tapeMine (s : State) (t : Nat) : Bool :=
  decide (t < 1024) && (s.tape t).run.isNone && (s.tape t).owner.all fun o => o == s.ownerSlot s.myFn s.mySlot

/-- TAPE.RUN. -/
def execTapeRun (h : HReg) (a : SReg) (s : State) : Res :=
  accessEach s <| onHandle h (fun x => x.isRed || x.busy) fun m g st x =>
    let t := (g.sreg a.val).toNat
    let team := st.myTeam
    let y := st.tape t
    let n := y.recs.length
    if !st.tapeMine t then { st := st.fillHandle team h.val { x.fresh 0 0 with fault := true, gone := true } }
    else if y.lost then
      { st := ((st.setTape t {}).forget (.tape t)).fillHandle team h.val { x.fresh 0 (BitVec.ofNat 32 n) with fault := true } }
    else
      let run : TapeRun :=
        { team := team, handle := h.val, slot := st.mySlot, fn := st.myFn, prio := (st.inst st.myInst).prio, total := n,
          retired := 0, inst := none }
      let st := st.setHandle team h.val { x.fresh 0 (BitVec.ofNat 32 n) with state := .filling, tape := some t, run := true }
      let st := (st.forget (.handle team h.val)).learn (.tape t) (st.knows st.it.group m.mask)
      { st := (st.setTape t { y with run := some run }).tapeNext t }

/-- TAPE.DROP. -/
def execTapeDrop (c : CReg) (a : SReg) (s : State) : Res :=
  perMember s fun m g st =>
    let t := (g.sreg a.val).toNat
    if st.tapeMine t then { st := (st.setTape t {}).forget (.tape t), writes := [.c m.id c.val true] }
    else { st := st, writes := [.c m.id c.val false] }

/-- The vector of the queue slot from which the grid came (spec/05 R106). -/
def State.raiseSlot (s : State) : State := s.msi s.myFn (s.slot s.mySlot).vec

/-- QSIG (spec/18 R406): the vector is raised once the release has ended. -/
def execQsig (a b : SReg) (s : State) : Res :=
  accessEach s fun m g st =>
    let ea := g.sreg a.val
    if ea = 0 then
      if st.flushDue true [m] then
        let r := st.awaitFlush [m] ((lanesOf m.mask).map fun l => (l, 0))
        { st := r.1, waits := r.2 }
      else { st := (st.released true [m]).raiseSlot }
    else
      let r := storeUnits st (.sys, .rel) [m] (.space .virt) [scalarUnit m g a 0] 8 0 8 fun _ => (g.sreg b.val).toNat
      if r.traps.isEmpty && r.waits.isEmpty then { r with st := r.st.raiseSlot } else r

end Sys2Proof.Machine
end

