-- ==== Sys2Proof/Machine/Deal.lean ====
section
/-!
DEFINITION. Room, the deal, admission, pre-emption and resumption of teams, turns on the shared set, and retirement (spec/03 R51;
spec/04 R72 to R78, R84, R425, R426; spec/05 R94, R95, R101, R105 to R109; spec/06 R113 to R116; spec/11 R249 to R254).
-/

namespace Sys2Proof.Machine

open Sys2Proof

/-! ### Room (spec/04 R76) -/

/-- Groups and registers that a team of a block needs. -/
def Tcb.groups (b : Tcb) : Nat := b.g0 + b.g1 + b.g2
def Tcb.regs (b : Tcb) : Nat := 256 * (b.g0 * b.b0 + b.g1 * b.b1 + b.g2 * b.b2)

/-- The block of a team's instance. -/
def State.teamTcb (s : State) (t : Nat) : Tcb := (s.inst (s.team t).inst).tcb

/-- Engine operations that a team has issued, or reductions that it has bound, have not ended (spec/18 R392). -/
def State.teamBusy (s : State) (t : Nat) : Bool :=
  (s.engs.any fun e => e.2.team == t) || (s.team t).handles.any fun h => h.2.isRed && h.2.state != .free

/-- The team's scratchpad and tiles are reserved on its core (spec/06 R116). -/
def State.holdsLocal (s : State) (t : Nat) : Bool := s.onCore t || ((s.team t).ended && s.teamBusy t)

/-- The sum of a figure of the teams of a core that `p` holds of. -/
def State.coreSum (s : State) (c : Nat) (p : State → Nat → Bool) (f : Tcb → Nat) : Nat :=
  ((s.teams.filter fun e => e.2.core == c && p s e.1).map fun e => f (s.teamTcb e.1)).sum

/-- A core has the room that a team of a block needs; a degraded core has none (spec/09 R211). -/
def State.fits (s : State) (b : Tcb) (c : Nat) : Bool :=
  !(s.coreAt c).degraded
    && decide (s.coreSum c State.onCore Tcb.groups + b.groups ≤ 64)
    && decide (s.coreSum c State.onCore Tcb.regs + b.regs ≤ 262144)
    && decide (s.coreSum c State.onCore (fun _ => 1) < 16)
    && decide (s.coreSum c State.holdsLocal (·.scr) + b.scr ≤ 2048)
    && decide (s.coreSum c State.holdsLocal (·.acc) + b.acc ≤ 8)

/-! ### Placing a team (spec/04 R78, R79, R86; spec/06 R113 to R115) -/

/-- Teams of an instance: its block's teams for each child. -/
def Instance.teamCount (i : Instance) : Nat := i.tcb.teams * max 1 i.children.length

/-- The lowest free team slot of a core. -/
def State.freeTeamSlot (s : State) (c : Nat) : Nat :=
  let used := (s.teams.filter fun e => e.2.core == c && s.onCore e.1).map fun e => e.2.slot
  ((List.range 16).find? fun k => !used.contains k).getD 0

/-- Groups that are resident in a quarter. -/
def State.quarterLoad (s : State) (q : Nat) : Nat :=
  (s.groups.filter fun e => e.2.quarter == q && !e.2.ended && s.onCore e.2.team).length

/-- The quarter of a core for the next group: the fewest resident groups, the lowest number on a tie. -/
def State.pickQuarter (s : State) (c : Nat) : Nat :=
  (sortBy s.quarterLoad ((List.range 4).map fun k => 4 * c + k)).headD (4 * c)

/-- Role of group `n` of a block, and its budget. -/
def Tcb.role (b : Tcb) (n : Nat) : Nat := if n < b.g0 then 0 else if n < b.g0 + b.g1 then 1 else 2
def Tcb.budget (b : Tcb) (n : Nat) : Nat := if n < b.g0 then b.b0 else if n < b.g0 + b.g1 then b.b1 else b.b2

/-- A group as it starts. -/
def freshGroup (i : Instance) (t num quarter : Nat) (s0 : Word) : Group :=
  { team := t, num := num, role := i.tcb.role num, walloc := 8 * i.tcb.budget num, quarter := quarter,
    s := Tab.put (Tab.put [] 0 s0) 1 i.s1,
    fibres := [{ id := 0, mask := allLanes, at_ := { pc := BitVec.ofNat 64 i.tcb.entry } }], nextFibre := 1 }

/-- The region code of a block (spec/04 R68). -/
def regionOf (n : Nat) : RegionMode :=
  match n with
  | 0 => .exact
  | 1 => .checked
  | _ => .tolerant

/-- A generation tag taken from a core's counter (spec/07 R136). -/
def State.nextGen (s : State) (c : Nat) : State × Nat :=
  let x := s.coreAt c
  (s.setCore c { x with gen := if x.gen = 65535 then 1 else x.gen + 1 }, x.gen)

/-- Team `k` of an instance starts on a core. -/
def State.startTeam (s : State) (id k c : Nat) : State :=
  let i := s.inst id
  let b := i.tcb
  let child := k / b.teams
  let s0 := if i.children.isEmpty then b.param else i.children.getD child 0
  let g := s.nextGen c
  let t := g.1.nextId
  let team : Team :=
    { inst := id, index := k, child := child, local_ := k % b.teams, cohort := if b.cohs = 0 then 0 else k / b.cohs,
      core := c, slot := g.1.freeTeamSlot c, csetMember := if b.cset < 2 then 0 else k % b.cset, ngroups := b.groups,
      mode := regionOf b.reg, scrBytes := 256 * b.scr, acc := b.acc, gen := g.2, shared := i.shared.getD false }
  let s : State := { g.1 with teams := g.1.teams.put t team, nextId := t + 1,
                              insts := g.1.insts.put id { i with dealt := max i.dealt (k + 1) } }
  let s := (s.clearL1 c).learn (.team t) (s.behind id)
  (List.range b.groups).foldl (fun s n =>
    { s with groups := s.groups.put s.nextId (freshGroup i t n (s.pickQuarter c) s0), nextId := s.nextId + 1 }) s

/-- A fibre parked in WAITM issues it again with its operand taken anew from its register as restored (spec/16 R359). -/
def Fibre.retake (f : Fibre) (g : Group) : Fibre :=
  match f.kind with
  | .parked (.mem ea space n cond _ scope reg) =>
    { f with kind := .parked (.mem ea space n cond (BitVec.ofNat 64 ((g.sreg reg).toNat % 2 ^ (8 * n))) scope reg), again := true }
  | _ => f

/-- A group of a resumed team: its last-chosen value and its timer start anew (spec/05 R103, R109). -/
def Group.resumed (g : Group) (quarter : Nat) : Group :=
  { g with quarter := quarter, lastFibre := none, cnt := 0, parked := false, fibres := g.fibres.map fun f => f.retake g }

/-- The frames of an image are free again (spec/11 R252). -/
def State.freeFrames (s : State) (fn : Nat) (fs : List Nat) : State :=
  let f := s.fn fn
  { s.setFn fn { f with memqUsed := f.memqUsed - fs.length } with
    placed := fs.foldl Tab.erase s.placed, moving := fs.foldl Tab.erase s.moving }

/-- A stopped team resumes on a core: new quarters, slot and tag, its saved queue entries put in again, last-chosen values
cleared (spec/11 R254; spec/05 R109). -/
def State.resumeTeam (s : State) (t c : Nat) : State :=
  let s := s.clearL1 c
  let x := s.team t
  let old := s.coreAt x.core
  let moved (l : Nat × LockEntry) : Bool := x.saved.contains l.2.op
  let ls := old.locks.filter moved
  let s := s.setCore x.core { old with locks := old.locks.filter fun l => !moved l }
  let s := s.freeFrames (s.inst x.inst).fn x.frames
  let g := s.nextGen c
  let s := g.1
  let slot := s.freeTeamSlot c
  let gids := (s.groups.filter fun e => e.2.team == t && !e.2.ended).map (·.1)
  let s := gids.foldl (fun (s : State) n => s.setGroup n { s.group n with quarter := 4608 }) s
  let s := s.setTeam t { x with core := c, slot := slot, gen := g.2, stopped := false, stopReq := false, saved := [],
                                frames := [] }
  let s := gids.foldl (fun (s : State) n => (s.setGroup n ((s.group n).resumed (s.pickQuarter c))).noteParked n) s
  let s := ls.foldl (fun (s : State) l => s.lock c l.2) s
  x.saved.foldl (fun (s : State) id =>
    match s.engs.get? id with
    | none => s
    | some e =>
      let r := s.enqueue c id
      r.1.setEng id { e with core := c, started := r.2 }) s

/-- Team `k` of an instance, where it is in the table. -/
def State.teamAt (s : State) (id k : Nat) : Option (Nat × Team) :=
  s.teams.find? fun e => e.2.inst == id && e.2.index == k

/-- Team `k` of an instance starts or resumes on a core. -/
def State.placeTeam (s : State) (id k c : Nat) : State :=
  match s.teamAt id k with
  | some e => s.resumeTeam e.1 c
  | none => s.startTeam id k c

/-! ### The deal (spec/04 R77, R78) -/

/-- The cursor of a function's die set; a set that holds no team has it at 0. -/
def State.cursor (s : State) (fn : Nat) (shared : Bool) : Nat :=
  let ds := s.dieSet fn shared
  if s.teams.any fun e => s.onCore e.1 && ds.contains (dieOf e.2.core) then
    (if shared then s.cursorShared else (s.fn fn).cursorOwn)
  else 0

def State.setCursor (s : State) (fn : Nat) (shared : Bool) (j : Nat) : State :=
  if shared then { s with cursorShared := j } else s.setFn fn { s.fn fn with cursorOwn := j }

/-- The deal order from the cursor on, wrapping, with the places in it. -/
def State.dealing (s : State) (fn : Nat) (shared : Bool) : List (Nat × Nat) :=
  let o := (s.dealOrder (s.dieSet fn shared)).zipIdx.map fun e => (e.2, e.1)
  let cur := s.cursor fn shared % max 1 o.length
  o.drop cur ++ o.take cur

/-- The cores on which team `k` of an instance may stand: those of its cluster set's cluster and its cohort's die, where others of them are
resident (spec/08 R165; DEDUCED from R78, log 54). -/
def State.besideOthers (s : State) (id k c : Nat) : Bool :=
  let i := s.inst id
  let b := i.tcb
  s.teams.all fun e =>
    !(e.2.inst == id && e.2.index != k && s.onCore e.1) ||
      ((b.cset < 2 || e.2.index / max 1 b.cset != k / max 1 b.cset ||
          (e.2.core / 36 == c / 36 && e.2.core % 36 / 4 == c % 36 / 4 && e.2.core != c)) &&
        (b.cohs == 0 || e.2.index / max 1 b.cohs != k / max 1 b.cohs || dieOf e.2.core == dieOf c))

/-- The lock table of a core has room for the entries that the queue entries of a stopped team hold (spec/08 R182; log 54). -/
def State.lockRoom (s : State) (id k c : Nat) : Bool :=
  (s.teamAt id k).all fun e =>
    let kept (l : Nat × LockEntry) : Bool := e.2.saved.contains l.2.op
    decide (((s.coreAt c).locks.filter fun l => !kept l).length + ((s.coreAt e.2.core).locks.filter kept).length ≤ 128)

/-- Team `k` of an instance may stand on a core, and has its room there. -/
def State.mayStand (s : State) (id k c : Nat) : Bool := s.besideOthers id k c && s.fits (s.inst id).tcb c && s.lockRoom id k c

/-- What a deal places: the instance, its function and die set, and which cores it may use. -/
structure Deal where
  id : Nat
  fn : Nat
  shared : Bool
  ok : Nat → Bool := fun _ => true

/-- One team on the first core from the cursor on that has its room. -/
def State.dealOne (s : State) (d : Deal) (k : Nat) : Option State :=
  let o := s.dealing d.fn d.shared
  match o.find? fun e => d.ok e.2 && s.mayStand d.id k e.2 with
  | none => none
  | some (j, c) => some ((s.placeTeam d.id k c).setCursor d.fn d.shared ((j + 1) % max 1 o.length))

/-- The cores of a cluster in physical order from one of them on, wrapping. -/
def clusterFrom (l : List Nat) (c : Nat) : List Nat := l.dropWhile (· != c) ++ l.takeWhile (· != c)

/-- A cluster set placed whole: the cursor goes past the first of its cores (log 54). -/
def State.dealSet (s : State) (d : Deal) (ks : List Nat) : Option State :=
  let o := s.dealing d.fn d.shared
  let roomy (c : Nat) : List Nat := (clusterFrom (s.clusterCores (dieOf c) (c % 36 / 4)) c).filter fun x =>
    d.ok x && ks.all fun k => s.mayStand d.id k x
  match o.find? fun e => d.ok e.2 && decide (ks.length ≤ (roomy e.2).length) with
  | none => none
  | some (j, c) =>
    some (((ks.zip (roomy c)).foldl (fun s e => s.placeTeam d.id e.1 e.2) s).setCursor d.fn d.shared
      ((j + 1) % max 1 o.length))

/-- A team of an instance that has ended, or stands on its core, takes no more room. -/
def State.teamDone (s : State) (id k : Nat) : Bool := (s.teamAt id k).any fun e => e.2.ended || !e.2.stopped

/-- The teams from `k` on up to `hi`, single or by cluster set. -/
def State.dealRange (d : Deal) (hi : Nat) : Nat → Nat → State → Option State
  | 0, _, s => some s
  | fuel + 1, k, s =>
    if hi ≤ k then some s
    else
      let b := (s.inst d.id).tcb
      if b.cset < 2 then
        if s.teamDone d.id k then State.dealRange d hi fuel (k + 1) s
        else (s.dealOne d k).bind (State.dealRange d hi fuel (k + 1))
      else
        let e := min hi ((k / b.cset + 1) * b.cset)
        let ks := (natsFrom k (e - k)).filter fun k => !s.teamDone d.id k
        if ks.isEmpty then State.dealRange d hi fuel e s
        else (s.dealSet d ks).bind (State.dealRange d hi fuel e)

/-- The first team of the unit of team `k`. -/
def unitStart (b : Tcb) (k : Nat) : Nat :=
  if b.cohs ≠ 0 then k / b.cohs * b.cohs else if 2 ≤ b.cset then k / b.cset * b.cset else k

/-- The end of the unit that starts at team `k`: a cohort, a cluster set or one team. -/
def unitEnd (b : Tcb) (n k : Nat) : Nat :=
  if b.cohs ≠ 0 then min n ((k / b.cohs + 1) * b.cohs)
  else if 2 ≤ b.cset then min n ((k / b.cset + 1) * b.cset)
  else k + 1

/-- The dies of a set from that of the cursor on, wrapping. -/
def State.diesFrom (s : State) (fn : Nat) (shared : Bool) : List Nat :=
  let ds := s.dieSet fn shared
  match s.dealing fn shared with
  | [] => []
  | (_, c) :: _ => clusterFrom ds (dieOf c)

/-- The unit that starts at team `k` placed; a cohort on the first die that holds all of it. -/
def State.dealUnit (s : State) (d : Deal) (k : Nat) : Option State :=
  let i := s.inst d.id
  let hi := unitEnd i.tcb i.teamCount k
  if i.tcb.cohs = 0 then State.dealRange d hi (hi - k) k s
  else (s.diesFrom d.fn d.shared).findSome? fun x =>
    State.dealRange { d with ok := fun c => d.ok c && dieOf c == x } hi (hi - k) k s

/-- Every team from `k` on placed. -/
def State.dealAll (d : Deal) : Nat → Nat → State → Option State
  | 0, _, s => some s
  | fuel + 1, k, s =>
    let i := s.inst d.id
    if i.teamCount ≤ k then some s
    else (s.dealUnit d k).bind (State.dealAll d fuel (unitEnd i.tcb i.teamCount k))

/-- What admission reserves for an instance: the whole grid of class C, else its first unit (spec/04 R76). -/
def State.dealFirst (s : State) (d : Deal) : Option State :=
  let i := s.inst d.id
  if i.tcb.clt = 0 then State.dealAll d i.teamCount 0 s else s.dealUnit d 0

/-! ### Queues (spec/04 R75, R426; spec/05 R101) -/

/-- The members of an instance's set that have an entry still, in the order in which they became READY; itself alone without a set. -/
def State.queueUnit (s : State) (id : Nat) : List Nat :=
  sortBy (fun k => (s.inst k).seq) (id :: (s.inst id).setMembers.filter fun k => (s.insts.get? k).isSome)

/-- The instance stands in its function's queues. -/
def State.queued (s : State) (fn id : Nat) : Bool :=
  let i := s.inst id
  i.fn == fn && decide (i.state = .ready) && (i.tcb.gsid == 0 || !i.setMembers.isEmpty)

/-- Priority of a unit: the lowest of its members; and its place: the last of them to be READY. -/
def State.unitPrio (s : State) (ids : List Nat) : Nat := ids.foldl (fun p k => min p (s.inst k).prio) 7
def State.unitSeq (s : State) (ids : List Nat) : Nat := ids.foldl (fun p k => max p (s.inst k).seq) 0

/-- The head of a function's queue. -/
def State.queueHead (s : State) (fn : Nat) : Option (List Nat) :=
  let us := (s.insts.filter fun e => s.queued fn e.1).map fun e => s.queueUnit e.1
  (sortBy (fun u => 7 - s.unitPrio u) (sortBy s.unitSeq us)).head?

/-- A queued unit admitted to a die set, where its room can be reserved. -/
def State.letIn (s : State) (fn : Nat) (shared : Bool) (ids : List Nat) : Option State :=
  let go (s : State) (id : Nat) : Option State :=
    ({ s with insts := s.insts.put id { s.inst id with state := .running, shared := some shared } }).dealFirst
      { id := id, fn := fn, shared := shared }
  (ids.foldl (fun (o : Option State) id => o.bind fun s => go s id) (some s)).map fun s =>
    ids.foldl (fun (s : State) id => s.writeStat (s.inst id) (s.behind id) .running 0 false) s

/-- Every core empty and enabled. -/
def State.emptied (s : State) : State :=
  { s with teams := [], groups := [], engs := [], cursorShared := 0,
           cores := s.cores.map (fun e => (e.1, { e.2 with degraded := false })),
           dies := s.dies.map (fun e => (e.1, { e.2 with inrst := false })) }

/-- The unit could be placed on no die set of the function, even an empty one (spec/04 R76, R426). -/
def State.noFit (s : State) (fn : Nat) (ids : List Nat) : Bool :=
  let go (shared : Bool) (s : State) (id : Nat) : Option State := s.dealFirst { id := id, fn := fn, shared := shared }
  let on (shared : Bool) : Bool :=
    (ids.foldl (fun (o : Option State) id => o.bind fun s => go shared s id) (some s.emptied)).isSome
  !on false && !on true

/-! ### Requests to stop (spec/05 R107, R108) -/

/-- A team asked to stop at its next safe points, with its whole grid or set where that is of class C. -/
def State.requestStop (s : State) (t : Nat) : State :=
  let ts := (s.unitOf t).filter fun k => !(s.team k).ended && !(s.team k).stopped
  ts.foldl (fun s k => s.setTeam k { s.team k with stopReq := true }) s

/-- A stop is in progress among the teams of which `p` holds. -/
def State.stopping (s : State) (p : Team → Bool) : Bool := s.teams.any fun e => e.2.stopReq && !e.2.ended && p e.2

/-- Lower-priority teams of a die set pre-empted, lowest priority and youngest grid first (spec/04 R75). -/
def State.preemptFor (s : State) (fn : Nat) (shared : Bool) (prio : Nat) : State :=
  let here (i : Instance) : Bool := i.fn == fn && i.shared == some shared
  if s.stopping fun t => here (s.inst t.inst) then s
  else
    let vs := (s.insts.filter fun e => here e.2 && !e.2.killed && decide (e.2.prio < prio) &&
      s.teams.any fun t => t.2.inst == e.1 && !t.2.ended && !t.2.stopped)
    match (sortBy (fun e => e.2.prio) (sortBy (fun e => s.nextId - e.2.seq) vs)).head? with
    | none => s
    | some v => (s.teams.filter fun t => t.2.inst == v.1).foldl (fun s t => s.requestStop t.1) s

/-- A fibre of the team is parked in a wait word. -/
def State.parkedTeam (s : State) (t : Nat) : Bool :=
  s.groups.any fun e => e.2.team == t && e.2.fibres.any fun f => match f.kind with | .parked _ => true | _ => false

/-! ### The parties that wait for room (spec/04 R425) -/

/-- A party: a stopped team or grid, the later teams of a grid, or the head of the queue. -/
inductive Party where
  | resumed (t : Nat)
  | later (id : Nat)
  | head (ids : List Nat)
deriving DecidableEq, Repr

/-- The parties of a function on a die set, in the order in which room is offered to them. The later teams of a P grid wait for its
stopped teams (spec/05 R94). A class-C grid or set stands where its team that stopped last stands (log 112). -/
def State.parties (s : State) (fn : Nat) (shared : Bool) : List Party :=
  let mine (i : Instance) : Bool := i.fn == fn && i.shared == some shared && !i.killed
  let stopped := s.teams.filter fun e =>
    let u := s.unitOf e.1
    mine (s.inst e.2.inst) && e.2.stopped && !e.2.ended && s.unitStopped e.1
      && ((s.inst e.2.inst).tcb.clt != 0 || u.all fun k => (s.team k).ended || decide ((s.team k).stopSeq ≤ e.2.stopSeq))
  let a := (sortBy (fun e => e.2.stopSeq) stopped).map fun e =>
    (7 - s.unitPrio (s.queueUnit e.2.inst), Party.resumed e.1)
  let b := (sortBy (fun e => e.2.seq) (s.insts.filter fun e =>
    mine e.2 && decide (e.2.state = .running) && e.2.tcb.clt != 0 && decide (e.2.dealt < e.2.teamCount)
      && !(e.2.tcb.clt == 1 && stopped.any fun t => t.2.inst == e.1))).map fun e => (7 - e.2.prio, Party.later e.1)
  let c := (s.queueHead fn).toList.map fun u => (7 - s.unitPrio u, Party.head u)
  (sortBy (·.1) (a ++ b ++ c)).map (·.2)

/-- A party placed, where its room is free: a stopped team with what else is stopped of its cluster set or cohort (spec/08 R165). -/
def State.placeParty (s : State) (fn : Nat) (shared : Bool) (p : Party) : Option State :=
  match p with
  | .resumed t =>
    let x := s.team t
    if (s.teamTcb t).clt = 0 then
      (s.queueUnit x.inst).foldl (fun (o : Option State) id =>
        o.bind fun s => State.dealAll { id := id, fn := fn, shared := shared } (s.inst id).teamCount 0 s) (some s)
    else s.dealUnit { id := x.inst, fn := fn, shared := shared } (unitStart (s.teamTcb t) x.index)
  | .later id => s.dealUnit { id := id, fn := fn, shared := shared } (s.inst id).dealt
  | .head ids => s.letIn fn shared ids

/-- The teams that are to make room for a stopped team of a P grid: later ones of the grid that wait, highest index first, until it would
fit (spec/05 R95). -/
def State.makeRoom (s : State) (t : Nat) : List Nat :=
  let x := s.team t
  let fn := (s.inst x.inst).fn
  let later := s.teams.filter fun e =>
    e.2.inst == x.inst && decide (x.index < e.2.index) && !e.2.ended && !e.2.stopped && s.parkedTeam e.1
  let ids := (sortBy (fun e => s.nextId - e.2.index) later).map (·.1)
  let fitsWithout (k : Nat) : Bool :=
    let s' := (ids.take k).foldl (fun (s : State) i => s.setTeam i { s.team i with stopped := true, stopReq := false }) s
    (s'.placeParty fn x.shared (.resumed t)).isSome
  match (natsFrom 1 ids.length).find? fitsWithout with
  | some k => ids.take k
  | none => ids

/-- Room made for a stopped team of a P grid, where none is being made already. -/
def State.preemptLater (s : State) (t : Nat) : State :=
  let inst := (s.team t).inst
  if s.stopping fun y => y.inst == inst then s else (s.makeRoom t).foldl State.requestStop s

/-- The die set is open to the function: it has dies, and for the shared set it is the function's turn (spec/03 R51). -/
def State.mayDeal (s : State) (fn : Nat) (shared : Bool) : Bool :=
  decide (s.phase = .ready) && !(s.fn fn).reset && !(s.dieSet fn shared).isEmpty && (!shared || s.turnFn == fn)

/-- A stopped team of a P grid that an earlier stopped team of its grid, whose room is not free, holds back (spec/04 R425; spec/05 R95). -/
def State.heldByEarlier (s : State) (fn : Nat) (shared : Bool) (p : Party) : Bool :=
  match p with
  | .resumed t =>
    let x := s.team t
    let b := s.teamTcb t
    b.clt == 1 && s.teams.any fun e =>
      e.2.inst == x.inst && e.2.stopped && !e.2.ended && decide (unitStart b e.2.index < unitStart b x.index)
        && (s.placeParty fn shared (.resumed e.1)).isNone
  | _ => false

/-- The first party that fits, and the state with it placed. -/
def State.firstFit (s : State) (fn : Nat) (shared : Bool) : Option (Party × State) :=
  ((s.parties fn shared).filter fun p => !s.heldByEarlier fn shared p).findSome? fun p =>
    (s.placeParty fn shared p).map fun s' => (p, s')

/-- The owned dies of a function take the head of its queue at once (spec/04 R426). -/
def State.ownedTakes (s : State) (fn : Nat) : Bool :=
  s.mayDeal fn false && (match s.firstFit fn false with | some (.head _, _) => true | _ => false)

/-- The function has a die on which it may launch (spec/03 R51; spec/04 R426). -/
def State.hasDie (s : State) (fn : Nat) : Bool := !(s.dieSet fn false).isEmpty || !(s.dieSet fn true).isEmpty

/-- The reason for which admission turns a unit away before it looks for room: NODIE, where the function has no die set, and FEAT, where a
member names a tape push that the function may not make (spec/03 R51, R58; spec/04 R69; of a set every member, log 66). -/
def State.barred (s : State) (fn : Nat) (ids : List Nat) : Option Nat :=
  if !s.hasDie fn then some 3
  else if !s.accepted fn 5 && ids.any fun id => (s.inst id).tcb.tpsh then some 4
  else none

/-- Instances that admission turns away (spec/04 R69). -/
def State.turnAway (s : State) (ids : List Nat) (reason : Nat) : State :=
  s.orWait (ids.foldl (fun (s : State) id =>
    let e := s.ending id reason
    e.1.failAll e.2) s).pump

/-- INSTANCE_ADMISSION: the head of the queue admitted when it comes first among the parties that fit; else it fails with
NOFIT, or lower-priority teams are asked to stop; one that may not be admitted anywhere fails with NODIE or FEAT. The owned dies go
before the shared set. -/
def execInstanceAdmission (fn : Nat) (shared : Bool) (s : State) : Res :=
  .next <|
    let bar : Option (List Nat × Nat) := (s.queueHead fn).bind fun ids => (s.barred fn ids).map fun k => (ids, k)
    if s.phase ≠ .ready ∨ (s.fn fn).reset = true then s
    else if let some (ids, k) := bar then s.turnAway ids k
    else if !s.mayDeal fn shared || (shared && s.ownedTakes fn) then s
    else
      match s.queueHead fn with
      | none => s
      | some ids =>
        match s.firstFit fn shared with
        | some (.head _, s') => s.orWait s'
        | fit =>
          if fit.isSome && (s.letIn fn shared ids).isSome then s
          else if s.noFit fn ids then s.turnAway ids 2
          else s.preemptFor fn shared (s.unitPrio ids)

/-- TEAM_DEAL: later teams of an admitted grid that come first among the parties that fit. -/
def execTeamDeal (fn : Nat) (shared : Bool) (s : State) : Res :=
  .next <|
    if !s.mayDeal fn shared then s
    else
      match s.firstFit fn shared with
      | some (.later _, s') => s'
      | _ => s

/-- The party is the team's own, or that of its grid or set. -/
def State.isParty (s : State) (t : Nat) (p : Party) : Bool :=
  match p with
  | .resumed u => u == t || (s.unitOf t).contains u
  | _ => false

/-- The image of a stopped team cannot be read back: its OWNER slot is not LIVE (spec/11 R252), or a unit of it holds poison (log 16). -/
def State.imageLost (s : State) (t : Nat) : Bool :=
  let x := s.team t
  let i := s.inst x.inst
  (s.liveKey i.fn (s.slot i.slot).owner).isNone || x.frames.any fun f => s.rangePoisoned (s.dom (65536 * f)) 65536

/-- The stopped teams that go on with a stopped team: those of its grid or set where that is of class C, else of its cluster set or
cohort. -/
def State.resumesWith (s : State) (t : Nat) : List Nat :=
  let x := s.team t
  let b := s.teamTcb t
  let mine (e : Team) : Bool :=
    if b.clt = 0 then (s.queueUnit x.inst).contains e.inst else e.inst == x.inst && unitStart b e.index == unitStart b x.index
  (s.teams.filter fun e => mine e.2 && e.2.stopped && !e.2.ended).map (·.1)

/-- TEAM_RESUME: a stopped team, with its grid or set where that is of class C, that comes first among the parties that fit. Where
its room is not free, later teams of its P grid make it. An image among them that cannot be read back passes its instance to level 3
(spec/11 R252). -/
def execTeamResume (team : Nat) (s : State) : Res :=
  let x := s.team team
  let i := s.inst x.inst
  .next <|
    if !x.stopped || x.ended || !s.mayDeal i.fn x.shared || !(s.parties i.fn x.shared).any (s.isParty team) then s
    else if (s.resumesWith team).any s.imageLost then s.killInstance x.inst
    else
      match s.firstFit i.fn x.shared with
      | some (p, s') => if s.isParty team p then s' else s
      | none => if i.tcb.clt = 1 then s.preemptLater team else s

/-! ### Turns on the shared set (spec/03 R51) -/

/-- A function has a READY instance, or a resident or pre-empted team on the shared set. -/
def State.sharedWork (s : State) (f : Nat) : Bool :=
  s.mayShare f && ((s.insts.any fun e => e.2.fn == f && decide (e.2.state = .ready))
    || s.teams.any fun e => e.2.shared && !e.2.ended && (s.inst e.2.inst).fn == f)

/-- The functions that take turns, in order from the one after `f`, wrapping. -/
def State.turnsAfter (s : State) (f : Nat) : List Nat :=
  let all := (List.range 65).filter fun k => k == 0 || ((s.fn k).en && (s.fn k).share)
  all.filter (fun k => decide (f < k)) ++ all.filter (fun k => decide (k < f))

/-- SHARED_TURN_END: the next function with work takes its turn, and the teams of the last are asked to stop; a lone function
keeps the set. -/
def execSharedTurnEnd (s : State) : Res :=
  .next <|
    match (s.turnsAfter s.turnFn).find? s.sharedWork with
    | none => s
    | some f =>
      let ts := s.teams.filter fun e => e.2.shared && !e.2.ended && !e.2.stopped && (s.inst e.2.inst).fn == s.turnFn
      let s := ts.foldl (fun s e => s.requestStop e.1) s
      { s with turnFn := f }

end Sys2Proof.Machine
end

