-- ==== Sys2Proof/Machine/Framing.lean ====
section
/-!
DEFINITION. HDR, LIVE and NOP (spec/13 R276 to R279; spec/11 R249).
-/

namespace Sys2Proof.Machine

open Sys2Proof

/-- HDR: the clause's wait, its marks and framing check, and its flags (spec/13 R276, R277). -/
def execHdr (wait : BitVec 12) (seta setb : Fin 16) (safe : Bool) (s : State) : Res :=
  .next (s.header wait seta.val setb.val safe)

/-- LIVE: the governing LIVE of the fibres that complete the clause (spec/11 R249). -/
def execLive (q h : Bool) (ac : BitVec 8) (sq : BitVec 4) (vo : BitVec 8) (s : State) : Res :=
  scalarWord s fun m _ => [.live m.id { q := q, h := h, ac := ac, sq := sq, vo := vo }]

/-- NOP does nothing (spec/13 R279). -/
def execNop (s : State) : Res := done s

end Sys2Proof.Machine
end

