-- ==== Sys2Proof/Machine/Image.lean ====
section
/-!
DEFINITION. What a stop saves of a team, and the layout of its image (spec/11 R249 to R253).
-/

namespace Sys2Proof.Machine

open Sys2Proof

/-! ### What a stop saves (spec/11 R249 to R251) -/

/-- The groups of a team that have not ended. -/
def State.liveGroups (s : State) (t : Nat) : List (Nat × Group) :=
  s.groups.filter fun e => e.2.team == t && !e.2.ended

/-- The governing LIVE of a fibre; one without names every field. -/
def Fibre.governing (f : Fibre) : Live :=
  f.live.getD { q := true, h := true, ac := 255, sq := 15, vo := 255 }

/-- The governing LIVEs of a team's fibres. -/
def State.lives (s : State) (t : Nat) : List Live := (s.liveGroups t).flatMap fun e => e.2.fibres.map Fibre.governing

/-- An operation that runs to its end before the image is written: its destination is a scratchpad of the set or a tile; audits are not
among them, nor a read of a tile into registers, and a store to the die scratchpad keeps running (spec/11 R251; spec/09 R208). -/
def EngOp.endsFirst (e : EngOp) : Bool :=
  match e.kind with
  | .copy c => c.dsp == .sp || c.dsp == .cm
  | .nmv _ => true
  | .mma m => !m.audited
  | .move (.store _ space _ _) => space != .ds
  | .move (.read ..) => false
  | .move _ => true
  | .corr c => c.space == .sp || c.space == .cm
  | .sub _ => false

/-- A queue entry that has not started; an accumulator store, and a read of a tile, start and end at once. -/
def State.notStarted (s : State) (id : Nat) (e : EngOp) : Bool :=
  match e.kind with
  | .copy c => !e.started || (c.done == 0 && s.engWaits id e)
  | .move (.store ..) | .move (.read ..) => s.engWaits id e
  | _ => false

/-- An operation that a stop of its team waits for: one that runs to its end, and a read of a tile that has started, whose registers are
in the image (spec/11 R251). -/
def State.holdsStop (s : State) (id : Nat) (e : EngOp) : Bool :=
  e.endsFirst || (match e.kind with | .move (.read ..) => !s.notStarted id e | _ => false)

/-- The queue entries of a team that a stop finds not started, other than those that run to their end. -/
def State.waitingEntries (s : State) (t : Nat) : List (Nat × EngOp) :=
  s.engs.filter fun e => e.2.team == t && !e.2.endsFirst && s.notStarted e.1 e.2

/-- Octets of a fibre's window that its governing LIVE names, as first registers. -/
def Fibre.octets (f : Fibre) (walloc : Nat) : List Nat :=
  ((List.range 8).filter fun n => f.governing.vo.getLsbD n).map (fun n => f.wb + 8 * n) |>.filter (· < walloc)

/-- The union of the SQ of a group's fibres, of a group without fibres empty. -/
def Group.sqUnion (g : Group) : BitVec 4 := g.fibres.foldl (fun m f => m ||| f.governing.sq) 0

/-- The union of the AC of a team's fibres, with the names at or beyond ACC left out (spec/11 R250). -/
def State.acUnion (s : State) (t : Nat) : BitVec 8 :=
  (s.lives t).foldl (fun m l => m ||| l.ac) 0 &&& BitVec.ofNat 8 (2 ^ (s.team t).acc - 1)

/-! ### The layout of an image (spec/11 R253) -/

/-- Fields of a word: values at bit positions. -/
def fieldWord (fs : List (Nat × Nat)) : Nat := (fs.map fun f => f.2 * 2 ^ f.1).sum

/-- Bytes made up with zeros to a size. -/
def sized (n : Nat) (bs : List Byte) : List Byte := bs ++ List.replicate (n - bs.length) 0

/-- 8-byte words. -/
def words8 (l : List Nat) : List Byte := l.flatMap (leBytes 8)

/-- A handle record; the link to an operation still running is its number. -/
def Handle.record (h : Handle) : List Byte :=
  words8
    [fieldWord [(0, hsCode h.state), (2, bnat h.fault), (3, bnat h.sumbad), (4, bnat h.gone), (5, bnat h.late), (6, bnat h.isRed),
             (16, h.round % 65536)], h.fill, h.sum.toNat, h.op.getD 0]

/-- The code of a region as a block gives it (spec/04 R68). -/
def Team.regionWord (x : Team) : Nat := (regionValue (x.mode, x.limit)).toNat

/-- The team header. -/
def State.teamHeader (s : State) (t : Nat) : List Byte :=
  let x := s.team t
  let i := s.inst x.inst
  let ls := s.lives t
  let barrier (b : Nat) : List Byte :=
    let y := x.barriers.getD b {}
    words8 [fieldWord [(0, y.arrivals), (32, bnat y.phase)]]
  sized 128
      (words8 [i.blk, fieldWord [(0, x.local_), (32, x.child)], x.cohort, x.regionWord,
        fieldWord [(0, (s.acUnion t).toNat), (8, bnat (ls.any (·.h))), (9, bnat (ls.any (·.q))), (16, x.ngroups),
                (24, (s.waitingEntries t).length), (32, min 3 i.strikes)], bnat (s.atGbar t)])
    ++ sized 384 ((List.range 16).flatMap barrier)

/-- The resume point as a PC: inside a clause, the address of the word at which the fibre goes on, that of a fault-wait fibre the faulting
word (spec/07 R157). -/
def Resume.addr (r : Resume) : Nat := (r.pc + BitVec.ofNat 64 (4 * (r.reissue.head?).elim (r.mid.getD 0) (·.1))).toNat

/-- The kind of a fibre in its record. -/
def Fibre.kindCode (f : Fibre) : Nat :=
  match f.kind with
  | .run | .header _ => 0
  | .parked _ => 1
  | .faultWait _ => 2

/-- The flags that a table of marks names, `unit` keys to a flag. -/
def flagSetOf {V : Type} (t : Tab V) (unit : Nat) : Nat :=
  ((List.range 12).filter fun n => t.any fun e => e.1 / unit == n).foldl (fun m n => m + 2 ^ n) 0

/-- The part of a fibre record that a return state repeats: 88 bytes. -/
def fibrePart (pc : Nat) (kind : Nat) (trap drain : Bool) (mask : Mask) (wb : Nat) (entry : Option Nat) (vo c flags : Nat)
    (fail : Tab FailMark) (poison : Tab Word) (l : LoopState) (watched : Nat) : List Byte :=
  let lc (t : Tab W32) : List Byte := (List.range 3).flatMap fun n => leBytes 4 (t.getD n 0).toNat
  let body (n : Nat) : Nat := if n < l.levels then ((l.stop.getD n 0 - l.start.getD n 0).toNat / 4) % 512 else 0
  words8 [fieldWord [(0, pc % 2 ^ 57), (57, kind), (60, bnat trap), (61, bnat drain)],
          fieldWord [(0, mask.toNat), (32, wb), (40, entry.getD 31), (48, vo)],
          fieldWord [(0, c), (8, flags), (20, flagSetOf fail 1), (32, flagSetOf poison 32)]]
    ++ lc l.lc ++ lc l.bound
    ++ words8 ((List.range 3).map fun n => (l.start.getD n 0).toNat % 2 ^ 57)
    ++ words8 [fieldWord [(0, body 0), (9, body 1), (18, body 2), (27, l.levels)], watched % 2 ^ 57]

/-- A fibre record of 256 bytes (spec/11 R253); PC is that of the clause at which the fibre goes on, the one after its wait (log 89). -/
def State.fibreRecord (s : State) (gid : Nat) (f : Fibre) : List Byte :=
  let watched := match f.kind with | .parked (.mem ea ..) => ea.toNat | _ => 0
  let flags := s.flagBits gid f.id
  let own := fibrePart f.at_.addr f.kindCode f.trap.isSome f.drain f.mask f.wb f.entry f.governing.vo.toNat f.c.toNat flags f.fail
    f.poison f.loops watched
  let trap := f.trap.elim [] fun t =>
    words8 [fieldWord [(0, t.cause), (8, bnat t.sup)], t.tpc.toNat % 2 ^ 57, t.tsyn.toNat, t.ttile.toNat,
            fieldWord [(0, t.tl.toNat), (32, t.il.toNat)]]
      ++ fibrePart t.retResume.addr 0 false false f.mask t.retWb t.retEntry 0 f.c.toNat flags t.retFail t.retPoison t.retLoops 0
  sized 256 (own ++ trap)

/-- A lane block of 96 bytes. -/
def Group.laneBlock (g : Group) (lane : Nat) : List Byte :=
  let f := g.fibres.find? fun f => f.mask.getLsbD lane
  let unit := (f.bind (·.trap)).elim 0 fun t => (t.tunit.getD lane 0).toNat
  let marks := f.elim 0 fun f =>
    ((List.range 12).filter fun n => (f.poison.get? (32 * n + lane)).isSome).foldl (fun m n => m + 2 ^ n) 0
  sized 8 (leBytes 1 (fieldWord ((List.range 8).map fun n => (n, bnat (g.preg lane n)))))
    ++ ((List.range 4).flatMap fun n => leBytes 2 (g.xreg lane n).toNat)
    ++ readZ g.slice (64 * lane) 64 ++ leBytes 8 unit ++ leBytes 8 marks

/-- The group header of 1 KiB. -/
def Group.header (g : Group) : List Byte :=
  let entry (e : Nat) : List Byte :=
    words8 [(g.split.get? e).elim 0 fun x => fieldWord [(0, x.join.toNat), (32, x.outer.getD 31), (63, 1)]]
  sized 1024
    (sized 384
        (words8 [g.fpsr.toNat, fieldWord [(0, g.texp), (8, g.esc), (12, g.expn)], g.tvec.toNat,
                 fieldWord [(0, g.sqUnion.toNat), (8, g.fibres.length)]] ++ (List.range 31).flatMap entry)
      ++ ((List.range 16).flatMap fun n => leBytes 32 (g.treg n).toNat) ++ words8 ((List.range 8).map fun n => (g.ereg n).toNat))

/-- An octet of a fibre: register by register, lane by lane, zero outside the fibre's mask. -/
def Group.octet (g : Group) (m : Mask) (first : Nat) : List Byte :=
  (List.range 8).flatMap fun k => (List.range 32).flatMap fun l =>
    leBytes 4 (if m.getLsbD l then (g.vreg l (first + k)).toNat else 0)

/-- The quads of the SQ union of a group. -/
def Group.quads (g : Group) : List Byte :=
  ((List.range 4).filter fun q => g.sqUnion.getLsbD q).flatMap fun q => words8 ((natsFrom (16 * q) 16).map fun n => (g.sreg n).toNat)

/-- A group section. -/
def State.groupSection (s : State) (gid : Nat) : List Byte :=
  let g := s.group gid
  let fs := sortBy (fun f => lowLane f.mask) g.fibres
  g.header ++ g.quads ++ (List.range 32).flatMap g.laneBlock ++ fs.flatMap (s.fibreRecord gid)
    ++ fs.flatMap fun f => (f.octets g.walloc).flatMap (g.octet f.mask)

/-- The image of a team; the device's own form of a queue entry is the number of its operation (log 16),
and a group that has ended has no section (log 90). -/
def State.imageOf (s : State) (t : Nat) : List Byte :=
  let x := s.team t
  let tile (k : Nat) : List Byte := (List.range 4096).flatMap fun e => leBytes 4 (((x.tiles.getD k []).getD e 0).toNat)
  s.teamHeader t ++ ((List.range 64).flatMap fun h => (x.handles.getD h {}).record)
    ++ ((s.waitingEntries t).flatMap fun e => sized 32 (leBytes 8 e.1))
    ++ (((List.range x.acc).filter (s.acUnion t).getLsbD).flatMap tile)
    ++ readZ x.scratch 0 x.scrBytes
    ++ (sortBy (fun e => e.2.num) (s.liveGroups t)).flatMap fun e => s.groupSection e.1

/-- Frames for an image of a team of function `fn`, taken and placed; none where the quota or the space has no room. -/
def State.takeFrames (s : State) (fn n : Nat) : Option (List Nat × State) :=
  if !s.quotaLeft fn n then none
  else
    (List.range n).foldl (fun (o : Option (List Nat × State)) _ =>
      o.bind fun r => r.2.takeFrame.map fun f => (r.1 ++ [f.1], f.2)) (some ([], s))

/-- An image written into its frames under the OWNER slot of the team (spec/11 R252). -/
def State.writeImage (s : State) (key : Nat) (fs : List Nat) (bs : List Byte) : State :=
  (fs.zipIdx.foldl (fun (s : State) f => s.homeWrite key (s.dom (65536 * f.1)) ((bs.drop (65536 * f.2)).take 65536)) s)

end Sys2Proof.Machine
end

