-- ==== Sys2Proof/Machine/Teams.lean ====
section
/-!
DEFINITION. The ends of instances and windows (spec/04 R72, R73, R84, R85), stops of teams and their images (spec/05 R107, R108;
spec/11 R249 to R253), and the watchdog tree (spec/05 R103 to R106).
-/

namespace Sys2Proof.Machine

open Sys2Proof

/-! ### The end of an instance -/

/-- Every team of the instance has ended, with every engine operation and reduction of its teams (spec/04 R72). -/
def State.instIdle (s : State) (id : Nat) : Bool :=
  (s.teams.filter fun e => e.2.inst == id).all fun e => e.2.ended && !s.teamBusy e.1

/-- The instance has nothing left to run. -/
def State.instOver (s : State) (id : Nat) : Bool :=
  let i := s.inst id
  (s.insts.get? id).isSome && decide (i.state = .running) && (i.killed || decide (i.teamCount ≤ i.dealt)) && s.instIdle id

/-- The retirement push, one record for each child of a merged instance; whether a push was dropped (spec/04 R84, R86). -/
def State.retirePush (s : State) (i : Instance) : State × Bool :=
  if !i.tcb.tpsh || i.replayTape.isSome then (s, false)
  else
    let args := if i.children.isEmpty then [i.tcb.targ] else i.children
    args.foldl (fun (acc : State × Bool) a =>
      let r := acc.1.tapePush i.tcb.tnum (acc.1.ownerSlot i.fn i.slot) { blk := i.tcb.tbwd, sup := i.sup, arg := a }
      (r.1, acc.2 || !r.2)) (s, false)

/-- What follows the end of an instance that did not fail. -/
def State.afterRetire (s : State) (e : Ended) : State :=
  match e.id with
  | none => s
  | some id =>
    let isIt : SlotWork → Bool := fun w => match w with | .launch k _ => k == id | _ => false
    let s := match (s.slot e.inst.slot).busy.find? isIt with
      | some w => (s.learn (.done e.inst.slot) (s.known (.inst id))).slotRetire e.inst.slot w
      | none => s
    match e.inst.replayTape with
    | some t =>
      if (s.tape t).run.any fun r => r.inst == some id then (s.learn (.tape t) (s.known (.inst id))).tapeRetired t else s
    | none => s

/-- The entry of an instance freed, with its teams and the frames of their images (spec/11 R252); what a quarter chose last is cleared
where its party is gone (spec/05 R92). -/
def State.freeInstance (s : State) (id : Nat) : State :=
  let i := s.inst id
  let mine : Nat × Team → Bool := fun e => e.2.inst == id
  let ts := s.teams.filter mine
  let ids := ts.map (·.1)
  let left (q : Quarter) : Quarter :=
    { q with lastTeam := q.lastTeam.filter fun t => !ids.contains t, lastGroup := q.lastGroup.filter fun e => !ids.contains e.1 }
  { s.freeFrames i.fn (ts.flatMap (·.2.frames)) with
    insts := s.insts.erase id,
    teams := s.teams.filter (fun e => !mine e),
    groups := s.groups.filter (fun e => !ids.contains e.2.team),
    quarters := s.quarters.map fun q => (q.1, left q.2) }

/-- An instance ends: pushes, STAT, successors, and what waits for its entry (spec/04 R73). -/
def State.endInstance (s : State) (id : Nat) : State :=
  let i := s.inst id
  let e := s.ending id (if i.killed then 7 else 0)
  let s := (s.freeInstance id).forget (.block i.fn i.blk)
  let p := if i.killed then (s.msi i.fn (s.slot i.slot).vec, false)
    else (if i.tcb.tpsh then s.learn (.tape i.tcb.tnum) (s.known (.inst id)) else s).retirePush i
  let r := p.1.drain (p.1.insts.length + 2) [{ e.2 with tfail := p.2 }] []
  (r.2.foldl (fun (s : State) e => if e.failed then s.afterFail e else s.afterRetire e) r.1).pump

/-- INSTANCE_RETIRE. -/
def execInstanceRetire (inst : Nat) (s : State) : Res := .next (if s.instOver inst then s.orWait (s.endInstance inst) else s)

/-- AGG_WINDOW_TIMEOUT: 2 µs after the window opened. -/
def execAggWindowTimeout (fn blk : Nat) (s : State) : Res :=
  .next <|
    match s.windows.find? fun w => w.fn == fn && w.blk == blk && !w.closed with
    | some w => s.orWait ((s.overtake (max s.time (w.opened + 2000))).submitWindow w)
    | none => s

/-! ### Stops (spec/11 R249 to R252) -/

/-- The team may stop now (spec/05 R107; spec/11 R251). -/
def State.mayStop (s : State) (t : Nat) : Bool :=
  let x := s.team t
  let gs := s.liveGroups t
  let ids := gs.map (·.1)
  x.stopReq && !x.ended && !x.stopped
    && gs.all (fun e => e.2.fibres.all Fibre.atSafe)
    && !(s.quarters.any fun q => match q.2.issue with | some it => ids.contains it.group | none => false)
    && !(s.ops.any fun o => ids.contains o.2.group)
    && !(s.engs.any fun e => e.2.team == t && s.holdsStop e.1 e.2)
    && ((s.lives t).any (·.q) || (s.waitingEntries t).isEmpty)

/-- A group as its image gives it back: what the masks leave out holds unspecified values (spec/11 R250; log 8). -/
def Group.restored (g : Group) (free : Nat) : Group :=
  let lost : List GWrite := g.fibres.flatMap fun f =>
    let os := f.octets g.walloc
    (List.range g.walloc).flatMap fun r =>
      if os.any fun o => decide (o ≤ r ∧ r < o + 8) then []
      else (lanesOf f.mask).map fun l => .v l r ((Config.freeWord free (256 * l + r)).setWidth 32)
  let quads : List GWrite := (List.range 64).flatMap fun r =>
    if g.sqUnion.getLsbD (r / 16) then [] else [.s r (Config.freeWord free (8192 + r))]
  g.writes (lost ++ quads)

/-- The tiles that the masks leave out hold unspecified values. -/
def State.restoredTiles (s : State) (t : Nat) : Tab (Tab W32) :=
  let x := s.team t
  (List.range x.acc).foldl (fun m k =>
    if (s.acUnion t).getLsbD k then m
    else m.put k ((List.range 4096).map fun e => (e, (Config.freeWord s.free (16384 + 4096 * k + e)).setWidth 32))) x.tiles

/-- An accumulator store that goes on after a stop writes the tile as it stands at the stop (spec/11 R251). -/
def EngOp.keepTile (e : EngOp) (tiles : Tab (Tab W32)) : EngOp :=
  match e.kind with
  | .move (.store t space off none) => { e with kind := .move (.store t space off (some (tiles.getD t []))) }
  | _ => e

/-- The FULL handles that a stop does not save are FREE (spec/11 R251 step 4). -/
def State.freeFull (s : State) (t : Nat) : State :=
  let x := s.team t
  let keep := (s.lives t).any (·.h)
  s.setTeam t { x with handles := x.handles.map fun h =>
    if h.2.state == .full && !h.2.isRed && !keep then (h.1, { h.2 with state := .free, tape := none }) else h }

/-- A team stopped: its image is written into the frames, under the OWNER slot where that is LIVE (spec/11 R250 to R252; its last-chosen
values cleared, spec/05 R92). -/
def State.stopTeam (s : State) (t : Nat) (frames : List Nat) (image : List Byte) : State :=
  let i := s.inst (s.team t).inst
  let saved := (s.waitingEntries t).map (·.1)
  let gids := (s.liveGroups t).map (·.1)
  let tiles := s.restoredTiles t
  let f := s.fn i.fn
  let s := (s.setFn i.fn { f with memqUsed := f.memqUsed + frames.length }).freeFull t
  let x := s.team t
  let s := s.writeImage (s.ownerSlot i.fn i.slot) frames image
  let s := s.setTeam t { x with tiles := tiles, frames := frames, saved := saved, stopped := true,
                                stopReq := false, stopSeq := s.nextId }
  let c := s.coreAt x.core
  let s := s.setCore x.core { c with queue := c.queue.filter fun q => !saved.contains q,
                                     refused := c.refused.filter fun q => !saved.contains q }
  let s : State := { s with
    nextId := s.nextId + 1,
    engs := s.engs.map (fun e =>
      (e.1, if saved.contains e.1 then { e.2 with started := false } else if e.2.team == t then e.2.keepTile x.tiles else e.2)),
    quarters := s.quarters.map (fun q => (q.1,
      { q.2 with lastTeam := q.2.lastTeam.filter (· != t), lastGroup := q.2.lastGroup.erase t })) }
  gids.foldl (fun (s : State) g =>
    (s.setGroup g ({ s.group g with lastFibre := none, cnt := 0, served := false }.restored s.free)).bump) s.bump

/-- TEAM_STOP: a stop for which the quota has no room passes the instance to level 3 (spec/11 R252). -/
def execTeamStop (team : Nat) (s : State) : Res :=
  .next <|
    if !s.mayStop team then s
    else
      let x := s.team team
      let image := (s.freeFull team).imageOf team
      match s.takeFrames (s.inst x.inst).fn ((image.length + 65535) / 65536) with
      | some (fs, s') => s'.stopTeam team fs image
      | none => s.killInstance x.inst

/-- STOP_TIMEOUT: 2^24 cycles have passed since the request; a function reset applies its own limit. -/
def execStopTimeout (team : Nat) (s : State) : Res :=
  let x := s.team team
  .next <|
    if x.stopReq && !x.stopped && !x.ended && !(s.fn (s.inst x.inst).fn).reset then s.killInstance x.inst else s

/-! ### The watchdog tree -/

/-- The parked fibre that holds the lowest lane, when the group's timer runs and has not reached its limit: no fibre is ready, one is parked
in a wait word. -/
def State.starved (s : State) (gid : Nat) : Option Fibre :=
  let g := s.group gid
  let t := s.team g.team
  let issuing := s.quarters.any fun q => match q.2.issue with | some it => it.group == gid | none => false
  if g.ended || t.ended || issuing || !s.idle gid || decide (wdogLimit g.texp ≤ g.cnt) || (t.stopped && g.fibres.any fun f => f.kind == .run) then none
  else (sortBy (fun f => lowLane f.mask) (g.fibres.filter Fibre.isParked)).head?

/-- Level 2: a strike, and the team pre-empted; the second strike of an instance passes it to level 3 (spec/05 R105). -/
def State.strike (s : State) (t : Nat) : State :=
  let id := (s.team t).inst
  let i := s.inst id
  let s : State := { s with insts := s.insts.put id { i with strikes := i.strikes + 1 } }
  if 1 ≤ i.strikes then s.killInstance id else s.requestStop t

/-- The expiry of a group's timer, whose parked fibre of the lowest lane is `f`: CNT has reached its limit, and stands there until a clause
ends (spec/05 R104). An EXPN that is above ESC already escalates (log 13). -/
def State.expire (s : State) (group : Nat) (f : Fibre) : State :=
  let g := { s.group group with cnt := wdogLimit (s.group group).texp, parked := false }
  let n := g.expn + 1
  if max 1 g.esc ≤ n then (s.setGroup group { g with expn := 0 }).strike g.team
  else
    let s := s.setGroup group { g with expn := n }
    (s.takeTrap group
      { fibre := f.id, lanes := f.mask, cause := 13, tsyn := BitVec.ofNat 64 n, tpc := f.parkedAt, resume := .word, word := 0 }
      f.mask f.reenter).settleGroup group

/-- WATCHDOG_EXPIRY: one that falls due in a stopped team is delivered after its resumption (spec/11 R254). -/
def execWatchdogExpiry (group : Nat) (s : State) : Res :=
  let g := s.group group
  .next <|
    match s.starved group with
    | none => s
    | some f => if (s.team g.team).stopped then s.setGroup group { g with due := g.due ++ [.timeout], cnt := wdogLimit g.texp } else s.expire group f

/-- A core marked degraded: its resident teams are asked to stop (spec/09 R211). -/
def State.degrade (s : State) (c : Nat) : State :=
  if (s.coreAt c).degraded then s
  else
    let s := (s.setCore c { s.coreAt c with degraded := true }).countDie (dieOf c) 11
    let ts := (s.teams.filter fun e => e.2.core == c && !e.2.ended && !e.2.stopped).map (·.1)
    (ts.foldl State.requestStop s).report (.report 4 c (s.coreAt c).vgMismatch)

/-- HEARTBEAT_MISS: a unit that misses 4 in a row is hung; its core is degraded, and the instances with a team there pass to
level 3. -/
def execHeartbeatMiss (c : CoreId) (misses : Nat) (s : State) : Res :=
  let k := 36 * c.die.val + c.core.val
  let s := s.setCore k { s.coreAt k with missed := misses }
  .next <|
    if misses < 4 then s
    else
      let s := s.degrade k
      let ids := (s.teams.filter fun e => e.2.core == k && s.onCore e.1).map fun e => e.2.inst
      ids.foldl State.killInstance s

end Sys2Proof.Machine
end

