-- ==== Sys2Proof/Machine/Queue.lean ====
section
/-!
DEFINITION. The commands of queue slots (spec/03 R54 to R57, R61, R62; spec/02 R31; spec/08 R186).
-/

namespace Sys2Proof.Machine

open Sys2Proof

/-! ### Fetching a command -/

/-- A command (spec/03 R56). -/
structure Command where
  opc : Nat
  fence : Bool
  irq : Bool
  a0 : Nat
  a1 : Nat
  a2 : Nat
  reserved : Bool
deriving DecidableEq, Repr

/-- The fields of 64 bytes. -/
def commandOf (bs : List Byte) : Command :=
  let w (k : Nat) : Nat := recField bs (8 * k) 8
  let h := w 0
  { opc := fieldOf h 7 0, fence := fieldOf h 8 8 == 1, irq := fieldOf h 9 9 == 1, a0 := w 1, a1 := w 2, a2 := w 3,
    reserved := fieldOf h 63 10 != 0 || w 4 != 0 || w 5 != 0 || w 6 != 0 || w 7 != 0 }

/-- An operand that names host memory; its bus address. -/
def atHost (a : Nat) : Bool := decide (9223372036854775808 ≤ a)
def busAddr (a : Nat) : Nat := a % 9223372036854775808

/-- The error of a command's own fields, if it has one: 0x01 before 0x02. -/
def Command.error (c : Command) (keyimp : Bool) : Option Nat :=
  if c.opc = 0 ∨ 8 < c.opc ∨ (c.opc = 6 ∧ !keyimp) then some 1
  else
    let bad : Bool :=
      match c.opc with
      | 1 => c.a0 % 256 != 0 || atHost c.a0 || c.a1 != 0 || c.a2 != 0
      | 2 => decide (1099511627776 < c.a2)
      | 3 => c.a0 % 8 != 0 || c.a2 != 0
      | 4 => c.a0 % 8 != 0 || atHost c.a0 || c.a2 != 0
      | 5 | 7 => decide (4096 ≤ c.a0) || c.a1 != 0 || c.a2 != 0
      | 6 => decide (4096 ≤ c.a0) || c.a2 != 0
      | _ => c.a2 != 0
    if c.reserved || bad then some 2 else none

/-- Commands in a slot's ring. -/
def QSlot.ring (x : QSlot) : Nat := 2 ^ x.size

/-- The index after, and before, QHEAD. -/
def QSlot.next (x : QSlot) : Nat := (x.qhead + 1) % x.ring
def QSlot.prev (x : QSlot) : Nat := (x.qhead + x.ring - 1) % x.ring

/-- Commands exposed: (tail − QHEAD) mod 2^SIZE (spec/03 R55). -/
def QSlot.exposed (x : QSlot) : Nat := (x.tail + x.ring - x.qhead % x.ring) % x.ring

/-- The slot fetches, and a command is exposed (spec/03 R52, R55, R57). -/
def State.fetching (s : State) (g : Nat) : Bool :=
  let x := s.slot g
  decide (s.phase = .ready) && x.en && x.err == 0 && x.waitge.isNone && x.exposed != 0 && (s.slotOwner g).isSome && !(s.fn (s.slotFn g)).reset

/-- The bytes of the command at QHEAD, where they can be read. -/
def State.ringBytes (s : State) (g : Nat) : State × Option (List Byte) :=
  let x := s.slot g
  let a := x.qbase.toNat + 64 * (x.qhead % x.ring)
  if x.loc then s.cpRead (s.slotFn g) g a 64 else (s, some (readZ s.hostMem a 64))

/-- QHEAD past a command. -/
def State.passed (s : State) (g : Nat) : State := s.setSlot g { s.slot g with qhead := (s.slot g).next }

/-- A command that retires at once. -/
def State.retireNow (s : State) (g : Nat) (irq : Bool) : State :=
  let s := s.passed g
  if irq then s.msi (s.slotFn g) (s.slot g).vec else s

/-- A command started: QHEAD is past it, and it is on the slot's list until it retires. -/
def State.startWork (s : State) (g : Nat) (w : SlotWork) : State :=
  let s := s.passed g
  s.setSlot g { s.slot g with busy := (s.slot g).busy ++ [w] }

/-- The command at QHEAD fails: the slot stops with QHEAD at it. -/
def State.commandError (s : State) (g code : Nat) : State := s.slotError g code true

/-- A command that starts only when every earlier one of its slot has retired (spec/03 R56). -/
def Command.fenced (c : Command) : Bool := c.fence || c.opc == 3 || c.opc == 7

/-- A fenced command of a slot starts after what its copies have written to host memory, and after its other retired commands (spec/03 R56;
spec/08 R186). -/
def State.fencePosts (s : State) (g : Nat) : State :=
  let fn := s.slotFn g
  let ps := (s.fn fn).posted
  (s.setFn fn { s.fn fn with posted := ps.map fun p => if p.slot == g then { p with fenced := true } else p }).learn (.slot g)
    ((ps.filter fun p => p.slot == g).map (·.at_) ++ s.known (.done g))

/-- The command of a kind at QHEAD of a slot runs; one in error stops the slot, and a fenced one waits. -/
def runCommand (opc g : Nat) (s : State) (k : State → Command → State) : Res :=
  .next <| s.orWait <|
    if !s.fetching g then s
    else
      let r := s.ringBytes g
      match r.2 with
      | none => r.1.commandError g 6
      | some bs =>
        let c := commandOf bs
        match c.error (s.accepted (s.slotFn g) 2) with
        | some e => r.1.commandError g e
        | none =>
          if c.opc ≠ opc then s
          else if c.fenced && !(s.slot g).busy.isEmpty then s
          else k (if c.fenced then r.1.fencePosts g else r.1) c

/-! ### The commands -/

/-- LAUNCH. -/
def execLaunchCommand (slot : Nat) (s : State) : Res :=
  runCommand 1 slot s fun st c =>
    let fn := st.slotFn slot
    let b := st.readTcb fn slot c.a0
    let y := b.1.submit { fn := fn, slot := slot, blk := c.a0, cap := (st.slot slot).prio, sup := true, after := [.slot slot] } b.2
    match y.2 with
    | .full => st
    | .unreadable => y.1.commandError slot 6
    | .failed e => (y.1.failedSubmission e).retireNow slot c.irq
    | .live id => y.1.startWork slot (.launch id c.irq)

/-- COPY. -/
def execCopy (slot : Nat) (s : State) : Res :=
  runCommand 2 slot s fun st c =>
    if c.a2 = 0 then st.retireNow slot c.irq
    else
      let id := st.nextId
      let op : CopyOp :=
        { handle := 0, ssp := .virt, src := busAddr c.a0, srcHost := atHost c.a0, dsp := .virt, dst := busAddr c.a1,
          dstHost := atHost c.a1, len := c.a2 }
      let e : EngOp := { kind := .copy op, core := 1152, team := 0, slot := slot, fn := st.slotFn slot }
      ({ st with nextId := id + 1, engs := st.engs.put id e }).startWork slot (.copy id c.irq (st.slot slot).qhead)

/-- SIGNAL: a release at system scope, whose flushing read comes first where one is due; it covers the writes to host memory that happen
before it (spec/08 R173; log 25). -/
def execSignal (slot : Nat) (s : State) : Res :=
  runCommand 3 slot s fun st c =>
    let fn := st.slotFn slot
    let host := atHost c.a0
    let last := ((st.fn fn).posted.filter fun p => (st.known (.slot slot)).contains p.at_).getLast?
    if host || last.isSome then
      let id := st.nextId
      let f : Flush :=
        { fn := fn, group := none, slot := some slot, irq := c.irq, host := host, addr := busAddr c.a0,
          upTo := last.elim 0 (·.at_), index := (st.slot slot).qhead, value := BitVec.ofNat 64 c.a1,
          read := if host then busAddr c.a0 else last.elim 0 (·.addr) }
      ({ st with nextId := id + 1, flushes := st.flushes.put id f }).startWork slot (.signal id c.irq (st.slot slot).qhead)
    else
      let r := st.cpWrite fn slot c.a0 (leBytes 8 c.a1)
      if r.2 then r.1.retireNow slot c.irq else r.1.commandError slot 6

/-- The writes to host memory that the releases carried by the 8 bytes that a WAITGE has read cover: its read is an acquire at device scope
(spec/03 R56; spec/08 R171). -/
def State.cpMarks (s : State) (fn slot a : Nat) : NatSet :=
  match (State.cpPlace fn slot a .read 8 s).2 with
  | some (dom, key) => ((s.marksAt (.frame dom key) 8).filter fun m => m.meets {} .dev).flatMap (·.posts)
  | none => []

/-- The 8 bytes that a WAITGE watches read: the slot fetches on, waits, or stops with QHEAD at the command. A slot that has stopped
already keeps its error and its QHEAD, and the vector is raised (log 28). -/
def State.waitRead (s : State) (g a : Nat) (v : Word) (irq : Bool) : State :=
  let r := s.cpRead (s.slotFn g) g a 8
  let x := r.1.slot g
  match r.2 with
  | none =>
    if x.err ≠ 0 then (r.1.setSlot g { x with waitge := none }).msi (r.1.slotFn g) x.vec
    else (r.1.setSlot g { x with waitge := none, qhead := x.prev }).commandError g 6
  | some bs =>
    if v.toNat ≤ leNat bs then
      let s := (r.1.setSlot g { x with waitge := none }).learn (.slot g) (r.1.cpMarks (r.1.slotFn g) g a)
      if irq then s.msi (s.slotFn g) x.vec else s
    else r.1.setSlot g { x with waitge := some (a, v), waitgeIrq := irq }

/-- WAITGE. -/
def execWaitge (slot : Nat) (s : State) : Res :=
  runCommand 4 slot s fun st c => (st.passed slot).waitRead slot c.a0 (BitVec.ofNat 64 c.a1) c.irq

/-- WAITGE_POLL. -/
def execWaitgePoll (slot : Nat) (s : State) : Res :=
  let x := s.slot slot
  .next <|
    match x.waitge with
    | some (a, v) =>
      if (s.fn (s.slotFn slot)).reset || (s.slotOwner slot).isNone then s else s.orWait (s.waitRead slot a v x.waitgeIrq)
    | none => s

/-- A key command on a slot in the state that it needs; its global number is handed on. -/
def keyCommand (opc slot : Nat) (need : KeyState) (s : State) (k : State → Command → Nat → State) : Res :=
  runCommand opc slot s fun st c =>
    let f := st.fn (st.slotFn slot)
    let g := f.kbase + c.a0
    if f.kcount ≤ c.a0 ∨ (st.keySlot g).state ≠ need then st.commandError slot 3 else k st c g

/-- A slot made LIVE with a key: its telemetry block starts at zero (spec/03 R65). -/
def State.liven (s : State) (g key : Nat) : State := s.setKey g { state := .live, key := key, tele := {} }

/-- KEYGEN: a key that no other slot holds (log 14). -/
def execKeygen (slot : Nat) (s : State) : Res :=
  keyCommand 5 slot .empty s fun st c g =>
    ({ st with nextId := st.nextId + 1 }.liven g (2 * st.nextId + 1)).retireNow slot c.irq

/-- KEYIMP: `unwrapped` is the key that unwrapping gives, none where it fails (log 14). -/
def execKeyimp (slot : Nat) (unwrapped : Option Nat) (s : State) : Res :=
  keyCommand 6 slot .empty s fun st c g =>
    let fn := st.slotFn slot
    if !(st.fn fn).spdm.live then st.commandError slot 7
    else
      let rd (acc : State × Bool) (p : Nat × Nat) : State × Bool :=
        let r := acc.1.cpRead fn slot p.1 p.2
        (r.1, acc.2 && r.2.isSome)
      let r := if atHost c.a1 then (st, true) else (pagePieces 3 c.a1 72).foldl rd (st, true)
      if !r.2 then r.1.commandError slot 6
      else
        match unwrapped with
        | none => r.1.commandError slot 7
        | some k => (r.1.liven g (2 * k + 2)).retireNow slot c.irq

/-- A LIVE slot erased: what the caches hold under it is dropped without a write-back, what rests in frame space stays as ciphertext, and
its tapes are emptied (spec/03 R62; spec/04 R81), a run of one going on to its end (log 74). -/
def State.eraseKey (s : State) (g : Nat) : State :=
  let emptied (t : Tape) : Tape :=
    if t.owner = some g then { t with recs := [], owner := none, lost := false } else t
  let s := s.dropKey g
  { s.setKey g { s.keySlot g with state := .empty, key := 0 } with tapes := s.tapes.map fun t => (t.1, emptied t.2) }

/-- KEYDEL: accesses past translation first (spec/03 R62). -/
def execKeydel (slot : Nat) (s : State) : Res :=
  keyCommand 7 slot .live s fun st c g => ((st.endCows g).eraseKey g).retireNow slot c.irq

/-- A page of a context overlaps the range of a TLBINV, clipped at 2^57; every page for a length of 0 (spec/03 R56). -/
def TlbEntry.inRange (x : TlbEntry) (g a n : Nat) : Bool :=
  x.slot == g && (n == 0 || (decide (x.page * x.size < min (a + n) 144115188075855872) && decide (a < (x.page + 1) * x.size)))

/-- TLBINV: the cached translations of the slot's context for the range are dropped from every TLB. -/
def execTlbinv (slot : Nat) (s : State) : Res :=
  runCommand 8 slot s fun st c => (st.dropLeaves fun x => x.inRange slot c.a0 c.a1).retireNow slot c.irq

end Sys2Proof.Machine
end

