-- ==== Sys2Proof/Machine/Host.lean ====
section
/-!
DEFINITION. The host interface: BAR0 and BAR2, doorbells, features, resources of functions, the copy meter, SPDM and function
resets (spec/03 R49 to R60, R66, R67; spec/01 R24; spec/08 R177).
-/

namespace Sys2Proof.Machine

open Sys2Proof

/-! ### Registers of BAR0 (spec/03 R49 to R59) -/

/-- Field `lo` to `hi` of a written value. -/
def part (v : Word) (hi lo : Nat) : Nat := fieldOf v.toNat hi lo

/-- RES0 and RES1. -/
def Function.res0 (f : Function) : Word :=
  BitVec.ofNat 64 (f.dies.toNat + bnat f.share * 2 ^ 32 + f.weight * 2 ^ 36 + f.memq * 2 ^ 48)
def Function.res1 (f : Function) : Word :=
  BitVec.ofNat 64 (f.qbase + f.qcount * 2 ^ 12 + f.kbase * 2 ^ 32 + f.kcount * 2 ^ 48)

/-- TBCFG and TBSTAT. -/
def Function.tbcfg (f : Function) : Word :=
  BitVec.ofNat 64 (f.tbRate + bnat f.tbEn * 2 ^ 31 + f.tbCap * 2 ^ 32 + f.tbBlim * 2 ^ 48)
def Function.tbstat (f : Function) : Word := BitVec.ofNat 64 (f.tokens + f.debt * 2 ^ 32)

/-- Queue slots of a function that are in force. -/
def State.slotCount (s : State) (fn : Nat) : Nat := if s.inForce fn then (s.fn fn).qcount else 0

/-- The global slot that QSEL names, where it is in range. -/
def State.selected (s : State) (fn : Nat) : Option Nat :=
  let f := s.fn fn
  if f.qsel < s.slotCount fn then some (f.qbase + f.qsel) else none

/-- QCTL and QCTX of a slot; RESUME reads 0, since it acts at once (log 67). -/
def QSlot.qctl (x : QSlot) : Word :=
  BitVec.ofNat 64 (bnat x.en + bnat x.loc * 2 + x.size * 2 ^ 4 + x.prio * 2 ^ 8 + x.vec * 2 ^ 16 + x.err * 2 ^ 24)
def QSlot.qctx (x : QSlot) : Word := BitVec.ofNat 64 (x.root + x.owner * 2 ^ 48)

/-- FSTAT (spec/03 R58). -/
def State.fstat (s : State) (fn : Nat) : Word :=
  let f := s.fn fn
  BitVec.ofNat 64 (bnat f.lock + 2 + bnat f.reset * 4 + bnat f.badf * 8 + bnat f.spdm.live * 16)

/-- The telemetry block of a local key slot, word by word (spec/03 R65). -/
def Telemetry.word (t : Telemetry) (k : Nat) : Nat :=
  match k with
  | 0 => t.corr
  | 1 => t.reiss
  | 2 => t.escal
  | 3 => t.unlacc
  | 4 => t.sdet
  | 5 => t.audmm
  | 6 => t.tplow
  | 7 => t.tpvg
  | 8 => t.memue
  | 9 => t.poisc
  | 10 => t.throt
  | 11 => t.cows
  | 12 => t.cpyb
  | _ => 0

/-- A reset of the function runs, or waits for those of the virtual functions (spec/03 R52, R67). -/
def Function.resetting (f : Function) : Bool := f.reset || f.flr

/-- The resource window of the physical function (spec/03 R52); VFSEL itself reads what it holds, above 64 too (log 44). -/
def State.windowRead (s : State) (off : Nat) : Word :=
  if off = 0x100 then BitVec.ofNat 64 s.vfsel
  else if off = 0x130 then BitVec.ofNat 64 s.gqsel
  else if off = 0x138 then (s.slot s.gqsel).qctx
  else if 64 < s.vfsel then 0
  else
    let f := s.fn s.vfsel
    if off = 0x108 then f.res0
    else if off = 0x110 then f.res1
    else if off = 0x118 then BitVec.ofNat 64 (bnat (s.inForce s.vfsel) + bnat f.resetting * 2 + bnat f.err * 4)
    else if off = 0x120 then f.tbcfg
    else if off = 0x128 then BitVec.ofNat 64 (s.pool + s.pcap * 2 ^ 32)
    else 0

/-- The recovery registers. -/
def Recovery.read (r : Recovery) (off : Nat) : Word :=
  if off = 0x78 then BitVec.ofNat 64 (r.erra + r.errb * 2 ^ 8 + r.errh * 2 ^ 16 + bnat r.busy * 2 ^ 24)
  else if off = 0x80 then BitVec.ofNat 64 r.len
  else if off = 0x88 then BitVec.ofNat 64 (bnat r.busy + bnat r.store * 2)
  else 0

/-- What a host read of a register of a function returns; ERRCNT_READ clears what it reads. -/
def State.bar0 (s : State) (fn off : Nat) : Word :=
  let f := s.fn fn
  let slot : QSlot := (s.selected fn).elim {} s.slot
  match s.phase with
  | .recovery =>
    if fn ≠ 0 then 0 else if off = 0x18 then 32 else s.rcv.read off
  | .ready =>
    if off = 0 then BitVec.ofNat 64 fn
    else if off = 0x08 then s.feato
    else if off = 0x10 then f.feata ||| BitVec.ofNat 64 (bnat f.lock * 2 ^ 63)
    else if off = 0x18 then s.fstat fn
    else if off = 0x20 then f.res0
    else if off = 0x28 then f.res1
    else if off = 0x30 then f.tbcfg
    else if off = 0x38 then f.tbstat
    else if off = 0x40 then BitVec.ofNat 64 f.qsel
    else if off = 0x48 then slot.qbase
    else if off = 0x50 then slot.qctl
    else if off = 0x58 then slot.qctx
    else if off = 0x60 then BitVec.ofNat 64 slot.qhead
    else if off = 0x68 then f.apbase
    else if off = 0x70 then BitVec.ofNat 64 (f.wdrop + f.rabrt * 2 ^ 32)
    else if 0x10000 ≤ off then
      let k := (off - 0x10000) / 128
      if k < f.kcount ∧ s.inForce fn then BitVec.ofNat 64 ((s.keySlot (f.kbase + k)).tele.word (off % 128 / 8)) else 0
    else if fn = 0 then s.windowRead off
    else 0
  | _ => 0

/-- ERRCNT_READ (spec/03 R50). -/
def execErrcntRead (fn : Nat) (s : State) : Res :=
  .next <|
    if s.phase ≠ .ready ∨ !s.presented fn then s
    else (s.setFn fn { s.fn fn with wdrop := 0, rabrt := 0 }).tell (.reg fn 0x70 (s.bar0 fn 0x70))

/-! ### Features (spec/03 R58) -/

/-- A write of FEATA. BADF stays set until a reset of the function, also where a later write is accepted (log 67). -/
def State.writeFeata (s : State) (fn : Nat) (v : Word) : State :=
  let f := s.fn fn
  if !v.getLsbD 63 || f.lock then s
  else
    let r := (v &&& s.feato) &&& BitVec.ofNat 64 (2 ^ 63 - 1)
    if r.getLsbD 0 then s.setFn fn { f with feata := r, lock := true } else s.setFn fn { f with badf := true }

/-- FEATA_WRITE. -/
def execFeataWrite (fn : Nat) (value : Word) (s : State) : Res :=
  .next (if s.phase = .ready ∧ s.presented fn then s.writeFeata fn value else s)

/-! ### Function resets (spec/03 R67) -/

/-- A copy-on-write service of a function. -/
def Service.cowOf (fn : Nat) : Service → Bool
  | .cow _ f .. => f == fn
  | .place .. => false

/-- Steps 1 and 2: every grid of the function is asked to stop, and its copy-on-write services are abandoned. -/
def State.resetStart (s : State) (fn : Nat) : State :=
  let s := s.setFn fn { s.fn fn with reset := true, flr := false }
  let s := s.served fun e => e.2.cowOf fn
  (s.teams.filter fun e => (s.inst e.2.inst).fn == fn && !e.2.ended && !e.2.stopped).foldl
    (fun s e => s.requestStop e.1) s

/-- Every grid of the function has stopped, and those killed have ended. -/
def State.quiet (s : State) (fn : Nat) : Bool :=
  (s.teams.all fun e => (s.inst e.2.inst).fn != fn || e.2.ended || e.2.stopped)
    && s.insts.all fun e => e.2.fn != fn || !e.2.killed

/-- The queue slots and key slots of a function, which are its own only while its ranges are in force (spec/03 R52). -/
def State.ownsSlot (s : State) (fn g : Nat) : Bool := s.inForce fn && within (s.fn fn).qbase (s.fn fn).qcount g
def State.ownsKey (s : State) (fn k : Nat) : Bool := s.inForce fn && within (s.fn fn).kbase (s.fn fn).kcount k

/-- Nodes of a function that has been reset: they go on without its own values (spec/10 R234). -/
def State.dropOwn (s : State) (fn : Nat) : State :=
  let mine (gid : Nat) : Bool := s.redSlots.any fun e => e.2.fn == fn && e.2.gid == gid
  { s with nodes := s.nodes.map fun n => if mine n.gid && !n.forwarded then { n with own := none } else n }

/-- Steps 3 and 4: handles close, engine operations end, tape runs and windows are dropped, the instances are discarded, and with them the
copy-on-write services that their last accesses asked for. -/
def State.resetWork (s : State) (fn : Nat) : State :=
  let mine : EngOp → Bool := fun e => e.fn == fn
  let s := (s.engs.filter fun e => mine e.2).foldl (fun s e => s.cutShort e.2) s
  let s := s.endEngs mine
  let ids := (s.insts.filter fun e => e.2.fn == fn).map (·.1)
  let inQ := s.ownsSlot fn
  let inK := s.ownsKey fn
  let tape (t : Tape) : Tape :=
    if (t.run.any fun r => r.fn == fn) || t.owner.any inK then {} else t
  let s := (ids.foldl State.freeInstance s).dropOwn fn
  let s : State := { s with
    tapes := s.tapes.map (fun t => (t.1, tape t.2)),
    windows := s.windows.filter (fun w => w.fn != fn),
    credits := s.credits.filter (fun c => c.fn != fn),
    flushes := s.flushes.filter (fun e => e.2.fn != fn),
    redSlots := s.redSlots.map (fun e => (e.1, if e.2.fn == fn then { e.2 with closing := true } else e.2)),
    cores := s.cores.map (fun c => (c.1, { c.2 with locks := c.2.locks.filter fun l => !inQ l.2.slot })) }
  (s.served fun e => e.2.cowOf fn).unstall.ageNodes

/-- A full bucket; the physical function has none (spec/03 R59). -/
def Function.fullBucket (f : Function) (fn : Nat) : Nat := if fn = 0 then 0 else if f.tbCap = 0 then 4096 else f.tbCap * 1024

/-- Steps 5 to 7: keys erased, slots and buckets at their reset values, features cleared; the die scratchpads of the function
are zeroed (spec/07 R138). -/
def State.resetEnd (s : State) (fn : Nat) : State :=
  let f := s.fn fn
  let s := ((natsFrom f.kbase f.kcount).filter fun k => s.ownsKey fn k && (s.keySlot k).state == .live).foldl State.eraseKey s
  let s := s.dropLeaves fun x => s.ownsSlot fn x.slot
  let s : State := { s with slots := s.slots.filter (fun e => !s.ownsSlot fn e.1),
                            pool := min (s.pcap * 1024) (s.pool + f.debt) }
  let s := (s.ownedDies fn).foldl (fun (s : State) d =>
    s.setDie d { s.dieAt d with scratch := [], scratchPoison := [] }) s
  let f := s.fn fn
  (s.setFn fn { f with debt := 0, tokens := f.fullBucket fn, feata := 0, lock := false,
                       badf := false, reset := false, posted := [], wdrop := 0, rabrt := 0 }).pump

/-- The functions that a reset of the physical function resets first. -/
def State.enabledVfs (s : State) : List Nat := (s.fns.filter fun e => e.1 != 0 && e.2.en).map (·.1)

/-- A reset may go on: the physical function's after those of the virtual functions, any other when its grids have stopped. -/
def State.resetMoves (s : State) (fn : Nat) : Bool :=
  let f := s.fn fn
  if f.flr then s.enabledVfs.all fun v => !(s.fn v).reset else f.reset && s.quiet fn

/-- A reset started, or carried on: a reset that comes while one of the function runs starts nothing of its own, so of a Function Level Reset
of the physical function that finds its own reset running no virtual function is reset (log 109). -/
def State.functionReset (s : State) (fn : Nat) : State :=
  let f := s.fn fn
  if f.flr then (if s.resetMoves fn then s.resetStart fn else s)
  else if f.reset then (if s.quiet fn then (s.resetWork fn).resetEnd fn else s)
  else if fn = 0 then
    s.enabledVfs.foldl (fun (s : State) v => if (s.fn v).reset then s else s.resetStart v)
      (s.setFn 0 { f with flr := true })
  else s.resetStart fn

/-- FUNCTION_RESET: a reset begins, and once its grids have stopped it ends. -/
def execFunctionReset (fn : Nat) (s : State) : Res :=
  .next (if s.phase = .ready ∧ (s.presented fn ∨ (s.fn fn).resetting) then s.orLater (s.functionReset fn) else s)

/-- FUNCTION_RESET_TIMEOUT: a grid that has not stopped after 10 ms is killed. -/
def execFunctionResetTimeout (fn inst : Nat) (s : State) : Res :=
  let runs := s.teams.any fun e => e.2.inst == inst && !e.2.ended && !e.2.stopped
  .next (if (s.fn fn).reset && (s.inst inst).fn == fn && runs then s.killInstance inst else s)

/-! ### Resources (spec/03 R52, R53) -/

/-- Two ranges share a number. -/
def overlaps (a n b m : Nat) : Bool := n != 0 && m != 0 && decide (a < b + m) && decide (b < a + n)

/-- Queue or key ranges of two functions overlap. -/
def Function.clash (f g : Function) : Bool :=
  overlaps f.qbase f.qcount g.qbase g.qcount || overlaps f.kbase f.kcount g.kbase g.kcount

/-- The functions whose ranges are in force, other than `v`. -/
def State.others (s : State) (v : Nat) : List (Nat × Function) :=
  ((0, s.fn 0) :: s.fns.filter fun e => e.1 != 0).filter fun e => e.1 != v && s.inForce e.1

/-- A write of EN = 1 to a function is refused. -/
def State.enRefused (s : State) (v : Nat) : Bool :=
  let f := s.fn v
  decide (2048 < f.qbase + f.qcount) || f.kbase == 0 || decide (4096 < f.kbase + f.kcount)
    || (s.others v).any (fun e => f.clash e.2)
    || (s.others v).any (fun e => e.1 != 0 && e.2.dies &&& f.dies != 0)
    || (List.range 32).any fun d => f.dies.getLsbD d && (s.dieAt d).inrst

/-- The scratchpads of dies that change their owner are zeroed (spec/07 R138). -/
def State.zeroDies (s : State) (dies : BitVec 32) : State :=
  ((List.range 32).filter fun d => dies.getLsbD d).foldl (fun (s : State) d =>
    s.setDie d { s.dieAt d with scratch := [], scratchPoison := [] }) s

/-- A write of VFCTL through the window; RST resets the function that VFSEL names alone (spec/03 R67). EN is written before RST of the same
write acts (log 110). Its grids and resident teams run on where EN goes to 0, and so do those of others on a die that changes its owner
(log 111). -/
def State.writeVfctl (s : State) (v : Word) : State :=
  let sel := s.vfsel
  if 64 < sel then s
  else
    let f := s.fn sel
    let s :=
      if sel = 0 then s
      else if v.getLsbD 0 then
        if f.en then s
        else if s.enRefused sel then s.setFn sel { f with err := true }
        else (s.setFn sel { f with en := true, err := false }).zeroDies f.dies
      else if f.en then (s.setFn sel { f with en := false }).zeroDies f.dies
      else s
    if v.getLsbD 1 && !(s.fn sel).resetting then s.resetStart sel else s

/-- VF_ENABLE. -/
def execVfEnable (value : Word) (s : State) : Res := .next (if s.phase = .ready then s.writeVfctl value else s)

/-- A write of VFRES0 or VFRES1 through the window (spec/03 R53). The PF's own VFRES1 is taken whatever its ranges are, since R53 refuses only
writes of EN = 1 (log 80). -/
def State.writeVfres (s : State) (second : Bool) (v : Word) : State :=
  let sel := s.vfsel
  let f := s.fn sel
  if 64 < sel ∨ (sel ≠ 0 ∧ f.en) then s
  else
    let g : Function :=
      if second then
        { f with qbase := part v 10 0, qcount := part v 23 12, kbase := part v 43 32, kcount := part v 60 48 }
      else if sel = 0 then { f with memq := part v 61 48 }
      else { f with dies := v.setWidth 32, share := v.getLsbD 32, weight := part v 39 36, memq := part v 61 48 }
    if sel = 0 && second && ((s.others 0).any fun e => g.clash e.2) then s else s.setFn sel g

/-! ### Queue slots (spec/03 R54, R55, R57) -/

/-- A write of EN = 1 that may take effect, or the error of one that may not. -/
def State.enableError (s : State) (fn : Nat) (x : QSlot) : Option Nat :=
  let f := s.fn fn
  if !f.lock then some 5
  else if x.size < 4 ∨ 15 < x.size ∨ f.kcount ≤ x.owner ∨ (x.loc ∧ x.qbase.toNat % 2 ^ (x.size + 6) ≠ 0) then some 4
  else none

/-- A write of QCTL: RESUME, the fields, and EN. RESUME skips the command at QHEAD, and with it what had been fetched before that command
failed (log 28). While a reset of the function runs the write is ignored (log 67). -/
def State.writeQctl (s : State) (fn : Nat) (v : Word) : State :=
  match s.selected fn with
  | none => s
  | some g =>
    if (s.fn fn).reset then s
    else
      let x := s.slot g
      let x := if v.getLsbD 2 && x.err != 0 then
          { x with err := 0, skip := false, past := none, qhead := if x.skip then x.past.getD x.next else x.qhead }
        else x
      let x : QSlot := { x with loc := v.getLsbD 1, size := part v 7 4, prio := part v 10 8, vec := part v 21 16 }
      if v.getLsbD 0 then
        match s.enableError fn x with
        | some e => (s.setSlot g { x with en := false }).slotError g e false
        | none => s.setSlot g { x with en := true }
      else s.setSlot g { x with en := false }

/-- QUEUE_ENABLE. -/
def execQueueEnable (fn : Nat) (value : Word) (s : State) : Res :=
  .next (if s.phase = .ready ∧ s.presented fn then s.writeQctl fn value else s)

/-- QUEUE_RESUME. -/
def execQueueResume (fn : Nat) (value : Word) (s : State) : Res :=
  .next (if s.phase = .ready ∧ s.presented fn then s.writeQctl fn value else s)

/-- A doorbell write. -/
def State.ring (s : State) (fn q value : Nat) : State :=
  let f := s.fn fn
  let g := f.qbase + q
  let x := s.slot g
  let t := value % 65536
  if s.slotCount fn ≤ q ∨ f.reset ∨ !x.en then s
  else if x.ring ≤ t then s.slotError g 4 false
  else s.setSlot g { x with tail := t }

/-- DOORBELL. -/
def execDoorbell (fn q value : Nat) (s : State) : Res :=
  .next (if s.phase = .ready ∧ s.presented fn then s.ring fn q value else s)

/-- QCTX written. -/
def QSlot.withCtx (x : QSlot) (v : Word) : QSlot := { x with root := part v 45 12 * 4096, owner := part v 59 48 }

/-! ### Other registers (spec/00 R5) -/

/-- A write of a register of the queue-slot window. -/
def State.writeSlotReg (s : State) (fn off : Nat) (v : Word) : State :=
  match s.selected fn with
  | none => s
  | some g =>
    let x := s.slot g
    if off = 0x48 then s.setSlot g { x with qbase := BitVec.ofNat 64 (v.toNat / 4096 * 4096) }
    else if off = 0x58 ∧ fn = 0 then s.setSlot g (x.withCtx v)
    else s

/-- A write of a register of the windows of the physical function. -/
def State.writeWindow (s : State) (off : Nat) (v : Word) : State :=
  if off = 0x100 then { s with vfsel := part v 6 0 }
  else if off = 0x130 then { s with gqsel := part v 10 0 }
  else if off = 0x138 then
    let x := s.slot s.gqsel
    if x.en then s else s.setSlot s.gqsel (x.withCtx v)
  else if 64 < s.vfsel then s
  else if off = 0x108 then s.writeVfres false v
  else if off = 0x110 then s.writeVfres true v
  else if off = 0x118 then s.writeVfctl v
  else if off = 0x120 then
    if s.vfsel = 0 then s
    else s.setFn s.vfsel { s.fn s.vfsel with tbRate := part v 19 0, tbEn := v.getLsbD 31, tbCap := part v 47 32,
                                             tbBlim := part v 63 48 }
  else if off = 0x128 then { s with pcap := part v 47 32 }
  else s

/-- A write of a recovery register (spec/01 R24). -/
def State.writeRecovery (s : State) (off : Nat) (v : Word) : State :=
  if off = 0x80 then { s with rcv := { s.rcv with len := part v 24 0 } }
  else if off = 0x88 then
    if v.getLsbD 0 then s.goWritten (v.getLsbD 1) else { s with rcv := { s.rcv with store := v.getLsbD 1 } }
  else s

/-- REGISTER_WRITE: a write of 64 bits to BAR0. -/
def execRegisterWrite (fn off : Nat) (value : Word) (s : State) : Res :=
  let f := s.fn fn
  .next <|
    if off % 8 ≠ 0 ∨ !s.presented fn then s
    else
      match s.phase with
      | .recovery => if fn = 0 then s.writeRecovery off value else s
      | .ready =>
        if off = 0x10 then s.writeFeata fn value
        else if off = 0x40 then s.setFn fn { f with qsel := part value 11 0 }
        else if off = 0x50 then s.writeQctl fn value
        else if off = 0x48 ∨ off = 0x58 then s.writeSlotReg fn off value
        else if off = 0x68 then s.setFn fn { f with apbase := BitVec.ofNat 64 (value.toNat / 2 ^ 36 * 2 ^ 36) }
        else if 0x1000 ≤ off ∧ off < 0x1000 + 8 * 2048 then s.ring fn ((off - 0x1000) / 8) value.toNat
        else if fn = 0 then s.writeWindow off value
        else s
      | _ => s

/-! ### BAR2 (spec/03 R49, R50, R63; spec/01 R24) -/

/-- Counters of ERRCNT. -/
def sat32 (x : Nat) : Nat := min x 4294967295
def State.countDrop (s : State) (fn : Nat) : State := s.setFn fn { s.fn fn with wdrop := sat32 ((s.fn fn).wdrop + 1) }
def State.countAbort (s : State) (fn off : Nat) : State :=
  (s.setFn fn { s.fn fn with rabrt := sat32 ((s.fn fn).rabrt + 1) }).tell (.abort fn off)

/-- The places of the pages of a BAR2 access, none where one of them does not translate. -/
def State.bar2Places (fn slot : Nat) (kind : AccKind) : List (Nat × Nat) → State → State × Option (List (Nat × Nat × Nat))
  | [], s => (s, some [])
  | p :: rest, s =>
    let r := State.cpPlace fn slot p.1 kind 8 s
    match r.2 with
    | none => (r.1, none)
    | some (dom, key) =>
      let t := State.bar2Places fn slot kind rest r.1
      (t.1, t.2.map fun l => (dom, key, p.2) :: l)

/-- Pages of a BAR2 access. -/
def State.bar2Pieces (s : State) (fn off n : Nat) : List (Nat × Nat) :=
  pagePieces (n / 65536 + 2) (((s.fn fn).apbase + BitVec.ofNat 64 off).toNat) n

/-- BAR2_READ. -/
def execBar2Read (fn off n : Nat) (s : State) : Res :=
  .next <|
    match s.phase with
    | .recovery => if fn = 0 then s.tell (.data 0 off (readZ s.rcv.staging off n) false) else s
    | .ready =>
      if !s.presented fn ∨ 2 ^ 36 < off + n ∨ n = 0 then s
      else if s.slotCount fn = 0 then s.countAbort fn off
      else
        let g := (s.fn fn).qbase
        let r := State.bar2Places fn g .read (s.bar2Pieces fn off n) s
        s.orLater <| match r.2 with
        | none => r.1.countAbort fn off
        | some ps =>
          let bytes := ps.flatMap fun p => r.1.readFrame p.2.1 p.1 p.2.2
          let bad := ps.any fun p => r.1.rangePoisoned p.1 p.2.2
          let s := ps.foldl (fun s p => s.askLoc (.frame p.1 p.2.1) p.2.2) r.1
          let s := if bad then s.modTele (s.ownerSlot fn g) fun t => { t with poisc := sat64 (t.poisc + 1) } else s
          s.bump.tell (.data fn off bytes bad)
    | _ => s

/-- BAR2_WRITE: pages that translate are written; in recovery the bytes that lie in the staging window, and no others, are stored (spec/01
R24). -/
def execBar2Write (fn off : Nat) (bytes : List Byte) (poisoned : Bool) (s : State) : Res :=
  .next <|
    match s.phase with
    | .recovery =>
      if fn ≠ 0 ∨ poisoned then s
      else { s with rcv := { s.rcv with staging := writeZ s.rcv.staging off (bytes.take (16777216 - off)) } }
    | .ready =>
      if !s.presented fn ∨ 2 ^ 36 < off + bytes.length then s
      else if poisoned || s.slotCount fn == 0 then s.countDrop fn
      else
        let g := (s.fn fn).qbase
        let r := (s.bar2Pieces fn off bytes.length).foldl (fun (acc : State × Bool × List Byte) p =>
          let w := acc.1.cpWrite fn g p.1 (acc.2.2.take p.2)
          (w.1, acc.2.1 && w.2, acc.2.2.drop p.2)) (s, true, bytes)
        s.orLater (if r.2.1 then r.1 else r.1.countDrop fn)
    | _ => s

/-- HOST_ATOMICOP: completed with Unsupported Request (spec/08 R177). -/
def execHostAtomicop (fn : Nat) (s : State) : Res := .next (if s.phase = .off then s else s.tell (.unsupported fn))

/-! ### The meter (spec/03 R60) -/

/-- One refill of a function. -/
def State.refill (s : State) (fn : Nat) : State :=
  let f := s.fn fn
  if fn = 0 ∨ !f.tbEn then s
  else
    let cap := if f.tbCap = 0 then 4096 else f.tbCap * 1024
    let top := s.pcap * 1024
    let rp := min f.tbRate f.debt
    let pool := min top (s.pool + rp)
    let g := f.tbRate - rp
    let spill := f.tokens + g - cap
    { s.setFn fn { f with debt := f.debt - rp, tokens := min cap (f.tokens + g) } with pool := min top (pool + spill) }

/-- The first copy of a function that may move but for its meter. -/
def State.meterHead (s : State) (fn : Nat) : Option (Nat × EngOp × CopyOp) :=
  s.engs.findSome? fun x =>
    match x.2.kind with
    | .copy c => if x.2.fn == fn && !s.paused c && !s.engWaits x.1 x.2 then some (x.1, x.2, c) else none
    | _ => none

/-- METER_TICK: every function refilled, and those that wait retried in turn. -/
def execMeterTick (s : State) : Res :=
  .next <|
    if s.phase ≠ .ready then s
    else
      let s := s.overtake ((s.time / 1000 + 1) * 1000)
      let waits (f : Nat) : Bool :=
        (s.meterHead f).any fun x => (s.meter f (x.2.2.chunk * s.destCount x.2.2)).isNone
      let order := (natsFrom s.meterStart (65 - s.meterStart) ++ List.range s.meterStart).filter waits
      let s := (List.range 65).foldl State.refill s
      match order with
      | [] => s
      | f :: _ =>
        order.foldl (fun (s : State) k =>
          match s.meterHead k with
          | some (id, e, c) => s.copyChunk id e c
          | none => s) { s with meterStart := (f + 1) % 65 }

/-! ### SPDM (spec/03 R66; log 15) -/

/-- A change of the session of a function, with an answer: its code, and the reason of an ERROR. -/
def State.spdm (s : State) (fn code param : Nat) (f : Spdm → Spdm) : State :=
  if s.phase = .ready ∧ s.presented fn then
    (s.setFn fn { s.fn fn with spdm := f (s.fn fn).spdm }).tell (.spdm fn code param)
  else s

/-- ERROR, with its reason: 0x01 InvalidRequest, 0x04 UnexpectedRequest, 0x07 UnsupportedRequest. -/
def State.spdmError (s : State) (fn reason : Nat) : State := s.spdm fn 0x7F reason id

/-- A request in its place, and one out of it. -/
def State.spdmStep (s : State) (fn code : Nat) (ok : Spdm → Bool) (f : Spdm → Spdm) : State :=
  if ok (s.fn fn).spdm then s.spdm fn code 0 f else s.spdmError fn 0x04

/-- An answer that changes nothing. -/
def State.spdmAnswer (s : State) (fn code : Nat) (ok : Spdm → Bool) : State := s.spdmStep fn code ok id

/-- SPDM_GET_VERSION. -/
def execSpdmGetVersion (fn : Nat) (s : State) : Res := .next (s.spdm fn 0x04 0 fun x => { x with version := true })

/-- SPDM_GET_CAPABILITIES. -/
def execSpdmGetCapabilities (fn : Nat) (s : State) : Res :=
  .next (s.spdmStep fn 0x61 (·.version) fun x => { x with caps := true })

/-- SPDM_NEGOTIATE_ALGORITHMS: `offers` says that the requester offers the device's algorithms. -/
def execSpdmNegotiateAlgorithms (fn : Nat) (offers : Bool) (s : State) : Res :=
  .next (if offers then s.spdmStep fn 0x63 (·.caps) fun x => { x with algs := true } else s.spdmError fn 0x01)

/-- SPDM_GET_DIGESTS. -/
def execSpdmGetDigests (fn : Nat) (s : State) : Res := .next (s.spdmAnswer fn 0x01 (·.algs))

/-- SPDM_GET_CERTIFICATE: slot 0 only. -/
def execSpdmGetCertificate (fn slot : Nat) (s : State) : Res := 
  .next (if slot = 0 then s.spdmAnswer fn 0x02 (·.algs) else s.spdmError fn 0x01)

/-- SPDM_CHALLENGE. -/
def execSpdmChallenge (fn : Nat) (s : State) : Res := .next (s.spdmAnswer fn 0x03 (·.algs))

/-- The measurement block of an index; no other index has one. -/
def State.measurementBlock (s : State) (fn idx : Nat) : Option Nat :=
  let f := s.fn fn
  match idx with
  | 1 => some s.measure
  | 2 => some s.svn
  | 3 => some (s.feato.toNat + (s.bar0 fn 0x10).toNat * 2 ^ 64)
  | 4 => some (f.res0.toNat + f.res1.toNat * 2 ^ 64)
  | 5 => some (Config.sha512 ((List.range 32).map fun d => ((s.dieAt d).hmapWord).toNat))
  | _ => none

/-- SPDM_GET_MEASUREMENTS. -/
def execSpdmGetMeasurements (fn idx : Nat) (s : State) : Res :=
  let t := s.spdmAnswer fn 0x60 (·.algs)
  .next <|
    if s.phase = .ready ∧ s.presented fn ∧ (s.fn fn).spdm.algs then
      match s.measurementBlock fn idx with
      | some v => t.tell (.measurement fn idx v)
      | none => t
    else t

/-- SPDM_KEY_EXCHANGE: a second exchange ends the session before. -/
def execSpdmKeyExchange (fn : Nat) (s : State) : Res :=
  .next (s.spdmStep fn 0x64 (·.algs) fun x => { x with exchanged := true, live := false, session := x.session + 1 })

/-- SPDM_FINISH. -/
def execSpdmFinish (fn : Nat) (s : State) : Res :=
  .next (s.spdmStep fn 0x65 (·.exchanged) fun x => { x with exchanged := false, live := true })

/-- SPDM_HEARTBEAT. -/
def execSpdmHeartbeat (fn : Nat) (s : State) : Res := .next (s.spdmAnswer fn 0x68 (·.live))

/-- SPDM_END_SESSION. -/
def execSpdmEndSession (fn : Nat) (s : State) : Res := .next (s.spdmStep fn 0x6C (·.live) fun x => { x with live := false })

/-- SPDM_UNSUPPORTED_REQUEST: any other request. -/
def execSpdmUnsupportedRequest (fn : Nat) (s : State) : Res := .next (s.spdmError fn 0x07)

end Sys2Proof.Machine
end

