-- ==== Sys2Proof/Machine/Links.lean ====
section
/-!
DEFINITION. Links, flushing reads, requests from other packages and domain time: the events of spec/02 (R31, R35, R37 to R44).
-/

namespace Sys2Proof.Machine

open Sys2Proof

/-! ### Faults of links (spec/02 R39, R41) -/

/-- FLIT_REPLAY: at the eighth replay of one flit in a row the port retrains. -/
def execFlitReplay (r : FlitReplay) (s : State) : Res :=
  let x := s.link (linkNum r.link)
  let n := if r.again then x.consecutive + 1 else 1
  .next (s.setLink (linkNum r.link)
    { x with replay := min 65535 (x.replay + 1), consecutive := n, retraining := x.retraining || decide (8 ≤ n) })

/-- PORT_RETRAIN, where one is due: a failed one is noted, and tried again, up to the third within 1 s. -/
def execPortRetrain (l : LinkId) (ok : Bool) (s : State) : Res :=
  let x := s.link (linkNum l)
  let failed := (x.failed.filter fun t => decide (s.time < t + 1000000000)) ++ [s.time]
  .next <|
    if !x.retraining then s
    else if ok then
      s.setLink (linkNum l) { x with retrn := min 255 (x.retrn + 1), consecutive := 0, retraining := false }
    else
      s.setLink (linkNum l)
        { x with retrn := min 255 (x.retrn + 1), consecutive := 0, retraining := decide (failed.length < 3), failed := failed }

/-- The package with the lowest number that is live is the time master (spec/02 R43). -/
def State.electMaster (s : State) : State :=
  let m := s.peers.all fun n => decide (s.pkg < n)
  { s with master := m, sync := s.sync || m }

/-- Packages that no live plane reaches: copies to or from them end with GONE, accesses to them fail, and each is reported (spec/02 R39,
R40). -/
def State.losePackages (s : State) (lost : List Nat) : State :=
  let gone := s.peers.filter lost.contains
  let s := s.goneEngs fun s _ e => s.engAt e fun dom => gone.contains (dom / 70368744177664)
  let s : State := { s with peers := s.peers.filter (fun n => !lost.contains n) }
  (gone.foldl (fun s n => s.report (.report 3 n [])) s).electMaster

/-- The fibres that a flushing read released issue their word again, with nothing more to flush. -/
def Group.flushDone (g : Group) (id : Nat) : Group :=
  { g with fibres := g.fibres.map fun f =>
      match f.kind with
      | .faultWait l => if l.contains id then { f with flushed := true } else f
      | _ => f }

/-- The trap 0x07 in the lanes of a fibre that awaited a flushing read that failed; each lane's address is that of its releasing write,
and the word issues again after RETT (spec/02 R31; spec/11 R237). -/
def flushTrap (f : Fibre) (fl : Flush) : PendTrap :=
  { fibre := f.id, lanes := f.mask &&& maskOf (fl.addrs.map Prod.fst), cause := 7, tsyn := 1,
    tunit := (lanesOf f.mask).map fun l => (l, fl.addrs.getD l 0),
    tpc := f.at_.pc + BitVec.ofNat 64 (4 * (f.at_.reissue.head?).elim 0 (·.1)), resume := .word,
    word := (f.at_.reissue.head?).elim 0 (·.1) }

/-- The fibres of a group that a flushing read leaves: they go on, or trap. -/
def State.flushGroup (s : State) (gid id : Nat) (fl : Flush) (ok : Bool) : State :=
  if ok then s.setGroup gid ((s.group gid).flushDone id)
  else
    ((s.group gid).fibres.filter fun f => match f.kind with | .faultWait l => l.contains id | _ => false).foldl
      (fun s f => s.takeTrap gid (flushTrap f fl) (flushTrap f fl).lanes f.at_) s

/-- The releasing write of a SIGNAL whose flushing read has completed. -/
def State.signalWrite (s : State) (g : Nat) (w : SlotWork) (f : Flush) : State :=
  if f.host then ({ s with hostMem := writeZ s.hostMem f.addr (leBytes 8 f.value.toNat) }).slotRetire g w
  else
    let r := s.cpWrite f.fn g f.addr (leBytes 8 f.value.toNat)
    if r.2 then r.1.slotRetire g w else r.1.slotFail g w 6

/-- A flushing read ended, whatever waits for it: the fibres parked for it, or the SIGNAL of a queue slot. The writes that it follows
need no other, unless it failed. -/
def State.endFlush (s : State) (id : Nat) (ok : Bool) : State :=
  match s.flushes.get? id with
  | none => s
  | some f =>
    let s : State := { s with flushes := s.flushes.erase id }
    let x := s.fn f.fn
    let s := if ok then s.setFn f.fn { x with posted := x.posted.filter fun p => decide (f.upTo < p.at_) } else s
    let s := f.group.elim s fun gid => s.flushGroup gid id f ok
    f.slot.elim s fun g => if ok then s.signalWrite g (.signal id f.irq f.index) f else s.slotFail g (.signal id f.irq f.index) 6

/-- FLUSH_READ_COMPLETION. Neither the read nor its completion looks at the host link, so a read sent while the link is down completes (spec/02
R31, R41; log 94). -/
def execFlushReadCompletion (id : Nat) (error : Bool) (s : State) : Res := .next (s.orLater (s.endFlush id (!error)))

/-- FLUSH_READ_TIMEOUT: 50 ms have passed. -/
def execFlushReadTimeout (id : Nat) (s : State) : Res := .next (s.endFlush id false)

/-- A port may go down: one of UALink after three failed retrains within 1 s (spec/02 R39). -/
def Link.mayFall (x : Link) (l : LinkId) : Bool :=
  x.up && (match l with | .ualink _ => decide (3 ≤ x.failed.length) | _ => true)

/-- PORT_DOWN. A CXL port that goes down keeps CAPG, and frame space its end (spec/02 R46; spec/07 R146; log 96). -/
def execPortDown (l : LinkId) (lost : List Nat) (s : State) : Res :=
  let n := linkNum l
  let fallen (s : State) : State := s.setLink n { s.link n with up := false, retraining := false, failed := [], consecutive := 0 }
  .next <|
    if !(s.link n).mayFall l then s
    else
      match l with
      | .spoke k =>
        if h : k.val < 32 then (fallen s).resetDie k.val else (fallen s).resetMem ⟨k.val - 32, by omega⟩
      | .host => (s.flushes.map (·.1)).foldl (fun s id => s.endFlush id false) (fallen s)
      | .cxl p => ((fallen s).losePlace (.cxl p)).1
      | .ualink k =>
        let others := (List.range 24).any fun p => p != k.val && (s.link (57 + p)).up
        fallen (s.losePackages (if others then lost else s.peers))

/-- CXL_POISON_RESPONSE: the unit read is poisoned, and charged. -/
def execCxlPoisonResponse (pa : Nat) (s : State) : Res :=
  .next <|
    match s.placed.get? (pa / 65536) with
    | some (.cxl _) => s.poisonUnits [s.dom pa / 32]
    | _ => s

/-! ### Requests from another package (spec/02 R37 to R39; spec/07 R152) -/

/-- A frame that another package is the first to access rests on the first stack with room (spec/07 R147; log 14); one that moves, or whose
die is in reset, is waited for (R148; spec/01 R26). -/
def State.remotePlace (s : State) (frame : Nat) : State :=
  let room := s.roomyStacks
  if s.frameWaits frame then { s with stalled := true }
  else if (s.placed.get? frame).isSome then s
  else
    match s.upPlace frame room with
    | some p => { s with placed := s.placed.put frame p }
    | none => if room.isEmpty then s else { s with stalled := true }

/-- A request served at home under the global key slot named. An atomic's tag is looked up by its number alone, not by the package that sent
it (spec/02 R38, R39; log 93). -/
def State.serveRemote (s : State) (slot a : Nat) (r : RemoteReq) : State :=
  match r with
  | .read n => ((s.homeRead true slot a n).send (.reply (s.readFrame slot a n) (s.rangePoisoned a n))).bump
  | .write bs => s.homeWrite slot a bs
  | .clean => s.cleanLine (lineOf a)
  | .fetch => (s.evictOther slot (lineOf a)).touchRange slot (lineOf a * 128) 128 false
  | .atomic tag op wd x e =>
    let n := if wd then 8 else 4
    match s.remoteTags.get? tag with
    | some old => s.send (.reply (leBytes n old.toNat) false)
    | none =>
      if s.rangePoisoned a n then (s.homeRead true slot a n).send (.reply (s.readFrame slot a n) true)
      else
        let m := leNat (s.readFrame slot a n)
        let y := atomNew op wd m (if op = .cas then e.toNat else x.toNat) x.toNat
        let s := ((s.evictRange a n).homeRead true slot a n).send (.reply (leBytes n m) false)
        let s := s.bump.homeWrite slot a (leBytes n y)
        { s with remoteTags := s.remoteTags.put tag (BitVec.ofNat 64 m) }

/-- REMOTE_REQUEST: served at home; an atomic is performed at most once for its tag, and a repeated request gets the same answer. -/
def execRemoteRequest (slot pa : Nat) (r : RemoteReq) (s : State) : Res :=
  .next (if s.frameEnd ≤ pa ∨ s.phase ≠ .ready then s
    else s.orLater (let s := s.remotePlace (pa / 65536); if s.stalled then s else s.serveRemote slot (s.dom pa) r))

/-! ### Domain time (spec/02 R42, R43) -/

/-- The time master of the domain, for a package that is not it (spec/02 R43). -/
def State.masterOf (s : State) : Option Nat := if s.master then none else (sortBy id s.peers).head?

/-- TIME_EXCHANGE: a timestamp goes to the master; the count rate is corrected by at most 200 ppm; %time never steps. -/
def execTimeExchange (ppm : Int) (ns : Nat) (s : State) : Res :=
  let s := s.masterOf.elim s fun n => s.send (.time n)
  .next { s.overtake (s.time + ns) with ppm := clampInt (-200) 200 ppm, exchTime := s.time + ns, sync := true }

/-- SYNC_LOSS: no exchange for 2 ms; the package counts on its own oscillator. -/
def execSyncLoss (s : State) : Res :=
  .next (if s.master || decide (s.time < s.exchTime + 2000000) then s else { s with sync := false, ppm := 0 })

/-- Addresses of one package's memory moved to another package number, `n` to a unit of the table. -/
def renumber {V : Type} (t : Tab V) (unit old new : Nat) : Tab V :=
  let per := 70368744177664 / unit
  t.foldl (fun m e => if e.1 / per = old then m.put (new * per + e.1 % per) e.2 else m.put e.1 e.2) []

/-- The same for a set of numbers. -/
def renumberSet (t : NatSet) (unit old new : Nat) : NatSet :=
  let per := 70368744177664 / unit
  t.foldl (fun m u => if u / per = old then NatSet.add m (new * per + u % per) else NatSet.add m u) []

/-- Packages that come back to the domain of a package, and with them the UALink ports that trained at boot (spec/02 R39, R40; log 92). -/
def State.regainPackages (s : State) (peers : List Nat) : State :=
  let port (e : Nat × Link) : Nat × Link := if 57 ≤ e.1 then (e.1, { e.2 with up := e.2.up || e.2.trained }) else e
  ({ s with peers := (peers.filter (fun n => n != s.pkg)).foldl NatSet.add s.peers, links := s.links.map port }).electMaster

/-- DOMAIN_JOIN: only while no launch is resident; %time is set once to the domain's time. The caches, whose lines domain addresses tag, are
written back. In a domain already, under its own number, the package sees others come back, whatever is resident and with no step of %time
(spec/02 R40, R42; log 92). LASTS counts from the join until the first exchange is complete (spec/02 R44; log 95). -/
def execDomainJoin (pkg npkg time : Nat) (peers : List Nat) (s : State) : Res :=
  .next <|
    if s.phase ≠ .ready ∨ 1024 ≤ pkg then s
    else if s.npkg ≠ 0 ∧ pkg = s.pkg then s.regainPackages peers
    else if !s.insts.isEmpty then s
    else
      let p := s.pkg
      let s : State :=
        { s with
          pkg := pkg, npkg := npkg % 1024, time := time, exchTime := time, sync := false,
          peers := (peers.filter (fun n => n != pkg)).foldl NatSet.add [],
          mem := renumber s.mem 1 p pkg, units := renumber s.units 32 p pkg,
          poison := renumberSet (s.poison.filter fun u => !s.struckAt u) 32 p pkg, healed := renumberSet s.healed 32 p pkg,
          lost := renumberSet s.lost 65536 p pkg, dir := [], sectors := [],
          cores := s.cores.map (fun e => (e.1, { e.2 with l1 := [] })) }
      s.electMaster

end Sys2Proof.Machine
end

