-- ==== Sys2Proof/Machine/Products.lean ====
section
/-!
DEFINITION. Events of the engines and the rail: chunks of copies, near-memory products, the command queue (spec/17 R366), the rail
(spec/01 R18), accumulator moves (spec/17 R378, R379), tile products with their check, retries and thatcher (spec/09 R190 to R214),
and audits (spec/09 R206 to R208).
-/

namespace Sys2Proof.Machine

open Sys2Proof

/-- COPY_CHUNK. -/
def execCopyChunk (op : Nat) (s : State) : Res :=
  .next <|
    match s.engs.get? op with
    | some e =>
      match e.kind with
      | .copy c => s.copyChunk op e c
      | _ => s
    | none => s

/-- NMV_COMPLETION. -/
def execNmvCompletion (op : Nat) (s : State) : Res :=
  .next <|
    match s.engs.get? op with
    | some e =>
      match e.kind with
      | .nmv n => s.nmvStep op e n
      | _ => s
    | none => s

/-- A refused entry accepted by its queue. -/
def State.acceptEntry (s : State) (core id : Nat) (rest : List Nat) : State :=
  let c := s.coreAt core
  let s := s.setCore core { c with queue := c.queue ++ [id], refused := rest, backoff := if rest.isEmpty then 0 else 64 }
  match s.engs.get? id with
  | some e => s.setEng id { e with started := true }
  | none => s

/-- ENGINE_QUEUE_RESEND: the oldest refused entry is sent again (spec/17 R366). -/
def execEngineQueueResend (c : CoreId) (s : State) : Res :=
  let k := 36 * c.die.val + c.core.val
  let x := s.coreAt k
  .next <|
    match x.refused with
    | [] => s
    | id :: rest =>
      if x.queue.length < 32 then s.acceptEntry k id rest else s.setCore k { x with backoff := min 1024 (2 * x.backoff) }

/-- The rail one code nearer to the command. -/
def Core.slew (c : Core) : Core :=
  if c.vcur < c.vcmd then { c with vcur := c.vcur + 1 }
  else if c.vcmd < c.vcur then { c with vcur := c.vcur - 1 }
  else c

/-- RAIL_SLEW_STEP: one step of 5 mV (spec/01 R18). -/
def execRailSlewStep (c : CoreId) (s : State) : Res :=
  let k := 36 * c.die.val + c.core.val
  .next (if (s.cores.get? k).isSome then s.setCore k (s.coreAt k).slew else s)

/-! ### Marks of an engine operation on its flag -/

/-- A change of the fibres that hold an operation. -/
def State.modHolders (s : State) (e : EngOp) (f : Fibre → Fibre) : State :=
  let g := s.group e.group
  if g.ended then s
  else s.setGroup e.group { g with fibres := g.fibres.map fun x => if e.holders.contains x.id then f x else x }

/-- A poison mark of every lane on the operation's flag, and POISC (spec/17 R377; spec/11 R243). -/
def State.engMarked (s : State) (e : EngOp) (unit : Nat) : State :=
  let s := s.engPoison e
  e.flag.elim s fun n =>
    s.modHolders e fun f => f.marked n ((List.range 32).map fun l => (l, BitVec.ofNat 64 unit))

/-- A failure mark on a flag, joined to the mark that stands there (spec/09 R200, R201). -/
def Fibre.failed (f : Fibre) (flag : Nat) (k : FailMark) : Fibre := { f with fail := addFail f.fail [(flag, k)] }

/-! ### Accumulator moves -/

/-- A tile image of bytes. -/
def imageTile (bs : List Byte) : Tab W32 :=
  (List.range 4096).foldl (fun t k => t.set 0 k (BitVec.ofNat 32 (leNat ((bs.drop (4 * k)).take 4)))) ([] : Tab W32)

/-- The bytes of a tile image (spec/17 R379). -/
def tileBytes (t : Tab W32) : List Byte := (List.range 4096).flatMap fun k => leBytes 4 (t.getD k 0).toNat

def State.tile (s : State) (t k : Nat) : Tab W32 := (s.team t).tiles.getD k []

def State.setTile (s : State) (t k : Nat) (x : Tab W32) : State :=
  s.setTeam t { s.team t with tiles := (s.team t).tiles.put k x }

/-- The registers that a fragment writes: rows 16q to 16q + 15 to the 32 registers of each lane of a mask. -/
def fragmentWrites (x : Tab W32) (base q : Nat) (m : Mask) : List GWrite :=
  (lanesOf m).flatMap fun l =>
    let p := fragmentPlace q l
    (List.range 32).map fun k => .v l (base + k) (x.getD (64 * p.1 + p.2 + k) 0)

/-- The effect of a move. -/
def State.moveDone (s : State) (e : EngOp) : AccMove → State
  | .zero t => s.setTile e.team t []
  | .load t space off =>
    let r := s.engBytes e space off 16384
    match r.2 with
    | some a => s.engMarked e a
    | none => s.bump.setTile e.team t (imageTile r.1)
  | .store t space off kept => s.engWrite e space 16385 off (tileBytes (kept.getD (s.tile e.team t)))
  | .read t base q =>
    let g := s.group e.group
    if g.ended then s else s.setGroup e.group (g.writes (fragmentWrites (s.tile e.team t) base q (allLanes &&& ~~~e.without)))
  | .write t q image =>
    s.setTile e.team t
      ((natsFrom (1024 * q) 1024).foldl (fun (x : Tab W32) k => x.set 0 k (image.getD k 0)) (s.tile e.team t))

/-- ACCUMULATOR_MOVE_COMPLETION. -/
def execAccumulatorMoveCompletion (op : Nat) (s : State) : Res :=
  .next <|
    match s.engs.get? op with
    | some e =>
      match e.kind with
      | .move a => if s.engWaits op e then s else (s.moveDone e a).dropEng op
      | _ => s
    | none => s

/-! ### The operands of a tile product (spec/17 R375, R376) -/

/-- The scale entry of element `k` of a line, with the poisoned unit that its read met. -/
def State.gtScale (s : State) (e : EngOp) (fmt : MmaFmt) (d : BitVec 256) (l k : Nat) : List Byte × Option Nat :=
  if mmaScaled fmt then s.engBytes e .virt (scaleAddr fmt d l (k / groupLen fmt d)) (if fmt = .e2m1 then 1 else 4) else ([], none)

/-- An element of a line of a tensor, with the poisoned unit that its read met. One that is not stored reads as zero; in a group that the
line's end cuts it has the group's scale (spec/09 R192; spec/17 R370). -/
def State.gtElem (s : State) (e : EngOp) (fmt : MmaFmt) (d : BitVec 256) (l k : Nat) : Elem × Option Nat :=
  let nib := mmaNibble fmt
  let p := dPlace d l k
  let g0 := k / groupLen fmt d * groupLen fmt d
  if dInside d nib p.1 p.2 then
    let r := s.engBytes e .virt (dAddr d nib p.1 p.2) (dWidth d)
    let raw := if nib then leNat r.1 / 16 ^ (p.2 % 2) % 16 else leNat r.1
    let sc := s.gtScale e fmt d l k
    (elemOf fmt raw (k / groupLen fmt d) (leNat sc.1), r.2.orElse fun _ => sc.2)
  else if mmaGrouped fmt && dInside d nib (dPlace d l g0).1 (dPlace d l g0).2 then
    ({ Elem.zero with grp := k / groupLen fmt d, scale := entScale (leNat (s.gtScale e fmt d l k).1) }, none)
  else ({ Elem.zero with grp := k / groupLen fmt d }, none)

/-- Line `i` of an operand; an inactive one reads zero (spec/09 R193). -/
def State.mmaLine (s : State) (e : EngOp) (m : MmaOp) (isA : Bool) (i : Nat) : List Elem × Option Nat :=
  let n := mmaDepth m.fmt
  if !(if isA then m.rows else m.cols).getLsbD i then (List.replicate n Elem.zero, none)
  else if m.gt then
    let l := 64 * (if isA then m.i else m.j) + i
    let es := (natsFrom (m.kk * n) n).map (s.gtElem e m.fmt (if isA then m.aDesc else m.bDesc) l)
    (es.map (·.1), es.findSome? (·.2))
  else if isA && !m.regs.isEmpty then (lineElems m.fmt ((m.regs.drop (64 * i)).take 64), none)
  else
    let r := s.engBytes e m.space ((if isA then m.aOff else m.bOff) + 64 * i) 64
    (lineElems m.fmt r.1, r.2)

/-- The operands of a product, and the first poisoned unit met: every attempt runs on those fetched once (spec/17 R376). -/
def State.mmaOperands (s : State) (e : EngOp) (m : MmaOp) : Operands × Option Nat :=
  match m.fetched with
  | some o => (o, none)
  | none =>
    let a := (List.range 64).map (s.mmaLine e m true)
    let b := (List.range 64).map (s.mmaLine e m false)
    ({ fmt := m.fmt, rows := m.rows, cols := m.cols, a := a.map (·.1), b := b.map (·.1) }, (a ++ b).findSome? (·.2))

/-- The elements along the lines of a descriptor operand that a product takes, line by line. -/
def MmaOp.lines (m : MmaOp) (d : BitVec 256) (mask : Word) (first : Nat) : List (Nat × Nat) :=
  let n := mmaDepth m.fmt
  ((activeLines mask first).flatMap fun l => (natsFrom (m.kk * n) n).map fun k => (l, k)).filter fun p =>
    dInside d (mmaNibble m.fmt) (dPlace d p.1 p.2).1 (dPlace d p.1 p.2).2

/-- The scale entries of a descriptor operand that a product takes. -/
def MmaOp.scales (m : MmaOp) (d : BitVec 256) (mask : Word) (first : Nat) : NatSet :=
  if mmaScaled m.fmt then ((m.lines d mask first).map fun p => scaleAddr m.fmt d p.1 (p.2 / groupLen m.fmt d)).foldl NatSet.add [] else []

/-- An address on each page that the descriptor operands of a product touch. -/
def MmaOp.pages (m : MmaOp) : List Nat :=
  if !m.gt then []
  else
    let one (d : BitVec 256) (mask : Word) (first : Nat) : List Nat :=
      (activeLines mask first).flatMap (lineAddrs m.fmt d m.kk)
    firstOnPages (one m.aDesc m.rows (64 * m.i) ++ one m.bDesc m.cols (64 * m.j))

/-- What keeps a product from fetching its operands: a frame that moves, is not placed or rests where its entry forbids, or a die in reset. A
service that is needed is started (spec/07 R147, R148; spec/01 R26). -/
def State.mmaBarred (s : State) (e : EngOp) (m : MmaOp) : Option State :=
  if m.fetched.isSome then none
  else
    m.pages.findSome? fun a =>
      let t := s.walked e.core e.fn e.slot a
      match s.translate e.core e.fn e.slot a .read with
      | .stall => some t
      | .place f x => some (t.serve e.fn e.slot a (.place f x)).1
      | _ => none

/-! ### What an attempt delivers (spec/09 R213, R214) -/

/-- What the fetches of a product's descriptor operands do outside the engine: rows of a tensor, or element columns of a transposed one. -/
def State.mmaFetch (s : State) (e : EngOp) (m : MmaOp) : State :=
  if m.gt && m.fetched.isNone then
    let one (s : State) (d : BitVec 256) (mask : Word) (first : Nat) : State :=
      (m.scales d mask first).foldl (fun s a => s.askRange true e.core e.fn e.slot a (if m.fmt = .e2m1 then 1 else 4))
        (s.fetchElems e.core e.fn e.slot d (mmaNibble m.fmt) (dTrans d) ((m.lines d mask first).map fun p => dPlace d p.1 p.2))
    one (one s m.aDesc m.rows (64 * m.i)) m.bDesc m.cols (64 * m.j)
  else s

/-- An element takes part in a product. -/
def Operands.active (o : Operands) (i j : Nat) : Bool := o.rows.getLsbD i && o.cols.getLsbD j

/-- The elements that the array itself delivers wrong; the errors of an element of a q product are in its runs (spec/09 R192). -/
def Operands.realWrongs (o : Operands) (errs : List ArrayError) : List Wrong :=
  errs.foldl (fun (w : List Wrong) x =>
    let i := x.row.val
    let j := x.col.val
    if !o.active i j then w
    else if mmaGrouped o.fmt then
      let rs := o.runs i j
      let old := ((w.find? fun y => y.at_ i j).bind (·.sums)).getD (rs.map (·.2.2))
      let ns := old.set x.run (signedOf 32 x.image.toNat)
      { row := i, col := j, terms := (rs.zip ns).map fun r => runTerm r.1 r.2, sums := some ns } :: without w i j
    else if w.any fun y => y.at_ i j then w
    else w ++ [{ row := i, col := j, terms := [imageTerm o.fmt x.image.toNat] }]) []

/-- An entry of the script selects an attempt of product `n`. -/
def ScriptEntry.selects (x : ScriptEntry) (m : MmaOp) (n : Nat) : Bool :=
  x.seq == n &&
    (if m.escalating then x.vg else x.tries.getLsbD m.tries && (m.mode != .exact || x.vg))

/-- The errors of an attempt with those that the selected entries inject. -/
def Operands.inject (o : Operands) (xs : List ScriptEntry) (w : List Wrong) : List Wrong :=
  xs.foldl (fun (w : List Wrong) x =>
    if o.active x.row x.col then
      { row := x.row, col := x.col,
        terms := [imageTerm o.fmt (pImage o.fmt (o.p w x.row x.col) ^^^ 2 ^ x.bit)] } :: without w x.row x.col
    else w) w

/-! ### The thatcher (spec/09 R204) -/

/-- event(1). -/
def Core.event (c : Core) : Core := { c with e := min 4095 (c.e + 1) }

/-- escalate(): 10 mV are two codes. -/
def Core.escalate (c : Core) : Core :=
  let v := min c.vg (max c.v c.vfloor + 2)
  { c with v := v, vfloor := v }

/-- V after a window: 5 mV are one code. -/
def Core.adjusted (c : Core) (a b q : Nat) : Nat :=
  if b < a then min c.vg (c.v + (a - b + q - 1) / q) else if a < b then max c.vfloor (c.v - 1) else c.v

/-- The completion of a checked or tolerant product. A new V goes to the rail unless an exact word holds it at Vg (R202). -/
def Core.counted (c : Core) : Core :=
  let w := max 4 (min 256 c.w)
  let q := if c.q = 0 then 1 else c.q
  if c.n + 1 < w then { c with n := c.n + 1 }
  else
    let v := c.adjusted (c.e * q) (w * c.p) q
    { c with v := v, e := 0, n := 0, vcmd := if c.holdVg then c.vcmd else v }

/-- A change of the core of an operation. -/
def State.modCore (s : State) (c : Nat) (f : Core → Core) : State := s.setCore c (f (s.coreAt c))

/-! ### Mismatches at Vg (spec/09 R211) -/

/-- 2^30 cycles of a core in ns. -/
def State.vgWindow (s : State) (c : Nat) : Nat := 1073741824 * 1000 / max 1 (s.dieAt (dieOf c)).clock

/-- A mismatch at Vg counted; the ninth within 2^30 cycles marks the core degraded. -/
def State.vgMismatch (s : State) (c : Nat) : State :=
  let s := s.countDie (dieOf c) 10
  let x := s.coreAt c
  let l := (x.vgMismatch.filter fun t => decide (s.time < t + s.vgWindow c)) ++ [s.time]
  let s := s.setCore c { x with vgMismatch := l }
  if 9 ≤ l.length then s.degrade c else s

/-! ### The ends of a product (spec/09 R199, R200) -/

/-- The check record (spec/17 R373). -/
def checkRecord (m : MmaOp) (unl fail : Bool) (vcode : Nat) : Word :=
  BitVec.ofNat 64 (m.mode.code + 4 * m.tries + 32 * bnat m.corrected + 64 * bnat unl + 128 * bnat m.escalating
    + 256 * bnat fail + 4096 * mmaCode m.fmt + 65536 * vcode)

/-- The check record of a product that met poison. -/
def poisonRecord (m : MmaOp) : Word := BitVec.ofNat 64 (m.mode.code + 512 + 4096 * mmaCode m.fmt)

def State.setCheck (s : State) (e : EngOp) (m : MmaOp) (x : Word) : State :=
  s.setTeam e.team { s.team e.team with checks := (s.team e.team).checks.put m.tile x }

/-- %ttile of R201 for some rows and columns. -/
def tileSyn (m : MmaOp) (rows cols : List Nat) : Word :=
  BitVec.ofNat 64 (m.tile + 2 ^ 8 * rows.length + 2 ^ 16 * cols.length + 2 ^ 24 * rows.headD 0 + 2 ^ 32 * cols.headD 0
    + 2 ^ 40 * mmaCode m.fmt)

/-- Bits 56:0 of an address. -/
def addrBits (a : Word) : Nat := a.toNat % 2 ^ 57

/-- The mark of a product that failed. -/
def failMark (id : Nat) (e : EngOp) (m : MmaOp) (v : Verdict) : FailMark :=
  { tsyn := BitVec.ofNat 64 (addrBits m.addr + 2 ^ 57 * m.mode.code + 2 ^ 59 * m.tries + 2 ^ 62 * bnat m.escalating),
    tunit := BitVec.ofNat 64 (Config.unitId e.core % 2 ^ 32), ttile := tileSyn m v.rows v.cols, ops := [id] }

/-- The count of a completed product that is not exact. -/
def State.thatched (s : State) (e : EngOp) (m : MmaOp) : State :=
  if m.mode = .exact then s else s.modCore e.core Core.counted

/-- A failed product noted in its group until a header waits on its mark; of a group that has ended it is reported (spec/09 R200). -/
def State.noteFailed (s : State) (id : Nat) (e : EngOp) : State :=
  let g := s.group e.group
  if g.ended then s.report (.report 7 e.core [id]) else s.setGroup e.group { g with failed := g.failed.add id }

/-- fail(). -/
def State.mmaFail (s : State) (id : Nat) (e : EngOp) (m : MmaOp) (v : Verdict) : State :=
  let s := s.tally e .sdet
  let s := s.setCheck e m (checkRecord m false true (s.coreAt e.core).vcur)
  let s := e.flag.elim s fun n => s.modHolders e fun f => f.failed n (failMark id e m v)
  ((s.noteFailed id e).thatched e m).dropEng id

/-- The enabled cores of a die other than `c`. -/
def State.otherCores (s : State) (c : Nat) : List Nat :=
  (List.range 36).filterMap fun k =>
    let n := 36 * dieOf c + k
    if (s.dieAt (dieOf c)).en.getLsbD k && n != c then some n else none

/-- The cores that may replay a product of `c`: the other enabled ones of its die that are not degraded (spec/09 R207). -/
def State.replayers (s : State) (c : Nat) : List Nat := (s.otherCores c).filter fun k => !(s.coreAt k).degraded

/-- The device may sample an accepted product: AUDIT accepted, the auditor on, and a core to replay it (spec/09 R206, R207). -/
def State.auditable (s : State) (e : EngOp) : Bool :=
  s.accepted e.fn 7 && (s.fn e.fn).audit != 0 && !(s.replayers e.core).isEmpty

/-- The auditor's log of a die, 256 register fragments of 4 KiB, has no room. -/
def State.logFull (s : State) (d : Nat) : Bool :=
  decide (256 ≤ (s.engs.filter fun e => dieOf e.2.core == d &&
    (match e.2.kind with | .mma m => m.audited && !m.regs.isEmpty | _ => false)).length)

/-- The core that is to replay a product of `c`: the device's choice (spec/09 R207). -/
def State.replayCore (s : State) (c : Nat) : Nat :=
  let l := s.replayers c
  l.getD (Config.freeNat s.free 1 % max 1 l.length) c

/-- A product over: it ends, or goes on as an audit that keeps its locks and holds no flag, with the `ps` that it was accepted with
(spec/09 R207). -/
def State.mmaOver (s : State) (id : Nat) (e : EngOp) (m : MmaOp) (ps : List FVal) (sampled : Bool) : State :=
  if !sampled || !s.auditable e then s.dropEng id
  else if !m.regs.isEmpty && s.logFull (dieOf e.core) then (s.countDie (dieOf e.core) 9).dropEng id
  else
    let c := s.coreAt e.core
    ((s.setCore e.core { c with queue := c.queue.filter fun q => q != id }).setEng id
      { e with kind := .mma { m with audited := true, fetched := none, ps := ps, replay := s.replayCore e.core }, flag := none,
               holders := [] }).bump

/-- A product accepted with the terms of `w`: the tile, the %fpsr flags, the record, the thatcher's count, the flag. -/
def State.mmaAccept (s : State) (id : Nat) (e : EngOp) (m : MmaOp) (o : Operands) (w : List Wrong) (unl sampled : Bool) :
    State :=
  let r := o.accumulate w (s.tile e.team m.tile)
  let s := s.setTile e.team m.tile r.1
  let g := s.group e.group
  let s := if g.ended then s else s.setGroup e.group (g.write (.flags r.2))
  let s := s.setCheck e m (checkRecord m unl false (s.coreAt e.core).vcur)
  (s.thatched e m).mmaOver id e m (o.ps w) (sampled && !unl)

/-- A product whose array does not run (spec/17 R377). -/
def State.mmaPoison (s : State) (id : Nat) (e : EngOp) (m : MmaOp) (unit : Nat) : State :=
  ((s.setCheck e m (poisonRecord m)).engMarked e unit).dropEng id

/-! ### An attempt (spec/09 R199) -/

/-- The product goes on to another run of its array. -/
def State.mmaAgain (s : State) (id : Nat) (e : EngOp) (m : MmaOp) : State := s.setEng id { e with kind := .mma m }

/-- What follows an attempt that is not clean and that no correction made clean. -/
def State.mmaRetry (s : State) (id : Nat) (e : EngOp) (m : MmaOp) (o : Operands) (w : List Wrong) (v : Verdict) : State :=
  if m.mode = .tolerant then (s.tally e .unlacc).mmaAccept id e m o w true false
  else if m.tries < m.limit then
    let s := s.tally e .reiss
    let s := if m.mode = .checked then s.modCore e.core Core.event else s
    s.mmaAgain id e { m with tries := m.tries + 1 }
  else if m.mode = .checked then s.mmaAgain id e { m with escalating := true }
  else s.mmaFail id e m v

/-- A locatable attempt of a region that is not exact: the element is recomputed, and the check is made again (spec/09 R196). -/
def State.mmaCorrect (s : State) (id : Nat) (e : EngOp) (m : MmaOp) (o : Operands) (w : List Wrong) (i j : Nat)
    (sampled : Bool) : State :=
  let s := (s.tally e .corr).modCore e.core Core.event
  let m := { m with corrected := true }
  let w := without w i j
  let v := o.check w
  match v.outcome with
  | .clean => s.mmaAccept id e m o w false sampled
  | _ => s.mmaRetry id e m o w v

/-- The outcome of a run of the array with the errors `w`. -/
def State.mmaOutcome (s : State) (id : Nat) (e : EngOp) (m : MmaOp) (o : Operands) (w : List Wrong) (sampled : Bool) : State :=
  let v := o.check w
  if m.escalating then
    let s := (s.tally e .escal).modCore e.core Core.escalate
    match v.outcome with
    | .clean => s.mmaAccept id e m o w false sampled
    | _ => s.mmaFail id e m v
  else
    match v.outcome with
    | .clean => s.mmaAccept id e m o w false sampled
    | .locatable i j =>
      if m.mode = .exact then s.mmaRetry id e m o w v else s.mmaCorrect id e m o w i j sampled
    | .unlocatable => s.mmaRetry id e m o w v

/-- The array runs once. -/
def State.mmaRun (s : State) (id : Nat) (e : EngOp) (m : MmaOp) (o : Operands) (errs : List ArrayError) (sampled : Bool) :
    State :=
  let c := s.coreAt e.core
  let n := m.seq.getD c.scriptSeq
  let s := if m.seq.isSome then s else s.setCore e.core { c with scriptSeq := c.scriptSeq + 1 }
  let m := { m with seq := some n }
  let real := o.realWrongs errs
  let w := o.inject (c.script.filter fun x => x.selects m n) real
  let s := s.bump.tally e (if c.vcur = c.vg then .tpvg else .tplow)
  let s := if c.vcur = c.vg ∧ (o.check real).outcome ≠ .clean then s.vgMismatch e.core else s
  s.mmaOutcome id e m o w sampled

/-- Another product of the core waits for Vg at the head of the engine (spec/09 R202). -/
def State.behindHead (s : State) (id : Nat) (e : EngOp) : Bool :=
  s.engs.any fun x => x.1 != id && x.2.core == e.core && match x.2.kind with
    | .mma m => m.head
    | _ => false

/-- TILE_PRODUCT_ATTEMPT_END of a product that may run: an exact one, and an escalation run, command Vg and wait for it at the head; another
commands V and runs (spec/09 R202). -/
def State.mmaStep (s : State) (id : Nat) (e : EngOp) (m : MmaOp) (errs : List ArrayError) (sampled : Bool) : State :=
  match s.mmaBarred e m with
  | some t => t
  | none =>
    let r := s.mmaOperands e m
    let s := (s.mmaFetch e m).bump
    match r.2 with
    | some a => s.mmaPoison id e m a
    | none =>
      let m := { m with fetched := some r.1, head := false }
      let s := s.setEng id { e with kind := .mma m }
      if m.mode = .exact ∨ m.escalating then
        let s := s.modCore e.core fun c => { c with vcmd := c.vg, holdVg := true }
        if (s.coreAt e.core).vcur = (s.coreAt e.core).vg then s.mmaRun id e m r.1 errs sampled
        else s.setEng id { e with kind := .mma { m with head := true } }
      else (s.modCore e.core fun c => { c with vcmd := c.v, holdVg := false }).mmaRun id e m r.1 errs sampled

/-- TILE_PRODUCT_ATTEMPT_END. -/
def execTileProductAttemptEnd (op : Nat) (errs : List ArrayError) (sampled : Bool) (s : State) : Res :=
  .next <|
    match s.engs.get? op with
    | some e =>
      match e.kind with
      | .mma m => if m.audited || s.engWaits op e || s.behindHead op e then s else s.mmaStep op e m errs sampled
      | _ => s
    | none => s

/-! ### Audits (spec/09 R207, R208) -/

/-- The active elements whose p differ between a product as it was accepted and its replay, in which the array delivers the errors
`errs` (spec/09 R207; log 71). -/
def MmaOp.differs (m : MmaOp) (o : Operands) (errs : List ArrayError) : List (Nat × Nat) :=
  ((o.places.zip (m.ps.zip (o.ps (o.realWrongs errs)))).filter fun x => !x.2.1.same x.2.2).map (·.1)

/-- The mark of a mismatched audit in the elements `xs`. -/
def auditMark (e : EngOp) (m : MmaOp) (xs : List (Nat × Nat)) : FailMark :=
  let rows := (xs.map (·.1)).foldl NatSet.add []
  let cols := (xs.map (·.2)).foldl NatSet.add []
  { tsyn := BitVec.ofNat 64 (addrBits m.addr),
    tunit := BitVec.ofNat 64 (Config.unitId e.core % 2 ^ 32 + 2 ^ 32 * (Config.unitId m.replay % 2 ^ 32)),
    ttile := tileSyn m rows cols }

/-- A mismatched audit counted and handed to the issuing group, or reported to the driver of the physical function. -/
def State.auditMiss (s : State) (e : EngOp) (m : MmaOp) (xs : List (Nat × Nat)) : State :=
  let mark := auditMark e m xs
  let s := s.tally e .audmm
  let g := s.group e.group
  if (s.groups.get? e.group).isNone || g.ended || (s.team e.team).ended then s.report (.report 5 e.core [])
  else s.setGroup e.group { g with due := g.due ++ [.audit mark] }

/-- AUDIT_END: the product is replayed from its logged operands, in which replay the array delivers the errors `errs`, and the p of the two
sides are compared. -/
def execAuditEnd (op : Nat) (errs : List ArrayError) (s : State) : Res :=
  .next <|
    match s.engs.get? op with
    | some e =>
      match e.kind with
      | .mma m =>
        if !m.audited then s
        else
          match s.mmaBarred e m with
          | some t => t
          | none =>
            let xs := m.differs (s.mmaOperands e m).1 errs
            let s := ((s.mmaFetch e m).bump.countDie (dieOf e.core) 8).dropEng op
            if xs.isEmpty then s else s.auditMiss e m xs
      | _ => s
    | none => s

/-- What falls due next in a group that stands at a clause boundary (spec/09 R208; spec/11 R254), with the fibre that takes it: the one of
the lowest live lane for an audit mismatch, of which a boundary delivers one, and which waits while that lane is in a trap fibre
(spec/11 R244), and the parked one of the lowest lane for a progress timeout, which waits for no mismatch. -/
def State.nextDue (s : State) (gid : Nat) : Option (Due × Option Fibre) :=
  let g := s.group gid
  let t := s.team g.team
  let issuing := s.quarters.any fun q => match q.2.issue with | some it => it.group == gid | none => false
  let lowest (l : List Fibre) : Option Fibre := (sortBy (fun f => lowLane f.mask) l).head?
  let audit : Option (Due × Option Fibre) :=
    match g.due with
    | .audit k :: _ => if g.served then none else (lowest g.fibres).bind fun f => if f.trap.isSome then none else some (.audit k, some f)
    | _ => none
  if g.ended || t.ended || t.stopped || issuing then none
  else audit.orElse fun _ =>
    if g.due.contains .timeout then some (.timeout, lowest (g.fibres.filter Fibre.isParked)) else none

/-- The audit-mismatch trap in every lane of a fibre; a parked one leaves its wait for the clause after it, which it would have run next
(spec/09 R208; log 32). -/
def State.auditTrap (s : State) (group : Nat) (f : Fibre) (k : FailMark) : State :=
  let f' := match f.kind with | .parked _ => f.wake | _ => f
  let s := s.modFibre group f.id fun _ => f'
  (s.takeTrap group
    { fibre := f.id, lanes := f.mask, cause := 15, tsyn := k.tsyn, tunit := (lanesOf f.mask).map fun l => (l, k.tunit),
      ttile := k.ttile, tpc := f'.at_.pc, resume := .clause f'.at_.pc, word := 0 } f.mask f'.at_).settleGroup group

/-- What is due next in a group delivered. A timeout whose wait has ended since does nothing. -/
def State.deliverDue (s : State) (group : Nat) : State :=
  match s.nextDue group with
  | none => s
  | some (d, f) =>
    let g := s.group group
    let s := s.setGroup group { g with due := g.due.erase d, served := g.served || d != .timeout }
    match d, f with
    | .audit k, some f => s.auditTrap group f k
    | .timeout, some f => s.expire group f
    | _, none => s

/-- AUDIT_MISMATCH_TRAP: what is due in the group is delivered. -/
def execAuditMismatchTrap (group : Nat) (s : State) : Res := .next (s.deliverDue group)

end Sys2Proof.Machine
end

