-- ==== Sys2Proof/Machine/RedWords.lean ====
section
/-!
DEFINITION. The words on bound reduction handles and those that start a round (spec/10 R220 to R224; spec/18 R395 to R400).
-/

namespace Sys2Proof.Machine

open Sys2Proof

/-! ### The words on a bound handle -/

/-- A reduction word of each member on a bound handle; `ok` says in which states it acts. What nodes forwarded before now, and the rounds given
up before now, come before the word, and what is due now comes after it (spec/18 R400). -/
def redWord (s : State) (h : HReg) (ok : HState → Bool) (k : Fibre → Group → State → Handle → MRes) : Res :=
  accessEach s fun m g st =>
    let st := st.redUntil st.time
    let x := st.handle st.myTeam h.val
    if x.isRed && ok x.state then k m g st x else handleError st m h.val x

/-- RED.SUB. -/
def execRedSub (h : HReg) (a : SReg) (space : Space) (s : State) : Res :=
  redWord s h (fun x => x == .filling) fun m g st x =>
    if x.red.submitted then handleError st m h.val x
    else
      let w := if x.red.type = 1 then 2 else 4
      let ea := g.sreg a.val
      let n := w * x.red.len
      let r := st.checkRange space ea w n .read
      match r.bad with
      | some b => checkFails r m ea b
      | none =>
        let ls : List LockReq :=
          [{ space := space, owner := r.st.lockOwner r.st.myTeam space, first := ea.toNat, len := n, dst := false }]
        let st := r.st.modRed r.st.myTeam h.val fun r => { r with submitted := true }
        withRoom r.st ls
          { st := st.addFree
              (.sub { handle := h.val, gid := x.red.gid, chan := x.red.chan, round := x.round, op := x.red.op, type := x.red.type,
                      len := x.red.len, d := x.red.d, slack := x.red.slack, space := space, src := ea.toNat, bind := x.op }) none [] ls }

/-- RED.MAP. -/
def execRedMap (d : SReg) (h : HReg) (idx : Fin 64) (s : State) : Res :=
  redWord s h redLive fun _ _ st x => { st := st, writes := [.s d.val (st.redMapWord st.myTeam h.val x idx.val)] }

/-- RED.CORR. -/
def execRedCorr (h : HReg) (b : SReg) (space : Space) (sel : Bool) (s : State) : Res :=
  redWord s h redLive fun m g st x =>
    let ea := g.sreg b.val
    let n := x.red.recBytes
    let r := st.checkRange space ea 16 n .write
    match r.bad with
    | some c => checkFails r m ea c
    | none =>
      let st := r.st
      let pick := chooseRec x.round x.red.recs 0
      let st := st.modRed st.myTeam h.val fun y => { y with recs := pick.2.1, stale := sat16 (y.stale + pick.2.2) }
      let ls : List LockReq :=
        [{ space := space, owner := r.st.lockOwner r.st.myTeam space, first := ea.toNat, len := n, dst := true }]
      withRoom r.st ls
        { st := st.addFree
            (.corr { handle := h.val, space := space, buf := ea.toNat, rec_ := pick.1, round := x.round,
                     area := x.red.cqa + pick.1.getD 0 * n, len := n, bind := x.op })
            (st.it.flagOf sel) [m.id] ls }

/-- RED.CLOSE: a FULL handle with no open round is FREE at once. -/
def execRedClose (h : HReg) (s : State) : Res :=
  redWord s h redLive fun _ _ st x =>
    let y := st.closeRed x
    if y.red.openRounds.isEmpty then { st := st.freeRed st.myTeam h.val y }
    else { st := st.setHandle st.myTeam h.val y }

/-! ### The words that start a round -/

/-- The round that a handle holds, opened at its node and noted with its give-up time; nodes that forward now come first, and find the handle
in its new round (spec/18 R400); past its forwarding time the node forwards at once (spec/10 R226), and past its give-up time the round is
given up then (log 33). -/
def State.openRound (s : State) (t h : Nat) (n : Nat) (x : Handle) : State :=
  let r := x.red
  let x := { x with red := { r with openRounds := r.openRounds ++ [(x.round, giveUpTime n r.d r.slack)] } }
  let s := ((s.setHandle t h x).forwardBefore (s.time + 1)).startNode
    { gid := r.gid, chan := r.chan, round := x.round, op := r.op, type := r.type, len := r.len, d := r.d, slack := r.slack }
  let s := match s.redGroup r.gid, s.node? r.gid r.chan x.round with
    | some g, some y => s.tryForward g y
    | _, _ => s
  s.redUntil s.time

/-- A handle bound by a binding record that is in order (spec/18 R395). -/
def State.bindRed (s : State) (h : Nat) (x : Handle) (slot : RedSlot) (r : RedHandle) : State :=
  let t := s.myTeam
  let op := 2 * ((s.nextId + 1) / 2)
  let s := { s with nextId := op + 2 }
  let s := s.lockAll s.myCore s.mySlot op [r.areaLock]
  let s := s.lockAll s.myCore s.mySlot (dstLock op) [r.resultLock]
  s.openRound t h slot.n { x.fresh 0 0 with state := .filling, isRed := true, round := 0, op := some op, red := r }

/-- RED.OPEN. -/
def execRedOpen (h : HReg) (b : SReg) (s : State) : Res :=
  accessEach s fun m g st =>
    let st := (st.redUntil st.time).ageNodes
    let x := st.handle st.myTeam h.val
    if x.state != .free then handleError st m h.val x
    else
      match st.readRecord m (g.sreg b.val) 16 48 with
      | .error r => r
      | .ok (st, bs) =>
        if bindingBad bs then redTrap st m 4
        else
          match st.redSlots.get? (fieldOf (recField bs 0 8) 15 8) with
          | none => redTrap st m 1
          | some slot =>
            let r := bindingOf bs slot.gid
            if slot.fn ≠ st.myFn then redTrap st m 2
            else if st.channelBound slot r.grp r.chan then redTrap st m 3
            else withRoom st [r.areaLock, r.resultLock] { st := st.bindRed h.val x slot r }

/-- An operation is a RED.CORR of a handle as it is bound now. -/
def State.corrOf (s : State) (t h : Nat) (e : EngOp) : Bool :=
  match e.kind with
  | .corr c => e.team == t && c.handle == h && c.bind == (s.handle t h).op
  | _ => false

/-- A RED.CORR brought to its end, unless it must wait. -/
def State.endCorr (s : State) (id : Nat) (e : EngOp) : State :=
  match e.kind with
  | .corr c => if s.engWaits id e then { s with stalled := true } else (s.corrDone e c).dropEng id
  | _ => s

/-- The RED.CORR words in flight of a handle that leaves its round end first: nothing of the round is written to a buffer after
that (spec/10 R233; spec/18 R398; log 70). -/
def State.leaveRound (s : State) (t h : Nat) : State :=
  (s.engs.filter fun e => s.corrOf t h e.2).foldl (fun s e => if s.stalled then s else s.endCorr e.1 e.2) s

/-- RED.NEXT. -/
def execRedNext (h : HReg) (a : SReg) (s : State) : Res :=
  redWord s h redLive fun _ g st x =>
    let t := st.myTeam
    let ls : List LockReq := if x.state = .full then [x.red.resultLock] else []
    let u := x.op.elim st fun op => ({ st with nextId := st.nextId + 1 } : State).lockAll st.myCore st.mySlot (dstLock op) ls
    let n := ((st.redSlots.get? x.red.grp).map (·.n)).getD 1
    withRoom st ls
      { st := (u.leaveRound t h.val).openRound t h.val n
          { x.fresh 0 0 with state := .filling, round := (x.round + 1) % 65536,
                             red := { x.red with d := (g.sreg a.val).toNat, submitted := false, map := [] } } }

end Sys2Proof.Machine
end

