-- ==== Sys2Proof/Machine/Scalar.lean ====
section
/-!
DEFINITION. Scalar integer words (spec/14 R299 to R303).
-/

namespace Sys2Proof.Machine

open Sys2Proof

/-- A scalar word of two sources: s[d] := f s[a] s[b] (spec/14 R299, R300). -/
def scalar2 (d a b : SReg) (f : Word → Word → Word) (s : State) : Res :=
  scalarWord s fun _ g => [.s d.val (f (g.sreg a.val) (g.sreg b.val))]

/-- A scalar word of one source. -/
def scalar1 (d a : SReg) (f : Word → Word) (s : State) : Res :=
  scalarWord s fun _ g => [.s d.val (f (g.sreg a.val))]

/-- SADD. -/
def execSadd (d a b : SReg) (s : State) : Res := scalar2 d a b (fun x y => x + y) s

/-- SSUB. -/
def execSsub (d a b : SReg) (s : State) : Res := scalar2 d a b (fun x y => x - y) s

/-- SMUL: bits 63:0 of the product. -/
def execSmul (d a b : SReg) (s : State) : Res := scalar2 d a b (fun x y => x * y) s

/-- SMULH: bits 127:64 of the signed product. -/
def execSmulh (d a b : SReg) (s : State) : Res :=
  scalar2 d a b (fun x y => wordOfInt (x.toInt * y.toInt / 18446744073709551616)) s

/-- SMULHN: bits 127:64 of the unsigned product. -/
def execSmulhn (d a b : SReg) (s : State) : Res :=
  scalar2 d a b (fun x y => BitVec.ofNat 64 (x.toNat * y.toNat / 18446744073709551616)) s

/-- SAND. -/
def execSand (d a b : SReg) (s : State) : Res := scalar2 d a b (fun x y => x &&& y) s

/-- SOR. -/
def execSor (d a b : SReg) (s : State) : Res := scalar2 d a b (fun x y => x ||| y) s

/-- SXOR. -/
def execSxor (d a b : SReg) (s : State) : Res := scalar2 d a b (fun x y => x ^^^ y) s

/-- SSHL: 0 where the amount, read unsigned, is 64 or more. -/
def execSshl (d a b : SReg) (s : State) : Res :=
  scalar2 d a b (fun x y => BitVec.ofNat 64 (shlN 64 x.toNat y.toNat)) s

/-- SSHR. -/
def execSshr (d a b : SReg) (s : State) : Res :=
  scalar2 d a b (fun x y => BitVec.ofNat 64 (shrN 64 x.toNat y.toNat)) s

/-- SSRA: every bit takes the sign where the amount is 64 or more. -/
def execSsra (d a b : SReg) (s : State) : Res :=
  scalar2 d a b (fun x y => BitVec.ofNat 64 (sraN 64 x.toNat y.toNat)) s

/-- SMIN, signed. -/
def execSmin (d a b : SReg) (s : State) : Res := scalar2 d a b (fun x y => if x.toInt ≤ y.toInt then x else y) s

/-- SMAX, signed. -/
def execSmax (d a b : SReg) (s : State) : Res := scalar2 d a b (fun x y => if x.toInt ≤ y.toInt then y else x) s

/-- SMINN, unsigned. -/
def execSminn (d a b : SReg) (s : State) : Res := scalar2 d a b (fun x y => if x.toNat ≤ y.toNat then x else y) s

/-- SMAXN, unsigned. -/
def execSmaxn (d a b : SReg) (s : State) : Res := scalar2 d a b (fun x y => if x.toNat ≤ y.toNat then y else x) s

/-- SMOV. -/
def execSmov (d a : SReg) (s : State) : Res := scalar1 d a id s

/-- SMOV d, lcN: the loop counter of the running fibre. -/
def execSmovLc (d : SReg) (lc : LcReg) (s : State) : Res :=
  scalarWord s fun m _ => [.s d.val ((m.loops.lc.getD lc.val 0).setWidth 64)]

/-- SADDI (spec/14 R301). -/
def execSaddi (d a : SReg) (imm : BitVec 12) (s : State) : Res := scalar1 d a (fun x => x + imm.signExtend 64) s

/-- SMOVI. -/
def execSmovi (d : SReg) (imm : BitVec 18) (s : State) : Res :=
  scalarWord s fun _ _ => [.s d.val (imm.signExtend 64)]

/-- SMOVH: one chunk of s[d] replaced. -/
def execSmovh (d : SReg) (q : Fin 4) (chunk : BitVec 16) (s : State) : Res :=
  scalarWord s fun _ g =>
    [.s d.val (BitVec.ofNat 64 (insertN 64 (g.sreg d.val).toNat chunk.toNat (16 * q.val) 16))]

/-- SCMP (spec/14 R302). -/
def execScmp (c : CReg) (a b : SReg) (p : Pred) (s : State) : Res :=
  scalarWord s fun m g => [.c m.id c.val (predHolds p 64 (g.sreg a.val).toNat (g.sreg b.val).toNat)]

/-- SCMPI: the immediate is read by the predicate's own signedness. -/
def execScmpi (c : CReg) (a : SReg) (p : Pred) (imm : BitVec 8) (s : State) : Res :=
  let y : Word := if predUnsigned p then imm.setWidth 64 else imm.signExtend 64
  scalarWord s fun m g => [.c m.id c.val (predHolds p 64 (g.sreg a.val).toNat y.toNat)]

/-- SSEL (spec/14 R303). -/
def execSsel (d : SReg) (c : CReg) (a b : SReg) (s : State) : Res :=
  scalarWord s fun m g => [.s d.val (if m.c.getLsbD c.val then g.sreg a.val else g.sreg b.val)]

/-- SCLZ. -/
def execSclz (d a : SReg) (s : State) : Res := scalar1 d a (fun x => BitVec.ofNat 64 (leadZeros x.toNat 64)) s

/-- SPOPC. -/
def execSpopc (d a : SReg) (s : State) : Res := scalar1 d a (fun x => BitVec.ofNat 64 (popCount x.toNat 64)) s

/-- pos and len of a 64-bit field word (spec/14 R303). -/
def fieldPos64 (y : Word) : Nat := fieldOf y.toNat 5 0
def fieldLen64 (y : Word) : Nat := fieldOf y.toNat 14 8

/-- SBFE. -/
def execSbfe (d a b : SReg) (s : State) : Res :=
  scalar2 d a b (fun x y => BitVec.ofNat 64 (extractN 64 x.toNat (fieldPos64 y) (fieldLen64 y) false)) s

/-- SBFE.sx. -/
def execSbfeSx (d a b : SReg) (s : State) : Res :=
  scalar2 d a b (fun x y => BitVec.ofNat 64 (extractN 64 x.toNat (fieldPos64 y) (fieldLen64 y) true)) s

/-- SBFI. -/
def execSbfi (d a b : SReg) (s : State) : Res :=
  scalarWord s fun _ g =>
    let y := g.sreg b.val
    [.s d.val (BitVec.ofNat 64
      (insertN 64 (g.sreg d.val).toNat (g.sreg a.val).toNat (fieldPos64 y) (fieldLen64 y)))]

end Sys2Proof.Machine
end

