-- ==== Sys2Proof/Machine/SpecialFn.lean ====
section
/-!
DEFINITION. The special functions (spec/12 R272, R273; spec/15 R338): each is evaluated to 384 fractional bits and rounded once
(log 12), and its results are written at completion.
-/

namespace Sys2Proof.Machine

open Sys2Proof

/-! ### Fixed point: `fxBits` fractional bits -/

def fxBits : Nat := 384
def fxOne : Int := ((2 ^ fxBits : Nat) : Int)

/-- The ratio of a circle to its diameter, to 640 fractional bits. -/
def piBits : Nat :=
  0x3243f6a8885a308d313198a2e03707344a4093822299f31d0082efa98ec4e6c89452821e638d01377be5466cf34e90c6cc0ac29b7c97c50dd3f84d5b5b54709179216d5d98979fb1bd1310ba698dfb5ac

/-- The natural logarithm of 2, to 448 fractional bits. -/
def ln2Bits : Nat :=
  0xb17217f7d1cf79abc9e3b39803f2f6af40f343267298b62d8a0d175b8baafa2be7b876206debac98559552fb4afa1b10ed2eae35c1382144

/-- ln 2 in fixed point. -/
def fxLn2 : Int := ((ln2Bits / 2 ^ 64 : Nat) : Int)

/-- A product in fixed point. -/
def fxMul (x y : Int) : Int := x * y / fxOne

/-- A sum of terms: each term is the last one times `y`, divided by `d k`. -/
def series (y : Int) (d : Nat → Int) : Nat → Nat → Int → Int → Int
  | 0, _, _, acc => acc
  | n + 1, k, t, acc =>
    let t := fxMul t y / d k
    series y d n (k + 1) t (acc + t)

/-- e^y for 0 <= y < 1. -/
def fxExp (y : Int) : Int := series y (fun k => (k : Int) + 1) 90 0 fxOne fxOne

/-- sin r and cos r for |r| < 1. -/
def fxSin (r : Int) : Int :=
  series (-(fxMul r r)) (fun k => (2 * (k : Int) + 2) * (2 * (k : Int) + 3)) 45 0 r r
def fxCos (r : Int) : Int :=
  series (-(fxMul r r)) (fun k => (2 * (k : Int) + 1) * (2 * (k : Int) + 2)) 45 0 fxOne fxOne

/-- The sum of p / (2k + 1) over the odd powers p of z from the (2k + 1)th. -/
def oddSum (z2 : Int) : Nat → Nat → Int → Int → Int
  | 0, _, _, acc => acc
  | n + 1, k, p, acc => oddSum z2 n (k + 1) (fxMul p z2) (acc + p / (2 * (k : Int) + 1))

/-- ln x for 1 <= x < 2. -/
def fxLn (x : Int) : Int :=
  let z := (x - fxOne) * fxOne / (x + fxOne)
  2 * oddSum (fxMul z z) 130 0 z 0

/-- A fixed-point result of an irrational value, rounded to f32. -/
def fxRound (x : Int) (e : Int) : Nat × Word :=
  fmtF32.round .rne false (decide (x < 0)) x.natAbs (e - fxBits) true

/-! ### Square roots -/

/-- The greatest r with r * r <= n among the numbers built from the bits below `k`. -/
def isqrt (n : Nat) : Nat → Nat → Nat
  | 0, r => r
  | k + 1, r => if (r + 2 ^ k) * (r + 2 ^ k) ≤ n then isqrt n k (r + 2 ^ k) else isqrt n k r

/-- m * 2^e with an even exponent. -/
def evenExp (m : Nat) (e : Int) : Nat × Int := if e % 2 = 0 then (m, e) else (2 * m, e - 1)

/-- The square root of a positive value, rounded to f32. -/
def sqrtPos (m : Nat) (e : Int) : Nat × Word :=
  let p := evenExp m e
  let n := p.1 * 2 ^ 128
  let r := isqrt n 96 0
  fmtF32.round .rne false false r (p.2 / 2 - 64) (r * r != n)

/-- The inverse of the square root of a positive value, rounded to f32. -/
def rsqrtPos (m : Nat) (e : Int) : Nat × Word :=
  let p := evenExp m e
  let r := isqrt (2 ^ 256 / p.1) 129 0
  fmtF32.round .rne false false r (-(p.2 / 2) - 128) (r * r * p.1 != 2 ^ 256)

/-! ### The functions of R272 on finite values that are not zero -/

/-- 1 / x. -/
def rcpFin (n : Bool) (m : Nat) (e : Int) : Nat × Word :=
  let up := m.log2 + 96
  fmtF32.round .rne false n (2 ^ up / m) (-e - up) (2 ^ up % m != 0)

/-- 2^x: exact where x is an integer. -/
def exp2Fin (n : Bool) (m : Nat) (e : Int) : Nat × Word :=
  let a : Int := (m * 2 ^ (e + fxBits).toNat : Nat)
  let x := if n then -a else a
  let k := x / fxOne
  let f := x % fxOne
  if f = 0 then fmtF32.round .rne false false 1 k false else fxRound (fxExp (fxMul f fxLn2)) k

/-- log2 of a positive value: exact at the powers of two. -/
def log2Pos (m : Nat) (e : Int) : Nat × Word :=
  let l := m.log2
  let k : Int := e + l
  if m = 2 ^ l then fmtF32.ofVal .rne (.fin (decide (k < 0)) k.natAbs 0)
  else fxRound (k * fxOne + fxLn ((m * 2 ^ (fxBits - l) : Nat) : Int) * fxOne / fxLn2) 0

/-- The quarter turns nearest to a magnitude, and what is left of it. -/
def reduceArg (m : Nat) (e : Int) : Int × Int :=
  let x : Int := (m * 2 ^ (e + 641).toNat : Nat)
  let p : Int := piBits
  let k := (x + p / 2) / p
  (k, (x - k * p) / ((2 ^ (641 - fxBits) : Nat) : Int))

/-- sin of a magnitude a quarter turn times `q` further on. -/
def sinFin (n : Bool) (m : Nat) (e : Int) (q : Int) : Nat × Word :=
  let r := reduceArg m e
  let v :=
    match ((r.1 + q) % 4).toNat with
    | 0 => fxSin r.2
    | 1 => fxCos r.2
    | 2 => -(fxSin r.2)
    | _ => -(fxCos r.2)
  fxRound (if n then -v else v) 0

/-- tanh: (e^2x - 1) / (e^2x + 1); from 64 on it lies above every f32 below 1. -/
def tanhFin (n : Bool) (m : Nat) (e : Int) : Nat × Word :=
  if 6 ≤ (m.log2 : Int) + e then fxRound (if n then 1 - fxOne else fxOne - 1) 0
  else
    let y : Int := (m * 2 ^ (e + fxBits + 1).toNat : Nat)
    let k := y / fxLn2
    let t := fxExp (y - k * fxLn2) * ((2 ^ k.toNat : Nat) : Int)
    let v := (t - fxOne) * fxOne / (t + fxOne)
    fxRound (if n then -v else v) 0

/-! ### The words, with the table of R273 -/

/-- The words of R338. -/
inductive SfFn where
  | rcp | rsq | sqrt | exp2 | log2 | sin | cos | tanh
deriving DecidableEq, Repr

/-- f32 images of R273. -/
def imgInf (n : Bool) : Nat := fmtF32.signed n fmtF32.infImage
def imgZero (n : Bool) : Nat := fmtF32.signed n 0
def imgOne (n : Bool) : Nat := fmtF32.signed n 1065353216

/-- The result of a word for an f32 image, and its flags. -/
def sfValue (fn : SfFn) (image : Nat) : Nat × Word :=
  let bad : Nat × Word := (fmtF32.nan, fNV)
  match fmtF32.val image with
  | .nan b => (fmtF32.nan, flagIf b fNV)
  | .inf n =>
    match fn with
    | .rcp => (imgZero n, 0)
    | .rsq => if n then bad else (imgZero false, 0)
    | .sqrt => if n then bad else (imgInf false, 0)
    | .exp2 => (if n then imgZero false else imgInf false, 0)
    | .log2 => if n then bad else (imgInf false, 0)
    | .sin | .cos => bad
    | .tanh => (imgOne n, 0)
  | .fin n m e =>
    if m = 0 then
      match fn with
      | .rcp => (imgInf n, fDZ)
      | .rsq => (imgInf n, fDZ)
      | .sqrt => (imgZero n, 0)
      | .exp2 => (imgOne false, 0)
      | .log2 => (imgInf true, fDZ)
      | .sin => (imgZero n, 0)
      | .cos => (imgOne false, 0)
      | .tanh => (imgZero n, 0)
    else
      match fn with
      | .rcp => rcpFin n m e
      | .rsq => if n then bad else rsqrtPos m e
      | .sqrt => if n then bad else sqrtPos m e
      | .exp2 => exp2Fin n m e
      | .log2 => if n then bad else log2Pos m e
      | .sin => sinFin n m e 0
      | .cos => sinFin false m e 1
      | .tanh => tanhFin n m e

/-- A special-function word: the operation issues with its results, which it writes at completion. -/
def sfWord (fn : SfFn) (d a : VOp) (sel : Bool) (s : State) : Res :=
  batchWord s fun it g st =>
    let rs := laneRegs it g [{ op := d }, { op := a }]
    let vs := (goodLanes rs).map fun r => (r.1, r.2.headD 0, sfValue fn (g.vreg r.1 (r.2.getD 1 0)).toNat)
    let o : Op :=
      { kind := .sf, group := it.group, quarter := st.cur, flag := it.flagOf sel, holders := it.members,
        lanes := maskOf (vs.map Prod.fst), writes := vs.map (fun v => .v v.1 v.2.1 (BitVec.ofNat 32 v.2.2.1)),
        fpsr := vs.map fun v => (v.1, v.2.2.2) }
    { st := if vs.isEmpty then st else st.addOp o, traps := boundTraps rs }

/-- VRCP. -/
def execVrcp (d a : VOp) (sel : Bool) (s : State) : Res := sfWord .rcp d a sel s

/-- VRSQ. -/
def execVrsq (d a : VOp) (sel : Bool) (s : State) : Res := sfWord .rsq d a sel s

/-- VSQRT. -/
def execVsqrt (d a : VOp) (sel : Bool) (s : State) : Res := sfWord .sqrt d a sel s

/-- VEXP2. -/
def execVexp2 (d a : VOp) (sel : Bool) (s : State) : Res := sfWord .exp2 d a sel s

/-- VLOG2. -/
def execVlog2 (d a : VOp) (sel : Bool) (s : State) : Res := sfWord .log2 d a sel s

/-- VSIN. -/
def execVsin (d a : VOp) (sel : Bool) (s : State) : Res := sfWord .sin d a sel s

/-- VCOS. -/
def execVcos (d a : VOp) (sel : Bool) (s : State) : Res := sfWord .cos d a sel s

/-- VTANH. -/
def execVtanh (d a : VOp) (sel : Bool) (s : State) : Res := sfWord .tanh d a sel s

end Sys2Proof.Machine
end

