-- ==== Sys2Proof/Machine/System.lean ====
section
/-!
DEFINITION. Region, rail, timing-error script, telemetry and auditor words (spec/18 R407 to R411; spec/09 R197, R203, R206, R209,
R210, R213).
-/

namespace Sys2Proof.Machine

open Sys2Proof

/-- REGION: mode and limit of the whole team, written when the issue group writes (spec/06 R125). -/
def execRegion (m : RegionMode) (l : Fin 8) (s : State) : Res :=
  perMember s fun _ _ st => { st := st.later (.region m l.val) }

/-- The thatcher word (spec/09 R203). -/
def Core.thatcherWord (c : Core) : Word :=
  BitVec.ofNat 64 (c.p + c.q * 2 ^ 8 + c.w * 2 ^ 24 + c.e * 2 ^ 36 + c.n * 2 ^ 48)

/-- RAILR. -/
def execRailr (a : SReg) (s : State) : Res :=
  perMember s fun _ _ st => { st := st, writes := [.s a.val (st.coreAt st.myCore).thatcherWord] }

/-- Vmin of a core as a code: Vg less 150 mV (spec/01 R18). -/
def Core.vmin (c : Core) : Nat := c.vg - 30

/-- P, Q and W written: the window ends without any adjustment; FLRST acts in supervisor mode (spec/09 R203). -/
def Core.thatcherSet (c : Core) (y : Nat) (sup : Bool) : Core :=
  { c with p := fieldOf y 7 0, q := fieldOf y 23 8, w := fieldOf y 32 24, e := 0, n := 0,
           vfloor := if sup && fieldOf y 63 63 == 1 then c.vmin else c.vfloor }

/-- RAILT: in user mode on a die of the shared set it changes nothing (spec/18 R408). -/
def execRailt (a : SReg) (s : State) : Res :=
  perMember s fun _ g st =>
    let c := st.coreAt st.myCore
    if !st.mySup && (st.dieOwner (dieOf st.myCore)).isNone then { st := st }
    else { st := st.setCore st.myCore (c.thatcherSet (g.sreg a.val).toNat st.mySup) }

/-! ### The script (spec/09 R213) -/

/-- An entry as read, whether a reserved bit of it is set, and LAST. -/
def scriptEntry (bs : List Byte) : ScriptEntry × Bool × Bool :=
  let x := recField bs 0 16
  ({ seq := fieldOf x 31 0, tries := BitVec.ofNat 8 (fieldOf x 39 32), vg := fieldOf x 40 40 == 1, row := fieldOf x 53 48,
     col := fieldOf x 61 56, bit := fieldOf x 68 64 },
   fieldOf x 47 42 != 0 || fieldOf x 55 54 != 0 || fieldOf x 63 62 != 0 || fieldOf x 127 69 != 0,
   fieldOf x 41 41 == 1)

/-- Entries read until LAST or the sixteenth; none where R213 refuses the script. -/
def State.readScript (m : Fibre) : Nat → State → Word → List ScriptEntry → Except MRes (State × Option (List ScriptEntry))
  | 0, s, _, _ => .ok (s, none)
  | k + 1, s, a, acc =>
    match s.readRecord m a 16 16 with
    | .error r => .error r
    | .ok (s, bs) =>
      let e := scriptEntry bs
      if e.2.1 || acc.any (fun x => decide (e.1.seq < x.seq)) then
        match State.readScript m k s (a + 16) acc with
        | .error r => if e.2.2 then .ok (s, none) else .error r
        | .ok (s', _) => if e.2.2 then .ok (s, none) else .ok (s', none)
      else if e.2.2 then .ok (s, some (acc ++ [e.1]))
      else State.readScript m k s (a + 16) (acc ++ [e.1])

/-- A script armed: its count starts with the next product of the core's engine; products already running are none of its. -/
def State.armScript (s : State) (c : Nat) (l : List ScriptEntry) : State :=
  let begun (e : EngOp) : EngOp :=
    match e.kind with
    | .mma m => if e.core = c ∧ m.seq.isSome then { e with kind := .mma { m with seq := some 4294967296 } } else e
    | _ => e
  { s.setCore c { s.coreAt c with script := l, scriptSeq := 0 } with engs := s.engs.map fun e => (e.1, begun e.2) }

/-- RAILT.script. -/
def execRailtScript (c : CReg) (b : SReg) (s : State) : Res :=
  privileged s 255 <| accessEach s fun m g st =>
    let a := g.sreg b.val
    let arm (st : State) (l : List ScriptEntry) : State :=
      st.armScript st.myCore l
    if a = 0 then { st := arm st [], writes := [.c m.id c.val true] }
    else
      match State.readScript m 16 st a [] with
      | .error r => r
      | .ok (st, none) => { st := st, writes := [.c m.id c.val false] }
      | .ok (st, some l) => { st := arm st l, writes := [.c m.id c.val true] }

/-! ### Telemetry -/

/-- The die that TLMR.die selects: any die in the physical function, an owned one in a virtual function. -/
def State.tlmrDie (s : State) (k : Nat) : Option Nat :=
  ((s.partition s.myFn)[k]?).filter fun d => s.myFn == 0 || s.dieOwner d == some s.myFn

/-- TLMR.die: cycle counts at voltages (12 to 15) are values that the model leaves free (log 10). -/
def execTlmrDie (d b : SReg) (s : State) : Res :=
  privileged s 255 <| perMember s fun _ g st =>
    let x := (g.sreg b.val).toNat
    let idx := fieldOf x 7 0
    let y : Word :=
      match st.tlmrDie (fieldOf x 12 8) with
      | none => 0
      | some k =>
        if idx < 12 then BitVec.ofNat 64 ((st.dieAt k).counters.getD idx 0)
        else if idx < 16 then Config.freeWord st.free (16 * k + idx)
        else 0
    { st := st.bump, writes := [.s d.val y] }

/-- The words of a telemetry block in the order of R65 (spec/03). -/
def Telemetry.words (t : Telemetry) : List Nat :=
  [t.corr, t.reiss, t.escal, t.unlacc, t.sdet, t.audmm, t.tplow, t.tpvg, t.memue, t.poisc, t.throt, t.cows, t.cpyb]

/-- TLMR.own. -/
def execTlmrOwn (d b : SReg) (s : State) : Res :=
  perMember s fun _ g st =>
    let t := (st.keySlot (st.ownerSlot st.myFn st.mySlot)).tele
    { st := st, writes := [.s d.val (BitVec.ofNat 64 ((t.words)[(g.sreg b.val).toNat]?.getD 0))] }

/-! ### The auditor's rate (spec/18 R411) -/

/-- k of R206 from the field of AUDS. -/
def auditRate (x : Nat) : Nat := if x = 0 then 0 else max 4 (min 24 x)

/-- AUDS. -/
def execAuds (a : SReg) (s : State) : Res :=
  privileged s 255 <| perMember s fun _ g st =>
    { st := st.setFn st.myFn { st.fn st.myFn with audit := auditRate (fieldOf (g.sreg a.val).toNat 4 0) } }

end Sys2Proof.Machine
end

