-- ==== Sys2Proof/Machine/VectorFloat.lean ====
section
/-!
DEFINITION. Vector floating-point words (spec/15 R326 to R330).
-/

namespace Sys2Proof.Machine

open Sys2Proof

/-- The rounding mode that RMD selects (spec/12 R263). -/
def rmdMode (rmd : Bool) (g : Group) : RMode := if rmd then dynMode g.fpsr else .rne

/-- A pair type. -/
def ftyWide (ty : FTy) : Bool := ty == .f64

/-- A two-operand word, element by element. -/
def vfloat2 (ty : FTy) (d a b : VOp) (f : Group → Fmt → Nat → Nat → Nat × Word) (s : State) : Res :=
  vecWord s { op := d, wide := ftyWide ty } [{ op := a, wide := ftyWide ty }, { op := b, wide := ftyWide ty }]
    fun g _ xs =>
      match xs with
      | [x, y] => eltwise2 (ftyPacked ty) (f g (ftyFmt ty)) x y
      | _ => (0, 0)

/-- A one-operand word, element by element. -/
def vfloat1 (ty : FTy) (d a : VOp) (f : Fmt → Nat → Nat × Word) (s : State) : Res :=
  vecWord s { op := d, wide := ftyWide ty } [{ op := a, wide := ftyWide ty }] fun _ _ xs =>
    match xs with
    | [x] => eltwise1 (ftyPacked ty) (f (ftyFmt ty)) x
    | _ => (0, 0)

/-- VFADD. -/
def execVfadd (ty : FTy) (rmd : Bool) (d a b : VOp) (s : State) : Res :=
  vfloat2 ty d a b (fun g f x y => f.add (rmdMode rmd g) (f.val x) (f.val y)) s

/-- VFSUB. -/
def execVfsub (ty : FTy) (rmd : Bool) (d a b : VOp) (s : State) : Res :=
  vfloat2 ty d a b (fun g f x y => f.sub (rmdMode rmd g) (f.val x) (f.val y)) s

/-- VFMUL. -/
def execVfmul (ty : FTy) (rmd : Bool) (d a b : VOp) (s : State) : Res :=
  vfloat2 ty d a b (fun g f x y => f.mul (rmdMode rmd g) (f.val x) (f.val y)) s

/-- VFMIN. -/
def execVfmin (ty : FTy) (d a b : VOp) (s : State) : Res := vfloat2 ty d a b (fun _ f x y => f.pick false x y) s

/-- VFMAX. -/
def execVfmax (ty : FTy) (d a b : VOp) (s : State) : Res := vfloat2 ty d a b (fun _ f x y => f.pick true x y) s

/-- VFSCL: the scale is an i32 in a single register, the same for both elements of a packed type. -/
def execVfscl (ty : FTy) (rmd : Bool) (d a b : VOp) (s : State) : Res :=
  vecWord s { op := d, wide := ftyWide ty } [{ op := a, wide := ftyWide ty }, { op := b }] fun g _ xs =>
    match xs with
    | [x, y] =>
      eltwise1 (ftyPacked ty) (fun e => (ftyFmt ty).scale (rmdMode rmd g) ((ftyFmt ty).val e) (signedOf 32 y)) x
    | _ => (0, 0)

/-- VFMA: one rounding, rne (spec/15 R327). -/
def vfma (ty : FTy) (d a b c : VOp) (s : State) : Res :=
  let arg (o : VOp) : VArg := { op := o, wide := ftyWide ty }
  let f := ftyFmt ty
  vecWord s (arg d) [arg a, arg b, arg c] fun _ _ xs =>
    match xs with
    | [x, y, z] => eltwise3 (ftyPacked ty) (fun x y z => f.dot .rne [(f.val x, f.val y)] (f.val z)) x y z
    | _ => (0, 0)

/-- VFMA.f32. -/
def execVfmaF32 (d a b c : VOp) (s : State) : Res := vfma .f32 d a b c s

/-- VFMA.f64. -/
def execVfmaF64 (d a b c : VOp) (s : State) : Res := vfma .f64 d a b c s

/-- VFMA.f16x2. -/
def execVfmaF16x2 (d a b c : VOp) (s : State) : Res := vfma .f16x2 d a b c s

/-- VFMA.bf16x2. -/
def execVfmaBf16x2 (d a b c : VOp) (s : State) : Res := vfma .bf16x2 d a b c s

/-- VFABS changes only the sign bit (spec/12 R257). -/
def execVfabs (ty : FTy) (d a : VOp) (s : State) : Res := vfloat1 ty d a (fun f x => (f.absImage x, 0)) s

/-- VFNEG. -/
def execVfneg (ty : FTy) (d a : VOp) (s : State) : Res := vfloat1 ty d a (fun f x => (f.negImage x, 0)) s

/-- VFCLASS: a single register, whatever the type. -/
def execVfclass (ty : FTy) (d a : VOp) (s : State) : Res :=
  vecWord s { op := d } [{ op := a, wide := ftyWide ty }] fun _ _ xs =>
    match xs with
    | [x] => eltwise1 (ftyPacked ty) (fun e => ((ftyFmt ty).class_ e, 0)) x
    | _ => (0, 0)

/-- VFRND. -/
def execVfrnd (ty : FTy) (m : RMode) (d a : VOp) (s : State) : Res := vfloat1 ty d a (fun f x => f.integral m x) s

/-- VFCMP (spec/15 R329). -/
def execVfcmp (p : PReg) (wide : Bool) (code : FPred) (a b : VOp) (s : State) : Res :=
  vecPred s p wide a b fun x y => (if wide then fmtF64 else fmtF32).compare code x y

/-- VFDOT2: both products and the f32 in v[d] with one rounding to f32 (spec/15 R330). -/
def execVfdot2 (bf : Bool) (d a b : VOp) (s : State) : Res :=
  let f := if bf then fmtBf16 else fmtF16
  vecWord s { op := d } [{ op := a }, { op := b }] fun _ old xs =>
    match xs with
    | [x, y] =>
      fmtF32.dot .rne [(f.val (half x 0), f.val (half y 0)), (f.val (half x 1), f.val (half y 1))] (fmtF32.val old)
    | _ => (0, 0)

end Sys2Proof.Machine
end

