-- ==== Sys2Proof/Machine/Dispatch.lean ====
section
/-!
DEFINITION. One arm for each instruction: a direct call of its meaning, or its refusal by name.
-/

namespace Sys2Proof.Machine

open Sys2Proof

/-- What an instruction or event does to the machine. -/
def exec (i : Instr) (s : State) : Host.Outcome State Fault Refusal :=
  match i with
  | .hdr x1 x2 x3 x4 => Sys2Proof.Machine.execHdr x1 x2 x3 x4 s
  | .live x1 x2 x3 x4 x5 => Sys2Proof.Machine.execLive x1 x2 x3 x4 x5 s
  | .nop => Sys2Proof.Machine.execNop s
  | .sadd x1 x2 x3 => Sys2Proof.Machine.execSadd x1 x2 x3 s
  | .ssub x1 x2 x3 => Sys2Proof.Machine.execSsub x1 x2 x3 s
  | .smul x1 x2 x3 => Sys2Proof.Machine.execSmul x1 x2 x3 s
  | .smulh x1 x2 x3 => Sys2Proof.Machine.execSmulh x1 x2 x3 s
  | .smulhn x1 x2 x3 => Sys2Proof.Machine.execSmulhn x1 x2 x3 s
  | .sand x1 x2 x3 => Sys2Proof.Machine.execSand x1 x2 x3 s
  | .sor x1 x2 x3 => Sys2Proof.Machine.execSor x1 x2 x3 s
  | .sxor x1 x2 x3 => Sys2Proof.Machine.execSxor x1 x2 x3 s
  | .sshl x1 x2 x3 => Sys2Proof.Machine.execSshl x1 x2 x3 s
  | .sshr x1 x2 x3 => Sys2Proof.Machine.execSshr x1 x2 x3 s
  | .ssra x1 x2 x3 => Sys2Proof.Machine.execSsra x1 x2 x3 s
  | .smin x1 x2 x3 => Sys2Proof.Machine.execSmin x1 x2 x3 s
  | .smax x1 x2 x3 => Sys2Proof.Machine.execSmax x1 x2 x3 s
  | .sminn x1 x2 x3 => Sys2Proof.Machine.execSminn x1 x2 x3 s
  | .smaxn x1 x2 x3 => Sys2Proof.Machine.execSmaxn x1 x2 x3 s
  | .smov x1 x2 => Sys2Proof.Machine.execSmov x1 x2 s
  | .smovLc x1 x2 => Sys2Proof.Machine.execSmovLc x1 x2 s
  | .saddi x1 x2 x3 => Sys2Proof.Machine.execSaddi x1 x2 x3 s
  | .smovi x1 x2 => Sys2Proof.Machine.execSmovi x1 x2 s
  | .smovh x1 x2 x3 => Sys2Proof.Machine.execSmovh x1 x2 x3 s
  | .scmp x1 x2 x3 x4 => Sys2Proof.Machine.execScmp x1 x2 x3 x4 s
  | .scmpi x1 x2 x3 x4 => Sys2Proof.Machine.execScmpi x1 x2 x3 x4 s
  | .ssel x1 x2 x3 x4 => Sys2Proof.Machine.execSsel x1 x2 x3 x4 s
  | .sclz x1 x2 => Sys2Proof.Machine.execSclz x1 x2 s
  | .spopc x1 x2 => Sys2Proof.Machine.execSpopc x1 x2 s
  | .sbfe x1 x2 x3 => Sys2Proof.Machine.execSbfe x1 x2 x3 s
  | .sbfeSx x1 x2 x3 => Sys2Proof.Machine.execSbfeSx x1 x2 x3 s
  | .sbfi x1 x2 x3 => Sys2Proof.Machine.execSbfi x1 x2 x3 s
  | .srdS x1 x2 => Sys2Proof.Machine.execSrdS x1 x2 s
  | .srdV x1 x2 x3 => Sys2Proof.Machine.execSrdV x1 x2 x3 s
  | .spredSp x1 x2 => Sys2Proof.Machine.execSpredSp x1 x2 s
  | .spredPs x1 x2 => Sys2Proof.Machine.execSpredPs x1 x2 s
  | .swr x1 x2 => Sys2Proof.Machine.execSwr x1 x2 s
  | .svoteAny x1 x2 => Sys2Proof.Machine.execSvoteAny x1 x2 s
  | .svoteAll x1 x2 => Sys2Proof.Machine.execSvoteAll x1 x2 s
  | .svoteUni x1 x2 => Sys2Proof.Machine.execSvoteUni x1 x2 s
  | .slane x1 x2 x3 => Sys2Proof.Machine.execSlane x1 x2 x3 s
  | .brCond x1 x2 x3 => Sys2Proof.Machine.execBrCond x1 x2 x3 s
  | .brAlways x1 => Sys2Proof.Machine.execBrAlways x1 s
  | .call x1 x2 => Sys2Proof.Machine.execCall x1 x2 s
  | .bri x1 => Sys2Proof.Machine.execBri x1 s
  | .ret x1 => Sys2Proof.Machine.execRet x1 s
  | .loop x1 x2 x3 => Sys2Proof.Machine.execLoop x1 x2 x3 s
  | .lbrk x1 x2 => Sys2Proof.Machine.execLbrk x1 x2 s
  | .fsplit x1 x2 x3 => Sys2Proof.Machine.execFsplit x1 x2 x3 s
  | .fjoin => Sys2Proof.Machine.execFjoin s
  | .fend => Sys2Proof.Machine.execFend s
  | .winset x1 x2 => Sys2Proof.Machine.execWinset x1 x2 s
  | .winadd x1 x2 => Sys2Proof.Machine.execWinadd x1 x2 s
  | .xmov x1 x2 x3 => Sys2Proof.Machine.execXmov x1 x2 x3 s
  | .xadd x1 x2 x3 => Sys2Proof.Machine.execXadd x1 x2 x3 s
  | .trap x1 => Sys2Proof.Machine.execTrap x1 s
  | .rett => Sys2Proof.Machine.execRett s
  | .bkpt x1 => Sys2Proof.Machine.execBkpt x1 s
  | .gend => Sys2Proof.Machine.execGend s
  | .yield => Sys2Proof.Machine.execYield s
  | .vadd x1 x2 x3 x4 => Sys2Proof.Machine.execVadd x1 x2 x3 x4 s
  | .vsub x1 x2 x3 x4 => Sys2Proof.Machine.execVsub x1 x2 x3 x4 s
  | .vmul x1 x2 x3 x4 => Sys2Proof.Machine.execVmul x1 x2 x3 x4 s
  | .vmulh x1 x2 x3 x4 => Sys2Proof.Machine.execVmulh x1 x2 x3 x4 s
  | .vand x1 x2 x3 x4 => Sys2Proof.Machine.execVand x1 x2 x3 x4 s
  | .vor x1 x2 x3 x4 => Sys2Proof.Machine.execVor x1 x2 x3 x4 s
  | .vxor x1 x2 x3 x4 => Sys2Proof.Machine.execVxor x1 x2 x3 x4 s
  | .vnot x1 x2 x3 => Sys2Proof.Machine.execVnot x1 x2 x3 s
  | .vshl x1 x2 x3 x4 => Sys2Proof.Machine.execVshl x1 x2 x3 x4 s
  | .vshr x1 x2 x3 x4 => Sys2Proof.Machine.execVshr x1 x2 x3 x4 s
  | .vsra x1 x2 x3 x4 => Sys2Proof.Machine.execVsra x1 x2 x3 x4 s
  | .vmin x1 x2 x3 x4 => Sys2Proof.Machine.execVmin x1 x2 x3 x4 s
  | .vmax x1 x2 x3 x4 => Sys2Proof.Machine.execVmax x1 x2 x3 x4 s
  | .vabs x1 x2 x3 => Sys2Proof.Machine.execVabs x1 x2 x3 s
  | .vneg x1 x2 x3 => Sys2Proof.Machine.execVneg x1 x2 x3 s
  | .vmov x1 x2 x3 => Sys2Proof.Machine.execVmov x1 x2 x3 s
  | .vaddi x1 x2 x3 => Sys2Proof.Machine.execVaddi x1 x2 x3 s
  | .vmovi x1 x2 => Sys2Proof.Machine.execVmovi x1 x2 s
  | .vmad x1 x2 x3 x4 => Sys2Proof.Machine.execVmad x1 x2 x3 x4 s
  | .vcmp x1 x2 x3 x4 x5 => Sys2Proof.Machine.execVcmp x1 x2 x3 x4 x5 s
  | .vsel x1 x2 x3 x4 x5 => Sys2Proof.Machine.execVsel x1 x2 x3 x4 x5 s
  | .vclz x1 x2 => Sys2Proof.Machine.execVclz x1 x2 s
  | .vpopc x1 x2 => Sys2Proof.Machine.execVpopc x1 x2 s
  | .vbfe x1 x2 x3 => Sys2Proof.Machine.execVbfe x1 x2 x3 s
  | .vbfeSx x1 x2 x3 => Sys2Proof.Machine.execVbfeSx x1 x2 x3 s
  | .vbfi x1 x2 x3 => Sys2Proof.Machine.execVbfi x1 x2 x3 s
  | .vdot4 x1 x2 x3 x4 x5 x6 => Sys2Proof.Machine.execVdot4 x1 x2 x3 x4 x5 x6 s
  | .vdot8 x1 x2 x3 x4 x5 x6 => Sys2Proof.Machine.execVdot8 x1 x2 x3 x4 x5 x6 s
  | .vshfl x1 x2 x3 => Sys2Proof.Machine.execVshfl x1 x2 x3 s
  | .vperm x1 x2 x3 => Sys2Proof.Machine.execVperm x1 x2 x3 s
  | .vrdc x1 x2 x3 x4 => Sys2Proof.Machine.execVrdc x1 x2 x3 x4 s
  | .pand x1 x2 x3 => Sys2Proof.Machine.execPand x1 x2 x3 s
  | .por x1 x2 x3 => Sys2Proof.Machine.execPor x1 x2 x3 s
  | .pxor x1 x2 x3 => Sys2Proof.Machine.execPxor x1 x2 x3 s
  | .pnot x1 x2 => Sys2Proof.Machine.execPnot x1 x2 s
  | .pmov x1 x2 => Sys2Proof.Machine.execPmov x1 x2 s
  | .vmovs x1 x2 => Sys2Proof.Machine.execVmovs x1 x2 s
  | .vmovsHi x1 x2 => Sys2Proof.Machine.execVmovsHi x1 x2 s
  | .pset x1 x2 => Sys2Proof.Machine.execPset x1 x2 s
  | .vfadd x1 x2 x3 x4 x5 => Sys2Proof.Machine.execVfadd x1 x2 x3 x4 x5 s
  | .vfsub x1 x2 x3 x4 x5 => Sys2Proof.Machine.execVfsub x1 x2 x3 x4 x5 s
  | .vfmul x1 x2 x3 x4 x5 => Sys2Proof.Machine.execVfmul x1 x2 x3 x4 x5 s
  | .vfmin x1 x2 x3 x4 => Sys2Proof.Machine.execVfmin x1 x2 x3 x4 s
  | .vfmax x1 x2 x3 x4 => Sys2Proof.Machine.execVfmax x1 x2 x3 x4 s
  | .vfscl x1 x2 x3 x4 x5 => Sys2Proof.Machine.execVfscl x1 x2 x3 x4 x5 s
  | .vfmaF32 x1 x2 x3 x4 => Sys2Proof.Machine.execVfmaF32 x1 x2 x3 x4 s
  | .vfmaF64 x1 x2 x3 x4 => Sys2Proof.Machine.execVfmaF64 x1 x2 x3 x4 s
  | .vfmaF16x2 x1 x2 x3 x4 => Sys2Proof.Machine.execVfmaF16x2 x1 x2 x3 x4 s
  | .vfmaBf16x2 x1 x2 x3 x4 => Sys2Proof.Machine.execVfmaBf16x2 x1 x2 x3 x4 s
  | .vfabs x1 x2 x3 => Sys2Proof.Machine.execVfabs x1 x2 x3 s
  | .vfneg x1 x2 x3 => Sys2Proof.Machine.execVfneg x1 x2 x3 s
  | .vfclass x1 x2 x3 => Sys2Proof.Machine.execVfclass x1 x2 x3 s
  | .vfrnd x1 x2 x3 x4 => Sys2Proof.Machine.execVfrnd x1 x2 x3 x4 s
  | .vfcmp x1 x2 x3 x4 x5 => Sys2Proof.Machine.execVfcmp x1 x2 x3 x4 x5 s
  | .vfdot2 x1 x2 x3 x4 => Sys2Proof.Machine.execVfdot2 x1 x2 x3 x4 s
  | .vcvt x1 x2 x3 x4 x5 x6 => Sys2Proof.Machine.execVcvt x1 x2 x3 x4 x5 x6 s
  | .vcvtsr x1 x2 x3 x4 x5 => Sys2Proof.Machine.execVcvtsr x1 x2 x3 x4 x5 s
  | .vpack x1 x2 x3 x4 => Sys2Proof.Machine.execVpack x1 x2 x3 x4 s
  | .vunpk x1 x2 x3 x4 => Sys2Proof.Machine.execVunpk x1 x2 x3 x4 s
  | .vqnt x1 x2 x3 x4 => Sys2Proof.Machine.execVqnt x1 x2 x3 x4 s
  | .vdqnt x1 x2 x3 x4 => Sys2Proof.Machine.execVdqnt x1 x2 x3 x4 s
  | .vrng x1 x2 x3 => Sys2Proof.Machine.execVrng x1 x2 x3 s
  | .vrcp x1 x2 x3 => Sys2Proof.Machine.execVrcp x1 x2 x3 s
  | .vrsq x1 x2 x3 => Sys2Proof.Machine.execVrsq x1 x2 x3 s
  | .vsqrt x1 x2 x3 => Sys2Proof.Machine.execVsqrt x1 x2 x3 s
  | .vexp2 x1 x2 x3 => Sys2Proof.Machine.execVexp2 x1 x2 x3 s
  | .vlog2 x1 x2 x3 => Sys2Proof.Machine.execVlog2 x1 x2 x3 s
  | .vsin x1 x2 x3 => Sys2Proof.Machine.execVsin x1 x2 x3 s
  | .vcos x1 x2 x3 => Sys2Proof.Machine.execVcos x1 x2 x3 s
  | .vtanh x1 x2 x3 => Sys2Proof.Machine.execVtanh x1 x2 x3 s
  | .vld x1 x2 x3 x4 => Sys2Proof.Machine.execVld x1 x2 x3 x4 s
  | .vst x1 x2 x3 => Sys2Proof.Machine.execVst x1 x2 x3 s
  | .vldr x1 x2 x3 => Sys2Proof.Machine.execVldr x1 x2 x3 s
  | .vstr x1 x2 => Sys2Proof.Machine.execVstr x1 x2 s
  | .sld x1 x2 x3 x4 => Sys2Proof.Machine.execSld x1 x2 x3 x4 s
  | .sst x1 x2 x3 => Sys2Proof.Machine.execSst x1 x2 x3 s
  | .vlds x1 x2 x3 x4 => Sys2Proof.Machine.execVlds x1 x2 x3 x4 s
  | .vsts x1 x2 x3 => Sys2Proof.Machine.execVsts x1 x2 x3 s
  | .vldc x1 x2 x3 x4 => Sys2Proof.Machine.execVldc x1 x2 x3 x4 s
  | .vstc x1 x2 x3 => Sys2Proof.Machine.execVstc x1 x2 x3 s
  | .vldd x1 x2 x3 x4 => Sys2Proof.Machine.execVldd x1 x2 x3 x4 s
  | .vstd x1 x2 x3 => Sys2Proof.Machine.execVstd x1 x2 x3 s
  | .vldp x1 x2 x3 x4 => Sys2Proof.Machine.execVldp x1 x2 x3 x4 s
  | .vstp x1 x2 x3 => Sys2Proof.Machine.execVstp x1 x2 x3 s
  | .prefL1 x1 => Sys2Proof.Machine.execPrefL1 x1 s
  | .prefL2 x1 => Sys2Proof.Machine.execPrefL2 x1 s
  | .prefSc x1 => Sys2Proof.Machine.execPrefSc x1 s
  | .cwb x1 x2 => Sys2Proof.Machine.execCwb x1 x2 s
  | .cinv x1 => Sys2Proof.Machine.execCinv x1 s
  | .vatom x1 x2 x3 x4 x5 x6 => Sys2Proof.Machine.execVatom x1 x2 x3 x4 x5 x6 s
  | .vred x1 x2 x3 x4 x5 x6 => Sys2Proof.Machine.execVred x1 x2 x3 x4 x5 x6 s
  | .satom x1 x2 x3 x4 x5 => Sys2Proof.Machine.execSatom x1 x2 x3 x4 x5 s
  | .fence x1 x2 => Sys2Proof.Machine.execFence x1 x2 s
  | .waitm x1 x2 x3 x4 => Sys2Proof.Machine.execWaitm x1 x2 x3 x4 s
  | .bar x1 x2 => Sys2Proof.Machine.execBar x1 x2 s
  | .bara x1 x2 => Sys2Proof.Machine.execBara x1 x2 s
  | .barw x1 x2 => Sys2Proof.Machine.execBarw x1 x2 s
  | .gbar => Sys2Proof.Machine.execGbar s
  | .mma x1 x2 x3 x4 x5 => Sys2Proof.Machine.execMma x1 x2 x3 x4 x5 s
  | .mzero x1 => Sys2Proof.Machine.execMzero x1 s
  | .mlda x1 x2 x3 x4 => Sys2Proof.Machine.execMlda x1 x2 x3 x4 s
  | .msta x1 x2 x3 x4 => Sys2Proof.Machine.execMsta x1 x2 x3 x4 s
  | .mfrgRd x1 x2 x3 x4 => Sys2Proof.Machine.execMfrgRd x1 x2 x3 x4 s
  | .mfrgWr x1 x2 x3 => Sys2Proof.Machine.execMfrgWr x1 x2 x3 s
  | .medge x1 x2 => Sys2Proof.Machine.execMedge x1 x2 s
  | .medgeN x1 x2 => Sys2Proof.Machine.execMedgeN x1 x2 s
  | .mchk x1 x2 => Sys2Proof.Machine.execMchk x1 x2 s
  | .nmv x1 x2 x3 x4 x5 => Sys2Proof.Machine.execNmv x1 x2 x3 x4 x5 s
  | .cpy x1 x2 x3 x4 => Sys2Proof.Machine.execCpy x1 x2 x3 x4 s
  | .hset x1 x2 => Sys2Proof.Machine.execHset x1 x2 s
  | .hwait x1 => Sys2Proof.Machine.execHwait x1 s
  | .htake x1 x2 => Sys2Proof.Machine.execHtake x1 x2 s
  | .hfree x1 => Sys2Proof.Machine.execHfree x1 s
  | .hfill x1 x2 => Sys2Proof.Machine.execHfill x1 x2 s
  | .hstat x1 x2 => Sys2Proof.Machine.execHstat x1 x2 s
  | .tdset x1 x2 => Sys2Proof.Machine.execTdset x1 x2 s
  | .tdldRow x1 x2 x3 x4 => Sys2Proof.Machine.execTdldRow x1 x2 x3 x4 s
  | .tdldCol x1 x2 x3 x4 => Sys2Proof.Machine.execTdldCol x1 x2 x3 x4 s
  | .redOpen x1 x2 => Sys2Proof.Machine.execRedOpen x1 x2 s
  | .redOpenDef x1 x2 => Sys2Proof.Machine.execRedOpenDef x1 x2 s
  | .redSub x1 x2 x3 => Sys2Proof.Machine.execRedSub x1 x2 x3 s
  | .redWait x1 => Sys2Proof.Machine.execRedWait x1 s
  | .redMap x1 x2 x3 => Sys2Proof.Machine.execRedMap x1 x2 x3 s
  | .redCorr x1 x2 x3 x4 => Sys2Proof.Machine.execRedCorr x1 x2 x3 x4 s
  | .redNext x1 x2 => Sys2Proof.Machine.execRedNext x1 x2 s
  | .redClose x1 => Sys2Proof.Machine.execRedClose x1 s
  | .redCloseDef x1 => Sys2Proof.Machine.execRedCloseDef x1 s
  | .launch x1 x2 => Sys2Proof.Machine.execLaunch x1 x2 s
  | .lagg x1 x2 => Sys2Proof.Machine.execLagg x1 x2 s
  | .lflush => Sys2Proof.Machine.execLflush s
  | .tapePush x1 x2 x3 => Sys2Proof.Machine.execTapePush x1 x2 x3 s
  | .tapeRun x1 x2 => Sys2Proof.Machine.execTapeRun x1 x2 s
  | .tapeDrop x1 x2 => Sys2Proof.Machine.execTapeDrop x1 x2 s
  | .qsig x1 x2 => Sys2Proof.Machine.execQsig x1 x2 s
  | .region x1 x2 => Sys2Proof.Machine.execRegion x1 x2 s
  | .railr x1 => Sys2Proof.Machine.execRailr x1 s
  | .railt x1 => Sys2Proof.Machine.execRailt x1 s
  | .railtScript x1 x2 => Sys2Proof.Machine.execRailtScript x1 x2 s
  | .tlmrDie x1 x2 => Sys2Proof.Machine.execTlmrDie x1 x2 s
  | .tlmrOwn x1 x2 => Sys2Proof.Machine.execTlmrOwn x1 x2 s
  | .auds x1 => Sys2Proof.Machine.execAuds x1 s
  | .boot x1 => Sys2Proof.Machine.execBoot x1 s
  | .recoveryVerifyEnd x1 x2 x3 => Sys2Proof.Machine.execRecoveryVerifyEnd x1 x2 x3 s
  | .dieResetEnd x1 x2 => Sys2Proof.Machine.execDieResetEnd x1 x2 s
  | .launchCommand x1 => Sys2Proof.Machine.execLaunchCommand x1 s
  | .copy x1 => Sys2Proof.Machine.execCopy x1 s
  | .signal x1 => Sys2Proof.Machine.execSignal x1 s
  | .waitge x1 => Sys2Proof.Machine.execWaitge x1 s
  | .waitgePoll x1 => Sys2Proof.Machine.execWaitgePoll x1 s
  | .keygen x1 => Sys2Proof.Machine.execKeygen x1 s
  | .keyimp x1 x2 => Sys2Proof.Machine.execKeyimp x1 x2 s
  | .keydel x1 => Sys2Proof.Machine.execKeydel x1 s
  | .tlbinv x1 => Sys2Proof.Machine.execTlbinv x1 s
  | .copyChunk x1 => Sys2Proof.Machine.execCopyChunk x1 s
  | .instanceAdmission x1 x2 => Sys2Proof.Machine.execInstanceAdmission x1 x2 s
  | .teamDeal x1 x2 => Sys2Proof.Machine.execTeamDeal x1 x2 s
  | .instanceRetire x1 => Sys2Proof.Machine.execInstanceRetire x1 s
  | .aggWindowTimeout x1 x2 => Sys2Proof.Machine.execAggWindowTimeout x1 x2 s
  | .teamStop x1 => Sys2Proof.Machine.execTeamStop x1 s
  | .teamResume x1 => Sys2Proof.Machine.execTeamResume x1 s
  | .loadCompletion x1 => Sys2Proof.Machine.execLoadCompletion x1 s
  | .atomicCompletion x1 => Sys2Proof.Machine.execAtomicCompletion x1 s
  | .sfCompletion x1 => Sys2Proof.Machine.execSfCompletion x1 s
  | .frameMoveCompletion x1 x2 => Sys2Proof.Machine.execFrameMoveCompletion x1 x2 s
  | .cowServiceCompletion x1 => Sys2Proof.Machine.execCowServiceCompletion x1 s
  | .waitmRecheck x1 x2 => Sys2Proof.Machine.execWaitmRecheck x1 x2 s
  | .cwbCompletion x1 => Sys2Proof.Machine.execCwbCompletion x1 s
  | .engineQueueResend x1 => Sys2Proof.Machine.execEngineQueueResend x1 s
  | .nmvCompletion x1 => Sys2Proof.Machine.execNmvCompletion x1 s
  | .railSlewStep x1 => Sys2Proof.Machine.execRailSlewStep x1 s
  | .tileProductAttemptEnd x1 x2 x3 => Sys2Proof.Machine.execTileProductAttemptEnd x1 x2 x3 s
  | .auditEnd x1 x2 => Sys2Proof.Machine.execAuditEnd x1 x2 s
  | .auditMismatchTrap x1 => Sys2Proof.Machine.execAuditMismatchTrap x1 s
  | .accumulatorMoveCompletion x1 => Sys2Proof.Machine.execAccumulatorMoveCompletion x1 s
  | .contributionPresent x1 => Sys2Proof.Machine.execContributionPresent x1 s
  | .nodeForwardingTime x1 x2 x3 => Sys2Proof.Machine.execNodeForwardingTime x1 x2 x3 s
  | .roundGiveUp x1 x2 => Sys2Proof.Machine.execRoundGiveUp x1 x2 s
  | .redCorrCompletion x1 => Sys2Proof.Machine.execRedCorrCompletion x1 s
  | .flushReadCompletion x1 x2 => Sys2Proof.Machine.execFlushReadCompletion x1 x2 s
  | .functionReset x1 => Sys2Proof.Machine.execFunctionReset x1 s
  | .meterTick => Sys2Proof.Machine.execMeterTick s
  | .sharedTurnEnd => Sys2Proof.Machine.execSharedTurnEnd s
  | .stopTimeout x1 => Sys2Proof.Machine.execStopTimeout x1 s
  | .watchdogExpiry x1 => Sys2Proof.Machine.execWatchdogExpiry x1 s
  | .configurationRequest x1 => Sys2Proof.Machine.execConfigurationRequest x1 s
  | .recoveryGo x1 => Sys2Proof.Machine.execRecoveryGo x1 s
  | .hubDieReset => Sys2Proof.Machine.execHubDieReset s
  | .computeDieReset x1 => Sys2Proof.Machine.execComputeDieReset x1 s
  | .memoryDieReset x1 => Sys2Proof.Machine.execMemoryDieReset x1 s
  | .currentPacing x1 x2 => Sys2Proof.Machine.execCurrentPacing x1 x2 s
  | .powerClockStep => Sys2Proof.Machine.execPowerClockStep s
  | .powerClockRestore => Sys2Proof.Machine.execPowerClockRestore s
  | .thermalClockStep x1 => Sys2Proof.Machine.execThermalClockStep x1 s
  | .thermalShutdownReset x1 => Sys2Proof.Machine.execThermalShutdownReset x1 s
  | .thermalClockRestore x1 => Sys2Proof.Machine.execThermalClockRestore x1 s
  | .supplyOff => Sys2Proof.Machine.execSupplyOff s
  | .flitReplay x1 => Sys2Proof.Machine.execFlitReplay x1 s
  | .portRetrain x1 x2 => Sys2Proof.Machine.execPortRetrain x1 x2 s
  | .portDown x1 x2 => Sys2Proof.Machine.execPortDown x1 x2 s
  | .cxlPoisonResponse x1 => Sys2Proof.Machine.execCxlPoisonResponse x1 s
  | .flushReadTimeout x1 => Sys2Proof.Machine.execFlushReadTimeout x1 s
  | .remoteRequest x1 x2 x3 => Sys2Proof.Machine.execRemoteRequest x1 x2 x3 s
  | .timeExchange x1 x2 => Sys2Proof.Machine.execTimeExchange x1 x2 s
  | .syncLoss => Sys2Proof.Machine.execSyncLoss s
  | .domainJoin x1 x2 x3 x4 => Sys2Proof.Machine.execDomainJoin x1 x2 x3 x4 s
  | .bar2Read x1 x2 x3 => Sys2Proof.Machine.execBar2Read x1 x2 x3 s
  | .bar2Write x1 x2 x3 x4 => Sys2Proof.Machine.execBar2Write x1 x2 x3 x4 s
  | .hostAtomicop x1 => Sys2Proof.Machine.execHostAtomicop x1 s
  | .doorbell x1 x2 x3 => Sys2Proof.Machine.execDoorbell x1 x2 x3 s
  | .feataWrite x1 x2 => Sys2Proof.Machine.execFeataWrite x1 x2 s
  | .vfEnable x1 => Sys2Proof.Machine.execVfEnable x1 s
  | .functionResetTimeout x1 x2 => Sys2Proof.Machine.execFunctionResetTimeout x1 x2 s
  | .queueEnable x1 x2 => Sys2Proof.Machine.execQueueEnable x1 x2 s
  | .queueResume x1 x2 => Sys2Proof.Machine.execQueueResume x1 x2 s
  | .errcntRead x1 => Sys2Proof.Machine.execErrcntRead x1 s
  | .registerWrite x1 x2 x3 => Sys2Proof.Machine.execRegisterWrite x1 x2 x3 s
  | .spdmGetVersion x1 => Sys2Proof.Machine.execSpdmGetVersion x1 s
  | .spdmGetCapabilities x1 => Sys2Proof.Machine.execSpdmGetCapabilities x1 s
  | .spdmNegotiateAlgorithms x1 x2 => Sys2Proof.Machine.execSpdmNegotiateAlgorithms x1 x2 s
  | .spdmGetDigests x1 => Sys2Proof.Machine.execSpdmGetDigests x1 s
  | .spdmGetCertificate x1 x2 => Sys2Proof.Machine.execSpdmGetCertificate x1 x2 s
  | .spdmChallenge x1 => Sys2Proof.Machine.execSpdmChallenge x1 s
  | .spdmGetMeasurements x1 x2 => Sys2Proof.Machine.execSpdmGetMeasurements x1 x2 s
  | .spdmKeyExchange x1 => Sys2Proof.Machine.execSpdmKeyExchange x1 s
  | .spdmFinish x1 => Sys2Proof.Machine.execSpdmFinish x1 s
  | .spdmHeartbeat x1 => Sys2Proof.Machine.execSpdmHeartbeat x1 s
  | .spdmEndSession x1 => Sys2Proof.Machine.execSpdmEndSession x1 s
  | .spdmUnsupportedRequest x1 => Sys2Proof.Machine.execSpdmUnsupportedRequest x1 s
  | .heartbeatMiss x1 x2 => Sys2Proof.Machine.execHeartbeatMiss x1 x2 s
  | .pageWalk x1 x2 x3 => Sys2Proof.Machine.execPageWalk x1 x2 x3 s
  | .frameMoveStart x1 x2 => Sys2Proof.Machine.execFrameMoveStart x1 x2 s
  | .eccUncorrectable x1 => Sys2Proof.Machine.execEccUncorrectable x1 s
  | .partialArrival x1 => Sys2Proof.Machine.execPartialArrival x1 s
  | .deliveryArrival x1 => Sys2Proof.Machine.execDeliveryArrival x1 s
  | .correctionArrival x1 => Sys2Proof.Machine.execCorrectionArrival x1 s

end Sys2Proof.Machine
end

