-- ==== Sys2Proof/Machine/Schedule.lean ====
section
/-!
DEFINITION. Which quarter has its turn, and which event of the device's own comes next when no quarter can issue (log 7).
-/

namespace Sys2Proof.Machine

open Sys2Proof

/-- The quarter can issue a word. -/
def State.canIssue (s : State) (q : Nat) : Bool :=
  match (s.quarter q).issue with
  | some it => !it.held
  | none => false

/-- The quarter has a word to issue or a clause to start. -/
def State.hasWork (s : State) (q : Nat) : Bool :=
  s.canIssue q || ((s.quarter q).issue.isNone && (s.select q).isSome)

/-- The quarters that hold groups or clauses. -/
def State.quarterList (s : State) : List Nat :=
  s.groups.foldl (fun l e => if e.2.ended then l else NatSet.add l e.2.quarter) (s.quarters.map (·.1))

/-- The quarter whose turn it is: the one that `turns` names, else the one in hand until its clause ends, else the next with
work (log 7). -/
def State.turn (s : State) : State :=
  match s.turns with
  | q :: rest => { s with turns := rest, cur := q }
  | [] =>
    if s.canIssue s.cur then s
    else
      let qs := s.quarterList
      match (qs.find? fun q => decide (s.cur < q) && s.hasWork q).orElse fun _ => qs.find? s.hasWork with
      | some q => { s with cur := q }
      | none => s

/-- The event that completes an operation in flight. -/
def opEvent (id : Nat) (o : Op) : Instr :=
  match o.kind with
  | .load => .loadCompletion id
  | .atomic => .atomicCompletion id
  | .sf => .sfCompletion id
  | .cwb => .cwbCompletion id

/-- The event that moves an engine operation on. -/
def engEvent (id : Nat) (e : EngOp) : Instr :=
  match e.kind with
  | .copy _ => .copyChunk id
  | .nmv _ => .nmvCompletion id
  | .mma m => if m.audited then .auditEnd id [] else .tileProductAttemptEnd id [] false
  | .move _ => .accumulatorMoveCompletion id
  | .sub _ => .contributionPresent id
  | .corr _ => .redCorrCompletion id

/-- The event that ends a service. -/
def serviceEvent (id : Nat) : Service → Instr
  | .cow .. => .cowServiceCompletion id
  | .place f _ _ => .frameMoveCompletion f (.stack 0)

/-- The link of a number (spec/02 R45). -/
def linkIdOf (n : Nat) : LinkId :=
  if n < 48 then .spoke (Fin.ofNat 48 n) else if n = 48 then .host else if n < 57 then .cxl (Fin.ofNat 8 (n - 49))
  else .ualink (Fin.ofNat 24 (n - 57))

/-- Frames that move, and ports that retrain or go down; whether a retrain succeeds is free (spec/02 R39; log 7). -/
def State.linkEvents (s : State) : List Instr :=
  s.moving.map (fun e => .frameMoveCompletion e.1 e.2)
    ++ (s.links.filter fun l => l.2.retraining).map (fun l => .portRetrain (linkIdOf l.1) (Config.freeBool s.free 1))
    ++ (s.links.filter fun l => decide (3 ≤ l.2.failed.length) && l.2.up).map fun l => .portDown (linkIdOf l.1) []

/-- Work in flight, the oldest first. -/
def State.workEvents (s : State) : List Instr :=
  (sortBy (·.1) (s.ops.map (fun e => (e.1, opEvent e.1 e.2)) ++ s.engs.map (fun e => (e.1, engEvent e.1 e.2))
    ++ s.services.map (fun e => (e.1, serviceEvent e.1 e.2))
    ++ s.flushes.map fun e => (e.1, Instr.flushReadCompletion e.1 false))).map (·.2)

/-- A core by its number. -/
def coreIdOf (c : Nat) : CoreId := { die := Fin.ofNat 32 (c / 36), core := Fin.ofNat 36 (c % 36) }

/-- Queues and rails. -/
def State.coreEvents (s : State) : List Instr :=
  (s.cores.filterMap fun c => if c.2.refused.isEmpty then none else some (.engineQueueResend (coreIdOf c.1)))
    ++ s.cores.filterMap fun c => if c.2.vcur = c.2.vcmd then none else some (.railSlewStep (coreIdOf c.1))

/-- Events with a time of their own: forwarding times, give-up times, merge windows, and the loss of domain time. -/
def State.timedEvents (s : State) : List (Nat × Instr) :=
  let nodes := s.nodes.filterMap fun n =>
    if n.forwarded then none
    else (s.redGroup n.gid).map fun x => (n.due x, Instr.nodeForwardingTime n.gid n.chan n.round)
  let rounds := s.teams.flatMap fun t => t.2.handles.filterMap fun h =>
    if !h.2.isRed then none
    else
      match h.2.red.nextRound with
      | some r => some (r.2, Instr.roundGiveUp t.1 h.1)
      | none => if h.2.state = .draining then some (0, Instr.roundGiveUp t.1 h.1) else none
  let windows := s.windows.filterMap fun w =>
    if w.closed then none else some (w.opened + 2000, Instr.aggWindowTimeout w.fn w.blk)
  let clock := if s.sync && !s.master then [(s.exchTime + 2000000, Instr.syncLoss)] else []
  sortBy (·.1) (nodes ++ rounds ++ windows ++ clock)

/-- The functions with instances. -/
def State.busyFns (s : State) : List Nat := s.insts.foldl (fun l e => NatSet.add l e.2.fn) []

/-- Admission, dealing, stops, resumptions and ends of grids, and resets of functions that go on. -/
def State.launchEvents (s : State) : List Instr :=
  (s.groups.filterMap fun g => if (s.nextDue g.1).isSome then some (.auditMismatchTrap g.1) else none)
    ++ (s.busyFns.flatMap fun f =>
      [.instanceAdmission f false, .teamDeal f false, .instanceAdmission f true, .teamDeal f true])
    ++ (s.teams.flatMap fun t =>
      if t.2.ended then [] else if t.2.stopped then [.teamResume t.1] else if t.2.stopReq then [.teamStop t.1] else [])
    ++ (s.insts.map fun e => .instanceRetire e.1)
    ++ (s.fns.filter fun e => s.resetMoves e.1).map fun e => .functionReset e.1

/-- The event of the command at QHEAD of a slot; what unwrapping a key gives is free (log 14). -/
def State.commandEvent (s : State) (g : Nat) : Option Instr :=
  if !s.fetching g then none
  else
    some <|
      match ((s.ringBytes g).2.elim 0 fun bs => (commandOf bs).opc) with
      | 2 => .copy g
      | 3 => .signal g
      | 4 => .waitge g
      | 5 => .keygen g
      | 6 => .keyimp g (if Config.freeBool s.free 0 then some (Config.freeNat s.free 2) else none)
      | 7 => .keydel g
      | 8 => .tlbinv g
      | _ => .launchCommand g

/-- Commands, and waits of slots and fibres read again. -/
def State.commandEvents (s : State) : List Instr :=
  (s.slots.filterMap fun g => s.commandEvent g.1)
    ++ (s.slots.filterMap fun g => if g.2.waitge.isSome then some (.waitgePoll g.1) else none)
    ++ s.groups.flatMap fun g => g.2.fibres.filterMap fun f =>
      match f.kind with
      | .parked (.mem ..) => some (.waitmRecheck g.1 f.id)
      | _ => none

/-- What time alone brings, when nothing else can happen. -/
def State.lastEvents (s : State) : List Instr :=
  (s.teams.filterMap fun t => if t.2.stopReq then some (.stopTimeout t.1) else none)
    ++ [.sharedTurnEnd]
    ++ s.groups.filterMap fun g => if g.2.fibres.isEmpty then none else some (.watchdogExpiry g.1)

/-- The events that the device may make of its own at once, those to be tried first in front (log 7). -/
def State.promptEvents (s : State) : List Instr :=
  ((s.timedEvents.filter fun e => decide (e.1 ≤ s.time)).map (·.2)) ++ s.workEvents ++ s.linkEvents ++ s.coreEvents ++ s.launchEvents
    ++ s.commandEvents

/-- The events that come when nothing else can happen: those whose time is still to come, and the next tick of a meter that a copy waits
for. -/
def State.idleEvents (s : State) : List Instr :=
  ((s.timedEvents.filter fun e => decide (s.time < e.1)).map (·.2))
    ++ if (List.range 65).any fun f => (s.meterHead f).isSome then [.meterTick] else []

/-- The grids of functions in reset that have not stopped: 10 ms on, the reset kills them (spec/03 R67 step 2). -/
def State.lateGrids (s : State) : List (Nat × Nat) :=
  s.teams.filterMap fun t =>
    let f := (s.inst t.2.inst).fn
    if (s.fn f).reset && !t.2.ended && !t.2.stopped then some (f, t.2.inst) else none

/-- A state but for the counters that events move without effect. -/
def State.still (s : State) : State := { s with free := 0, time := 0 }

end Sys2Proof.Machine
end

