-- ==== Sys2Proof/Machine/Step.lean ====
section
/-!
DEFINITION. One step of the machine: the next event of the agenda, else a word of the quarter whose turn it is, else the
start of a clause, else an event of the device's own (log 7).
-/

namespace Sys2Proof.Machine

open Sys2Proof

/-- What the boot agents of this module find (spec/01 R23 to R25; log 3). -/
def bootFindings : BootFindings :=
  { imageA := Config.imageCode 0, imageB := Config.imageCode 1,
    cal := (List.finRange 32).flatMap fun d => (List.finRange 36).map fun c =>
      { core := { die := d, core := c }, vpass := Config.vpass d.val c.val },
    links := (List.finRange 48).map (fun n => { link := .spoke n, up := Config.linkUp n.val, capg := 0 })
      ++ [{ link := .host, up := Config.linkUp 48, capg := 0 }]
      ++ (List.finRange 8).map (fun n =>
          { link := .cxl n, up := Config.linkUp (49 + n.val), capg := Config.linkCap n.val })
      ++ (List.finRange 24).map (fun n => { link := .ualink n, up := Config.linkUp (57 + n.val), capg := 0 }) }

/-- A change of the next state of an outcome. -/
def onNext (r : Res) (f : State → State) : Res :=
  match r with
  | .next s => .next (f s)
  | .fault e => .fault e
  | .refused e => .refused e

/-- The word in hand issues. -/
def runWord (s : State) : Res :=
  match s.it.decoded s.it.pos with
  | some (i, _) => onNext (exec i s) State.advance
  | none => .next (s.failGroup 1 s.image s.it.pos)

/-- A quarter that issues a clause: the header, the check of an issue group at its start, or a word. -/
def stepWord (s : State) : Res :=
  if s.it.pos = 0 then
    match s.it.decoded 0 with
    | some (i, _) => onNext (exec i s) State.advance
    | none => .next s.badHeader.advance
  else if s.it.started then runWord s
  else
    match s.groupFault with
    | some (c, t, p) => .next (s.failGroup c t p)
    | none => runWord (s.modIt Issue.begun)

/-- What an event makes of a state, where it changes something. -/
def changed (s : State) (r : Res) : Option State :=
  match r with
  | .next t => if t.stalled || t.still = s.still then none else some t
  | _ => none

/-- The first of some events that changes something, done. -/
def firstChange (es : List Instr) (s : State) : Option State := es.findSome? fun e => changed s (exec e s)

/-- The first of some events that changes something; where none does, nothing changes (log 7). -/
def firstEvent (es : List Instr) (s : State) : State := (firstChange es s).getD s

/-- What happens when no quarter can issue: an event of the device's own, else what time alone brings, the kill of a function reset
first (log 7). -/
def idleStep (s : State) : State :=
  (((firstChange (s.promptEvents ++ s.idleEvents) s).orElse fun _ =>
    s.lateGrids.findSome? fun x => changed s (execFunctionResetTimeout x.1 x.2 s)).orElse fun _ =>
    firstChange s.lastEvents s).getD s

/-- A step of a device that is in service. What is due in a group is delivered before its next clause starts (spec/09 R208). With the
start of a clause goes one event of the device's own, so that a program that polls does not hold the device's work back (log 7). -/
def stepReady (s : State) : Res :=
  if s.canIssue s.cur then stepWord s
  else
    match if s.issuing then none else s.select s.cur with
    | some (gid, fs) =>
      if (s.nextDue gid).isSome then .next (s.deliverDue gid)
      else let t := s.startClause s.cur gid fs; .next (firstEvent t.promptEvents t)
    | none => .next (idleStep s)

/-- An event of the agenda. One that has to wait stays, and the device goes on meanwhile (spec/01 R26; spec/07 R148). -/
def stepEvent (e : Instr) (rest : List Instr) (s : State) : Res :=
  match exec e { s with agenda := rest } with
  | .next t => if t.stalled then stepReady ({ t with stalled := false, agenda := e :: rest }).turn else .next t
  | r => r

/-- A module whose supply is off: power-good boots it, and no other event reaches it (spec/01 R22, R23). -/
def stepOff (s : State) : Res :=
  match s.agenda with
  | [] => .fault .supplyOff
  | .boot f :: rest => exec (.boot f) { s with agenda := rest }
  | _ :: rest => .next { s with agenda := rest }

/-- One step. -/
def step (s : State) : Host.Outcome State Fault Refusal :=
  if s.phase = .off then stepOff s
  else
    match s.agenda with
    | e :: rest => stepEvent e rest s
    | [] =>
      match s.phase with
      | .booting | .resuming => exec (.boot bootFindings) s
      | .ready => stepReady s.turn
      | _ => .next s

/-- A device in service whose quarter 0 has the instruction `w` in hand as the last word of a clause: a supervisor grid of
one team and one group runs in function 0, whose features are accepted (log 1). -/
def State.withFetchWord (s : State) (nbits w : Nat) : State :=
  let w0 : W32 := BitVec.ofNat 32 w
  let rest : List W32 := if nbits ≤ 32 then [] else [BitVec.ofNat 32 (w / 4294967296)]
  let isHdr := fOp w0.toNat == 1
  let pad : W32 := 50331648
  let f : Fibre := { id := 0, mask := allLanes, at_ := {} }
  let g : Group := { team := 1, num := 0, walloc := 256, quarter := 0, fibres := [f], nextFibre := 1 }
  let it : Issue :=
    { group := 1, members := [0], clause := 65536, pos := if isHdr then 0 else 1, groupStart := if isHdr then 0 else 1,
      words := if isHdr then [w0, pad, 1124073472] else [16781296, w0] ++ rest, snap := g, started := true }
  { s with
    phase := .ready, agenda := [], turns := [], cur := 0,
    fns := [(0, { feata := BitVec.allOnes 64, lock := true })],
    insts := [(1, { blk := 0, tcb := { entry := 65536, g0 := 1, b0 := 32, sup := true }, fn := 0, slot := 0,
                    state := .running, sup := true })],
    teams := [(1, { inst := 1, ngroups := 1, acc := 8 })],
    groups := [(1, g)],
    quarters := [(0, { issue := some it })] }

end Sys2Proof.Machine
end

