-- ==== Sys2Proof/Safety.lean ====
section
/-!
DEFINITION. What counts as a safe run, the forms of the tables that hold memory, and the terms in which the claims speak of
one instruction: what it is run on, and what it leaves as it was.
-/

namespace Sys2Proof

open Sys2Proof.Machine

/-- Frame space, host memory and the staging window are in their canonical forms (spec/07 R146; log 2). -/
def memoryForm (s : State) : Bool := s.mem.wf && s.hostMem.wf && s.rcv.staging.wf

/-- A step that answers a next state. -/
def stepsOn (s : State) : Prop := ∃ t, step s = .next t

/-- The instruction answers a next state, and the next state is as `P` says. -/
def Answers (i : Instr) (s : State) (P : State → Prop) : Prop := ∃ t, exec i s = .next t ∧ P t

end Sys2Proof

namespace Sys2Proof.Machine

open Sys2Proof

/-! ### What a word is run on -/

/-- A quarter has a word in hand that nothing holds back, its issue group has met no trap and no wait so far and has no write left
for its end, and the members of its batch do not take turns at it (spec/06 R127). -/
def State.clean (s : State) : Prop :=
  s.issuing = true ∧ s.it.traps = [] ∧ s.it.waits = [] ∧ s.it.late = [] ∧ s.it.held = false ∧ s.stalled = false ∧ s.it.turns = []

/-- The word in hand issues for the one fibre `m`. -/
def State.lone (s : State) (m : Fibre) : Prop := s.clean ∧ s.it.parts = [m]

/-- The registers of the word in hand as its issue group began (spec/06 R125). -/
def State.regs (s : State) : Group := s.it.snap

/-- The group of the word in hand as it stands. -/
def State.mine (s : State) : Group := s.group s.it.group

/-- Every operand of the word is in bounds in every lane that issues, and `r` gives its registers there (spec/06 R132). -/
def State.operands (s : State) (ops : List VArg) (r : Nat → List Nat) : Prop :=
  s.regs.walloc ≤ 256 ∧ ∀ l ∈ lanesOf s.it.mask, resolveAll s.regs s.it.wb l ops = .ok (r l)

/-! ### What a word leaves as it was -/

/-- Nothing has changed but the group of the word in hand and what its quarter notes of the word: every other register,
every byte of memory, every control register, engine, queue and counter is as it was. -/
def State.onlyMine (s t : State) : Prop :=
  { t with groups := s.groups, quarters := s.quarters } = s ∧
    (∀ g, g ≠ s.it.group → t.group g = s.group g) ∧ ∀ q, q ≠ s.cur → t.quarter q = s.quarter q

/-- What its quarter holds of the word in hand is as it was, but for the %fpsr flags that the issue group has raised so far: no trap, no wait,
no write for the group's end and nothing for the clause's end was noted. -/
def State.unnoted (s t : State) : Prop :=
  ∃ it, t.quarter s.cur = { s.quarter s.cur with issue := some it } ∧ { it with gflags := s.it.gflags, fpsr0 := s.it.fpsr0 } = s.it

/-- The word made these register writes, in their order, and changed nothing else. -/
def State.wrote (s t : State) (ws : List GWrite) : Prop := s.onlyMine t ∧ s.unnoted t ∧ t.mine = s.mine.writes ws

/-- The word wrote `x` to s[`n`] of its group, and nothing else. -/
def State.wroteS (s t : State) (n : Nat) (x : Word) : Prop := s.wrote t [.s n x] ∧ t.mine.sreg n = x

/-- The word set condition bit `n` of the fibre to `b`, and nothing else. -/
def State.wroteC (s t : State) (m : Fibre) (n : Nat) (b : Bool) : Prop := s.wrote t [.c m.id n b]

/-- The %fpsr flags of all lanes that issue. -/
def State.laneFlags (s : State) (flags : Nat → Word) : Word := (lanesOf s.it.mask).foldl (fun m l => m ||| flags l) 0

/-- The word wrote, in each lane that issues, `val` to the lane's register `reg`, or to the pair from it on, set the sticky
flags `flags` of its lanes, and changed nothing else. -/
def State.wroteV (s t : State) (wide : Bool) (reg val : Nat → Nat) (flags : Nat → Word) : Prop :=
  s.onlyMine t ∧ s.unnoted t ∧ { t.mine with v := s.mine.v, fpsr := s.mine.fpsr } = s.mine ∧
    (∀ l ∈ lanesOf s.it.mask, t.mine.vval l wide (reg l) = val l % (if wide then 2 ^ 64 else 2 ^ 32)) ∧
    (∀ l r, r < 256 → ¬(l ∈ lanesOf s.it.mask ∧ (r = reg l ∨ wide = true ∧ r = reg l + 1)) →
      t.mine.vreg l r = s.mine.vreg l r) ∧
    t.mine.fpsr = s.mine.fpsr ||| s.laneFlags flags

/-- The word wrote `val` to predicate `n` in each lane that issues, set the sticky flags `flags` of its lanes, and changed
nothing else. -/
def State.wroteP (s t : State) (n : Nat) (val : Nat → Bool) (flags : Nat → Word) : Prop :=
  s.onlyMine t ∧ s.unnoted t ∧ { t.mine with p := s.mine.p, fpsr := s.mine.fpsr } = s.mine ∧
    (∀ l ∈ lanesOf s.it.mask, t.mine.preg l n = val l) ∧
    (∀ l k, ¬(l ∈ lanesOf s.it.mask ∧ k = n) → t.mine.preg l k = s.mine.preg l k) ∧
    t.mine.fpsr = s.mine.fpsr ||| s.laneFlags flags

/-- The word made these register writes and noted that the end of its clause does `x` to the fibre `m`; nothing else changed. -/
def State.noted (s t : State) (m : Fibre) (x : Term) (ws : List GWrite) : Prop :=
  s.onlyMine t ∧ t.quarter s.cur = { s.quarter s.cur with issue := some { s.it with term := (m.id, x) :: s.it.term } } ∧
    t.mine = (s.mine.modFibre m.id fun f => { f with reenter := s.it.again }).writes ws

/-! ### Accesses to memory -/

/-- One byte of the memory of the machine: of frame space at a domain address, of a team's scratchpad, of a die's, or of the
slices of a group. -/
inductive BytePlace where
  | frame (dom : Nat)
  | scratch (team off : Nat)
  | die (d off : Nat)
  | slice (group off : Nat)
deriving DecidableEq, Repr

/-- Byte `k` from a place on. -/
def bytePlace (l : Loc) (k : Nat) : BytePlace :=
  match l with
  | .frame dom _ => .frame (dom + k)
  | .scratch t off => .scratch t (off + k)
  | .die d off => .die d (off + k)
  | .slice g lane off => .slice g (64 * lane + off + k)

/-- The byte that stands at a place, none where frame space holds none (spec/07 R146). -/
def State.byteAt (s : State) : BytePlace → Option Byte
  | .frame a => s.mem.get? a
  | .scratch t o => some ((s.team t).scratch.getD o memUnlisted)
  | .die d o => some ((s.dieAt d).scratch.getD o memUnlisted)
  | .slice g o => some ((s.group g).slice.getD o memUnlisted)

/-- The address of a format-G word in a lane, its index scaled by `n` (spec/16 R341). -/
def State.ea (s : State) (a : GAddr) (n l : Nat) : Word :=
  s.regs.sreg a.base.val +
    (if a.idx.val = 63 then 0 else (s.regs.vreg l (s.it.wb + a.idx.val)).signExtend 64 * BitVec.ofNat 64 n) + gOff a

/-- The index register and the `k` registers from `reg` on are in bounds (spec/06 R132; spec/13 R285). -/
def State.inBounds (s : State) (reg k : Nat) (idx : Fin 64) : Prop :=
  (∀ i < k, reg + i ≤ 63 ∧ s.it.wb + reg + i < s.regs.walloc) ∧ (idx.val = 63 ∨ s.it.wb + idx.val < s.regs.walloc)

/-- Every translation of an address that the device may use (spec/07 R153) leads where its walk leads. -/
def State.oneWalk (s : State) (a : Nat) (kind : AccKind) : Prop :=
  ∀ x ∈ s.cachedLeaves s.myCore s.mySlot a, leafWalk s s.myFn a kind x.entry x.leaf = walk s s.myFn s.mySlot a kind

/-- The access of `cnt` bytes passes its checks at once (spec/16 R344), at the place `p`: every translation of its address leads there. -/
def State.reaches (s : State) (tgt : Target) (u : AUnit) (align off cnt : Nat) (kind : AccKind) (p : Loc) : Prop :=
  (s.check tgt u align off cnt kind).2 = .ok p ∧ (tgt = .space .virt → s.oneWalk (u.ea.toNat + off) kind)

/-- A place lies in a local level, or in the memory of this package. -/
def State.isHere (s : State) : Loc → Bool
  | .frame dom _ => s.isOwn dom
  | .scratch .. | .die .. | .slice .. => true

/-- `n` bytes of a place are what the memory of this package holds there, without poison, for a read by a thread on a core as well: a copy
in that core's L1, which an acquire drops first, agrees with them. -/
def State.settledOn (s : State) (core : Nat) (acq : Bool) (p : Loc) (n : Nat) : Prop :=
  s.isHere p = true ∧ s.locPoisoned p n = false ∧
    ∀ dom key, p = .frame dom key → acq = true ∨ ∀ x, (s.coreAt core).l1.get? (lineOf dom) = some x → x.slot = key →
      (x.bytes.drop (dom % 128)).take n = s.readLoc p n ∧ x.poisoned dom n = false

/-- The same for a read by the word in hand. -/
def State.settled (s : State) (acq : Bool) (p : Loc) (n : Nat) : Prop := s.settledOn s.myCore acq p n

/-- Some unit of `n` bytes of a place holds poison (spec/07 R158), for a read by the word in hand as well: a copy in its core's L1, which
an acquire drops first, shows poison too, and of some such unit no other cached copy alone holds the poison. -/
def State.tainted (s : State) (acq : Bool) (p : Loc) (n : Nat) : Prop :=
  s.isHere p = true ∧ s.locPoisoned p n = true ∧
    (∀ dom key, p = .frame dom key → ∃ u ∈ unitsOf dom n, s.poisoned (32 * u) = true ∧ s.struckAt u = false) ∧
    ∀ dom key, p = .frame dom key → acq = true ∨ ∀ x, (s.coreAt s.myCore).l1.get? (lineOf dom) = some x → x.slot = key →
      x.poisoned dom n = true

/-- The unit of a lane of a vector access. -/
def laneUnit (l : Nat) (ea : Word) : AUnit := { lane := l, lanes := [l], ea := ea }

/-- No unit has become poisoned, and what poison is gone went with the cached copies that alone held it (log 48). -/
def State.poisonMoved (s t : State) : Prop :=
  (∀ u, t.struckAt u = true → s.struckAt u = true) ∧ (∀ u ∈ t.poison, u ∈ s.poison) ∧
    ∀ u ∈ s.poison, u ∉ t.poison → s.struckAt u = true

/-- Nothing has changed but cached translations, lines and sectors with the poison that these alone held, what has left for other packages,
counts of poison consumed, and what is known of the order of writes to host memory (spec/08 R173). -/
def State.cachesMoved (s t : State) : Prop :=
  { t with tlb := s.tlb, dir := s.dir, sectors := s.sectors, outgoing := s.outgoing, cores := s.cores, keys := s.keys,
           order := s.order, poison := s.poison } = s ∧
    s.poisonMoved t ∧
    (∀ c, { t.coreAt c with l1 := (s.coreAt c).l1 } = s.coreAt c) ∧
    ∀ k, { t.keySlot k with tele := (s.keySlot k).tele } = s.keySlot k

/-- The word left the operation `o` in flight and changed no register, no byte of memory, and nothing else but what the caches hold. -/
def State.leftOp (s t : State) (o : Op) : Prop :=
  ∃ u, s.cachesMoved u ∧
    ({ u with ops := s.ops.put s.nextId o, nextId := s.nextId + 1, free := s.free + 1 } : State).wrote t []

/-- The word left a load in flight for the fibres `holders`, over the lanes named with their addresses and places: `val` is what each reads,
none for a unit that holds poison, and `ws` the registers that a value goes to (spec/16 R342; spec/07 R159). -/
def State.loaded (s t : State) (acq : Bool) (flag : Option Nat) (holders : List Nat) (us : List (AUnit × Loc)) (off n : Nat)
    (ws : AUnit → Nat → List RegWrite) : Prop :=
  ∃ (o : Op) (val : Nat → Option Nat), s.leftOp t o ∧ o.kind = .load ∧ o.group = s.it.group ∧ o.quarter = s.cur ∧ o.flag = flag ∧
    o.holders = holders ∧ o.fpsr = [] ∧ o.lines = [] ∧ (∀ l < 32, o.lanes.getLsbD l = us.any fun u => u.1.lanes.contains l) ∧
    o.writes = us.flatMap (fun u => (val u.1.lane).elim [] fun x => ws u.1 x) ∧
    (∀ l, o.poison.get? l = (us.findRev? fun u => u.1.lanes.contains l && (val u.1.lane).isNone).map fun u =>
      BitVec.ofNat 64 ((u.1.ea.toNat + off) / 32 * 32)) ∧
    ∀ u ∈ us, (s.settled acq u.2 n → val u.1.lane = some (leNat (s.readLoc u.2 n))) ∧
      (s.tainted acq u.2 n → val u.1.lane = none)

/-- The register that a load of `n` bytes with value `x` writes from `e` on (spec/16 R342). -/
def loadedV (sx : Bool) (n lane e x : Nat) : List RegWrite :=
  if n = 8 then [.v lane e (BitVec.ofNat 32 x), .v lane (e + 1) (BitVec.ofNat 32 (x / 2 ^ 32))]
  else if n = 16 then [.v lane e (BitVec.ofNat 32 x), .v lane (e + 1) (BitVec.ofNat 32 (x / 2 ^ 32)),
    .v lane (e + 2) (BitVec.ofNat 32 (x / 2 ^ 64)), .v lane (e + 3) (BitVec.ofNat 32 (x / 2 ^ 96))]
  else [.v lane e (BitVec.ofNat 32 (if sx = true ∧ 2 ^ (8 * n - 1) ≤ x then x + (2 ^ 32 - 2 ^ (8 * n)) else x))]

/-- A fibre but for its note that the release it issues again has had its flushing read (spec/08 R186). -/
def Fibre.unflushed (f : Fibre) : Fibre := { f with flushed := false }

/-- No frame is in motion and no memory die is in reset: no access waits for its frame (spec/01 R26; spec/07 R148). -/
def State.atRest (s : State) : Prop := s.moving = [] ∧ ∀ d : Fin 16, (s.memDies.getD d.val {}).inrst = false

/-- A flushing read was sent for the releases of the word in hand, after the last write of the function that none has followed (spec/08
R186), and `as_` are the addresses of the releases; memory is as it was. -/
def State.flushing (s t : State) (as_ : Word → Prop) : Prop :=
  t.mem = s.mem ∧ t.nextId = s.nextId + 1 ∧ ∃ f, t.flushes = s.flushes.put s.nextId f ∧ f.fn = s.myFn ∧ f.group = some s.it.group ∧
    f.slot = none ∧ (∀ x, (s.coveredPosts (membersMask (s.flushers true s.it.parts))).getLast? = some x → f.upTo = x.at_ ∧ f.read = x.addr) ∧ ∀ y ∈ f.addrs, as_ y.2

/-- The word released (spec/08 R170): nothing changed but the group's note of flushing reads had. -/
def State.releasedOnly (s t : State) : Prop :=
  s.onlyMine t ∧ s.unnoted t ∧ { t.mine with fibres := s.mine.fibres } = s.mine ∧ t.mine.fibres.map Fibre.unflushed = s.mine.fibres.map Fibre.unflushed

/-- These bytes were stored at these places in this order, where bytes overlap the later standing, and nothing else of memory
changed; a byte of a unit that stood under another key goes with it (spec/07 R141), a poisoned unit keeps its bytes (R158), and bytes of
another package's memory leave as requests to it (R152). No register, no flag and nothing of any other kind changed but what the caches hold. -/
def State.stored (s t : State) (us : List (Loc × List Byte)) : Prop :=
  (∀ q, { t.team q with scratch := (s.team q).scratch, scratchPoison := (s.team q).scratchPoison } = s.team q) ∧
    (∀ g, { t.group g with slice := (s.group g).slice, slicePoison := (s.group g).slicePoison, fibres := (s.group g).fibres } = s.group g ∧
      (t.group g).fibres.map Fibre.unflushed = (s.group g).fibres.map Fibre.unflushed) ∧
    (∀ d, { t.dieAt d with scratch := (s.dieAt d).scratch, scratchPoison := (s.dieAt d).scratchPoison } = s.dieAt d) ∧
    (∀ c, { t.coreAt c with l1 := (s.coreAt c).l1 } = s.coreAt c) ∧
    (∀ q, q ≠ s.cur → t.quarter q = s.quarter q) ∧
    { t with mem := s.mem, units := s.units, teams := s.teams, groups := s.groups, dies := s.dies, cores := s.cores, tlb := s.tlb,
             dir := s.dir, sectors := s.sectors, outgoing := s.outgoing, quarters := s.quarters, order := s.order, free := s.free,
             poison := s.poison } = s ∧
    s.poisonMoved t ∧
    t.outgoing = s.outgoing ++ us.filterMap (fun u => match u.1 with
      | .frame dom key =>
        if s.isOwn dom then none else some (.request (dom / 70368744177664) key (dom % 70368744177664) (.write u.2))
      | .scratch .. | .die .. | .slice .. => none) ∧
    ((∀ u ∈ us, ∀ w ∈ us, ∀ d k d' k', u.1 = .frame d k → w.1 = .frame d' k' →
        (∃ i < u.2.length, ∃ j < w.2.length, (d + i) / 32 = (d' + j) / 32) → s.keyId k = s.keyId k') →
      (∀ pre l bs post, us = pre ++ (l, bs) :: post → s.isHere l = true → s.locPoisoned l bs.length = false →
        (∀ u ∈ post, ∀ j < bs.length, ∀ k < u.2.length, bytePlace u.1 k ≠ bytePlace l j) → t.readLoc l bs.length = bs) ∧
      ∀ b, (∀ u ∈ us, ∀ k < u.2.length, bytePlace u.1 k ≠ b) →
        (∀ u ∈ us, ∀ dom key a, u.1 = .frame dom key → b = .frame a →
          (∀ k < u.2.length, (dom + k) / 32 ≠ a / 32) ∨ ∀ x, s.units.get? (a / 32) = some x → x.key = s.keyId key) →
        t.byteAt b = s.byteAt b)

/-! ### Engine operations -/

/-- The core's command queue takes an entry at once, and its lock table has room for `n` more (spec/17 R366; spec/08 R182). -/
def State.room (s : State) (n : Nat) : Prop :=
  (s.coreAt s.myCore).refused = [] ∧ (s.coreAt s.myCore).queue.length < 32 ∧ (s.coreAt s.myCore).locks.length + n ≤ 128

/-- The word in hand put one operation into its core's command queue, for a flag and the fibres that hold it, with lock-table
entries for the ranges named, and changed no register and nothing else. -/
def State.entered (s t : State) (k : EngKind) (flag : Option Nat) (holders : List Nat) (ls : List LockReq) : Prop :=
  s.onlyMine { t with engs := s.engs, cores := s.cores, nextId := s.nextId } ∧ s.unnoted t ∧ t.mine = s.mine ∧
    t.nextId = s.nextId + 1 ∧
    t.engs = s.engs.put s.nextId
      { kind := k, core := s.myCore, team := s.myTeam, slot := s.mySlot, fn := s.myFn, group := s.it.group, flag := flag,
        holders := holders, tags := s.setTags s.myTeam, started := true } ∧
    { t.coreAt s.myCore with locks := (s.coreAt s.myCore).locks } =
      { s.coreAt s.myCore with queue := (s.coreAt s.myCore).queue ++ [s.nextId] } ∧
    (∀ c, c ≠ s.myCore → t.coreAt c = s.coreAt c) ∧
    (∀ i e, (s.coreAt s.myCore).locks.get? i = some e → (t.coreAt s.myCore).locks.get? i = some e) ∧
    ∀ r ∈ ls, r.len ≠ 0 → ∃ i < 128, (t.coreAt s.myCore).locks.get? i = some
      { op := s.nextId, slot := s.mySlot, space := r.space, team := r.owner, first := r.first, last := r.first + r.len - 1,
        dst := r.dst, start := r.first, since := s.nextId + 1 }

/-- No round of this package that has not been forwarded is due before `t` (spec/10 R226). -/
def State.noneDue (s : State) (t : Nat) : Prop :=
  ∀ k ∈ s.nodes, k.forwarded = false → ∀ x, s.redGroup k.gid = some x → t ≤ k.due x

/-- A round that a word in hand starts is only opened at its node: no other is due to be forwarded or given up, its give-up time has not
passed, and this package is not the root, or the round is not complete and its forwarding time is still to come (spec/10 R224, R226). -/
def State.opensOnly (s : State) (gid chan round d slack : Nat) : Prop :=
  s.noneDue (s.time + 1) ∧ s.dueRounds s.time = [] ∧ ∀ y, s.redGroup gid = some y → s.time ≤ giveUpTime y.n d slack ∧
    (y.self = 0 → s.time < d + treeLevel y.n y.self * slackOf slack ∧ ∀ k ∈ s.nodes, k.gid = gid → k.chan = chan → k.round = round → k.forwarded = false →
      k.complete y = false ∧ s.time < k.due y)

/-! ### Commands of queue slots -/

/-- Slot `g` fetches, and the command `c` of a kind stands at QHEAD, breaks no rule of its own and need not wait; `u` is the
state once it is read. -/
def State.heads (s u : State) (g opc : Nat) (c : Command) : Prop :=
  s.atRest ∧ s.stalled = false ∧ s.fetching g = true ∧ (∃ bs, s.ringBytes g = (u, some bs) ∧ commandOf bs = c) ∧
    c.error (s.accepted (s.slotFn g) 2) = none ∧ c.opc = opc ∧
    (c.fence = true ∨ opc = 3 ∨ opc = 7 → (s.slot g).busy = [])

/-- QHEAD of slot `g` has passed a command, and its vector is raised where IRQ asks for it. -/
def State.retired (u t : State) (g : Nat) (irq : Bool) : Prop :=
  t.slot g = { u.slot g with qhead := (u.slot g).next } ∧
    t.msix = u.msix ++ (if irq = true then [(u.slotFn g, (u.slot g).vec)] else [])

/-- The one fibre `m`, undivided, is all that is left of the group of the word in hand. -/
def State.alone (s : State) (m : Fibre) : Prop := s.lone m ∧ s.mine.fibres = [m] ∧ m.mask ≠ 0

/-- The word in hand closes its issue group, and a trap in it can be delivered (spec/11 R240, R244). -/
def State.mayTrap (s : State) (m : Fibre) : Prop :=
  s.alone m ∧ s.it.closes = true ∧ m.trap = none ∧ tvecAddr s.mine.tvec ≠ 0

/-- The trap fibre of R240 and R246 (spec/11) stands in the place of the whole fibre `m`, with %tunit by lane; registers, memory and
everything else of the machine but the fibres that hold the operations in flight is as it was. -/
def State.tookTraps (s t : State) (m : Fibre) (cause : Nat) (tsyn : Word) (tunit : Nat → Word) (tpc : Word) (r : Resume) : Prop :=
  s.onlyMine { t with ops := s.ops, engs := s.engs } ∧
    { t.mine with fibres := s.mine.fibres, nextFibre := s.mine.nextFibre, delivered := s.mine.delivered } = s.mine ∧
    ∃ (f : Fibre) (x : TrapRegs), t.mine.fibres = (s.mine.fibres.filter fun y => y.id != m.id) ++ [f] ∧ f.trap = some x ∧ f.mask = m.mask ∧ f.at_ = { pc := tvecAddr s.mine.tvec } ∧ f.wb = m.wb ∧
      f.c = m.c ∧ f.loops = {} ∧ f.entry = none ∧ f.drain = true ∧ f.kind = .run ∧
      x.cause = cause ∧ x.sup = s.mySup ∧ x.tsyn = tsyn ∧ (∀ l < 32, m.mask.getLsbD l = true → x.tunit.getD l 0 = tunit l) ∧
      x.tpc = tpc ∧ x.tl = m.mask ∧ x.il = m.mask ∧
      x.retResume = r ∧ x.retWb = m.wb ∧ x.retLoops = m.loops ∧ x.retEntry = m.entry ∧
      t.ops = s.ops.map fun e => (e.1, if e.2.group = s.it.group ∧ m.id ∈ e.2.holders then
        { e.2 with holders := e.2.holders ++ [f.id] } else e.2)

/-- The trap of the word in hand, %tunit the same in every lane. -/
def State.tookTrap (s t : State) (m : Fibre) (cause : Nat) (tsyn tunit : Word) (r : Resume) : Prop :=
  s.tookTraps t m cause tsyn (fun _ => tunit) (s.it.addr s.it.pos) r

/-- The return to the issue group after that of the word in hand (spec/11 R237, "after"). -/
def State.resumeAfter (s : State) : Resume := { pc := s.it.clause, mid := some s.it.afterPos, term := none }

/-- The return that issues the word in hand again, for the lanes of `m` (spec/11 R237, "the word"). -/
def State.resumeWord (s : State) (m : Fibre) : Resume :=
  { pc := s.it.clause, mid := some s.it.afterPos, reissue := [(s.it.pos, m.mask)], term := none }

/-- The access of `cnt` bytes of a unit fails its checks (spec/16 R344): `k` is the cause and `y` its %tsyn (spec/11 R247), of alignment
before translation and bound, and of these before the range locks (spec/08 R182). -/
def State.refuses (s : State) (tgt : Target) (u : AUnit) (align off cnt : Nat) (kind : AccKind) (k : Nat) (y : Word) : Prop :=
  let a := u.ea.toNat + off
  let locked (space : Space) : Prop := k = 8 ∧ ∃ e dst, y = BitVec.ofNat 64 (e + if dst = true then 128 else 0) ∧
    lockHit (s.coreAt s.myCore).locks s.mySlot space (s.lockOwner s.myTeam space) a cnt (kind == .write) = some (e, dst)
  if u.ea.toNat % align ≠ 0 then k = 6 ∧ y = BitVec.ofNat 64 align
  else match tgt with
    | .slice => 64 < a + cnt ∧ k = 7 ∧ y = 2048
    | .space .virt => match s.translate s.myCore s.myFn s.mySlot a kind with
      | .fail b | .barred b => k = 7 ∧ y = BitVec.ofNat 64 (2 ^ b)
      | .ok .. => locked .virt
      | _ => False
    | .space x => if (s.localLoc s.myTeam x a cnt).isNone then k = 7 ∧ y = 2048 else locked x

/-- The word was turned away: the trap `k` in every lane, with the address of each as %tunit, and nothing loaded or stored. -/
def State.turnedAway (s t : State) (m : Fibre) (k : Nat) (y : Word) (ea : Nat → Word) : Prop :=
  ∃ u, s.cachesMoved u ∧ ({ u with free := s.free + 1 } : State).tookTraps t m k y ea (s.it.addr s.it.pos) (s.resumeWord m)

/-- The word in hand had no effect: its issue group, which it does not close, has the trap `k` to deliver in every lane. -/
def State.pended (s t : State) (k : Nat) (y : Word) : Prop :=
  s.onlyMine t ∧ t.mine = s.mine ∧ t.quarter s.cur = { s.quarter s.cur with issue := some { s.it with traps := t.it.traps } } ∧
    ∀ l ∈ lanesOf s.it.mask, ∃ p ∈ t.it.traps, p.lanes.getLsbD l = true ∧ p.cause = k ∧ p.tsyn = y ∧ p.word = s.it.pos ∧
      p.fibre = (s.it.fibreOf l).id

/-- The word in hand is a whole issue group and the last word of its clause, issued for the one fibre `m` of its group, and nothing of the
team waits at a barrier. -/
def State.lastWord (s : State) (m : Fibre) : Prop :=
  s.lone m ∧ s.it.reissue = [] ∧ s.it.pos ≠ 0 ∧ s.it.closes = true ∧
    s.it.pos + s.it.len s.it.pos = s.it.words.length ∧ s.it.members = [m.id] ∧ s.it.term = [] ∧
    m.kind = .run ∧ m.mask ≠ 0 ∧ s.mine.fibre? m.id = some m ∧ (s.mine.fibres.map (·.id)).Nodup ∧
    (s.team s.mine.team).barriers = [] ∧ ∀ e ∈ s.teams, e.2.gbar = []

/-- It is so for the one fibre `m` that is all that is left of the group. -/
def State.solo (s : State) (m : Fibre) : Prop := s.lastWord m ∧ s.mine.fibres = [m]

/-! ### Rounding -/

/-- The magnitude of a value. -/
def FVal.mag : FVal → FVal
  | .fin _ m e => .fin false m e
  | .inf _ => .inf false
  | .nan b => .nan b

/-- The order of two finite values. -/
def FVal.le : FVal → FVal → Bool
  | .fin a m e, .fin b n k => alignTo (min e k) (.fin a m e) ≤ alignTo (min e k) (.fin b n k)
  | _, _ => false

/-- The finite value `y` is as near to `x` as the finite value `w`. -/
def FVal.nearer : FVal → FVal → FVal → Prop
  | .fin a m e, .fin b n k, .fin c p j =>
    let q := min e (min k j)
    (alignTo q (.fin a m e) - alignTo q (.fin b n k)).natAbs ≤ (alignTo q (.fin a m e) - alignTo q (.fin c p j)).natAbs
  | _, _, _ => False

/-- A finite value. -/
def FVal.isFin : FVal → Bool
  | .fin .. => true
  | _ => false

/-- The finite values of a format. -/
def Fmt.numbers (f : Fmt) (w : FVal) : Prop := w.isFin = true ∧ ∃ i < 2 ^ f.width, f.val i = w

/-- The order of the numbers, the infinities at its ends; -0 and +0 are one (spec/12 R257). -/
def FVal.leq (x y : FVal) : Bool :=
  match x, y with
  | .nan _, _ | _, .nan _ => false
  | .inf true, _ | _, .inf false => true
  | .fin .., .fin .. => x.le y
  | _, _ => false

/-- Two images or values stand for one number. -/
def FVal.equals (x y : FVal) : Bool := x.leq y && y.leq x

/-- `k` is the finite value `x` rounded to an integer by a mode (spec/12 R265). -/
def integerBy (mode : RMode) (x : FVal) (k : Int) : Prop :=
  let down := (intVal k).le x ∧ ∀ j : Int, (intVal j).le x → j ≤ k
  let up := x.le (intVal k) ∧ ∀ j : Int, x.le (intVal j) → k ≤ j
  match mode with
  | .rne => ∀ j : Int, x.nearer (intVal k) (intVal j) ∧ (x.nearer (intVal j) (intVal k) → j = k ∨ k % 2 = 0)
  | .rtz => ((intVal 0).le x → down) ∧ (x.le (intVal 0) → up)
  | .rup => up
  | .rdn => down

/-- The finite value `x`, not zero, rounded to a format gives the image and flags `r` (spec/12 R265 to R267). Beyond max finite the grid
of the top binade goes on; what lies past it there overflows. -/
def Fmt.rounds (f : Fmt) (mode : RMode) (sat : Bool) (x : FVal) (neg : Bool) (r : Nat × Word) : Prop :=
  let y := f.val r.1
  let last := f.low + 2 ^ f.eb - (if f.kind = .ieee then 3 else 2)
  let top := 2 ^ (f.mb + 1) - (if f.kind = .noInf then 2 else 1)
  let up := mode = .rup ∧ neg = false ∨ mode = .rdn ∧ neg = true
  let beyond :=
    if mode = .rne then
      (FVal.fin false (2 * top + 1) (last - 1)).le x.mag ∧ (top % 2 = 1 ∨ ¬x.mag.le (.fin false (2 * top + 1) (last - 1)))
    else if up then ¬x.mag.le (.fin false top last)
    else (FVal.fin false (top + 1) last).le x.mag
  let tiny :=
    if mode = .rne then ¬(FVal.fin false (2 ^ (f.mb + 2) - 1) (f.low - 2)).le x.mag
    else if up then x.mag.le (.fin false (2 ^ (f.mb + 1) - 1) (f.low - 1))
    else ¬(FVal.fin false (2 ^ f.mb) f.low).le x.mag
  let nx := ¬y.equals x
  (beyond → r = (if (mode = .rne ∨ up) ∧ sat = false ∧ f.kind ≠ .finite then
      (if f.kind = .ieee then f.signed neg f.infImage else f.nan) else f.signed neg f.maxImage, fOF ||| fNX)) ∧
  (¬beyond → r.1 < 2 ^ f.width ∧ (r.1 / f.signBit = if neg then 1 else 0) ∧ y.isFin = true ∧
    (if mode = .rne then ∀ w i, f.numbers w → f.val i = w →
        x.nearer y w ∧ (x.nearer w y → i % f.signBit = r.1 % f.signBit ∨ r.1 % 2 = 0)
      else if up then x.mag.le y.mag ∧ ∀ w, f.numbers w → x.mag.le w.mag → y.mag.le w.mag
      else y.mag.le x.mag ∧ ∀ w, f.numbers w → w.mag.le x.mag → w.mag.le y.mag) ∧
    (nx → r.2 = if tiny then fUF ||| fNX else fNX) ∧ (¬nx → r.2 = 0))

/-- The finite value `x`, not zero, rounded stochastically with `w` bits from the top of `r` (spec/12 R270): the spacing at |x| is 2^q,
and |x| is a whole multiple `a` of it, `c` parts of 2^w more, and less than one part over. -/
def Fmt.roundsSr (f : Fmt) (w r : Nat) (x : FVal) (neg : Bool) (out : Nat × Word) : Prop :=
  ∃ (q : Int) (a c : Nat), c < 2 ^ w ∧ f.low ≤ q ∧
    (q ≠ f.low → (FVal.fin false (2 ^ f.mb) q).le x.mag) ∧ ¬(FVal.fin false (2 ^ (f.mb + 1)) q).le x.mag ∧
    (FVal.fin false (a * 2 ^ w + c) (q - w)).le x.mag ∧ ¬(FVal.fin false (a * 2 ^ w + c + 1) (q - w)).le x.mag ∧
    let y : FVal := .fin false (if 2 ^ w ≤ c + r / 2 ^ (32 - w) then a + 1 else a) q
    let nx := ¬y.equals x.mag
    (¬y.le (f.val f.maxImage) → out = (f.signed neg f.maxImage, fOF ||| fNX)) ∧
    (y.le (f.val f.maxImage) → out.1 < 2 ^ f.width ∧ (out.1 / f.signBit = if neg then 1 else 0) ∧ (f.val out.1).mag.equals y ∧
      (¬nx → out.2 = 0) ∧
      (nx → out.2 = if y.isZero = false ∧ ¬(FVal.fin false (2 ^ f.mb) f.low).le y then fUF ||| fNX else fNX))

/-- `q` is the quotient of the finite values `x` and `y` rounded to the nearest integer, ties to even, and `exact` says whether
nothing was lost (spec/15 R336). -/
def quotNearest (x y : FVal) (q : Int) (exact : Prop) : Prop :=
  match x, y with
  | .fin a m e, .fin b n k =>
    let u := alignTo (min e k) (.fin a m e)
    let v := alignTo (min e k) (.fin b n k)
    2 * (u - q * v).natAbs ≤ v.natAbs ∧ (2 * (u - q * v).natAbs = v.natAbs → q % 2 = 0) ∧ (exact ↔ u = q * v)
  | _, _ => False

/-- The instruction and the end of its clause lead to a state whose quarter issues nothing and where the group is as `P` says. -/
def ClauseEnds (i : Instr) (s : State) (P : Group → Prop) : Prop :=
  ∃ t, onNext (exec i s) State.advance = .next t ∧ (t.quarter s.cur).issue = none ∧ P (t.group s.it.group)

end Sys2Proof.Machine
end

