-- ==== Sys2Proof/WellFormed.lean ====
section
/-!
DEFINITION. Which instructions are well formed: those whose operands no encoding rule refuses (spec/13 R284, R285;
spec/15 R318; spec/16 R340, R351; spec/17 R374 to R391). The checks stand in Decode.lean, where the decoder makes them.
-/

namespace Sys2Proof

/-- The instruction has an encoding. Events have none. -/
def Instr.isWord (i : Instr) : Bool := (encodeParts i).isSome

/-- A well-formed instruction. -/
def wellFormed (i : Instr) : Bool := legal i

end Sys2Proof
end

