-- ==== Sys2Proof/Certificates/Slice0/Obligations.lean ====
section
/-!
DEFINITION. What is claimed of the machine, each statement beside the rules of spec/ that it formalises.
-/

open Sys2Proof Sys2Proof.Machine

/-- Scalar words write s[d] and nothing else (spec/14 R299 to R304). -/
def Obligations.ScalarResults : Prop :=
  (∀ (s : State) (m : Fibre) (d a b : SReg), s.lone m →
     let x := s.regs.sreg a.val
     let y := s.regs.sreg b.val
     let gives (i : Instr) (z : Word) : Prop := Answers i s fun t => s.wroteS t d.val z
     gives (.sadd d a b) (x + y) ∧ gives (.ssub d a b) (x - y) ∧ gives (.smul d a b) (x * y) ∧
     gives (.smulh d a b) (BitVec.ofInt 64 (x.toInt * y.toInt / 2 ^ 64)) ∧
     gives (.smulhn d a b) (BitVec.ofNat 64 (x.toNat * y.toNat / 2 ^ 64)) ∧
     gives (.sand d a b) (x &&& y) ∧ gives (.sor d a b) (x ||| y) ∧ gives (.sxor d a b) (x ^^^ y) ∧
     gives (.sshl d a b) (x <<< y) ∧ gives (.sshr d a b) (x >>> y) ∧ gives (.ssra d a b) (x.sshiftRight y.toNat) ∧
     gives (.smin d a b) (if x.toInt ≤ y.toInt then x else y) ∧ gives (.smax d a b) (if x.toInt ≤ y.toInt then y else x) ∧
     gives (.sminn d a b) (if x ≤ y then x else y) ∧ gives (.smaxn d a b) (if x ≤ y then y else x)) ∧
  (∀ (s : State) (m : Fibre) (d a b : SReg), s.lone m →
     let x := s.regs.sreg a.val
     let y := s.regs.sreg b.val
     let old := s.regs.sreg d.val
     let pos := (y.extractLsb' 0 6).toNat
     let n := min (y.extractLsb' 8 7).toNat (64 - pos)
     let ones : Word := BitVec.ofNat 64 (2 ^ n - 1)
     let gives (i : Instr) (z : Word) : Prop := Answers i s fun t => s.wroteS t d.val z
     gives (.smov d a) x ∧
     (∀ lc : LcReg, gives (.smovLc d lc) ((m.loops.lc.getD lc.val 0).setWidth 64)) ∧
     (∀ imm : BitVec 12, gives (.saddi d a imm) (x + imm.signExtend 64)) ∧
     (∀ imm : BitVec 18, gives (.smovi d imm) (imm.signExtend 64)) ∧
     (∀ (q : Fin 4) (chunk : BitVec 16), Answers (.smovh d q chunk) s fun t =>
       s.wroteS t d.val (t.mine.sreg d.val) ∧ ∀ k < 64, (t.mine.sreg d.val).getLsbD k =
         if 16 * q.val ≤ k ∧ k < 16 * q.val + 16 then chunk.getLsbD (k - 16 * q.val) else old.getLsbD k) ∧
     (∀ c : CReg, gives (.ssel d c a b) (if m.c.getLsbD c.val then x else y)) ∧
     gives (.sbfe d a b) ((x >>> pos) &&& ones) ∧
     (Answers (.sbfeSx d a b) s fun t => s.wroteS t d.val (t.mine.sreg d.val) ∧ ∀ k < 64, (t.mine.sreg d.val).getLsbD k =
       (decide (n ≠ 0) && if k < n then x.getLsbD (pos + k) else x.getLsbD (pos + n - 1))) ∧
     (Answers (.sbfi d a b) s fun t => s.wroteS t d.val (t.mine.sreg d.val) ∧ ∀ k < 64, (t.mine.sreg d.val).getLsbD k =
       if pos ≤ k ∧ k < pos + n then x.getLsbD (k - pos) else old.getLsbD k) ∧
     (∀ p : PReg, Answers (.spredSp d p) s fun t => s.wroteS t d.val (t.mine.sreg d.val) ∧ ∀ k < 64,
       (t.mine.sreg d.val).getLsbD k = (m.mask.getLsbD k && s.regs.preg k p.val))) ∧
  ∀ (s : State) (m : Fibre) (d a : SReg), s.lone m →
    let x := s.regs.sreg a.val
    (∃ n : Nat, (Answers (.sclz d a) s fun t => s.wroteS t d.val (BitVec.ofNat 64 n)) ∧ n ≤ 64 ∧
      (∀ k < 64, 64 - n ≤ k → x.getLsbD k = false) ∧ (n < 64 → x.getLsbD (63 - n) = true)) ∧
    Answers (.spopc d a) s fun t =>
      s.wroteS t d.val (BitVec.ofNat 64 ((List.range 64).countP fun k => x.getLsbD k))

/-- Comparisons and votes write one condition bit (spec/14 R302, R304). -/
def Obligations.ScalarCompareResults : Prop :=
  ∀ (s : State) (m : Fibre) (c : CReg) (a b : SReg) (p : PReg), s.lone m →
    let x := s.regs.sreg a.val
    let y := s.regs.sreg b.val
    let holds (q : Pred) (u v : Word) : Bool :=
      match q with
      | .eq => u == v
      | .ne => u != v
      | .lt => u.slt v
      | .le => u.sle v
      | .gt => v.slt u
      | .ge => v.sle u
      | .ltn => u.ult v
      | .len => u.ule v
      | .gtn => v.ult u
      | .gen => v.ule u
    let lanes := lanesOf m.mask
    (∀ q, Answers (.scmp c a b q) s fun t => s.wroteC t m c.val (holds q x y)) ∧
    (∀ (q : Pred) (imm : BitVec 8), Answers (.scmpi c a q imm) s fun t => s.wroteC t m c.val
      (holds q x (match q with
        | .ltn | .len | .gtn | .gen => imm.setWidth 64
        | .eq | .ne | .lt | .le | .gt | .ge => imm.signExtend 64))) ∧
    (Answers (.svoteAny c p) s fun t => s.wroteC t m c.val (lanes.any fun l => s.regs.preg l p.val)) ∧
    (Answers (.svoteAll c p) s fun t => s.wroteC t m c.val (lanes.all fun l => s.regs.preg l p.val)) ∧
    (Answers (.svoteUni c p) s fun t => s.wroteC t m c.val
      ((lanes.all fun l => s.regs.preg l p.val) || lanes.all fun l => !s.regs.preg l p.val))

/-- The two-operand integer words, lane by lane (spec/15 R317, R319). -/
def Obligations.VectorIntegerResults : Prop :=
  ∀ (s : State) (ty : IntTy) (d a b : VOp) (rd ra rb : Nat → Nat), s.clean →
    s.operands [⟨d, ty.wide⟩, ⟨a, ty.wide⟩, ⟨b, ty.wide⟩] (fun l => [rd l, ra l, rb l]) →
    let n := if ty.wide then 64 else 32
    let num (x : Nat) : Int := if (ty = .i32 ∨ ty = .i64) ∧ 2 ^ (n - 1) ≤ x then (x : Int) - (2 ^ n : Nat) else x
    let sgn (x : Nat) : Int := if 2 ^ (n - 1) ≤ x then (x : Int) - (2 ^ n : Nat) else x
    let gives (i : Instr) (f : Nat → Nat → Nat) : Prop := Answers i s fun t =>
      s.wroteV t ty.wide rd (fun l => f (s.regs.vval l ty.wide (ra l)) (s.regs.vval l ty.wide (rb l))) fun _ => 0
    gives (.vadd ty d a b) (fun x y => x + y) ∧
    gives (.vsub ty d a b) (fun x y => x + (2 ^ n - y)) ∧
    gives (.vmul ty d a b) (fun x y => x * y) ∧
    gives (.vmulh ty d a b) (fun x y => (num x * num y / (2 ^ n : Nat) % (2 ^ n : Nat)).toNat) ∧
    gives (.vand ty d a b) (fun x y => x &&& y) ∧
    gives (.vor ty d a b) (fun x y => x ||| y) ∧
    gives (.vxor ty d a b) (fun x y => x ^^^ y) ∧
    gives (.vshl ty d a b) (fun x y => if n ≤ y then 0 else x * 2 ^ y) ∧
    gives (.vshr ty d a b) (fun x y => if n ≤ y then 0 else x / 2 ^ y) ∧
    gives (.vsra ty d a b) (fun x y => (sgn x / (2 ^ min y n : Nat) % (2 ^ n : Nat)).toNat) ∧
    gives (.vmin ty d a b) (fun x y => if num x ≤ num y then x else y) ∧
    gives (.vmax ty d a b) (fun x y => if num x ≤ num y then y else x)

/-- One-source, immediate and broadcast words, lane by lane (spec/15 R319, R320, R322, R325). -/
def Obligations.VectorUnaryResults : Prop :=
  ∀ (s : State) (ty : IntTy) (d a : VOp) (rd ra : Nat → Nat), s.clean →
    (s.operands [⟨d, ty.wide⟩, ⟨a, ty.wide⟩] (fun l => [rd l, ra l]) →
      let n := if ty.wide then 64 else 32
      let gives (i : Instr) (f : Nat → Nat) : Prop := Answers i s fun t =>
        s.wroteV t ty.wide rd (fun l => f (s.regs.vval l ty.wide (ra l))) fun _ => 0
      gives (.vnot ty d a) (fun x => 2 ^ n - 1 - x) ∧ gives (.vneg ty d a) (fun x => 2 ^ n - x) ∧
      gives (.vmov ty d a) (fun x => x) ∧
      (ty = .i32 ∨ ty = .i64 → gives (.vabs ty d a) fun x => if 2 ^ (n - 1) ≤ x then 2 ^ n - x else x)) ∧
    (s.operands [⟨d, false⟩, ⟨a, false⟩] (fun l => [rd l, ra l]) →
      let gives (i : Instr) (f : Nat → Nat) : Prop := Answers i s fun t =>
        s.wroteV t false rd (fun l => f (s.regs.vreg l (ra l)).toNat) fun _ => 0
      (∀ imm : BitVec 12, gives (.vaddi d a imm) fun x => x + (imm.signExtend 32).toNat) ∧
      gives (.vclz d a) (fun x => if x = 0 then 32 else 31 - x.log2) ∧
      gives (.vpopc d a) fun x => (List.range 32).countP fun k => x.testBit k) ∧
    (s.operands [⟨d, false⟩] (fun l => [rd l]) →
      let gives (i : Instr) (x : Nat) : Prop := Answers i s fun t => s.wroteV t false rd (fun _ => x) fun _ => 0
      (∀ imm : BitVec 18, gives (.vmovi d imm) (imm.signExtend 32).toNat) ∧
      ∀ r : SReg, gives (.vmovs d r) ((s.regs.sreg r.val).toNat % 2 ^ 32) ∧
        gives (.vmovsHi d r) ((s.regs.sreg r.val).toNat / 2 ^ 32))

/-- Words of several sources, lane by lane (spec/15 R320 to R323). -/
def Obligations.VectorMultiSourceResults : Prop :=
  ∀ (s : State) (d a b : VOp) (rd ra rb : Nat → Nat), s.clean →
    (∀ (c : VOp) (rc : Nat → Nat),
      s.operands [⟨d, false⟩, ⟨a, false⟩, ⟨b, false⟩, ⟨c, false⟩] (fun l => [rd l, ra l, rb l, rc l]) →
      Answers (.vmad d a b c) s fun t => s.wroteV t false rd (fun l =>
        (s.regs.vreg l (ra l)).toNat * (s.regs.vreg l (rb l)).toNat + (s.regs.vreg l (rc l)).toNat) fun _ => 0) ∧
    (∀ (wide : Bool) (p : PReg), s.operands [⟨d, wide⟩, ⟨a, wide⟩, ⟨b, wide⟩] (fun l => [rd l, ra l, rb l]) →
      Answers (.vsel d wide p a b) s fun t => s.wroteV t wide rd (fun l =>
        s.regs.vval l wide (if s.regs.preg l p.val then ra l else rb l)) fun _ => 0) ∧
    (s.operands [⟨d, false⟩, ⟨a, false⟩, ⟨b, false⟩] (fun l => [rd l, ra l, rb l]) →
      let x (l : Nat) : Nat := (s.regs.vreg l (ra l)).toNat
      let y (l : Nat) : Nat := (s.regs.vreg l (rb l)).toNat
      let old (l : Nat) : Nat := (s.regs.vreg l (rd l)).toNat
      let pos (l : Nat) : Nat := y l % 32
      let len (l : Nat) : Nat := min (y l / 256 % 64) (32 - pos l)
      let field (l : Nat) : Nat := x l / 2 ^ pos l % 2 ^ len l
      (Answers (.vbfe d a b) s fun t => s.wroteV t false rd field fun _ => 0) ∧
      (Answers (.vbfeSx d a b) s fun t => s.wroteV t false rd (fun l =>
        if len l ≠ 0 ∧ 2 ^ (len l - 1) ≤ field l then 2 ^ 32 - 2 ^ len l + field l else field l) fun _ => 0) ∧
      (Answers (.vbfi d a b) s fun t => s.wroteV t false rd (fun l =>
        old l % 2 ^ pos l + x l % 2 ^ len l * 2 ^ pos l + old l / 2 ^ (pos l + len l) * 2 ^ (pos l + len l))
          fun _ => 0) ∧
      ∀ (eight sa sb sat : Bool),
        let w := if eight then 4 else 8
        let code (u : Nat → Nat) (l k : Nat) : Nat := u l / 2 ^ (w * k) % 2 ^ w
        let num (sx : Bool) (c : Nat) : Int :=
          if sx ∧ w = 4 ∧ c = 8 then 0 else if sx ∧ 2 ^ (w - 1) ≤ c then (c : Int) - (2 ^ w : Nat) else c
        let bad (sx : Bool) (u : Nat → Nat) (l : Nat) : Bool :=
          sx && w == 4 && (List.range 8).any fun k => code u l k == 8
        let sum (l : Nat) : Int := (if 2 ^ 31 ≤ old l then (old l : Int) - (2 ^ 32 : Nat) else old l) +
          ((List.range (32 / w)).map fun k => num sa (code x l k) * num sb (code y l k)).sum
        let out (l : Nat) : Int := if sat then max (-(2 ^ 31 : Nat)) (min (2 ^ 31 - 1 : Nat) (sum l)) else sum l
        Answers (if eight then .vdot8 sa sb sat d a b else .vdot4 sa sb sat d a b) s fun t =>
          s.wroteV t false rd (fun l => (out l % (2 ^ 32 : Nat)).toNat) fun l =>
            (if sat ∧ out l ≠ sum l then 8192 else 0) ||| (if bad sa x l || bad sb y l then 16384 else 0))

/-- Comparisons and predicate words, lane by lane (spec/15 R321, R325). -/
def Obligations.VectorPredicateResults : Prop :=
  ∀ (s : State) (p u v : PReg) (a b : VOp) (ra rb : Nat → Nat), s.clean →
    (∀ (wide : Bool) (q : Pred), s.operands [⟨a, wide⟩, ⟨b, wide⟩] (fun l => [ra l, rb l]) →
      let n := if wide then 64 else 32
      let sgn (x : Nat) : Int := if 2 ^ (n - 1) ≤ x then (x : Int) - (2 ^ n : Nat) else x
      Answers (.vcmp p wide q a b) s fun t => s.wroteP t p.val (fun l =>
        let x := s.regs.vval l wide (ra l)
        let y := s.regs.vval l wide (rb l)
        match q with
        | .eq => decide (x = y)
        | .ne => decide (x ≠ y)
        | .lt => decide (sgn x < sgn y)
        | .le => decide (sgn x ≤ sgn y)
        | .gt => decide (sgn y < sgn x)
        | .ge => decide (sgn y ≤ sgn x)
        | .ltn => decide (x < y)
        | .len => decide (x ≤ y)
        | .gtn => decide (y < x)
        | .gen => decide (y ≤ x)) fun _ => 0) ∧
    (s.regs.walloc ≤ 256 →
      let gives (i : Instr) (f : Bool → Bool → Bool) : Prop := Answers i s fun t =>
        s.wroteP t p.val (fun l => f (s.regs.preg l u.val) (s.regs.preg l v.val)) fun _ => 0
      gives (.pand p u v) (fun x y => x && y) ∧ gives (.por p u v) (fun x y => x || y) ∧
      gives (.pxor p u v) (fun x y => x != y) ∧ gives (.pnot p u) (fun x _ => !x) ∧ gives (.pmov p u) (fun x _ => x) ∧
      ∀ b : Bool, gives (.pset p b) fun _ _ => b)

/-- Floating-point words, lane by lane (spec/15 R326 to R330), and what the sums, products and scalings in which they are stated are: the
exact result rounded as R265 and R266 (spec/12) say, with the special values of R257. -/
def Obligations.VectorFloatResults : Prop :=
  (∀ f ∈ [fmtF16, fmtBf16, fmtF32, fmtF64], ∀ mode : RMode,
    (∀ a m e, m ≠ 0 → f.rounds mode false (.fin a m e) a (f.ofVal mode (.fin a m e))) ∧
    (∀ a e, f.ofVal mode (.fin a 0 e) = (f.signed a 0, 0)) ∧
    (∀ xs : List FVal, xs ≠ [] →
      let total (q : Int) : Int := (xs.map (alignTo q)).sum
      let below (q : Int) : Prop := ∀ a m e, .fin a m e ∈ xs → q ≤ e
      ((∀ x ∈ xs, x.isFin = true) → ∀ q, below q →
        (total q = 0 →
          ((∀ x ∈ xs, ∃ m e, x = .fin true m e) → f.sum mode xs = (f.signed true 0, 0)) ∧
          ((∀ x ∈ xs, ∃ m e, x = .fin false m e) → f.sum mode xs = (0, 0)) ∧
          ((∃ m e, .fin true m e ∈ xs) → (∃ m e, .fin false m e ∈ xs) → f.sum mode xs = (f.signed (decide (mode = .rdn)) 0, 0))) ∧
        (total q ≠ 0 → ∃ c p j, p ≠ 0 ∧ f.sum mode xs = f.ofVal mode (.fin c p j) ∧
          ∀ r, r ≤ j → below r → alignTo r (.fin c p j) = total r)) ∧
      (∀ c : Bool, (∀ x ∈ xs, x.isNan = false) → .inf c ∈ xs →
        f.sum mode xs = if xs.contains (.inf !c) then (f.nan, fNV) else (f.signed c f.infImage, 0)) ∧
      (xs.any FVal.isNan = true → f.sum mode xs = (f.nan, if xs.any FVal.isSnan then fNV else 0))) ∧
    (∀ a m e b n k, f.mul mode (.fin a m e) (.fin b n k) = f.ofVal mode (.fin (a != b) (m * n) (e + k)) ∧
      ∀ c, f.scale mode (.fin a m e) c = f.ofVal mode (.fin a m (e + c))) ∧
    (∀ a b n k,
      let inf (c : Bool) : Nat × Word := (f.signed c f.infImage, 0)
      f.mul mode (.inf a) (.inf b) = inf (a != b) ∧
      f.mul mode (.inf a) (.fin b n k) = (if n = 0 then (f.nan, fNV) else inf (a != b)) ∧
      f.mul mode (.fin b n k) (.inf a) = (if n = 0 then (f.nan, fNV) else inf (a != b)) ∧
      ∀ c, f.scale mode (.inf a) c = inf a) ∧
    (∀ x y : FVal, x.isNan = true ∨ y.isNan = true →
      f.mul mode x y = (f.nan, if x.isSnan = true ∨ y.isSnan = true then fNV else 0) ∧
        (x.isNan = true → ∀ c, f.scale mode x c = (f.nan, if x.isSnan = true then fNV else 0))) ∧
    ∀ (ps : List (FVal × FVal)) (z : FVal),
      let inf (x : FVal) : Bool := x == .inf true || x == .inf false
      let lost := ps.any fun p => (p.1.isZero && inf p.2) || (inf p.1 && p.2.isZero)
      let among (g : FVal → Bool) : Bool := g z || ps.any fun p => g p.1 || g p.2
      let term (p : FVal × FVal) : FVal := match p with
        | (.fin a m e, .fin b n k) => .fin (a != b) (m * n) (e + k)
        | (.fin a _ _, .inf b) | (.inf a, .fin b _ _) | (.inf a, .inf b) => .inf (a != b)
        | _ => .nan false
      (lost = true ∨ among FVal.isNan = true → f.dot mode ps z = (f.nan, if lost || among FVal.isSnan then fNV else 0)) ∧
      (lost = false → among FVal.isNan = false → f.dot mode ps z = f.sum mode (ps.map term ++ [z]))) ∧
  (∀ f ∈ [fmtF16, fmtBf16, fmtF32, fmtF64], ∀ a < 2 ^ f.width, ∀ b < 2 ^ f.width,
    let x := f.val a
    let y := f.val b
    let nv := if x.isSnan = true ∨ y.isSnan = true then fNV else 0
    let nvq := if x.isNan = true ∨ y.isNan = true then fNV else 0
    (∀ greater : Bool, let r := f.pick greater a b
      r.2 = nv ∧ (x.isNan = true → y.isNan = true → r.1 = f.nan) ∧ (x.isNan = true → y.isNan = false → r.1 = b) ∧
      (x.isNan = false → y.isNan = true → r.1 = a) ∧
      (x.isNan = false → y.isNan = false → (r.1 = a ∨ r.1 = b) ∧
        (∀ z ∈ [x, y], if greater then z.leq (f.val r.1) else (f.val r.1).leq z) ∧
        (x.isZero = true → y.isZero = true → r.1 = if greater then min a b else max a b))) ∧
    (∀ code : FPred, ∀ r, f.compare code a b = r →
      (r.1 = true ↔ match code with
        | .eq => x.equals y
        | .ne => ¬x.equals y
        | .lt => x.leq y ∧ ¬y.leq x
        | .le => x.leq y
        | .gt => y.leq x ∧ ¬x.leq y
        | .ge => y.leq x
        | .un => x.isNan = true ∨ y.isNan = true
        | .ord => x.isNan = false ∧ y.isNan = false) ∧
      r.2 = match code with
        | .lt | .le | .gt | .ge => nvq
        | .eq | .ne | .un | .ord => nv) ∧
    (∀ mode : RMode, let r := f.integral mode a
      (x.isNan = true → r = (f.nan, if x.isSnan = true then fNV else 0)) ∧ (∀ n, x = .inf n → r = (a, 0)) ∧
      (x.isFin = true → r.2 = 0 ∧ r.1 < 2 ^ f.width ∧ r.1 / f.signBit = a / f.signBit ∧
        ∃ k, integerBy mode x k ∧ (f.val r.1).equals (intVal k))) ∧
    f.class_ a = match x with
      | .inf true => 2 ^ 0
      | .fin true m _ => if m = 0 then 2 ^ 3 else if a / 2 ^ f.mb % 2 ^ f.eb = 0 then 2 ^ 2 else 2 ^ 1
      | .fin false m _ => if m = 0 then 2 ^ 4 else if a / 2 ^ f.mb % 2 ^ f.eb = 0 then 2 ^ 5 else 2 ^ 6
      | .inf false => 2 ^ 7
      | .nan true => 2 ^ 8
      | .nan false => 2 ^ 9) ∧
  ∀ (s : State) (ty : FTy) (rmd : Bool) (d a b : VOp) (rd ra rb : Nat → Nat), s.clean →
    let w := ty == .f64
    let f := ftyFmt ty
    let mode : RMode := if rmd then dynMode s.regs.fpsr else .rne
    let x (l : Nat) : Nat := s.regs.vval l w (ra l)
    let y (l : Nat) : Nat := s.regs.vval l w (rb l)
    let each1 (g : Nat → Nat × Word) (u : Nat) : Nat × Word :=
      if ty = .f16x2 ∨ ty = .bf16x2 then
        ((g (u % 65536)).1 + 65536 * (g (u / 65536 % 65536)).1, (g (u % 65536)).2 ||| (g (u / 65536 % 65536)).2)
      else g u
    let each2 (g : Nat → Nat → Nat × Word) (u v : Nat) : Nat × Word :=
      if ty = .f16x2 ∨ ty = .bf16x2 then
        ((g (u % 65536) (v % 65536)).1 + 65536 * (g (u / 65536 % 65536) (v / 65536 % 65536)).1,
          (g (u % 65536) (v % 65536)).2 ||| (g (u / 65536 % 65536) (v / 65536 % 65536)).2)
      else g u v
    let gives (i : Instr) (wide : Bool) (out : Nat → Nat × Word) : Prop := Answers i s fun t =>
      s.wroteV t wide rd (fun l => (out l).1) fun l => (out l).2
    (s.operands [⟨d, w⟩, ⟨a, w⟩, ⟨b, w⟩] (fun l => [rd l, ra l, rb l]) →
      let two (i : Instr) (g : Nat → Nat → Nat × Word) : Prop := gives i w fun l => each2 g (x l) (y l)
      two (.vfadd ty rmd d a b) (fun u v => f.sum mode [f.val u, f.val v]) ∧
      two (.vfsub ty rmd d a b) (fun u v => f.sum mode [f.val u, (f.val v).neg]) ∧
      two (.vfmul ty rmd d a b) (fun u v => f.mul mode (f.val u) (f.val v)) ∧
      two (.vfmin ty d a b) (f.pick false) ∧ two (.vfmax ty d a b) (f.pick true)) ∧
    (s.operands [⟨d, w⟩, ⟨a, w⟩, ⟨b, false⟩] (fun l => [rd l, ra l, rb l]) →
      gives (.vfscl ty rmd d a b) w fun l =>
        each1 (fun u => f.scale mode (f.val u) (s.regs.vreg l (rb l)).toInt) (x l)) ∧
    (∀ (c : VOp) (rc : Nat → Nat), s.operands [⟨d, w⟩, ⟨a, w⟩, ⟨b, w⟩, ⟨c, w⟩] (fun l => [rd l, ra l, rb l, rc l]) →
      let fma (u v z : Nat) : Nat × Word := f.dot .rne [(f.val u, f.val v)] (f.val z)
      let z (l : Nat) : Nat := s.regs.vval l w (rc l)
      let out (l : Nat) : Nat × Word :=
        if ty = .f16x2 ∨ ty = .bf16x2 then
          ((fma (x l % 65536) (y l % 65536) (z l % 65536)).1 +
              65536 * (fma (x l / 65536 % 65536) (y l / 65536 % 65536) (z l / 65536 % 65536)).1,
            (fma (x l % 65536) (y l % 65536) (z l % 65536)).2 |||
              (fma (x l / 65536 % 65536) (y l / 65536 % 65536) (z l / 65536 % 65536)).2)
        else fma (x l) (y l) (z l)
      gives (match ty with
        | .f32 => .vfmaF32 d a b c
        | .f64 => .vfmaF64 d a b c
        | .f16x2 => .vfmaF16x2 d a b c
        | .bf16x2 => .vfmaBf16x2 d a b c) w out) ∧
    (s.operands [⟨d, w⟩, ⟨a, w⟩] (fun l => [rd l, ra l]) →
      let one (i : Instr) (g : Nat → Nat × Word) : Prop := gives i w fun l => each1 g (x l)
      one (.vfabs ty d a) (fun u => (u % f.signBit, 0)) ∧
      one (.vfneg ty d a) (fun u => (if u < f.signBit then u + f.signBit else u - f.signBit, 0)) ∧
      ∀ m : RMode, one (.vfrnd ty m d a) (f.integral m)) ∧
    (s.operands [⟨d, false⟩, ⟨a, w⟩] (fun l => [rd l, ra l]) →
      gives (.vfclass ty d a) false fun l => each1 (fun u => (f.class_ u, 0)) (x l)) ∧
    (s.operands [⟨d, false⟩, ⟨a, false⟩, ⟨b, false⟩] (fun l => [rd l, ra l, rb l]) → ∀ bf : Bool,
      let h := if bf then fmtBf16 else fmtF16
      let u (l : Nat) : Nat := (s.regs.vreg l (ra l)).toNat
      let v (l : Nat) : Nat := (s.regs.vreg l (rb l)).toNat
      gives (.vfdot2 bf d a b) false fun l => fmtF32.dot .rne
        [(h.val (u l % 65536), h.val (v l % 65536)), (h.val (u l / 65536), h.val (v l / 65536))]
        (fmtF32.val (s.regs.vreg l (rd l)).toNat)) ∧
    ∀ (wide : Bool) (p : PReg) (code : FPred), s.operands [⟨a, wide⟩, ⟨b, wide⟩] (fun l => [ra l, rb l]) →
      let h := if wide then fmtF64 else fmtF32
      Answers (.vfcmp p wide code a b) s fun t => s.wroteP t p.val
        (fun l => (h.compare code (s.regs.vval l wide (ra l)) (s.regs.vval l wide (rb l))).1)
        fun l => (h.compare code (s.regs.vval l wide (ra l)) (s.regs.vval l wide (rb l))).2

/-- Conversions, packing, quantisation and random bits, lane by lane (spec/15 R332 to R337; spec/12 R258 to R270). SAT where the zero point of
an entry is clamped is log 23, and the flags and overflow of the small formats are log 34, the model's reading. -/
def Obligations.VectorConversionResults : Prop :=
  (∀ f ∈ [fmtE2m1, fmtE4m3, fmtE5m2, fmtF16, fmtBf16, fmtF32, fmtF64], ∀ sat : Bool,
    (∀ mode : RMode,
      (∀ b, toFloat f mode sat (.nan b) = (f.nan, if b = true ∨ f = fmtE2m1 then fNV else 0)) ∧
      (∀ n, toFloat f mode sat (.inf n) = if sat = true ∨ f = fmtE2m1 then (f.signed n f.maxImage, fOF ||| fNX)
        else (if f = fmtE4m3 then 0x7F else f.signed n f.infImage, 0)) ∧
      (∀ n e, toFloat f mode sat (.fin n 0 e) = (f.signed n 0, 0)) ∧
      ∀ n m e, m ≠ 0 → f.rounds mode sat (.fin n m e) n (toFloat f mode sat (.fin n m e))) ∧
    ∀ w ∈ [16, 32], ∀ r < 2 ^ 32,
      (∀ n m e, m ≠ 0 → f.roundsSr w r (.fin n m e) n (toFloatSr f w r sat (.fin n m e))) ∧
      ∀ x : FVal, x.isFin = false ∨ x.isZero = true → toFloatSr f w r sat x = toFloat f .rne sat x) ∧
  (∀ (st dt : CvtTy) (mode : RMode) (sat : Bool) (x : Nat),
    let n := (cvtInt dt).1
    let lo : Int := if (cvtInt dt).2 then -2 ^ (n - 1) else 0
    let hi : Int := if (cvtInt dt).2 then 2 ^ (n - 1) - 1 else 2 ^ n - 1
    let first : Int := if dt = .i4 then -7 else lo
    let image (y : Int) : Nat := wrap (if dt.wide then 64 else 32) y
    let m := (cvtInt st).1
    let bad := st = .i4 ∧ x % 16 = 8
    let v : Int := if bad then 0 else if (cvtInt st).2 then signedOf m x else ((x % 2 ^ m : Nat) : Int)
    let fl := if bad then fI4C else 0
    (∀ f, cvtFmt dt = some f →
      (∀ g, cvtFmt st = some g → convert st dt mode sat x = toFloat f mode sat (g.val x)) ∧
      (cvtFmt st = none → convert st dt mode sat x =
        ((toFloat f mode sat (intVal v)).1, (toFloat f mode sat (intVal v)).2 ||| fl))) ∧
    (cvtFmt dt = none → ∀ g, cvtFmt st = some g →
      ((g.val x).isNan = true → convert st dt mode sat x = (image 0, fNV)) ∧
      (∀ c, g.val x = .inf c → convert st dt mode sat x = (image (if c then first else hi), fNV)) ∧
      ((g.val x).isFin = true → ∃ k nx, integerBy mode (g.val x) k ∧ ((g.val x).equals (intVal k) → nx = 0) ∧
        (¬(g.val x).equals (intVal k) → nx = fNX) ∧ convert st dt mode sat x =
          if k < first then (image first, fNV) else if hi < k then (image hi, fNV) else (image k, nx))) ∧
    (cvtFmt dt = none → cvtFmt st = none →
      (sat = true → convert st dt mode sat x =
        (image (max first (min hi v)), fl ||| if v < first ∨ hi < v then fSAT else 0)) ∧
      (sat = false → dt = .i4 → v % 16 = 8 → convert st dt mode sat x = (image (-7), fl ||| fSAT)) ∧
      (sat = false → (dt = .i4 → v % 16 ≠ 8) →
        ∃ y, lo ≤ y ∧ y ≤ hi ∧ (y - v) % 2 ^ n = 0 ∧ convert st dt mode sat x = (image y, fl)))) ∧
  (∀ x, packed .f16 x = convert .f32 .f16 .rne false x ∧ packed .bf16 x = convert .f32 .bf16 .rne false x ∧
    packed .i8 x = convert .i32 .i8 .rne true x ∧ packed .n8 x = convert .i32 .n8 .rne true x ∧
    packed .i4 x = convert .i32 .i4 .rne true x ∧ packed .e2m1 x = convert .f32 .e2m1 .rne true x ∧
    packed .e4m3 x = convert .f32 .e4m3 .rne true x ∧ packed .e5m2 x = convert .f32 .e5m2 .rne true x ∧
    unpacked .f16 x = convert .f16 .f32 .rne false x ∧ unpacked .bf16 x = convert .bf16 .f32 .rne false x ∧
    unpacked .i8 x = convert .i8 .i32 .rne false x ∧ unpacked .n8 x = convert .n8 .i32 .rne false x ∧
    unpacked .i4 x = convert .i4 .i32 .rne false x ∧ unpacked .e2m1 x = convert .e2m1 .f32 .rne false x ∧
    unpacked .e4m3 x = convert .e4m3 .f32 .rne false x ∧ unpacked .e5m2 x = convert .e5m2 .f32 .rne false x) ∧
  (∀ x < 2 ^ 32, ∀ y < 2 ^ 32,
    let u := fmtF32.val x
    let sc := fmtF16.val (y % 2 ^ 16)
    let zp := y / 2 ^ 16 % 2 ^ 8
    (∀ kind top code, (kind, top, code) ∈ [(QntKind.q8, 255, DqntKind.q8), (.q4, 15, .q4)] →
      (u.isNan = true ∨ sc.isNan = true ∨ sc.isZero = true ∨ u.isFin = false ∧ sc.isFin = false →
        quantise kind x y = (zp, fNV)) ∧
      (∀ a, u = .inf a → ∀ b m e, sc = .fin b m e → m ≠ 0 → quantise kind x y = (if a = b then top else 0, fSAT)) ∧
      (u.isFin = true → sc.isFin = false → sc.isNan = false →
        quantise kind x y = (min zp top, if top < zp then fSAT else 0)) ∧
      (u.isFin = true → sc.isFin = true → sc.isZero = false → ∃ (q : Int) (exact : Bool), quotNearest u sc q (exact = true) ∧
        quantise kind x y = ((max 0 (min (top : Int) (q + zp))).toNat,
          (if q + zp < 0 ∨ (top : Int) < q + zp then fSAT else 0) ||| if exact then 0 else fNX)) ∧
      let c := x % (top + 1)
      (sc.isNan = true → dequantise code x y = (fmtF32.nan, if sc.isSnan = true then fNV else 0)) ∧
      (∀ a, sc = .inf a → dequantise code x y =
        if c = zp then (fmtF32.nan, fNV) else (fmtF32.signed (a != decide (c < zp)) fmtF32.infImage, 0)) ∧
      ∀ a m e, sc = .fin a m e →
        let r := dequantise code x y
        r.2 = 0 ∧ r.1 < 2 ^ 32 ∧ (r.1 / 2 ^ 31 = if (a != decide (c < zp)) = true then 1 else 0) ∧
          (fmtF32.val r.1).equals (.fin (a != decide (c < zp)) (m * ((c : Int) - zp).natAbs) e)) ∧
    (∀ kind top, (kind, top) ∈ [(QntKind.ent8, 255), (.ent4, 15)] →
      let v := fmtF32.val y
      let r := quantise kind x y
      (u.isNan = true ∨ v.isNan = true → r = (0x7E00, fNV)) ∧
      ((intVal 0).leq u → v.leq (intVal 0) → r = (0x3C00, 0)) ∧
      (u.isNan = false → v.isNan = false → u = .inf true ∨ v = .inf false → r.1 % 2 ^ 16 = 0x7BFF ∧ (r.2 &&& (fOF ||| fNX)) = (fOF ||| fNX)) ∧
      (u.isNan = false → v.isNan = false → u ≠ .inf true → v ≠ .inf false → ¬((intVal 0).leq u ∧ v.leq (intVal 0)) →
        ∀ q, q ≤ leastExp [u, v] →
          let lo := if (intVal 0).leq u then 0 else (alignTo q u).natAbs
          let hi := if v.leq (intVal 0) then 0 else (alignTo q v).natAbs
          let span : FVal := .fin false (hi + lo) q
          let times (w : FVal) : FVal := match w with
            | .fin a m e => .fin a (top * m) e
            | z => z
          let big := (FVal.fin false (top * 65520) 0).le span
          let scale := r.1 % 2 ^ 16
          let sc := fmtF16.val scale
          (span.le (.fin false top (-25)) → scale = 1) ∧ (big → scale = 0x7BFF) ∧
          (¬span.le (.fin false top (-25)) → ¬big → ∀ w i, fmtF16.numbers w → fmtF16.val i = w →
            span.nearer (times sc) (times w) ∧ (span.nearer (times w) (times sc) → i = scale ∨ scale % 2 = 0)) ∧
          ∃ (z : Int) (exact : Bool), quotNearest (.fin false lo q) sc z (exact = true) ∧ r.1 / 2 ^ 16 = (min 255 z).toNat ∧
            (r.2 &&& fOF ≠ 0 ↔ big) ∧ (r.2 &&& fSAT ≠ 0 ↔ 255 < z) ∧
            (r.2 &&& fNX ≠ 0 ↔ exact = false ∨ ¬span.equals (times sc)))) ∧
    (let c := y % 256
     quantise .e2m1 x y = (if c = 255 then (0, fNV) else toFloat fmtE2m1 .rne true (match u with
       | .fin n m e => .fin n m (e - ((c : Int) - 127))
       | z => z)) ∧
     dequantise .e2m1 x y = if c = 255 then (fmtF32.nan, 0) else fmtF32.ofVal .rne (match fmtE2m1.val (x % 16) with
       | .fin n m e => .fin n m (e + ((c : Int) - 127))
       | z => z)) ∧
    (let v := fmtF32.mul .rne (intVal (if x % 16 = 8 then 0 else signedOf 4 x)) (fmtF32.val y)
     dequantise .i4 x y = (v.1, v.2 ||| if x % 16 = 8 then fI4C else 0)) ∧
    dequantise .i8 x y = fmtF32.mul .rne (intVal (signedOf 8 x)) (fmtF32.val y)) ∧
  (∀ (seed step : Word) (tid idx : Nat),
    let x := seed ^^^ (BitVec.ofNat 64 (tid % 2 ^ 16) <<< 48 ||| BitVec.ofNat 64 (idx % 2 ^ 48))
    let x := x + step * 0x9E3779B97F4A7C15
    let x := (x ^^^ x >>> 30) * 0xBF58476D1CE4E5B9
    let x := (x ^^^ x >>> 27) * 0x94D049BB133111EB
    let x := x ^^^ x >>> 31
    (srbits seed tid idx step).toNat = x.toNat / 2 ^ 32) ∧
  srbits 0 0 0 1 = 0xE220A839 ∧ srbits 0 0 0 2 = 0x6E789E6A ∧ srbits 0 0 0 3 = 0x06C45D18 ∧
    srbits 0x0003000000000007 3 7 1 = 0xE220A839 ∧
  ∀ (s : State) (d a b : VOp) (rd ra rb : Nat → Nat), s.clean →
    let gives (i : Instr) (wide : Bool) (out : Nat → Nat × Word) : Prop := Answers i s fun t =>
      s.wroteV t wide rd (fun l => (out l).1) fun l => (out l).2
    let x (l : Nat) : Nat := (s.regs.vreg l (ra l)).toNat
    let y (l : Nat) : Nat := (s.regs.vreg l (rb l)).toNat
    let old (l : Nat) : Nat := (s.regs.vreg l (rd l)).toNat
    (∀ (st dt : CvtTy), s.operands [⟨d, dt.wide⟩, ⟨a, st.wide⟩] (fun l => [rd l, ra l]) →
      (∀ (m : CvtMode) (sat : Bool), gives (.vcvt st dt m sat d a) dt.wide fun l =>
        convert st dt (match m with
          | .rne => .rne
          | .rtz => .rtz
          | .rup => .rup
          | .rdn => .rdn
          | .dyn => dynMode s.regs.fpsr) sat (s.regs.vval l st.wide (ra l))) ∧
      ∀ (sat : Bool) (f : Fmt), cvtFmt dt = some f → gives (.vcvtsr st dt sat d a) dt.wide fun l =>
        let v := sourceVal st (s.regs.vval l st.wide (ra l))
        let r := toFloatSr f (if st = .f64 then 32 else 16) (s.regs.vval l dt.wide (rd l) % 2 ^ 32) sat v.1
        (r.1, v.2 ||| r.2)) ∧
    (s.operands [⟨d, false⟩, ⟨a, false⟩] (fun l => [rd l, ra l]) → ∀ (kind : PackKind) (k : Fin 8),
      (gives (.vpack kind d a k) false fun l =>
        (insertN 32 (old l) (packed kind (x l)).1 (packBits kind * k.val) (packBits kind), (packed kind (x l)).2)) ∧
      gives (.vunpk kind d a k) false fun l => unpacked kind (x l / 2 ^ (packBits kind * k.val) % 2 ^ packBits kind)) ∧
    (s.operands [⟨d, false⟩, ⟨a, false⟩, ⟨b, false⟩] (fun l => [rd l, ra l, rb l]) →
      (∀ kind : QntKind, gives (.vqnt kind d a b) false fun l => quantise kind (x l) (y l)) ∧
      ∀ kind : DqntKind, gives (.vdqnt kind d a b) false fun l => dequantise kind (x l) (y l)) ∧
    (s.operands [⟨d, false⟩] (fun l => [rd l]) → ∀ (u v : SReg),
      let hi := (s.regs.sreg (u.val + 1)).toNat
      gives (.vrng d u v) false fun l =>
        ((srbits (s.regs.sreg u.val) (hi / 2 ^ 48) (hi + old l) (s.regs.sreg v.val)).toNat, 0))

/-- The values of the special registers, field by field (spec/06 R133; spec/01 R13 to R19; spec/02 R44 to R47; spec/04 R80; spec/11 R246,
R247; spec/14 R304); %time counts on by the model's own rule (log 4). -/
def Obligations.SpecialReadResults : Prop :=
  ∀ (s : State) (m : Fibre), s.lone m →
    let g := s.regs
    let t := s.team g.team
    let b := (s.inst t.inst).tcb
    let nx := b.nx + 1
    let ny := b.ny + 1
    let nat (x : Nat) : Word := BitVec.ofNat 64 x
    let bit (x : Bool) (k : Nat) : Nat := if x then 2 ^ k else 0
    let f := s.fn s.myFn
    let core := s.coreAt t.core
    let place (l : List Nat) (x : Nat) : Nat := l.findIdx fun y => y == x
    let dies := s.partition s.myFn
    let link : Option Nat :=
      let i := s.lksel.toNat / 2 ^ 8 % 64
      if s.myFn ≠ 0 then none
      else match s.lksel.toNat % 4 with
        | 0 => if i < 48 then some i else none
        | 1 => if i = 0 then some 48 else none
        | 2 => if i < 8 then some (49 + i) else none
        | _ => if i < 24 then some (57 + i) else none
    let val (l : Nat) (n : SpecialReg) : Word :=
      match n with
      | .lane => nat l
      | .group => nat g.num
      | .team => nat t.local_
      | .teamx => nat (t.local_ % nx)
      | .teamy => nat (t.local_ / nx % ny)
      | .teamz => nat (t.local_ / nx / ny)
      | .nteams => nat (nx * ny * (b.nz + 1))
      | .ngroups => nat t.ngroups
      | .role => nat g.role
      | .wb => nat m.wb
      | .walloc => nat g.walloc
      | .fmask => ((g.fibre? m.id).elim m.mask fun f => f.mask).setWidth 64
      | .fflag => nat ((s.it.fflags.get? m.id).getD (s.flagBits s.it.group m.id))
      | .fpsr => g.fpsr
      | .region => nat (s.it.region0.1.code + 16 * s.it.region0.2)
      | .rail => nat (core.vcur + core.vcmd * 2 ^ 8 + core.vg * 2 ^ 16 + core.vfloor * 2 ^ 24 + bit (core.vcur != core.vcmd) 31)
      | .time => nat (s.it.time.getD (s.time + Config.timeStep s.free))
      | .dtst => nat (s.pkg + bit s.master 10 + bit (s.sync && (s.master || decide (s.time < s.exchTime + 2000000))) 11 +
          s.npkg * 2 ^ 16 + (if s.master = true then 0 else min 65535 ((s.time - s.exchTime) / 1000)) * 2 ^ 32)
      | .aggidx => nat t.child
      | .cohort => nat t.cohort
      | .wdog => nat (g.texp + 256 * g.esc + 4096 * g.expn + 65536 * g.cnt)
      | .tvec => g.tvec
      | .tcause => m.trap.elim 0 fun r => nat (r.cause + if r.sup then 256 else 0)
      | .tsyn => m.trap.elim 0 fun r => r.tsyn
      | .tunit => m.trap.elim 0 fun r => r.tunit.getD l 0
      | .ttile => m.trap.elim 0 fun r => r.ttile
      | .tpc => m.trap.elim 0 fun r => nat (r.tpc.toNat % 2 ^ 57)
      | .tlanes => m.trap.elim 0 fun r => nat (r.tl.toNat + 4294967296 * r.il.toNat)
      | .pcore => nat (t.core % 36 + place dies (dieOf t.core) * 2 ^ 8 + g.quarter % 4 * 2 ^ 16)
      | .hmdie => nat f.hmdie
      | .hmap => match dies[f.hmdie]? with
        | none => 0
        | some d => nat ((s.dieAt d).en.toNat + ((List.range 36).filter fun p => (s.dieAt d).en.getLsbD p).length * 2 ^ 36 +
            (s.dieAt d).calf * 2 ^ 42 + 2 ^ 48 + bit (s.dieAt d).inrst 49)
      | .ltsel => nat (if t.shared then f.ltselShared else f.ltselOwn)
      | .ltab =>
        let mine := s.team s.myTeam
        let ds := s.dieSet s.myFn mine.shared
        match (s.logicalCores ds)[if mine.shared then f.ltselShared else f.ltselOwn]? with
        | none => 0
        | some c => nat (c % 36 + place dies (dieOf c) * 2 ^ 8 + c % 36 / 4 * 2 ^ 16 + place (s.dealOrder ds) c * 2 ^ 32 + 2 ^ 63)
      | .lksel => s.lksel
      | .lkstat => match link with
        | none => 0
        | some n =>
          let x := s.link n
          nat (bit x.up 0 + (if x.up = true ∧ 48 ≤ n then (if n < 57 then 16 else 4) * 2 ^ 1 + (if n = 48 then 128 else if n < 57 then 64 else 200) * 2 ^ 8 else 0) +
            min x.retrn 255 * 2 ^ 16 + min x.replay 65535 * 2 ^ 24 + x.capg * 2 ^ 40)
      | .cflip =>
        let c := core.cflip
        nat (bit c.arm 0 + bit c.done 1 + bit c.miss 2 + c.skip * 2 ^ 4 + c.bit * 2 ^ 8 + c.offset * 2 ^ 32)
    let now := s.time + Config.timeStep s.free
    let counted : State := if s.it.time = none then
        { s with time := now, free := s.free + 1 }.modIt fun it => { it with time := some now } else s
    (∀ (d : SReg) (n : SpecialReg), n.code < 32 ∨ s.mySup = true →
      (n ≠ .time → n ≠ .lkstat → Answers (.srdS d n) s fun u => s.wroteS u d.val (val (lowLane m.mask) n)) ∧
      (n = .time → s.it.time = none → s.dueNodes now = [] → s.dueRounds now = [] → Answers (.srdS d n) s fun u =>
        counted.wroteS u d.val (val 0 n)) ∧
      (n = .time → s.it.time ≠ none → Answers (.srdS d n) s fun u => s.wroteS u d.val (val 0 n)) ∧
      (n = .lkstat → Answers (.srdS d n) s fun u => s.clearLkstat.wroteS u d.val (val 0 n) ∧
        ∀ k, link = some k → (u.link k).retrn = 0 ∧ (u.link k).replay = 0)) ∧
    ∀ (d : VOp) (rd : Nat → Nat) (n : SpecialReg) (hi : Bool),
      n.code < 32 ∨ s.mySup = true → s.operands [⟨d, false⟩] (fun l => [rd l]) →
      (n = .time → s.it.time = none → s.dueNodes now = [] ∧ s.dueRounds now = []) → Answers (.srdV d n hi) s fun u =>
        (if n = .time then counted else if n = .lkstat then s.clearLkstat else s).wroteV u false rd
          (fun l => (val l n).toNat / (if hi then 4294967296 else 1)) fun _ => 0

/-- Writes of special registers (spec/06 R133; spec/14 R304). What a write of %cflip does where a copy is targeted already
(log 62), and that %ltsel of the shared set is one for each function (log 82), are the model's choices. -/
def Obligations.SpecialWriteResults : Prop :=
  ∀ (s : State) (m : Fibre) (a : SReg), s.lone m →
    let y := s.regs.sreg a.val
    let f := s.myFn
    let core := (s.team s.myTeam).core
    let left (t : State) (x : LateWrite) : Prop := s.onlyMine t ∧ t.mine = s.mine ∧
      t.quarter s.cur = { s.quarter s.cur with issue := some { s.it with late := [x] } }
    (Answers (.swr .fpsr a) s fun t => s.wrote t [.fpsr ((y &&& fpsrMask) ||| s.it.gflags)]) ∧
    (Answers (.swr .wdog a) s fun t => s.onlyMine t ∧ s.unnoted t ∧
      t.mine = { s.mine with texp := y.toNat % 64, esc := y.toNat / 256 % 16 }) ∧
    (∃ v : Word, (∀ k < 64, v.getLsbD k = (y.getLsbD k && decide (2 ≤ k ∧ k ≤ 56))) ∧
      (s.it.closes = true → Answers (.swr .tvec a) s fun t => s.onlyMine t ∧ s.unnoted t ∧ t.mine = { s.mine with tvec := v }) ∧
      (s.it.closes = false → Answers (.swr .tvec a) s fun t => left t (.tvec v))) ∧
    (s.mySup = true →
      (Answers (.swr .hmdie a) s fun t => (s.setFn f { s.fn f with hmdie := y.toNat % 32 }).wrote t []) ∧
      (Answers (.swr .ltsel a) s fun t => (s.setFn f (if (s.team s.myTeam).shared then
        { s.fn f with ltselShared := y.toNat % 2048 } else { s.fn f with ltselOwn := y.toNat % 2048 })).wrote t []) ∧
      (Answers (.swr .lksel a) s fun t => ({ s with lksel := y &&& 0x3F03 } : State).wrote t []) ∧
      (s.it.closes = true → Answers (.swr .cflip a) s fun t =>
        let x := (s.coreAt core).cflip
        let kept := !y.getLsbD 0
        (s.setCore core { s.coreAt core with cflip :=
          { arm := y.getLsbD 0, done := x.done && y.getLsbD 1 && kept, miss := x.miss && y.getLsbD 2 && kept,
            skip := y.toNat / 2 ^ 4 % 2 ^ 4, bit := y.toNat / 2 ^ 8 % 2 ^ 3, offset := y.toNat / 2 ^ 32,
            targeted := x.targeted && kept } }).wrote t []) ∧
      (s.it.closes = false → Answers (.swr .cflip a) s fun t => left t (.cflip y)) ∧
      ∀ n : SpecialReg, n ∉ ([.fpsr, .wdog, .tvec, .hmdie, .ltsel, .lksel, .cflip] : List SpecialReg) →
        Answers (.swr n a) s fun t => s.wrote t [])

/-- The privilege rules (spec/06 R133; spec/18 R392; cause and syndrome, spec/11 R247). -/
def Obligations.PrivilegeTraps : Prop :=
  (∀ (s : State) (m : Fibre) (n : SpecialReg) (i : Instr), s.mayTrap m → s.it.term = [] → s.mySup = false →
     ((32 ≤ n.code ∧ ((∃ d, i = .srdS d n) ∨ ∃ d hi, i = .srdV d n hi)) ∨
       (n ∉ ([.fpsr, .wdog, .tvec] : List SpecialReg) ∧ ∃ a, i = .swr n a)) →
     Answers i s fun t => s.tookTrap t m 3 (BitVec.ofNat 64 n.code) 0 s.resumeAfter) ∧
  (∀ (s : State) (m : Fibre) (n : SpecialReg) (i : Instr), s.lone m → s.it.closes = false → s.mySup = false →
     ((32 ≤ n.code ∧ ((∃ d, i = .srdS d n) ∨ ∃ d hi, i = .srdV d n hi)) ∨
       (n ∉ ([.fpsr, .wdog, .tvec] : List SpecialReg) ∧ ∃ a, i = .swr n a)) →
     Answers i s fun t => s.pended t 3 (BitVec.ofNat 64 n.code)) ∧
  ∀ (s : State) (m : Fibre) (a b : SReg) (c : CReg) (i : Instr), s.mySup = false →
    i ∈ ([.redOpenDef a b, .redCloseDef a, .railtScript c a, .auds a, .tlmrDie a b] : List Instr) →
    (s.mayTrap m → s.it.term = [] → Answers i s fun t => s.tookTrap t m 3 255 0 s.resumeAfter) ∧
    (s.lone m → s.it.closes = false → Answers i s fun t => s.pended t 3 255)

/-- Lane words, words across lanes, and the words of the framing (spec/14 R304; spec/15 R324; spec/13 R277, R279; spec/11 R249), with a
header that waits and the marks that its wait mask names (spec/06 R128; spec/09 R200; spec/11 R243). That of several failure marks the one
of the lowest-numbered flag raises 0x0E is the model's choice (log 22). That the f32 VRDC of one lane gives the default NaN for a NaN, with NV
for a signalling one, is the reading of spec/12 R257 taken against the copy of R324 (log 115). -/
def Obligations.LaneWordResults : Prop :=
  (∀ (s : State) (m : Fibre) (d a : SReg), s.lone m →
     let x := s.regs.sreg a.val
     (∀ p : PReg, s.regs.walloc ≤ 256 → Answers (.spredPs p a) s fun t =>
       s.wroteP t p.val (fun l => x.getLsbD l) fun _ => 0) ∧
     (∀ (v : VOp) (r : Nat → Nat), s.operands [⟨v, false⟩] (fun l => [r l]) →
       let l := x.toNat % 32
       Answers (.slane d v a) s fun t => ({ s with free := s.free + 1 } : State).wroteS t d.val
         (if m.mask.getLsbD l then (s.regs.vreg l (r l)).setWidth 64 else 0)) ∧
     Answers .nop s (fun t => t = s) ∧
     (∀ (q h : Bool) (ac : BitVec 8) (sq : BitVec 4) (vo : BitVec 8), Answers (.live q h ac sq vo) s fun t =>
       s.onlyMine t ∧ s.unnoted t ∧ t.mine = s.mine.modFibre m.id fun f => { f with live := some ⟨q, h, ac, sq, vo⟩ }) ∧
     ∀ (seta setb : Fin 16) (safe : Bool), frameFault s.it.words = none →
       (∀ k ∈ s.it.members, ∃ f, s.mine.fibre? k = some f) →
       s.it.members ≠ [] → Answers (.hdr 0 seta setb safe) s fun t =>
         t.it.seta = seta.val ∧ t.it.setb = setb.val ∧ t.it.safe = safe ∧ t.it.members = s.it.members ∧
         t.mem = s.mem ∧ t.teams = s.teams ∧ t.ops = s.ops ∧ t.engs = s.engs ∧
         t.mine.s = s.mine.s ∧ t.mine.v = s.mine.v ∧ t.mine.p = s.mine.p) ∧
  (∀ (s : State) (m : Fibre) (wait : BitVec 12) (seta setb : Fin 16) (safe : Bool), s.alone m → s.it.members = [m.id] →
     s.it.pos = 0 → m.drain = false → s.mine.failed = [] →
     (s.waitClear s.it.group m.id wait = false → Answers (.hdr wait seta setb safe) s fun t =>
       s.onlyMine t ∧ t.mine = s.mine.modFibre m.id fun f => { f with kind := .header wait }) ∧
     (s.waitClear s.it.group m.id wait = true → m.trap = none → tvecAddr s.mine.tvec ≠ 0 →
       (∀ j k, j < 12 → wait.getLsbD j = true → m.fail.get? j = some k →
         (∀ i < j, wait.getLsbD i = true → m.fail.get? i = none) → m.poison = [] →
         Answers (.hdr wait seta setb safe) s fun t => s.tookTrap t m 14 k.syn k.tunit { pc := s.it.clause }) ∧
       ∀ j a, j < 12 → wait.getLsbD j = true → (∀ e ∈ m.poison, e.1 / 32 = j ∧ e.2 = a) →
         (∀ l < 32, m.mask.getLsbD l = true → ∃ e ∈ m.poison, e.1 = 32 * j + l) →
         Answers (.hdr wait seta setb safe) s fun t => s.tookTrap t m 9 0 a { pc := s.it.clause })) ∧
  (∀ (s : State) (d a b : VOp) (rd ra rb : Nat → Nat), s.clean →
     let lanes := lanesOf s.it.mask
     let x (l : Nat) : W32 := s.regs.vreg l (ra l)
     let gives (i : Instr) (out : Nat → W32) (m : Word) : Prop := Answers i s fun t =>
       s.wroteV t false rd (fun l => (out l).toNat) fun _ => m
     (s.operands [⟨d, false⟩, ⟨a, false⟩] (fun l => [rd l, ra l]) →
       (∀ k : Fin 32,
         let shfl (sel : ShflSel) (src : Nat → Option Nat) : Prop := gives (.vshfl d a sel)
           (fun l => match src l with
             | some j => if j ∈ lanes then x j else x l
             | none => x l) 0
         shfl (.xor k) (fun l => some (l ^^^ k.val)) ∧
         shfl (.up k) (fun l => if k.val ≤ l then some (l - k.val) else none) ∧
         shfl (.down k) (fun l => if l + k.val < 32 then some (l + k.val) else none)) ∧
       (∀ (op : RdcOp) (ty : RdcTy) (l : Nat) (ls : List Nat), lanes = l :: ls →
         let r := ls.foldl (fun (acc : Nat × Word) k =>
           ((rdcOp op ty acc.1 (x k).toNat).1, acc.2 ||| (rdcOp op ty acc.1 (x k).toNat).2)) ((x l).toNat, 0)
         ((ty = .f32 → (fmtF32.val r.1).isNan = false ∨ ls ≠ []) → gives (.vrdc op ty d a) (fun _ => BitVec.ofNat 32 r.1) r.2) ∧
         ∀ sig, ty = .f32 → ls = [] → fmtF32.val (x l).toNat = .nan sig →
           gives (.vrdc op ty d a) (fun _ => 0x7FC00000#32) (if sig = true then 0x100#64 else 0))) ∧
     (s.operands [⟨d, false⟩, ⟨a, false⟩, ⟨b, false⟩] (fun l => [rd l, ra l, rb l]) →
       gives (.vshfl d a (.idx b)) (fun l =>
         let j := (s.regs.vreg l (rb l)).toNat % 32
         if j ∈ lanes then x j else x l) 0 ∧
       gives (.vperm d a b) (fun l =>
         let j := (s.regs.vreg l (rd l)).toNat % 64
         if j % 32 ∈ lanes then (if j < 32 then x j else s.regs.vreg (j - 32) (rb (j - 32))) else 0) 0)) ∧
  ∀ (x y : W32) (ty : RdcTy),
    (ty ≠ .f32 → rdcOp .add ty x.toNat y.toNat = ((x + y).toNat, 0) ∧ rdcOp .and ty x.toNat y.toNat = ((x &&& y).toNat, 0) ∧
      rdcOp .or ty x.toNat y.toNat = ((x ||| y).toNat, 0) ∧ rdcOp .xor ty x.toNat y.toNat = ((x ^^^ y).toNat, 0)) ∧
    rdcOp .min .i32 x.toNat y.toNat = ((if x.toInt ≤ y.toInt then x else y).toNat, 0) ∧
    rdcOp .max .i32 x.toNat y.toNat = ((if x.toInt ≤ y.toInt then y else x).toNat, 0) ∧
    rdcOp .min .n32 x.toNat y.toNat = (min x.toNat y.toNat, 0) ∧ rdcOp .max .n32 x.toNat y.toNat = (max x.toNat y.toNat, 0) ∧
    rdcOp .add .f32 x.toNat y.toNat = fmtF32.sum .rne [fmtF32.val x.toNat, fmtF32.val y.toNat] ∧
    rdcOp .min .f32 x.toNat y.toNat = fmtF32.pick false x.toNat y.toNat ∧
    rdcOp .max .f32 x.toNat y.toNat = fmtF32.pick true x.toNat y.toNat

/-- Special functions from issue to completion (spec/15 R338; spec/06 R129). -/
def Obligations.SpecialFunctionIssue : Prop :=
  ∀ (s : State) (d a : VOp) (rd ra : Nat → Nat) (sel : Bool), s.clean → s.it.mask ≠ 0 →
    s.operands [⟨d, false⟩, ⟨a, false⟩] (fun l => [rd l, ra l]) →
    let issues (i : Instr) (fn : SfFn) : Prop := Answers i s fun t => ∃ o : Op,
      let out (l : Nat) : Nat × Word := sfValue fn (s.regs.vreg l (ra l)).toNat
      ({ s with ops := s.ops.put s.nextId o, nextId := s.nextId + 1 } : State).wrote t [] ∧
      o.kind = .sf ∧ o.group = s.it.group ∧ o.quarter = s.cur ∧ o.flag = s.it.flagOf sel ∧ o.holders = s.it.members ∧
      o.lanes = s.it.mask ∧ o.poison = [] ∧
      o.writes = (lanesOf s.it.mask).map (fun l => .v l (rd l) (BitVec.ofNat 32 (out l).1)) ∧
      o.fpsr = (lanesOf s.it.mask).map fun l => (l, (out l).2)
    issues (.vrcp d a sel) .rcp ∧ issues (.vrsq d a sel) .rsq ∧ issues (.vsqrt d a sel) .sqrt ∧
    issues (.vexp2 d a sel) .exp2 ∧ issues (.vlog2 d a sel) .log2 ∧ issues (.vsin d a sel) .sin ∧
    issues (.vcos d a sel) .cos ∧ issues (.vtanh d a sel) .tanh

/-- The special functions (spec/12 R272, R273): their special values; on finite operands the correctly rounded 1/x, sqrt x and 1/sqrt x, by
comparison with every other number of the format; and of the other five where the value is exact, which way it goes with the sign, and
NX. Their other values are the model's evaluation (log 12). -/
def Obligations.SpecialFunctionTable : Prop :=
  let inf : Nat := 0x7F800000
  let minus : Nat := 0x80000000
  let one : Nat := 0x3F800000
  let nan : Nat × Word := (0x7FC00000, fNV)
  let row (fn : SfFn) (pz nz pi ni : Nat × Word) : Prop :=
    sfValue fn 0 = pz ∧ sfValue fn minus = nz ∧ sfValue fn inf = pi ∧ sfValue fn (minus + inf) = ni
  row .rcp (inf, fDZ) (minus + inf, fDZ) (0, 0) (minus, 0) ∧ row .rsq (inf, fDZ) (minus + inf, fDZ) (0, 0) nan ∧
  row .sqrt (0, 0) (minus, 0) (inf, 0) nan ∧ row .exp2 (one, 0) (one, 0) (inf, 0) (0, 0) ∧
  row .log2 (minus + inf, fDZ) (minus + inf, fDZ) (inf, 0) nan ∧ row .sin (0, 0) (minus, 0) nan nan ∧
  row .cos (one, 0) (one, 0) nan nan ∧ row .tanh (0, 0) (minus, 0) (one, 0) (minus + one, 0) ∧
  (∀ x, minus < x → x < minus + inf → sfValue .rsq x = nan ∧ sfValue .sqrt x = nan ∧ sfValue .log2 x = nan) ∧
  (∀ (fn : SfFn) (sign : Bool) (x : Nat), inf < x → x < minus →
    sfValue fn (x + if sign then minus else 0) = (0x7FC00000, if x % 8388608 < 4194304 then fNV else 0)) ∧
  ∀ (image : Nat) (a : Bool) (m : Nat) (e : Int), image < 2 ^ 32 → fmtF32.val image = .fin a m e → m ≠ 0 →
    let side := if a then minus else 0
    let gives (fn : SfFn) (b : Bool) (n : Nat) (k : Int) : Prop := (sfValue fn image).1 < 2 ^ 32 ∧
      fmtF32.val (sfValue fn image).1 = .fin b n k
    ((FVal.fin false m e).le (.fin false 1 (-128)) → sfValue .rcp image = (side + inf, fOF ||| fNX)) ∧
    (¬(FVal.fin false m e).le (.fin false 1 (-128)) → ∃ n k, gives .rcp a n k ∧
      (∀ w i, fmtF32.numbers w → fmtF32.val i = w →
        let near := (mulVal (.fin a m e) (.fin a n k)).1
        let other := (mulVal (.fin a m e) w).1
        (intVal 1).nearer near other ∧
          ((intVal 1).nearer other near → i % minus = (sfValue .rcp image).1 % minus ∨ (sfValue .rcp image).1 % 2 = 0)) ∧
      (sfValue .rcp image).2 = if (FVal.fin false (m * n) (e + k)).equals (intVal 1) then 0
        else if (FVal.fin false m e).le (.fin false 1 126) then fNX else fUF ||| fNX) ∧
    (a = false →
      (∃ n k, gives .sqrt false n k ∧ n ≠ 0 ∧ ∀ j : Int, j ≤ k → 2 * j ≤ e → ∀ x y, x = alignTo (2 * j) (.fin false m e) →
        y = alignTo j (.fin false n k) → (sfValue .sqrt image).2 = (if y * y = x then 0 else fNX) ∧
        ∀ p q, fmtF32.numbers (.fin false p q) → j ≤ q → ∀ z, z = alignTo j (.fin false p q) →
          (z < y → (y + z) * (y + z) < 4 * x) ∧ (y < z → 4 * x < (y + z) * (y + z))) ∧
      ∃ n k, gives .rsq false n k ∧ n ≠ 0 ∧ ∀ j h : Int, j ≤ k → h ≤ e → h + 2 * j ≤ 0 → ∀ x y, x = alignTo h (.fin false m e) →
        y = alignTo j (.fin false n k) → ∀ one : Int, one = 2 ^ (-(h + 2 * j)).toNat →
        (sfValue .rsq image).2 = (if x * (y * y) = one then 0 else fNX) ∧
        ∀ p q, fmtF32.numbers (.fin false p q) → j ≤ q → ∀ z, z = alignTo j (.fin false p q) →
          (z < y → x * ((y + z) * (y + z)) < 4 * one) ∧ (y < z → 4 * one < x * ((y + z) * (y + z)))) ∧
    ((∀ k : Int, (FVal.fin a m e).equals (intVal k) → sfValue .exp2 image = fmtF32.ofVal .rne (.fin false 1 k)) ∧
      ((∀ k : Int, ¬(FVal.fin a m e).equals (intVal k)) → (sfValue .exp2 image).2 &&& fNX ≠ 0)) ∧
    (a = false → (∀ k : Int, (FVal.fin false m e).equals (.fin false 1 k) → sfValue .log2 image = fmtF32.ofVal .rne (intVal k)) ∧
      ((∀ k : Int, ¬(FVal.fin false m e).equals (.fin false 1 k)) → (sfValue .log2 image).2 &&& fNX ≠ 0)) ∧
    (∀ fn ∈ [SfFn.sin, .cos, .tanh], (sfValue fn image).2 &&& fNX ≠ 0) ∧
    (a = false →
      sfValue .cos (minus + image) = sfValue .cos image ∧
      ∀ fn ∈ [SfFn.sin, .tanh], (sfValue fn (minus + image)).1 % minus = (sfValue fn image).1 % minus ∧
        (sfValue fn (minus + image)).2 = (sfValue fn image).2) ∧
    (sfValue .tanh image).1 / minus = (if a then 1 else 0) ∧
    ((FVal.fin false 1 6).le (.fin false m e) → sfValue .tanh image = (side + one, fNX))

/-- Window and index words (spec/14 R315, R316). -/
def Obligations.WindowIndexResults : Prop :=
  ∀ (s : State) (m : Fibre), s.lone m →
    (∀ (a : Option SReg) (imm : BitVec 10) (add : Bool),
      let w : Int := (if add then (m.wb : Int) else 0) + (match a with
        | some r => (s.regs.sreg r.val).toInt
        | none => 0) + imm.toInt
      let i : Instr := if add then .winadd a imm else .winset a imm
      (w % 8 = 0 → 0 ≤ w → w + 8 ≤ s.regs.walloc → Answers i s fun t => s.wrote t [.wb m.id w.toNat]) ∧
      (¬(w % 8 = 0 ∧ 0 ≤ w ∧ w + 8 ≤ s.regs.walloc) → s.mayTrap m → s.it.term = [] → Answers i s fun t =>
        s.tookTrap t m 4 (BitVec.ofInt 64 w) 1 (s.resumeWord m))) ∧
    ∀ (d : XReg) (src : XSrc) (imm : BitVec 9) (r : Nat → Nat),
      (∀ v, src = .v v → s.operands [⟨v, false⟩] fun l => [r l]) →
      let base (l : Nat) : BitVec 16 := match src with
        | .imm => 0
        | .v _ => (s.regs.vreg l (r l)).setWidth 16
        | .s a => (s.regs.sreg a.val).setWidth 16
        | .x a => s.regs.xreg l a.val
      let y (l : Nat) : BitVec 16 := base l + imm.signExtend 16
      let gives (i : Instr) (out : Nat → BitVec 16) : Prop := Answers i s fun t =>
        s.wrote t ((lanesOf m.mask).map fun l => .x l d.val (out l))
      gives (.xmov d src imm) y ∧ gives (.xadd d src imm) fun l => s.regs.xreg l d.val + y l

/-- The terminal words (spec/14 R305 to R313). -/
def Obligations.ControlTransferResults : Prop :=
  ∀ (s : State) (m : Fibre), s.lone m → s.it.lastPlace = true →
    let gives (i : Instr) (x : Term) (ws : List GWrite) : Prop := Answers i s fun t => s.noted t m x ws
    let target (off : BitVec 17) : Word := s.it.clause + off.signExtend 64 * 4
    let seq : Word := s.it.clause + BitVec.ofNat 64 (4 * s.it.words.length)
    (∀ off, gives (.brAlways off) (.goto (target off)) []) ∧
    (∀ (c : CReg) (n : Bool) off, gives (.brCond c n off) (if m.c.getLsbD c.val ≠ n then .goto (target off) else .next) []) ∧
    (∀ (c : Fin 8) off, gives (.call c off) (.goto (target off)) [.s (56 + c.val) seq]) ∧
    (∀ a : SReg, (s.regs.sreg a.val).toNat % 4 = 0 →
      gives (.bri a) (.goto (s.regs.sreg a.val)) [] ∧ gives (.ret a) (.goto (s.regs.sreg a.val)) []) ∧
    (∀ (lc : LcReg) (cnt : LoopCount) (len : BitVec 8), m.loops.levels < 3 → lc.val = m.loops.levels →
      let stop := seq + BitVec.ofNat 64 (4 * (len.toNat + 1))
      let n : W32 := match cnt with
        | .imm k => BitVec.ofNat 32 k.val
        | .reg r => (s.regs.sreg r.val).setWidth 32
      (∀ k, m.loops.levels = k + 1 → stop ≤ m.loops.stop.getD k 0) →
      (n = 0 → gives (.loop lc cnt len) (.goto stop) []) ∧
      (n ≠ 0 → gives (.loop lc cnt len) (.goto seq) [.loops m.id
        { lc := m.loops.lc.put lc.val 0, bound := m.loops.bound.put lc.val n, start := m.loops.start.put lc.val seq,
          stop := m.loops.stop.put lc.val stop, levels := lc.val + 1 }])) ∧
    (∀ (lc : LcReg) (c : Option CReg),
      let open_ := lc.val < m.loops.levels ∧ ∀ k, c = some k → m.c.getLsbD k.val = true
      (¬open_ → gives (.lbrk lc c) .next []) ∧
      (open_ → gives (.lbrk lc c) (.goto (m.loops.stop.getD lc.val 0)) [.loops m.id { m.loops with levels := lc.val }])) ∧
    (∀ (p : PReg) (n : Bool) off, Answers (.fsplit p n off) s fun t => ∃ a b : Mask,
      s.noted t m (.split a b (target off)) [] ∧ ∀ l < 32,
        a.getLsbD l = (m.mask.getLsbD l && (s.regs.preg l p.val != n)) ∧
        b.getLsbD l = (m.mask.getLsbD l && (s.regs.preg l p.val == n))) ∧
    gives .fjoin (if m.entry.isSome then .park .join else .next) [] ∧ gives .fend .endLanes [] ∧
    gives .gend .endGroup [] ∧ gives .yield .yield [] ∧ (m.trap.isSome = true → gives .rett .rett [])

/-- Traps of the terminal words (spec/14 R307, R309, R312; spec/11 R247). -/
def Obligations.ControlTransferTraps : Prop :=
  ∀ (s : State) (m : Fibre), s.mayTrap m → s.it.term = [] → s.it.lastPlace = true →
    let traps (i : Instr) (cause : Nat) (tsyn tunit : Word) (r : Resume) : Prop := Answers i s fun t =>
      s.tookTrap t m cause tsyn tunit r
    let image : Word := (s.it.word s.it.pos).setWidth 64
    (∀ a : SReg, (s.regs.sreg a.val).toNat % 4 ≠ 0 →
      traps (.bri a) 6 4 (s.regs.sreg a.val) (s.resumeWord m) ∧ traps (.ret a) 6 4 (s.regs.sreg a.val) (s.resumeWord m)) ∧
    (∀ (lc : LcReg) (cnt : LoopCount) (len : BitVec 8),
      let stop := s.it.clause + BitVec.ofNat 64 (4 * s.it.words.length) + BitVec.ofNat 64 (4 * (len.toNat + 1))
      (3 ≤ m.loops.levels → traps (.loop lc cnt len) 19 3 0 s.resumeAfter) ∧
      (m.loops.levels < 3 → lc.val ≠ m.loops.levels → traps (.loop lc cnt len) 1 image 0 s.resumeAfter) ∧
      (∀ k, m.loops.levels = k + 1 → k < 2 → m.loops.stop.getD k 0 < stop →
        traps (.loop lc cnt len) 1 image 0 s.resumeAfter)) ∧
    traps .rett 1 image 0 s.resumeAfter

/-- The entry of a trap (spec/11 R240, R246, R247), by the words that raise one (spec/14 R312), and by an encoding, a chain or a framing that
issue refuses (spec/13 R276, R282, R284; spec/11 R238). -/
def Obligations.ProgramTraps : Prop :=
  (∀ (s : State) (m : Fibre) (code : BitVec 16), s.mayTrap m → s.it.term = [] →
    (Answers (.trap code) s fun t => s.tookTrap t m 17 (code.setWidth 64) 0 s.resumeAfter) ∧
    Answers (.bkpt code) s fun t => s.tookTrap t m 16 (code.setWidth 64) 0 s.resumeAfter) ∧
  ∀ s : State,
    (∀ pre p post, s.it.groupPositions = pre ++ p :: post →
      (∀ j ∈ pre, ∃ i, s.it.decoded j = some i ∧ s.stateIllegal { s.it with pos := j } i.1 = false) →
      (s.it.decoded p = none ∨ ∃ i, s.it.decoded p = some i ∧ s.stateIllegal { s.it with pos := p } i.1 = true) →
      s.groupFault = some (1, (s.it.word p).setWidth 64, p)) ∧
    (∀ (ws : List (Pipe × Instr)) p, (s.it.groupPositions.map fun j =>
        (s.it.decoded j).map fun i => (pipeOf ((s.it.word j).toNat / 2 ^ 24 % 2 ^ 6), i.1)) = ws.map some →
      (∀ j ∈ s.it.groupPositions, ∀ i, s.it.decoded j = some i → s.stateIllegal { s.it with pos := j } i.1 = false) →
      s.it.groupPositions.head? = some p →
      let gives (k : Nat) : Prop := s.groupFault = some (2, BitVec.ofNat 64 ((s.it.word p).toNat + 2 ^ 32 * k), p)
      let many : Prop := 2 < ws.countP (fun w => w.1 == .v) ∨ ∃ q : Pipe, q ≠ .v ∧ q ≠ .none ∧ 1 < ws.countP fun w => w.1 == q
      let hit : Prop := ∃ w ∈ ws, ∃ y ∈ ws, w.1 = .m ∧ y.1 ≠ .m ∧ ∃ x ∈ sourceNames w.2, ∃ d ∈ destNames y.2,
        x = d ∨ (d = .anyV ∧ ∃ n, x = .v n)
      (many → gives 1) ∧ (¬many → hit → gives 2) ∧ (¬many → ¬hit → s.groupFault = none)) ∧
    (∀ (r : VNum) (a b : SReg) (m : GAddr) (w : Width) (idx : Fin 64) (sp : Space) (sel : Bool) (l : ALit) (z : WLit),
      let vs (n k : Nat) : List RegName := (List.range k).map fun j => .v (n + j)
      let addr (b : SReg) (x : Fin 64) : List RegName := if x.val = 63 then [.s b.val] else [.s b.val, .v x.val]
      let reads (i : Instr) (xs : List RegName) : Prop := ∀ x, x ∈ sourceNames i ↔ x ∈ xs
      let from_ := addr m.base m.idx
      let wide := match w with
        | .b64 => 2
        | .b128 => 4
        | _ => 1
      let ext := (m.lit.map fun l => l.ext.toNat).getD 0
      let op := (if l.wd then 2 else 1) * if l.aop = .cas then 2 else 1
      (∀ i ∈ ([.vld r m w sel, .vldr r m sel, .sld a m w sel, .vlds r m w sel, .vldc r m w sel, .vldd r m w sel,
        .vldp r m w sel, .prefL1 m, .prefL2 m, .prefSc m, .cwb m sel, .cinv m] : List Instr), reads i from_) ∧
      (∀ i ∈ ([.vst r m w, .vsts r m w, .vstc r m w, .vstd r m w, .vstp r m w] : List Instr), reads i (from_ ++ vs r.val wide)) ∧
      reads (.vstr r m) (from_ ++ if ext = 0 then vs r.val 4 else if ext = 1 then vs r.val 3
        else if ext = 2 then vs (r.val + 3) 1 else vs (r.val + 1) 2) ∧
      reads (.sst a m w) (from_ ++ if w = .b128 then [.s a.val, .s (a.val + 1)] else [.s a.val]) ∧
      reads (.vatom r b idx sp sel l) (addr b idx ++ vs r.val op) ∧ reads (.vred r b idx sp sel l) (addr b idx ++ vs r.val op) ∧
      reads (.satom a b sp sel l) ([.s b.val, .s a.val] ++ if l.aop = .cas then [.s (a.val + 1)] else []) ∧
      reads (.waitm a b sp z) [.s a.val]) ∧
    (∀ (d a b c : VOp) (ty : IntTy) (ft : FTy) (wide : Bool) (p : PReg) (st dt : CvtTy) (rm : CvtMode) (pk : PackKind)
        (qk : QntKind) (dk : DqntKind) (k : Fin 8) (x y : SReg) (n : SpecialReg) (imm : BitVec 12) (big : BitVec 18) (rmd sel : Bool)
        (sh : ShflSel) (ro : RdcOp) (rt : RdcTy) (mode : RMode),
      let writes (wide : Bool) (i : Instr) : Prop := destNames i = match d with
        | .idx .. => [.anyV]
        | .dir n => if wide then [.v n.val, .v (n.val + 1)] else [.v n.val]
      (∀ i ∈ ([.vadd ty d a b, .vsub ty d a b, .vmul ty d a b, .vmulh ty d a b, .vand ty d a b, .vor ty d a b, .vxor ty d a b,
        .vnot ty d a, .vshl ty d a b, .vshr ty d a b, .vsra ty d a b, .vmin ty d a b, .vmax ty d a b, .vabs ty d a,
        .vneg ty d a, .vmov ty d a] : List Instr), writes ty.wide i) ∧
      (∀ i ∈ ([.vfadd ft rmd d a b, .vfsub ft rmd d a b, .vfmul ft rmd d a b, .vfmin ft d a b, .vfmax ft d a b,
        .vfscl ft rmd d a b, .vfabs ft d a, .vfneg ft d a, .vfrnd ft mode d a] : List Instr), writes (ft == .f64) i) ∧
      writes wide (.vsel d wide p a b) ∧ writes true (.vfmaF64 d a b c) ∧ writes dt.wide (.vcvt st dt rm sel d a) ∧
      writes dt.wide (.vcvtsr st dt sel d a) ∧
      (∀ i ∈ ([.vaddi d a imm, .vmovi d big, .vmad d a b c, .vclz d a, .vpopc d a, .vbfe d a b, .vbfeSx d a b, .vbfi d a b,
        .vdot4 rmd wide sel d a b, .vdot8 rmd wide sel d a b, .vshfl d a sh, .vperm d a b, .vrdc ro rt d a, .vmovs d x,
        .vmovsHi d x, .vfmaF32 d a b c, .vfmaF16x2 d a b c, .vfmaBf16x2 d a b c, .vfclass ft d a, .vfdot2 wide d a b,
        .vpack pk d a k, .vunpk pk d a k, .vqnt qk d a b, .vdqnt dk d a b, .vrng d x y, .vrcp d a sel, .vrsq d a sel,
        .vsqrt d a sel, .vexp2 d a sel, .vlog2 d a sel, .vsin d a sel, .vcos d a sel, .vtanh d a sel, .srdV d n sel] : List Instr),
        writes false i)) ∧
    (∀ (d a b : SReg) (c : CReg) (p : PReg) (v : VOp) (n : SpecialReg) (lc : LcReg) (i12 : BitVec 12) (i18 : BitVec 18) (q : Fin 4)
        (i16 : BitVec 16) (i17 : BitVec 17) (l : Fin 8) (tile : AccReg) (h : HReg) (idx : Fin 64),
      (∀ i ∈ ([.sadd d a b, .ssub d a b, .smul d a b, .smulh d a b, .smulhn d a b, .sand d a b, .sor d a b, .sxor d a b,
        .sshl d a b, .sshr d a b, .ssra d a b, .smin d a b, .smax d a b, .sminn d a b, .smaxn d a b, .smov d a, .smovLc d lc,
        .saddi d a i12, .smovi d i18, .smovh d q i16, .ssel d c a b, .sclz d a, .spopc d a, .sbfe d a b, .sbfeSx d a b,
        .sbfi d a b, .srdS d n, .spredSp d p, .slane d v b, .railr d, .tlmrDie d a, .tlmrOwn d a, .mchk d tile, .hfill d h,
        .hstat d h, .redMap d h idx] : List Instr), destNames i = [.s d.val]) ∧
      destNames (.call l i17) = [.s (56 + l.val)]) ∧
    (∀ (v : VNum) (tile : AccReg) (q : Fin 4) (t : TReg) (c : SReg) (sel : Bool),
      (∀ x, x ∈ destNames (.mfrgRd v tile q sel) ↔ ∃ k < 32, x = .v (v.val + k)) ∧
      destNames (.tdldRow v t c sel) = [.v v.val] ∧ destNames (.tdldCol v t c sel) = [.v v.val]) ∧
    (∀ m p, s.alone m → s.it.members = [m.id] → s.it.term = [] → s.it.reissue = [] → s.it.only = none → m.trap = none →
      tvecAddr s.mine.tvec ≠ 0 → ∀ c y, (c = 1 ∨ c = 2) →
      ∃ u, s.tookTraps u m c y (fun _ => 0) (s.it.addr p) { pc := s.it.clause, mid := some (s.it.groupNext p), term := none } ∧
        s.failGroup c y p = u.newGroup (s.it.groupNext p)) ∧
    (∀ m wait seta setb safe p, s.alone m → s.it.members = [m.id] → s.it.pos = 0 → m.drain = false → m.fail = [] → m.poison = [] →
      s.mine.failed = [] → s.waitClear s.it.group m.id wait = true → m.trap = none → tvecAddr s.mine.tvec ≠ 0 →
      frameFault s.it.words = some p →
      Answers (.hdr wait seta setb safe) s fun t => s.tookTraps t m 1 ((s.it.word p).setWidth 64) (fun _ => 0) (s.it.addr p)
        { pc := s.it.clause + BitVec.ofNat 64 (12 * (p / 3 + 1)) }) ∧
    (∀ (ws : List W32) (i : Nat), i < ws.length →
      let w := (ws.getD i 0).toNat
      let major := w / 2 ^ 24 % 2 ^ 6
      (i = 0 ∧ (major ≠ 1 ∨ 2 ^ 30 ≤ w ∨ w % 2 ^ 3 ≠ 0 ∨ 12 ≤ w / 2 ^ 8 % 16 ∧ w / 2 ^ 8 % 16 < 15 ∨ 12 ≤ w / 2 ^ 4 % 16 ∧ w / 2 ^ 4 % 16 < 15)) ∨
        (i ≠ 0 ∧ major = 1) ∨ (i % 3 ≠ 2 ∧ w / 2 ^ 30 % 2 = 1) ∨ (i % 3 = 2 ∧ 2 ^ 31 ≤ w) ∨ (i = 23 ∧ w / 2 ^ 30 % 2 = 0) →
      ∃ p ≤ i, frameFault ws = some p)

/-- The bounds of R132 (spec/06), by the words that name a v destination. -/
def Obligations.RegisterBoundsTrap : Prop :=
  ∀ (s : State) (m : Fibre) (o a b c : VOp) (d : Int), s.mayTrap m → s.it.term = [] →
    (d < 0 ∨ 63 < d ∨ (s.regs.walloc : Int) ≤ m.wb + d) →
    (match o with
      | .dir n => d = n.val
      | .idx x imm => ∀ l, m.mask.getLsbD l = true → d = (s.regs.xreg l x.val).toInt + imm.val) →
    let traps (i : Instr) : Prop := Answers i s fun t => s.tookTrap t m 4 (BitVec.ofInt 64 d) 0 (s.resumeWord m)
    traps (.vadd .i32 o a b) ∧ traps (.vmad o a b c) ∧ (∀ p, traps (.vsel o false p a b)) ∧
    (∀ imm, traps (.vmovi o imm)) ∧ ∀ (st dt : CvtTy) mode sat, dt.wide = false → traps (.vcvt st dt mode sat o a)

/-- Double traps (spec/11 R244; level 3, spec/05 R106), and the audit-mismatch trap, with its waiting (spec/09 R201, R208; spec/11 R240). That a
boundary delivers one mismatch, the earliest, is the model's choice (log 32). -/
def Obligations.DoubleTrap : Prop :=
  (∀ (s : State) (g : Nat) (p : PendTrap) (m : Mask) (r : Resume) (f : Fibre),
    (s.group g).fibre? p.fibre = some f → m &&& f.mask ≠ 0 → f.trap.isSome = true ∨ tvecAddr (s.group g).tvec = 0 →
    Tab.sorted s.teams = true →
    let i := (s.team (s.group g).team).inst
    let t := s.takeTrap g p m r
    t = s.killInstance i ∧ (∀ x ∈ t.insts, x.1 = i → x.2.killed = true) ∧
      (∀ x ∈ t.teams, x.2.inst = i → x.2.ended = true) ∧
      ∀ x ∈ t.groups, (∃ y, s.teams.get? x.2.team = some y ∧ y.inst = i ∧ y.ended = false) → x.2.fibres = []) ∧
  ∀ (s : State) (g : Nat) (f : Fibre) (k : FailMark) (rest : List Due), (s.group g).due = .audit k :: rest →
    (f ∈ (s.group g).fibres → f.trap.isSome = true → .timeout ∉ rest → (∀ x ∈ (s.group g).fibres, x ≠ f → lowLane f.mask < lowLane x.mask) →
      Answers (.auditMismatchTrap g) s fun t => t = s) ∧
    ((s.group g).fibres = [f] → f.trap = none → f.kind = .run → f.mask ≠ 0 → tvecAddr (s.group g).tvec ≠ 0 →
      (s.group g).ended = false → (s.group g).served = false → (s.team (s.group g).team).ended = false →
      (s.team (s.group g).team).stopped = false → (s.team (s.group g).team).barriers = [] → (∀ e ∈ s.teams, e.2.gbar = []) →
      (∀ q ∈ s.quarters, ∀ it, q.2.issue = some it → it.group ≠ g) →
      Answers (.auditMismatchTrap g) s fun t => (t.group g).due = rest ∧ (t.group g).served = true ∧ ∃ y x,
        (t.group g).fibres = [y] ∧ y.mask = f.mask ∧ y.at_ = { pc := tvecAddr (s.group g).tvec } ∧ y.trap = some x ∧ x.cause = 15 ∧
          x.tsyn = k.tsyn ∧ x.ttile = k.ttile ∧ x.retResume = f.at_ ∧ x.tl = f.mask ∧ x.il = f.mask)

/-- The effect of RETT at the clause boundary (spec/11 R248). That the marks of both kinds go, whichever of 0x09 and 0x0E the marked header
raised, is the model's reading (log 78). -/
def Obligations.TrapReturn : Prop :=
  ∀ (s : State) (g id : Nat) (f : Fibre) (x : TrapRegs), (s.group g).fibre? id = some f → f.trap = some x →
    let t := s.returnTrap g id
    let named (k : Nat) : Bool := (x.cause == 9 || x.cause == 14) && x.wait.getLsbD k
    { t with groups := s.groups, ops := s.ops, engs := s.engs } = s ∧
    (∀ k, k ≠ g → t.group k = s.group k) ∧
    { t.group g with fibres := (s.group g).fibres, nextFibre := (s.group g).nextFibre } = s.group g ∧
    ∃ n, (t.group g).fibres = ((s.group g).fibres.filter fun y => y.id != id) ++ [n] ∧
      n.id = (s.group g).nextFibre ∧ n.mask = f.mask ∧ n.trap = none ∧ n.at_ = x.retResume ∧ n.wb = x.retWb ∧ n.c = f.c ∧
      n.loops = x.retLoops ∧ n.entry = x.retEntry ∧ n.kind = .run ∧ n.drain = false ∧
      (∀ e ∈ n.fail, named e.1 = false) ∧ (∀ e ∈ n.poison, named (e.1 / 32) = false) ∧
      (Tab.sorted f.fail = true → ∀ k, named k = false →
        (x.retFail.get? k = none → n.fail.get? k = f.fail.get? k) ∧
        (f.fail.get? k = none → n.fail.get? k = x.retFail.get? k) ∧
        ∀ a b, x.retFail.get? k = some a → f.fail.get? k = some b → ∃ y, n.fail.get? k = some y ∧
          (∀ o, o ∈ y.ops ↔ o ∈ a.ops ∨ o ∈ b.ops) ∧
          (y.tsyn, y.tunit, y.ttile) = (let z := if b.ops.headD 0 < a.ops.headD 0 then b else a; (z.tsyn, z.tunit, z.ttile))) ∧
      (∀ k, named (k / 32) = false → n.poison.get? k = match f.poison.get? k with
        | some y => some y
        | none => if f.mask.getLsbD (k % 32) = true then x.retPoison.get? k else none) ∧
      (let holds (hs : List Nat) : List Nat := hs.map fun h => if h = id then n.id else h
       t.ops = s.ops.map (fun e => (e.1, { e.2 with holders := if e.2.group = g then holds e.2.holders else e.2.holders })) ∧
       t.engs = s.engs.map fun e => (e.1, { e.2 with holders := if e.2.group = g then holds e.2.holders else e.2.holders }))

/-- Control flow at the clause boundary (spec/14 R305 to R313), with FJOIN in an open split: the join that completes, the fibre that waits,
and the rejoin deadlock (spec/06 R119, R122). -/
def Obligations.ClauseEndTransfers : Prop :=
  (∀ (s : State) (m : Fibre) (e : Nat) (x : SplitEntry), s.lastWord m → m.entry = some e → s.mine.split.get? e = some x →
    Tab.sorted s.mine.split = true → (∀ z ∈ s.mine.split, z.1 ≠ e → s.mine.joinable z.1 z.2 = false) →
    let seq : Word := s.it.clause + BitVec.ofNat 64 (4 * s.it.words.length)
    let others := s.mine.fibres.filter fun f => f.id != m.id
    let waits (f : Fibre) : Prop := f.kind = .parked .join ∧ f.entry = some e
    let part (f : Fibre) : Prop := f.id = m.id ∨ waits f
    let woken (f : Fibre) : Fibre := if f.id = m.id then m.fall seq else f.fall f.at_.pc
    let absent : Prop := ∃ l < 32, x.join.getLsbD l = true ∧ (∃ f ∈ others, f.mask.getLsbD l = true) ∧
      ∀ f ∈ s.mine.fibres, part f → f.mask.getLsbD l = false
    let first (r : Fibre) (p : Fibre → Prop) : Prop := r ∈ s.mine.fibres ∧ p r ∧
      ∀ f ∈ s.mine.fibres, p f → f.id ≠ r.id → lowLane r.mask < lowLane f.mask
    let ends (P : State → Group → Prop) : Prop := ∃ t, onNext (exec .fjoin s) State.advance = .next t ∧
      (t.quarter s.cur).issue = none ∧ P t (t.group s.it.group);
    (∀ r, (∀ f ∈ others, f.mask &&& x.join ≠ 0 → waits f) → first r part → ends fun t g => ∃ n ∈ g.fibres,
      n.kind = .run ∧ (∀ l < 32, n.mask.getLsbD l = true ↔ ∃ f ∈ s.mine.fibres, part f ∧ f.mask.getLsbD l = true) ∧
      n.at_ = (woken r).at_ ∧ n.loops = (woken r).loops ∧ n.wb = r.wb ∧ n.c = r.c ∧ n.entry = x.outer ∧ g.split.get? e = none ∧
      (∀ y ∈ g.fibres, y.id ≠ n.id → ∃ f ∈ others, ¬waits f ∧ y.id = f.id ∧ y.mask = f.mask ∧ y.at_ = f.at_ ∧ y.kind = f.kind) ∧
      ∀ o ∈ s.ops, o.2.group = s.it.group → (∃ f ∈ s.mine.fibres, part f ∧ f.id ∈ o.2.holders) →
        ∃ o' ∈ t.ops, o'.1 = o.1 ∧ n.id ∈ o'.2.holders) ∧
    (absent → (∃ f ∈ others, f.kind ≠ .parked .join) → ends fun _ g => ∃ n ∈ g.fibres, n.id = m.id ∧ n.kind = .parked .join ∧
      n.at_ = { pc := seq } ∧ n.mask = m.mask ∧ n.entry = some e ∧ n.c = m.c ∧ n.loops = m.loops) ∧
    ∀ r, absent → (∀ f ∈ others, f.kind = .parked .join) → first r (fun _ => True) → r.trap = none → tvecAddr s.mine.tvec ≠ 0 →
      ends fun _ g => ∃ n ∈ g.fibres, ∃ y, n.trap = some y ∧ y.cause = 12 ∧ (∀ k, r.entry = some k → y.tsyn = BitVec.ofNat 64 k) ∧
        n.mask = r.mask ∧ n.at_ = { pc := tvecAddr s.mine.tvec } ∧ y.retResume = { pc := (woken r).at_.pc } ∧
        y.retLoops = (woken r).loops ∧ y.retEntry = r.entry) ∧
  ∀ (s : State) (m : Fibre), s.solo m →
    let target (off : BitVec 17) : Word := s.it.clause + off.signExtend 64 * 4
    let seq : Word := s.it.clause + BitVec.ofNat 64 (4 * s.it.words.length)
    let stands (g : Group) (pc : Word) (l : LoopState) : Prop := g.ended = s.mine.ended ∧
      ∃ f, g.fibres = [f] ∧ f.id = m.id ∧ f.mask = m.mask ∧ f.at_ = { pc := pc } ∧ f.loops = l ∧ f.kind = .run
    let goes (i : Instr) (pc : Word) : Prop := ClauseEnds i s fun g => stands g pc m.loops
    let falls (i : Instr) : Prop := ClauseEnds i s fun g => stands g (m.fall seq).at_.pc (m.fall seq).loops
    (∀ off, goes (.brAlways off) (target off) ∧ ∀ (c : CReg) (n : Bool),
      (m.c.getLsbD c.val ≠ n → goes (.brCond c n off) (target off)) ∧ (m.c.getLsbD c.val = n → falls (.brCond c n off))) ∧
    (∀ (l : Fin 8) off, ClauseEnds (.call l off) s fun g => stands g (target off) m.loops ∧
      ∀ k < 64, g.sreg k = if k = 56 + l.val then seq else s.mine.sreg k) ∧
    (∀ a : SReg, (s.regs.sreg a.val).toNat % 4 = 0 → goes (.bri a) (s.regs.sreg a.val) ∧ goes (.ret a) (s.regs.sreg a.val)) ∧
    (m.entry = none → falls .fjoin) ∧ falls .yield ∧
    (s.mine.quarter = s.cur → ∃ t, onNext (exec .yield s) State.advance = .next t ∧ ∀ f ∈ (t.group s.it.group).fibres,
      f.yielded = true ↔ ∃ e ∈ t.groups, e.2.quarter = s.cur ∧ ∃ x ∈ e.2.fibres, t.ready e.1 e.2 x = true) ∧
    (∀ (lc : LcReg) (cnt : LoopCount) (len : BitVec 8),
      let k := m.loops.levels
      let stop := seq + BitVec.ofNat 64 (4 * (len.toNat + 1))
      let n : W32 := match cnt with | .imm x => BitVec.ofNat 32 x.val | .reg r => (s.regs.sreg r.val).setWidth 32
      lc.val = k → k < 3 → (k ≠ 0 → stop ≤ m.loops.stop.getD (k - 1) 0) →
        (n = 0 → goes (.loop lc cnt len) stop) ∧
        (n ≠ 0 → ClauseEnds (.loop lc cnt len) s fun g => stands g seq
          { lc := m.loops.lc.put k 0, bound := m.loops.bound.put k n, start := m.loops.start.put k seq,
            stop := m.loops.stop.put k stop, levels := k + 1 })) ∧
    (∀ (lc : LcReg) (c : Option CReg),
      let breaks : Prop := lc.val < m.loops.levels ∧ ∀ b, c = some b → m.c.getLsbD b.val = true
      (breaks → ClauseEnds (.lbrk lc c) s fun g => stands g (m.loops.stop.getD lc.val 0) { m.loops with levels := lc.val }) ∧
      (¬breaks → falls (.lbrk lc c))) ∧
    (ClauseEnds .fend s fun g => g.fibres = [] ∧ g.ended = true) ∧
    (ClauseEnds .gend s fun g => g.fibres = [] ∧ g.ended = true) ∧
    (∀ x, m.trap = some x → ClauseEnds .rett s fun g => ∃ f, g.fibres = [f] ∧ f.mask = m.mask ∧ f.trap = none ∧
      f.at_ = x.retResume ∧ f.wb = x.retWb ∧ f.c = m.c ∧ f.loops = x.retLoops ∧ f.entry = x.retEntry) ∧
    ∀ (p : PReg) (n : Bool) off,
      let takes (l : Nat) : Bool := m.mask.getLsbD l && s.regs.preg l p.val != n
      let stays (l : Nat) : Bool := m.mask.getLsbD l && s.regs.preg l p.val == n
      ((∀ l < 32, stays l = false) → goes (.fsplit p n off) (target off)) ∧
      ((∃ l < 32, stays l = true) → (∀ l < 32, takes l = false) → falls (.fsplit p n off)) ∧
      ((∃ l < 32, takes l = true) → (∃ l < 32, stays l = true) → (∃ e < 31, s.mine.split.get? e = none) →
        ClauseEnds (.fsplit p n off) s fun g => ∃ a b e, g.fibres = [b, a] ∧ s.mine.split.get? e = none ∧
          g.split.get? e = some { join := m.mask, outer := m.entry } ∧ a.at_ = { pc := target off } ∧ a.loops = m.loops ∧
          b.at_ = (m.fall seq).at_ ∧ b.loops = (m.fall seq).loops ∧ a.entry = some e ∧ b.entry = some e ∧
          a.mask ||| b.mask = m.mask ∧ (a.id = b.id → m.id = s.mine.nextFibre) ∧
          ∀ l < 32, a.mask.getLsbD l = takes l ∧ b.mask.getLsbD l = stays l)

/-- The loop check of R310, for the at most three levels of R309; a transfer makes none. -/
def Obligations.LoopBoundary : Prop :=
  (∀ (f : Fibre) (seq : Word),
    let l := f.loops
    let k := l.levels - 1
    (l.levels = 0 ∨ l.stop.getD k 0 ≠ seq → f.fall seq = { f with at_ := { pc := seq }, kind := .run }) ∧
    (1 ≤ l.levels → l.levels ≤ 3 → l.stop.getD k 0 = seq →
      let c := l.lc.getD k 0 + 1
      (c < l.bound.getD k 0 →
        f.fall seq = { f with at_ := { pc := l.start.getD k 0 }, kind := .run, loops := { l with lc := l.lc.put k c } }) ∧
      (¬c < l.bound.getD k 0 →
        f.fall seq = { f with loops := { l with lc := l.lc.put k c, levels := k } : Fibre }.fall seq))) ∧
  ∀ (s : State) (it : Issue) (fid : Nat) (pc : Word) (f : Fibre), (s.group it.group).fibre? fid = some f →
    ((s.applyTerm it fid (.goto pc)).group it.group).fibre? fid = some { f with at_ := { pc := pc } }

/-- Loads (spec/16 R341, R342, R346; the L1, spec/07 R139; poison, R159), and where they trap (spec/16 R344). That a poison mark bears the
address of its unit rounded down to 32 bytes is the model's reading (log 39). -/
def Obligations.VectorLoadResults : Prop :=
  ∀ (s : State) (reg : VNum) (a : GAddr) (w : Width) (sel : Bool) (p : Nat → Loc), s.clean → s.it.mask ≠ 0 →
    let n := widthBytes w
    let e := s.it.wb + reg.val
    let sx := decide (gExt a % 2 = 1)
    let reads (k : Nat) : List (AUnit × Loc) := (lanesOf s.it.mask).map fun l => (laneUnit l (s.ea a k l), p l)
    (s.inBounds reg.val (if n ≤ 4 then 1 else n / 4) a.idx → ∀ tgt : Target,
      (∀ l ∈ lanesOf s.it.mask, s.reaches tgt (laneUnit l (s.ea a n l)) n 0 n .read (p l)) →
      Answers (match tgt with
        | .slice => .vldp reg a w sel
        | .space .sp => .vlds reg a w sel
        | .space .cm => .vldc reg a w sel
        | .space .ds => .vldd reg a w sel
        | .space .virt => .vld reg a w sel) s fun t =>
          s.loaded t (gAcquire a) (s.it.flagOf sel) s.it.members (reads n) 0 n fun u x => loadedV sx n u.lane e x) ∧
    (∀ (m : Fibre) (tgt : Target) (k : Nat) (y : Word), s.mayTrap m → s.it.term = [] →
      s.inBounds reg.val (if n ≤ 4 then 1 else n / 4) a.idx →
      (k = 8 → tgt = .space .virt → ∀ l ∈ lanesOf s.it.mask, s.oneWalk (s.ea a n l).toNat .read) →
      (∀ l ∈ lanesOf s.it.mask, s.refuses tgt (laneUnit l (s.ea a n l)) n 0 n .read k y) →
      Answers (match tgt with
        | .slice => .vldp reg a w sel
        | .space .sp => .vlds reg a w sel
        | .space .cm => .vldc reg a w sel
        | .space .ds => .vldd reg a w sel
        | .space .virt => .vld reg a w sel) s fun t => s.turnedAway t m k y (s.ea a n)) ∧
    (s.inBounds reg.val 4 a.idx →
      let field (first cnt : Nat) : Prop :=
        (∀ (m : Fibre) (k : Nat) (y : Word), s.mayTrap m → s.it.term = [] →
          (k = 8 → ∀ l ∈ lanesOf s.it.mask, s.oneWalk ((s.ea a 16 l).toNat + 4 * first) .read) →
          (∀ l ∈ lanesOf s.it.mask,
            s.refuses (.space .virt) (laneUnit l (s.ea a 16 l)) 16 (4 * first) (4 * cnt) .read k y) →
          Answers (.vldr reg a sel) s fun t => s.turnedAway t m k y (s.ea a 16)) ∧
        ((∀ l ∈ lanesOf s.it.mask, s.reaches (.space .virt) (laneUnit l (s.ea a 16 l)) 16 (4 * first) (4 * cnt) .read (p l)) →
        Answers (.vldr reg a sel) s fun t =>
          s.loaded t (gAcquire a) (s.it.flagOf sel) s.it.members (reads 16) (4 * first) (4 * cnt) fun u x =>
            (List.range cnt).map fun k => .v u.lane (e + first + k) (BitVec.ofNat 32 (x / 2 ^ (32 * k))))
      (gExt a = 0 → field 0 4) ∧ (gExt a = 1 → field 0 3) ∧ (gExt a = 2 → field 3 1) ∧ (gExt a = 3 → field 1 2))

/-- The scalar load (spec/16 R341, R342; another package's memory, spec/07 R152), and where it traps (spec/16 R344). That a poison mark
bears the address of its unit rounded down to 32 bytes is the model's reading (log 39). -/
def Obligations.ScalarLoadResults : Prop :=
  ∀ (s : State) (m : Fibre) (reg : SReg) (a : GAddr) (w : Width) (sel : Bool) (p : Loc), s.lone m → m.mask ≠ 0 →
    let n := widthBytes w
    let ea := s.regs.sreg a.base.val + gOff a
    let u : AUnit := { lane := lowLane m.mask, lanes := lanesOf m.mask, ea := ea }
    (∀ (k : Nat) (y : Word), s.mayTrap m → s.it.term = [] → s.refuses (.space .virt) u n 0 n .read k y →
      Answers (.sld reg a w sel) s fun t => s.turnedAway t m k y fun _ => ea) ∧
    (s.reaches (.space .virt) u n 0 n .read p →
    Answers (.sld reg a w sel) s fun t =>
      (s.loaded t (gAcquire a) (s.it.flagOf sel) [m.id] [(u, p)] 0 n fun _ x =>
        if n = 16 then [.s reg.val (BitVec.ofNat 64 x), .s (reg.val + 1) (BitVec.ofNat 64 (x / 2 ^ 64))]
        else [.s reg.val (BitVec.ofNat 64 (if gExt a % 2 = 1 ∧ 2 ^ (8 * n - 1) ≤ x then x + (2 ^ 64 - 2 ^ (8 * n)) else x))]) ∧
      ∀ dom key, p = .frame dom key → s.isOwn dom = false →
        gAcquire a = true ∨ (s.coreAt s.myCore).l1.get? (dom / 128) = none →
        t.outgoing = s.outgoing ++ [.request (dom / 70368744177664) key (dom / 128 * 128 % 70368744177664) (.read 128)])

/-- Completions (spec/06 R129; spec/11 R241, R243; spec/16 R348). That an event of an operation that is not in flight, or not due, leaves the
state as it is is the model's choice (log 11). -/
def Obligations.LoadCompletionResults : Prop :=
  ∀ (s : State) (id : Nat) (o : Op), s.ops.get? id = some o →
    let ends (i : Instr) : Prop := Answers i s fun t =>
      { t with groups := s.groups, ops := s.ops } = s ∧ t.ops.get? id = none ∧
      (∀ k, k ≠ id → t.ops.get? k = s.ops.get? k) ∧ (∀ g, g ≠ o.group → t.group g = s.group g) ∧
      { t.group o.group with fibres := (s.group o.group).fibres } =
        (s.group o.group).writes (o.writes.map (fun w => match w with
          | .v lane reg x => .v lane reg x
          | .s reg x => .s reg x) ++ [.flags (o.fpsr.foldl (fun m e => m ||| e.2) 0)]) ∧
      (t.group o.group).fibres.map (fun f => { f with poison := [] }) =
        (s.group o.group).fibres.map (fun f => { f with poison := [] }) ∧
      (o.poison = [] ∨ o.flag = none → (t.group o.group).fibres = (s.group o.group).fibres) ∧
      ∀ (i : Nat) (f : Fibre), (s.group o.group).fibres[i]? = some f → ∃ y : Fibre, (t.group o.group).fibres[i]? = some y ∧ ∀ n l, l < 32 →
        y.poison.get? (32 * n + l) =
          if o.flag = some n ∧ f.id ∈ o.holders ∧ f.mask.getLsbD l = true ∧ f.poison.get? (32 * n + l) = none then o.poison.get? l
          else f.poison.get? (32 * n + l)
    (o.kind = .load → ends (.loadCompletion id)) ∧ (o.kind = .atomic → ends (.atomicCompletion id)) ∧
    (o.kind = .sf → (∀ e ∈ s.ops, e.2.kind = .sf → e.2.quarter = o.quarter → id ≤ e.1) → ends (.sfCompletion id)) ∧
    (o.kind = .sf → (∃ e ∈ s.ops, e.2.kind = .sf ∧ e.2.quarter = o.quarter ∧ e.1 < id) → exec (.sfCompletion id) s = .next s) ∧
    (o.kind ≠ .load → exec (.loadCompletion id) s = .next s) ∧
    (o.kind = .cwb → Answers (.cwbCompletion id) s fun t => t.ops.get? id = none ∧ t.mem = s.mem ∧
      (∀ k, k ≠ id → t.ops.get? k = s.ops.get? k) ∧ (∀ l, l ∉ o.lines → t.dir.get? l = s.dir.get? l) ∧
      ∀ l ∈ o.lines, (∀ x, t.dir.get? l = some x → x.dirty = false) ∧ ∀ y ∈ t.sectors, ∀ u ∈ y.dirty, u / 4 ≠ l)

/-- Stores and their frame (spec/16 R341, R343, R346), and where they trap (spec/16 R344). -/
def Obligations.VectorStoreResults : Prop :=
  ∀ (s : State) (reg : VNum) (a : GAddr) (w : Width) (p : Nat → Loc), s.clean →
    s.flushDue (gRelease a) s.it.parts = false →
    let n := widthBytes w
    let e := s.it.wb + reg.val
    let v (l k : Nat) : Nat := (s.regs.vreg l (e + k)).toNat
    (s.inBounds reg.val (if n ≤ 4 then 1 else n / 4) a.idx → ∀ tgt : Target,
      (∀ l ∈ lanesOf s.it.mask, s.reaches tgt (laneUnit l (s.ea a n l)) n 0 n .write (p l)) →
      Answers (match tgt with
        | .slice => .vstp reg a w
        | .space .sp => .vsts reg a w
        | .space .cm => .vstc reg a w
        | .space .ds => .vstd reg a w
        | .space .virt => .vst reg a w) s fun t => s.stored t ((lanesOf s.it.mask).map fun l =>
          (p l, leBytes n (v l 0 + 2 ^ 32 * (if n ≤ 4 then 0 else v l 1) +
            (if n ≤ 8 then 0 else 2 ^ 64 * v l 2 + 2 ^ 96 * v l 3))))) ∧
    (∀ (m : Fibre) (tgt : Target) (k : Nat) (y : Word), s.mayTrap m → s.it.term = [] →
      s.inBounds reg.val (if n ≤ 4 then 1 else n / 4) a.idx →
      (k = 8 → tgt = .space .virt → ∀ l ∈ lanesOf s.it.mask, s.oneWalk (s.ea a n l).toNat .write) →
      (∀ l ∈ lanesOf s.it.mask, s.refuses tgt (laneUnit l (s.ea a n l)) n 0 n .write k y) →
      Answers (match tgt with
        | .slice => .vstp reg a w
        | .space .sp => .vsts reg a w
        | .space .cm => .vstc reg a w
        | .space .ds => .vstd reg a w
        | .space .virt => .vst reg a w) s fun t => s.turnedAway t m k y (s.ea a n)) ∧
    (s.inBounds reg.val 4 a.idx →
      let field (first cnt : Nat) : Prop :=
        (∀ (m : Fibre) (k : Nat) (y : Word), s.mayTrap m → s.it.term = [] →
          (k = 8 → ∀ l ∈ lanesOf s.it.mask, s.oneWalk ((s.ea a 16 l).toNat + 4 * first) .write) →
          (∀ l ∈ lanesOf s.it.mask,
            s.refuses (.space .virt) (laneUnit l (s.ea a 16 l)) 16 (4 * first) (4 * cnt) .write k y) →
          Answers (.vstr reg a) s fun t => s.turnedAway t m k y (s.ea a 16)) ∧
        ((∀ l ∈ lanesOf s.it.mask, s.reaches (.space .virt) (laneUnit l (s.ea a 16 l)) 16 (4 * first) (4 * cnt) .write (p l)) →
        Answers (.vstr reg a) s fun t => s.stored t ((lanesOf s.it.mask).map fun l =>
          (p l, (List.range cnt).flatMap fun k => leBytes 4 (v l (first + k)))))
      (gExt a = 0 → field 0 4) ∧ (gExt a = 1 → field 0 3) ∧ (gExt a = 2 → field 3 1) ∧ (gExt a = 3 → field 1 2))

/-- The scalar store and its frame (spec/16 R341, R343; its line, spec/07 R140); a release at system scope that needs a flushing read
(spec/08 R186); where it traps (spec/16 R344). Which writes a flush covers and how the fibre waits for it is the model's choice (log 25). -/
def Obligations.ScalarStoreResults : Prop :=
  ∀ (s : State) (m : Fibre) (reg : SReg) (a : GAddr) (w : Width) (p : Loc), s.lone m →
    let n := widthBytes w
    let ea := s.regs.sreg a.base.val + gOff a
    let u : AUnit := { lane := lowLane m.mask, lanes := lanesOf m.mask, ea := ea }
    (∀ (k : Nat) (y : Word), s.mayTrap m → s.it.term = [] → s.refuses (.space .virt) u n 0 n .write k y →
      Answers (.sst reg a w) s fun t => s.turnedAway t m k y fun _ => ea) ∧
    (s.reaches (.space .virt) u n 0 n .write p →
    (s.flushDue (gRelease a) [m] = false → Answers (.sst reg a w) s fun t =>
      s.stored t [(p, leBytes n ((s.regs.sreg reg.val).toNat +
        (if n = 16 then 2 ^ 64 * (s.regs.sreg (reg.val + 1)).toNat else 0)))] ∧
      ∀ dom key, p = .frame dom key → s.isOwn dom = true → s.myCore < 1152 → ∃ x, t.dir.get? (dom / 128) = some x ∧
        x.slot = key ∧ x.dirty = true ∧ x.owner = some (s.myCore / 36) ∧
          ∀ d < 32, x.sharers.getLsbD d = decide (d = s.myCore / 36)) ∧
    (s.flushDue (gRelease a) [m] = true → m.mask ≠ 0 → Answers (.sst reg a w) s fun t => s.flushing t (· = ea)))

/-- Atomics and their frame (spec/16 R350 to R352; where they are performed, spec/08 R177; another package's memory, spec/02 R38), and
where they trap (spec/16 R344). That the first lane at a place of another package's memory reads a free value is log 14. -/
def Obligations.AtomicResults : Prop :=
  (∀ (s : State) (a : VNum) (base : SReg) (idx : Fin 64) (space : Space) (sel : Bool) (lit : ALit) (p : Nat → Loc),
     s.clean → s.it.mask ≠ 0 → s.flushDue (sysRelease lit.scope lit.ord) s.it.parts = false →
     let w := if lit.wd then 64 else 32
     let n := if lit.wd then 8 else 4
     let k := if lit.wd then 2 else 1
     let e := s.it.wb + a.val
     let f := if lit.wd then fmtF64 else fmtF32
     let num (x : Nat) : Int := if 2 ^ (w - 1) ≤ x then (x : Int) - (2 ^ w : Nat) else x
     let new (m x y : Nat) : Nat := match lit.aop with
       | .add => (m + x) % 2 ^ w
       | .and => m &&& x
       | .or => m ||| x
       | .xor => m ^^^ x
       | .min => if num m ≤ num x then m else x
       | .max => if num m ≤ num x then x else m
       | .minn => min m x
       | .maxn => max m x
       | .exch => x
       | .cas => if m = x then y else m
       | .fadd => (f.sum .rne [f.val m, f.val x]).1
       | .fmin => (f.pick false m x).1
       | .fmax => (f.pick true m x).1
     let lanes := lanesOf s.it.mask
     let pastL1 : Bool := match lit.scope with | .fib | .grp | .team => false | .clu | .die | .dev | .dom | .sys => true
     let ea (l : Nat) : Word := s.regs.sreg base.val +
       (if idx.val = 63 then 0 else (s.regs.vreg l (s.it.wb + idx.val)).signExtend 64 * BitVec.ofNat 64 n) +
       lit.off.signExtend 64
     s.inBounds a.val (k * (if lit.aop = .cas then 2 else 1)) idx →
     (∀ (m : Fibre) (c : Nat) (y : Word), s.mayTrap m → s.it.term = [] →
       (c = 8 → space = .virt → ∀ l ∈ lanes, s.oneWalk (ea l).toNat .write) →
       (∀ l ∈ lanes, s.refuses (.space space) (laneUnit l (ea l)) n 0 n .write c y) →
       (Answers (.vatom a base idx space sel lit) s fun t => s.turnedAway t m c y ea) ∧
       Answers (.vred a base idx space sel lit) s fun t => s.turnedAway t m c y ea) ∧
     (∀ (dom key : Nat → Nat) (i : Instr), (i = .vatom a base idx space sel lit ∨ i = .vred a base idx space sel lit) →
       (∀ l ∈ lanes, s.reaches (.space space) (laneUnit l (ea l)) n 0 n .write (p l) ∧ p l = .frame (dom l) (key l) ∧
         s.isOwn (dom l) = false) →
       Answers i s fun t => t.mem = s.mem ∧ t.mine.v = s.mine.v ∧
         (∃ (o : Op) (was : Nat → Nat), t.ops.get? (s.nextId + lanes.length) = some o ∧ (o.poison = [] →
             o.writes = (if i = .vatom a base idx space sel lit then lanes.flatMap fun l => loadedV false n l e (was l) else []) ∧
             ∀ l ∈ lanes, ∀ j ∈ lanes, j < l → dom j = dom l → (∀ i ∈ lanes, j < i → i < l → dom i ≠ dom l) →
             was l = new (was j) (s.regs.vval j lit.wd e) (s.regs.vval j lit.wd (e + k)))) ∧
         t.outgoing = s.outgoing ++ lanes.mapIdx fun j l =>
           let x := s.regs.vval l lit.wd e
           .request (dom l / 70368744177664) (key l) (dom l % 70368744177664) (.atomic (s.nextId + j) lit.aop lit.wd
             (BitVec.ofNat 64 (if lit.aop = .cas then s.regs.vval l lit.wd (e + k) else x)) (BitVec.ofNat 64 x))) ∧
     ((∀ l ∈ lanes, s.reaches (.space space) (laneUnit l (ea l)) n 0 n .write (p l) ∧ s.settled pastL1 (p l) n) →
     let apart (l j : Nat) : Prop := ∀ u < n, ∀ v < n, bytePlace (p l) u ≠ bytePlace (p j) v
     let does (i : Instr) (old : Bool) : Prop := Answers i s fun t => ∃ (o : Op) (was now : Nat → Nat),
       s.stored { t with ops := s.ops, nextId := s.nextId } (lanes.map fun l => (p l, leBytes n (now l))) ∧
       t.ops = s.ops.put s.nextId o ∧ t.nextId = s.nextId + 1 ∧
       o = { kind := .atomic, group := s.it.group, quarter := s.cur, flag := s.it.flagOf sel, holders := s.it.parts.map (·.id),
             lanes := s.it.mask, writes := if old then lanes.flatMap fun l => loadedV false n l e (was l) else [] } ∧
       (∀ l ∈ lanes, now l = new (was l) (s.regs.vval l lit.wd e) (s.regs.vval l lit.wd (e + k))) ∧
       (∀ l ∈ lanes, (∀ j ∈ lanes, j < l → apart l j) → was l = leNat (s.readLoc (p l) n)) ∧
       ∀ l ∈ lanes, ∀ j ∈ lanes, j < l → p j = p l → (∀ i ∈ lanes, j < i → i < l → apart l i) → was l = now j % 2 ^ w
     does (.vatom a base idx space sel lit) true ∧ does (.vred a base idx space sel lit) false)) ∧
  ∀ (s : State) (m : Fibre) (a base : SReg) (space : Space) (sel : Bool) (lit : ALit) (p : Loc), s.lone m → m.mask ≠ 0 →
    s.flushDue (sysRelease lit.scope lit.ord) [m] = false →
    let w := if lit.wd then 64 else 32
    let n := if lit.wd then 8 else 4
    let ea := s.regs.sreg base.val + lit.off.signExtend 64
    let u : AUnit := { lane := lowLane m.mask, lanes := lanesOf m.mask, ea := ea }
    (∀ (c : Nat) (y : Word), s.mayTrap m → s.it.term = [] → s.refuses (.space space) u n 0 n .write c y →
      Answers (.satom a base space sel lit) s fun t => s.turnedAway t m c y fun _ => ea) ∧
    (s.reaches (.space space) u n 0 n .write p →
    let was := leNat (s.readLoc p n)
    let pastL1 : Bool := match lit.scope with | .fib | .grp | .team => false | .clu | .die | .dev | .dom | .sys => true
    let x := (s.regs.sreg a.val).toNat % 2 ^ w
    let y := (s.regs.sreg (a.val + 1)).toNat % 2 ^ w
    let num (x : Nat) : Int := if 2 ^ (w - 1) ≤ x then (x : Int) - (2 ^ w : Nat) else x
    let f := if lit.wd then fmtF64 else fmtF32
    (∀ dom key, p = .frame dom key → s.isOwn dom = false → Answers (.satom a base space sel lit) s fun t =>
      t.mem = s.mem ∧ (t.ops.get? (s.nextId + 1)).isSome = true ∧ t.mine.s = s.mine.s ∧ t.outgoing = s.outgoing ++
        [.request (dom / 70368744177664) key (dom % 70368744177664)
          (.atomic s.nextId lit.aop lit.wd (BitVec.ofNat 64 (if lit.aop = .cas then y else x)) (BitVec.ofNat 64 x))]) ∧
    (s.settled pastL1 p n → ∀ now, now = (match lit.aop with
      | .add => (was + x) % 2 ^ w
      | .and => was &&& x
      | .or => was ||| x
      | .xor => was ^^^ x
      | .min => if num was ≤ num x then was else x
      | .max => if num was ≤ num x then x else was
      | .minn => min was x
      | .maxn => max was x
      | .exch => x
      | .cas => if was = x then y else was
      | .fadd => (f.sum .rne [f.val was, f.val x]).1
      | .fmin => (f.pick false was x).1
      | .fmax => (f.pick true was x).1) →
    Answers (.satom a base space sel lit) s fun t =>
      s.stored { t with ops := s.ops, nextId := s.nextId } [(p, leBytes n now)] ∧
      t.ops = s.ops.put s.nextId
        { kind := .atomic, group := s.it.group, quarter := s.cur, flag := s.it.flagOf sel, holders := [m.id],
          lanes := m.mask, writes := [.s a.val (BitVec.ofNat 64 was)] } ∧ t.nextId = s.nextId + 1))

/-- Prefetch, cache maintenance and fences (spec/16 R347, R348, R355; spec/07 R139, R140; spec/08 R186 step 3). Which writes the flush of a
FENCE covers and how the fibre waits for it (log 25), that %tunit of CWB's 0x09 is the 32-byte unit of the lane's address (log 39), and the bit
of a lost table, which is free (log 68), are the model's choices. -/
def Obligations.CacheWordResults : Prop :=
  ∀ (s : State) (a : GAddr), s.clean →
    let core := s.myCore
    let ready := a.idx.val = 63 ∨ s.it.wb + a.idx.val < s.regs.walloc
    let moves (i : Instr) (P : State → Prop) : Prop := Answers i s fun t =>
      (∃ u, s.cachesMoved u ∧ ({ u with free := s.free + 1 } : State).wrote t []) ∧ P t
    (∀ (l : Nat) (x : Nat), ready → lanesOf s.it.mask = [l] → s.translate core s.myFn s.mySlot (s.ea a 1 l).toNat .read = .poison x →
      ∀ i ∈ ([.prefL1 a, .prefL2 a, .prefSc a, .cinv a] : List Instr), Answers i s fun t =>
        ∃ u, s.cachesMoved u ∧ ({ u.countPoison with free := s.free + 1 } : State).wrote t []) ∧
    (ready → s.atRest → (∀ l ∈ lanesOf s.it.mask, ∀ x, s.translate core s.myFn s.mySlot (s.ea a 1 l).toNat .read ≠ .poison x) →
      moves (.prefL1 a) (fun _ => True) ∧ moves (.prefL2 a) (fun _ => True) ∧ moves (.prefSc a) (fun _ => True) ∧
      moves (.cinv a) (fun _ => True) ∧
      ∀ (l dom key : Nat), lanesOf s.it.mask = [l] → core < 1152 → s.isOwn dom = true →
        walk s s.myFn s.mySlot (s.ea a 1 l).toNat .read = .ok dom key →
        (∀ x ∈ s.cachedLeaves core s.mySlot (s.ea a 1 l).toNat,
          leafWalk s s.myFn (s.ea a 1 l).toNat .read x.entry x.leaf = .ok dom key) →
        ((s.coreAt core).l1.get? (dom / 128) = none → moves (.prefL1 a) fun t => ∃ x,
          (t.coreAt core).l1.get? (dom / 128) = some x ∧ x.slot = key ∧ x.bytes = s.readFrame key (dom / 128 * 128) 128) ∧
        (moves (.prefL2 a) fun t => ∃ x, t.dir.get? (dom / 128) = some x ∧ x.slot = key ∧ x.sharers.getLsbD (core / 36) = true) ∧
        (moves (.prefSc a) fun t => ∀ u, u / 4 = dom / 128 → ∃ y ∈ t.sectors, y.held.contains u = true) ∧
        moves (.cinv a) fun t => (t.coreAt core).l1.get? (dom / 128) = none) ∧
    (∀ m, s.mayTrap m → s.it.term = [] → a.idx.val ≠ 63 → s.regs.walloc ≤ m.wb + a.idx.val →
      ∀ i ∈ ([.prefL1 a, .prefL2 a, .prefSc a, .cinv a] : List Instr), Answers i s fun t =>
        s.tookTrap t m 4 (BitVec.ofNat 64 a.idx.val) 0 (s.resumeWord m)) ∧
    (∀ (scope : Scope) (ord : Ord),
      let acquires := (ord = .acq ∨ ord = .ar) ∧ scope ≠ .fib ∧ scope ≠ .grp ∧ scope ≠ .team
      let due := s.flushDue (scope == .sys && (ord == .rel || ord == .ar)) s.it.parts = true
      (¬due → s.it.parts ≠ [] → Answers (.fence scope ord) s fun t => s.releasedOnly { t with cores := s.cores, order := s.order } ∧
        (∀ c, { t.coreAt c with l1 := (s.coreAt c).l1 } = s.coreAt c) ∧ (acquires → (t.coreAt core).l1 = []) ∧ (¬acquires → ∀ c, t.coreAt c = s.coreAt c)) ∧
      (due → Answers (.fence scope ord) s fun t => s.flushing t (· = 0)) ∧
      ∀ m, due → s.alone m → s.it.closes = true → s.it.term = [] → Answers (.fence scope ord) s fun t =>
        ∃ f, t.mine.fibres = [f] ∧ f.mask = m.mask ∧ f.kind = .faultWait [s.nextId] ∧ f.at_ = s.resumeWord m) ∧
    (∀ (sel : Bool) (dom key : Nat → Nat), s.it.mask ≠ 0 → ready →
      (∀ l ∈ lanesOf s.it.mask, walk s s.myFn s.mySlot (s.ea a 1 l).toNat .read = .ok (dom l) (key l) ∧
        ∀ x ∈ s.cachedLeaves core s.mySlot (s.ea a 1 l).toNat,
          leafWalk s s.myFn (s.ea a 1 l).toNat .read x.entry x.leaf = .ok (dom l) (key l)) →
      Answers (.cwb a sel) s fun t => ∃ (o : Op) (u : State), s.cachesMoved u ∧
        ({ u with ops := s.ops.put s.nextId o, nextId := s.nextId + 1 } : State).wrote t [] ∧ o.kind = .cwb ∧
        o.group = s.it.group ∧ o.flag = s.it.flagOf sel ∧ o.holders = s.it.members ∧ o.writes = [] ∧
        ∀ x, x ∈ o.lines ↔ ∃ l ∈ lanesOf s.it.mask, s.isOwn (dom l) = true ∧ x = dom l / 128) ∧
    ∀ (m : Fibre) (sel : Bool), s.mayTrap m → s.it.term = [] → ready →
      let ends (l : Nat) : Walk := s.translate core s.myFn s.mySlot (s.ea a 1 l).toNat .read
      let traps (k : Nat) (y : Word) (tunit : Nat → Word) : Prop := Answers (.cwb a sel) s fun t => ∃ u, s.cachesMoved u ∧
        u.tookTraps t m k y tunit (s.it.addr s.it.pos) (s.resumeWord m)
      (∀ b, (∀ l ∈ lanesOf s.it.mask, (ends l = .fail b ∧ b ≠ 12) ∨ ends l = .barred b) → traps 7 (BitVec.ofNat 64 (2 ^ b)) (s.ea a 1)) ∧
      ((∀ l ∈ lanesOf s.it.mask, ∃ x, ends l = .poison x) →
        traps 9 1 fun l => BitVec.ofNat 64 ((s.ea a 1 l).toNat / 32 * 32))

/-- Arrivals at the barriers of a team, and a BARA that does not hold every lane of its group (spec/16 R361; cause and syndrome, spec/11
R247). -/
def Obligations.BarrierArrivals : Prop :=
  (∀ (s : State) (n : Fin 16) (count : Fin 33), s.clean → s.mine.alive &&& ~~~s.it.mask ≠ 0 →
    let y := BitVec.ofNat 64 (s.it.mask.toNat + if 1 < s.it.members.length then 4294967296 else 0)
    (s.it.closes = false → Answers (.bara n count) s fun t => s.pended t 5 y) ∧
    ∀ m : Fibre, s.lone m → m.mask ≠ 0 → s.it.closes = true → s.it.term = [] → m.trap = none → s.mine.fibre? m.id = some m →
      tvecAddr s.mine.tvec ≠ 0 → Answers (.bara n count) s fun t => s.tookTrap t m 5 y 0 s.resumeAfter) ∧
  ∀ (s : State) (m : Fibre) (n : Fin 16) (count : Fin 33), s.alone m → s.it.reissue = [] → m.trap = none → m.kind = .run →
    s.mine.quarter = s.cur → s.it.term = [] →
    let b := (s.team s.myTeam).barriers.getD n.val {}
    let want := if count.val = 32 then (s.team s.myTeam).ngroups else count.val + 1
    let req := if b.arrivals = 0 then want else b.required
    b.lanes.getD s.mine.num 0 = 0 →
    let keeps (t : State) : Prop := t.mem = s.mem ∧ t.mine.s = s.mine.s ∧ t.mine.v = s.mine.v ∧ t.mine.p = s.mine.p ∧
      (t.team s.myTeam).scratch = (s.team s.myTeam).scratch ∧ ∀ q, q ≠ s.myTeam → t.team q = s.team q
    let after (t : State) : Barrier := (t.team s.myTeam).barriers.getD n.val {}
    let counted (t : State) : Prop := keeps t ∧
      if b.arrivals + 1 < req then (after t).arrivals = b.arrivals + 1 ∧ (after t).required = req ∧ (after t).phase = b.phase
      else (after t).arrivals = 0 ∧ (after t).phase = !b.phase
    (s.it.lastPlace = true → Answers (.bar n count) s fun t => counted t ∧
      t.it.term = [(m.id, if b.arrivals + 1 < req then .park (.barrier n.val b.phase) else .next)]) ∧
    Answers (.bara n count) s fun t => counted t ∧ t.it.term = []

/-- Waits (spec/16 R356 to R363). That the host writes known at the barrier's last phase are known after BARW, and that those which the fibre
knows are left at the grid barrier, is the model's order (log 25). -/
def Obligations.WaitWordResults : Prop :=
  ∀ (s : State) (m : Fibre), s.lone m → s.it.lastPlace = true →
    let met : State := s.setGroup s.it.group { s.mine with expn := 0 }
    (∀ (n : Fin 16) (c : CReg),
      let phase := ((s.team s.myTeam).barriers.getD n.val {}).phase
      (phase ≠ m.c.getLsbD c.val → Answers (.barw n c) s fun t =>
        ({ met with order := (s.inform s.it.group m.mask (s.known (.arrived s.myTeam n.val))).order } : State).noted t m .next
          [.c m.id c.val phase]) ∧
      (phase = m.c.getLsbD c.val → Answers (.barw n c) s fun t => s.noted t m (.park (.barw n.val c)) [])) ∧
    ((s.inst s.myInst).tcb.clt = 0 → Answers .gbar s fun t =>
      let x := s.team s.myTeam
      ({ s.setTeam s.myTeam { x with gbar := x.gbar.put s.mine.num (x.gbar.getD s.mine.num 0 ||| m.mask) } with
          order := (s.learn (.grid s.myInst) (s.knows s.it.group m.mask)).order } : State).noted t m (.park .grid) []) ∧
    ∀ (base cmp : SReg) (space : Space) (lit : WLit) (p : Loc),
      let b := (s.inst s.myInst).tcb
      let n := if lit.wd then 8 else 4
      let w := if lit.wd then 64 else 32
      let ea := s.regs.sreg base.val + lit.off.signExtend 64
      let legal (cls : Nat) : Prop := cls = 0 ∨ (cls = 1 ∧ lit.any = false)
      (match lit.level with
        | .ext => True
        | .grid => (s.inst s.myInst).setMembers ≠ []
        | .fibre => legal b.clf
        | .group => legal b.clg
        | .team => legal b.clt) →
      s.reaches (.space space) { lane := lowLane m.mask, lanes := lanesOf m.mask, ea := ea } n 0 n .read p →
      s.settled (wideScope lit.scope) p n →
      let x := leNat (s.readLoc p n)
      let k := (s.regs.sreg cmp.val).toNat % 2 ^ w
      let num (x : Nat) : Int := if 2 ^ (w - 1) ≤ x then (x : Int) - (2 ^ w : Nat) else x
      let holds : Prop := match lit.cond with
        | .eq => x = k
        | .ne => x ≠ k
        | .gen => k ≤ x
        | .ltn => x < k
        | .ge => num k ≤ num x
        | .lt => num x < num k
        | .set => x &&& k ≠ 0
        | .clr => x &&& k = 0
      (holds → Answers (.waitm base cmp space lit) s fun t => ∃ u, s.cachesMoved u ∧
        (({ u with free := s.free + 1 } : State).setGroup s.it.group { s.mine with expn := 0 }).noted t m .next []) ∧
      (¬holds → Answers (.waitm base cmp space lit) s fun t => ∃ u, s.cachesMoved u ∧
        ({ u with free := s.free + 1 } : State).noted t m
          (.park (.mem ea space n lit.cond (BitVec.ofNat 64 k) lit.scope cmp.val)) [])

/-- The legality of checked waits and their trap (spec/05 R97, R98); the legal ones are those of WaitWordResults. -/
def Obligations.IllegalWaits : Prop :=
  ∀ (s : State) (m : Fibre), s.mayTrap m → s.it.term = [] → s.it.lastPlace = true →
    let b := (s.inst s.myInst).tcb
    let traps (i : Instr) (lvl dir cls noset gb : Nat) : Prop := Answers i s fun t =>
      s.tookTrap t m 11 (BitVec.ofNat 64 (lvl + 8 * dir + 16 * cls + 64 * noset + 128 * gb)) 0 s.resumeAfter
    let bad (cls : Nat) (lower : Bool) : Prop := ¬(cls = 0 ∨ (cls = 1 ∧ lower = true))
    (b.clt ≠ 0 → traps .gbar 2 1 b.clt 0 1) ∧
    (∀ lit : WLit, waitmIllegal (s.inst s.myInst) lit.level lit.any = none ↔
      match lit.level with
      | .ext => True
      | .grid => (s.inst s.myInst).setMembers ≠ []
      | .fibre => ¬bad b.clf (!lit.any)
      | .group => ¬bad b.clg (!lit.any)
      | .team => ¬bad b.clt (!lit.any)) ∧
    ∀ (base cmp : SReg) (space : Space) (lit : WLit),
      let dir := if lit.any then 1 else 0
      (lit.level = .fibre → bad b.clf (!lit.any) → traps (.waitm base cmp space lit) 0 dir b.clf 0 0) ∧
      (lit.level = .group → bad b.clg (!lit.any) → traps (.waitm base cmp space lit) 1 dir b.clg 0 0) ∧
      (lit.level = .team → bad b.clt (!lit.any) → traps (.waitm base cmp space lit) 2 dir b.clt 0 0) ∧
      (lit.level = .grid → (s.inst s.myInst).setMembers = [] → traps (.waitm base cmp space lit) 3 dir 3 1 0)

/-- Edge masks, check records and descriptors (spec/17 R368, R369, R372, R373). -/
def Obligations.EdgeAndDescriptorResults : Prop :=
  ∀ (s : State) (m : Fibre) (a : SReg), s.lone m →
    let x := s.regs.sreg a.val
    (∀ e : EmReg, (Answers (.medge e a) s fun t => s.wrote t [.em e.val x] ∧ t.mine.ereg e.val = x) ∧
      Answers (.medgeN e a) s fun t => s.wrote t [.em e.val (t.mine.ereg e.val)] ∧
        ∀ k < 64, (t.mine.ereg e.val).getLsbD k = decide (k < x.toNat)) ∧
    (∀ (d : SReg) (tile : AccReg), tile.val < (s.team s.myTeam).acc →
      Answers (.mchk d tile) s fun t => s.wroteS t d.val ((s.team s.myTeam).checks.getD tile.val 0)) ∧
    ∀ r : TReg,
      let w (k : Nat) : Nat := (s.regs.sreg (a.val + k)).toNat
      let image := w 0 + 2 ^ 64 * w 1 + 2 ^ 128 * w 2 + 2 ^ 192 * w 3
      let valid := w 1 / 2 ^ 51 % 2 = 1 ∧ w 0 / 2 ^ 57 = 0 ∧ w 1 / 2 ^ 52 % 16 = 0 ∧ w 1 / 2 ^ 58 = 0 ∧ w 3 / 2 ^ 57 = 0 ∧
        w 0 % 32 = 0 ∧ w 3 % 4 = 0 ∧ w 1 % 2 ^ 32 ≠ 0 ∧ w 1 % 32 = 0 ∧ w 1 / 2 ^ 48 % 4 ≠ 3 ∧ w 1 / 2 ^ 56 % 4 ≠ 3 ∧
        w 2 % 2 ^ 32 ≠ 0 ∧ w 2 / 2 ^ 32 ≠ 0 ∧ w 2 / 2 ^ 32 ≤ w 1 % 2 ^ 32
      Answers (.tdset r a) s fun t => s.wrote t [.t r.val (t.mine.treg r.val)] ∧
        (valid → (t.mine.treg r.val).toNat = image) ∧
        (¬valid → (t.mine.treg r.val).toNat = image - image / 2 ^ 115 % 2 * 2 ^ 115)

/-- Loads through descriptors (spec/17 R370, R371). That a poison mark holds the lane's address rounded down to 32 bytes is the model's reading
(log 39). -/
def Obligations.TensorLoadResults : Prop :=
  ∀ (s : State) (d : VNum) (r : TReg) (c : SReg) (sel : Bool) (p : Nat → Loc), s.clean → s.it.mask ≠ 0 →
    s.inBounds d.val 1 63 →
    let x := s.regs.treg r.val
    let lo := (s.regs.sreg c.val).toNat % 2 ^ 32
    let hi := (s.regs.sreg c.val).toNat / 2 ^ 32
    let n := 2 ^ dEw x
    let loads (i : Instr) (row elem : Nat → Nat) : Prop :=
      let inside (l : Nat) : Bool := decide (row l < dRows x ∧ elem l * n + n ≤ dColb x)
      let ea (l : Nat) : Word := BitVec.ofNat 64 (dBase x + row l * dPitch x + elem l * n)
      s.stateIllegal s.it i = false →
      (∀ l ∈ lanesOf s.it.mask, inside l = true →
        s.reaches (.space .virt) (laneUnit l (ea l)) n 0 n .read (p l)) →
      Answers i s fun t => ∃ (o : Op) (val : Nat → Option Nat), s.leftOp t o ∧ o.kind = .load ∧ o.group = s.it.group ∧
        o.flag = s.it.flagOf sel ∧ o.holders = s.it.members ∧ o.fpsr = [] ∧ o.lanes = s.it.mask ∧
        (∀ w, w ∈ o.writes ↔ ∃ l ∈ lanesOf s.it.mask, ∃ x, val l = some x ∧ w = .v l (s.it.wb + d.val) (BitVec.ofNat 32 x)) ∧
        (∀ l ∈ lanesOf s.it.mask, o.poison.get? l =
          if (val l).isSome = true then none else some (BitVec.ofNat 64 ((ea l).toNat / 32 * 32))) ∧
        ∀ l ∈ lanesOf s.it.mask, (inside l = false → val l = some 0) ∧
          (inside l = true → (s.settled false (p l) n → val l = some (leNat (s.readLoc (p l) n))) ∧
            (s.tainted false (p l) n → val l = none))
    loads (.tdldRow d r c sel) (fun _ => lo) (fun l => hi + l) ∧ loads (.tdldCol d r c sel) (fun l => hi + l) fun _ => lo

/-- Issue of the matrix words (spec/17 R374 to R379), and their convergence (spec/06 R121; cause and syndrome, spec/11 R247). -/
def Obligations.MatrixWordIssue : Prop :=
  (∀ (s : State) (tile : AccReg) (sel : Bool) (v : VNum) (a : SReg) (q pair : Fin 4) (x : LSpace) (fmt : MmaFmt) (form : MmaForm)
      (i : Instr), s.clean → s.it.term = [] → ¬(s.it.parts.length = 1 ∧ s.it.mask = allLanes) →
    i ∈ ([.mzero tile, .mlda tile a x sel, .msta tile a x sel, .mfrgRd v tile q sel, .mfrgWr tile v q,
      .mma fmt pair tile form sel] : List Instr) → s.stateIllegal s.it i = false →
    let y := BitVec.ofNat 64 (s.it.mask.toNat + if 1 < s.it.members.length then 4294967296 else 0)
    (s.it.closes = false → Answers i s fun t => s.pended t 5 y) ∧
    ∀ m : Fibre, s.mayTrap m → Answers i s fun t => s.tookTrap t m 5 y 0 s.resumeAfter) ∧
  ∀ (s : State) (m : Fibre) (tile : AccReg) (sel : Bool), s.lone m → m.mask = allLanes → s.room 2 →
    tile.val < (s.team s.myTeam).acc →
    let flag := s.it.flagOf sel
    let puts (i : Instr) (k : EngKind) (f : Option Nat) (ls : List LockReq) : Prop := Answers i s fun t =>
      s.entered t k f s.it.members ls
    let src (x : LSpace) (o : Word) (n : Nat) : LockReq :=
      { space := lspace x, owner := s.lockOwner s.myTeam (lspace x), first := o.toNat, len := n, dst := false }
    let fits (x : LSpace) (o : Word) (n : Nat) : Prop := (s.localLoc s.myTeam (lspace x) o.toNat n).isSome = true
    puts (.mzero tile) (.move (.zero tile.val)) none [] ∧
    (∀ (a : SReg) (x : LSpace),
      let o := s.regs.sreg a.val
      o.toNat % 256 = 0 → fits x o 16384 →
        puts (.mlda tile a x sel) (.move (.load tile.val (lspace x) o.toNat)) flag [src x o 16384] ∧
        puts (.msta tile a x sel) (.move (.store tile.val (lspace x) o.toNat none)) flag [{ src x o 16384 with dst := true }]) ∧
    (∀ (v : VNum) (q : Fin 4), s.inBounds v.val 32 63 →
      let e := s.it.wb + v.val
      puts (.mfrgRd v tile q sel) (.move (.read tile.val e q.val)) flag [] ∧
      ∃ image : Tab W32, puts (.mfrgWr tile v q) (.move (.write tile.val q.val image)) none [] ∧
        (∀ l < 32, ∀ k < 32, image.get? (64 * (16 * q.val + l / 2) + 32 * (l % 2) + k) = some (s.regs.vreg l (e + k))) ∧
        ∀ x, x / 1024 ≠ q.val → image.get? x = none) ∧
    ∀ (fmt : MmaFmt) (pair : Fin 4),
      let op : MmaOp :=
        { tile := tile.val, fmt := fmt, rows := s.regs.ereg (2 * pair.val), cols := s.regs.ereg (2 * pair.val + 1),
          regs := [], aDesc := 0, bDesc := 0, space := .sp, aOff := 0, bOff := 0, gt := false, i := 0, j := 0, kk := 0,
          mode := (s.team s.myTeam).mode, limit := (s.team s.myTeam).limit, addr := s.it.addr s.it.pos }
      (∀ (v : VNum) (b : SReg) (x : LSpace), s.inBounds v.val 32 63 →
        let o := s.regs.sreg b.val
        o.toNat % 64 = 0 → fits x o 4096 → ∀ rows : List Byte, rows.length = 4096 →
          (∀ i < 64, ∀ r < 16, ∀ k < 4, (rows.getD (64 * i + 4 * r + k) 0).toNat =
            (s.regs.vreg (i / 2) (s.it.wb + v.val + 16 * (i % 2) + r)).toNat / 256 ^ k % 256) →
          puts (.mma fmt pair tile (.rs v b x) sel) (.mma { op with regs := rows, space := lspace x, bOff := o.toNat }) flag
            [src x o 4096]) ∧
      (∀ (a b : SReg) (x : LSpace),
        let u := s.regs.sreg a.val
        let v := s.regs.sreg b.val
        u.toNat % 64 = 0 → v.toNat % 64 = 0 → fits x u 4096 → fits x v 4096 → puts (.mma fmt pair tile (.ss a b x) sel)
          (.mma { op with space := lspace x, aOff := u.toNat, bOff := v.toNat }) flag [src x u 4096, src x v 4096]) ∧
      ∀ (ta tb : TReg) (c : SReg),
        let da := s.regs.treg ta.val
        let db := s.regs.treg tb.val
        let i := (s.regs.sreg c.val).toNat % 2 ^ 32
        let j := (s.regs.sreg c.val).toNat / 2 ^ 32
        let k := (s.regs.sreg (c.val + 1)).toNat % 2 ^ 32
        let la := activeLines op.rows (64 * i)
        let lb := activeLines op.cols (64 * j)
        let nib := fmt = .e2m1 ∨ fmt = .i4 ∨ fmt = .q4
        let depth := if fmt = .bf16 ∨ fmt = .f16 then 32 else if nib then 128 else 64
        let row (d : BitVec 256) (e : Nat) : Nat := if nib then e / 2 else e * dWidth d
        let lines (d : BitVec 256) : Nat := if dTrans d then dColb d / dWidth d else dRows d
        let long (d : BitVec 256) : Nat :=
          if dTrans d then dRows d else if nib then 2 * dColb d else dColb d / dWidth d
        let elem (d : BitVec 256) (l e : Nat) : Nat :=
          if dTrans d then dBase d + e * dPitch d + row d l else dBase d + l * dPitch d + row d e
        let group (d : BitVec 256) : Nat := if fmt = .e2m1 then 32 else 32 * 2 ^ dQg d
        let scale (d : BitVec 256) (l e : Nat) : Nat := dSplane d +
          (if fmt = .e2m1 then 1 else 4) * (l * ((long d + group d - 1) / group d) + e / group d)
        let touched (d : BitVec 256) (ls : List Nat) (a : Nat) : Prop := ∃ l ∈ ls, l < lines d ∧ ∃ e, k * depth ≤ e ∧
          e < k * depth + depth ∧ e < long d ∧ (a = elem d l e ∨ ((fmt = .e2m1 ∨ fmt = .q8 ∨ fmt = .q4) ∧ a = scale d l e))
        let span (d : BitVec 256) (ls : List Nat) (r : LockReq) : Prop := r.space = .virt ∧ r.owner = 0 ∧ r.dst = false ∧
          ((∀ l ∈ ls, lines d ≤ l) → r.first = 0 ∧ r.len = 0) ∧
          ∀ x ∈ ls, ∀ y ∈ ls, x < lines d → y < lines d → (∀ l ∈ ls, l < lines d → x ≤ l ∧ l ≤ y) →
            r.first = elem d x 0 ∧ r.first + r.len = elem d y (long d - 1) + dWidth d
        (∀ a, touched da la a ∨ touched db lb a →
          ∃ dom key, walk s s.myFn s.mySlot a .read = .ok dom key ∧ ∀ x ∈ s.cachedLeaves s.myCore s.mySlot a,
            leafWalk s s.myFn a .read x.entry x.leaf = .ok dom key) →
        s.stateIllegal s.it (.mma fmt pair tile (.gt ta tb c) sel) = false →
        ∀ ra rb : LockReq, span da la ra → span db lb rb →
        Answers (.mma fmt pair tile (.gt ta tb c) sel) s fun t => ∃ u, s.cachesMoved u ∧
          u.entered t (.mma { op with gt := true, aDesc := da, bDesc := db, i := i, j := j, kk := k, space := .virt }) flag
            s.it.members [ra, rb]

/-- The words of R381 to R383 (spec/17) and of a copy or product on a handle in a state that does not take them (spec/17 R382; spec/10
R224; cause and syndrome, spec/11 R247). -/
def Obligations.HandleWordResults : Prop :=
  ∀ (s : State) (m : Fibre) (h : HReg), s.lone m →
    let x := s.handle s.myTeam h.val
    let idle : Prop := ∀ g f, f ∈ (s.group g).fibres → s.waitOf g f ≠ some (.handle h.val) ∧ s.waitOf g f ≠ some (.red h.val)
    let observed (seen : Bool) (o : Order) : State := { s.acquired s.myCore (x.run && seen) with order := o }
    let full (p : State → Prop) : Prop := ∃ o, (x.run = false ∨ x.state ≠ .full → o = s.order) ∧ p (observed (x.state == .full) o)
    (∀ d : SReg, Answers (.hstat d h) s fun t => full fun u => u.wroteS t d.val (BitVec.ofNat 64
      ((match x.state with | .free => 0 | .filling => 1 | .full => 2 | .draining => 3) + (if x.fault then 4 else 0) +
        (if x.sumbad then 8 else 0) + (if x.gone then 16 else 0) + (if x.late then 32 else 0) +
        (if x.isRed then 64 else 0) + 65536 * (x.round % 65536) + 4294967296 * x.sum.toNat))) ∧
    (s.mayTrap m → s.it.term = [] →
      let err (i : Instr) : Prop := Answers i s fun t => s.tookTrap t m 10
        (BitVec.ofNat 64 (h.val + 256 * match x.state with | .free => 0 | .filling => 1 | .full => 2 | .draining => 3)) 0 s.resumeAfter
      (x.isRed = true → (∀ d : SReg, err (.hfill d h)) ∧ (∀ c : CReg, err (.htake c h)) ∧ err (.hfree h)) ∧
      (x.isRed = true ∨ x.state = .filling ∨ x.state = .draining →
        (∀ a : SReg, err (.hset h a)) ∧ (∀ (src : Fin 64) (c : SReg) (l : CLit),
          s.stateIllegal s.it (.cpy h src c l) = false → err (.cpy h src c l)) ∧
        ∀ (fmt : NmvFmt) (acc : Bool) (w : TReg) (c : SReg), s.stateIllegal s.it (.nmv fmt acc h w c) = false → err (.nmv fmt acc h w c))) ∧
    (s.it.lastPlace = true →
      (x.state = .filling ∨ x.state = .draining → Answers (.hwait h) s fun t => s.noted t m (.park (.handle h.val)) []) ∧
      (x.state = .free ∨ x.state = .full → Answers (.hwait h) s fun t =>
        full fun u => (u.setGroup s.it.group { s.mine with expn := 0 }).noted t m .next [])) ∧
    (x.isRed = false →
      (∀ d : SReg, Answers (.hfill d h) s fun t => ∃ o, (x.run = false → o = s.order) ∧
        (observed true o).wroteS t d.val (BitVec.ofNat 64 x.fill)) ∧
      (∀ a : SReg, x.state = .free ∨ x.state = .full → Answers (.hset h a) s fun t =>
        (s.setHandle s.myTeam h.val
          { x with state := .full, fault := false, sumbad := false, gone := false, late := false, run := false, fill := 0,
                   sum := (s.regs.sreg a.val).setWidth 32 }).wrote t []) ∧
      (∀ c : CReg,
        (x.state ≠ .full → Answers (.htake c h) s fun t => s.wroteC t m c.val false) ∧
        (x.state = .full → idle → Answers (.htake c h) s fun t =>
          t.handle s.myTeam h.val = { x with state := .free, op := none, isRed := false, tape := none } ∧
          t.mine.fibres.map (fun f => (f.id, f.c.getLsbD c.val)) =
            s.mine.fibres.map (fun f => (f.id, f.c.getLsbD c.val || f.id == m.id)) ∧
          t.mine.s = s.mine.s ∧ t.mem = s.mem ∧ ∀ k, k ≠ h.val → t.handle s.myTeam k = s.handle s.myTeam k)) ∧
      (x.state = .free ∨ x.state = .draining → Answers (.hfree h) s fun t => s.wrote t []) ∧
      (x.state = .full → Answers (.hfree h) s fun t =>
        (t.handle s.myTeam h.val).state = .free ∧ (t.handle s.myTeam h.val).sumbad = false ∧ t.mine.s = s.mine.s ∧
        t.mem = s.mem ∧ ∀ k, k ≠ h.val → t.handle s.myTeam k = s.handle s.myTeam k) ∧
      (x.state = .filling → Answers (.hfree h) s fun t =>
        t.handle s.myTeam h.val = { x with state := .draining, sumbad := false } ∧
        t.engs = s.engs ∧ t.mine.s = s.mine.s ∧ t.mem = s.mem ∧ ∀ k, k ≠ h.val → t.handle s.myTeam k = s.handle s.myTeam k))

/-- Issue of copies and near-memory products (spec/17 R384 to R391), with the count of an armed %cflip (spec/02 R48) and a copy of no
bytes (spec/17 R385). -/
def Obligations.CopyAndProductIssue : Prop :=
  ∀ (s : State) (m : Fibre) (h : HReg) (c : SReg), s.lone m → s.room 3 →
    let x := s.handle s.myTeam h.val
    x.isRed = false → x.state = .free ∨ x.state = .full →
    let bound (y : Handle) : State := s.setHandle s.myTeam h.val { y with state := .filling, op := some s.nextId }
    let fresh : Handle := { x with fault := false, sumbad := false, gone := false, late := false, run := false, fill := 0, sum := 0 }
    (∀ (src : Fin 64) (l : CLit),
      let cf := (s.coreAt s.myCore).cflip
      let counts := cf.arm = true ∧ cf.targeted = false
      let hit := counts ∧ cf.skip = 0
      let cf' := { cf with targeted := if hit then true else cf.targeted, skip := if counts ∧ cf.skip ≠ 0 then cf.skip - 1 else cf.skip }
      let parts := memMembers l.mem
      let from_ := s.regs.sreg src.val
      let dst := s.regs.sreg c.val
      let k := (s.regs.sreg (c.val + 1)).toNat
      let desc := s.regs.treg src.val
      let rc := (s.regs.sreg l.xs.val).toNat
      let nr := k % 2 ^ 16
      let nc := k / 2 ^ 16 % 2 ^ 16
      let len := if l.t then nr * nc * 2 ^ dEw desc else k % 2 ^ 41
      let y := if x.state = .free then fresh else { x with run := false }
      let rows := min nr (dRows desc - rc % 2 ^ 32)
      let cols := min nc (dColb desc / 2 ^ dEw desc - rc / 2 ^ 32)
      let want : W32 := (s.regs.sreg (l.xs.val + if l.t then 1 else 0)).setWidth 32
      let begun : State := (bound y).setCore s.myCore { s.coreAt s.myCore with cflip := cf' }
      let into (first : Nat) : LockReq := { space := l.dsp, owner := s.lockOwner s.myTeam l.dsp, first := first, len := len, dst := true }
      s.stateIllegal s.it (.cpy h src c l) = false → s.room (1 + max 1 parts.length) →
      (l.ssp ≠ .virt → (s.localLoc s.myTeam l.ssp from_.toNat len).isSome = true) →
      (l.mc = false → l.dsp ≠ .virt → (s.localLoc s.myTeam l.dsp dst.toNat len).isSome = true) →
      (l.mc = true → dst.toNat < 2 ^ 19 ∧ ∀ q ∈ parts, (s.localLoc s.myTeam .cm (524288 * q + dst.toNat) len).isSome = true) →
      (len = 0 → (∀ g f, f ∈ (s.group g).fibres → s.waitOf g f ≠ some (.handle h.val) ∧ s.waitOf g f ≠ some (.red h.val)) →
        Answers (.cpy h src c l) s fun t =>
          t.handle s.myTeam h.val =
            { y with state := .full, op := none, sumbad := y.sumbad || (l.chk && decide (want ≠ y.sum)) } ∧
          (∀ k, k ≠ h.val → t.handle s.myTeam k = s.handle s.myTeam k) ∧ t.engs = s.engs ∧ t.mem = s.mem ∧ t.mine.s = s.mine.s ∧
          t.coreAt s.myCore =
            { s.coreAt s.myCore with cflip := if hit then { cf with arm := false, targeted := false, miss := true } else cf' }) ∧
      (len ≠ 0 → Answers (.cpy h src c l) s fun t => ∃ o : CopyOp,
        begun.entered t (.copy o) none []
          ((if l.t then [{ space := .virt, owner := 0, first := dBase desc + rc % 2 ^ 32 * dPitch desc + rc / 2 ^ 32 * 2 ^ dEw desc,
                           len := if rows = 0 ∨ cols = 0 then 0 else (rows - 1) * dPitch desc + cols * 2 ^ dEw desc, dst := false }]
            else [{ space := l.ssp, owner := s.lockOwner s.myTeam l.ssp, first := from_.toNat, len := len, dst := false }])
            ++ if l.mc then parts.map fun q => into (524288 * q + dst.toNat) else [into dst.toNat]) ∧
        o.handle = h.val ∧ o.ssp = l.ssp ∧ o.src = from_.toNat ∧ o.dsp = l.dsp ∧ o.dst = dst.toNat ∧ o.len = len ∧ o.mc = l.mc ∧
        o.ck = l.ck ∧ o.done = 0 ∧ o.flip = (if hit then some s.myCore else none) ∧ o.stop = false ∧ o.fillBase = y.fill ∧ o.dstSum = y.sum ∧
        o.tdesc = (if l.t then some desc else none) ∧
        (l.t = true → o.row0 = rc % 2 ^ 32 ∧ o.col0 = rc / 2 ^ 32 ∧ o.nr = nr ∧ o.nc = nc) ∧
        o.chk = if l.chk then some want else none)) ∧
    ∀ (fmt : NmvFmt) (acc : Bool) (w : TReg),
      let d := s.regs.treg w.val
      let rows := nmvRows d
      let n := nmvLen fmt d
      let u := s.regs.sreg c.val
      let v := s.regs.sreg (c.val + 1)
      s.stateIllegal s.it (.nmv fmt acc h w c) = false → rows ≤ 65536 → n ≤ 16384 → u.toNat % 4 = 0 → v.toNat % 4 = 0 →
      u.toNat + 2 * n ≤ (s.team s.myTeam).scrBytes → v.toNat + 4 * rows ≤ (s.team s.myTeam).scrBytes →
      Answers (.nmv fmt acc h w c) s fun t => (bound fresh).entered t
        (.nmv { handle := h.val, fmt := fmt, acc := acc, desc := d, x := u.toNat, y := v.toNat,
                gen := (s.team s.myTeam).gen }) none []
        [{ space := .virt, owner := 0, first := dBase d, len := dAddr d false (rows - 1) 0 + dColb d - dBase d, dst := false },
         { space := .sp, owner := s.myTeam, first := u.toNat, len := 2 * n, dst := false },
         { space := .sp, owner := s.myTeam, first := v.toNat, len := 4 * rows, dst := true }]

/-- The words on a bound handle (spec/18 R396, R397, R399; spec/10 R224, R225, R229), and on a handle in a state that does not take them
(spec/10 R224; cause and syndrome, spec/11 R247); `u` is the state once the nodes whose forwarding times have passed have forwarded and the
rounds whose give-up times have passed are given up (spec/10 R224, R226). -/
def Obligations.ReductionHandleWords : Prop :=
  (∀ (s : State) (m : Fibre) (h : HReg) (a : SReg) (space : Space), s.mayTrap m → s.it.term = [] →
    let u := s.redUntil s.time
    let err (u : State) (i : Instr) : Prop := Answers i s fun t => u.tookTrap t m 10 (BitVec.ofNat 64 (h.val + 256 *
      match (u.handle u.myTeam h.val).state with | .free => 0 | .filling => 1 | .full => 2 | .draining => 3)) 0 s.resumeAfter
    (u.mayTrap m → u.it = s.it →
      let x := u.handle u.myTeam h.val
      (¬(x.isRed = true ∧ (x.state = .filling ∨ x.state = .full)) →
        (∀ w : Fin 64, err u (.redMap a h w)) ∧ err u (.redNext h a) ∧ err u (.redClose h) ∧
        ∀ sel : Bool, err u (.redCorr h a space sel)) ∧
      (¬(x.isRed = true ∧ x.state = .filling ∧ x.red.submitted = false) → err u (.redSub h a space))) ∧
    (s.it.lastPlace = true → ¬((s.handle s.myTeam h.val).isRed = true ∧
      ((s.handle s.myTeam h.val).state = .filling ∨ (s.handle s.myTeam h.val).state = .full)) → err s (.redWait h))) ∧
  (∀ (s : State) (m : Fibre) (h : HReg), s.lone m → s.it.lastPlace = true →
    let x := s.handle s.myTeam h.val
    x.isRed = true →
      (x.state = .full → Answers (.redWait h) s fun t =>
        (s.setGroup s.it.group { s.mine with expn := 0 }).noted t m .next []) ∧
      (x.state = .filling → Answers (.redWait h) s fun t => s.noted t m (.park (.red h.val)) [])) ∧
  ∀ (s : State) (m : Fibre) (h : HReg) (a : SReg), s.lone m →
    let u := s.redUntil s.time
    u.clean → u.it = s.it → u.room 1 →
    let x := u.handle u.myTeam h.val
    let keeps (t : State) : Prop := t.mem = u.mem ∧ t.mine.s = u.mine.s ∧ t.mine.v = u.mine.v ∧
      ∀ k, k ≠ h.val → t.handle u.myTeam k = u.handle u.myTeam k
    let live := x.state = .filling ∨ x.state = .full
    x.isRed = true →
    (∀ space : Space, x.state = .filling → x.red.submitted = false →
      let w := if x.red.type = 1 then 2 else 4
      let ea := s.regs.sreg a.val
      let r := u.checkRange space ea w (w * x.red.len) .read
      r.bad = none → Answers (.redSub h a space) s fun t => keeps t ∧
        t.handle u.myTeam h.val = { x with red := { x.red with submitted := true } } ∧
        ∃ e, t.engs = u.engs.put u.nextId e ∧ t.nextId = u.nextId + 1 ∧ e.team = u.myTeam ∧ e.core = u.myCore ∧
          e.tags = u.setTags u.myTeam ∧
          e.kind = .sub { handle := h.val, gid := x.red.gid, chan := x.red.chan, round := x.round, op := x.red.op,
                          type := x.red.type, len := x.red.len, d := x.red.d, slack := x.red.slack, space := space,
                          src := ea.toNat, bind := x.op }) ∧
    (live → ∀ (d : SReg) (w : Fin 64), Answers (.redMap d h w) s fun t => u.wroteS t d.val (t.mine.sreg d.val) ∧
      (w.val < 16 → x.red.map.Nodup → ∀ k < 64, (t.mine.sreg d.val).getLsbD k = decide (64 * w.val + k ∈ x.red.map)) ∧
      (w.val = 16 → t.mine.sreg d.val = BitVec.ofNat 64
        (u.currentRecs u.myTeam h.val x + 2 ^ 16 * x.red.cdrop + 2 ^ 32 * x.red.stale + 2 ^ 48 * x.red.conf)) ∧
      (w.val = 17 → ∀ g, u.redSlots.get? x.red.grp = some g → t.mine.sreg d.val = BitVec.ofNat 64
        (x.round + 2 ^ 16 * x.red.map.length + 2 ^ 32 * g.self + 2 ^ 48 * g.n)) ∧
      (17 < w.val → t.mine.sreg d.val = 0)) ∧
    (live → ∀ g, u.redSlots.get? x.red.grp = some g →
      let d := (s.regs.sreg a.val).toNat
      let n := (x.round + 1) % 65536
      (∀ e ∈ u.engs, u.corrOf u.myTeam h.val e.2 = false) → u.opensOnly x.red.gid x.red.chan n d x.red.slack →
      Answers (.redNext h a) s fun t => keeps t ∧ t.handle u.myTeam h.val =
        { x with state := .filling, round := n, fault := false, sumbad := false, gone := false, late := false, run := false, fill := 0, sum := 0,
                 red := { x.red with d := d, submitted := false, map := [],
                                     openRounds := x.red.openRounds ++ [(n, giveUpTime g.n d x.red.slack)] } }) ∧
    (x.state = .full → u.roundOpen x.red.gid x.red.chan = false → Answers (.redClose h) s fun t => keeps t ∧
      (t.handle u.myTeam h.val).state = .free ∧ (t.handle u.myTeam h.val).isRed = false ∧
      (t.handle u.myTeam h.val).red = {}) ∧
    (x.red.openRounds ≠ [] → x.state = .filling ∨ u.roundOpen x.red.gid x.red.chan = true → live →
      Answers (.redClose h) s fun t => keeps t ∧ t.handle u.myTeam h.val = { x with state := .draining })

/-- The words that read records at issue, and RED.CORR (spec/18 R392, R395, R398; spec/10 R216 to R222, R231), with the reduction errors
and their order (spec/10 R222). That a slot number of 256 or more is judged before any record is read follows R395 against the last sentence
of R222, which is the model's reading (log 64). -/
def Obligations.ReductionRecordWords : Prop :=
  (∀ (s : State) (m : Fibre) (h : HReg) (a b : SReg), s.mayTrap m → s.it.term = [] →
    let st := s.ageNodes
    let so := (s.redUntil s.time).ageNodes
    let ea := s.regs.sreg a.val
    let n := (s.regs.sreg b.val).toNat
    let x := so.handle so.myTeam h.val
    let err (u : State) (i : Instr) (code : Nat) : Prop := u.mayTrap m → u.it = s.it → Answers i s fun t =>
      u.tookTrap t m 18 (BitVec.ofNat 64 code) 0 s.resumeAfter
    (x.state ≠ .free → so.mayTrap m → so.it = s.it → Answers (.redOpen h a) s fun t => so.tookTrap t m 10
      (BitVec.ofNat 64 (h.val + 256 * match x.state with | .free => 0 | .filling => 1 | .full => 2 | .draining => 3)) 0
      s.resumeAfter) ∧
    (∀ (u : State) (bs : List Byte), x.state = .free → so.readRecord m ea 16 48 = .ok (u, bs) →
      let grp := recField bs 0 8 / 2 ^ 8 % 2 ^ 8
      (bindingBad bs = true → err u (.redOpen h a) 4) ∧
      (bindingBad bs = false →
        (u.redSlots.get? grp = none → err u (.redOpen h a) 1) ∧
        ∀ g, u.redSlots.get? grp = some g →
          (g.fn ≠ u.myFn → err u (.redOpen h a) 2) ∧
          (g.fn = u.myFn → u.channelBound g grp (recField bs 0 8 / 2 ^ 16 % 2 ^ 6) = true → err u (.redOpen h a) 3))) ∧
    (s.mySup = true →
      (256 ≤ n → err st (.redOpenDef a b) 5 ∧ err st (.redCloseDef b) 5) ∧
      (n < 256 → (st.redSlots.get? n).isSome = true → st.slotTaken n st.myFn = true → err st (.redCloseDef b) 6) ∧
      ∀ (u v : State) (head list : List Byte), n < 256 → st.readRecord m ea 16 16 = .ok (u, head) →
        u.readRecord m (ea + 16) 2 (2 * (recField head 0 8 / 2 ^ 16 % 1024 + 1)) = .ok (v, list) →
        (definitionBad v.pkg (head ++ list) = true → err v (.redOpenDef a b) 5) ∧
        (definitionBad v.pkg (head ++ list) = false → 8 ≤ head.length →
          (v.slotTaken n v.myFn = true ∨ (v.liveKey v.myFn (recField head 0 8 / 2 ^ 48 % 4096)).isSome = false) →
          err v (.redOpenDef a b) 6))) ∧
  ∀ (s : State) (m : Fibre) (h : HReg) (a b : SReg), s.lone m →
    let st := s.ageNodes
    let v := s.redUntil s.time
    let so := v.ageNodes
    let ea := s.regs.sreg a.val;
    (∀ (u : State) (bs : List Byte) (g : RedSlot), (so.handle so.myTeam h.val).state = .free →
      so.readRecord m ea 16 48 = .ok (u, bs) → bindingBad bs = false → u.clean → u.it = s.it → u.room 2 →
      let f (k hi lo : Nat) : Nat := recField bs k 8 / 2 ^ lo % 2 ^ (hi + 1 - lo)
      u.redSlots.get? (f 0 15 8) = some g → g.fn = u.myFn → u.channelBound g (f 0 15 8) (f 0 21 16) = false →
      u.opensOnly g.gid (f 0 21 16) 0 (f 8 63 0) (f 16 31 0) →
      Answers (.redOpen h a) s fun t =>
        let y := t.handle u.myTeam h.val
        y.state = .filling ∧ y.isRed = true ∧ y.round = 0 ∧ y.fill = 0 ∧ y.sum = 0 ∧ y.fault = false ∧ y.sumbad = false ∧
        y.gone = false ∧ y.late = false ∧ y.run = false ∧ y.op.isSome = true ∧
        y.red = { grp := f 0 15 8, chan := f 0 21 16, gid := g.gid, op := f 0 1 0, type := f 0 3 2, len := f 0 50 32, d := f 8 63 0,
                  slack := f 16 31 0, cqn := f 16 38 32, dst := f 24 56 0, cqa := f 32 56 0, submitted := false, map := [], cdrop := 0,
                  stale := 0, conf := 0, wpos := 0, recs := [],
                  openRounds := [(0, f 8 63 0 + (2 * treeHeight g.n + 2) * max 200 (f 16 31 0))] } ∧
        t.mem = u.mem ∧ t.mine.s = u.mine.s) ∧
    (s.mySup = true →
      let n := (s.regs.sreg b.val).toNat;
      (∀ (u v : State) (head list : List Byte), st.readRecord m ea 16 16 = .ok (u, head) → n < 256 →
        u.readRecord m (ea + 16) 2 (2 * (recField head 0 8 / 2 ^ 16 % 1024 + 1)) = .ok (v, list) → v.clean →
        definitionBad v.pkg (head ++ list) = false → v.slotTaken n v.myFn = false →
        (v.liveKey v.myFn (recField head 0 8 / 2 ^ 48 % 4096)).isSome = true → 8 ≤ head.length →
        Answers (.redOpenDef a b) s fun t => ∃ g, t.redSlots.get? n = some g ∧ g.fn = v.myFn ∧
          g.gid = recField head 0 8 % 65536 ∧ g.n = recField head 0 8 / 2 ^ 16 % 1024 + 1 ∧
          g.self = recField head 0 8 / 2 ^ 32 % 1024 ∧ g.kslot = recField head 0 8 / 2 ^ 48 % 4096 ∧
          g.pkgs = (List.range g.n).map (fun i => recField (head ++ list) (16 + 2 * i) 2 % 1024) ∧ g.closing = false ∧
          (∀ k, k ≠ n → t.redSlots.get? k = v.redSlots.get? k) ∧ t.mem = v.mem ∧ t.mine.s = v.mine.s) ∧
      (n < 256 → s.ageNodes.slotTaken n s.myFn = false → Answers (.redCloseDef b) s fun t =>
        t.redSlots.get? n = none ∧ (∀ k, k ≠ n → t.redSlots.get? k = s.ageNodes.redSlots.get? k) ∧ t.mem = s.mem ∧
          t.mine.s = s.mine.s)) ∧
    ∀ (space : Space) (sel : Bool),
      let x := v.handle v.myTeam h.val
      let r := v.checkRange space ea 16 (144 + 4 * x.red.len) .write
      v.clean → v.it = s.it → v.room 1 → x.isRed = true → x.state = .filling ∨ x.state = .full → r.bad = none →
      let takes (gone post : List (Nat × Nat)) (p : Option Nat) : Prop :=
        Answers (.redCorr h a space sel) s fun t => t.mem = v.mem ∧ t.mine.s = v.mine.s ∧
          t.handle v.myTeam h.val = { x with red := { x.red with recs := post, stale := min (x.red.stale + gone.length) 65535 } } ∧
          ∃ e, t.engs = v.engs.put v.nextId e ∧ e.flag = s.it.flagOf sel ∧ e.holders = [m.id] ∧ e.team = v.myTeam ∧
            e.kind = .corr { handle := h.val, space := space, buf := ea.toNat, rec_ := p, round := x.round,
                             area := x.red.cqa + p.getD 0 * (144 + 4 * x.red.len), len := 144 + 4 * x.red.len, bind := x.op }
      (∀ pre p post, x.red.recs = pre ++ (x.round, p) :: post → (∀ y ∈ pre, y.1 ≠ x.round) → takes pre post (some p)) ∧
      ((∀ y ∈ x.red.recs, y.1 ≠ x.round) → takes x.red.recs [] none)

/-- Launches by programs (spec/18 R401, R402; spec/04 R68 to R71, R85, R86). That an answer for a full table comes before the block is judged,
and that a duplicate answers 1, are the model's reading (log 66). -/
def Obligations.LaunchWordResults : Prop :=
  ∀ (s : State) (m : Fibre) (c : CReg) (a b : SReg), s.lone m →
    let ea := s.regs.sreg a.val
    let i := s.inst s.myInst
    let bit (t : State) (x : Bool) : Prop := ∀ f ∈ t.mine.fibres, f.id = m.id → f.c.getLsbD c.val = x;
    (∀ (u : State) (bs : List Byte), s.readRecord m ea 256 256 = .ok (u, bs) → u.clean → u.it = s.it →
      u.inst u.myInst = i → u.atRest →
      let blk := parseTcb bs
      let same (e : Nat × Instance) : Prop := e.2.fn = i.fn ∧ e.2.blk = ea.toNat;
      (u.tableFull i.fn = false → (∃ e ∈ u.insts, same e ∧ e.2.children = []) →
        Answers (.launch c a) s fun t => bit t true ∧ t.insts = u.insts ∧ t.mine.s = u.mine.s) ∧
      (u.tableFull i.fn = true → Answers (.launch c a) s fun t => u.wroteC t m c.val false) ∧
      (u.tableFull i.fn = false → (∀ e ∈ u.insts, ¬same e) →
        (∀ x ∈ u.credits, ¬(x.fn = i.fn ∧ x.blk = ea.toNat)) → blk.bad = false →
        (blk.sup = true → i.sup = true) →
        Answers (.launch c a) s fun t => bit t true ∧ t.mine.s = u.mine.s ∧ ∃ n x, t.insts.get? n = some x ∧
          x.blk = ea.toNat ∧ x.tcb = blk ∧ x.fn = i.fn ∧ x.slot = i.slot ∧ x.sup = blk.sup ∧ x.prio = min i.prio blk.prio ∧
          x.count = blk.predc ∧ x.state = if blk.predc = 0 then .ready else .pending)) ∧
    (let r := s.checkRange .virt ea 256 256 .read;
      r.bad = none → s.atRest →
      let mine (w : Window) : Prop := w.fn = i.fn ∧ w.blk = ea.toNat ∧ w.closed = false;
      (∀ pre w post, s.windows = pre ++ w :: post → mine w → (∀ y ∈ pre, ¬mine y) → (∀ y ∈ pre ++ post, y ≠ w) →
        w.children.length + 1 < 64 → (∀ k, w.tcb = some k → (w.children.length + 1) * k.teams ≤ 2 ^ 32) → s.time < w.opened + 2000 →
        Answers (.lagg a b) s fun t => t.mine.s = s.mine.s ∧
          t.windows = pre ++ { w with children := w.children ++ [s.regs.sreg b.val] } :: post) ∧
      ((∀ w ∈ s.windows, ¬mine w) → (s.windows.filter fun w => w.fn == i.fn && !w.closed).length < 16 →
        Answers (.lagg a b) s fun t => t.mine.s = s.mine.s ∧ ∃ w, t.windows = s.windows ++ [w] ∧
          w.fn = i.fn ∧ w.blk = ea.toNat ∧ w.children = [s.regs.sreg b.val] ∧ w.slot = i.slot ∧ w.sup = i.sup ∧
          w.prio = i.prio ∧ w.closed = false ∧ w.opened = t.time) ∧
      (∀ pre w post, s.windows = pre ++ w :: post → mine w → (∀ y ∈ pre ++ post, ¬mine y) → w.children.length + 1 = 64 →
        (∀ k, w.tcb = some k → 64 * k.teams ≤ 2 ^ 32) → s.time < w.opened + 2000 →
        Answers (.lagg a b) s fun t => t.mine.s = s.mine.s ∧ ∀ y ∈ t.windows, ¬mine y) ∧
      (∀ w rest, (∀ y ∈ s.windows, ¬mine y) → s.openWindows i.fn = w :: rest → rest.length = 15 → w ∉ rest →
        Answers (.lagg a b) s fun t => t.mine.s = s.mine.s ∧ ∃ x, t.openWindows i.fn = rest ++ [x] ∧
          x.blk = ea.toNat ∧ x.children = [s.regs.sreg b.val])) ∧
    (s.atRest → Answers .lflush s fun t => (∀ w ∈ t.windows, w.fn = s.myFn → w.closed = true) ∧
      t.windows.filter (fun w => w.fn != s.myFn) = s.windows.filter (fun w => w.fn != s.myFn) ∧
      t.mine.s = s.mine.s ∧ t.mine.v = s.mine.v ∧ t.mine.p = s.mine.p)

/-- Tapes (spec/18 R403, R404; spec/04 R81 to R83). That a push during a run sets LOST, whoever makes it, is the model's choice between R81
and R83 (log 74), and so is that a full table holds a submission before its block is judged (log 66). -/
def Obligations.TapeWordResults : Prop :=
  ∀ (s : State) (m : Fibre) (c : CReg) (h : HReg) (a b : SReg), s.lone m →
    let t0 := (s.regs.sreg b.val).toNat
    let y := s.tape t0
    let own := s.ownerSlot s.myFn s.mySlot
    let ours := t0 < 1024 ∧ y.run = none ∧ (y.owner = none ∨ y.owner = some own)
    let bit (t : State) (x : Bool) : Prop := ∀ f ∈ t.mine.fibres, f.id = m.id → f.c.getLsbD c.val = x;
    (ours ∧ y.recs.length < 4096 → Answers (.tapePush c b a) s fun t => bit t true ∧ t.mem = s.mem ∧ t.mine.s = s.mine.s ∧
      t.tape t0 = { y with owner := some own,
                           recs := { blk := (s.regs.sreg a.val).toNat % 2 ^ 57, sup := s.mySup,
                                     arg := s.regs.sreg (a.val + 1) } :: y.recs } ∧
      ∀ k, k ≠ t0 → t.tape k = s.tape k) ∧
    (¬(ours ∧ y.recs.length < 4096) → Answers (.tapePush c b a) s fun t => bit t false ∧
      (t.tape t0).recs = y.recs ∧ (t.tape t0).run = y.run ∧ (t.tape t0).owner = y.owner ∧
      ((t.tape t0).lost = true ↔ y.lost = true ∨ (t0 < 1024 ∧ y.run ≠ none) ∨ (ours ∧ 4096 ≤ y.recs.length)) ∧
      ∀ k, k ≠ t0 → t.tape k = s.tape k) ∧
    let x := s.handle s.myTeam h.val
    (x.isRed = true ∨ x.state = .filling ∨ x.state = .draining → s.mayTrap m → s.it.term = [] → Answers (.tapeRun h b) s fun t =>
      s.tookTrap t m 10 (BitVec.ofNat 64 (h.val + 256 *
        match x.state with | .free => 0 | .filling => 1 | .full => 2 | .draining => 3)) 0 s.resumeAfter) ∧
    (x.isRed = false → x.state = .free ∨ x.state = .full →
    let ends (fault gone : Bool) (sum : Nat) : Prop := Answers (.tapeRun h b) s fun t =>
      let z := t.handle s.myTeam h.val
      z.state = .full ∧ z.fault = fault ∧ z.gone = gone ∧ z.sumbad = false ∧ z.late = false ∧ z.fill = 0 ∧
        z.sum = BitVec.ofNat 32 sum ∧ t.mem = s.mem ∧ t.mine.s = s.mine.s
    (¬ours → ends true true 0) ∧ (ours → y.lost = true → ends true false y.recs.length) ∧
    (ours → y.lost = true → Answers (.tapeRun h b) s fun t => t.tape t0 = {}) ∧
    (ours → y.lost = false → y.recs = [] → (s.teams.get? s.myTeam).any (fun k => !k.ended) = true → ends false false 0) ∧
    ∀ top rest, ours → y.lost = false → y.recs = top :: rest →
      let run : TapeRun := { team := s.myTeam, handle := h.val, slot := s.mySlot, fn := s.myFn, prio := (s.inst s.myInst).prio,
                             total := y.recs.length, retired := 0, inst := none }
      let z : Handle := { x with state := .filling, fault := false, sumbad := false, gone := false, late := false, fill := 0,
                                 sum := BitVec.ofNat 32 y.recs.length, tape := some t0, run := true };
      (s.tableFull s.myFn = true → (∀ e ∈ s.insts, ¬(e.2.fn = s.myFn ∧ e.2.blk = top.blk)) → Answers (.tapeRun h b) s fun t =>
        t.handle s.myTeam h.val = z ∧ t.tape t0 = { y with run := some run } ∧ t.insts = s.insts ∧ t.mem = s.mem) ∧
      (∀ v out, ((s.setHandle s.myTeam h.val z).setTape t0 { y with run := some run }).readTcb s.myFn s.mySlot top.blk = (v, out) →
        v.atRest → v.stalled = false → v.tableFull s.myFn = false → (s.teams.get? s.myTeam).any (fun k => !k.ended) = true →
        (∀ blk, out = some blk → (∃ e ∈ v.insts, e.2.fn = s.myFn ∧ e.2.blk = top.blk ∧ e.2.children = []) ∨ blk.bad = true ∨
          (blk.sup = true ∧ top.sup = false)) →
        Answers (.tapeRun h b) s fun t =>
          let k := t.handle s.myTeam h.val
          k.state = .full ∧ k.fault = false ∧ k.gone = true ∧ k.sumbad = false ∧ k.late = false ∧ k.fill = 0 ∧
            k.sum = BitVec.ofNat 32 y.recs.length ∧ t.tape t0 = {} ∧ t.mine.s = s.mine.s) ∧
      ∀ v blk, ((s.setHandle s.myTeam h.val z).setTape t0 { y with run := some run }).readTcb s.myFn s.mySlot top.blk = (v, some blk) →
        v.atRest → v.stalled = false → v.tableFull s.myFn = false → (∀ e ∈ v.insts, ¬(e.2.fn = s.myFn ∧ e.2.blk = top.blk)) →
        (∀ k ∈ v.credits, ¬(k.fn = s.myFn ∧ k.blk = top.blk)) → blk.bad = false →
        (blk.sup = true → top.sup = true) → Answers (.tapeRun h b) s fun t => ∃ n i,
          t.insts.get? n = some i ∧ i.blk = top.blk ∧ i.tcb = blk ∧ i.fn = s.myFn ∧ i.slot = s.mySlot ∧ i.state = .ready ∧
          i.prio = (s.inst s.myInst).prio ∧ i.s1 = top.arg ∧ i.replayTape = some t0 ∧ t.handle s.myTeam h.val = z ∧
          t.tape t0 = { y with recs := rest, owner := if rest = [] then none else y.owner, run := some { run with inst := some n } })

/-- TAPE.DROP (spec/18 R405). -/
def Obligations.TapeDropResults : Prop :=
  ∀ (s : State) (m : Fibre) (c : CReg) (a : SReg), s.lone m →
    let t0 := (s.regs.sreg a.val).toNat
    let y := s.tape t0
    let refused := (∃ r, y.run = some r) ∨ (∃ o, y.owner = some o ∧ o ≠ s.ownerSlot s.myFn s.mySlot) ∨ 1024 ≤ t0;
    (¬refused → Answers (.tapeDrop c a) s fun t =>
      ({ s with tapes := s.tapes.put t0 {}, order := t.order } : State).wroteC t m c.val true ∧ (t.tape t0).recs = [] ∧
        (t.tape t0).lost = false ∧ ∀ k, k ≠ t0 → t.tape k = s.tape k) ∧
    (refused → Answers (.tapeDrop c a) s fun t => s.wroteC t m c.val false)

/-- QSIG (spec/18 R406; spec/08 R186). Which writes a flush covers and how the fibre waits for it is the model's choice (log 25). -/
def Obligations.SignalWordResults : Prop :=
  ∀ (s : State) (m : Fibre) (a b : SReg), s.lone m →
    let ea := s.regs.sreg a.val
    let raised (t : State) : Prop := t.msix = s.msix ++ [(s.myFn, (s.slot s.mySlot).vec)];
    (ea = 0 →
      (s.flushDue true [m] = false → Answers (.qsig a b) s fun t => raised t ∧ s.releasedOnly { t with msix := s.msix }) ∧
      (s.flushDue true [m] = true → m.mask ≠ 0 → Answers (.qsig a b) s fun t => t.msix = s.msix ∧ s.flushing t (· = 0))) ∧
    (ea ≠ 0 → s.mayTrap m → s.it.term = [] → ∀ (k : Nat) (y : Word),
      s.refuses (.space .virt) { lane := lowLane m.mask, lanes := lanesOf m.mask, ea := ea } 8 0 8 .write k y →
      Answers (.qsig a b) s fun t => s.turnedAway t m k y fun _ => ea) ∧
    (ea ≠ 0 → ∀ p, s.reaches (.space .virt) { lane := lowLane m.mask, lanes := lanesOf m.mask, ea := ea } 8 0 8 .write p →
      (s.flushDue true [m] = false → Answers (.qsig a b) s fun t => raised t ∧
        s.stored { t with msix := s.msix } [(p, leBytes 8 (s.regs.sreg b.val).toNat)]) ∧
      (s.flushDue true [m] = true → m.mask ≠ 0 → Answers (.qsig a b) s fun t => t.msix = s.msix ∧ s.flushing t (· = ea)))

/-- Region, rail and telemetry words (spec/18 R407 to R410; spec/09 R203, R213). A product that runs when a script is armed is none of its
products. The counters 12 to 15 of a die are values that the model leaves free (log 10). -/
def Obligations.SystemWordResults : Prop :=
  ∀ (s : State) (m : Fibre) (a b : SReg), s.lone m →
    let core := s.coreAt s.myCore
    let y := (s.regs.sreg a.val).toNat;
    (∀ (mode : RegionMode) (l : Fin 8),
      let noted (t : State) (it : Issue) : Prop := t.mine = s.mine ∧ t.quarter s.cur = { s.quarter s.cur with issue := some it }
      (s.it.closes = true → Answers (.region mode l) s fun t => s.onlyMine { t with teams := s.teams } ∧
        t.team s.myTeam = { s.team s.myTeam with mode := mode, limit := l.val } ∧ (∀ k, k ≠ s.myTeam → t.team k = s.team k) ∧
        noted t { s.it with region0 := (mode, l.val) }) ∧
      (s.it.closes = false → Answers (.region mode l) s fun t => s.onlyMine t ∧
        noted t { s.it with late := [.region mode l.val] })) ∧
    (Answers (.railr a) s fun t => s.wroteS t a.val (BitVec.ofNat 64
      (core.p + 2 ^ 8 * core.q + 2 ^ 24 * core.w + 2 ^ 36 * core.e + 2 ^ 48 * core.n))) ∧
    (s.mySup = true ∨ (s.dieOwner (dieOf s.myCore)).isSome = true → Answers (.railt a) s fun t =>
      (s.setCore s.myCore { core with p := y % 256, q := y / 2 ^ 8 % 65536, w := y / 2 ^ 24 % 512, e := 0, n := 0, vfloor :=
        if s.mySup = true ∧ y / 2 ^ 63 = 1 then core.vg - 30 else core.vfloor }).wrote t []) ∧
    (s.mySup = false → s.dieOwner (dieOf s.myCore) = none → Answers (.railt a) s fun t => s.wrote t []) ∧
    let armed (v : State) (l : List ScriptEntry) : State :=
      { v.setCore s.myCore { v.coreAt s.myCore with script := l, scriptSeq := 0 } with
        engs := v.engs.map fun x => (x.1, match x.2.kind with
          | .mma p => if x.2.core = s.myCore ∧ p.seq.isSome = true then { x.2 with kind := .mma { p with seq := some (2 ^ 32) } } else x.2
          | _ => x.2) }
    (∀ c : CReg, s.mySup = true → s.regs.sreg a.val = 0 → Answers (.railtScript c a) s fun t => (armed s []).wroteC t m c.val true) ∧
    (∀ (c : CReg) (us : Nat → State) (bs : Nat → List Byte) (n : Nat), s.mySup = true → s.regs.sreg a.val ≠ 0 → us 0 = s → n < 16 →
      let word (k : Nat) : Nat := recField (bs k) 0 16
      let bits (k hi lo : Nat) : Nat := word k / 2 ^ lo % 2 ^ (hi + 1 - lo)
      (∀ k ≤ n, (us k).readRecord m (s.regs.sreg a.val + BitVec.ofNat 64 (16 * k)) 16 16 = .ok (us (k + 1), bs k)) →
      (∀ k < n, bits k 41 41 = 0) →
      let v := us (n + 1)
      let good : Prop := (∀ k ≤ n, bits k 47 42 = 0 ∧ bits k 55 54 = 0 ∧ bits k 63 62 = 0 ∧ bits k 127 69 = 0) ∧
        ∀ j k, j ≤ k → k ≤ n → bits j 31 0 ≤ bits k 31 0
      v.clean → v.it = s.it → v.mine = s.mine →
      s.cachesMoved { v with free := s.free } ∧
      (bits n 41 41 = 1 → good → Answers (.railtScript c a) s fun t =>
        (armed v ((List.range (n + 1)).map fun k =>
          { seq := bits k 31 0, tries := BitVec.ofNat 8 (bits k 39 32), vg := decide (bits k 40 40 = 1), row := bits k 53 48,
            col := bits k 61 56, bit := bits k 68 64 })).wroteC t m c.val true) ∧
      (¬good ∧ bits n 41 41 = 1 ∨ bits n 41 41 = 0 ∧ n = 15 → Answers (.railtScript c a) s fun t => v.wroteC t m c.val false)) ∧
    let z := (s.regs.sreg b.val).toNat;
    (let q := (s.keySlot (s.ownerSlot s.myFn s.mySlot)).tele;
      Answers (.tlmrOwn a b) s fun t => s.wroteS t a.val (BitVec.ofNat 64
        (([q.corr, q.reiss, q.escal, q.unlacc, q.sdet, q.audmm, q.tplow, q.tpvg, q.memue, q.poisc, q.throt, q.cows,
          q.cpyb][z]?).getD 0))) ∧
    (s.mySup = true → Answers (.tlmrDie a b) s fun t => ∃ v, ({ s with free := s.free + 1 } : State).wroteS t a.val v ∧
      match (s.partition s.myFn)[z / 256 % 32]? with
      | none => v = 0
      | some d =>
        if s.myFn = 0 ∨ s.dieOwner d = some s.myFn then
          (z % 256 < 12 → v = BitVec.ofNat 64 ((s.dieAt d).counters.getD (z % 256) 0)) ∧ (16 ≤ z % 256 → v = 0)
        else v = 0)

/-- AUDS (spec/18 R411). -/
def Obligations.AuditorRate : Prop :=
  ∀ (s : State) (m : Fibre) (a : SReg) (k : Nat), s.lone m → s.mySup = true → k = (s.regs.sreg a.val).toNat % 32 →
    let sets (r : Nat) : Prop := Answers (.auds a) s fun t =>
      (s.setFn s.myFn { s.fn s.myFn with audit := r }).wrote t [] ∧ t.engs = s.engs
    (k = 0 → sets 0) ∧ (1 ≤ k → k ≤ 3 → sets 4) ∧ (4 ≤ k → k ≤ 24 → sets k) ∧ (25 ≤ k → sets 24)

/-- Boot, recovery and resets (spec/01 R22 to R28; of R27 its steps 1 and 2 alone, and of R28 the lost contents and the slots reported, where no
engine operation is in flight). That a reset of the hub and a loss of supply keep no memory, and that the first BOOT with the supply gone only
begins the boot, which the next one ends, is the model's choice (log 40, both its sentences), like the class of the instances killed and the vector of the report (logs 60, 61). -/
def Obligations.BootAndResetEvents : Prop :=
  ∀ (s : State) (f : BootFindings) (d : Fin 32) (e : Fin 16) (b : Bool) (fn : Nat),
    let a := if s.flashed = true then 0 else f.imageA
    (s.phase = .off → Answers (.boot f) s fun t => t = { s with phase := .booting }) ∧
    (s.phase = .resuming ∨ (s.phase = .booting ∧ (a = 0 ∨ f.imageB = 0)) → Answers (.boot f) s fun t =>
      t.phase = .ready ∧ t.time = 0 ∧ t.master = true ∧ t.sync = true ∧ t.mem = s.mem ∧
      ∀ k < 32, (t.dieAt k).inrst = false ∧ (t.dieAt k).scratch = [] ∧ (t.dieAt k).scratchPoison = []) ∧
    (s.phase = .booting → a ≠ 0 → f.imageB ≠ 0 → Answers (.boot f) s fun t =>
      t = { s with phase := .recovery, rcv := { erra := a, errb := f.imageB } }) ∧
    (s.phase = .recovery → s.rcv.busy = false → 0 < s.rcv.len → s.rcv.len ≤ 16777216 → Answers (.recoveryGo b) s fun t =>
      t = { s with rcv := { s.rcv with store := b, busy := true } }) ∧
    (s.phase = .recovery → s.rcv.busy = true →
      (∀ n, n ≠ 0 → Answers (.recoveryVerifyEnd n b f) s fun t =>
        t = { s with rcv := { s.rcv with busy := false, errh := n } }) ∧
      (s.rcv.store = true → b = false → Answers (.recoveryVerifyEnd 0 b f) s fun t =>
        t = { s with rcv := { s.rcv with busy := false, errh := 6 } }) ∧
      (s.rcv.store = false ∨ b = true → Answers (.recoveryVerifyEnd 0 b f) s fun t => t.phase = .resuming ∧
        t.rcv = { s.rcv with busy := false, errh := 5, found := some f } ∧ t.flashed = (s.flashed || s.rcv.store))) ∧
    (∀ vfs : Option Nat,
      (s.phase = .booting ∨ s.phase = .resuming → Answers (.configurationRequest ⟨fn, vfs⟩) s fun t =>
        t = { s with hostLog := s.hostLog ++ [.config true] }) ∧
      (s.phase = .ready → Answers (.configurationRequest ⟨fn, vfs⟩) s fun t =>
        t = { s with hostLog := s.hostLog ++ [if fn = 0 ∨ fn ≤ min 64 s.numVfs then .config false else .unsupported fn],
                     numVfs := if fn = 0 then vfs.getD s.numVfs else s.numVfs }) ∧
      (s.phase = .recovery → Answers (.configurationRequest ⟨fn, vfs⟩) s fun t =>
        t = { s with hostLog := s.hostLog ++ [if fn = 0 then .config false else .unsupported fn] })) ∧
    (s.phase = .ready → (s.dieAt d.val).inrst = false → Answers (.computeDieReset d) s fun t =>
      (t.dieAt d.val).inrst = true ∧ (t.dieAt d.val).scratch = [] ∧ (t.dieAt d.val).counters = [] ∧
      (t.link d.val).up = false ∧ (∃ l, t.hostLog = l ++ [.report 1 d.val []]) ∧ (∃ l, t.msix = l ++ [(0, 0)]) ∧
      ∀ x ∈ s.teams, dieOf x.2.core = d.val → s.onCore x.1 = true → ∀ i ∈ t.insts, i.1 = x.2.inst → i.2.killed = true) ∧
    (s.phase = .ready → (s.memDies.getD e.val {}).inrst = false → Answers (.memoryDieReset e) s fun t =>
      (t.memDies.getD e.val {}).inrst = true ∧ (t.link (32 + e.val)).up = false ∧
      ∃ l slots, t.hostLog = l ++ [.report 2 e.val slots] ∧
        (s.engs = [] →
          let lost (u : Nat) : Prop := ∃ fr, (fr, Place.stack e) ∈ s.placed ∧ s.dom (65536 * fr) / 65536 = u / 2048
          (∀ fr off, (fr, Place.stack e) ∈ s.placed → fr < 1073741824 → off < 65536 →
            t.poisoned (s.dom (65536 * fr + off)) = true) ∧
          ∀ g, g ∈ slots ↔ ∃ x ∈ s.units, lost x.1 ∧ s.unitSlot x.1 = some g)) ∧
    ((s.dieAt d.val).inrst = true → Answers (.dieResetEnd (.compute d) f) s fun t =>
      (t.dieAt d.val).inrst = false ∧ (t.dieAt d.val).scratch = [] ∧ (t.link d.val).up = true ∧
      ((passingCores f d.val (fusedMap d.val)).length < 32 → t.hostLog = s.hostLog ++ [.report 6 d.val []])) ∧
    ((s.memDies.getD e.val {}).inrst = true → Answers (.dieResetEnd (.memory e) f) s fun t =>
      (t.memDies.getD e.val {}).inrst = false ∧ (t.link (32 + e.val)).up = true) ∧
    Answers (.dieResetEnd .hub f) s (fun t => exec (.boot f) s = .next t) ∧
    (s.phase ≠ .off → Answers .hubDieReset s fun t => t.phase = .booting ∧ t.flashed = s.flashed ∧ t.hostMem = s.hostMem ∧
      t.mem = [] ∧ t.keys = [] ∧ t.fns = [] ∧ t.teams = [] ∧ t.groups = [] ∧ t.dies = [] ∧ t.cores = []) ∧
    Answers .supplyOff s (fun t => t.phase = .off ∧ t.flashed = s.flashed ∧ t.hostMem = s.hostMem ∧
      t.mem = [] ∧ t.keys = [] ∧ t.fns = [] ∧ t.teams = [] ∧ t.groups = [] ∧ t.dies = [] ∧ t.cores = []) ∧
    Answers (.thermalShutdownReset .hub) s (fun t => exec .hubDieReset s = .next t) ∧
    Answers (.thermalShutdownReset (.compute d)) s (fun t => exec (.computeDieReset d) s = .next t) ∧
    Answers (.thermalShutdownReset (.memory e)) s (fun t => exec (.memoryDieReset e) s = .next t)

/-- Power, temperature, rails, heartbeats and uncorrectable errors (spec/01 R18, R20, R21; spec/07 R158, R160; spec/09 R211). That pacing
counts one throttle step (log 41), that power and thermal steps add up (log 73) and what an error of a sector poisons (log 48) are the
model's choices. -/
def Obligations.PowerAndHealthEvents : Prop :=
  ∀ (s : State) (d : Fin 32) (c : CoreId) (n pa tm off : Nat),
    let x := s.dieAt d.val
    let k := 36 * c.die.val + c.core.val
    (x.pacing = false → Answers (.currentPacing d true) s fun t =>
      t.dieAt d.val = { x with pacing := true } ∧ (∀ j, j ≠ d.val → t.dieAt j = s.dieAt j) ∧
      ∀ g, (t.keySlot g).tele.throt =
        if (s.teams.any fun e => dieOf e.2.core == d.val && s.onCore e.1 &&
            s.ownerSlot (s.inst e.2.inst).fn (s.inst e.2.inst).slot == g) = true then
          min ((s.keySlot g).tele.throt + 1) 18446744073709551615
        else (s.keySlot g).tele.throt) ∧
    Answers (.currentPacing d false) s (fun t => t = s.setDie d.val { x with pacing := false }) ∧
    (s.powerSteps < 12 → Answers .powerClockStep s fun t => t.powerSteps = s.powerSteps + 1 ∧
      ∀ j < 32, (t.dieAt j).clock = 1800 - 50 * min 12 (s.powerSteps + 1 + (s.dieAt j).thermalSteps)) ∧
    Answers .powerClockRestore s (fun t => t.powerSteps = s.powerSteps - 1 ∧
      ∀ j < 32, (t.dieAt j).clock = 1800 - 50 * min 12 (s.powerSteps - 1 + (s.dieAt j).thermalSteps)) ∧
    (x.thermalSteps < 12 → Answers (.thermalClockStep d) s fun t => t.dieAt d.val =
      { x with thermal := true, thermalSteps := x.thermalSteps + 1,
               clock := 1800 - 50 * min 12 (s.powerSteps + (x.thermalSteps + 1)) }) ∧
    Answers (.thermalClockRestore d) s (fun t => t.dieAt d.val =
      { x with thermal := decide (1 < x.thermalSteps), thermalSteps := x.thermalSteps - 1,
               clock := 1800 - 50 * min 12 (s.powerSteps + (x.thermalSteps - 1)) }) ∧
    (∀ y, s.cores.get? k = some y →
      (y.vcur < y.vcmd → Answers (.railSlewStep c) s fun t => t = s.setCore k { y with vcur := y.vcur + 1 }) ∧
      (y.vcmd < y.vcur → Answers (.railSlewStep c) s fun t => t = s.setCore k { y with vcur := y.vcur - 1 })) ∧
    (n < 4 → Answers (.heartbeatMiss c n) s fun t => t = s.setCore k { s.coreAt k with missed := n }) ∧
    (4 ≤ n → Answers (.heartbeatMiss c n) s fun t => (t.coreAt k).degraded = true ∧
      ∀ y ∈ s.teams, y.2.core = k → s.onCore y.1 = true → ∀ i ∈ t.insts, i.1 = y.2.inst → i.2.killed = true) ∧
    (pa < s.frameEnd →
      Answers (.eccUncorrectable (.unit pa)) s (fun t => t.poison.contains (s.dom pa / 32) = true ∧ t.mem = s.mem) ∧
      Answers (.eccUncorrectable (.sector pa)) s (fun t => t.mem = s.mem ∧
        (∀ pre y post, s.sectors = pre ++ y :: post → (∀ z ∈ pre, z.held.contains (s.dom pa / 32) = false) →
          y.held.contains (s.dom pa / 32) = true → ∀ u ∈ y.held, t.poison.contains u = true) ∧
        ((∀ z ∈ s.sectors, z.held.contains (s.dom pa / 32) = false) → ∀ u, u / 32 = s.dom pa / 1024 → t.poison.contains u = true)) ∧
      Answers (.eccUncorrectable (.line pa)) s (fun t => t.mem = s.mem ∧
        ∀ u, u / 4 = s.dom pa / 128 → t.poison.contains u = true)) ∧
    (off < (s.team tm).scrBytes → Answers (.eccUncorrectable (.scratch tm off)) s fun t =>
      (t.team tm).scratchPoison.contains (off / 32) = true ∧ (t.team tm).scratch = (s.team tm).scratch ∧ t.mem = s.mem) ∧
    ∀ p, s.placed.get? (pa / 65536) = some (.cxl p) → Answers (.cxlPoisonResponse pa) s fun t =>
      t.poison.contains (s.dom pa / 32) = true ∧ t.mem = s.mem

/-- The commands of queue slots (spec/03 R54 to R57, R61, R62). The identity of a new key and what stands in memory after KEYDEL (log 14), that
QHEAD passes LAUNCH, COPY and SIGNAL as they start (log 28) and WAITGE as it starts to watch (log 45), and which flush a SIGNAL needs
(log 25) are the model's choices. -/
def Obligations.QueueCommandResults : Prop :=
  ∀ (s u : State) (g : Nat) (c : Command),
    let fn := u.slotFn g
    let q := { u.slot g with qhead := (u.slot g).next }
    let k := (u.fn fn).kbase + c.a0
    let last := ((u.fn fn).posted.filter fun p =>
      p.slot == g || (u.known (.slot g)).contains p.at_ || (u.known (.done g)).contains p.at_).getLast?
    (s.heads u g 1 c → ∀ v b, u.readTcb fn g c.a0 = (v, some b) → v.tableFull fn = false →
      (∀ e ∈ v.insts, ¬(e.2.fn = fn ∧ e.2.blk = c.a0)) → (∀ x ∈ v.credits, ¬(x.fn = fn ∧ x.blk = c.a0)) → b.bad = false →
      Answers (.launchCommand g) s fun t => ∃ n x, t.insts.get? n = some x ∧ x.blk = c.a0 ∧ x.tcb = b ∧ x.fn = fn ∧
        x.slot = g ∧ x.sup = b.sup ∧ x.prio = min (u.slot g).prio b.prio ∧ x.count = b.predc ∧
        x.state = (if b.predc = 0 then .ready else .pending) ∧ t.slot g = { q with busy := q.busy ++ [.launch n c.irq] }) ∧
    (s.heads u g 2 c → c.a2 ≠ 0 → Answers (.copy g) s fun t =>
      t.slot g = { q with busy := q.busy ++ [.copy u.nextId c.irq (u.slot g).qhead] } ∧ t.nextId = u.nextId + 1 ∧ t.mem = u.mem ∧
      t.engs = u.engs.put u.nextId
        { kind := .copy { handle := 0, ssp := .virt, src := busAddr c.a0, srcHost := atHost c.a0, dsp := .virt,
                          dst := busAddr c.a1, dstHost := atHost c.a1, len := c.a2 },
          core := 1152, team := 0, slot := g, fn := fn }) ∧
    (s.heads u g 3 c → atHost c.a0 = false → last = none → ∀ v,
      u.cpWrite fn g c.a0 (leBytes 8 c.a1) = (v, true) → Answers (.signal g) s fun t => v.retired t g c.irq ∧ t.mem = v.mem) ∧
    (s.heads u g 3 c → atHost c.a0 = true ∨ last ≠ none → Answers (.signal g) s fun t =>
      t.slot g = { q with busy := q.busy ++ [.signal u.nextId c.irq (u.slot g).qhead] } ∧ t.nextId = u.nextId + 1 ∧ t.mem = u.mem ∧
      t.flushes = u.flushes.put u.nextId
        { fn := fn, group := none, slot := some g, upTo := last.elim 0 (·.at_), index := (u.slot g).qhead, irq := c.irq,
          host := atHost c.a0, addr := busAddr c.a0,
          read := if atHost c.a0 = true then busAddr c.a0 else last.elim 0 (·.addr), value := BitVec.ofNat 64 c.a1 }) ∧
    (s.heads u g 4 c → ∀ v bs, (u.setSlot g q).cpRead fn g c.a0 8 = (v, some bs) →
      (c.a1 % 2 ^ 64 ≤ leNat bs → Answers (.waitge g) s fun t => t.slot g = { v.slot g with waitge := none } ∧
        t.msix = v.msix ++ (if c.irq = true then [(v.slotFn g, (v.slot g).vec)] else [])) ∧
      (leNat bs < c.a1 % 2 ^ 64 → Answers (.waitge g) s fun t => t.msix = v.msix ∧
        t.slot g = { v.slot g with waitge := some (c.a0, BitVec.ofNat 64 c.a1), waitgeIrq := c.irq })) ∧
    (∀ a w, (s.slot g).waitge = some (a, w) → (s.fn (s.slotFn g)).reset = false → (s.slotOwner g).isSome = true →
      s.stalled = false → ∀ v bs,
      s.cpRead (s.slotFn g) g a 8 = (v, some bs) →
      (w.toNat ≤ leNat bs → Answers (.waitgePoll g) s fun t => t.slot g = { v.slot g with waitge := none }) ∧
      (leNat bs < w.toNat → Answers (.waitgePoll g) s fun t =>
        t.slot g = { v.slot g with waitge := some (a, w), waitgeIrq := (s.slot g).waitgeIrq })) ∧
    (s.heads u g 5 c → c.a0 < (u.fn fn).kcount → (u.keySlot k).state = .empty → Answers (.keygen g) s fun t =>
      u.retired t g c.irq ∧ t.mem = u.mem ∧ t.keySlot k = { state := .live, key := 2 * u.nextId + 1, tele := {} } ∧
      t.nextId = u.nextId + 1 ∧ ∀ j, j ≠ k → t.keySlot j = u.keySlot j) ∧
    (s.heads u g 6 c → c.a0 < (u.fn fn).kcount → (u.keySlot k).state = .empty → (u.fn fn).spdm.live = true →
      (atHost c.a1 = true → ∀ key, Answers (.keyimp g (some key)) s fun t => u.retired t g c.irq ∧ t.mem = u.mem ∧
        t.keySlot k = { state := .live, key := 2 * key + 2, tele := {} } ∧ ∀ j, j ≠ k → t.keySlot j = u.keySlot j) ∧
      (atHost c.a1 = true → Answers (.keyimp g none) s fun t => (t.slot g).err = 7 ∧ t.keys = u.keys) ∧
      (atHost c.a1 = false → ∀ key, Answers (.keyimp g (some key)) s fun t =>
        t.keySlot k = { state := .live, key := 2 * key + 2, tele := {} } ∨ (t.slot g).err = 6)) ∧
    (s.heads u g 7 c → c.a0 < (u.fn fn).kcount → (u.keySlot k).state = .live →
      (∀ e ∈ u.services, u.cowUnder k e.2 = false) → Answers (.keydel g) s fun t =>
      u.retired t g c.irq ∧ (t.keySlot k).state = .empty ∧ (∀ j, j ≠ k → t.keySlot j = u.keySlot j) ∧
      (∀ x ∈ t.dir, x.2.slot ≠ k) ∧ (∀ core, ∀ x ∈ (t.coreAt core).l1, x.2.slot ≠ k) ∧ t.units = u.units ∧
      (∀ a, (∀ x ∈ u.dir, x.2.dirty = true → x.1 ≠ a / 128) → (∀ x ∈ u.sectors, a / 32 ∉ x.dirty) → t.mem.get? a = u.mem.get? a) ∧
      ∀ n y, u.tapes.get? n = some y → y.owner = some k →
        t.tapes.get? n = some { y with recs := [], owner := none, lost := false }) ∧
    (s.heads u g 8 c → Answers (.tlbinv g) s fun t => u.retired t g c.irq ∧ t.mem = u.mem ∧ t.keys = u.keys ∧
      ∀ core, ∀ x ∈ t.tlb.getD core [], x.slot = g → c.a1 ≠ 0 ∧
        (min (c.a0 + c.a1) 144115188075855872 ≤ x.page * x.size ∨ (x.page + 1) * x.size ≤ c.a0))

/-- The events of grids, teams and functions (spec/04 R72 to R86; spec/05 R103 to R108; spec/03 R60, R67). How METER_TICK and the window's
timeout move time (logs 4, 11), which frames an image takes (log 16), what a function reset leaves (log 43), that a timer whose EXPN stands above ESC strikes at its next
expiry (log 13), and that a window's instance is of the slot that opened the window (log 75) are the model's choices. -/
def Obligations.GridEventResults : Prop :=
  ∀ (s : State) (n fn blk : Nat) (shared : Bool),
    (∀ ids u, s.mayDeal fn shared = true → s.queueHead fn = some ids → s.barred fn ids = none → s.firstFit fn shared = some (.head ids, u) →
      shared = false ∨ s.ownedTakes fn = false → u.stalled = false →
      Answers (.instanceAdmission fn shared) s fun t => t = u ∧
        ∀ id ∈ ids, (t.inst id).state = .running ∧ (t.inst id).shared = some shared) ∧
    (∀ ids, s.phase = .ready → (s.fn fn).reset = false → s.queueHead fn = some ids →
      (s.dieSet fn false = [] ∧ s.dieSet fn true = []) ∨ (((s.fn fn).lock && (s.fn fn).feata.getLsbD 5) = false ∧
        ∃ id ∈ ids, (s.inst id).tcb.tpsh = true) → s.atRest → s.stalled = false → (∀ id ∈ ids, id < s.nextId) →
      Answers (.instanceAdmission fn shared) s fun t => ∀ id ∈ ids, t.insts.get? id = none) ∧
    (∀ id u, s.mayDeal fn shared = true → s.firstFit fn shared = some (.later id, u) →
      Answers (.teamDeal fn shared) s fun t => t = u ∧
        s.dealUnit { id := id, fn := fn, shared := shared } (s.inst id).dealt = some t) ∧
    (let x := s.team n
      let i := s.inst x.inst
      ∀ k u, x.stopped = true → x.ended = false → s.mayDeal i.fn x.shared = true →
        (∀ j ∈ s.resumesWith n, s.imageLost j = false) → s.firstFit i.fn x.shared = some (.resumed k, u) →
        s.isParty n (.resumed k) = true → Answers (.teamResume n) s fun t => t = u ∧
          s.placeParty i.fn x.shared (.resumed k) = some t) ∧
    (s.instOver n = true → n < s.nextId → s.atRest → s.stalled = false → Answers (.instanceRetire n) s fun t => t.insts.get? n = none) ∧
    (∀ pre w post b v, s.windows = pre ++ w :: post → (∀ y ∈ pre, y ≠ w ∧ ¬(y.fn = fn ∧ y.blk = blk ∧ y.closed = false)) →
      s.atRest → s.stalled = false → w.fn = fn → w.blk = blk → w.closed = false → w.children ≠ [] → w.tcb = some b →
      let u : State := { s with time := max s.time (w.opened + 2000), windows := pre ++ post }
      s.dueNodes u.time = [] → s.dueRounds u.time = [] → s.tableFull fn = false → b.bad = false → b.aggt % 1024 = 0 →
      (b.sup = true → w.sup = true) → u.writeTable fn w.slot b.aggt w.children 0 = (v, true) →
      (∀ c ∈ v.credits, ¬(c.fn = fn ∧ c.blk = blk)) →
      Answers (.aggWindowTimeout fn blk) s fun t => t.windows = pre ++ post ∧ ∃ k x, t.insts.get? k = some x ∧
        x.blk = blk ∧ x.tcb = b ∧ x.fn = fn ∧ x.slot = w.slot ∧ x.children = w.children ∧ x.state = .ready) ∧
    (let bs := (s.freeFull n).imageOf n
      let fn := (s.inst (s.team n).inst).fn
      ∀ fs u, s.mayStop n = true → s.takeFrames fn ((bs.length + 65535) / 65536) = some (fs, u) →
        Answers (.teamStop n) s fun t => (t.team n).stopped = true ∧ (t.team n).stopReq = false ∧ (t.team n).frames = fs ∧
          (t.fn fn).memqUsed = (s.fn fn).memqUsed + fs.length ∧
          (s.poison = [] → s.lost = [] → fs.Nodup → ∀ (k f j : Nat), fs[k]? = some f → j < 65536 → 65536 * k + j < bs.length →
            t.mem.get? (s.dom (65536 * f) + j) = bs[65536 * k + j]?)) ∧
    (s.mayStop n = true → s.takeFrames (s.inst (s.team n).inst).fn ((((s.freeFull n).imageOf n).length + 65535) / 65536) = none →
      Answers (.teamStop n) s fun t => (t.team n).ended = true ∧ ∀ i ∈ t.insts, i.1 = (s.team n).inst → i.2.killed = true) ∧
    ((s.team n).stopReq = true → (s.team n).stopped = false → (s.team n).ended = false →
      (s.fn (s.inst (s.team n).inst).fn).reset = false → Answers (.stopTimeout n) s fun t => (t.team n).ended = true ∧
        ∀ i ∈ t.insts, i.1 = (s.team n).inst → i.2.killed = true) ∧
    (∀ f, s.starved n = some f →
      let g := s.group n
      ((s.team g.team).stopped = true → Answers (.watchdogExpiry n) s fun t => t.group n =
        { g with due := g.due ++ [.timeout], cnt := 2 ^ max 20 (min 40 g.texp) }) ∧
      ((s.team g.team).stopped = false → g.expn + 1 < max 1 g.esc → f.trap = none → f.mask ≠ 0 → tvecAddr g.tvec ≠ 0 → (g.fibres.map (·.id)).Nodup →
        (∀ x ∈ g.fibres, x.id < g.nextFibre) → Answers (.watchdogExpiry n) s fun t => ∃ y ∈ (t.group n).fibres, ∃ x,
          y.trap = some x ∧ x.cause = 13 ∧ x.tsyn = BitVec.ofNat 64 (g.expn + 1) ∧ y.mask = f.mask ∧
          y.at_ = { pc := tvecAddr g.tvec }) ∧
      ((s.team g.team).stopped = false → max 1 g.esc ≤ g.expn + 1 → (s.teams.get? g.team).isSome = true →
        (s.inst (s.team g.team).inst).strikes = 0 → Answers (.watchdogExpiry n) s fun t => (t.group n).expn = 0 ∧
          (t.inst (s.team g.team).inst).strikes = 1 ∧ (t.team g.team).stopReq = true)) ∧
    (∀ f, (s.turnsAfter s.turnFn).find? s.sharedWork = some f → Answers .sharedTurnEnd s fun t => t.turnFn = f ∧
      ∀ k x, s.teams.get? k = some x → x.shared = true → x.ended = false → x.stopped = false →
        (s.inst x.inst).fn = s.turnFn → (t.team k).stopReq = true) ∧
    (s.phase = .ready → Answers .meterTick s fun t => t.time = (s.time / 1000 + 1) * 1000 ∧
      (s.engs = [] → s.dueNodes ((s.time / 1000 + 1) * 1000) = [] → s.dueRounds ((s.time / 1000 + 1) * 1000) = [] →
        ∀ k, 0 < k → k < 65 → (s.fn k).tbEn = true →
        let f := s.fn k
        let rp := min f.tbRate f.debt
        (t.fn k).debt = f.debt - rp ∧
          (t.fn k).tokens = min (if f.tbCap = 0 then 4096 else f.tbCap * 1024) (f.tokens + (f.tbRate - rp)))) ∧
    (s.phase = .ready → s.presented fn = true → (s.fn fn).flr = false → s.stalled = false →
      ((s.fn fn).reset = false → fn ≠ 0 → Answers (.functionReset fn) s fun t => (t.fn fn).reset = true ∧
        ∀ k x, s.teams.get? k = some x → x.ended = false → x.stopped = false → (s.inst x.inst).fn = fn →
          (t.team k).stopReq = true) ∧
      ((s.fn fn).reset = false → fn = 0 → Answers (.functionReset fn) s fun t => (t.fn 0).flr = true ∧
        ∀ v ∈ s.enabledVfs, (t.fn v).reset = true) ∧
      ((s.fn fn).reset = true → s.quiet fn = true → s.atRest → s.inForce fn = true → Answers (.functionReset fn) s fun t => (t.fn fn).reset = false ∧
        (t.fn fn).feata = 0 ∧ (t.fn fn).lock = false ∧
        ∀ k, (s.fn fn).kbase ≤ k → k < (s.fn fn).kbase + (s.fn fn).kcount → (t.keySlot k).state ≠ .live)) ∧
    ∀ k x, s.teams.get? k = some x → x.inst = n → x.ended = false → x.stopped = false → (s.inst n).fn = fn →
      (s.fn fn).reset = true → Answers (.functionResetTimeout fn n) s fun t => (t.team k).ended = true ∧
        ∀ i ∈ t.insts, i.1 = n → i.2.killed = true

/-- The events of engines, walks and services (spec/17 R366 to R391; spec/09 R199, R207; spec/07 R147 to R154; spec/03 R63). PAGE_WALK (log 58),
one event for each row of NMV (log 29), free bytes where a row cannot be read (log 27), the frame that a copy-on-write takes (log 16), that of
an entry which the driver writes meanwhile the driver's value remains (log 97) and what an audit compares (log 71) are the model's choices. -/
def Obligations.EngineEventResults : Prop :=
  ∀ (s : State) (op fr va : Nat) (dest : Place) (kind : AccKind),
    (∀ e, s.engs.get? op = some e →
      (∀ c bs ds v, e.kind = .copy c → c.stop = false → s.atBoundary e c.handle (c.dst + c.done) = false → s.engWaits op e = false → c.service = none → s.heldBack op e = false →
        s.copyLost c = false → (s.liveMembers c).length = c.members.length → s.copyBytes e c c.chunk c.done = .ok bs →
        s.copyDests e c c.done = .ok ds → s.meter e.fn (bs.length * ds.length) = some v →
        Answers (.copyChunk op) s fun t =>
          (c.done + bs.length < c.len → ∃ e' c', t.engs.get? op = some e' ∧ e'.kind = .copy c' ∧ c'.done = c.done + bs.length) ∧
          (c.len ≤ c.done + bs.length → t.engs.get? op = none) ∧
          (e.team ≠ 0 → (t.handle e.team c.handle).fill = c.fillBase + (c.done + bs.length)) ∧
          (c.dstHost = true → c.srcHost = false → c.flip = none →
            t.hostMem = writeZ s.hostMem (c.dst + c.done) (bs.map (·.1))) ∧
          ∀ pre l post, ds = pre ++ some l :: post → some l ∉ post → s.isHere l = true → s.locPoisoned l bs.length = false →
            (∀ b ∈ bs, b.2 = false) → (∀ p, s.overlapped e c p (some l) = false) →
            let flips (k : Nat) : Prop := pre = [] ∧ c.flip = some k ∧ s.flipReaches c = true ∧
              c.done ≤ (s.coreAt k).cflip.offset ∧ (s.coreAt k).cflip.offset < c.done + bs.length;
            ((∀ k, ¬flips k) → t.readLoc l bs.length = bs.map (·.1)) ∧
            ∀ k, flips k → t.readLoc l bs.length = (bs.map (·.1)).modify ((s.coreAt k).cflip.offset - c.done)
              fun b => b ^^^ BitVec.ofNat 8 (2 ^ (s.coreAt k).cflip.bit)) ∧
      (∀ c, e.kind = .copy c → e.team ≠ 0 → (s.handle e.team c.handle).state = .draining → (c.dst + c.done) % 4096 = 0 →
        Answers (.copyChunk op) s fun t => t.engs.get? op = none ∧ (t.handle e.team c.handle).state = .free) ∧
      (∀ o, e.kind = .nmv o → o.stop = false → (s.handle e.team o.handle).state = .filling → s.engWaits op e = false → o.service = none →
        s.tagged e.team o.gen = true → o.row < nmvRows o.desc → (∀ a ∈ o.addrs o.row, ∃ dom key, walk s e.fn e.slot a .read = .ok dom key ∧
          ∀ x ∈ s.cachedLeaves e.core e.slot a, leafWalk s e.fn a .read x.entry x.leaf = .ok dom key) →
        let a := o.y + 4 * o.row
        let n := nmvLen o.fmt o.desc
        let groups := (n + 32 * 2 ^ dQg o.desc - 1) / (32 * 2 ^ dQg o.desc)
        let scaled : Prop := o.fmt = .q8 ∨ o.fmt = .q4
        let w := s.engBytes e .virt (dBase o.desc + o.row * dPitch o.desc) o.rowBytes
        let x := s.engBytes e .sp o.x (2 * n)
        let sc := s.engBytes e .virt (dSplane o.desc + 4 * (o.row * groups)) (if scaled then 4 * groups else 0)
        let y := if o.acc then s.engBytes e .sp a 4 else ([], none)
        let byte (k : Nat) : Nat := (w.1.getD k 0).toNat
        let quant (j code : Nat) : FVal :=
          let ent := leNat ((sc.1.drop (4 * (j / (32 * 2 ^ dQg o.desc)))).take 4)
          (mulVal (fmtF16.val (ent % 2 ^ 16)) (intVal ((code : Int) - (ent / 2 ^ 16 % 2 ^ 8 : Nat)))).1
        let elem (j : Nat) : FVal := match o.fmt with
          | .bf16 => fmtBf16.val (byte (2 * j) + 256 * byte (2 * j + 1))
          | .e4m3 => fmtE4m3.val (byte j)
          | .q8 => quant j (byte j)
          | .q4 => quant j (byte (j / 2) / 16 ^ (j % 2) % 16)
        let ts := (List.range n).map (fun j => (mulVal (elem j) (fmtBf16.val (leNat ((x.1.drop (2 * j)).take 2)))).1) ++
          if o.acc then [fmtF32.val (leNat y.1)] else []
        Answers (.nmvCompletion op) s fun t => (t.handle e.team o.handle).fill = 4 * (o.row + 1) ∧ t.mem = s.mem ∧
          ((a + 4 ≤ o.x ∨ o.x + 2 * n ≤ a) → s.locPoisoned (.scratch e.team a) 4 = false →
            t.readLoc (.scratch e.team a) 4 = leBytes 4 (elementOver ts)) ∧
          (t.handle e.team o.handle).fault =
            ((s.handle e.team o.handle).fault || w.2.isSome || x.2.isSome || sc.2.isSome || y.2.isSome) ∧
          (o.row + 1 < nmvRows o.desc → (t.handle e.team o.handle).state = .filling ∧
            ∃ e' o', t.engs.get? op = some e' ∧ e'.kind = .nmv o' ∧ o'.row = o.row + 1) ∧
          (o.row + 1 = nmvRows o.desc → t.engs.get? op = none ∧ (t.handle e.team o.handle).state = .full)) ∧
      (∀ m errs o, e.kind = .mma m → m.audited = false → s.engWaits op e = false → s.behindHead op e = false → s.mmaBarred e m = none → s.mmaOperands e m = (o, none) →
        (m.mode = .exact ∨ m.escalating = true → (s.coreAt e.core).vcur = (s.coreAt e.core).vg) →
        let n := m.seq.getD (s.coreAt e.core).scriptSeq
        let w := o.inject ((s.coreAt e.core).script.filter fun x => x.selects m n) (o.realWrongs errs)
        (o.check w).outcome = .clean → Answers (.tileProductAttemptEnd op errs false) s fun t => t.engs.get? op = none ∧
          t.tile e.team m.tile = (o.accumulate w (s.tile e.team m.tile)).1 ∧
          (t.team e.team).checks.get? m.tile = some (checkRecord m false false (s.coreAt e.core).vcur) ∧ t.mem = s.mem) ∧
      (∀ m errs b o, e.kind = .mma m → m.audited = false → s.engWaits op e = false → s.behindHead op e = false →
        s.mmaBarred e m = none → s.mmaOperands e m = (o, none) → m.mode = .exact ∨ m.escalating = true →
        (s.coreAt e.core).vcur ≠ (s.coreAt e.core).vg →
        Answers (.tileProductAttemptEnd op errs b) s fun t => (t.coreAt e.core).vcmd = (s.coreAt e.core).vg ∧ t.teams = s.teams ∧
          t.groups = s.groups ∧ (∃ e' m', t.engs.get? op = some e' ∧ e'.kind = .mma m' ∧ m'.head = true) ∧
          ∀ k f m', k ≠ op → t.engs.get? k = some f → f.kind = .mma m' → f.core = e.core →
            Answers (.tileProductAttemptEnd k errs b) t fun u => u = t) ∧
      (∀ m errs, e.kind = .mma m → m.audited = true → s.mmaBarred e m = none →
        let o := (s.mmaOperands e m).1
        let rows := (List.range 64).filter fun i => o.rows.getLsbD i
        let cols := (List.range 64).filter fun j => o.cols.getLsbD j
        let ps := rows.flatMap fun i => cols.map fun j => o.p (o.realWrongs errs) i j
        (m.ps = ps → Answers (.auditEnd op errs) s fun t => t.engs.get? op = none ∧ t.groups = s.groups ∧ t.teams = s.teams) ∧
        ∀ (n : Nat) (g : Group) (a b : FVal), m.ps[n]? = some a → ps[n]? = some b → a.equals b = false → s.groups.get? e.group = some g →
          g.ended = false → (s.team e.team).ended = false → Answers (.auditEnd op errs) s fun t => t.engs.get? op = none ∧
            ∃ k, (t.group e.group).due = g.due ++ [.audit k] ∧ k.tsyn = BitVec.ofNat 64 (m.addr.toNat % 2 ^ 57) ∧
              k.tunit = BitVec.ofNat 64 (Config.unitId e.core % 2 ^ 32 + 2 ^ 32 * (Config.unitId m.replay % 2 ^ 32))) ∧
      (∀ a, e.kind = .move a → s.engWaits op e = false → Answers (.accumulatorMoveCompletion op) s fun t =>
        t.engs.get? op = none ∧
        match a with
        | .zero k => t.tile e.team k = [] ∧ t.mem = s.mem
        | .load k space off => (s.engBytes e space off 16384).2 = none →
            t.tile e.team k = imageTile (s.engBytes e space off 16384).1 ∧ t.mem = s.mem
        | .store k space off kept => t.mem = (s.engWrite e space 16385 off (tileBytes (kept.getD (s.tile e.team k)))).mem
        | .read k base q => (s.group e.group).ended = false →
            t.group e.group = (s.group e.group).writes (fragmentWrites (s.tile e.team k) base q (allLanes &&& ~~~e.without))
        | .write k q image => t.mem = s.mem ∧ ∀ j < 4096, (t.tile e.team k).getD j 0 =
            if 1024 * q ≤ j ∧ j < 1024 * q + 1024 then image.getD j 0 else (s.tile e.team k).getD j 0) ∧
      (∀ (c : CoreId) (rest : List Nat), (s.coreAt (36 * c.die.val + c.core.val)).refused = op :: rest →
        (s.coreAt (36 * c.die.val + c.core.val)).queue.length < 32 → Answers (.engineQueueResend c) s fun t =>
          t.engs = s.engs.put op { e with started := true } ∧
          (t.coreAt (36 * c.die.val + c.core.val)).queue = (s.coreAt (36 * c.die.val + c.core.val)).queue ++ [op] ∧
          (t.coreAt (36 * c.die.val + c.core.val)).refused = rest)) ∧
    (s.phase = .ready →
      (∀ x a, walk s (s.slotFn op) op va kind = .place x a → (∀ y ∈ s.services, ∀ f b, y.2 ≠ .place x f b) →
        Answers (.pageWalk op va kind) s fun t => ∃ u, s.cachesMoved u ∧
          t = { u with services := s.services.put s.nextId (.place x (s.slotFn op) a), nextId := s.nextId + 1 }) ∧
      (∀ x y, walk s (s.slotFn op) op va kind = .ok x y → Answers (.pageWalk op va kind) s fun t => s.cachesMoved t)) ∧
    (∀ p, s.placed.get? fr = some p → s.placeDown fr p = false →
      (p ≠ dest → s.frameWaits fr = false → s.placeDown fr dest = false → s.hasRoom dest = true → s.mayMove fr dest = true →
        s.placing fr = [] → Answers (.frameMoveStart fr dest) s fun t => t = { s with moving := s.moving.put fr dest }) ∧
      ∀ q, s.moving.get? fr = some q → s.placeDown fr q = false → s.hasRoom q = true → s.mayMove fr q = true → Answers (.frameMoveCompletion fr dest) s fun t =>
        t.placed = s.placed.put fr q ∧ t.moving = s.moving.erase fr ∧ t.mem = s.mem ∧ t.groups = s.groups ∧
          ∀ k it, (t.quarter k).issue = some it → it.held = false) ∧
    ((∀ p, s.placed.get? fr = some p → s.placeDown fr p = false) → s.moving.get? fr = none →
      (∀ x ∈ s.placing fr, s.restWaits fr x.2.1 x.2.2 dest = false) →
      Answers (.frameMoveCompletion fr dest) s fun t => ∀ x ∈ s.placing fr, t.services.get? x.1 = none) ∧
    (∀ id slot fn entry frame at_ key, s.services.get? id = some (.cow slot fn entry frame at_ key) →
      s.cowWaits fn entry frame = false → s.stalled = false →
      (s.cowStands entry frame = false → (∀ x ∈ s.engs, ∀ p, x.2.pausedOn = some p → p.1 ≠ id) →
        Answers (.cowServiceCompletion id) s fun t => t = { s with services := s.services.erase id }) ∧
      (s.cowStands entry frame = false → ∀ op e, s.engs.get? op = some e → ∀ h b,
        (∃ c, e.kind = .copy c ∧ c.service = some id ∧ c.handle = h ∧ c.faultBase = b) ∨
          (∃ o, e.kind = .nmv o ∧ o.service = some id ∧ o.handle = h ∧ o.faultBase = b) →
        (∀ x ∈ s.engs, x.2.team = e.team → ∀ b', x.2.pausedOn = some (id, h, b') → b' = b) →
        Answers (.cowServiceCompletion id) s fun t => (e.team ≠ 0 → (t.handle e.team h).fault = b) ∧
          ∃ e', t.engs.get? op = some e' ∧ (∀ c, e.kind = .copy c → e' = { e with kind := .copy { c with service := none } }) ∧
            ∀ o, e.kind = .nmv o → e' = { e with kind := .nmv { o with service := none } }) ∧
      (let n := frame % 70368744177664 / 65536
      let e := s.entryAt entry
      let r : State := if s.unrested fn e frame = false then s else match s.restPlace n fn e (.stack 0) with
        | some p => { s with placed := s.placed.put n p, advice := s.advice.put n (fn, e) }
        | none => s
      s.cowStands entry frame = true → s.cowReaches frame = true → s.quotaLeft fn 1 = true → r.unrested fn e frame = false →
      ∀ f u, r.takeFrame = some (f, u) → Answers (.cowServiceCompletion id) s fun t => t.services.get? id = none ∧ t.placed = u.placed ∧
        (t.fn fn).memqUsed = (s.fn fn).memqUsed + 1 ∧ (t.keySlot (s.ownerSlot fn slot)).tele.cows =
          min ((s.keySlot (s.ownerSlot fn slot)).tele.cows + 1) 18446744073709551615 ∧
        let base := s.dom (65536 * f)
        (s.isOwn base = true → entry % 8 = 0 → entry / 65536 ≠ f →
          t.readFrame (s.ownerSlot fn slot) base 65536 = s.readFrame key frame 65536 ∧
          ∀ i < 2048, t.poisoned (base + 32 * i) = s.poisoned (frame + 32 * i)) ∧
        (entry % 8 = 0 → entry / 65536 ≠ f → f < 2 ^ 28 → s.pkg < 1024 → (s.slot slot).owner < 4096 →
          let x := s.entryAt entry
          t.entryAt entry = (s.slot slot).owner + 2 ^ 16 * f + 2 ^ 44 * s.pkg + 2 ^ 54 * (x / 2 ^ 54 % 8) + 2 ^ 57 +
            2 ^ 58 * (x / 2 ^ 58 % 2) + 2 ^ 60 * (x / 2 ^ 60 % 16)))) ∧
    ∀ gid fid f ea space n cond k scope l, s.watcher gid fid = some (f, ea, space, n, cond, k, scope) →
      let tm := (s.group gid).team
      let hit := lockHit (s.coreAt (s.team tm).core).locks (s.inst (s.team tm).inst).slot space (s.lockOwner tm space) ea.toNat n false
      s.engAcc (s.inst (s.team tm).inst).fn (s.inst (s.team tm).inst).slot tm (s.team tm).core space ea.toNat n .read = .ok l →
      (f.again = true → f.trap = none → f.mask ≠ 0 → tvecAddr (s.group gid).tvec ≠ 0 → ∀ e dst, hit = some (e, dst) →
        Answers (.waitmRecheck gid fid) s fun t => t.mem = s.mem ∧ ∃ y ∈ (t.group gid).fibres, ∃ x, y.trap = some x ∧
          y.mask = f.mask ∧ x.cause = 8 ∧ x.tsyn = BitVec.ofNat 64 (e + if dst = true then 128 else 0)) ∧
      (s.settledOn (s.team tm).core (wideScope scope) l n → (f.again = true → hit = none) →
      (waitCond cond n (leNat (s.readLoc l n)) k.toNat = true → Answers (.waitmRecheck gid fid) s fun t =>
        (∀ x ∈ (t.group gid).fibres, x.id = fid → x.kind ≠ f.kind) ∧ t.mem = s.mem) ∧
      (waitCond cond n (leNat (s.readLoc l n)) k.toNat = false → Answers (.waitmRecheck gid fid) s fun t =>
        ∃ u, s.cachesMoved u ∧ t = if f.again = true then
          ({ u with free := s.free + 1 } : State).modFibre gid fid fun x => { x with again := false } else { u with free := s.free + 1 })) ∧
    ∀ (ts : List FVal) (top : FVal → Option Int) (units : Int → FVal → Int),
      (∀ v, top v = match v with
        | .fin _ m e => if m = 0 then none else some (m.log2 + e)
        | _ => none) →
      (∀ q v, units q v = match v with
        | .fin b m e => (if b then -1 else 1) * ((if q ≤ e then m * 2 ^ (e - q).toNat else m / 2 ^ (q - e).toNat : Nat) : Int)
        | _ => 0) →
      ((∃ v ∈ ts, v.isNan = true) ∨ (.inf false ∈ ts ∧ .inf true ∈ ts) → elementOver ts = 0x7FC00000) ∧
      ((∀ v ∈ ts, v.isNan = false) →
        (.inf false ∈ ts → .inf true ∉ ts → elementOver ts = 0x7F800000) ∧ (.inf true ∈ ts → .inf false ∉ ts → elementOver ts = 0xFF800000)) ∧
      ((∀ v ∈ ts, v.isFin = true) →
        ((∀ v ∈ ts, top v = none) →
          (ts ≠ [] → (∀ v ∈ ts, ∃ e, v = .fin true 0 e) → elementOver ts = 0x80000000) ∧
          (ts = [] ∨ (∃ v ∈ ts, ∃ e, v = .fin false 0 e) → elementOver ts = 0)) ∧
        ∀ k, (∃ v ∈ ts, top v = some k) → (∀ v ∈ ts, ∀ j, top v = some j → j ≤ k) →
          let sum := (ts.map (units (k - 64))).sum
          elementOver ts = (fmtF32.ofVal .rne (.fin (decide (sum < 0)) sum.natAbs (k - 64))).1)

/-- The events of reductions (spec/10 R224 to R234; spec/18 R398), where no access waits for its frame. That the forwarding and the give-up
event move time to their moment, what is due before it first (logs 4, 11), and how a delivery waits for operations on its ranges (log 69) and what counts as room in the area while a record is
being taken (log 79), are the model's choices. -/
def Obligations.ReductionEventResults : Prop :=
  ∀ (s : State) (op gid chan round tm h : Nat) (x : RedSlot) (n : NodeState) (p : RedPacket), s.atRest → s.stalled = false →
    let r := s.ageNodes
    let q := r.unseal x (packetOf p)
    let y := r.handle tm h
    let at_ := r.teamOp tm
    let stands (t : State) (a : Nat) (bs : List Byte) : Prop := ∀ dom key, bs ≠ [] → a % 65536 + bs.length ≤ 65536 →
      walk r.bump at_.fn at_.slot a .write = .ok dom key → s.isOwn dom = true → r.rangePoisoned dom bs.length = false →
      t.readFrame key dom bs.length = bs
    let fits (u : State) (b : NodeState) : Prop := u.noneDue (u.time + 1) ∧ ∃ w, u.openNode b = some w ∧ w.node? b.gid b.chan b.round = some n ∧
      n.agrees b.op b.type b.len = true ∧ n.forwarded = false ∧ (u.node? b.gid b.chan b.round = none ∨ u.time < n.due x) ∧
      ∀ k, u.bindingWaits k = false
    (∀ e c u bs, s.engs.get? op = some e → e.kind = .sub c → s.engWaits op e = false →
      s.handleRead e c.space c.src ((if c.type = 1 then 2 else 4) * c.len) = (u, some bs) → (∀ b ∈ bs, b.2 = false) →
      let v := (u.bump.dropEng op).ageNodes
      v.redGroup c.gid = some x →
      fits v { gid := c.gid, chan := c.chan, round := c.round, op := c.op, type := c.type, len := c.len, d := c.d,
               slack := c.slack } →
      Answers (.contributionPresent op) s fun t => t.engs = v.engs ∧ ∃ k ∈ t.nodes, k.gid = c.gid ∧ k.chan = c.chan ∧
        k.round = c.round ∧ k.own = some (redElems c.type c.len (bs.map Prod.fst)) ∧ k.partials = n.partials) ∧
    (r.redGroup p.gid = some x → p.sender ≠ 0 → p.sender < x.n → partialWhole q = true →
      r.upNode x 5 p.sender = some x.self →
      fits r { gid := p.gid, chan := p.chan, round := p.round, op := p.op, type := p.type, len := p.len, d := p.d,
               slack := p.slack } →
      Answers (.partialArrival p) s fun t => ∃ k ∈ t.nodes, k.gid = p.gid ∧ k.chan = p.chan ∧ k.round = p.round ∧
        k.partials = n.partials.put p.sender q ∧ k.own = n.own) ∧
    (s.redGroup gid = some x → s.node? gid chan round = some n → n.forwarded = false → (∀ k, s.bindingWaits k = false) →
      s.noneDue (n.due x) →
      (Answers (.nodeForwardingTime gid chan round) s fun t => t.time = max s.time (n.due x)) ∧
      (∀ i, x.self ≠ 0 → s.upNode x 5 x.self = some i → Answers (.nodeForwardingTime gid chan round) s fun t =>
        t.outgoing = s.outgoing ++ [.partialSum (x.pkg i)
          { gid := n.gid, chan := n.chan, round := n.round, op := n.op, type := n.type, len := n.len, sender := x.self,
            cidx := x.self, map := (n.sum x.self).2, values := ((n.sum x.self).1).getD [],
            crc := redCrc (((n.sum x.self).1).getD []) (n.sum x.self).2, d := n.d, slack := n.slack, key := s.redKey x }]) ∧
      (x.self = 0 → s.dueRounds (n.due x) = [] →
        let v : State := { s.setNode { n with forwarded := true } with time := n.due x }
        let values := ((n.sum 0).1).getD (List.replicate n.len (BitVec.ofNat 32 (redNone n.op n.type)))
        let out : RedPacket :=
          { gid := n.gid, chan := n.chan, round := n.round, op := n.op, type := n.type, len := n.len, sender := 0, cidx := 0,
            map := (n.sum 0).2, values := values, crc := redCrc values (n.sum 0).2, d := n.d, slack := n.slack, key := s.redKey x }
        (s.channelHandle n.gid n.chan = none → Answers (.nodeForwardingTime gid chan round) s fun t => t.mem = s.mem ∧
          t.outgoing = s.outgoing ++ (s.downNodes x 5 0).map fun i => .delivery (x.pkg i) out) ∧
        ∀ tm h, s.channelHandle n.gid n.chan = some (tm, h) →
          let y := s.handle tm h
          y.red.agrees out = true → y.round = n.round → y.state = .filling → n.due x < giveUpTime x.n y.red.d y.red.slack →
          Answers (.nodeForwardingTime gid chan round) s fun t =>
            let z := t.handle tm h
            t.mem = (v.handleWrite (s.teamOp tm) .virt y.red.dst
              ((values.flatMap fun w => leBytes 4 w.toNat).map fun b => (b, false))).1.mem ∧
            z.state = .full ∧ z.fill = 4 * n.len ∧ z.sum = out.crc ∧ z.red.map = out.map ∧ z.sumbad = y.sumbad ∧
            (z.late = true ↔ ∃ i < x.n, i ∉ out.map) ∧
            ∀ i ∈ s.downNodes x 5 0, .delivery (x.pkg i) out ∈ t.outgoing)) ∧
    (r.redGroup p.gid = some x → x.self ≠ 0 → p.key = r.redKey x → r.channelHandle p.gid p.chan = some (tm, h) →
      y.red.agrees q = true → y.round = p.round → r.upNode x 5 x.self = some p.sender → (∀ k, r.bindingWaits k = false) →
      (y.state = .filling → r.time < giveUpTime x.n y.red.d y.red.slack → Answers (.deliveryArrival p) s fun t =>
        let z := t.handle tm h
        let bs := q.values.flatMap fun v => leBytes 4 v.toNat
        t.mem = (r.bump.handleWrite at_ .virt y.red.dst (bs.map fun b => (b, false))).1.mem ∧ stands t y.red.dst bs ∧
        z.state = .full ∧ z.fill = 4 * p.len ∧ z.sum = p.crc ∧ z.red.map = q.map ∧
          (z.late = true ↔ ∃ i < x.n, i ∉ q.map) ∧ z.sumbad = (y.sumbad || p.crc != redCrc p.values q.map)) ∧
      (y.state = .filling ∨ y.state = .full → y.red.recs.length + r.takenRecs tm h < y.red.cqn →
        Answers (.correctionArrival p) s fun t =>
          let z := t.handle tm h
          let a := y.red.cqa + y.red.wpos * (144 + 4 * y.red.len);
          (∃ bs : List Byte, bs.length = 144 + 4 * p.len ∧
            bs.take 16 = leBytes 2 p.round ++ leBytes 2 p.cidx ++ leBytes 2 q.map.length ++ leBytes 10 0 ∧
            (∀ k < 1024, (bs.getD (16 + k / 8) 0).getLsbD (k % 8) = decide (k ∈ q.map)) ∧
            bs.drop 144 = q.values.flatMap (fun v => leBytes 4 v.toNat) ∧
            t.mem = (r.bump.handleWrite at_ .virt a (bs.map fun b => (b, false))).1.mem ∧ stands t a bs) ∧
          z.red.recs = y.red.recs ++ [(p.round, y.red.wpos)] ∧ z.red.wpos = (y.red.wpos + 1) % y.red.cqn ∧
          z.state = y.state ∧ z.fill = y.fill)) ∧
    (∀ g, (s.handle tm h).isRed = true → (s.handle tm h).red.nextRound = some (round, g) →
      (s.handle tm h).state = .filling → (s.handle tm h).round = round → s.noneDue (g + 1) → Answers (.roundGiveUp tm h) s fun t =>
        let z := t.handle tm h
        z.state = .full ∧ z.gone = true ∧ z.red.map = [] ∧
        z.red.openRounds = (s.handle tm h).red.openRounds.filter (fun o => decide (g < o.2)) ∧
        t.time = max s.time g ∧ t.mem = s.mem) ∧
    ∀ e c, s.engs.get? op = some e → e.kind = .corr c → s.engWaits op e = false →
      (c.rec_ = none → Answers (.redCorrCompletion op) s fun t => t.engs.get? op = none ∧
        t.mem = (s.handleWrite e c.space c.buf ((leBytes 2 c.round ++ leBytes 14 0).map fun b => (b, false))).1.mem) ∧
      ∀ k u bs, c.rec_ = some k → s.handleRead e .virt c.area c.len = (u, some bs) →
        Answers (.redCorrCompletion op) s fun t => t.engs.get? op = none ∧ t.mem = (u.bump.handleWrite e c.space c.buf bs).1.mem

/-- What the host does to the device (spec/03 R49 to R59). What a flushing read covers (log 25), where RESUME goes on (log 28), the order in a
write of QCTL (log 44), that a reset by VFCTL.RST starts no other (log 43), BAR2 page by page (log 47) and how long
BADF stands (log 67) are the model's choices. -/
def Obligations.HostRequestResults : Prop :=
  ∀ (s : State) (fn off n g id : Nat) (v : Word) (bytes : List Byte),
    let f := s.fn fn
    (s.phase = .ready → s.presented fn = true →
      (v.getLsbD 63 = true → f.lock = false →
        let r := (v &&& s.feato) &&& BitVec.ofNat 64 (2 ^ 63 - 1)
        (r.getLsbD 0 = true → Answers (.feataWrite fn v) s fun t => t = s.setFn fn { f with feata := r, lock := true }) ∧
        (r.getLsbD 0 = false → Answers (.feataWrite fn v) s fun t => t = s.setFn fn { f with badf := true })) ∧
      (s.selected fn = some g → f.reset = false →
        let x := s.slot g
        let goes := v.getLsbD 2 = true ∧ x.err ≠ 0
        let y : QSlot :=
          { x with err := if v.getLsbD 2 = true then 0 else x.err, loc := v.getLsbD 1, size := v.toNat / 2 ^ 4 % 2 ^ 4,
                   prio := v.toNat / 2 ^ 8 % 2 ^ 3, vec := v.toNat / 2 ^ 16 % 2 ^ 6 }
        let fits := 4 ≤ y.size ∧ y.size ≤ 15 ∧ y.owner < f.kcount ∧ (y.loc = true → y.qbase.toNat % 2 ^ (y.size + 6) = 0)
        (¬goes → (v.getLsbD 0 = true → f.lock = true → fits → Answers (.queueEnable fn v) s fun t =>
            t.slot g = { y with en := true }) ∧
          (v.getLsbD 0 = true → ¬(f.lock = true ∧ fits) → Answers (.queueEnable fn v) s fun t =>
            (t.slot g).en = false ∧ (t.slot g).err = if f.lock then 4 else 5) ∧
          (v.getLsbD 0 = false → Answers (.queueEnable fn v) s fun t => t.slot g = { y with en := false })) ∧
        (goes → v.getLsbD 0 = false ∨ f.lock = true ∧ fits → Answers (.queueResume fn v) s fun t =>
          (t.slot g).err = 0 ∧ (t.slot g).skip = false ∧ (t.slot g).en = v.getLsbD 0 ∧
          (t.slot g).qhead = if x.skip = true then x.past.getD x.next else x.qhead)) ∧
      (off < s.slotCount fn → f.reset = false → (s.slot (f.qbase + off)).en = true →
        let x := s.slot (f.qbase + off)
        (n % 65536 < 2 ^ x.size → Answers (.doorbell fn off n) s fun t =>
          t = s.setSlot (f.qbase + off) { x with tail := n % 65536 }) ∧
        (2 ^ x.size ≤ n % 65536 → Answers (.doorbell fn off n) s fun t =>
          (t.slot (f.qbase + off)).err = 4 ∧ (t.slot (f.qbase + off)).tail = x.tail)) ∧
      (Answers (.registerWrite fn 0x40 v) s fun t => t = s.setFn fn { f with qsel := v.toNat % 2 ^ 12 }) ∧
      (Answers (.registerWrite fn 0x68 v) s fun t =>
        t = s.setFn fn { f with apbase := BitVec.ofNat 64 (v.toNat / 2 ^ 36 * 2 ^ 36) }) ∧
      (s.selected fn = some g → Answers (.registerWrite fn 0x48 v) s fun t =>
        t = s.setSlot g { s.slot g with qbase := BitVec.ofNat 64 (v.toNat / 4096 * 4096) }) ∧
      (Answers (.errcntRead fn) s fun t => (t.fn fn).wdrop = 0 ∧ (t.fn fn).rabrt = 0 ∧
        t.hostLog = s.hostLog ++ [.reg fn 0x70 (BitVec.ofNat 64 (f.wdrop + f.rabrt * 2 ^ 32))]) ∧
      (n ≠ 0 → off + n ≤ 2 ^ 36 →
        (s.slotCount fn = 0 → Answers (.bar2Read fn off n) s fun t => (t.fn fn).rabrt = min (f.rabrt + 1) 4294967295 ∧
          t.hostLog = s.hostLog ++ [.abort fn off]) ∧
        (s.slotCount fn ≠ 0 → s.stalled = false → ∀ u ps, State.bar2Places fn f.qbase .read (s.bar2Pieces fn off n) s = (u, some ps) →
          (∀ p ∈ ps, u.rangePoisoned p.1 p.2.2 = false) → Answers (.bar2Read fn off n) s fun t => t.mem = u.mem ∧
            t.hostLog = u.hostLog ++ [.data fn off (ps.flatMap fun p => u.readFrame p.2.1 p.1 p.2.2) false])) ∧
      (off + bytes.length ≤ 2 ^ 36 →
        (Answers (.bar2Write fn off bytes true) s fun t => t.mem = s.mem ∧
          (t.fn fn).wdrop = min (f.wdrop + 1) 4294967295) ∧
        (s.slotCount fn ≠ 0 → s.stalled = false → ∀ p u, s.bar2Pieces fn off bytes.length = [p] →
          s.cpWrite fn f.qbase p.1 (bytes.take p.2) = (u, true) → Answers (.bar2Write fn off bytes false) s fun t => t = u))) ∧
    (s.phase = .ready →
      (Answers (.registerWrite 0 0x100 v) s fun t => t = { s with vfsel := v.toNat % 2 ^ 7 }) ∧
      (Answers (.registerWrite 0 0x130 v) s fun t => t = { s with gqsel := v.toNat % 2 ^ 11 }) ∧
      (s.vfsel ≠ 0 → s.vfsel ≤ 64 →
        let e := s.fn s.vfsel
        (Answers (.registerWrite 0 0x120 v) s fun t => t = s.setFn s.vfsel
          { e with tbRate := v.toNat % 2 ^ 20, tbEn := v.getLsbD 31, tbCap := v.toNat / 2 ^ 32 % 2 ^ 16,
                   tbBlim := v.toNat / 2 ^ 48 % 2 ^ 16 }) ∧
        (v.getLsbD 0 = true → v.getLsbD 1 = false → e.en = false → s.enRefused s.vfsel = false →
          Answers (.vfEnable v) s fun t => t.fns = s.fns.put s.vfsel { e with en := true, err := false } ∧
            ∀ d < 32, e.dies.getLsbD d = true → (t.dieAt d).scratch = [] ∧ (t.dieAt d).scratchPoison = [])) ∧
      (s.vfsel ≤ 64 → v.getLsbD 1 = true → (s.vfsel = 0 ∨ v.getLsbD 0 = (s.fn s.vfsel).en) → (s.fn s.vfsel).resetting = false →
        Answers (.vfEnable v) s fun t => (t.fn s.vfsel).reset = true ∧ ∀ k, k ≠ s.vfsel → (t.fn k).reset = (s.fn k).reset)) ∧
    (s.phase ≠ .off → Answers (.hostAtomicop fn) s fun t => t = { s with hostLog := s.hostLog ++ [.unsupported fn] }) ∧
    (s.phase = .recovery →
      (Answers (.bar2Read 0 off n) s fun t =>
        t = { s with hostLog := s.hostLog ++ [.data 0 off (readZ s.rcv.staging off n) false] }) ∧
      (off + bytes.length ≤ 16777216 → Answers (.bar2Write 0 off bytes false) s fun t =>
        t = { s with rcv := { s.rcv with staging := writeZ s.rcv.staging off bytes } })) ∧
    ∀ w, s.flushes.get? id = some w → s.stalled = false →
      (∀ k, w.group = some k → w.slot = none →
        (Answers (.flushReadCompletion id false) s fun t => t.flushes.get? id = none ∧
          (t.fn w.fn).posted = (s.fn w.fn).posted.filter (fun x => decide (w.upTo < x.at_)) ∧
          { t.group k with fibres := (s.group k).fibres } = s.group k ∧
          t.mem = s.mem ∧ ∀ (i : Nat) (f : Fibre), (s.group k).fibres[i]? = some f → (t.group k).fibres[i]? = some
            { f with flushed := f.flushed || (match f.kind with | .faultWait l => l.contains id | _ => false) }) ∧
        ∀ f l, (s.group k).fibres = [f] → f.kind = .faultWait l → id ∈ l → f.trap = none → f.mask ≠ 0 →
          tvecAddr (s.group k).tvec ≠ 0 → (∀ i < 32, f.mask.getLsbD i = true → (w.addrs.get? i).isSome = true) →
          Answers (.flushReadTimeout id) s fun t => t.flushes.get? id = none ∧ (t.fn w.fn).posted = (s.fn w.fn).posted ∧
            t.mem = s.mem ∧ ∃ y x, y ∈ (t.group k).fibres ∧ y.trap = some x ∧ x.cause = 7 ∧ x.tsyn = 1 ∧ y.mask = f.mask ∧
              y.at_ = { pc := tvecAddr (s.group k).tvec } ∧ ∀ i < 32, f.mask.getLsbD i = true → x.tunit.getD i 0 = w.addrs.getD i 0) ∧
      (w.group = none → w.slot = some g → .signal id w.irq w.index ∈ (s.slot g).busy →
        (w.host = true → Answers (.flushReadCompletion id false) s fun t => t.flushes.get? id = none ∧
          (t.slot g).busy = (s.slot g).busy.erase (.signal id w.irq w.index) ∧
          t.hostMem = writeZ s.hostMem w.addr (leBytes 8 w.value.toNat)) ∧
        ((s.slot g).err = 0 → Answers (.flushReadTimeout id) s fun t => t.flushes.get? id = none ∧ (t.slot g).err = 6 ∧
          (t.slot g).qhead = w.index ∧ t.mem = s.mem ∧ t.hostMem = s.hostMem))

/-- Links, other packages, domain time and SPDM (spec/02 R35 to R46; spec/03 R66). How TIME_EXCHANGE moves %time and what a loss of SYNC leaves
of the rate (log 4), where a frame that another package names comes to rest (log 14, log 16), SPDM's codes (log 15), the form in which packages
come back to the domain (log 92) and that a tag is looked up by its number alone (log 93) are the model's choices. -/
def Obligations.LinkAndSessionEvents : Prop :=
  ∀ (s : State) (l : LinkId) (b : Bool) (slot pa : Nat) (ppm : Int) (ns fn idx : Nat),
    let n := linkNum l
    let x := s.link n
    let a := s.dom pa
    Answers (.flitReplay ⟨l, b⟩) s (fun t => (∀ m, m ≠ n → t.link m = s.link m) ∧
      let k := if b = true then x.consecutive + 1 else 1
      t.link n = { x with replay := min 65535 (x.replay + 1), consecutive := k, retraining := x.retraining || decide (8 ≤ k) }) ∧
    (x.retraining = true →
      let late := (x.failed.filter fun m => decide (s.time < m + 1000000000)) ++ [s.time]
      Answers (.portRetrain l b) s fun t => (∀ m, m ≠ n → t.link m = s.link m) ∧ t.link n =
        if b = true then { x with retrn := min 255 (x.retrn + 1), consecutive := 0, retraining := false }
        else { x with retrn := min 255 (x.retrn + 1), consecutive := 0, retraining := decide (late.length < 3), failed := late }) ∧
    (∀ lost, x.up = true → (∀ m, l = .ualink m → 3 ≤ x.failed.length) → Answers (.portDown l lost) s fun t => (t.link n).up = false) ∧
    (s.phase = .ready → pa < s.frameEnd → s.atRest → s.stalled = false →
      let rests (t : State) : Prop := s.hasRoom (.stack 0) = true → (t.placed.get? (pa / 65536)).isSome = true
      (∀ k, Answers (.remoteRequest slot pa (.read k)) s fun t => rests t ∧ t.mem = s.mem ∧
        t.outgoing = s.outgoing ++ [.reply (s.readFrame slot a k) (s.rangePoisoned a k)]) ∧
      (∀ bs, (∀ u, a / 128 ≤ u / 4 → u / 4 ≤ (a + bs.length - 1) / 128 → s.struckAt u = false) →
        Answers (.remoteRequest slot pa (.write bs)) s fun t => rests t ∧ t.mem = (s.writeRange slot a bs).mem ∧
        t.poison = (s.writeRange slot a bs).poison) ∧
      ∀ tag op wd y e,
        let k := if wd = true then 8 else 4
        (∀ old, s.remoteTags.get? tag = some old → Answers (.remoteRequest slot pa (.atomic tag op wd y e)) s fun t =>
          rests t ∧ t.mem = s.mem ∧ t.outgoing = s.outgoing ++ [.reply (leBytes k old.toNat) false]) ∧
        (s.remoteTags.get? tag = none → s.rangePoisoned a k = false →
          Answers (.remoteRequest slot pa (.atomic tag op wd y e)) s fun t =>
            let m := leNat (s.readFrame slot a k)
            rests t ∧ t.outgoing = s.outgoing ++ [.reply (leBytes k m) false] ∧ t.remoteTags.get? tag = some (BitVec.ofNat 64 m) ∧
            t.mem = (s.writeRange slot a (leBytes k (atomNew op wd m (if op = .cas then e.toNat else y.toNat) y.toNat))).mem)) ∧
    Answers (.timeExchange ppm ns) s (fun t => t.time = s.time + ns ∧ t.exchTime = s.time + ns ∧ t.sync = true ∧
      t.ppm = max (-200) (min ppm 200)) ∧
    (s.dueNodes (s.time + ns) = [] → s.dueRounds (s.time + ns) = [] → Answers (.timeExchange ppm ns) s fun t =>
      t = { s with ppm := max (-200) (min ppm 200), time := s.time + ns, exchTime := s.time + ns, sync := true,
                   outgoing := s.outgoing ++ s.masterOf.toList.map .time }) ∧
    (s.master = false → s.exchTime + 2000000 ≤ s.time → Answers .syncLoss s fun t => t = { s with sync := false, ppm := 0 }) ∧
    (∀ pkg npkg time peers, s.phase = .ready → pkg < 1024 →
      (s.insts = [] → s.npkg = 0 ∨ pkg ≠ s.pkg → Answers (.domainJoin pkg npkg time peers) s fun t =>
        t.pkg = pkg ∧ t.npkg = npkg % 1024 ∧ t.time = time ∧ (t.master = true ↔ ∀ m ∈ peers, m ≠ pkg → pkg < m)) ∧
      (s.npkg ≠ 0 → pkg = s.pkg → Answers (.domainJoin pkg npkg time peers) s fun t => t.time = s.time ∧ t.insts = s.insts ∧ t.mem = s.mem ∧
        (∀ m, m ∈ t.peers ↔ m ∈ s.peers ∨ (m ∈ peers ∧ m ≠ pkg)) ∧ (t.master = true ↔ ∀ m ∈ t.peers, pkg < m) ∧
        ∀ l ∈ t.links, 57 ≤ l.1 → l.2.trained = true → l.2.up = true)) ∧
    (s.phase = .ready → s.presented fn = true →
      let z := (s.fn fn).spdm
      let tells (i : Instr) (code param : Nat) (w : Spdm) : Prop := Answers i s fun t =>
        t = { s with fns := s.fns.put fn { s.fn fn with spdm := w }, hostLog := s.hostLog ++ [.spdm fn code param] }
      let step (i : Instr) (code : Nat) (ok : Bool) (w : Spdm) : Prop :=
        (ok = true → tells i code 0 w) ∧ (ok = false → tells i 0x7F 4 z)
      tells (.spdmGetVersion fn) 0x04 0 { z with version := true } ∧
      step (.spdmGetCapabilities fn) 0x61 z.version { z with caps := true } ∧
      step (.spdmNegotiateAlgorithms fn true) 0x63 z.caps { z with algs := true } ∧
      tells (.spdmNegotiateAlgorithms fn false) 0x7F 1 z ∧
      step (.spdmGetDigests fn) 0x01 z.algs z ∧
      step (.spdmGetCertificate fn 0) 0x02 z.algs z ∧
      (idx ≠ 0 → tells (.spdmGetCertificate fn idx) 0x7F 1 z) ∧
      step (.spdmChallenge fn) 0x03 z.algs z ∧
      (z.algs = true → Answers (.spdmGetMeasurements fn idx) s fun t => (t.fn fn).spdm = z ∧
        t.hostLog = s.hostLog ++ .spdm fn 0x60 0 :: (s.measurementBlock fn idx).toList.map (.measurement fn idx)) ∧
      step (.spdmKeyExchange fn) 0x64 z.algs { z with exchanged := true, live := false, session := z.session + 1 } ∧
      step (.spdmFinish fn) 0x65 z.exchanged { z with exchanged := false, live := true } ∧
      step (.spdmHeartbeat fn) 0x68 z.live z ∧
      step (.spdmEndSession fn) 0x6C z.live { z with live := false } ∧
      tells (.spdmUnsupportedRequest fn) 0x7F 7 z)

/-- The encoder and the decoder agree (spec/13 R279, R282 to R285). -/
def Obligations.DecodeEncodeRoundTrip : Prop :=
  (∀ (i : Instr) (k e : Bool), wellFormed i = true → i.isWord = true →
    (∃ w, encode k e i = [w] ∧ ∀ nxt, (∀ l, nxt = some l → l.toNat / 2 ^ 23 % 2 ^ 7 ≠ 7) → decode w nxt = some (i, 1)) ∨
    ∃ w l, encode k e i = [w, l] ∧ decode w (some l) = some (i, 2)) ∧
  ∀ (w : W32) (nxt : Option W32) (i : Instr) (n : Nat), decode w nxt = some (i, n) → wellFormed i = true ∧ (n = 1 ∨ n = 2)

/-- Words of the families (spec/13 to spec/18). -/
def Obligations.SampleWordsDecode : Prop :=
  decode 0x01801128 none = some (.hdr 0x801 1 2 true, 1) ∧
  decode 0x09294FFF none = some (.saddi 10 20 0xFFF, 1) ∧
  decode 0x0F554004 none = some (.swr .tvec 20, 1) ∧
  decode 0x0417FFFF none = some (.brCond 5 true 0x1FFFF, 1) ∧
  decode 0x1D0420EA none = some (.vdot4 false true false (.dir 1) (.dir 2) (.dir 3), 1) ∧
  decode 0x2308418D none = some (.vfcmp 2 true .le (.dir 4) (.dir 6), 1) ∧
  decode 0x28083149 none = some (.vcvt .f32 .e4m3 .dyn true (.dir 2) (.dir 3), 1) ∧
  decode 0x2C1841C6 none = some (.vst 6 ⟨4, 7, none⟩ .b16, 1) ∧
  decode 0xB4104038 (some 0x034CBFFF) = some (.satom 4 4 .virt true ⟨.cas, true, .grp, .acq, 0x1FFF⟩, 2) ∧
  decode 0x3BA0328A none = some (.nmv .q8 true 40 3 10, 1) ∧
  decode 0x3E204444 none = some (.redMap 8 4 17, 1) ∧
  decode 0x3F043000 none = some (.region .checked 3, 1) ∧
  decode 0x00000000 none = none

/-- The step and the decoded instruction (the order of events is the model's choice, log 7), and a word or an issue group that issue
refuses (spec/13 R282, R284; their traps are those of ProgramTraps). -/
def Obligations.StepRunsDecoded : Prop :=
  ∀ s : State,
    (s.phase = .off → s.agenda = [] → step s = .fault .supplyOff) ∧
    (∀ f rest, s.phase = .off → s.agenda = .boot f :: rest → step s = exec (.boot f) { s with agenda := rest }) ∧
    (∀ e rest t, s.phase ≠ .off → s.agenda = e :: rest → exec e { s with agenda := rest } = .next t → t.stalled = false →
      step s = .next t) ∧
    (s.phase = .booting ∨ s.phase = .resuming → s.agenda = [] → step s = exec (.boot bootFindings) s) ∧
    (let t := s.turn
      ∀ i n, s.phase = .ready → s.agenda = [] → t.canIssue t.cur = true → decode (t.it.word t.it.pos) (t.it.follower t.it.pos) = some (i, n) →
        (t.it.pos = 0 ∨ t.it.started = true → step s = onNext (exec i t) State.advance) ∧
        (t.it.pos ≠ 0 → t.it.started = false → t.groupFault = none → t.it.turnsOf = [] →
          step s = onNext (exec i (t.modIt fun it => { it with started := true })) State.advance)) ∧
    (let t := s.turn
      ∀ p m rest i n, s.phase = .ready → s.agenda = [] → t.canIssue t.cur = true → t.it.pos ≠ 0 → t.it.started = false →
        t.groupFault = none → t.it.turnsOf = (p, m) :: rest → decode (t.it.word p) (t.it.follower p) = some (i, n) →
        step s = onNext (exec i (t.modIt fun it =>
          { it with started := true, pos := p, only := some m, turns := (p, m) :: rest })) State.advance) ∧
    (let t := s.turn;
      s.phase = .ready → s.agenda = [] → t.canIssue t.cur = true → t.it.pos ≠ 0 → t.it.started = false →
      ∀ c y p, t.groupFault = some (c, y, p) → step s = .next (t.failGroup c y p)) ∧
    (let t := s.turn;
      s.phase = .ready → s.agenda = [] → t.canIssue t.cur = true → decode (t.it.word t.it.pos) (t.it.follower t.it.pos) = none →
        (t.it.pos = 0 → step s = .next t.badHeader.advance) ∧
        (t.it.pos ≠ 0 → t.it.started = true → step s = .next (t.failGroup 1 t.image t.it.pos))) ∧
    (∀ n, s.issuing = true → s.it.held = false → s.it.reissue = [] → s.it.turns = [] → s.it.closes = false → s.it.pos ≠ 0 →
      s.it.len s.it.pos = n →
      s.advance.it = { s.it with pos := s.it.pos + n } ∧ s.advance.mem = s.mem ∧ s.advance.groups = s.groups) ∧
    (∀ (it : Issue) (f g : Fibre) (p q : Nat), it.reissue = [] → it.groupPositions = [p, q] → p < q → f.mask ≠ 0 → g.mask ≠ 0 →
      (it.members.filterMap fun m => it.snap.fibres.find? fun x => x.id == m) = [f, g] →
      (it.scalarAt p = true → it.scalarAt q = true →
        it.turnsOf = [(p, f.mask), (q, f.mask), (p, g.mask), (q, g.mask)]) ∧
      (it.scalarAt p = false → it.turnsOf = []) ∧ (it.scalarAt q = false → it.turnsOf = [])) ∧
    (∀ (e : Nat × Mask) p m rest, s.issuing = true → s.it.held = false → s.it.turns = e :: (p, m) :: rest →
      s.advance.it = { s.it with pos := p, only := some m, turns := (p, m) :: rest,
                                 seen := if p ≤ s.it.pos then s.it.made else s.it.seen } ∧
        s.advance.mem = s.mem ∧ s.advance.groups = s.groups) ∧
    (∀ (m : Fibre) (d a b : SReg) (e : Nat × Mask) rest, s.issuing = true → s.it.traps = [] → s.it.waits = [] → s.it.late = [] →
      s.it.turns = e :: rest → s.it.parts = [m] →
      let view := s.it.seen.getD s.it.snap
      Answers (.sadd d a b) s fun t => t.mine.sreg d.val = view.sreg a.val + view.sreg b.val ∧
        ∃ w, t.it.made = some w ∧ ∀ n, w.sreg n = if n = d.val then view.sreg a.val + view.sreg b.val else (s.it.made.getD view).sreg n)

/-- The machine after reset (spec/01 R22, R23; the values of the registers, spec/03 R52 to R61 and spec/09 R203). That QHEAD is 0 (log 5) and
that memory lists nothing (log 2) are the model's choices. -/
def Obligations.ResetValues : Prop :=
  let s := State.reset
  s.phase = .booting ∧ s.rcv.erra = 0 ∧ s.rcv.errb = 0 ∧ s.rcv.errh = 0 ∧ s.rcv.busy = false ∧
  (∀ f, (s.fn f).feata = 0 ∧ (s.fn f).lock = false ∧ (s.fn f).en = false ∧ (s.fn f).reset = false ∧ (s.fn f).qcount = 0 ∧
    (s.fn f).kcount = 0 ∧ (s.fn f).dies = 0 ∧ (s.fn f).tbEn = false ∧ (s.fn f).debt = 0) ∧
  (∀ g, (s.slot g).en = false ∧ (s.slot g).err = 0 ∧ (s.slot g).qhead = 0 ∧ (s.slot g).busy = []) ∧
  (∀ k, (s.keySlot k).state = .empty ∧ (s.keySlot k).tele = {}) ∧
  (∀ c, (s.coreAt c).p = 1 ∧ (s.coreAt c).q = 64 ∧ (s.coreAt c).w = 64 ∧ (s.coreAt c).e = 0 ∧ (s.coreAt c).n = 0 ∧
    (s.coreAt c).locks = [] ∧ (s.coreAt c).queue = []) ∧
  (∀ l, (s.link l).up = false) ∧ s.insts = [] ∧ s.tapes = [] ∧ s.teams = [] ∧ s.groups = [] ∧ s.ops = [] ∧ s.engs = [] ∧
  s.mem = [] ∧ memoryForm s = true

/-- No instruction stops the machine (spec/00 R7), and each of these runs with an effect of its own: the words of spec/15 R326 to R338, the
commands of spec/03 R55, the events of engines of spec/17 and spec/07, and those of reductions of spec/10. That every event answers in every
state, due or not (log 11), and what PAGE_WALK (log 58), one row of NMV (log 29), the forwarding time (logs 4, 11), WAITGE (log 45) and the room
for corrections (log 79) are, are the model's choices. -/
def Obligations.EveryInstructionAnswers : Prop :=
  (∀ (i : Instr) (s : State), ∃ t, exec i s = .next t) ∧
  (∀ (s : State) (d a b c : VOp) (rd ra rb rc : Nat → Nat), s.clean →
    let writes (i : Instr) (wide : Bool) : Prop := Answers i s fun t => ∃ val flags, s.wroteV t wide rd val flags
    let issues (i : Instr) : Prop := Answers i s fun t => ∃ o : Op, o.kind = .sf ∧ o.lanes = s.it.mask ∧
      ({ s with ops := s.ops.put s.nextId o, nextId := s.nextId + 1 } : State).wrote t []
    (∀ (ty : FTy) (rmd : Bool) (m : RMode),
      let w := ty == .f64
      (s.operands [⟨d, w⟩, ⟨a, w⟩, ⟨b, w⟩] (fun l => [rd l, ra l, rb l]) →
        writes (.vfadd ty rmd d a b) w ∧ writes (.vfsub ty rmd d a b) w ∧ writes (.vfmul ty rmd d a b) w ∧
        writes (.vfmin ty d a b) w ∧ writes (.vfmax ty d a b) w) ∧
      (s.operands [⟨d, w⟩, ⟨a, w⟩, ⟨b, false⟩] (fun l => [rd l, ra l, rb l]) → writes (.vfscl ty rmd d a b) w) ∧
      (s.operands [⟨d, w⟩, ⟨a, w⟩] (fun l => [rd l, ra l]) →
        writes (.vfabs ty d a) w ∧ writes (.vfneg ty d a) w ∧ writes (.vfrnd ty m d a) w) ∧
      (s.operands [⟨d, false⟩, ⟨a, w⟩] (fun l => [rd l, ra l]) → writes (.vfclass ty d a) false)) ∧
    (s.operands [⟨d, true⟩, ⟨a, true⟩, ⟨b, true⟩, ⟨c, true⟩] (fun l => [rd l, ra l, rb l, rc l]) → writes (.vfmaF64 d a b c) true) ∧
    (s.operands [⟨d, false⟩, ⟨a, false⟩, ⟨b, false⟩, ⟨c, false⟩] (fun l => [rd l, ra l, rb l, rc l]) →
      writes (.vfmaF32 d a b c) false ∧ writes (.vfmaF16x2 d a b c) false ∧ writes (.vfmaBf16x2 d a b c) false) ∧
    (∀ (wide : Bool) (p : PReg) (code : FPred), s.operands [⟨a, wide⟩, ⟨b, wide⟩] (fun l => [ra l, rb l]) →
      Answers (.vfcmp p wide code a b) s fun t => ∃ val flags, s.wroteP t p.val val flags) ∧
    (∀ (st dt : CvtTy) (m : CvtMode) (sat : Bool), s.operands [⟨d, dt.wide⟩, ⟨a, st.wide⟩] (fun l => [rd l, ra l]) →
      writes (.vcvt st dt m sat d a) dt.wide ∧ ((cvtFmt dt).isSome = true → writes (.vcvtsr st dt sat d a) dt.wide)) ∧
    (s.operands [⟨d, false⟩, ⟨a, false⟩, ⟨b, false⟩] (fun l => [rd l, ra l, rb l]) →
      (∀ x, writes (.vfdot2 x d a b) false) ∧ (∀ x, writes (.vqnt x d a b) false) ∧ ∀ x, writes (.vdqnt x d a b) false) ∧
    (s.operands [⟨d, false⟩] (fun l => [rd l]) → ∀ u v, writes (.vrng d u v) false) ∧
    (∀ (reg : VNum) (g : GAddr) (w : Width) (sel : Bool) (p : Nat → Loc), s.it.mask ≠ 0 →
      let loads (i : Instr) (tgt : Target) (n off cnt : Nat) : Prop :=
        (∀ l ∈ lanesOf s.it.mask, s.reaches tgt (laneUnit l (s.ea g n l)) n off cnt .read (p l)) →
        Answers i s fun t => ∃ o, s.leftOp t o ∧ o.kind = .load
      let n := widthBytes w
      (s.inBounds reg.val (if n ≤ 4 then 1 else n / 4) g.idx →
        loads (.vld reg g w sel) (.space .virt) n 0 n ∧ loads (.vlds reg g w sel) (.space .sp) n 0 n ∧
        loads (.vldc reg g w sel) (.space .cm) n 0 n ∧ loads (.vldd reg g w sel) (.space .ds) n 0 n ∧
        loads (.vldp reg g w sel) .slice n 0 n) ∧
      (s.inBounds reg.val 4 g.idx → ∀ first cnt, (gExt g, first, cnt) ∈ [(0, 0, 4), (1, 0, 3), (2, 3, 1), (3, 1, 2)] →
        loads (.vldr reg g sel) (.space .virt) 16 (4 * first) (4 * cnt))) ∧
    (∀ (m : Fibre) (reg : SReg) (g : GAddr) (w : Width) (sel : Bool) (p : Loc), s.lone m → m.mask ≠ 0 →
      let n := widthBytes w
      s.reaches (.space .virt) { lane := lowLane m.mask, lanes := lanesOf m.mask, ea := s.regs.sreg g.base.val + gOff g } n 0 n .read p →
      Answers (.sld reg g w sel) s fun t => ∃ o, s.leftOp t o ∧ o.kind = .load) ∧
    (s.operands [⟨d, false⟩, ⟨a, false⟩] (fun l => [rd l, ra l]) →
      (∀ x k, writes (.vpack x d a k) false ∧ writes (.vunpk x d a k) false) ∧
      (s.it.mask ≠ 0 → ∀ sel, issues (.vrcp d a sel) ∧ issues (.vrsq d a sel) ∧ issues (.vsqrt d a sel) ∧ issues (.vexp2 d a sel) ∧
        issues (.vlog2 d a sel) ∧ issues (.vsin d a sel) ∧ issues (.vcos d a sel) ∧ issues (.vtanh d a sel)))) ∧
  (∀ (s : State) (id : Nat) (o : Op), s.ops.get? id = some o →
    let ends (i : Instr) : Prop := Answers i s fun t => t.ops.get? id = none ∧ ∀ k, k ≠ id → t.ops.get? k = s.ops.get? k
    (o.kind = .load → ends (.loadCompletion id)) ∧ (o.kind = .atomic → ends (.atomicCompletion id)) ∧
    (o.kind = .cwb → ends (.cwbCompletion id)) ∧
    (o.kind = .sf → (∀ e ∈ s.ops, e.2.kind = .sf → e.2.quarter = o.quarter → id ≤ e.1) → ends (.sfCompletion id))) ∧
  (∀ (s : State) (slot va : Nat) (kind : AccKind) (frame entry : Nat), s.phase = .ready →
    walk s (s.slotFn slot) slot va kind = .place frame entry → (∀ y ∈ s.services, ∀ f b, y.2 ≠ .place frame f b) →
    Answers (.pageWalk slot va kind) s fun t => t.services = s.services.put s.nextId (.place frame (s.slotFn slot) entry)) ∧
  (∀ (s : State) (c : CoreId) (op : Nat) (e : EngOp) (rest : List Nat), s.engs.get? op = some e →
    let k := 36 * c.die.val + c.core.val
    (s.coreAt k).refused = op :: rest → (s.coreAt k).queue.length < 32 →
    Answers (.engineQueueResend c) s fun t => (t.coreAt k).queue = (s.coreAt k).queue ++ [op] ∧ (t.coreAt k).refused = rest) ∧
  (∀ (s : State) (gid fid : Nat) (f : Fibre) (ea : Word) (space : Space) (n : Nat) (cond : WCond) (k : Word) (scope : Scope) (l : Loc),
    s.watcher gid fid = some (f, ea, space, n, cond, k, scope) →
    let tm := (s.group gid).team
    s.engAcc (s.inst (s.team tm).inst).fn (s.inst (s.team tm).inst).slot tm (s.team tm).core space ea.toNat n .read = .ok l →
    s.settledOn (s.team tm).core (wideScope scope) l n → f.again = false →
    waitCond cond n (leNat (s.readLoc l n)) k.toNat = true → Answers (.waitmRecheck gid fid) s fun t =>
      ∀ x ∈ (t.group gid).fibres, x.id = fid → x.kind ≠ f.kind) ∧
  (∀ (s u : State) (g : Nat) (c : Command),
    let fn := u.slotFn g
    let k := (u.fn fn).kbase + c.a0
    (s.heads u g 1 c → ∀ v b, u.readTcb fn g c.a0 = (v, some b) → v.tableFull fn = false →
      (∀ e ∈ v.insts, ¬(e.2.fn = fn ∧ e.2.blk = c.a0)) → (∀ x ∈ v.credits, ¬(x.fn = fn ∧ x.blk = c.a0)) → b.bad = false →
      Answers (.launchCommand g) s fun t => ∃ n x, t.insts.get? n = some x ∧ x.blk = c.a0 ∧ x.fn = fn) ∧
    (s.heads u g 2 c → c.a2 ≠ 0 → Answers (.copy g) s fun t => ∃ e o, t.engs.get? u.nextId = some e ∧ e.slot = g ∧
      e.kind = .copy o ∧ o.len = c.a2) ∧
    (s.heads u g 3 c → atHost c.a0 = true → Answers (.signal g) s fun t => ∃ f, t.flushes.get? u.nextId = some f ∧
      f.slot = some g ∧ f.value = BitVec.ofNat 64 c.a1) ∧
    (s.heads u g 4 c → ∀ v bs, (u.setSlot g { u.slot g with qhead := (u.slot g).next }).cpRead fn g c.a0 8 = (v, some bs) →
      Answers (.waitge g) s fun t => (t.slot g).waitge =
        if c.a1 % 2 ^ 64 ≤ leNat bs then none else some (c.a0, BitVec.ofNat 64 c.a1)) ∧
    (∀ a w, (s.slot g).waitge = some (a, w) → (s.fn (s.slotFn g)).reset = false → (s.slotOwner g).isSome = true →
      s.stalled = false → ∀ v bs, s.cpRead (s.slotFn g) g a 8 = (v, some bs) →
      Answers (.waitgePoll g) s fun t => (t.slot g).waitge = if w.toNat ≤ leNat bs then none else some (a, w)) ∧
    (s.heads u g 5 c → c.a0 < (u.fn fn).kcount → (u.keySlot k).state = .empty →
      Answers (.keygen g) s fun t => (t.keySlot k).state = .live) ∧
    (s.heads u g 6 c → c.a0 < (u.fn fn).kcount → (u.keySlot k).state = .empty → (u.fn fn).spdm.live = true → atHost c.a1 = true →
      ∀ key, Answers (.keyimp g (some key)) s fun t => (t.keySlot k).state = .live) ∧
    (s.heads u g 7 c → c.a0 < (u.fn fn).kcount → (u.keySlot k).state = .live → (∀ e ∈ u.services, u.cowUnder k e.2 = false) →
      Answers (.keydel g) s fun t => (t.keySlot k).state = .empty) ∧
    (s.heads u g 8 c → Answers (.tlbinv g) s fun t => u.retired t g c.irq)) ∧
  (∀ (s : State) (op : Nat) (e : EngOp), s.engs.get? op = some e → s.engWaits op e = false →
    (∀ c bs ds v, e.kind = .copy c → c.stop = false → s.atBoundary e c.handle (c.dst + c.done) = false → c.service = none → s.heldBack op e = false → s.copyLost c = false →
      (s.liveMembers c).length = c.members.length → s.copyBytes e c c.chunk c.done = .ok bs → s.copyDests e c c.done = .ok ds →
      s.meter e.fn (bs.length * ds.length) = some v → e.team ≠ 0 →
      Answers (.copyChunk op) s fun t => (t.handle e.team c.handle).fill = c.fillBase + (c.done + bs.length)) ∧
    (∀ m errs o, e.kind = .mma m → m.audited = false → s.behindHead op e = false → s.mmaBarred e m = none → s.mmaOperands e m = (o, none) →
      (m.mode = .exact ∨ m.escalating = true → (s.coreAt e.core).vcur = (s.coreAt e.core).vg) →
      (o.check (o.inject ((s.coreAt e.core).script.filter fun x => x.selects m (m.seq.getD (s.coreAt e.core).scriptSeq))
        (o.realWrongs errs))).outcome = .clean →
      Answers (.tileProductAttemptEnd op errs false) s fun t => t.engs.get? op = none) ∧
    (∀ m, e.kind = .mma m → m.audited = true → s.mmaBarred e m = none → Answers (.auditEnd op []) s fun t => t.engs.get? op = none) ∧
    (∀ k, e.kind = .move (.zero k) → Answers (.accumulatorMoveCompletion op) s fun t => t.engs.get? op = none ∧ t.tile e.team k = []) ∧
    (∀ o, e.kind = .nmv o → o.stop = false → (s.handle e.team o.handle).state = .filling → o.service = none → s.tagged e.team o.gen = true →
      o.row + 1 = nmvRows o.desc → (∀ a ∈ o.addrs o.row, ∃ dom key, walk s e.fn e.slot a .read = .ok dom key ∧
        ∀ x ∈ s.cachedLeaves e.core e.slot a, leafWalk s e.fn a .read x.entry x.leaf = .ok dom key) →
      Answers (.nmvCompletion op) s fun t => (t.handle e.team o.handle).state = .full) ∧
    ∀ c, e.kind = .corr c → c.rec_ = none → s.atRest → s.stalled = false →
      Answers (.redCorrCompletion op) s fun t => t.engs.get? op = none) ∧
  (∀ (s : State) (fr : Nat) (p q : Place), s.placed.get? fr = some p → s.placeDown fr p = false →
    (p ≠ q → s.frameWaits fr = false → s.placeDown fr q = false → s.hasRoom q = true → s.mayMove fr q = true → s.placing fr = [] →
      Answers (.frameMoveStart fr q) s fun t => t.moving.get? fr = some q) ∧
    (s.moving.get? fr = some q → s.placeDown fr q = false → s.hasRoom q = true → s.mayMove fr q = true →
      Answers (.frameMoveCompletion fr q) s fun t => t.placed.get? fr = some q)) ∧
  (∀ (s : State) (id slot fn entry frame at_ key : Nat), s.services.get? id = some (.cow slot fn entry frame at_ key) →
    s.cowWaits fn entry frame = false → s.stalled = false →
    Answers (.cowServiceCompletion id) s fun t => t.services.get? id = none) ∧
  ∀ (s : State) (gid chan round tm h : Nat) (x : RedSlot) (n : NodeState) (p : RedPacket), s.atRest → s.stalled = false →
    let r := s.ageNodes
    (s.redGroup gid = some x → s.node? gid chan round = some n → n.forwarded = false → (∀ k, s.bindingWaits k = false) →
      s.noneDue (n.due x) → Answers (.nodeForwardingTime gid chan round) s fun t => t.time = max s.time (n.due x)) ∧
    (r.redGroup p.gid = some x → x.self ≠ 0 → p.key = r.redKey x → r.channelHandle p.gid p.chan = some (tm, h) →
      (r.handle tm h).red.agrees (r.unseal x (packetOf p)) = true → (r.handle tm h).round = p.round →
      r.upNode x 5 x.self = some p.sender → (r.handle tm h).state = .filling → (∀ k, r.bindingWaits k = false) →
      (r.time < giveUpTime x.n (r.handle tm h).red.d (r.handle tm h).red.slack →
        Answers (.deliveryArrival p) s fun t => (t.handle tm h).state = .full) ∧
      ((r.handle tm h).red.recs.length + r.takenRecs tm h < (r.handle tm h).red.cqn →
        Answers (.correctionArrival p) s fun t =>
          (t.handle tm h).red.recs = (r.handle tm h).red.recs ++ [(p.round, (r.handle tm h).red.wpos)])) ∧
    ∀ g, (s.handle tm h).isRed = true → (s.handle tm h).red.nextRound = some (round, g) →
      (s.handle tm h).state = .filling → (s.handle tm h).round = round → s.noneDue (g + 1) →
      Answers (.roundGiveUp tm h) s fun t => (t.handle tm h).state = .full

/-- The canonical form of memory is kept by every step (log 2). -/
def Obligations.MemoryFormKept : Prop :=
  ∀ s t : State, memoryForm s = true → step s = .next t → memoryForm t = true
end

