-- ==== Sys2Proof/Laws/Tab.lean ====
section
/-!
SUPPORT. Laws of the tables: reading after writing, and the forms that every table operation keeps.
-/

namespace Sys2Proof

@[simp] theorem Tab.get?_nil {V : Type} (n : Nat) : Tab.get? ([] : Tab V) n = none := rfl

@[simp] theorem Tab.getD_nil {V : Type} (n : Nat) (d : V) : Tab.getD ([] : Tab V) n d = d := rfl

/-- Reading the key just written. -/
@[simp] theorem Tab.get?_put_self {V : Type} (t : Tab V) (n : Nat) (v : V) : (t.put n v).get? n = some v := by
  induction t with
  | nil => simp [Tab.put, Tab.get?]
  | cons e t ih =>
    obtain ⟨k, x⟩ := e
    simp only [Tab.put]
    split
    · simp [Tab.get?]
    · split
      · simp [Tab.get?]
      · simp [Tab.get?, *]

/-- Reading any other key. -/
@[simp] theorem Tab.get?_put_ne {V : Type} (t : Tab V) {n m : Nat} (v : V) (h : m ≠ n) :
    (t.put n v).get? m = t.get? m := by
  induction t with
  | nil => simp [Tab.put, Tab.get?, h]
  | cons e t ih =>
    obtain ⟨k, x⟩ := e
    simp only [Tab.put]
    split
    · simp [Tab.get?, h]
    · split
      · subst_vars; simp [Tab.get?, h]
      · simp [Tab.get?, ih]

theorem Tab.get?_put {V : Type} (t : Tab V) (n m : Nat) (v : V) :
    (t.put n v).get? m = if m = n then some v else t.get? m := by
  split
  · subst_vars; simp
  · simp [*]

@[simp] theorem Tab.getD_put_self {V : Type} (t : Tab V) (n : Nat) (v d : V) : (t.put n v).getD n d = v := by
  simp [Tab.getD]

@[simp] theorem Tab.getD_put_ne {V : Type} (t : Tab V) {n m : Nat} (v d : V) (h : m ≠ n) :
    (t.put n v).getD m d = t.getD m d := by
  simp [Tab.getD, h]

theorem Tab.getD_put {V : Type} (t : Tab V) (n m : Nat) (v d : V) :
    (t.put n v).getD m d = if m = n then v else t.getD m d := by
  split
  · subst_vars; simp
  · simp [*]

@[simp] theorem Tab.get?_erase_self {V : Type} (t : Tab V) (n : Nat) : (t.erase n).get? n = none := by
  induction t with
  | nil => rfl
  | cons e t ih =>
    obtain ⟨k, x⟩ := e
    simp only [Tab.erase]
    split
    · exact ih
    · simp [Tab.get?, *]

@[simp] theorem Tab.get?_erase_ne {V : Type} (t : Tab V) {n m : Nat} (h : m ≠ n) : (t.erase n).get? m = t.get? m := by
  induction t with
  | nil => rfl
  | cons e t ih =>
    obtain ⟨k, x⟩ := e
    simp only [Tab.erase]
    split
    · subst_vars; simp [Tab.get?, ih, h]
    · simp [Tab.get?, ih]

/-- Of two writes under one key the later stands. -/
theorem Tab.put_put {V : Type} (t : Tab V) (n : Nat) (v w : V) : (t.put n v).put n w = t.put n w := by
  induction t with
  | nil => simp [Tab.put]
  | cons e t ih =>
    obtain ⟨k, x⟩ := e
    simp only [Tab.put]
    split
    · simp [Tab.put]
    · split
      · simp [Tab.put]
      · simp [Tab.put, *]

/-- A table that reads `d` where nothing is listed gives the value just set. -/
@[simp] theorem Tab.getD_set_self {V : Type} [DecidableEq V] (d : V) (t : Tab V) (n : Nat) (v : V) :
    (Tab.set d t n v).getD n d = v := by
  unfold Tab.set
  split
  · simp [Tab.getD, *]
  · simp

@[simp] theorem Tab.getD_set_ne {V : Type} [DecidableEq V] (d : V) (t : Tab V) {n m : Nat} (v : V) (h : m ≠ n) :
    (Tab.set d t n v).getD m d = t.getD m d := by
  unfold Tab.set
  split <;> simp [Tab.getD, h]

/-! ### Rising keys -/

/-- Every key of a table is above `k`. -/
def Tab.above {V : Type} (k : Nat) (t : Tab V) : Prop := ∀ e ∈ t, k < e.1

theorem Tab.sorted_cons {V : Type} (k : Nat) (x : V) (t : Tab V) :
    Tab.sorted ((k, x) :: t) = true ↔ Tab.above k t ∧ Tab.sorted t = true := by
  induction t generalizing k x with
  | nil => simp [Tab.sorted, Tab.above]
  | cons e t ih =>
    obtain ⟨j, y⟩ := e
    simp only [Tab.sorted, Bool.and_eq_true, decide_eq_true_eq]
    constructor
    · rintro ⟨h, hs⟩
      refine ⟨?_, hs⟩
      intro e he
      rcases List.mem_cons.1 he with rfl | he
      · exact h
      · exact Nat.lt_trans h (((ih j y).1 hs).1 e he)
    · rintro ⟨h, hs⟩
      exact ⟨h _ (List.mem_cons_self ..), hs⟩

theorem Tab.above_put {V : Type} (k : Nat) (t : Tab V) (n : Nat) (v : V) (h : Tab.above k t) (hn : k < n) :
    Tab.above k (t.put n v) := by
  induction t with
  | nil => intro e he; simp [Tab.put] at he; subst he; exact hn
  | cons e t ih =>
    obtain ⟨j, y⟩ := e
    have h1 : k < j := h (j, y) (List.mem_cons_self ..)
    have h2 : Tab.above k t := fun e he => h e (List.mem_cons_of_mem _ he)
    simp only [Tab.put]
    split
    · intro e he
      rcases List.mem_cons.1 he with rfl | he
      · exact hn
      · exact h e he
    · split
      · intro e he
        rcases List.mem_cons.1 he with rfl | he
        · exact hn
        · exact h2 e he
      · intro e he
        rcases List.mem_cons.1 he with rfl | he
        · exact h1
        · exact ih h2 e he

/-- Writing keeps the keys rising. -/
theorem Tab.sorted_put {V : Type} (t : Tab V) (n : Nat) (v : V) (h : t.sorted = true) : (t.put n v).sorted = true := by
  induction t with
  | nil => rfl
  | cons e t ih =>
    obtain ⟨k, x⟩ := e
    obtain ⟨ha, hs⟩ := (Tab.sorted_cons k x t).1 h
    simp only [Tab.put]
    split
    next hlt =>
      refine (Tab.sorted_cons n v _).2 ⟨?_, h⟩
      intro e he
      rcases List.mem_cons.1 he with rfl | he
      · exact hlt
      · exact Nat.lt_trans hlt (ha e he)
    next hlt =>
      split
      next heq => exact (Tab.sorted_cons n v t).2 ⟨heq ▸ ha, hs⟩
      next hne => exact (Tab.sorted_cons k x _).2 ⟨Tab.above_put k t n v ha (by omega), ih hs⟩

theorem Tab.mem_of_get? {V : Type} {t : Tab V} {n : Nat} {v : V} (h : t.get? n = some v) : (n, v) ∈ t := by
  induction t with
  | nil => simp at h
  | cons e t ih =>
    simp only [Tab.get?] at h
    split at h
    · rename_i hk
      obtain ⟨rfl⟩ := h
      exact hk ▸ List.mem_cons_self
    · exact List.mem_cons_of_mem _ (ih h)

theorem Tab.mem_erase {V : Type} {t : Tab V} {n : Nat} {e : Nat × V} (h : e ∈ t.erase n) : e ∈ t := by
  induction t with
  | nil => exact h
  | cons a t ih =>
    obtain ⟨k, x⟩ := a
    simp only [Tab.erase] at h
    split at h
    · exact List.mem_cons_of_mem _ (ih h)
    · rcases List.mem_cons.1 h with rfl | h
      · exact List.mem_cons_self ..
      · exact List.mem_cons_of_mem _ (ih h)

/-- Erasing keeps the keys rising. -/
theorem Tab.sorted_erase {V : Type} (t : Tab V) (n : Nat) (h : t.sorted = true) : (t.erase n).sorted = true := by
  induction t with
  | nil => rfl
  | cons e t ih =>
    obtain ⟨k, x⟩ := e
    obtain ⟨ha, hs⟩ := (Tab.sorted_cons k x t).1 h
    simp only [Tab.erase]
    split
    · exact ih hs
    · exact (Tab.sorted_cons k x _).2 ⟨fun e he => ha e (Tab.mem_erase he), ih hs⟩

theorem Tab.sorted_filter {V : Type} (t : Tab V) (p : Nat × V → Bool) (h : t.sorted = true) :
    Tab.sorted (List.filter p t) = true := by
  induction t with
  | nil => rfl
  | cons e t ih =>
    obtain ⟨k, x⟩ := e
    obtain ⟨ha, hs⟩ := (Tab.sorted_cons k x t).1 h
    rw [List.filter_cons]
    split
    · exact (Tab.sorted_cons k x _).2 ⟨fun e he => ha e (List.mem_filter.1 he).1, ih hs⟩
    · exact ih hs

theorem Tab.mem_put {V : Type} {t : Tab V} {n : Nat} {v : V} {e : Nat × V} (h : e ∈ t.put n v) : e = (n, v) ∨ e ∈ t := by
  induction t with
  | nil => simp [Tab.put] at h; exact .inl h
  | cons a t ih =>
    obtain ⟨k, x⟩ := a
    simp only [Tab.put] at h
    split at h
    · rcases List.mem_cons.1 h with h | h
      · exact .inl h
      · exact .inr h
    · split at h
      · rcases List.mem_cons.1 h with h | h
        · exact .inl h
        · exact .inr (List.mem_cons_of_mem _ h)
      · rcases List.mem_cons.1 h with h | h
        · exact .inr (h ▸ List.mem_cons_self ..)
        · rcases ih h with h | h
          · exact .inl h
          · exact .inr (List.mem_cons_of_mem _ h)

/-- Setting keeps the canonical form. -/
theorem Tab.canonical_set {V : Type} [DecidableEq V] (d : V) (t : Tab V) (n : Nat) (v : V)
    (h : Tab.canonical d t = true) : Tab.canonical d (Tab.set d t n v) = true := by
  simp only [Tab.canonical, Bool.and_eq_true, List.all_eq_true, decide_eq_true_eq] at h ⊢
  obtain ⟨hs, ha⟩ := h
  unfold Tab.set
  split
  · exact ⟨Tab.sorted_erase t n hs, fun e he => ha e (Tab.mem_erase he)⟩
  next hne =>
    refine ⟨Tab.sorted_put t n v hs, fun e he => ?_⟩
    rcases Tab.mem_put he with rfl | he
    · exact hne
    · exact ha e he

theorem Tab.canonical_filter {V : Type} [DecidableEq V] (d : V) (t : Tab V) (p : Nat × V → Bool)
    (h : Tab.canonical d t = true) : Tab.canonical d (List.filter p t) = true := by
  simp only [Tab.canonical, Bool.and_eq_true, List.all_eq_true, decide_eq_true_eq] at h ⊢
  exact ⟨Tab.sorted_filter t p h.1, fun e he => h.2 e (List.mem_filter.1 he).1⟩

@[simp] theorem Tab.canonical_nil {V : Type} [DecidableEq V] (d : V) : Tab.canonical d ([] : Tab V) = true := rfl

@[simp] theorem Tab.sorted_nil {V : Type} : Tab.sorted ([] : Tab V) = true := rfl

end Sys2Proof
end

