-- ==== Sys2Proof/Laws/State.lean ====
section
/-!
SUPPORT. One law for each field under each update of the state, and what the accessors read after them.
-/

namespace Sys2Proof.Machine

open Sys2Proof

/-! ### State.setFn -/

section
variable (s : State) (n : Nat) (x : Function)
@[simp] theorem State.setFn_phase : (s.setFn n x).phase = s.phase := rfl
@[simp] theorem State.setFn_rcv : (s.setFn n x).rcv = s.rcv := rfl
@[simp] theorem State.setFn_flashed : (s.setFn n x).flashed = s.flashed := rfl
@[simp] theorem State.setFn_measure : (s.setFn n x).measure = s.measure := rfl
@[simp] theorem State.setFn_svn : (s.setFn n x).svn = s.svn := rfl
@[simp] theorem State.setFn_time : (s.setFn n x).time = s.time := rfl
@[simp] theorem State.setFn_ppm : (s.setFn n x).ppm = s.ppm := rfl
@[simp] theorem State.setFn_pkg : (s.setFn n x).pkg = s.pkg := rfl
@[simp] theorem State.setFn_npkg : (s.setFn n x).npkg = s.npkg := rfl
@[simp] theorem State.setFn_master : (s.setFn n x).master = s.master := rfl
@[simp] theorem State.setFn_sync : (s.setFn n x).sync = s.sync := rfl
@[simp] theorem State.setFn_exchTime : (s.setFn n x).exchTime = s.exchTime := rfl
@[simp] theorem State.setFn_peers : (s.setFn n x).peers = s.peers := rfl
@[simp] theorem State.setFn_numVfs : (s.setFn n x).numVfs = s.numVfs := rfl
@[simp] theorem State.setFn_feato : (s.setFn n x).feato = s.feato := rfl
@[simp] theorem State.setFn_lksel : (s.setFn n x).lksel = s.lksel := rfl
@[simp] theorem State.setFn_links : (s.setFn n x).links = s.links := rfl
@[simp] theorem State.setFn_outgoing : (s.setFn n x).outgoing = s.outgoing := rfl
@[simp] theorem State.setFn_msix : (s.setFn n x).msix = s.msix := rfl
@[simp] theorem State.setFn_hostLog : (s.setFn n x).hostLog = s.hostLog := rfl
@[simp] theorem State.setFn_fns : (s.setFn n x).fns = s.fns.put n x := rfl
@[simp] theorem State.setFn_vfsel : (s.setFn n x).vfsel = s.vfsel := rfl
@[simp] theorem State.setFn_gqsel : (s.setFn n x).gqsel = s.gqsel := rfl
@[simp] theorem State.setFn_pool : (s.setFn n x).pool = s.pool := rfl
@[simp] theorem State.setFn_pcap : (s.setFn n x).pcap = s.pcap := rfl
@[simp] theorem State.setFn_meterStart : (s.setFn n x).meterStart = s.meterStart := rfl
@[simp] theorem State.setFn_turnFn : (s.setFn n x).turnFn = s.turnFn := rfl
@[simp] theorem State.setFn_cursorShared : (s.setFn n x).cursorShared = s.cursorShared := rfl
@[simp] theorem State.setFn_slots : (s.setFn n x).slots = s.slots := rfl
@[simp] theorem State.setFn_keys : (s.setFn n x).keys = s.keys := rfl
@[simp] theorem State.setFn_tapes : (s.setFn n x).tapes = s.tapes := rfl
@[simp] theorem State.setFn_insts : (s.setFn n x).insts = s.insts := rfl
@[simp] theorem State.setFn_credits : (s.setFn n x).credits = s.credits := rfl
@[simp] theorem State.setFn_windows : (s.setFn n x).windows = s.windows := rfl
@[simp] theorem State.setFn_dies : (s.setFn n x).dies = s.dies := rfl
@[simp] theorem State.setFn_memDies : (s.setFn n x).memDies = s.memDies := rfl
@[simp] theorem State.setFn_powerSteps : (s.setFn n x).powerSteps = s.powerSteps := rfl
@[simp] theorem State.setFn_cores : (s.setFn n x).cores = s.cores := rfl
@[simp] theorem State.setFn_quarters : (s.setFn n x).quarters = s.quarters := rfl
@[simp] theorem State.setFn_teams : (s.setFn n x).teams = s.teams := rfl
@[simp] theorem State.setFn_groups : (s.setFn n x).groups = s.groups := rfl
@[simp] theorem State.setFn_mem : (s.setFn n x).mem = s.mem := rfl
@[simp] theorem State.setFn_units : (s.setFn n x).units = s.units := rfl
@[simp] theorem State.setFn_epoch : (s.setFn n x).epoch = s.epoch := rfl
@[simp] theorem State.setFn_dir : (s.setFn n x).dir = s.dir := rfl
@[simp] theorem State.setFn_sectors : (s.setFn n x).sectors = s.sectors := rfl
@[simp] theorem State.setFn_tlb : (s.setFn n x).tlb = s.tlb := rfl
@[simp] theorem State.setFn_poison : (s.setFn n x).poison = s.poison := rfl
@[simp] theorem State.setFn_lost : (s.setFn n x).lost = s.lost := rfl
@[simp] theorem State.setFn_healed : (s.setFn n x).healed = s.healed := rfl
@[simp] theorem State.setFn_hostMem : (s.setFn n x).hostMem = s.hostMem := rfl
@[simp] theorem State.setFn_placed : (s.setFn n x).placed = s.placed := rfl
@[simp] theorem State.setFn_moving : (s.setFn n x).moving = s.moving := rfl
@[simp] theorem State.setFn_advice : (s.setFn n x).advice = s.advice := rfl
@[simp] theorem State.setFn_ops : (s.setFn n x).ops = s.ops := rfl
@[simp] theorem State.setFn_engs : (s.setFn n x).engs = s.engs := rfl
@[simp] theorem State.setFn_redSlots : (s.setFn n x).redSlots = s.redSlots := rfl
@[simp] theorem State.setFn_nodes : (s.setFn n x).nodes = s.nodes := rfl
@[simp] theorem State.setFn_flushes : (s.setFn n x).flushes = s.flushes := rfl
@[simp] theorem State.setFn_order : (s.setFn n x).order = s.order := rfl
@[simp] theorem State.setFn_services : (s.setFn n x).services = s.services := rfl
@[simp] theorem State.setFn_remoteTags : (s.setFn n x).remoteTags = s.remoteTags := rfl
@[simp] theorem State.setFn_agenda : (s.setFn n x).agenda = s.agenda := rfl
@[simp] theorem State.setFn_turns : (s.setFn n x).turns = s.turns := rfl
@[simp] theorem State.setFn_cur : (s.setFn n x).cur = s.cur := rfl
@[simp] theorem State.setFn_stalled : (s.setFn n x).stalled = s.stalled := rfl
@[simp] theorem State.setFn_free : (s.setFn n x).free = s.free := rfl
@[simp] theorem State.setFn_nextId : (s.setFn n x).nextId = s.nextId := rfl
end

/-! ### State.setSlot -/

section
variable (s : State) (n : Nat) (x : QSlot)
@[simp] theorem State.setSlot_phase : (s.setSlot n x).phase = s.phase := rfl
@[simp] theorem State.setSlot_rcv : (s.setSlot n x).rcv = s.rcv := rfl
@[simp] theorem State.setSlot_flashed : (s.setSlot n x).flashed = s.flashed := rfl
@[simp] theorem State.setSlot_measure : (s.setSlot n x).measure = s.measure := rfl
@[simp] theorem State.setSlot_svn : (s.setSlot n x).svn = s.svn := rfl
@[simp] theorem State.setSlot_time : (s.setSlot n x).time = s.time := rfl
@[simp] theorem State.setSlot_ppm : (s.setSlot n x).ppm = s.ppm := rfl
@[simp] theorem State.setSlot_pkg : (s.setSlot n x).pkg = s.pkg := rfl
@[simp] theorem State.setSlot_npkg : (s.setSlot n x).npkg = s.npkg := rfl
@[simp] theorem State.setSlot_master : (s.setSlot n x).master = s.master := rfl
@[simp] theorem State.setSlot_sync : (s.setSlot n x).sync = s.sync := rfl
@[simp] theorem State.setSlot_exchTime : (s.setSlot n x).exchTime = s.exchTime := rfl
@[simp] theorem State.setSlot_peers : (s.setSlot n x).peers = s.peers := rfl
@[simp] theorem State.setSlot_numVfs : (s.setSlot n x).numVfs = s.numVfs := rfl
@[simp] theorem State.setSlot_feato : (s.setSlot n x).feato = s.feato := rfl
@[simp] theorem State.setSlot_lksel : (s.setSlot n x).lksel = s.lksel := rfl
@[simp] theorem State.setSlot_links : (s.setSlot n x).links = s.links := rfl
@[simp] theorem State.setSlot_outgoing : (s.setSlot n x).outgoing = s.outgoing := rfl
@[simp] theorem State.setSlot_msix : (s.setSlot n x).msix = s.msix := rfl
@[simp] theorem State.setSlot_hostLog : (s.setSlot n x).hostLog = s.hostLog := rfl
@[simp] theorem State.setSlot_fns : (s.setSlot n x).fns = s.fns := rfl
@[simp] theorem State.setSlot_vfsel : (s.setSlot n x).vfsel = s.vfsel := rfl
@[simp] theorem State.setSlot_gqsel : (s.setSlot n x).gqsel = s.gqsel := rfl
@[simp] theorem State.setSlot_pool : (s.setSlot n x).pool = s.pool := rfl
@[simp] theorem State.setSlot_pcap : (s.setSlot n x).pcap = s.pcap := rfl
@[simp] theorem State.setSlot_meterStart : (s.setSlot n x).meterStart = s.meterStart := rfl
@[simp] theorem State.setSlot_turnFn : (s.setSlot n x).turnFn = s.turnFn := rfl
@[simp] theorem State.setSlot_cursorShared : (s.setSlot n x).cursorShared = s.cursorShared := rfl
@[simp] theorem State.setSlot_slots : (s.setSlot n x).slots = s.slots.put n x := rfl
@[simp] theorem State.setSlot_keys : (s.setSlot n x).keys = s.keys := rfl
@[simp] theorem State.setSlot_tapes : (s.setSlot n x).tapes = s.tapes := rfl
@[simp] theorem State.setSlot_insts : (s.setSlot n x).insts = s.insts := rfl
@[simp] theorem State.setSlot_credits : (s.setSlot n x).credits = s.credits := rfl
@[simp] theorem State.setSlot_windows : (s.setSlot n x).windows = s.windows := rfl
@[simp] theorem State.setSlot_dies : (s.setSlot n x).dies = s.dies := rfl
@[simp] theorem State.setSlot_memDies : (s.setSlot n x).memDies = s.memDies := rfl
@[simp] theorem State.setSlot_powerSteps : (s.setSlot n x).powerSteps = s.powerSteps := rfl
@[simp] theorem State.setSlot_cores : (s.setSlot n x).cores = s.cores := rfl
@[simp] theorem State.setSlot_quarters : (s.setSlot n x).quarters = s.quarters := rfl
@[simp] theorem State.setSlot_teams : (s.setSlot n x).teams = s.teams := rfl
@[simp] theorem State.setSlot_groups : (s.setSlot n x).groups = s.groups := rfl
@[simp] theorem State.setSlot_mem : (s.setSlot n x).mem = s.mem := rfl
@[simp] theorem State.setSlot_units : (s.setSlot n x).units = s.units := rfl
@[simp] theorem State.setSlot_epoch : (s.setSlot n x).epoch = s.epoch := rfl
@[simp] theorem State.setSlot_dir : (s.setSlot n x).dir = s.dir := rfl
@[simp] theorem State.setSlot_sectors : (s.setSlot n x).sectors = s.sectors := rfl
@[simp] theorem State.setSlot_tlb : (s.setSlot n x).tlb = s.tlb := rfl
@[simp] theorem State.setSlot_poison : (s.setSlot n x).poison = s.poison := rfl
@[simp] theorem State.setSlot_lost : (s.setSlot n x).lost = s.lost := rfl
@[simp] theorem State.setSlot_healed : (s.setSlot n x).healed = s.healed := rfl
@[simp] theorem State.setSlot_hostMem : (s.setSlot n x).hostMem = s.hostMem := rfl
@[simp] theorem State.setSlot_placed : (s.setSlot n x).placed = s.placed := rfl
@[simp] theorem State.setSlot_moving : (s.setSlot n x).moving = s.moving := rfl
@[simp] theorem State.setSlot_advice : (s.setSlot n x).advice = s.advice := rfl
@[simp] theorem State.setSlot_ops : (s.setSlot n x).ops = s.ops := rfl
@[simp] theorem State.setSlot_engs : (s.setSlot n x).engs = s.engs := rfl
@[simp] theorem State.setSlot_redSlots : (s.setSlot n x).redSlots = s.redSlots := rfl
@[simp] theorem State.setSlot_nodes : (s.setSlot n x).nodes = s.nodes := rfl
@[simp] theorem State.setSlot_flushes : (s.setSlot n x).flushes = s.flushes := rfl
@[simp] theorem State.setSlot_order : (s.setSlot n x).order = s.order := rfl
@[simp] theorem State.setSlot_services : (s.setSlot n x).services = s.services := rfl
@[simp] theorem State.setSlot_remoteTags : (s.setSlot n x).remoteTags = s.remoteTags := rfl
@[simp] theorem State.setSlot_agenda : (s.setSlot n x).agenda = s.agenda := rfl
@[simp] theorem State.setSlot_turns : (s.setSlot n x).turns = s.turns := rfl
@[simp] theorem State.setSlot_cur : (s.setSlot n x).cur = s.cur := rfl
@[simp] theorem State.setSlot_stalled : (s.setSlot n x).stalled = s.stalled := rfl
@[simp] theorem State.setSlot_free : (s.setSlot n x).free = s.free := rfl
@[simp] theorem State.setSlot_nextId : (s.setSlot n x).nextId = s.nextId := rfl
end

/-! ### State.setKey -/

section
variable (s : State) (n : Nat) (x : KeySlot)
@[simp] theorem State.setKey_phase : (s.setKey n x).phase = s.phase := rfl
@[simp] theorem State.setKey_rcv : (s.setKey n x).rcv = s.rcv := rfl
@[simp] theorem State.setKey_flashed : (s.setKey n x).flashed = s.flashed := rfl
@[simp] theorem State.setKey_measure : (s.setKey n x).measure = s.measure := rfl
@[simp] theorem State.setKey_svn : (s.setKey n x).svn = s.svn := rfl
@[simp] theorem State.setKey_time : (s.setKey n x).time = s.time := rfl
@[simp] theorem State.setKey_ppm : (s.setKey n x).ppm = s.ppm := rfl
@[simp] theorem State.setKey_pkg : (s.setKey n x).pkg = s.pkg := rfl
@[simp] theorem State.setKey_npkg : (s.setKey n x).npkg = s.npkg := rfl
@[simp] theorem State.setKey_master : (s.setKey n x).master = s.master := rfl
@[simp] theorem State.setKey_sync : (s.setKey n x).sync = s.sync := rfl
@[simp] theorem State.setKey_exchTime : (s.setKey n x).exchTime = s.exchTime := rfl
@[simp] theorem State.setKey_peers : (s.setKey n x).peers = s.peers := rfl
@[simp] theorem State.setKey_numVfs : (s.setKey n x).numVfs = s.numVfs := rfl
@[simp] theorem State.setKey_feato : (s.setKey n x).feato = s.feato := rfl
@[simp] theorem State.setKey_lksel : (s.setKey n x).lksel = s.lksel := rfl
@[simp] theorem State.setKey_links : (s.setKey n x).links = s.links := rfl
@[simp] theorem State.setKey_outgoing : (s.setKey n x).outgoing = s.outgoing := rfl
@[simp] theorem State.setKey_msix : (s.setKey n x).msix = s.msix := rfl
@[simp] theorem State.setKey_hostLog : (s.setKey n x).hostLog = s.hostLog := rfl
@[simp] theorem State.setKey_fns : (s.setKey n x).fns = s.fns := rfl
@[simp] theorem State.setKey_vfsel : (s.setKey n x).vfsel = s.vfsel := rfl
@[simp] theorem State.setKey_gqsel : (s.setKey n x).gqsel = s.gqsel := rfl
@[simp] theorem State.setKey_pool : (s.setKey n x).pool = s.pool := rfl
@[simp] theorem State.setKey_pcap : (s.setKey n x).pcap = s.pcap := rfl
@[simp] theorem State.setKey_meterStart : (s.setKey n x).meterStart = s.meterStart := rfl
@[simp] theorem State.setKey_turnFn : (s.setKey n x).turnFn = s.turnFn := rfl
@[simp] theorem State.setKey_cursorShared : (s.setKey n x).cursorShared = s.cursorShared := rfl
@[simp] theorem State.setKey_slots : (s.setKey n x).slots = s.slots := rfl
@[simp] theorem State.setKey_keys : (s.setKey n x).keys = s.keys.put n x := rfl
@[simp] theorem State.setKey_tapes : (s.setKey n x).tapes = s.tapes := rfl
@[simp] theorem State.setKey_insts : (s.setKey n x).insts = s.insts := rfl
@[simp] theorem State.setKey_credits : (s.setKey n x).credits = s.credits := rfl
@[simp] theorem State.setKey_windows : (s.setKey n x).windows = s.windows := rfl
@[simp] theorem State.setKey_dies : (s.setKey n x).dies = s.dies := rfl
@[simp] theorem State.setKey_memDies : (s.setKey n x).memDies = s.memDies := rfl
@[simp] theorem State.setKey_powerSteps : (s.setKey n x).powerSteps = s.powerSteps := rfl
@[simp] theorem State.setKey_cores : (s.setKey n x).cores = s.cores := rfl
@[simp] theorem State.setKey_quarters : (s.setKey n x).quarters = s.quarters := rfl
@[simp] theorem State.setKey_teams : (s.setKey n x).teams = s.teams := rfl
@[simp] theorem State.setKey_groups : (s.setKey n x).groups = s.groups := rfl
@[simp] theorem State.setKey_mem : (s.setKey n x).mem = s.mem := rfl
@[simp] theorem State.setKey_units : (s.setKey n x).units = s.units := rfl
@[simp] theorem State.setKey_epoch : (s.setKey n x).epoch = s.epoch := rfl
@[simp] theorem State.setKey_dir : (s.setKey n x).dir = s.dir := rfl
@[simp] theorem State.setKey_sectors : (s.setKey n x).sectors = s.sectors := rfl
@[simp] theorem State.setKey_tlb : (s.setKey n x).tlb = s.tlb := rfl
@[simp] theorem State.setKey_poison : (s.setKey n x).poison = s.poison := rfl
@[simp] theorem State.setKey_lost : (s.setKey n x).lost = s.lost := rfl
@[simp] theorem State.setKey_healed : (s.setKey n x).healed = s.healed := rfl
@[simp] theorem State.setKey_hostMem : (s.setKey n x).hostMem = s.hostMem := rfl
@[simp] theorem State.setKey_placed : (s.setKey n x).placed = s.placed := rfl
@[simp] theorem State.setKey_moving : (s.setKey n x).moving = s.moving := rfl
@[simp] theorem State.setKey_advice : (s.setKey n x).advice = s.advice := rfl
@[simp] theorem State.setKey_ops : (s.setKey n x).ops = s.ops := rfl
@[simp] theorem State.setKey_engs : (s.setKey n x).engs = s.engs := rfl
@[simp] theorem State.setKey_redSlots : (s.setKey n x).redSlots = s.redSlots := rfl
@[simp] theorem State.setKey_nodes : (s.setKey n x).nodes = s.nodes := rfl
@[simp] theorem State.setKey_flushes : (s.setKey n x).flushes = s.flushes := rfl
@[simp] theorem State.setKey_order : (s.setKey n x).order = s.order := rfl
@[simp] theorem State.setKey_services : (s.setKey n x).services = s.services := rfl
@[simp] theorem State.setKey_remoteTags : (s.setKey n x).remoteTags = s.remoteTags := rfl
@[simp] theorem State.setKey_agenda : (s.setKey n x).agenda = s.agenda := rfl
@[simp] theorem State.setKey_turns : (s.setKey n x).turns = s.turns := rfl
@[simp] theorem State.setKey_cur : (s.setKey n x).cur = s.cur := rfl
@[simp] theorem State.setKey_stalled : (s.setKey n x).stalled = s.stalled := rfl
@[simp] theorem State.setKey_free : (s.setKey n x).free = s.free := rfl
@[simp] theorem State.setKey_nextId : (s.setKey n x).nextId = s.nextId := rfl
end

/-! ### State.setCore -/

section
variable (s : State) (n : Nat) (x : Core)
@[simp] theorem State.setCore_phase : (s.setCore n x).phase = s.phase := rfl
@[simp] theorem State.setCore_rcv : (s.setCore n x).rcv = s.rcv := rfl
@[simp] theorem State.setCore_flashed : (s.setCore n x).flashed = s.flashed := rfl
@[simp] theorem State.setCore_measure : (s.setCore n x).measure = s.measure := rfl
@[simp] theorem State.setCore_svn : (s.setCore n x).svn = s.svn := rfl
@[simp] theorem State.setCore_time : (s.setCore n x).time = s.time := rfl
@[simp] theorem State.setCore_ppm : (s.setCore n x).ppm = s.ppm := rfl
@[simp] theorem State.setCore_pkg : (s.setCore n x).pkg = s.pkg := rfl
@[simp] theorem State.setCore_npkg : (s.setCore n x).npkg = s.npkg := rfl
@[simp] theorem State.setCore_master : (s.setCore n x).master = s.master := rfl
@[simp] theorem State.setCore_sync : (s.setCore n x).sync = s.sync := rfl
@[simp] theorem State.setCore_exchTime : (s.setCore n x).exchTime = s.exchTime := rfl
@[simp] theorem State.setCore_peers : (s.setCore n x).peers = s.peers := rfl
@[simp] theorem State.setCore_numVfs : (s.setCore n x).numVfs = s.numVfs := rfl
@[simp] theorem State.setCore_feato : (s.setCore n x).feato = s.feato := rfl
@[simp] theorem State.setCore_lksel : (s.setCore n x).lksel = s.lksel := rfl
@[simp] theorem State.setCore_links : (s.setCore n x).links = s.links := rfl
@[simp] theorem State.setCore_outgoing : (s.setCore n x).outgoing = s.outgoing := rfl
@[simp] theorem State.setCore_msix : (s.setCore n x).msix = s.msix := rfl
@[simp] theorem State.setCore_hostLog : (s.setCore n x).hostLog = s.hostLog := rfl
@[simp] theorem State.setCore_fns : (s.setCore n x).fns = s.fns := rfl
@[simp] theorem State.setCore_vfsel : (s.setCore n x).vfsel = s.vfsel := rfl
@[simp] theorem State.setCore_gqsel : (s.setCore n x).gqsel = s.gqsel := rfl
@[simp] theorem State.setCore_pool : (s.setCore n x).pool = s.pool := rfl
@[simp] theorem State.setCore_pcap : (s.setCore n x).pcap = s.pcap := rfl
@[simp] theorem State.setCore_meterStart : (s.setCore n x).meterStart = s.meterStart := rfl
@[simp] theorem State.setCore_turnFn : (s.setCore n x).turnFn = s.turnFn := rfl
@[simp] theorem State.setCore_cursorShared : (s.setCore n x).cursorShared = s.cursorShared := rfl
@[simp] theorem State.setCore_slots : (s.setCore n x).slots = s.slots := rfl
@[simp] theorem State.setCore_keys : (s.setCore n x).keys = s.keys := rfl
@[simp] theorem State.setCore_tapes : (s.setCore n x).tapes = s.tapes := rfl
@[simp] theorem State.setCore_insts : (s.setCore n x).insts = s.insts := rfl
@[simp] theorem State.setCore_credits : (s.setCore n x).credits = s.credits := rfl
@[simp] theorem State.setCore_windows : (s.setCore n x).windows = s.windows := rfl
@[simp] theorem State.setCore_dies : (s.setCore n x).dies = s.dies := rfl
@[simp] theorem State.setCore_memDies : (s.setCore n x).memDies = s.memDies := rfl
@[simp] theorem State.setCore_powerSteps : (s.setCore n x).powerSteps = s.powerSteps := rfl
@[simp] theorem State.setCore_cores : (s.setCore n x).cores = s.cores.put n x := rfl
@[simp] theorem State.setCore_quarters : (s.setCore n x).quarters = s.quarters := rfl
@[simp] theorem State.setCore_teams : (s.setCore n x).teams = s.teams := rfl
@[simp] theorem State.setCore_groups : (s.setCore n x).groups = s.groups := rfl
@[simp] theorem State.setCore_mem : (s.setCore n x).mem = s.mem := rfl
@[simp] theorem State.setCore_units : (s.setCore n x).units = s.units := rfl
@[simp] theorem State.setCore_epoch : (s.setCore n x).epoch = s.epoch := rfl
@[simp] theorem State.setCore_dir : (s.setCore n x).dir = s.dir := rfl
@[simp] theorem State.setCore_sectors : (s.setCore n x).sectors = s.sectors := rfl
@[simp] theorem State.setCore_tlb : (s.setCore n x).tlb = s.tlb := rfl
@[simp] theorem State.setCore_poison : (s.setCore n x).poison = s.poison := rfl
@[simp] theorem State.setCore_lost : (s.setCore n x).lost = s.lost := rfl
@[simp] theorem State.setCore_healed : (s.setCore n x).healed = s.healed := rfl
@[simp] theorem State.setCore_hostMem : (s.setCore n x).hostMem = s.hostMem := rfl
@[simp] theorem State.setCore_placed : (s.setCore n x).placed = s.placed := rfl
@[simp] theorem State.setCore_moving : (s.setCore n x).moving = s.moving := rfl
@[simp] theorem State.setCore_advice : (s.setCore n x).advice = s.advice := rfl
@[simp] theorem State.setCore_ops : (s.setCore n x).ops = s.ops := rfl
@[simp] theorem State.setCore_engs : (s.setCore n x).engs = s.engs := rfl
@[simp] theorem State.setCore_redSlots : (s.setCore n x).redSlots = s.redSlots := rfl
@[simp] theorem State.setCore_nodes : (s.setCore n x).nodes = s.nodes := rfl
@[simp] theorem State.setCore_flushes : (s.setCore n x).flushes = s.flushes := rfl
@[simp] theorem State.setCore_order : (s.setCore n x).order = s.order := rfl
@[simp] theorem State.setCore_services : (s.setCore n x).services = s.services := rfl
@[simp] theorem State.setCore_remoteTags : (s.setCore n x).remoteTags = s.remoteTags := rfl
@[simp] theorem State.setCore_agenda : (s.setCore n x).agenda = s.agenda := rfl
@[simp] theorem State.setCore_turns : (s.setCore n x).turns = s.turns := rfl
@[simp] theorem State.setCore_cur : (s.setCore n x).cur = s.cur := rfl
@[simp] theorem State.setCore_stalled : (s.setCore n x).stalled = s.stalled := rfl
@[simp] theorem State.setCore_free : (s.setCore n x).free = s.free := rfl
@[simp] theorem State.setCore_nextId : (s.setCore n x).nextId = s.nextId := rfl
end

/-! ### State.setDie -/

section
variable (s : State) (n : Nat) (x : Die)
@[simp] theorem State.setDie_phase : (s.setDie n x).phase = s.phase := rfl
@[simp] theorem State.setDie_rcv : (s.setDie n x).rcv = s.rcv := rfl
@[simp] theorem State.setDie_flashed : (s.setDie n x).flashed = s.flashed := rfl
@[simp] theorem State.setDie_measure : (s.setDie n x).measure = s.measure := rfl
@[simp] theorem State.setDie_svn : (s.setDie n x).svn = s.svn := rfl
@[simp] theorem State.setDie_time : (s.setDie n x).time = s.time := rfl
@[simp] theorem State.setDie_ppm : (s.setDie n x).ppm = s.ppm := rfl
@[simp] theorem State.setDie_pkg : (s.setDie n x).pkg = s.pkg := rfl
@[simp] theorem State.setDie_npkg : (s.setDie n x).npkg = s.npkg := rfl
@[simp] theorem State.setDie_master : (s.setDie n x).master = s.master := rfl
@[simp] theorem State.setDie_sync : (s.setDie n x).sync = s.sync := rfl
@[simp] theorem State.setDie_exchTime : (s.setDie n x).exchTime = s.exchTime := rfl
@[simp] theorem State.setDie_peers : (s.setDie n x).peers = s.peers := rfl
@[simp] theorem State.setDie_numVfs : (s.setDie n x).numVfs = s.numVfs := rfl
@[simp] theorem State.setDie_feato : (s.setDie n x).feato = s.feato := rfl
@[simp] theorem State.setDie_lksel : (s.setDie n x).lksel = s.lksel := rfl
@[simp] theorem State.setDie_links : (s.setDie n x).links = s.links := rfl
@[simp] theorem State.setDie_outgoing : (s.setDie n x).outgoing = s.outgoing := rfl
@[simp] theorem State.setDie_msix : (s.setDie n x).msix = s.msix := rfl
@[simp] theorem State.setDie_hostLog : (s.setDie n x).hostLog = s.hostLog := rfl
@[simp] theorem State.setDie_fns : (s.setDie n x).fns = s.fns := rfl
@[simp] theorem State.setDie_vfsel : (s.setDie n x).vfsel = s.vfsel := rfl
@[simp] theorem State.setDie_gqsel : (s.setDie n x).gqsel = s.gqsel := rfl
@[simp] theorem State.setDie_pool : (s.setDie n x).pool = s.pool := rfl
@[simp] theorem State.setDie_pcap : (s.setDie n x).pcap = s.pcap := rfl
@[simp] theorem State.setDie_meterStart : (s.setDie n x).meterStart = s.meterStart := rfl
@[simp] theorem State.setDie_turnFn : (s.setDie n x).turnFn = s.turnFn := rfl
@[simp] theorem State.setDie_cursorShared : (s.setDie n x).cursorShared = s.cursorShared := rfl
@[simp] theorem State.setDie_slots : (s.setDie n x).slots = s.slots := rfl
@[simp] theorem State.setDie_keys : (s.setDie n x).keys = s.keys := rfl
@[simp] theorem State.setDie_tapes : (s.setDie n x).tapes = s.tapes := rfl
@[simp] theorem State.setDie_insts : (s.setDie n x).insts = s.insts := rfl
@[simp] theorem State.setDie_credits : (s.setDie n x).credits = s.credits := rfl
@[simp] theorem State.setDie_windows : (s.setDie n x).windows = s.windows := rfl
@[simp] theorem State.setDie_dies : (s.setDie n x).dies = s.dies.put n x := rfl
@[simp] theorem State.setDie_memDies : (s.setDie n x).memDies = s.memDies := rfl
@[simp] theorem State.setDie_powerSteps : (s.setDie n x).powerSteps = s.powerSteps := rfl
@[simp] theorem State.setDie_cores : (s.setDie n x).cores = s.cores := rfl
@[simp] theorem State.setDie_quarters : (s.setDie n x).quarters = s.quarters := rfl
@[simp] theorem State.setDie_teams : (s.setDie n x).teams = s.teams := rfl
@[simp] theorem State.setDie_groups : (s.setDie n x).groups = s.groups := rfl
@[simp] theorem State.setDie_mem : (s.setDie n x).mem = s.mem := rfl
@[simp] theorem State.setDie_units : (s.setDie n x).units = s.units := rfl
@[simp] theorem State.setDie_epoch : (s.setDie n x).epoch = s.epoch := rfl
@[simp] theorem State.setDie_dir : (s.setDie n x).dir = s.dir := rfl
@[simp] theorem State.setDie_sectors : (s.setDie n x).sectors = s.sectors := rfl
@[simp] theorem State.setDie_tlb : (s.setDie n x).tlb = s.tlb := rfl
@[simp] theorem State.setDie_poison : (s.setDie n x).poison = s.poison := rfl
@[simp] theorem State.setDie_lost : (s.setDie n x).lost = s.lost := rfl
@[simp] theorem State.setDie_healed : (s.setDie n x).healed = s.healed := rfl
@[simp] theorem State.setDie_hostMem : (s.setDie n x).hostMem = s.hostMem := rfl
@[simp] theorem State.setDie_placed : (s.setDie n x).placed = s.placed := rfl
@[simp] theorem State.setDie_moving : (s.setDie n x).moving = s.moving := rfl
@[simp] theorem State.setDie_advice : (s.setDie n x).advice = s.advice := rfl
@[simp] theorem State.setDie_ops : (s.setDie n x).ops = s.ops := rfl
@[simp] theorem State.setDie_engs : (s.setDie n x).engs = s.engs := rfl
@[simp] theorem State.setDie_redSlots : (s.setDie n x).redSlots = s.redSlots := rfl
@[simp] theorem State.setDie_nodes : (s.setDie n x).nodes = s.nodes := rfl
@[simp] theorem State.setDie_flushes : (s.setDie n x).flushes = s.flushes := rfl
@[simp] theorem State.setDie_order : (s.setDie n x).order = s.order := rfl
@[simp] theorem State.setDie_services : (s.setDie n x).services = s.services := rfl
@[simp] theorem State.setDie_remoteTags : (s.setDie n x).remoteTags = s.remoteTags := rfl
@[simp] theorem State.setDie_agenda : (s.setDie n x).agenda = s.agenda := rfl
@[simp] theorem State.setDie_turns : (s.setDie n x).turns = s.turns := rfl
@[simp] theorem State.setDie_cur : (s.setDie n x).cur = s.cur := rfl
@[simp] theorem State.setDie_stalled : (s.setDie n x).stalled = s.stalled := rfl
@[simp] theorem State.setDie_free : (s.setDie n x).free = s.free := rfl
@[simp] theorem State.setDie_nextId : (s.setDie n x).nextId = s.nextId := rfl
end

/-! ### State.setLink -/

section
variable (s : State) (n : Nat) (x : Link)
@[simp] theorem State.setLink_phase : (s.setLink n x).phase = s.phase := rfl
@[simp] theorem State.setLink_rcv : (s.setLink n x).rcv = s.rcv := rfl
@[simp] theorem State.setLink_flashed : (s.setLink n x).flashed = s.flashed := rfl
@[simp] theorem State.setLink_measure : (s.setLink n x).measure = s.measure := rfl
@[simp] theorem State.setLink_svn : (s.setLink n x).svn = s.svn := rfl
@[simp] theorem State.setLink_time : (s.setLink n x).time = s.time := rfl
@[simp] theorem State.setLink_ppm : (s.setLink n x).ppm = s.ppm := rfl
@[simp] theorem State.setLink_pkg : (s.setLink n x).pkg = s.pkg := rfl
@[simp] theorem State.setLink_npkg : (s.setLink n x).npkg = s.npkg := rfl
@[simp] theorem State.setLink_master : (s.setLink n x).master = s.master := rfl
@[simp] theorem State.setLink_sync : (s.setLink n x).sync = s.sync := rfl
@[simp] theorem State.setLink_exchTime : (s.setLink n x).exchTime = s.exchTime := rfl
@[simp] theorem State.setLink_peers : (s.setLink n x).peers = s.peers := rfl
@[simp] theorem State.setLink_numVfs : (s.setLink n x).numVfs = s.numVfs := rfl
@[simp] theorem State.setLink_feato : (s.setLink n x).feato = s.feato := rfl
@[simp] theorem State.setLink_lksel : (s.setLink n x).lksel = s.lksel := rfl
@[simp] theorem State.setLink_links : (s.setLink n x).links = s.links.put n x := rfl
@[simp] theorem State.setLink_outgoing : (s.setLink n x).outgoing = s.outgoing := rfl
@[simp] theorem State.setLink_msix : (s.setLink n x).msix = s.msix := rfl
@[simp] theorem State.setLink_hostLog : (s.setLink n x).hostLog = s.hostLog := rfl
@[simp] theorem State.setLink_fns : (s.setLink n x).fns = s.fns := rfl
@[simp] theorem State.setLink_vfsel : (s.setLink n x).vfsel = s.vfsel := rfl
@[simp] theorem State.setLink_gqsel : (s.setLink n x).gqsel = s.gqsel := rfl
@[simp] theorem State.setLink_pool : (s.setLink n x).pool = s.pool := rfl
@[simp] theorem State.setLink_pcap : (s.setLink n x).pcap = s.pcap := rfl
@[simp] theorem State.setLink_meterStart : (s.setLink n x).meterStart = s.meterStart := rfl
@[simp] theorem State.setLink_turnFn : (s.setLink n x).turnFn = s.turnFn := rfl
@[simp] theorem State.setLink_cursorShared : (s.setLink n x).cursorShared = s.cursorShared := rfl
@[simp] theorem State.setLink_slots : (s.setLink n x).slots = s.slots := rfl
@[simp] theorem State.setLink_keys : (s.setLink n x).keys = s.keys := rfl
@[simp] theorem State.setLink_tapes : (s.setLink n x).tapes = s.tapes := rfl
@[simp] theorem State.setLink_insts : (s.setLink n x).insts = s.insts := rfl
@[simp] theorem State.setLink_credits : (s.setLink n x).credits = s.credits := rfl
@[simp] theorem State.setLink_windows : (s.setLink n x).windows = s.windows := rfl
@[simp] theorem State.setLink_dies : (s.setLink n x).dies = s.dies := rfl
@[simp] theorem State.setLink_memDies : (s.setLink n x).memDies = s.memDies := rfl
@[simp] theorem State.setLink_powerSteps : (s.setLink n x).powerSteps = s.powerSteps := rfl
@[simp] theorem State.setLink_cores : (s.setLink n x).cores = s.cores := rfl
@[simp] theorem State.setLink_quarters : (s.setLink n x).quarters = s.quarters := rfl
@[simp] theorem State.setLink_teams : (s.setLink n x).teams = s.teams := rfl
@[simp] theorem State.setLink_groups : (s.setLink n x).groups = s.groups := rfl
@[simp] theorem State.setLink_mem : (s.setLink n x).mem = s.mem := rfl
@[simp] theorem State.setLink_units : (s.setLink n x).units = s.units := rfl
@[simp] theorem State.setLink_epoch : (s.setLink n x).epoch = s.epoch := rfl
@[simp] theorem State.setLink_dir : (s.setLink n x).dir = s.dir := rfl
@[simp] theorem State.setLink_sectors : (s.setLink n x).sectors = s.sectors := rfl
@[simp] theorem State.setLink_tlb : (s.setLink n x).tlb = s.tlb := rfl
@[simp] theorem State.setLink_poison : (s.setLink n x).poison = s.poison := rfl
@[simp] theorem State.setLink_lost : (s.setLink n x).lost = s.lost := rfl
@[simp] theorem State.setLink_healed : (s.setLink n x).healed = s.healed := rfl
@[simp] theorem State.setLink_hostMem : (s.setLink n x).hostMem = s.hostMem := rfl
@[simp] theorem State.setLink_placed : (s.setLink n x).placed = s.placed := rfl
@[simp] theorem State.setLink_moving : (s.setLink n x).moving = s.moving := rfl
@[simp] theorem State.setLink_advice : (s.setLink n x).advice = s.advice := rfl
@[simp] theorem State.setLink_ops : (s.setLink n x).ops = s.ops := rfl
@[simp] theorem State.setLink_engs : (s.setLink n x).engs = s.engs := rfl
@[simp] theorem State.setLink_redSlots : (s.setLink n x).redSlots = s.redSlots := rfl
@[simp] theorem State.setLink_nodes : (s.setLink n x).nodes = s.nodes := rfl
@[simp] theorem State.setLink_flushes : (s.setLink n x).flushes = s.flushes := rfl
@[simp] theorem State.setLink_order : (s.setLink n x).order = s.order := rfl
@[simp] theorem State.setLink_services : (s.setLink n x).services = s.services := rfl
@[simp] theorem State.setLink_remoteTags : (s.setLink n x).remoteTags = s.remoteTags := rfl
@[simp] theorem State.setLink_agenda : (s.setLink n x).agenda = s.agenda := rfl
@[simp] theorem State.setLink_turns : (s.setLink n x).turns = s.turns := rfl
@[simp] theorem State.setLink_cur : (s.setLink n x).cur = s.cur := rfl
@[simp] theorem State.setLink_stalled : (s.setLink n x).stalled = s.stalled := rfl
@[simp] theorem State.setLink_free : (s.setLink n x).free = s.free := rfl
@[simp] theorem State.setLink_nextId : (s.setLink n x).nextId = s.nextId := rfl
end

/-! ### State.setTeam -/

section
variable (s : State) (n : Nat) (x : Team)
@[simp] theorem State.setTeam_phase : (s.setTeam n x).phase = s.phase := rfl
@[simp] theorem State.setTeam_rcv : (s.setTeam n x).rcv = s.rcv := rfl
@[simp] theorem State.setTeam_flashed : (s.setTeam n x).flashed = s.flashed := rfl
@[simp] theorem State.setTeam_measure : (s.setTeam n x).measure = s.measure := rfl
@[simp] theorem State.setTeam_svn : (s.setTeam n x).svn = s.svn := rfl
@[simp] theorem State.setTeam_time : (s.setTeam n x).time = s.time := rfl
@[simp] theorem State.setTeam_ppm : (s.setTeam n x).ppm = s.ppm := rfl
@[simp] theorem State.setTeam_pkg : (s.setTeam n x).pkg = s.pkg := rfl
@[simp] theorem State.setTeam_npkg : (s.setTeam n x).npkg = s.npkg := rfl
@[simp] theorem State.setTeam_master : (s.setTeam n x).master = s.master := rfl
@[simp] theorem State.setTeam_sync : (s.setTeam n x).sync = s.sync := rfl
@[simp] theorem State.setTeam_exchTime : (s.setTeam n x).exchTime = s.exchTime := rfl
@[simp] theorem State.setTeam_peers : (s.setTeam n x).peers = s.peers := rfl
@[simp] theorem State.setTeam_numVfs : (s.setTeam n x).numVfs = s.numVfs := rfl
@[simp] theorem State.setTeam_feato : (s.setTeam n x).feato = s.feato := rfl
@[simp] theorem State.setTeam_lksel : (s.setTeam n x).lksel = s.lksel := rfl
@[simp] theorem State.setTeam_links : (s.setTeam n x).links = s.links := rfl
@[simp] theorem State.setTeam_outgoing : (s.setTeam n x).outgoing = s.outgoing := rfl
@[simp] theorem State.setTeam_msix : (s.setTeam n x).msix = s.msix := rfl
@[simp] theorem State.setTeam_hostLog : (s.setTeam n x).hostLog = s.hostLog := rfl
@[simp] theorem State.setTeam_fns : (s.setTeam n x).fns = s.fns := rfl
@[simp] theorem State.setTeam_vfsel : (s.setTeam n x).vfsel = s.vfsel := rfl
@[simp] theorem State.setTeam_gqsel : (s.setTeam n x).gqsel = s.gqsel := rfl
@[simp] theorem State.setTeam_pool : (s.setTeam n x).pool = s.pool := rfl
@[simp] theorem State.setTeam_pcap : (s.setTeam n x).pcap = s.pcap := rfl
@[simp] theorem State.setTeam_meterStart : (s.setTeam n x).meterStart = s.meterStart := rfl
@[simp] theorem State.setTeam_turnFn : (s.setTeam n x).turnFn = s.turnFn := rfl
@[simp] theorem State.setTeam_cursorShared : (s.setTeam n x).cursorShared = s.cursorShared := rfl
@[simp] theorem State.setTeam_slots : (s.setTeam n x).slots = s.slots := rfl
@[simp] theorem State.setTeam_keys : (s.setTeam n x).keys = s.keys := rfl
@[simp] theorem State.setTeam_tapes : (s.setTeam n x).tapes = s.tapes := rfl
@[simp] theorem State.setTeam_insts : (s.setTeam n x).insts = s.insts := rfl
@[simp] theorem State.setTeam_credits : (s.setTeam n x).credits = s.credits := rfl
@[simp] theorem State.setTeam_windows : (s.setTeam n x).windows = s.windows := rfl
@[simp] theorem State.setTeam_dies : (s.setTeam n x).dies = s.dies := rfl
@[simp] theorem State.setTeam_memDies : (s.setTeam n x).memDies = s.memDies := rfl
@[simp] theorem State.setTeam_powerSteps : (s.setTeam n x).powerSteps = s.powerSteps := rfl
@[simp] theorem State.setTeam_cores : (s.setTeam n x).cores = s.cores := rfl
@[simp] theorem State.setTeam_quarters : (s.setTeam n x).quarters = s.quarters := rfl
@[simp] theorem State.setTeam_teams : (s.setTeam n x).teams = s.teams.put n x := rfl
@[simp] theorem State.setTeam_groups : (s.setTeam n x).groups = s.groups := rfl
@[simp] theorem State.setTeam_mem : (s.setTeam n x).mem = s.mem := rfl
@[simp] theorem State.setTeam_units : (s.setTeam n x).units = s.units := rfl
@[simp] theorem State.setTeam_epoch : (s.setTeam n x).epoch = s.epoch := rfl
@[simp] theorem State.setTeam_dir : (s.setTeam n x).dir = s.dir := rfl
@[simp] theorem State.setTeam_sectors : (s.setTeam n x).sectors = s.sectors := rfl
@[simp] theorem State.setTeam_tlb : (s.setTeam n x).tlb = s.tlb := rfl
@[simp] theorem State.setTeam_poison : (s.setTeam n x).poison = s.poison := rfl
@[simp] theorem State.setTeam_lost : (s.setTeam n x).lost = s.lost := rfl
@[simp] theorem State.setTeam_healed : (s.setTeam n x).healed = s.healed := rfl
@[simp] theorem State.setTeam_hostMem : (s.setTeam n x).hostMem = s.hostMem := rfl
@[simp] theorem State.setTeam_placed : (s.setTeam n x).placed = s.placed := rfl
@[simp] theorem State.setTeam_moving : (s.setTeam n x).moving = s.moving := rfl
@[simp] theorem State.setTeam_advice : (s.setTeam n x).advice = s.advice := rfl
@[simp] theorem State.setTeam_ops : (s.setTeam n x).ops = s.ops := rfl
@[simp] theorem State.setTeam_engs : (s.setTeam n x).engs = s.engs := rfl
@[simp] theorem State.setTeam_redSlots : (s.setTeam n x).redSlots = s.redSlots := rfl
@[simp] theorem State.setTeam_nodes : (s.setTeam n x).nodes = s.nodes := rfl
@[simp] theorem State.setTeam_flushes : (s.setTeam n x).flushes = s.flushes := rfl
@[simp] theorem State.setTeam_order : (s.setTeam n x).order = s.order := rfl
@[simp] theorem State.setTeam_services : (s.setTeam n x).services = s.services := rfl
@[simp] theorem State.setTeam_remoteTags : (s.setTeam n x).remoteTags = s.remoteTags := rfl
@[simp] theorem State.setTeam_agenda : (s.setTeam n x).agenda = s.agenda := rfl
@[simp] theorem State.setTeam_turns : (s.setTeam n x).turns = s.turns := rfl
@[simp] theorem State.setTeam_cur : (s.setTeam n x).cur = s.cur := rfl
@[simp] theorem State.setTeam_stalled : (s.setTeam n x).stalled = s.stalled := rfl
@[simp] theorem State.setTeam_free : (s.setTeam n x).free = s.free := rfl
@[simp] theorem State.setTeam_nextId : (s.setTeam n x).nextId = s.nextId := rfl
end

/-! ### State.setGroup -/

section
variable (s : State) (n : Nat) (x : Group)
@[simp] theorem State.setGroup_phase : (s.setGroup n x).phase = s.phase := rfl
@[simp] theorem State.setGroup_rcv : (s.setGroup n x).rcv = s.rcv := rfl
@[simp] theorem State.setGroup_flashed : (s.setGroup n x).flashed = s.flashed := rfl
@[simp] theorem State.setGroup_measure : (s.setGroup n x).measure = s.measure := rfl
@[simp] theorem State.setGroup_svn : (s.setGroup n x).svn = s.svn := rfl
@[simp] theorem State.setGroup_time : (s.setGroup n x).time = s.time := rfl
@[simp] theorem State.setGroup_ppm : (s.setGroup n x).ppm = s.ppm := rfl
@[simp] theorem State.setGroup_pkg : (s.setGroup n x).pkg = s.pkg := rfl
@[simp] theorem State.setGroup_npkg : (s.setGroup n x).npkg = s.npkg := rfl
@[simp] theorem State.setGroup_master : (s.setGroup n x).master = s.master := rfl
@[simp] theorem State.setGroup_sync : (s.setGroup n x).sync = s.sync := rfl
@[simp] theorem State.setGroup_exchTime : (s.setGroup n x).exchTime = s.exchTime := rfl
@[simp] theorem State.setGroup_peers : (s.setGroup n x).peers = s.peers := rfl
@[simp] theorem State.setGroup_numVfs : (s.setGroup n x).numVfs = s.numVfs := rfl
@[simp] theorem State.setGroup_feato : (s.setGroup n x).feato = s.feato := rfl
@[simp] theorem State.setGroup_lksel : (s.setGroup n x).lksel = s.lksel := rfl
@[simp] theorem State.setGroup_links : (s.setGroup n x).links = s.links := rfl
@[simp] theorem State.setGroup_outgoing : (s.setGroup n x).outgoing = s.outgoing := rfl
@[simp] theorem State.setGroup_msix : (s.setGroup n x).msix = s.msix := rfl
@[simp] theorem State.setGroup_hostLog : (s.setGroup n x).hostLog = s.hostLog := rfl
@[simp] theorem State.setGroup_fns : (s.setGroup n x).fns = s.fns := rfl
@[simp] theorem State.setGroup_vfsel : (s.setGroup n x).vfsel = s.vfsel := rfl
@[simp] theorem State.setGroup_gqsel : (s.setGroup n x).gqsel = s.gqsel := rfl
@[simp] theorem State.setGroup_pool : (s.setGroup n x).pool = s.pool := rfl
@[simp] theorem State.setGroup_pcap : (s.setGroup n x).pcap = s.pcap := rfl
@[simp] theorem State.setGroup_meterStart : (s.setGroup n x).meterStart = s.meterStart := rfl
@[simp] theorem State.setGroup_turnFn : (s.setGroup n x).turnFn = s.turnFn := rfl
@[simp] theorem State.setGroup_cursorShared : (s.setGroup n x).cursorShared = s.cursorShared := rfl
@[simp] theorem State.setGroup_slots : (s.setGroup n x).slots = s.slots := rfl
@[simp] theorem State.setGroup_keys : (s.setGroup n x).keys = s.keys := rfl
@[simp] theorem State.setGroup_tapes : (s.setGroup n x).tapes = s.tapes := rfl
@[simp] theorem State.setGroup_insts : (s.setGroup n x).insts = s.insts := rfl
@[simp] theorem State.setGroup_credits : (s.setGroup n x).credits = s.credits := rfl
@[simp] theorem State.setGroup_windows : (s.setGroup n x).windows = s.windows := rfl
@[simp] theorem State.setGroup_dies : (s.setGroup n x).dies = s.dies := rfl
@[simp] theorem State.setGroup_memDies : (s.setGroup n x).memDies = s.memDies := rfl
@[simp] theorem State.setGroup_powerSteps : (s.setGroup n x).powerSteps = s.powerSteps := rfl
@[simp] theorem State.setGroup_cores : (s.setGroup n x).cores = s.cores := rfl
@[simp] theorem State.setGroup_quarters : (s.setGroup n x).quarters = s.quarters := rfl
@[simp] theorem State.setGroup_teams : (s.setGroup n x).teams = s.teams := rfl
@[simp] theorem State.setGroup_groups : (s.setGroup n x).groups = s.groups.put n x := rfl
@[simp] theorem State.setGroup_mem : (s.setGroup n x).mem = s.mem := rfl
@[simp] theorem State.setGroup_units : (s.setGroup n x).units = s.units := rfl
@[simp] theorem State.setGroup_epoch : (s.setGroup n x).epoch = s.epoch := rfl
@[simp] theorem State.setGroup_dir : (s.setGroup n x).dir = s.dir := rfl
@[simp] theorem State.setGroup_sectors : (s.setGroup n x).sectors = s.sectors := rfl
@[simp] theorem State.setGroup_tlb : (s.setGroup n x).tlb = s.tlb := rfl
@[simp] theorem State.setGroup_poison : (s.setGroup n x).poison = s.poison := rfl
@[simp] theorem State.setGroup_lost : (s.setGroup n x).lost = s.lost := rfl
@[simp] theorem State.setGroup_healed : (s.setGroup n x).healed = s.healed := rfl
@[simp] theorem State.setGroup_hostMem : (s.setGroup n x).hostMem = s.hostMem := rfl
@[simp] theorem State.setGroup_placed : (s.setGroup n x).placed = s.placed := rfl
@[simp] theorem State.setGroup_moving : (s.setGroup n x).moving = s.moving := rfl
@[simp] theorem State.setGroup_advice : (s.setGroup n x).advice = s.advice := rfl
@[simp] theorem State.setGroup_ops : (s.setGroup n x).ops = s.ops := rfl
@[simp] theorem State.setGroup_engs : (s.setGroup n x).engs = s.engs := rfl
@[simp] theorem State.setGroup_redSlots : (s.setGroup n x).redSlots = s.redSlots := rfl
@[simp] theorem State.setGroup_nodes : (s.setGroup n x).nodes = s.nodes := rfl
@[simp] theorem State.setGroup_flushes : (s.setGroup n x).flushes = s.flushes := rfl
@[simp] theorem State.setGroup_order : (s.setGroup n x).order = s.order := rfl
@[simp] theorem State.setGroup_services : (s.setGroup n x).services = s.services := rfl
@[simp] theorem State.setGroup_remoteTags : (s.setGroup n x).remoteTags = s.remoteTags := rfl
@[simp] theorem State.setGroup_agenda : (s.setGroup n x).agenda = s.agenda := rfl
@[simp] theorem State.setGroup_turns : (s.setGroup n x).turns = s.turns := rfl
@[simp] theorem State.setGroup_cur : (s.setGroup n x).cur = s.cur := rfl
@[simp] theorem State.setGroup_stalled : (s.setGroup n x).stalled = s.stalled := rfl
@[simp] theorem State.setGroup_free : (s.setGroup n x).free = s.free := rfl
@[simp] theorem State.setGroup_nextId : (s.setGroup n x).nextId = s.nextId := rfl
end

/-! ### State.setQuarter -/

section
variable (s : State) (n : Nat) (x : Quarter)
@[simp] theorem State.setQuarter_phase : (s.setQuarter n x).phase = s.phase := rfl
@[simp] theorem State.setQuarter_rcv : (s.setQuarter n x).rcv = s.rcv := rfl
@[simp] theorem State.setQuarter_flashed : (s.setQuarter n x).flashed = s.flashed := rfl
@[simp] theorem State.setQuarter_measure : (s.setQuarter n x).measure = s.measure := rfl
@[simp] theorem State.setQuarter_svn : (s.setQuarter n x).svn = s.svn := rfl
@[simp] theorem State.setQuarter_time : (s.setQuarter n x).time = s.time := rfl
@[simp] theorem State.setQuarter_ppm : (s.setQuarter n x).ppm = s.ppm := rfl
@[simp] theorem State.setQuarter_pkg : (s.setQuarter n x).pkg = s.pkg := rfl
@[simp] theorem State.setQuarter_npkg : (s.setQuarter n x).npkg = s.npkg := rfl
@[simp] theorem State.setQuarter_master : (s.setQuarter n x).master = s.master := rfl
@[simp] theorem State.setQuarter_sync : (s.setQuarter n x).sync = s.sync := rfl
@[simp] theorem State.setQuarter_exchTime : (s.setQuarter n x).exchTime = s.exchTime := rfl
@[simp] theorem State.setQuarter_peers : (s.setQuarter n x).peers = s.peers := rfl
@[simp] theorem State.setQuarter_numVfs : (s.setQuarter n x).numVfs = s.numVfs := rfl
@[simp] theorem State.setQuarter_feato : (s.setQuarter n x).feato = s.feato := rfl
@[simp] theorem State.setQuarter_lksel : (s.setQuarter n x).lksel = s.lksel := rfl
@[simp] theorem State.setQuarter_links : (s.setQuarter n x).links = s.links := rfl
@[simp] theorem State.setQuarter_outgoing : (s.setQuarter n x).outgoing = s.outgoing := rfl
@[simp] theorem State.setQuarter_msix : (s.setQuarter n x).msix = s.msix := rfl
@[simp] theorem State.setQuarter_hostLog : (s.setQuarter n x).hostLog = s.hostLog := rfl
@[simp] theorem State.setQuarter_fns : (s.setQuarter n x).fns = s.fns := rfl
@[simp] theorem State.setQuarter_vfsel : (s.setQuarter n x).vfsel = s.vfsel := rfl
@[simp] theorem State.setQuarter_gqsel : (s.setQuarter n x).gqsel = s.gqsel := rfl
@[simp] theorem State.setQuarter_pool : (s.setQuarter n x).pool = s.pool := rfl
@[simp] theorem State.setQuarter_pcap : (s.setQuarter n x).pcap = s.pcap := rfl
@[simp] theorem State.setQuarter_meterStart : (s.setQuarter n x).meterStart = s.meterStart := rfl
@[simp] theorem State.setQuarter_turnFn : (s.setQuarter n x).turnFn = s.turnFn := rfl
@[simp] theorem State.setQuarter_cursorShared : (s.setQuarter n x).cursorShared = s.cursorShared := rfl
@[simp] theorem State.setQuarter_slots : (s.setQuarter n x).slots = s.slots := rfl
@[simp] theorem State.setQuarter_keys : (s.setQuarter n x).keys = s.keys := rfl
@[simp] theorem State.setQuarter_tapes : (s.setQuarter n x).tapes = s.tapes := rfl
@[simp] theorem State.setQuarter_insts : (s.setQuarter n x).insts = s.insts := rfl
@[simp] theorem State.setQuarter_credits : (s.setQuarter n x).credits = s.credits := rfl
@[simp] theorem State.setQuarter_windows : (s.setQuarter n x).windows = s.windows := rfl
@[simp] theorem State.setQuarter_dies : (s.setQuarter n x).dies = s.dies := rfl
@[simp] theorem State.setQuarter_memDies : (s.setQuarter n x).memDies = s.memDies := rfl
@[simp] theorem State.setQuarter_powerSteps : (s.setQuarter n x).powerSteps = s.powerSteps := rfl
@[simp] theorem State.setQuarter_cores : (s.setQuarter n x).cores = s.cores := rfl
@[simp] theorem State.setQuarter_quarters : (s.setQuarter n x).quarters = s.quarters.put n x := rfl
@[simp] theorem State.setQuarter_teams : (s.setQuarter n x).teams = s.teams := rfl
@[simp] theorem State.setQuarter_groups : (s.setQuarter n x).groups = s.groups := rfl
@[simp] theorem State.setQuarter_mem : (s.setQuarter n x).mem = s.mem := rfl
@[simp] theorem State.setQuarter_units : (s.setQuarter n x).units = s.units := rfl
@[simp] theorem State.setQuarter_epoch : (s.setQuarter n x).epoch = s.epoch := rfl
@[simp] theorem State.setQuarter_dir : (s.setQuarter n x).dir = s.dir := rfl
@[simp] theorem State.setQuarter_sectors : (s.setQuarter n x).sectors = s.sectors := rfl
@[simp] theorem State.setQuarter_tlb : (s.setQuarter n x).tlb = s.tlb := rfl
@[simp] theorem State.setQuarter_poison : (s.setQuarter n x).poison = s.poison := rfl
@[simp] theorem State.setQuarter_lost : (s.setQuarter n x).lost = s.lost := rfl
@[simp] theorem State.setQuarter_healed : (s.setQuarter n x).healed = s.healed := rfl
@[simp] theorem State.setQuarter_hostMem : (s.setQuarter n x).hostMem = s.hostMem := rfl
@[simp] theorem State.setQuarter_placed : (s.setQuarter n x).placed = s.placed := rfl
@[simp] theorem State.setQuarter_moving : (s.setQuarter n x).moving = s.moving := rfl
@[simp] theorem State.setQuarter_advice : (s.setQuarter n x).advice = s.advice := rfl
@[simp] theorem State.setQuarter_ops : (s.setQuarter n x).ops = s.ops := rfl
@[simp] theorem State.setQuarter_engs : (s.setQuarter n x).engs = s.engs := rfl
@[simp] theorem State.setQuarter_redSlots : (s.setQuarter n x).redSlots = s.redSlots := rfl
@[simp] theorem State.setQuarter_nodes : (s.setQuarter n x).nodes = s.nodes := rfl
@[simp] theorem State.setQuarter_flushes : (s.setQuarter n x).flushes = s.flushes := rfl
@[simp] theorem State.setQuarter_order : (s.setQuarter n x).order = s.order := rfl
@[simp] theorem State.setQuarter_services : (s.setQuarter n x).services = s.services := rfl
@[simp] theorem State.setQuarter_remoteTags : (s.setQuarter n x).remoteTags = s.remoteTags := rfl
@[simp] theorem State.setQuarter_agenda : (s.setQuarter n x).agenda = s.agenda := rfl
@[simp] theorem State.setQuarter_turns : (s.setQuarter n x).turns = s.turns := rfl
@[simp] theorem State.setQuarter_cur : (s.setQuarter n x).cur = s.cur := rfl
@[simp] theorem State.setQuarter_stalled : (s.setQuarter n x).stalled = s.stalled := rfl
@[simp] theorem State.setQuarter_free : (s.setQuarter n x).free = s.free := rfl
@[simp] theorem State.setQuarter_nextId : (s.setQuarter n x).nextId = s.nextId := rfl
end

/-! ### State.setEng -/

section
variable (s : State) (n : Nat) (x : EngOp)
@[simp] theorem State.setEng_phase : (s.setEng n x).phase = s.phase := rfl
@[simp] theorem State.setEng_rcv : (s.setEng n x).rcv = s.rcv := rfl
@[simp] theorem State.setEng_flashed : (s.setEng n x).flashed = s.flashed := rfl
@[simp] theorem State.setEng_measure : (s.setEng n x).measure = s.measure := rfl
@[simp] theorem State.setEng_svn : (s.setEng n x).svn = s.svn := rfl
@[simp] theorem State.setEng_time : (s.setEng n x).time = s.time := rfl
@[simp] theorem State.setEng_ppm : (s.setEng n x).ppm = s.ppm := rfl
@[simp] theorem State.setEng_pkg : (s.setEng n x).pkg = s.pkg := rfl
@[simp] theorem State.setEng_npkg : (s.setEng n x).npkg = s.npkg := rfl
@[simp] theorem State.setEng_master : (s.setEng n x).master = s.master := rfl
@[simp] theorem State.setEng_sync : (s.setEng n x).sync = s.sync := rfl
@[simp] theorem State.setEng_exchTime : (s.setEng n x).exchTime = s.exchTime := rfl
@[simp] theorem State.setEng_peers : (s.setEng n x).peers = s.peers := rfl
@[simp] theorem State.setEng_numVfs : (s.setEng n x).numVfs = s.numVfs := rfl
@[simp] theorem State.setEng_feato : (s.setEng n x).feato = s.feato := rfl
@[simp] theorem State.setEng_lksel : (s.setEng n x).lksel = s.lksel := rfl
@[simp] theorem State.setEng_links : (s.setEng n x).links = s.links := rfl
@[simp] theorem State.setEng_outgoing : (s.setEng n x).outgoing = s.outgoing := rfl
@[simp] theorem State.setEng_msix : (s.setEng n x).msix = s.msix := rfl
@[simp] theorem State.setEng_hostLog : (s.setEng n x).hostLog = s.hostLog := rfl
@[simp] theorem State.setEng_fns : (s.setEng n x).fns = s.fns := rfl
@[simp] theorem State.setEng_vfsel : (s.setEng n x).vfsel = s.vfsel := rfl
@[simp] theorem State.setEng_gqsel : (s.setEng n x).gqsel = s.gqsel := rfl
@[simp] theorem State.setEng_pool : (s.setEng n x).pool = s.pool := rfl
@[simp] theorem State.setEng_pcap : (s.setEng n x).pcap = s.pcap := rfl
@[simp] theorem State.setEng_meterStart : (s.setEng n x).meterStart = s.meterStart := rfl
@[simp] theorem State.setEng_turnFn : (s.setEng n x).turnFn = s.turnFn := rfl
@[simp] theorem State.setEng_cursorShared : (s.setEng n x).cursorShared = s.cursorShared := rfl
@[simp] theorem State.setEng_slots : (s.setEng n x).slots = s.slots := rfl
@[simp] theorem State.setEng_keys : (s.setEng n x).keys = s.keys := rfl
@[simp] theorem State.setEng_tapes : (s.setEng n x).tapes = s.tapes := rfl
@[simp] theorem State.setEng_insts : (s.setEng n x).insts = s.insts := rfl
@[simp] theorem State.setEng_credits : (s.setEng n x).credits = s.credits := rfl
@[simp] theorem State.setEng_windows : (s.setEng n x).windows = s.windows := rfl
@[simp] theorem State.setEng_dies : (s.setEng n x).dies = s.dies := rfl
@[simp] theorem State.setEng_memDies : (s.setEng n x).memDies = s.memDies := rfl
@[simp] theorem State.setEng_powerSteps : (s.setEng n x).powerSteps = s.powerSteps := rfl
@[simp] theorem State.setEng_cores : (s.setEng n x).cores = s.cores := rfl
@[simp] theorem State.setEng_quarters : (s.setEng n x).quarters = s.quarters := rfl
@[simp] theorem State.setEng_teams : (s.setEng n x).teams = s.teams := rfl
@[simp] theorem State.setEng_groups : (s.setEng n x).groups = s.groups := rfl
@[simp] theorem State.setEng_mem : (s.setEng n x).mem = s.mem := rfl
@[simp] theorem State.setEng_units : (s.setEng n x).units = s.units := rfl
@[simp] theorem State.setEng_epoch : (s.setEng n x).epoch = s.epoch := rfl
@[simp] theorem State.setEng_dir : (s.setEng n x).dir = s.dir := rfl
@[simp] theorem State.setEng_sectors : (s.setEng n x).sectors = s.sectors := rfl
@[simp] theorem State.setEng_tlb : (s.setEng n x).tlb = s.tlb := rfl
@[simp] theorem State.setEng_poison : (s.setEng n x).poison = s.poison := rfl
@[simp] theorem State.setEng_lost : (s.setEng n x).lost = s.lost := rfl
@[simp] theorem State.setEng_healed : (s.setEng n x).healed = s.healed := rfl
@[simp] theorem State.setEng_hostMem : (s.setEng n x).hostMem = s.hostMem := rfl
@[simp] theorem State.setEng_placed : (s.setEng n x).placed = s.placed := rfl
@[simp] theorem State.setEng_moving : (s.setEng n x).moving = s.moving := rfl
@[simp] theorem State.setEng_advice : (s.setEng n x).advice = s.advice := rfl
@[simp] theorem State.setEng_ops : (s.setEng n x).ops = s.ops := rfl
@[simp] theorem State.setEng_engs : (s.setEng n x).engs = s.engs.put n x := rfl
@[simp] theorem State.setEng_redSlots : (s.setEng n x).redSlots = s.redSlots := rfl
@[simp] theorem State.setEng_nodes : (s.setEng n x).nodes = s.nodes := rfl
@[simp] theorem State.setEng_flushes : (s.setEng n x).flushes = s.flushes := rfl
@[simp] theorem State.setEng_order : (s.setEng n x).order = s.order := rfl
@[simp] theorem State.setEng_services : (s.setEng n x).services = s.services := rfl
@[simp] theorem State.setEng_remoteTags : (s.setEng n x).remoteTags = s.remoteTags := rfl
@[simp] theorem State.setEng_agenda : (s.setEng n x).agenda = s.agenda := rfl
@[simp] theorem State.setEng_turns : (s.setEng n x).turns = s.turns := rfl
@[simp] theorem State.setEng_cur : (s.setEng n x).cur = s.cur := rfl
@[simp] theorem State.setEng_stalled : (s.setEng n x).stalled = s.stalled := rfl
@[simp] theorem State.setEng_free : (s.setEng n x).free = s.free := rfl
@[simp] theorem State.setEng_nextId : (s.setEng n x).nextId = s.nextId := rfl
end

/-! ### State.setTape -/

section
variable (s : State) (n : Nat) (x : Tape)
@[simp] theorem State.setTape_phase : (s.setTape n x).phase = s.phase := rfl
@[simp] theorem State.setTape_rcv : (s.setTape n x).rcv = s.rcv := rfl
@[simp] theorem State.setTape_flashed : (s.setTape n x).flashed = s.flashed := rfl
@[simp] theorem State.setTape_measure : (s.setTape n x).measure = s.measure := rfl
@[simp] theorem State.setTape_svn : (s.setTape n x).svn = s.svn := rfl
@[simp] theorem State.setTape_time : (s.setTape n x).time = s.time := rfl
@[simp] theorem State.setTape_ppm : (s.setTape n x).ppm = s.ppm := rfl
@[simp] theorem State.setTape_pkg : (s.setTape n x).pkg = s.pkg := rfl
@[simp] theorem State.setTape_npkg : (s.setTape n x).npkg = s.npkg := rfl
@[simp] theorem State.setTape_master : (s.setTape n x).master = s.master := rfl
@[simp] theorem State.setTape_sync : (s.setTape n x).sync = s.sync := rfl
@[simp] theorem State.setTape_exchTime : (s.setTape n x).exchTime = s.exchTime := rfl
@[simp] theorem State.setTape_peers : (s.setTape n x).peers = s.peers := rfl
@[simp] theorem State.setTape_numVfs : (s.setTape n x).numVfs = s.numVfs := rfl
@[simp] theorem State.setTape_feato : (s.setTape n x).feato = s.feato := rfl
@[simp] theorem State.setTape_lksel : (s.setTape n x).lksel = s.lksel := rfl
@[simp] theorem State.setTape_links : (s.setTape n x).links = s.links := rfl
@[simp] theorem State.setTape_outgoing : (s.setTape n x).outgoing = s.outgoing := rfl
@[simp] theorem State.setTape_msix : (s.setTape n x).msix = s.msix := rfl
@[simp] theorem State.setTape_hostLog : (s.setTape n x).hostLog = s.hostLog := rfl
@[simp] theorem State.setTape_fns : (s.setTape n x).fns = s.fns := rfl
@[simp] theorem State.setTape_vfsel : (s.setTape n x).vfsel = s.vfsel := rfl
@[simp] theorem State.setTape_gqsel : (s.setTape n x).gqsel = s.gqsel := rfl
@[simp] theorem State.setTape_pool : (s.setTape n x).pool = s.pool := rfl
@[simp] theorem State.setTape_pcap : (s.setTape n x).pcap = s.pcap := rfl
@[simp] theorem State.setTape_meterStart : (s.setTape n x).meterStart = s.meterStart := rfl
@[simp] theorem State.setTape_turnFn : (s.setTape n x).turnFn = s.turnFn := rfl
@[simp] theorem State.setTape_cursorShared : (s.setTape n x).cursorShared = s.cursorShared := rfl
@[simp] theorem State.setTape_slots : (s.setTape n x).slots = s.slots := rfl
@[simp] theorem State.setTape_keys : (s.setTape n x).keys = s.keys := rfl
@[simp] theorem State.setTape_tapes : (s.setTape n x).tapes = s.tapes.put n x := rfl
@[simp] theorem State.setTape_insts : (s.setTape n x).insts = s.insts := rfl
@[simp] theorem State.setTape_credits : (s.setTape n x).credits = s.credits := rfl
@[simp] theorem State.setTape_windows : (s.setTape n x).windows = s.windows := rfl
@[simp] theorem State.setTape_dies : (s.setTape n x).dies = s.dies := rfl
@[simp] theorem State.setTape_memDies : (s.setTape n x).memDies = s.memDies := rfl
@[simp] theorem State.setTape_powerSteps : (s.setTape n x).powerSteps = s.powerSteps := rfl
@[simp] theorem State.setTape_cores : (s.setTape n x).cores = s.cores := rfl
@[simp] theorem State.setTape_quarters : (s.setTape n x).quarters = s.quarters := rfl
@[simp] theorem State.setTape_teams : (s.setTape n x).teams = s.teams := rfl
@[simp] theorem State.setTape_groups : (s.setTape n x).groups = s.groups := rfl
@[simp] theorem State.setTape_mem : (s.setTape n x).mem = s.mem := rfl
@[simp] theorem State.setTape_units : (s.setTape n x).units = s.units := rfl
@[simp] theorem State.setTape_epoch : (s.setTape n x).epoch = s.epoch := rfl
@[simp] theorem State.setTape_dir : (s.setTape n x).dir = s.dir := rfl
@[simp] theorem State.setTape_sectors : (s.setTape n x).sectors = s.sectors := rfl
@[simp] theorem State.setTape_tlb : (s.setTape n x).tlb = s.tlb := rfl
@[simp] theorem State.setTape_poison : (s.setTape n x).poison = s.poison := rfl
@[simp] theorem State.setTape_lost : (s.setTape n x).lost = s.lost := rfl
@[simp] theorem State.setTape_healed : (s.setTape n x).healed = s.healed := rfl
@[simp] theorem State.setTape_hostMem : (s.setTape n x).hostMem = s.hostMem := rfl
@[simp] theorem State.setTape_placed : (s.setTape n x).placed = s.placed := rfl
@[simp] theorem State.setTape_moving : (s.setTape n x).moving = s.moving := rfl
@[simp] theorem State.setTape_advice : (s.setTape n x).advice = s.advice := rfl
@[simp] theorem State.setTape_ops : (s.setTape n x).ops = s.ops := rfl
@[simp] theorem State.setTape_engs : (s.setTape n x).engs = s.engs := rfl
@[simp] theorem State.setTape_redSlots : (s.setTape n x).redSlots = s.redSlots := rfl
@[simp] theorem State.setTape_nodes : (s.setTape n x).nodes = s.nodes := rfl
@[simp] theorem State.setTape_flushes : (s.setTape n x).flushes = s.flushes := rfl
@[simp] theorem State.setTape_order : (s.setTape n x).order = s.order := rfl
@[simp] theorem State.setTape_services : (s.setTape n x).services = s.services := rfl
@[simp] theorem State.setTape_remoteTags : (s.setTape n x).remoteTags = s.remoteTags := rfl
@[simp] theorem State.setTape_agenda : (s.setTape n x).agenda = s.agenda := rfl
@[simp] theorem State.setTape_turns : (s.setTape n x).turns = s.turns := rfl
@[simp] theorem State.setTape_cur : (s.setTape n x).cur = s.cur := rfl
@[simp] theorem State.setTape_stalled : (s.setTape n x).stalled = s.stalled := rfl
@[simp] theorem State.setTape_free : (s.setTape n x).free = s.free := rfl
@[simp] theorem State.setTape_nextId : (s.setTape n x).nextId = s.nextId := rfl
end

/-! ### State.bump -/

section
variable (s : State)
@[simp] theorem State.bump_phase : s.bump.phase = s.phase := rfl
@[simp] theorem State.bump_rcv : s.bump.rcv = s.rcv := rfl
@[simp] theorem State.bump_flashed : s.bump.flashed = s.flashed := rfl
@[simp] theorem State.bump_measure : s.bump.measure = s.measure := rfl
@[simp] theorem State.bump_svn : s.bump.svn = s.svn := rfl
@[simp] theorem State.bump_time : s.bump.time = s.time := rfl
@[simp] theorem State.bump_ppm : s.bump.ppm = s.ppm := rfl
@[simp] theorem State.bump_pkg : s.bump.pkg = s.pkg := rfl
@[simp] theorem State.bump_npkg : s.bump.npkg = s.npkg := rfl
@[simp] theorem State.bump_master : s.bump.master = s.master := rfl
@[simp] theorem State.bump_sync : s.bump.sync = s.sync := rfl
@[simp] theorem State.bump_exchTime : s.bump.exchTime = s.exchTime := rfl
@[simp] theorem State.bump_peers : s.bump.peers = s.peers := rfl
@[simp] theorem State.bump_numVfs : s.bump.numVfs = s.numVfs := rfl
@[simp] theorem State.bump_feato : s.bump.feato = s.feato := rfl
@[simp] theorem State.bump_lksel : s.bump.lksel = s.lksel := rfl
@[simp] theorem State.bump_links : s.bump.links = s.links := rfl
@[simp] theorem State.bump_outgoing : s.bump.outgoing = s.outgoing := rfl
@[simp] theorem State.bump_msix : s.bump.msix = s.msix := rfl
@[simp] theorem State.bump_hostLog : s.bump.hostLog = s.hostLog := rfl
@[simp] theorem State.bump_fns : s.bump.fns = s.fns := rfl
@[simp] theorem State.bump_vfsel : s.bump.vfsel = s.vfsel := rfl
@[simp] theorem State.bump_gqsel : s.bump.gqsel = s.gqsel := rfl
@[simp] theorem State.bump_pool : s.bump.pool = s.pool := rfl
@[simp] theorem State.bump_pcap : s.bump.pcap = s.pcap := rfl
@[simp] theorem State.bump_meterStart : s.bump.meterStart = s.meterStart := rfl
@[simp] theorem State.bump_turnFn : s.bump.turnFn = s.turnFn := rfl
@[simp] theorem State.bump_cursorShared : s.bump.cursorShared = s.cursorShared := rfl
@[simp] theorem State.bump_slots : s.bump.slots = s.slots := rfl
@[simp] theorem State.bump_keys : s.bump.keys = s.keys := rfl
@[simp] theorem State.bump_tapes : s.bump.tapes = s.tapes := rfl
@[simp] theorem State.bump_insts : s.bump.insts = s.insts := rfl
@[simp] theorem State.bump_credits : s.bump.credits = s.credits := rfl
@[simp] theorem State.bump_windows : s.bump.windows = s.windows := rfl
@[simp] theorem State.bump_dies : s.bump.dies = s.dies := rfl
@[simp] theorem State.bump_memDies : s.bump.memDies = s.memDies := rfl
@[simp] theorem State.bump_powerSteps : s.bump.powerSteps = s.powerSteps := rfl
@[simp] theorem State.bump_cores : s.bump.cores = s.cores := rfl
@[simp] theorem State.bump_quarters : s.bump.quarters = s.quarters := rfl
@[simp] theorem State.bump_teams : s.bump.teams = s.teams := rfl
@[simp] theorem State.bump_groups : s.bump.groups = s.groups := rfl
@[simp] theorem State.bump_mem : s.bump.mem = s.mem := rfl
@[simp] theorem State.bump_units : s.bump.units = s.units := rfl
@[simp] theorem State.bump_epoch : s.bump.epoch = s.epoch := rfl
@[simp] theorem State.bump_dir : s.bump.dir = s.dir := rfl
@[simp] theorem State.bump_sectors : s.bump.sectors = s.sectors := rfl
@[simp] theorem State.bump_tlb : s.bump.tlb = s.tlb := rfl
@[simp] theorem State.bump_poison : s.bump.poison = s.poison := rfl
@[simp] theorem State.bump_lost : s.bump.lost = s.lost := rfl
@[simp] theorem State.bump_healed : s.bump.healed = s.healed := rfl
@[simp] theorem State.bump_hostMem : s.bump.hostMem = s.hostMem := rfl
@[simp] theorem State.bump_placed : s.bump.placed = s.placed := rfl
@[simp] theorem State.bump_moving : s.bump.moving = s.moving := rfl
@[simp] theorem State.bump_advice : s.bump.advice = s.advice := rfl
@[simp] theorem State.bump_ops : s.bump.ops = s.ops := rfl
@[simp] theorem State.bump_engs : s.bump.engs = s.engs := rfl
@[simp] theorem State.bump_redSlots : s.bump.redSlots = s.redSlots := rfl
@[simp] theorem State.bump_nodes : s.bump.nodes = s.nodes := rfl
@[simp] theorem State.bump_flushes : s.bump.flushes = s.flushes := rfl
@[simp] theorem State.bump_order : s.bump.order = s.order := rfl
@[simp] theorem State.bump_services : s.bump.services = s.services := rfl
@[simp] theorem State.bump_remoteTags : s.bump.remoteTags = s.remoteTags := rfl
@[simp] theorem State.bump_agenda : s.bump.agenda = s.agenda := rfl
@[simp] theorem State.bump_turns : s.bump.turns = s.turns := rfl
@[simp] theorem State.bump_cur : s.bump.cur = s.cur := rfl
@[simp] theorem State.bump_stalled : s.bump.stalled = s.stalled := rfl
@[simp] theorem State.bump_free : s.bump.free = s.free + 1 := rfl
@[simp] theorem State.bump_nextId : s.bump.nextId = s.nextId := rfl
end

/-! ### Accessors -/

section
variable (s : State)
@[simp] theorem State.fn_setFn_self (n : Nat) (x : Function) : (s.setFn n x).fn n = x := Tab.getD_put_self ..
@[simp] theorem State.fn_setFn_ne {n m : Nat} (x : Function) (h : m ≠ n) : (s.setFn n x).fn m = s.fn m :=
  Tab.getD_put_ne _ _ _ h
@[simp] theorem State.fn_setSlot (n m : Nat) (x : QSlot) : (s.setSlot n x).fn m = s.fn m := rfl
@[simp] theorem State.fn_setKey (n m : Nat) (x : KeySlot) : (s.setKey n x).fn m = s.fn m := rfl
@[simp] theorem State.fn_setCore (n m : Nat) (x : Core) : (s.setCore n x).fn m = s.fn m := rfl
@[simp] theorem State.fn_setDie (n m : Nat) (x : Die) : (s.setDie n x).fn m = s.fn m := rfl
@[simp] theorem State.fn_setLink (n m : Nat) (x : Link) : (s.setLink n x).fn m = s.fn m := rfl
@[simp] theorem State.fn_setTeam (n m : Nat) (x : Team) : (s.setTeam n x).fn m = s.fn m := rfl
@[simp] theorem State.fn_setGroup (n m : Nat) (x : Group) : (s.setGroup n x).fn m = s.fn m := rfl
@[simp] theorem State.fn_setQuarter (n m : Nat) (x : Quarter) : (s.setQuarter n x).fn m = s.fn m := rfl
@[simp] theorem State.slot_setSlot_self (n : Nat) (x : QSlot) : (s.setSlot n x).slot n = x := Tab.getD_put_self ..
@[simp] theorem State.slot_setSlot_ne {n m : Nat} (x : QSlot) (h : m ≠ n) : (s.setSlot n x).slot m = s.slot m :=
  Tab.getD_put_ne _ _ _ h
@[simp] theorem State.slot_setFn (n m : Nat) (x : Function) : (s.setFn n x).slot m = s.slot m := rfl
@[simp] theorem State.slot_setKey (n m : Nat) (x : KeySlot) : (s.setKey n x).slot m = s.slot m := rfl
@[simp] theorem State.slot_setCore (n m : Nat) (x : Core) : (s.setCore n x).slot m = s.slot m := rfl
@[simp] theorem State.slot_setDie (n m : Nat) (x : Die) : (s.setDie n x).slot m = s.slot m := rfl
@[simp] theorem State.slot_setLink (n m : Nat) (x : Link) : (s.setLink n x).slot m = s.slot m := rfl
@[simp] theorem State.slot_setTeam (n m : Nat) (x : Team) : (s.setTeam n x).slot m = s.slot m := rfl
@[simp] theorem State.slot_setGroup (n m : Nat) (x : Group) : (s.setGroup n x).slot m = s.slot m := rfl
@[simp] theorem State.slot_setQuarter (n m : Nat) (x : Quarter) : (s.setQuarter n x).slot m = s.slot m := rfl
@[simp] theorem State.keySlot_setKey_self (n : Nat) (x : KeySlot) : (s.setKey n x).keySlot n = x := Tab.getD_put_self ..
@[simp] theorem State.keySlot_setKey_ne {n m : Nat} (x : KeySlot) (h : m ≠ n) : (s.setKey n x).keySlot m = s.keySlot m :=
  Tab.getD_put_ne _ _ _ h
@[simp] theorem State.keySlot_setFn (n m : Nat) (x : Function) : (s.setFn n x).keySlot m = s.keySlot m := rfl
@[simp] theorem State.keySlot_setSlot (n m : Nat) (x : QSlot) : (s.setSlot n x).keySlot m = s.keySlot m := rfl
@[simp] theorem State.keySlot_setCore (n m : Nat) (x : Core) : (s.setCore n x).keySlot m = s.keySlot m := rfl
@[simp] theorem State.keySlot_setDie (n m : Nat) (x : Die) : (s.setDie n x).keySlot m = s.keySlot m := rfl
@[simp] theorem State.keySlot_setLink (n m : Nat) (x : Link) : (s.setLink n x).keySlot m = s.keySlot m := rfl
@[simp] theorem State.keySlot_setTeam (n m : Nat) (x : Team) : (s.setTeam n x).keySlot m = s.keySlot m := rfl
@[simp] theorem State.keySlot_setGroup (n m : Nat) (x : Group) : (s.setGroup n x).keySlot m = s.keySlot m := rfl
@[simp] theorem State.keySlot_setQuarter (n m : Nat) (x : Quarter) : (s.setQuarter n x).keySlot m = s.keySlot m := rfl
@[simp] theorem State.coreAt_setCore_self (n : Nat) (x : Core) : (s.setCore n x).coreAt n = x := Tab.getD_put_self ..
@[simp] theorem State.coreAt_setCore_ne {n m : Nat} (x : Core) (h : m ≠ n) : (s.setCore n x).coreAt m = s.coreAt m :=
  Tab.getD_put_ne _ _ _ h
@[simp] theorem State.coreAt_setFn (n m : Nat) (x : Function) : (s.setFn n x).coreAt m = s.coreAt m := rfl
@[simp] theorem State.coreAt_setSlot (n m : Nat) (x : QSlot) : (s.setSlot n x).coreAt m = s.coreAt m := rfl
@[simp] theorem State.coreAt_setKey (n m : Nat) (x : KeySlot) : (s.setKey n x).coreAt m = s.coreAt m := rfl
@[simp] theorem State.coreAt_setDie (n m : Nat) (x : Die) : (s.setDie n x).coreAt m = s.coreAt m := rfl
@[simp] theorem State.coreAt_setLink (n m : Nat) (x : Link) : (s.setLink n x).coreAt m = s.coreAt m := rfl
@[simp] theorem State.coreAt_setTeam (n m : Nat) (x : Team) : (s.setTeam n x).coreAt m = s.coreAt m := rfl
@[simp] theorem State.coreAt_setGroup (n m : Nat) (x : Group) : (s.setGroup n x).coreAt m = s.coreAt m := rfl
@[simp] theorem State.coreAt_setQuarter (n m : Nat) (x : Quarter) : (s.setQuarter n x).coreAt m = s.coreAt m := rfl
@[simp] theorem State.dieAt_setDie_self (n : Nat) (x : Die) : (s.setDie n x).dieAt n = x := Tab.getD_put_self ..
@[simp] theorem State.dieAt_setDie_ne {n m : Nat} (x : Die) (h : m ≠ n) : (s.setDie n x).dieAt m = s.dieAt m :=
  Tab.getD_put_ne _ _ _ h
@[simp] theorem State.dieAt_setFn (n m : Nat) (x : Function) : (s.setFn n x).dieAt m = s.dieAt m := rfl
@[simp] theorem State.dieAt_setSlot (n m : Nat) (x : QSlot) : (s.setSlot n x).dieAt m = s.dieAt m := rfl
@[simp] theorem State.dieAt_setKey (n m : Nat) (x : KeySlot) : (s.setKey n x).dieAt m = s.dieAt m := rfl
@[simp] theorem State.dieAt_setCore (n m : Nat) (x : Core) : (s.setCore n x).dieAt m = s.dieAt m := rfl
@[simp] theorem State.dieAt_setLink (n m : Nat) (x : Link) : (s.setLink n x).dieAt m = s.dieAt m := rfl
@[simp] theorem State.dieAt_setTeam (n m : Nat) (x : Team) : (s.setTeam n x).dieAt m = s.dieAt m := rfl
@[simp] theorem State.dieAt_setGroup (n m : Nat) (x : Group) : (s.setGroup n x).dieAt m = s.dieAt m := rfl
@[simp] theorem State.dieAt_setQuarter (n m : Nat) (x : Quarter) : (s.setQuarter n x).dieAt m = s.dieAt m := rfl
@[simp] theorem State.link_setLink_self (n : Nat) (x : Link) : (s.setLink n x).link n = x := Tab.getD_put_self ..
@[simp] theorem State.link_setLink_ne {n m : Nat} (x : Link) (h : m ≠ n) : (s.setLink n x).link m = s.link m :=
  Tab.getD_put_ne _ _ _ h
@[simp] theorem State.link_setFn (n m : Nat) (x : Function) : (s.setFn n x).link m = s.link m := rfl
@[simp] theorem State.link_setSlot (n m : Nat) (x : QSlot) : (s.setSlot n x).link m = s.link m := rfl
@[simp] theorem State.link_setKey (n m : Nat) (x : KeySlot) : (s.setKey n x).link m = s.link m := rfl
@[simp] theorem State.link_setCore (n m : Nat) (x : Core) : (s.setCore n x).link m = s.link m := rfl
@[simp] theorem State.link_setDie (n m : Nat) (x : Die) : (s.setDie n x).link m = s.link m := rfl
@[simp] theorem State.link_setTeam (n m : Nat) (x : Team) : (s.setTeam n x).link m = s.link m := rfl
@[simp] theorem State.link_setGroup (n m : Nat) (x : Group) : (s.setGroup n x).link m = s.link m := rfl
@[simp] theorem State.link_setQuarter (n m : Nat) (x : Quarter) : (s.setQuarter n x).link m = s.link m := rfl
@[simp] theorem State.team_setTeam_self (n : Nat) (x : Team) : (s.setTeam n x).team n = x := Tab.getD_put_self ..
@[simp] theorem State.team_setTeam_ne {n m : Nat} (x : Team) (h : m ≠ n) : (s.setTeam n x).team m = s.team m :=
  Tab.getD_put_ne _ _ _ h
@[simp] theorem State.team_setFn (n m : Nat) (x : Function) : (s.setFn n x).team m = s.team m := rfl
@[simp] theorem State.team_setSlot (n m : Nat) (x : QSlot) : (s.setSlot n x).team m = s.team m := rfl
@[simp] theorem State.team_setKey (n m : Nat) (x : KeySlot) : (s.setKey n x).team m = s.team m := rfl
@[simp] theorem State.team_setCore (n m : Nat) (x : Core) : (s.setCore n x).team m = s.team m := rfl
@[simp] theorem State.team_setDie (n m : Nat) (x : Die) : (s.setDie n x).team m = s.team m := rfl
@[simp] theorem State.team_setLink (n m : Nat) (x : Link) : (s.setLink n x).team m = s.team m := rfl
@[simp] theorem State.team_setGroup (n m : Nat) (x : Group) : (s.setGroup n x).team m = s.team m := rfl
@[simp] theorem State.team_setQuarter (n m : Nat) (x : Quarter) : (s.setQuarter n x).team m = s.team m := rfl
@[simp] theorem State.group_setGroup_self (n : Nat) (x : Group) : (s.setGroup n x).group n = x := Tab.getD_put_self ..
@[simp] theorem State.group_setGroup_ne {n m : Nat} (x : Group) (h : m ≠ n) : (s.setGroup n x).group m = s.group m :=
  Tab.getD_put_ne _ _ _ h
@[simp] theorem State.group_setFn (n m : Nat) (x : Function) : (s.setFn n x).group m = s.group m := rfl
@[simp] theorem State.group_setSlot (n m : Nat) (x : QSlot) : (s.setSlot n x).group m = s.group m := rfl
@[simp] theorem State.group_setKey (n m : Nat) (x : KeySlot) : (s.setKey n x).group m = s.group m := rfl
@[simp] theorem State.group_setCore (n m : Nat) (x : Core) : (s.setCore n x).group m = s.group m := rfl
@[simp] theorem State.group_setDie (n m : Nat) (x : Die) : (s.setDie n x).group m = s.group m := rfl
@[simp] theorem State.group_setLink (n m : Nat) (x : Link) : (s.setLink n x).group m = s.group m := rfl
@[simp] theorem State.group_setTeam (n m : Nat) (x : Team) : (s.setTeam n x).group m = s.group m := rfl
@[simp] theorem State.group_setQuarter (n m : Nat) (x : Quarter) : (s.setQuarter n x).group m = s.group m := rfl
@[simp] theorem State.quarter_setQuarter_self (n : Nat) (x : Quarter) : (s.setQuarter n x).quarter n = x := Tab.getD_put_self ..
@[simp] theorem State.quarter_setQuarter_ne {n m : Nat} (x : Quarter) (h : m ≠ n) : (s.setQuarter n x).quarter m = s.quarter m :=
  Tab.getD_put_ne _ _ _ h
@[simp] theorem State.quarter_setFn (n m : Nat) (x : Function) : (s.setFn n x).quarter m = s.quarter m := rfl
@[simp] theorem State.quarter_setSlot (n m : Nat) (x : QSlot) : (s.setSlot n x).quarter m = s.quarter m := rfl
@[simp] theorem State.quarter_setKey (n m : Nat) (x : KeySlot) : (s.setKey n x).quarter m = s.quarter m := rfl
@[simp] theorem State.quarter_setCore (n m : Nat) (x : Core) : (s.setCore n x).quarter m = s.quarter m := rfl
@[simp] theorem State.quarter_setDie (n m : Nat) (x : Die) : (s.setDie n x).quarter m = s.quarter m := rfl
@[simp] theorem State.quarter_setLink (n m : Nat) (x : Link) : (s.setLink n x).quarter m = s.quarter m := rfl
@[simp] theorem State.quarter_setTeam (n m : Nat) (x : Team) : (s.setTeam n x).quarter m = s.quarter m := rfl
@[simp] theorem State.quarter_setGroup (n m : Nat) (x : Group) : (s.setGroup n x).quarter m = s.quarter m := rfl
end

end Sys2Proof.Machine
end

