-- ==== Sys2Proof/Laws/Memory.lean ====
section
/-!
SUPPORT. Memory: every operation over frame space, the zeroed memories and host memory keeps their canonical forms, and what a
read gives after a write.
-/

namespace Sys2Proof.Machine

open Sys2Proof

/-! ### Canonical forms -/

theorem putBytes_wf (m : FrameMem) (a : Nat) (bs : List Byte) (h : FrameMem.wf m = true) :
    FrameMem.wf (putBytes m a bs) = true := by
  induction bs generalizing m a with
  | nil => exact h
  | cons b t ih => exact ih _ _ (Tab.sorted_put m a b h)

/-- A unit made to stand under a key keeps the form. -/
theorem State.keyUnit_wf (s : State) (k dom : Nat) (h : FrameMem.wf s.mem = true) :
    FrameMem.wf (s.keyUnit k dom).mem = true := by
  unfold State.keyUnit
  dsimp only
  split
  · split
    · exact h
    · exact putBytes_wf _ _ _ h
  · exact h

theorem State.writePart_wf (s : State) (k dom : Nat) (bs : List Byte) (h : FrameMem.wf s.mem = true) :
    FrameMem.wf (s.writePart k dom bs).mem = true := by
  unfold State.writePart
  split
  · exact h
  · exact putBytes_wf _ _ _ (s.keyUnit_wf k dom h)

theorem State.writeUnit_wf (s : State) (k dom : Nat) (bs : List Byte) (h : FrameMem.wf s.mem = true) :
    FrameMem.wf (s.writeUnit k dom bs).mem = true :=
  putBytes_wf _ _ _ (State.keyUnit_wf _ k dom h)

theorem State.writeFrame_wf (k : Nat) (n : Nat) (s : State) (dom : Nat) (bs : List Byte) (h : FrameMem.wf s.mem = true) :
    FrameMem.wf (s.writeFrame k n dom bs).mem = true := by
  induction n generalizing s dom bs with
  | zero => exact h
  | succ n ih =>
    unfold State.writeFrame
    dsimp only
    split
    · exact h
    · apply ih
      split
      · exact s.writeUnit_wf k dom _ h
      · exact s.writePart_wf k dom _ h

/-- A write of a range of frame space keeps its form. -/
theorem State.writeRange_wf (s : State) (k dom : Nat) (bs : List Byte) (h : FrameMem.wf s.mem = true) :
    FrameMem.wf (s.writeRange k dom bs).mem = true := by
  unfold State.writeRange
  split
  · exact State.writeFrame_wf k _ s dom bs h
  · exact h

/-- A write of a zeroed memory keeps its form. -/
theorem writeZ_wf (m : Memory) (a : Nat) (bs : List Byte) (h : Memory.wf m = true) : Memory.wf (writeZ m a bs) = true := by
  induction bs generalizing m a with
  | nil => exact h
  | cons b t ih => exact ih _ _ (Tab.canonical_set memUnlisted m a b h)

/-- A write of a local memory under the poison rule keeps its form. -/
theorem writeLocal_wf (n : Nat) (m : Memory) (p : NatSet) (a : Nat) (bs : List Byte) (h : Memory.wf m = true) :
    Memory.wf (writeLocal m p n a bs).1 = true := by
  induction n generalizing m p a bs with
  | zero => exact h
  | succ n ih =>
    unfold writeLocal
    dsimp only
    split
    · exact h
    · split
      · exact ih _ _ _ _ (writeZ_wf _ _ _ h)
      · split
        · exact ih _ _ _ _ h
        · exact ih _ _ _ _ (writeZ_wf _ _ _ h)

/-! ### Reads after writes -/

/-- A byte of frame space after bytes are put. -/
theorem putBytes_get? (m : FrameMem) (a : Nat) (bs : List Byte) (x : Nat) :
    (putBytes m a bs).get? x = if a ≤ x ∧ x < a + bs.length then bs[x - a]? else m.get? x := by
  induction bs generalizing m a with
  | nil => simp [putBytes]
  | cons b t ih =>
    rw [putBytes, ih]
    by_cases h : x = a
    · subst h
      simp
    · simp only [Tab.get?_put_ne _ _ h, List.length_cons]
      by_cases h2 : a + 1 ≤ x ∧ x < a + 1 + t.length
      · rw [if_pos h2, if_pos (by omega)]
        have : x - a = (x - (a + 1)) + 1 := by omega
        rw [this, List.getElem?_cons_succ]
      · rw [if_neg h2, if_neg (by omega)]

/-- A byte of a zeroed memory after a write. -/
theorem writeZ_getD (m : Memory) (a : Nat) (bs : List Byte) (x : Nat) :
    (writeZ m a bs).getD x memUnlisted = if a ≤ x ∧ x < a + bs.length then (bs[x - a]?).getD 0 else m.getD x memUnlisted := by
  induction bs generalizing m a with
  | nil => simp [writeZ]
  | cons b t ih =>
    rw [writeZ, ih]
    by_cases h : x = a
    · subst h
      simp
    · simp only [Tab.getD_set_ne _ _ _ h, List.length_cons]
      by_cases h2 : a + 1 ≤ x ∧ x < a + 1 + t.length
      · rw [if_pos h2, if_pos (by omega)]
        have : x - a = (x - (a + 1)) + 1 := by omega
        rw [this, List.getElem?_cons_succ]
      · rw [if_neg h2, if_neg (by omega)]

theorem natsFrom_length (a n : Nat) : (natsFrom a n).length = n := by
  induction n generalizing a with
  | zero => rfl
  | succ n ih => simp [natsFrom, ih]

theorem natsFrom_getElem (a n i : Nat) (h : i < (natsFrom a n).length) : (natsFrom a n)[i] = a + i := by
  induction n generalizing a i with
  | zero => simp [natsFrom] at h
  | succ n ih =>
    cases i with
    | zero => rfl
    | succ i => simp only [natsFrom, List.getElem_cons_succ, ih]; omega

/-- Bytes read of a zeroed memory right after they are written. -/
theorem readZ_writeZ (m : Memory) (a : Nat) (bs : List Byte) : readZ (writeZ m a bs) a bs.length = bs := by
  apply List.ext_getElem
  · simp [readZ, natsFrom_length]
  · intro i h1 h2
    simp [readZ, natsFrom_getElem, writeZ_getD, h2]

/-! ### Services (spec/17 R387) -/

/-- A handle's FAULT restored changes the teams alone. -/
theorem State.restoreFault_form (s : State) (e : EngOp) : ∃ ts, s.restoreFault e = { s with teams := ts } := by
  unfold State.restoreFault
  split
  · split
    · exact ⟨_, rfl⟩
    · exact ⟨_, rfl⟩
  · exact ⟨_, rfl⟩

/-- What the end of services can change: the services, the operations that they paused, and FAULT of the handles of these. -/
theorem State.served_form (s : State) (gone : Nat × Service → Bool) :
    ∃ ts, s.served gone =
      { s with services := s.services.filter (fun e => !gone e),
               engs := s.engs.map (fun e => (e.1, if s.freed gone e.2 then e.2.unpaused else e.2)), teams := ts } := by
  unfold State.served
  generalize (s.engs.filter _) = l
  suffices h : ∀ (l : List (Nat × EngOp)) (t : State), ∃ ts, l.foldl (fun t e => t.restoreFault e.2) t = { t with teams := ts } by
    exact h l _
  intro l
  induction l with
  | nil => exact fun t => ⟨_, rfl⟩
  | cons x xs ih =>
    intro t
    obtain ⟨ts, h⟩ := State.restoreFault_form t x.2
    obtain ⟨us, k⟩ := ih (t.restoreFault x.2)
    rw [h] at k
    exact ⟨us, by rw [List.foldl_cons, h, k]⟩

end Sys2Proof.Machine
end

