-- ==== Sys2Proof/Laws/Order.lean ====
section
/-!
SUPPORT. What the operations over the order of writes to host memory can change: that order, and nothing else.
-/

namespace Sys2Proof.Machine

open Sys2Proof

/-- Nothing has changed but what is known of the order of writes to host memory. -/
def State.orderMoved (s t : State) : Prop := ∃ o, t = { s with order := o }

theorem State.orderMoved.refl (s : State) : s.orderMoved s := ⟨_, rfl⟩

theorem State.orderMoved.trans {s t u : State} (h : s.orderMoved t) (k : t.orderMoved u) : s.orderMoved u := by
  obtain ⟨_, rfl⟩ := h
  obtain ⟨_, rfl⟩ := k
  exact ⟨_, rfl⟩

theorem State.orderMoved.mem {s t : State} (h : s.orderMoved t) : t.mem = s.mem := by
  obtain ⟨_, rfl⟩ := h
  rfl

theorem State.orderMoved.caches {s t : State} (h : s.orderMoved t) : s.cachesMoved t := by
  obtain ⟨_, rfl⟩ := h
  exact ⟨rfl, ⟨fun _ h => h, fun _ h => h, fun _ h k => absurd h k⟩, fun _ => rfl, fun _ => rfl⟩

theorem State.learn_moves (s : State) (p : Who) (xs : NatSet) : s.orderMoved (s.learn p xs) := by
  unfold State.learn
  dsimp only
  split
  · exact .refl s
  · exact ⟨_, rfl⟩

theorem State.forget_moves (s : State) (p : Who) : s.orderMoved (s.forget p) := ⟨_, rfl⟩

theorem State.setMarks_moves (s : State) (l : Loc) (n : Nat) (ms : List Mark) (c : Carry) :
    s.orderMoved (s.setMarks l n ms c) := by
  unfold State.setMarks
  split
  · exact .refl s
  · exact ⟨_, rfl⟩

theorem State.inform_moves (s : State) (g : Nat) (m : Mask) (xs : NatSet) : s.orderMoved (s.inform g m xs) := by
  unfold State.inform
  generalize lanesOf m = ls
  induction ls generalizing s with
  | nil => exact .refl s
  | cons l ls ih => exact (s.learn_moves ..).trans (ih _)

theorem State.copyMarks_moves (s : State) (core : Nat) (l : Loc) (n : Nat) : s.orderMoved (s.copyMarks core l n) := by
  unfold State.copyMarks
  split
  · exact .refl s
  · exact ⟨_, rfl⟩

theorem State.writeMarks_moves (s : State) (p : Seat) (sync : Scope × Ord) (atomic : Bool) (l : Loc) (n : Nat) :
    s.orderMoved (s.writeMarks p sync atomic l n) := by
  unfold State.writeMarks
  dsimp only
  exact (State.setMarks_moves _ _ _ _ _).trans (State.copyMarks_moves _ _ _ _)

theorem State.readMarks_moves (s : State) (p : Seat) (sync : Scope × Ord) (ms : List Mark) :
    s.orderMoved (s.readMarks p sync ms) := by
  unfold State.readMarks
  dsimp only
  split
  · exact .refl s
  · split
    · exact State.orderMoved.trans ⟨_, rfl⟩ (State.inform_moves ..)
    · exact ⟨_, rfl⟩

theorem State.fenceMarks_moves (s : State) (p : Seat) (scope : Scope) (ord : Ord) : s.orderMoved (s.fenceMarks p scope ord) := by
  unfold State.fenceMarks
  dsimp only
  have h (xs : NatSet) : s.orderMoved (if ordAcquires ord = true then s.inform p.group p.lanes xs else s) := by
    split
    · exact s.inform_moves ..
    · exact .refl s
  generalize hv : (if ordAcquires ord = true then _ else s) = v
  have hs : s.orderMoved v := hv ▸ h _
  generalize (if ordReleases ord = true then v.markOf p scope _ else []) = ms
  split
  · exact hs
  · exact hs.trans ⟨_, rfl⟩

theorem State.setMarks_wf (s : State) (l : Loc) (n : Nat) (ms : List Mark) (h : FrameMem.wf s.mem = true) :
    FrameMem.wf (s.setMarks l n ms).mem = true := by
  rw [(s.setMarks_moves l n ms _).mem]
  exact h

/-- A party learns nothing where no write to host memory waits to be flushed. -/
theorem State.learn_flushed (s : State) (p : Who) (xs : NatSet) (h : ∀ f ∈ s.fns, f.2.posted = []) : s.learn p xs = s := by
  have hx : s.unflushed xs = [] := by
    simp only [State.unflushed, List.filter_eq_nil_iff, List.any_eq_true, not_exists, not_and]
    intro _ _ f hf
    simp [h f hf]
  simp [State.learn, hx]

end Sys2Proof.Machine
end

