-- ==== Sys2Proof/Laws/Cache.lean ====
section
/-!
SUPPORT. The caches: what each operation over them can change, and that the memory they show keeps its form.
-/

namespace Sys2Proof.Machine

open Sys2Proof

/-! ### Poison that cached copies alone hold -/

theorem State.poisonMoved.refl (s : State) : s.poisonMoved s := ⟨fun _ h => h, fun _ h => h, fun _ h k => absurd h k⟩

theorem State.poisonMoved.trans {s t u : State} (h : s.poisonMoved t) (k : t.poisonMoved u) : s.poisonMoved u :=
  ⟨fun x hx => h.1 x (k.1 x hx), fun x hx => h.2.1 x (k.2.1 x hx), fun x hx hn => by
    by_cases ht : x ∈ t.poison
    · exact h.1 x (k.2.2 x ht hn)
    · exact h.2.2 x hx ht⟩

theorem State.struckAt_iff (s : State) (u : Nat) :
    s.struckAt u = true ↔ (∃ e ∈ s.dir, u ∈ e.2.struck) ∨ ∃ x ∈ s.sectors, u ∈ x.struck := by
  simp [State.struckAt, List.any_eq_true]

/-- Copies whose marks are marks of before, and the same poison. -/
theorem State.poisonMoved.marks {s t : State} (hp : t.poison = s.poison)
    (hd : ∀ e ∈ t.dir, ∀ u ∈ e.2.struck, s.struckAt u = true) (hx : ∀ x ∈ t.sectors, ∀ u ∈ x.struck, s.struckAt u = true) :
    s.poisonMoved t := by
  refine ⟨fun u hu => ?_, fun u hu => hp ▸ hu, fun u hu hn => absurd (hp ▸ hu) hn⟩
  rcases (t.struckAt_iff u).mp hu with ⟨e, he, hm⟩ | ⟨x, hy, hm⟩
  · exact hd e he u hm
  · exact hx x hy u hm

theorem State.struckAt_dir {s : State} {e : Nat × DirLine} {u : Nat} (he : e ∈ s.dir) (hu : u ∈ e.2.struck) : s.struckAt u = true :=
  (s.struckAt_iff u).mpr (.inl ⟨e, he, hu⟩)

theorem State.struckAt_sector {s : State} {x : Sector} {u : Nat} (hx : x ∈ s.sectors) (hu : u ∈ x.struck) : s.struckAt u = true :=
  (s.struckAt_iff u).mpr (.inr ⟨x, hx, hu⟩)

/-- Nothing has changed but the directory and the sectors, with the poison that they alone held. -/
def State.storesMoved (s t : State) : Prop := (∃ d x p, t = { s with dir := d, sectors := x, poison := p }) ∧ s.poisonMoved t

theorem State.storesMoved.refl (s : State) : s.storesMoved s := ⟨⟨_, _, _, rfl⟩, .refl s⟩

theorem State.storesMoved.trans {s t u : State} (h : s.storesMoved t) (k : t.storesMoved u) : s.storesMoved u := by
  refine ⟨?_, h.2.trans k.2⟩
  obtain ⟨_, _, _, e⟩ := h.1
  obtain ⟨_, _, _, f⟩ := k.1
  exact ⟨_, _, _, by rw [f, e]⟩

theorem State.storesMoved.mem {s t : State} (h : s.storesMoved t) : t.mem = s.mem := by
  obtain ⟨⟨_, _, _, e⟩, -⟩ := h
  rw [e]

/-- Marks of copies that are marks of before. -/
theorem State.storesMoved.marks {s : State} {d : Tab DirLine} {x : List Sector} (hd : ∀ e ∈ d, ∀ u ∈ e.2.struck, s.struckAt u = true)
    (hx : ∀ y ∈ x, ∀ u ∈ y.struck, s.struckAt u = true) : s.storesMoved { s with dir := d, sectors := x } :=
  ⟨⟨_, _, _, rfl⟩, .marks rfl hd hx⟩

/-- Copies of units gone, whose marks were marks of before. -/
theorem State.loseStruck_stores {s t : State} (h : s.storesMoved t) (us : List Nat) (hu : ∀ u ∈ us, s.struckAt u = true) :
    s.storesMoved (t.loseStruck us) := by
  obtain ⟨⟨_, _, _, e⟩, hs, hp, hn⟩ := h
  refine ⟨⟨_, _, _, by unfold State.loseStruck; rw [e]⟩, fun u hu => hs u hu, fun u hm => ?_, fun u hm hg => ?_⟩
  · exact hp u (List.mem_filter.mp hm).1
  · by_cases ht : u ∈ t.poison
    · by_cases hl : u ∈ us
      · exact hu u hl
      · exact absurd (List.mem_filter.mpr ⟨ht, by simp [hl]⟩) hg
    · exact hn u hm ht

/-- A line put into the directory whose marks are marks of before. -/
theorem State.storesMoved.put {s t : State} (h : s.storesMoved t) (l : Nat) (x : DirLine) (hx : ∀ u ∈ x.struck, t.struckAt u = true) :
    s.storesMoved { t with dir := t.dir.put l x } :=
  h.trans (.marks (fun e he u hu => (Tab.mem_put he).elim (fun hh => hx u (by rw [hh] at hu; exact hu)) fun hh => State.struckAt_dir hh hu)
    fun _ hy u hu => State.struckAt_sector hy hu)

theorem State.storesMoved.foldl {α : Type} (f : State → α → State) (h : ∀ (s : State) (x : α), s.storesMoved (f s x)) (l : List α) (s : State) :
    s.storesMoved (l.foldl f s) := by
  induction l generalizing s with
  | nil => exact .refl s
  | cons x t ih => exact (h s x).trans (ih _)

/-- A change of every sector that adds no mark. -/
theorem State.storesMoved.sectors (s : State) (f : Sector → Sector) (h : ∀ x, ∀ u ∈ (f x).struck, u ∈ x.struck) :
    s.storesMoved { s with sectors := s.sectors.map f } := by
  refine .marks (fun e he u hu => State.struckAt_dir he hu) fun y hy u hu => ?_
  obtain ⟨x, hx, rfl⟩ := List.mem_map.mp hy
  exact State.struckAt_sector hx (h x u hu)

theorem Sector.take_struck (x : Sector) (u : Nat) (d : Bool) : ∀ v ∈ (x.take u d).struck, v ∈ x.struck := by
  intro v hv
  unfold Sector.take at hv
  dsimp only at hv
  split at hv
  · exact (List.mem_filter.mp hv).1
  · exact hv

theorem State.touchUnit_stores (s : State) (k u : Nat) (d : Bool) : s.storesMoved (s.touchUnit k u d) := by
  have h (p : Sector → Bool) : s.storesMoved { s with sectors := s.sectors.map fun x => if p x then x.take u d else x } := by
    refine .sectors s _ fun x v hv => ?_
    split at hv
    · exact x.take_struck u d v hv
    · exact hv
  unfold State.touchUnit
  dsimp only
  split
  · exact h _
  · split
    · exact h _
    · refine .marks (fun e he u hu => State.struckAt_dir he hu) fun y hy v hv => ?_
      rcases List.mem_append.mp hy with hy | hy
      · exact State.struckAt_sector hy hv
      · rw [List.mem_singleton] at hy
        subst hy
        exact absurd (Sector.take_struck _ _ _ v hv) (List.not_mem_nil)

theorem State.touchRange_stores (s : State) (k dom n : Nat) (d : Bool) : s.storesMoved (s.touchRange k dom n d) :=
  .foldl _ (fun s u => s.touchUnit_stores k u d) _ s

theorem Sector.without_foldl_struck (us : List Nat) (x : Sector) : ∀ v ∈ (us.foldl Sector.without x).struck, v ∈ x.struck := by
  induction us generalizing x with
  | nil => exact fun _ h => h
  | cons u t ih => exact fun v hv => (List.mem_filter.mp (ih _ v hv)).1

theorem State.takeTile_stores (s : State) (fn tid i j : Nat) (us : List Nat) : s.storesMoved (s.takeTile fn tid i j us) := by
  unfold State.takeTile
  dsimp only
  refine State.loseStruck_stores (.marks (fun e he u hu => State.struckAt_dir he hu) fun y hy v hv => ?_) _ fun u hu => ?_
  · rcases List.mem_append.mp hy with hy | hy
    · obtain ⟨x, hx, rfl⟩ := List.mem_map.mp (List.mem_filter.mp hy).1
      exact State.struckAt_sector (List.mem_filter.mp hx).1 (Sector.without_foldl_struck us x v hv)
    · rw [List.mem_singleton] at hy
      subst hy
      have hv := (List.mem_filter.mp hv).2
      rw [Bool.and_eq_true] at hv
      obtain ⟨x, hx, hc⟩ := List.any_eq_true.mp hv.2
      exact State.struckAt_sector hx (by simpa using hc)
  · obtain ⟨x, hx, hm⟩ := List.mem_flatMap.mp hu
    exact State.struckAt_sector (List.mem_filter.mp hx).1 hm

theorem State.evictLine_stores (s : State) (l : Nat) : s.storesMoved (s.evictLine l) := by
  unfold State.evictLine
  split
  · exact .refl s
  · rename_i x hx
    dsimp only
    have h : s.storesMoved { s with dir := s.dir.erase l } :=
      .marks (fun e he u hu => State.struckAt_dir (Tab.mem_erase he) hu) fun _ hy u hu => State.struckAt_sector hy hu
    split
    · exact h.trans (.foldl _ (fun s u => s.touchUnit_stores _ u true) _ _)
    · refine State.loseStruck_stores h _ fun u hu => ?_
      exact State.struckAt_dir (Tab.mem_of_get? hx) (by simpa using (List.mem_filter.mp hu).2)

theorem State.evictOther_stores (s : State) (k l : Nat) : s.storesMoved (s.evictOther k l) := by
  unfold State.evictOther; split
  · exact s.evictLine_stores l
  · exact .refl s

theorem State.evictRange_stores (s : State) (dom n : Nat) : s.storesMoved (s.evictRange dom n) :=
  .foldl _ State.evictLine_stores _ s

theorem State.cleanLine_stores (s : State) (l : Nat) : s.storesMoved (s.cleanLine l) := by
  unfold State.cleanLine
  dsimp only
  refine .marks (fun e he u hu => ?_) fun y hy u hu => ?_
  · split at he
    · rename_i x hx
      rcases Tab.mem_put he with rfl | he
      · dsimp only at hu
        split at hu
        · exact absurd hu (List.not_mem_nil)
        · exact State.struckAt_dir (Tab.mem_of_get? hx) hu
      · exact State.struckAt_dir he hu
    · exact State.struckAt_dir he hu
  · obtain ⟨x, hx, rfl⟩ := List.mem_map.mp hy
    exact State.struckAt_sector hx (List.mem_filter.mp hu).1

theorem Sector.slice_struck (x : Sector) (c : Bool) : (x.slice c).struck = x.struck := by
  unfold Sector.slice
  split
  · rfl
  · split <;> rfl

theorem State.readUnit_stores (s : State) (k u : Nat) : s.storesMoved (s.readUnit k u) := by
  refine (s.touchUnit_stores k u false).trans (.sectors _ _ fun x v hv => ?_)
  split at hv
  · rwa [x.slice_struck] at hv
  · exact hv

/-- What a unit's home holds no more of in a cached copy alone. -/
theorem State.unstrike_stores (s : State) (us : List Nat) : s.storesMoved (s.unstrike us) := by
  refine .marks (fun e he u hu => ?_) fun y hy u hu => ?_
  · obtain ⟨x, hx, rfl⟩ := List.mem_map.mp he
    exact State.struckAt_dir hx (List.mem_filter.mp hu).1
  · obtain ⟨x, hx, rfl⟩ := List.mem_map.mp hy
    exact State.struckAt_sector hx (List.mem_filter.mp hu).1

theorem State.dirJoin_stores (s : State) (f : State → Nat → State) (h : ∀ (s : State) (u : Nat), s.storesMoved (f s u)) (d k dom : Nat) :
    s.storesMoved (s.dirJoin f d k dom) := by
  unfold State.dirJoin
  dsimp only
  refine (s.evictOther_stores k (lineOf dom)).trans ?_
  split
  · rename_i x hx
    split
    · exact .refl _
    · exact (State.storesMoved.refl _).put _ _ fun u hu => State.struckAt_dir (Tab.mem_of_get? hx) hu
  · refine (State.storesMoved.foldl _ h _ _).put _ _ fun u hu => ?_
    obtain ⟨x, hx, hc⟩ := List.any_eq_true.mp (List.mem_filter.mp hu).2
    exact State.struckAt_sector hx (by simpa using hc)

theorem State.dirRead_stores (s : State) (d k dom : Nat) (rows : Bool) : s.storesMoved (s.dirRead d k dom rows) := by
  refine s.dirJoin_stores _ (fun s u => ?_) d k dom
  split
  · exact s.readUnit_stores k u
  · exact s.touchUnit_stores k u false

theorem State.dirWrite_stores (s : State) (d k dom : Nat) : s.storesMoved (s.dirWrite d k dom) :=
  ((s.dirJoin_stores _ (fun s u => s.touchUnit_stores k u false) d k dom).trans (State.unstrike_stores _ _)).put _ _
    fun _ hu => absurd hu (List.not_mem_nil)

/-- After its write the die alone holds the line, in M (spec/07 R140). -/
theorem State.dirWrite_line (s : State) (d k dom : Nat) :
    (s.dirWrite d k dom).dir.get? (lineOf dom) = some { slot := k, sharers := dieBit d, owner := some d, dirty := true } :=
  Tab.get?_put_self ..

/-! ### What the L1s hold -/

@[simp] theorem State.modL1_mem (s : State) (c : Nat) (f : Tab L1Line → Tab L1Line) : (s.modL1 c f).mem = s.mem := rfl
@[simp] theorem State.modL1_units (s : State) (c : Nat) (f : Tab L1Line → Tab L1Line) : (s.modL1 c f).units = s.units := rfl
@[simp] theorem State.modL1_poison (s : State) (c : Nat) (f : Tab L1Line → Tab L1Line) : (s.modL1 c f).poison = s.poison := rfl
@[simp] theorem State.modL1_dir (s : State) (c : Nat) (f : Tab L1Line → Tab L1Line) : (s.modL1 c f).dir = s.dir := rfl
@[simp] theorem State.modL1_hostMem (s : State) (c : Nat) (f : Tab L1Line → Tab L1Line) : (s.modL1 c f).hostMem = s.hostMem := rfl
@[simp] theorem State.modL1_rcv (s : State) (c : Nat) (f : Tab L1Line → Tab L1Line) : (s.modL1 c f).rcv = s.rcv := rfl

/-- A core but for its L1 is as it was. -/
theorem State.modL1_core (s : State) (c m : Nat) (f : Tab L1Line → Tab L1Line) :
    { (s.modL1 c f).coreAt m with l1 := (s.coreAt m).l1 } = s.coreAt m := by
  by_cases h : m = c
  · subst h; simp [State.modL1]
  · simp [State.modL1, h]

/-- An acquire leaves no line in the core's L1 (spec/07 R139). -/
@[simp] theorem State.clearL1_self (s : State) (c : Nat) : ((s.clearL1 c).coreAt c).l1 = [] := by
  simp [State.clearL1]

/-- A line dropped from a core's L1 is not there. -/
@[simp] theorem State.dropL1_self (s : State) (c dom : Nat) : ((s.dropL1 c dom).coreAt c).l1.get? (lineOf dom) = none := by
  simp [State.dropL1, State.modL1]

/-! ### Reads move the caches alone -/

theorem State.cachesMoved.refl (s : State) : s.cachesMoved s := ⟨rfl, .refl s, fun _ => rfl, fun _ => rfl⟩

theorem State.cachesMoved.trans {s t u : State} (h : s.cachesMoved t) (k : t.cachesMoved u) : s.cachesMoved u := by
  obtain ⟨h, hp, hc, ht⟩ := h
  obtain ⟨k, kp, kc, kt⟩ := k
  refine ⟨?_, hp.trans kp, fun c => ?_, fun j => ?_⟩
  · rw [← h, ← k]
  · rw [← hc c, ← kc c]
  · rw [← ht j, ← kt j]

theorem State.storesMoved.caches {s t : State} (h : s.storesMoved t) : s.cachesMoved t := by
  obtain ⟨⟨_, _, _, rfl⟩, hp⟩ := h
  exact ⟨rfl, hp, fun _ => rfl, fun _ => rfl⟩

theorem State.modL1_caches (s : State) (c : Nat) (f : Tab L1Line → Tab L1Line) : s.cachesMoved (s.modL1 c f) :=
  ⟨rfl, .refl s, fun m => by have h := s.modL1_core c m f; rw [← h], fun _ => rfl⟩

theorem State.cacheLeaf_caches (s : State) (core fn g va : Nat) : s.cachesMoved (s.cacheLeaf core fn g va) := by
  unfold State.cacheLeaf
  split
  · split
    · exact ⟨rfl, .refl s, fun _ => rfl, fun _ => rfl⟩
    · exact .refl s
  · exact .refl s

theorem State.sendRequest_caches (s : State) (k dom : Nat) (r : RemoteReq) : s.cachesMoved (s.sendRequest k dom r) :=
  ⟨rfl, .refl s, fun _ => rfl, fun _ => rfl⟩

theorem State.fetchLine_caches (s : State) (d k dom : Nat) (rows : Bool) : s.cachesMoved (s.fetchLine d k dom rows) := by
  unfold State.fetchLine; split
  · exact (s.dirRead_stores d k dom rows).caches
  · exact s.sendRequest_caches ..

/-- A thread's read changes no byte and no register: only lines of caches, and what has left for other packages. -/
theorem State.readThrough_caches (s : State) (core : Nat) (l : Loc) (rows : Bool) : s.cachesMoved (s.readThrough core l rows) := by
  unfold State.readThrough
  split
  · split
    · exact .refl s
    · exact ((s.fetchLine_caches ..).trans (State.modL1_caches ..)).trans (State.copyMarks_moves ..).caches
  all_goals exact .refl s

theorem State.cachesMoved.foldl {α : Type} (f : State → α → State) (h : ∀ (s : State) (x : α), s.cachesMoved (f s x)) (l : List α)
    (s : State) : s.cachesMoved (l.foldl f s) := by
  induction l generalizing s with
  | nil => exact .refl s
  | cons x t ih => exact (h s x).trans (ih _)

/-- A read by an agent at its home changes no byte and no register. -/
theorem State.homeRead_caches (s : State) (linear : Bool) (k dom n : Nat) : s.cachesMoved (s.homeRead linear k dom n) := by
  unfold State.homeRead
  split
  · exact s.sendRequest_caches ..
  · split
    · exact .refl s
    · dsimp only
      have h := (State.storesMoved.foldl _ (fun (s : State) l => s.evictOther_stores k l)
        (natsFrom (lineOf dom) ((dom + n - 1) / 128 - dom / 128 + 1)) s).caches
      split
      · refine h.trans (.foldl _ (fun s u => ?_) _ _)
        split
        · exact .refl s
        · exact (s.readUnit_stores k u).caches
      · exact h

/-- A translation changes no byte and no register: its walk reads tables. -/
theorem State.walked_caches (s : State) (core fn g va : Nat) : s.cachesMoved (s.walked core fn g va) := by
  unfold State.walked
  split
  · exact .refl s
  · exact .foldl _ (fun s r => s.homeRead_caches ..) _ s

/-! ### Writes -/

/-- A thread's store shows the bytes that a write of its place shows (spec/07 R139). -/
theorem State.threadWrite_mem (s : State) (core : Nat) (l : Loc) (bs : List Byte) :
    (s.threadWrite core l bs).mem = (s.writeLoc l bs).mem := by
  unfold State.threadWrite
  dsimp only
  split
  · unfold State.patchL1
    split
    · rw [State.modL1_mem, ((s.writeLoc _ bs).dirWrite_stores ..).mem]
    · rfl
  all_goals rfl

/-- A place written keeps the form of frame space. -/
theorem State.writeLoc_wf (s : State) (l : Loc) (bs : List Byte) (h : FrameMem.wf s.mem = true) :
    FrameMem.wf (s.writeLoc l bs).mem = true := by
  cases l with
  | frame dom key => exact s.writeRange_wf key dom bs h
  | scratch | die | slice => exact h

theorem State.threadWrite_wf (s : State) (core : Nat) (l : Loc) (bs : List Byte) (h : FrameMem.wf s.mem = true) :
    FrameMem.wf (s.threadWrite core l bs).mem = true := by
  rw [s.threadWrite_mem]
  exact s.writeLoc_wf l bs h

/-- A write performed at the home store cache keeps the form. -/
theorem State.homeWrite_wf (s : State) (k dom : Nat) (bs : List Byte) (h : FrameMem.wf s.mem = true) :
    FrameMem.wf (s.homeWrite k dom bs).mem = true := by
  unfold State.homeWrite
  have h := s.setMarks_wf (.frame dom k) bs.length [] h
  dsimp only
  split
  · rw [(State.touchRange_stores ..).mem]
    apply State.writeRange_wf
    rw [(State.evictRange_stores ..).mem]
    exact h
  · exact State.writeRange_wf _ k dom bs h

theorem State.agentWrite_wf (s : State) (l : Loc) (bs : List Byte) (h : FrameMem.wf s.mem = true) :
    FrameMem.wf (s.agentWrite l bs).mem = true := by
  cases l with
  | frame dom key => exact s.homeWrite_wf key dom bs h
  | scratch | die | slice => exact s.setMarks_wf _ _ _ h

theorem State.dropL1Range_foldl_mem (dom n : Nat) (l : List Nat) (s : State) :
    (l.foldl (fun s c => s.dropL1Range c dom n) s).mem = s.mem := by
  induction l generalizing s with
  | nil => rfl
  | cons c t ih => rw [List.foldl_cons, ih]; rfl

theorem State.engineWrite_wf (s : State) (cores : List Nat) (l : Loc) (bs : List Byte) (h : FrameMem.wf s.mem = true) :
    FrameMem.wf (s.engineWrite cores l bs).mem = true := by
  unfold State.engineWrite
  dsimp only
  split
  · rw [State.dropL1Range_foldl_mem]
    exact s.agentWrite_wf _ bs h
  all_goals exact s.agentWrite_wf _ bs h

/-! ### Losses -/

theorem State.loseWrites_wf (s : State) (u : Nat) (h : FrameMem.wf s.mem = true) : FrameMem.wf (s.loseWrites u).mem = true := by
  unfold State.loseWrites
  dsimp only
  generalize (natsFrom (32 * u) 32).map _ = bs
  exact putBytes_wf _ _ bs h

theorem State.loseWrites_foldl_wf (l : List Nat) (s : State) (h : FrameMem.wf s.mem = true) :
    FrameMem.wf (l.foldl State.loseWrites s).mem = true := by
  induction l generalizing s with
  | nil => exact h
  | cons u t ih => rw [List.foldl_cons]; exact ih (s.loseWrites u) (s.loseWrites_wf u h)

@[simp] theorem State.someEvicted_mem (s : State) : s.someEvicted.mem = s.mem := by
  unfold State.someEvicted
  exact (State.storesMoved.foldl _ (fun (s : State) (e : Nat × DirLine) => s.evictLine_stores e.1) _ s).mem

/-- The loss of a store cache keeps the form. -/
theorem State.loseStore_wf (s : State) (d : Nat) (h : FrameMem.wf s.mem = true) : FrameMem.wf (s.loseStore d).mem = true := by
  unfold State.loseStore
  dsimp only [State.bump, State.loseStruck]
  apply State.loseWrites_foldl_wf
  rwa [State.someEvicted_mem]

/-- The drop of a key's lines keeps the form. -/
theorem State.dropKey_wf (s : State) (k : Nat) (h : FrameMem.wf s.mem = true) : FrameMem.wf (s.dropKey k).mem = true := by
  unfold State.dropKey
  dsimp only [State.bump, State.loseStruck]
  apply State.loseWrites_foldl_wf
  rwa [State.someEvicted_mem]

@[simp] theorem State.chargeSlot_mem (s : State) (k : Option Nat) : (s.chargeSlot k).mem = s.mem := by
  cases k with
  | none => rfl
  | some k => rfl

@[simp] theorem State.unstrike_mem (s : State) (us : List Nat) : (s.unstrike us).mem = s.mem := rfl

theorem State.poisonLine_foldl_mem (l : List Nat) (s : State) : (l.foldl State.poisonLine s).mem = s.mem := by
  induction l generalizing s with
  | nil => rfl
  | cons u t ih => rw [List.foldl_cons, ih]; simp [State.poisonLine, State.poisonFor]

/-- A die that loses its lines changes no byte: what it held dirty is poisoned (spec/07 R161). -/
theorem State.loseDie_mem (s : State) (d : Nat) : (s.loseDie d).mem = s.mem := by
  unfold State.loseDie State.loseStruck
  dsimp only
  rw [State.poisonLine_foldl_mem, State.someEvicted_mem]

end Sys2Proof.Machine
end

