-- ==== Sys2Proof/Laws/Issue.lean ====
section
/-!
SUPPORT. Laws of the word in hand: what noting writes, traps and waits does to the state.
-/

namespace Sys2Proof.Machine

open Sys2Proof

/-- Two changes of the clause in hand are one. -/
theorem State.modIt_modIt (s : State) (f g : Issue → Issue) : (s.modIt f).modIt g = s.modIt (fun x => g (f x)) := by
  unfold State.modIt
  cases h : (s.quarter s.cur).issue with
  | none => simp [h]
  | some it =>
    simp only [State.setQuarter_cur, State.quarter_setQuarter_self]
    simp [State.setQuarter, Tab.put_put]

theorem State.modIt_none (s : State) (f : Issue → Issue) (h : s.issuing = false) : s.modIt f = s := by
  unfold State.modIt
  unfold State.issuing at h
  cases hi : (s.quarter s.cur).issue with
  | none => rfl
  | some it => simp [hi] at h

theorem State.modIt_it (s : State) (f : Issue → Issue) (h : s.issuing = true) : (s.modIt f).it = f s.it := by
  unfold State.modIt State.it
  unfold State.issuing at h
  cases hi : (s.quarter s.cur).issue with
  | none => simp [hi] at h
  | some it => simp [hi]

@[simp] theorem State.modIt_cur (s : State) (f : Issue → Issue) : (s.modIt f).cur = s.cur := by
  unfold State.modIt; split <;> rfl

@[simp] theorem State.modIt_issuing (s : State) (f : Issue → Issue) : (s.modIt f).issuing = s.issuing := by
  unfold State.modIt State.issuing
  cases hi : (s.quarter s.cur).issue with
  | none => simp [hi]
  | some it => simp [hi]

@[simp] theorem State.modIt_groups (s : State) (f : Issue → Issue) : (s.modIt f).groups = s.groups := by
  unfold State.modIt; split <;> rfl

@[simp] theorem State.modIt_group (s : State) (f : Issue → Issue) (g : Nat) : (s.modIt f).group g = s.group g := by
  unfold State.group; simp

/-- A change of the clause in hand changes only the quarter in hand. -/
theorem State.modIt_only (s : State) (f : Issue → Issue) :
    { s.modIt f with quarters := s.quarters } = s ∧ ∀ q, q ≠ s.cur → (s.modIt f).quarter q = s.quarter q := by
  unfold State.modIt
  split
  · exact ⟨rfl, fun q h => by simp [h]⟩
  · exact ⟨rfl, fun _ _ => rfl⟩

@[simp] theorem State.setGroup_it (s : State) (g : Nat) (x : Group) : (s.setGroup g x).it = s.it := rfl

@[simp] theorem State.setGroup_issuing (s : State) (g : Nat) (x : Group) : (s.setGroup g x).issuing = s.issuing := rfl

/-! ### Writes of the word in hand -/

@[simp] theorem State.commit_issuing (s : State) (ws : List GWrite) : (s.commit ws).issuing = s.issuing := by
  unfold State.commit
  split <;> simp

@[simp] theorem State.commit_cur (s : State) (ws : List GWrite) : (s.commit ws).cur = s.cur := by
  unfold State.commit
  split <;> simp

/-- Where no member takes turns, a run notes nothing for those after it. -/
theorem Issue.note_nil (it : Issue) (ws : List GWrite) (h : it.turns = []) : it.note ws = it := by
  simp [Issue.note, h]

/-- Where no member takes turns, a run reads the registers as the issue group began. -/
theorem Issue.view_nil (it : Issue) (h : it.turns = []) : it.view = it.snap := by
  simp [Issue.view, h]

theorem State.commit_it (s : State) (ws : List GWrite) (h : s.issuing = true) (ht : s.it.turns = []) :
    (s.commit ws).it = { s.it with gflags := s.it.gflags ||| flagsOf ws,
                                   fpsr0 := (ws.map (keepFlags s.it.gflags)).foldl fpsrAfter s.it.fpsr0 } := by
  unfold State.commit
  simp [h, ht, State.modIt_it, Issue.note_nil]

/-- No trap and no wait noted leaves the state of a word that wrote registers as it is. -/
theorem State.commit_quiet (s : State) (ws : List GWrite) : ((s.commit ws).pend []).pendWait [] = s.commit ws := by
  unfold State.pend State.pendWait
  simp only [List.foldl_nil, State.modIt_modIt]
  unfold State.commit
  split
  · rw [State.modIt_modIt]
  next h => exact State.modIt_none _ _ (by simpa using h)

theorem MRes.apply_quiet (r : MRes) (ht : r.traps = []) (hw : r.waits = []) : r.apply = r.st.commit r.writes := by
  unfold MRes.apply
  rw [ht, hw, State.commit_quiet]

theorem State.finish_quiet (s : State) (h : s.clean) : s.finish = s := by
  obtain ⟨-, ht, hw, hl, -⟩ := h
  unfold State.finish State.settle
  simp [ht, hw, hl]

@[simp] theorem State.commit_stalled (s : State) (ws : List GWrite) : (s.commit ws).stalled = s.stalled := by
  unfold State.commit State.modIt
  dsimp only
  split
  · split <;> rfl
  · rfl

/-- What a clean state leaves of a word that may be held. -/
theorem unlessHeld_clean (s t : State) (h : t.clean) : unlessHeld s t = .next t := by
  have hf := State.finish_quiet t h
  obtain ⟨-, -, -, -, hh, hs, -⟩ := h
  simp only [unlessHeld, done, hh, hs, hf, Bool.or_self, Bool.false_eq_true, ↓reduceIte]

theorem State.commit_clean (s : State) (ws : List GWrite) (h : s.clean) : (s.commit ws).clean := by
  obtain ⟨hi, ht, hw, hl, hh, hs, hn⟩ := h
  refine ⟨by simpa using hi, ?_, ?_, ?_, ?_, by simpa using hs, ?_⟩ <;> rw [State.commit_it s ws hi hn] <;> assumption

/-- A word of the batch that meets no trap and no wait. -/
theorem batchWord_quiet (s : State) (f : Issue → Group → State → MRes) (hc : (f s.it s.it.snap s).st.clean)
    (ht : (f s.it s.it.snap s).traps = []) (hw : (f s.it s.it.snap s).waits = []) :
    batchWord s f = .next ((f s.it s.it.snap s).st.commit (f s.it s.it.snap s).writes) := by
  unfold batchWord done
  rw [MRes.apply_quiet _ ht hw]
  rw [State.finish_quiet _ (State.commit_clean _ _ hc)]

/-- An access word of the batch that meets no trap and no wait. -/
theorem accessWord_quiet (s : State) (f : Issue → Group → State → MRes) (hc : (f s.it s.it.snap s).st.clean)
    (ht : (f s.it s.it.snap s).traps = []) (hw : (f s.it s.it.snap s).waits = []) :
    accessWord s f = .next ((f s.it s.it.snap s).st.commit (f s.it s.it.snap s).writes) := by
  unfold accessWord
  rw [MRes.apply_quiet _ ht hw, unlessHeld_clean _ _ (State.commit_clean _ _ hc)]

/-- A word of the one fibre that issues, where it meets no trap and no wait. -/
theorem perMember_lone (s : State) (m : Fibre) (f : Fibre → Group → State → MRes) (h : s.it.parts = [m]) (hn : s.it.turns = [])
    (hc : (f m s.it.snap s).st.clean) (ht : (f m s.it.snap s).traps = []) (hw : (f m s.it.snap s).waits = []) :
    perMember s f = .next ((f m s.it.snap s).st.commit (f m s.it.snap s).writes) := by
  unfold perMember done State.runEach
  rw [h, Issue.view_nil _ hn]
  simp only [runMembers]
  rw [MRes.apply_quiet _ ht hw]
  rw [State.finish_quiet _ (State.commit_clean _ _ hc)]

/-- An access word of the one fibre that issues, where it meets no trap and no wait. -/
theorem accessEach_lone (s : State) (m : Fibre) (f : Fibre → Group → State → MRes) (h : s.it.parts = [m]) (hn : s.it.turns = [])
    (hc : (f m s.it.snap s).st.clean) (ht : (f m s.it.snap s).traps = []) (hw : (f m s.it.snap s).waits = []) :
    accessEach s f = .next ((f m s.it.snap s).st.commit (f m s.it.snap s).writes) := by
  unfold accessEach State.runEach
  rw [h, Issue.view_nil _ hn]
  simp only [runMembers]
  rw [MRes.apply_quiet _ ht hw, unlessHeld_clean _ _ (State.commit_clean _ _ hc)]

/-- A scalar word of the one fibre that issues. -/
theorem scalarWord_lone (s : State) (m : Fibre) (f : Fibre → Group → List GWrite) (h : s.lone m) :
    scalarWord s f = .next (s.commit (f m s.it.snap)) :=
  perMember_lone s m _ h.2 h.1.2.2.2.2.2.2 h.1 rfl rfl

/-- Writes without flags change the group and nothing else. -/
theorem State.commit_only (s : State) (ws : List GWrite) (h : s.issuing = true) : s.onlyMine (s.commit ws) := by
  unfold State.commit
  simp only [h, ↓reduceIte]
  have hm := State.modIt_only (s.setGroup s.it.group ((s.group s.it.group).writes (ws.map (keepFlags s.it.gflags))))
    (fun it => { it.note (ws.map (keepFlags s.it.gflags)) with
                         gflags := s.it.gflags ||| flagsOf ws,
                         fpsr0 := (ws.map (keepFlags s.it.gflags)).foldl fpsrAfter it.fpsr0 })
  refine ⟨?_, ?_, ?_⟩
  · have := congrArg (fun t : State => { t with groups := s.groups }) hm.1
    exact this
  · intro g hg
    simp [hg]
  · intro q hq
    exact hm.2 q hq

/-- Writes note nothing but the flags that they raise. -/
theorem State.commit_unnoted (s : State) (ws : List GWrite) (h : s.issuing = true) (ht : s.it.turns = []) : s.unnoted (s.commit ws) := by
  unfold State.commit
  simp only [h, ↓reduceIte]
  unfold State.issuing at h
  obtain ⟨it, hi⟩ := Option.isSome_iff_exists.mp h
  refine ⟨{ it with gflags := s.it.gflags ||| flagsOf ws, fpsr0 := (ws.map (keepFlags s.it.gflags)).foldl fpsrAfter it.fpsr0 }, ?_, ?_⟩
  · have hn : it.turns = [] := by simpa [State.it, hi] using ht
    simp [State.modIt, hi, Issue.note_nil _ _ hn]
  · simp [State.it, hi]

theorem State.commit_group (s : State) (ws : List GWrite) (h : s.issuing = true) :
    (s.commit ws).group s.it.group = (s.group s.it.group).writes (ws.map (keepFlags s.it.gflags)) := by
  unfold State.commit
  simp [h]

theorem State.commit_mine (s : State) (ws : List GWrite) (h : s.issuing = true) (ht : s.it.turns = []) :
    (s.commit ws).mine = s.mine.writes (ws.map (keepFlags s.it.gflags)) := by
  unfold State.mine
  rw [State.commit_it s ws h ht]
  exact State.commit_group s ws h

/-- Writes of which none is of the whole %fpsr. -/
theorem State.commit_wrote (s : State) (ws : List GWrite) (h : s.issuing = true) (ht : s.it.turns = []) (hw : ws.map (keepFlags s.it.gflags) = ws) :
    s.wrote (s.commit ws) ws :=
  ⟨State.commit_only s ws h, State.commit_unnoted s ws h ht, by rw [State.commit_mine s ws h ht, hw]⟩

/-- One scalar register written. -/
theorem State.commit_wroteS (s : State) (n : Nat) (x : Word) (h : s.issuing = true) (ht : s.it.turns = []) :
    s.wroteS (s.commit [.s n x]) n x :=
  ⟨State.commit_wrote s _ h ht rfl, by
    rw [State.commit_mine s _ h ht]; simp [Group.writes, Group.write, keepFlags, Group.sreg]⟩

/-- One condition bit written. -/
theorem State.commit_wroteC (s : State) (m : Fibre) (n : Nat) (b : Bool) (h : s.issuing = true) (ht : s.it.turns = []) :
    s.wroteC (s.commit [.c m.id n b]) m n b := State.commit_wrote s _ h ht rfl

end Sys2Proof.Machine
end

