-- ==== Sys2Proof/Laws/Lanes.lean ====
section
/-!
SUPPORT. Laws of the lane-wise words: what a word writes when every operand is in bounds.
-/

namespace Sys2Proof.Machine

open Sys2Proof

/-! ### Lanes -/

theorem mem_lanesOf {m : Mask} {l : Nat} : l ∈ lanesOf m ↔ l < 32 ∧ m.getLsbD l = true := by
  simp [lanesOf]

theorem lanesOf_nodup (m : Mask) : (lanesOf m).Nodup := List.Nodup.filter _ List.nodup_range

theorem goodLanes_map (ls : List Nat) (f : Nat → Except Word (List Nat)) (r : Nat → List Nat)
    (h : ∀ l ∈ ls, f l = .ok (r l)) : goodLanes (ls.map fun l => (l, f l)) = ls.map fun l => (l, r l) := by
  induction ls with
  | nil => rfl
  | cons a t ih =>
    have ha := h a (List.mem_cons_self ..)
    have ht := ih fun l hl => h l (List.mem_cons_of_mem _ hl)
    simp only [goodLanes, List.map_cons] at ht ⊢
    rw [List.filterMap_cons]
    simp only [ha, ht]

theorem boundTraps_map (ls : List Nat) (f : Nat → Except Word (List Nat)) (r : Nat → List Nat)
    (h : ∀ l ∈ ls, f l = .ok (r l)) : boundTraps (ls.map fun l => (l, f l)) = [] := by
  induction ls with
  | nil => rfl
  | cons a t ih =>
    have ha := h a (List.mem_cons_self ..)
    have ht := ih fun l hl => h l (List.mem_cons_of_mem _ hl)
    simp only [boundTraps, List.map_cons] at ht ⊢
    rw [List.filterMap_cons]
    simp only [ha, ht]

/-- A lane-wise word whose operands are in bounds in every lane that issues. -/
theorem laneWord_answers (s : State) (ops : List VArg) (f : Machine.Group → Nat → List Nat → List GWrite)
    (r : Nat → List Nat) (hc : s.clean) (ho : s.operands ops r) :
    laneWord s ops f = .next (s.commit ((lanesOf s.it.mask).flatMap fun l => f s.regs l (r l))) := by
  have hg : goodLanes (laneRegs s.it s.it.snap ops) = (lanesOf s.it.mask).map fun l => (l, r l) :=
    goodLanes_map _ _ r ho.2
  have ht : boundTraps (laneRegs s.it s.it.snap ops) = [] := boundTraps_map _ _ r ho.2
  unfold laneWord
  rw [batchWord_quiet s _ hc ht rfl]
  simp only [hg, List.flatMap_map]
  rfl

/-! ### Writes of a list of lanes -/

theorem Group.writes_append (g : Machine.Group) (a b : List GWrite) : g.writes (a ++ b) = (g.writes a).writes b := by
  simp [Group.writes]

/-- What a write leaves alone besides the v registers and %fpsr. -/
theorem Group.writes_v_frame (g : Machine.Group) (ws : List GWrite)
    (h : ∀ w ∈ ws, (∃ l r x, w = .v l r x) ∨ ∃ m, w = .flags m) :
    { g.writes ws with v := g.v, fpsr := g.fpsr } = g := by
  induction ws generalizing g with
  | nil => rfl
  | cons w t ih =>
    have ht := ih (g.write w) fun x hx => h x (List.mem_cons_of_mem _ hx)
    have hw : { g.write w with v := g.v, fpsr := g.fpsr } = g := by
      rcases h w (List.mem_cons_self ..) with ⟨l, r, x, rfl⟩ | ⟨m, rfl⟩ <;> rfl
    have hc : g.writes (w :: t) = (g.write w).writes t := rfl
    rw [hc]
    have := congrArg (fun k : Machine.Group => { k with v := g.v, fpsr := g.fpsr }) ht
    exact this.trans hw

theorem Group.writes_p_frame (g : Machine.Group) (ws : List GWrite)
    (h : ∀ w ∈ ws, (∃ l r x, w = .p l r x) ∨ ∃ m, w = .flags m) :
    { g.writes ws with p := g.p, fpsr := g.fpsr } = g := by
  induction ws generalizing g with
  | nil => rfl
  | cons w t ih =>
    have ht := ih (g.write w) fun x hx => h x (List.mem_cons_of_mem _ hx)
    have hw : { g.write w with p := g.p, fpsr := g.fpsr } = g := by
      rcases h w (List.mem_cons_self ..) with ⟨l, r, x, rfl⟩ | ⟨m, rfl⟩ <;> rfl
    have hc : g.writes (w :: t) = (g.write w).writes t := rfl
    rw [hc]
    have := congrArg (fun k : Machine.Group => { k with p := g.p, fpsr := g.fpsr }) ht
    exact this.trans hw

/-- One lane's writes of a value and its flags. -/
def laneOut (l : Nat) (wide : Bool) (e x : Nat) (m : Word) : List GWrite := vput l wide e x ++ flagWrites m

theorem laneOut_form (l : Nat) (wide : Bool) (e x : Nat) (m : Word) :
    ∀ w ∈ laneOut l wide e x m, (∃ l r x, w = .v l r x) ∨ ∃ m, w = .flags m := by
  intro w hw
  unfold laneOut vput flagWrites at hw
  split at hw <;> split at hw <;> simp at hw
  · rcases hw with rfl | rfl <;> simp
  · rcases hw with rfl | rfl | rfl <;> simp
  · subst hw; simp
  · rcases hw with rfl | rfl <;> simp

theorem laneOut_v (g : Machine.Group) (l : Nat) (wide : Bool) (e x : Nat) (m : Word) :
    (g.writes (laneOut l wide e x m)).v =
      if wide then (g.v.put (256 * l + e) (BitVec.ofNat 32 x)).put (256 * l + (e + 1)) (BitVec.ofNat 32 (x / 4294967296))
      else g.v.put (256 * l + e) (BitVec.ofNat 32 x) := by
  unfold laneOut vput flagWrites
  cases wide <;> by_cases hm : m = 0#64 <;> simp [hm, Group.writes, Group.write]

theorem laneOut_fpsr (g : Machine.Group) (l : Nat) (wide : Bool) (e x : Nat) (m : Word) :
    (g.writes (laneOut l wide e x m)).fpsr = g.fpsr ||| m := by
  unfold laneOut vput flagWrites
  cases wide <;> by_cases hm : m = 0#64 <;> simp [hm, Group.writes, Group.write]

theorem laneOut_vreg_ne (g : Machine.Group) (l : Nat) (wide : Bool) (e x : Nat) (m : Word) (l' r : Nat) (hr : r < 256)
    (he : e < 256) (hw : wide = true → e + 1 < 256) (h : ¬(l' = l ∧ (r = e ∨ wide = true ∧ r = e + 1))) :
    (g.writes (laneOut l wide e x m)).vreg l' r = g.vreg l' r := by
  unfold Group.vreg
  rw [laneOut_v]
  cases wide with
  | false =>
    simp only [Bool.false_eq_true, ↓reduceIte, false_and, or_false] at h ⊢
    rw [Tab.getD_put_ne]
    omega
  | true =>
    have := hw rfl
    simp only [↓reduceIte, true_and] at h ⊢
    rw [Tab.getD_put_ne, Tab.getD_put_ne] <;> omega

theorem laneOut_vval (g : Machine.Group) (l : Nat) (wide : Bool) (e x : Nat) (m : Word) :
    (g.writes (laneOut l wide e x m)).vval l wide e = x % (if wide then 2 ^ 64 else 2 ^ 32) := by
  unfold Group.vval Group.vreg
  rw [laneOut_v]
  cases wide with
  | false => simp
  | true =>
    simp only [↓reduceIte]
    rw [Tab.getD_put_self, Tab.getD_put_ne _ _ _ (by omega), Tab.getD_put_self]
    simp only [BitVec.toNat_ofNat]
    omega

/-- The writes of a list of distinct lanes: each lane's own register, the others as before, and the flags of all. -/
theorem Group.writes_lanes (ls : List Nat) (hd : ls.Nodup) (wide : Bool) (reg val : Nat → Nat) (flags : Nat → Word)
    (hr : ∀ l ∈ ls, reg l < 256 ∧ (wide = true → reg l + 1 < 256)) (g : Machine.Group) :
    let t := g.writes (ls.flatMap fun l => laneOut l wide (reg l) (val l) (flags l))
    { t with v := g.v, fpsr := g.fpsr } = g ∧
      (∀ l ∈ ls, t.vval l wide (reg l) = val l % (if wide then 2 ^ 64 else 2 ^ 32)) ∧
      (∀ l r, r < 256 → ¬(l ∈ ls ∧ (r = reg l ∨ wide = true ∧ r = reg l + 1)) → t.vreg l r = g.vreg l r) ∧
      t.fpsr = g.fpsr ||| ls.foldl (fun m l => m ||| flags l) 0 := by
  intro t
  refine ⟨Group.writes_v_frame g _ ?_, ?_⟩
  · intro w hw
    obtain ⟨l, -, hl⟩ := List.mem_flatMap.1 hw
    exact laneOut_form _ _ _ _ _ w hl
  have key : ∀ (ls : List Nat), ls.Nodup → (∀ l ∈ ls, reg l < 256 ∧ (wide = true → reg l + 1 < 256)) →
      ∀ g : Machine.Group, let t := g.writes (ls.flatMap fun l => laneOut l wide (reg l) (val l) (flags l))
      (∀ l ∈ ls, t.vval l wide (reg l) = val l % (if wide then 2 ^ 64 else 2 ^ 32)) ∧
      (∀ l r, r < 256 → ¬(l ∈ ls ∧ (r = reg l ∨ wide = true ∧ r = reg l + 1)) → t.vreg l r = g.vreg l r) ∧
      t.fpsr = ls.foldl (fun m l => m ||| flags l) g.fpsr := by
    intro ls
    induction ls with
    | nil => intro _ _ g; exact ⟨fun _ h => absurd h (List.not_mem_nil), fun _ _ _ _ => rfl, rfl⟩
    | cons a tl ih =>
      intro hd hr g
      obtain ⟨hna, hdt⟩ := List.nodup_cons.1 hd
      obtain ⟨ha1, ha2⟩ := hr a (List.mem_cons_self ..)
      have h := ih hdt (fun l hl => hr l (List.mem_cons_of_mem _ hl))
        (g.writes (laneOut a wide (reg a) (val a) (flags a)))
      simp only [List.flatMap_cons, Group.writes_append, List.foldl_cons]
      obtain ⟨h1, h2, h3⟩ := h
      refine ⟨?_, ?_, ?_⟩
      · intro l hl
        rcases List.mem_cons.1 hl with rfl | hl
        · rw [← laneOut_vval g l wide (reg l) (val l) (flags l)]
          unfold Group.vval
          cases hwide : wide with
          | false =>
            subst hwide
            simp only [Bool.false_eq_true, ↓reduceIte]
            rw [h2 _ _ ha1 (by simp [hna])]
          | true =>
            subst hwide
            simp only [↓reduceIte]
            rw [h2 _ _ ha1 (by simp [hna]), h2 _ _ (ha2 rfl) (by simp [hna])]
        · exact h1 l hl
      · intro l r hlt hn
        rw [h2 l r hlt (fun hc => hn ⟨List.mem_cons_of_mem _ hc.1, hc.2⟩)]
        refine laneOut_vreg_ne g a wide _ _ _ l r hlt ha1 ha2 ?_
        rintro ⟨rfl, hc⟩
        exact hn ⟨List.mem_cons_self .., hc⟩
      · rw [h3, laneOut_fpsr]
  obtain ⟨h1, h2, h3⟩ := key ls hd hr g
  refine ⟨h1, h2, h3.trans ?_⟩
  have hfold : ∀ (l : List Nat) (x y : Word), l.foldl (fun m l => m ||| flags l) (x ||| y) =
      x ||| l.foldl (fun m l => m ||| flags l) y := by
    intro l
    induction l with
    | nil => intros; rfl
    | cons a t ih => intro x y; simp only [List.foldl_cons]; rw [BitVec.or_assoc, ih]
  have := hfold ls g.fpsr 0
  simpa using this

/-- The registers of operands in bounds are below 256. -/
theorem resolve_lt {g : Machine.Group} {wb l : Nat} {a : VArg} {e : Nat} (hw : g.walloc ≤ 256)
    (h : resolve g wb l a = .ok e) : e < 256 ∧ (a.wide = true → e + 1 < 256) := by
  unfold resolve at h
  simp only at h
  split at h
  · split at h
    · rename_i hwide hc
      simp only [regInside, decide_eq_true_eq] at hc
      simp only [Except.ok.injEq] at h
      omega
    · simp at h
  · split at h
    · rename_i hwide hc
      simp only [regInside, decide_eq_true_eq] at hc
      simp only [Except.ok.injEq] at h
      refine ⟨by omega, fun hh => absurd hh hwide⟩
    · simp at h

theorem resolveAll_head {g : Machine.Group} {wb l : Nat} {a : VArg} {t : List VArg} {e : Nat} {r : List Nat}
    (h : resolveAll g wb l (a :: t) = .ok (e :: r)) : resolve g wb l a = .ok e := by
  unfold resolveAll at h
  cases hr : resolve g wb l a with
  | error d => simp [hr] at h
  | ok x =>
    simp only [hr] at h
    cases ht : resolveAll g wb l t with
    | error d => simp [ht] at h
    | ok y => simp [ht] at h; rw [h.1]

/-- Writes of the lanes that leave the whole of %fpsr alone stand as they are. -/
theorem keepFlags_lanes (m : Word) (ls : List Nat) (f : Nat → List GWrite)
    (h : ∀ l, ∀ w ∈ f l, keepFlags m w = w) : (ls.flatMap f).map (keepFlags m) = ls.flatMap f := by
  refine (List.map_congr_left (g := id) fun w hw => ?_).trans (List.map_id _)
  obtain ⟨l, -, hl⟩ := List.mem_flatMap.1 hw
  exact h l w hl

/-- A lane-wise word that writes a register and flags in each lane. -/
theorem laneWord_wroteV (s : State) (ops : List VArg) (f : Machine.Group → Nat → List Nat → List GWrite)
    (r : Nat → List Nat) (wide : Bool) (rd val : Nat → Nat) (flags : Nat → Word) (hc : s.clean) (ho : s.operands ops r)
    (hreg : ∀ l ∈ lanesOf s.it.mask, rd l < 256 ∧ (wide = true → rd l + 1 < 256))
    (hf : ∀ l, f s.regs l (r l) = laneOut l wide (rd l) (val l) (flags l)) :
    ∃ t, laneWord s ops f = .next t ∧ s.wroteV t wide rd val flags := by
  refine ⟨_, laneWord_answers s _ _ _ hc ho, ?_⟩
  simp only [hf]
  have hkeep := keepFlags_lanes s.it.gflags (lanesOf s.it.mask)
    (fun l => laneOut l wide (rd l) (val l) (flags l)) fun l w hl => by
      rcases laneOut_form _ _ _ _ _ w hl with ⟨_, _, _, rfl⟩ | ⟨_, rfl⟩ <;> rfl
  have hw := Group.writes_lanes (lanesOf s.it.mask) (lanesOf_nodup _) wide rd val flags hreg s.mine
  have hm := State.commit_mine s ((lanesOf s.it.mask).flatMap fun l => laneOut l wide (rd l) (val l) (flags l)) hc.1 hc.2.2.2.2.2.2
  rw [hkeep] at hm
  refine ⟨State.commit_only s _ hc.1, State.commit_unnoted s _ hc.1 hc.2.2.2.2.2.2, ?_⟩
  rw [hm]
  exact hw

/-- A lane-wise word with a v destination whose operands are in bounds in every lane that issues. -/
theorem vecWord_answers (s : State) (d : VArg) (srcs : List VArg) (f : Machine.Group → Nat → List Nat → Nat × Word)
    (rd : Nat → Nat) (rs : Nat → List Nat) (hc : s.clean) (ho : s.operands (d :: srcs) fun l => rd l :: rs l) :
    let out (l : Nat) : Nat × Word :=
      f s.regs (s.regs.vval l d.wide (rd l)) ((srcs.zip (rs l)).map fun a => s.regs.vval l a.1.wide a.2)
    ∃ t, vecWord s d srcs f = .next t ∧ s.wroteV t d.wide rd (fun l => (out l).1) fun l => (out l).2 :=
  laneWord_wroteV s _ _ _ d.wide rd _ _ hc ho
    (fun l hl => resolve_lt ho.1 (resolveAll_head (ho.2 l hl))) fun _ => rfl

/-! ### Predicates -/

/-- One lane's writes of a predicate and its flags. -/
def lanePred (l n : Nat) (b : Bool) (m : Word) : List GWrite := .p l n b :: flagWrites m

theorem lanePred_form (l n : Nat) (b : Bool) (m : Word) :
    ∀ w ∈ lanePred l n b m, (∃ l r x, w = .p l r x) ∨ ∃ m, w = .flags m := by
  intro w hw
  unfold lanePred flagWrites at hw
  split at hw <;> simp at hw
  · subst hw; simp
  · rcases hw with rfl | rfl <;> simp

theorem lanePred_p (g : Machine.Group) (l n : Nat) (b : Bool) (m : Word) :
    (g.writes (lanePred l n b m)).p = g.p.put n (setLane (g.p.getD n 0) l b) := by
  unfold lanePred flagWrites
  by_cases hm : m = 0#64 <;> simp [hm, Group.writes, Group.write]

theorem lanePred_fpsr (g : Machine.Group) (l n : Nat) (b : Bool) (m : Word) :
    (g.writes (lanePred l n b m)).fpsr = g.fpsr ||| m := by
  unfold lanePred flagWrites
  by_cases hm : m = 0#64 <;> simp [hm, Group.writes, Group.write]

theorem getLsbD_laneBit (l k : Nat) : (laneBit l).getLsbD k = (decide (k < 32) && decide (k = l)) := by
  unfold laneBit
  rw [BitVec.getLsbD_ofNat, Nat.testBit_two_pow]
  by_cases h : l = k <;> simp [h, eq_comm]

theorem getLsbD_setLane (m : Mask) (l : Nat) (b : Bool) (k : Nat) (hl : l < 32) :
    (setLane m l b).getLsbD k = if k = l then b else m.getLsbD k := by
  unfold setLane
  cases b
  · simp only [Bool.false_eq_true, ↓reduceIte, BitVec.getLsbD_and, BitVec.getLsbD_not, getLsbD_laneBit]
    by_cases hk : k = l
    · simp [hk, hl]
    · by_cases h32 : k < 32
      · simp [hk, h32]
      · simp [hk, h32, BitVec.getLsbD_of_ge m k (by omega)]
  · simp only [↓reduceIte, BitVec.getLsbD_or, getLsbD_laneBit]
    by_cases hk : k = l
    · simp [hk, hl]
    · simp [hk]

theorem lanePred_preg (g : Machine.Group) (l n : Nat) (b : Bool) (m : Word) (k j : Nat) (hl : l < 32) :
    (g.writes (lanePred l n b m)).preg k j = if k = l ∧ j = n then b else g.preg k j := by
  unfold Group.preg
  rw [lanePred_p, Tab.getD_put]
  by_cases hj : j = n
  · subst hj
    simp only [↓reduceIte, and_true]
    rw [getLsbD_setLane _ _ _ _ hl]
  · simp [hj]

theorem Group.writes_preds (ls : List Nat) (hd : ls.Nodup) (n : Nat) (val : Nat → Bool) (flags : Nat → Word)
    (hr : ∀ l ∈ ls, l < 32) (g : Machine.Group) :
    let t := g.writes (ls.flatMap fun l => lanePred l n (val l) (flags l))
    { t with p := g.p, fpsr := g.fpsr } = g ∧ (∀ l ∈ ls, t.preg l n = val l) ∧
      (∀ l k, ¬(l ∈ ls ∧ k = n) → t.preg l k = g.preg l k) ∧
      t.fpsr = g.fpsr ||| ls.foldl (fun m l => m ||| flags l) 0 := by
  intro t
  refine ⟨Group.writes_p_frame g _ ?_, ?_⟩
  · intro w hw
    obtain ⟨l, -, hl⟩ := List.mem_flatMap.1 hw
    exact lanePred_form _ _ _ _ w hl
  have key : ∀ (ls : List Nat), ls.Nodup → (∀ l ∈ ls, l < 32) → ∀ g : Machine.Group,
      let t := g.writes (ls.flatMap fun l => lanePred l n (val l) (flags l))
      (∀ l ∈ ls, t.preg l n = val l) ∧ (∀ l k, ¬(l ∈ ls ∧ k = n) → t.preg l k = g.preg l k) ∧
      t.fpsr = ls.foldl (fun m l => m ||| flags l) g.fpsr := by
    intro ls
    induction ls with
    | nil => intro _ _ g; exact ⟨fun _ h => absurd h (List.not_mem_nil), fun _ _ _ => rfl, rfl⟩
    | cons a tl ih =>
      intro hd hr g
      obtain ⟨hna, hdt⟩ := List.nodup_cons.1 hd
      have ha := hr a (List.mem_cons_self ..)
      obtain ⟨h1, h2, h3⟩ := ih hdt (fun l hl => hr l (List.mem_cons_of_mem _ hl))
        (g.writes (lanePred a n (val a) (flags a)))
      simp only [List.flatMap_cons, Group.writes_append, List.foldl_cons]
      refine ⟨?_, ?_, ?_⟩
      · intro l hl
        rcases List.mem_cons.1 hl with rfl | hl
        · rw [h2 _ _ (by simp [hna]), lanePred_preg _ _ _ _ _ _ _ ha]; simp
        · exact h1 l hl
      · intro l k hn
        rw [h2 l k (fun hc => hn ⟨List.mem_cons_of_mem _ hc.1, hc.2⟩), lanePred_preg _ _ _ _ _ _ _ ha]
        rw [if_neg]
        rintro ⟨rfl, hc⟩
        exact hn ⟨List.mem_cons_self .., hc⟩
      · rw [h3, lanePred_fpsr]
  obtain ⟨h1, h2, h3⟩ := key ls hd hr g
  refine ⟨h1, h2, h3.trans ?_⟩
  have hfold : ∀ (l : List Nat) (x y : Word), l.foldl (fun m l => m ||| flags l) (x ||| y) =
      x ||| l.foldl (fun m l => m ||| flags l) y := by
    intro l
    induction l with
    | nil => intros; rfl
    | cons a t ih => intro x y; simp only [List.foldl_cons]; rw [BitVec.or_assoc, ih]
  have := hfold ls g.fpsr 0
  simpa using this

/-- A lane-wise word that writes a predicate and flags in each lane. -/
theorem laneWord_wroteP (s : State) (ops : List VArg) (f : Machine.Group → Nat → List Nat → List GWrite)
    (r : Nat → List Nat) (n : Nat) (val : Nat → Bool) (flags : Nat → Word) (hc : s.clean) (ho : s.operands ops r)
    (hf : ∀ l, f s.regs l (r l) = lanePred l n (val l) (flags l)) :
    ∃ t, laneWord s ops f = .next t ∧ s.wroteP t n val flags := by
  refine ⟨_, laneWord_answers s _ _ _ hc ho, ?_⟩
  simp only [hf]
  have hkeep := keepFlags_lanes s.it.gflags (lanesOf s.it.mask) (fun l => lanePred l n (val l) (flags l))
    fun l w hl => by rcases lanePred_form _ _ _ _ w hl with ⟨_, _, _, rfl⟩ | ⟨_, rfl⟩ <;> rfl
  have hw := Group.writes_preds (lanesOf s.it.mask) (lanesOf_nodup _) n val flags
    (fun l hl => (mem_lanesOf.1 hl).1) s.mine
  have hm := State.commit_mine s ((lanesOf s.it.mask).flatMap fun l => lanePred l n (val l) (flags l)) hc.1 hc.2.2.2.2.2.2
  rw [hkeep] at hm
  refine ⟨State.commit_only s _ hc.1, State.commit_unnoted s _ hc.1 hc.2.2.2.2.2.2, ?_⟩
  rw [hm]
  exact hw

end Sys2Proof.Machine
end

