-- ==== Sys2Proof/Laws/PerInstr.lean ====
section
/-!
SUPPORT. One lemma for each instruction about its encoding: how many words it takes, and that exactly the words (never
the events) have one.
-/

namespace Sys2Proof.Laws

/-- What every instruction's encoding satisfies: at most two words (spec/13 R284, R285), and none for an event only. -/
def Encoding.Statement (i : Instr) : Prop :=
  ∀ k e : Bool, (encode k e i).length ≤ 2 ∧ (encode k e i = [] ↔ i.isWord = false)

/-- The encoding of every instruction at once; the lemmas below name it for each. -/
theorem encoding_general (i : Instr) : Encoding.Statement i := by
  intro k e
  unfold encode Instr.isWord
  rcases h : encodeParts i with _ | ⟨n, _ | l⟩ <;> simp

theorem Encoding.hdr : ∀ x1 x2 x3 x4, Encoding.Statement (.hdr x1 x2 x3 x4) := fun _ _ _ _ => encoding_general _
theorem Encoding.live : ∀ x1 x2 x3 x4 x5, Encoding.Statement (.live x1 x2 x3 x4 x5) := fun _ _ _ _ _ => encoding_general _
theorem Encoding.nop : Encoding.Statement .nop := encoding_general _
theorem Encoding.sadd : ∀ x1 x2 x3, Encoding.Statement (.sadd x1 x2 x3) := fun _ _ _ => encoding_general _
theorem Encoding.ssub : ∀ x1 x2 x3, Encoding.Statement (.ssub x1 x2 x3) := fun _ _ _ => encoding_general _
theorem Encoding.smul : ∀ x1 x2 x3, Encoding.Statement (.smul x1 x2 x3) := fun _ _ _ => encoding_general _
theorem Encoding.smulh : ∀ x1 x2 x3, Encoding.Statement (.smulh x1 x2 x3) := fun _ _ _ => encoding_general _
theorem Encoding.smulhn : ∀ x1 x2 x3, Encoding.Statement (.smulhn x1 x2 x3) := fun _ _ _ => encoding_general _
theorem Encoding.sand : ∀ x1 x2 x3, Encoding.Statement (.sand x1 x2 x3) := fun _ _ _ => encoding_general _
theorem Encoding.sor : ∀ x1 x2 x3, Encoding.Statement (.sor x1 x2 x3) := fun _ _ _ => encoding_general _
theorem Encoding.sxor : ∀ x1 x2 x3, Encoding.Statement (.sxor x1 x2 x3) := fun _ _ _ => encoding_general _
theorem Encoding.sshl : ∀ x1 x2 x3, Encoding.Statement (.sshl x1 x2 x3) := fun _ _ _ => encoding_general _
theorem Encoding.sshr : ∀ x1 x2 x3, Encoding.Statement (.sshr x1 x2 x3) := fun _ _ _ => encoding_general _
theorem Encoding.ssra : ∀ x1 x2 x3, Encoding.Statement (.ssra x1 x2 x3) := fun _ _ _ => encoding_general _
theorem Encoding.smin : ∀ x1 x2 x3, Encoding.Statement (.smin x1 x2 x3) := fun _ _ _ => encoding_general _
theorem Encoding.smax : ∀ x1 x2 x3, Encoding.Statement (.smax x1 x2 x3) := fun _ _ _ => encoding_general _
theorem Encoding.sminn : ∀ x1 x2 x3, Encoding.Statement (.sminn x1 x2 x3) := fun _ _ _ => encoding_general _
theorem Encoding.smaxn : ∀ x1 x2 x3, Encoding.Statement (.smaxn x1 x2 x3) := fun _ _ _ => encoding_general _
theorem Encoding.smov : ∀ x1 x2, Encoding.Statement (.smov x1 x2) := fun _ _ => encoding_general _
theorem Encoding.smovLc : ∀ x1 x2, Encoding.Statement (.smovLc x1 x2) := fun _ _ => encoding_general _
theorem Encoding.saddi : ∀ x1 x2 x3, Encoding.Statement (.saddi x1 x2 x3) := fun _ _ _ => encoding_general _
theorem Encoding.smovi : ∀ x1 x2, Encoding.Statement (.smovi x1 x2) := fun _ _ => encoding_general _
theorem Encoding.smovh : ∀ x1 x2 x3, Encoding.Statement (.smovh x1 x2 x3) := fun _ _ _ => encoding_general _
theorem Encoding.scmp : ∀ x1 x2 x3 x4, Encoding.Statement (.scmp x1 x2 x3 x4) := fun _ _ _ _ => encoding_general _
theorem Encoding.scmpi : ∀ x1 x2 x3 x4, Encoding.Statement (.scmpi x1 x2 x3 x4) := fun _ _ _ _ => encoding_general _
theorem Encoding.ssel : ∀ x1 x2 x3 x4, Encoding.Statement (.ssel x1 x2 x3 x4) := fun _ _ _ _ => encoding_general _
theorem Encoding.sclz : ∀ x1 x2, Encoding.Statement (.sclz x1 x2) := fun _ _ => encoding_general _
theorem Encoding.spopc : ∀ x1 x2, Encoding.Statement (.spopc x1 x2) := fun _ _ => encoding_general _
theorem Encoding.sbfe : ∀ x1 x2 x3, Encoding.Statement (.sbfe x1 x2 x3) := fun _ _ _ => encoding_general _
theorem Encoding.sbfeSx : ∀ x1 x2 x3, Encoding.Statement (.sbfeSx x1 x2 x3) := fun _ _ _ => encoding_general _
theorem Encoding.sbfi : ∀ x1 x2 x3, Encoding.Statement (.sbfi x1 x2 x3) := fun _ _ _ => encoding_general _
theorem Encoding.srdS : ∀ x1 x2, Encoding.Statement (.srdS x1 x2) := fun _ _ => encoding_general _
theorem Encoding.srdV : ∀ x1 x2 x3, Encoding.Statement (.srdV x1 x2 x3) := fun _ _ _ => encoding_general _
theorem Encoding.spredSp : ∀ x1 x2, Encoding.Statement (.spredSp x1 x2) := fun _ _ => encoding_general _
theorem Encoding.spredPs : ∀ x1 x2, Encoding.Statement (.spredPs x1 x2) := fun _ _ => encoding_general _
theorem Encoding.swr : ∀ x1 x2, Encoding.Statement (.swr x1 x2) := fun _ _ => encoding_general _
theorem Encoding.svoteAny : ∀ x1 x2, Encoding.Statement (.svoteAny x1 x2) := fun _ _ => encoding_general _
theorem Encoding.svoteAll : ∀ x1 x2, Encoding.Statement (.svoteAll x1 x2) := fun _ _ => encoding_general _
theorem Encoding.svoteUni : ∀ x1 x2, Encoding.Statement (.svoteUni x1 x2) := fun _ _ => encoding_general _
theorem Encoding.slane : ∀ x1 x2 x3, Encoding.Statement (.slane x1 x2 x3) := fun _ _ _ => encoding_general _
theorem Encoding.brCond : ∀ x1 x2 x3, Encoding.Statement (.brCond x1 x2 x3) := fun _ _ _ => encoding_general _
theorem Encoding.brAlways : ∀ x1, Encoding.Statement (.brAlways x1) := fun _ => encoding_general _
theorem Encoding.call : ∀ x1 x2, Encoding.Statement (.call x1 x2) := fun _ _ => encoding_general _
theorem Encoding.bri : ∀ x1, Encoding.Statement (.bri x1) := fun _ => encoding_general _
theorem Encoding.ret : ∀ x1, Encoding.Statement (.ret x1) := fun _ => encoding_general _
theorem Encoding.loop : ∀ x1 x2 x3, Encoding.Statement (.loop x1 x2 x3) := fun _ _ _ => encoding_general _
theorem Encoding.lbrk : ∀ x1 x2, Encoding.Statement (.lbrk x1 x2) := fun _ _ => encoding_general _
theorem Encoding.fsplit : ∀ x1 x2 x3, Encoding.Statement (.fsplit x1 x2 x3) := fun _ _ _ => encoding_general _
theorem Encoding.fjoin : Encoding.Statement .fjoin := encoding_general _
theorem Encoding.fend : Encoding.Statement .fend := encoding_general _
theorem Encoding.winset : ∀ x1 x2, Encoding.Statement (.winset x1 x2) := fun _ _ => encoding_general _
theorem Encoding.winadd : ∀ x1 x2, Encoding.Statement (.winadd x1 x2) := fun _ _ => encoding_general _
theorem Encoding.xmov : ∀ x1 x2 x3, Encoding.Statement (.xmov x1 x2 x3) := fun _ _ _ => encoding_general _
theorem Encoding.xadd : ∀ x1 x2 x3, Encoding.Statement (.xadd x1 x2 x3) := fun _ _ _ => encoding_general _
theorem Encoding.trap : ∀ x1, Encoding.Statement (.trap x1) := fun _ => encoding_general _
theorem Encoding.rett : Encoding.Statement .rett := encoding_general _
theorem Encoding.bkpt : ∀ x1, Encoding.Statement (.bkpt x1) := fun _ => encoding_general _
theorem Encoding.gend : Encoding.Statement .gend := encoding_general _
theorem Encoding.yield : Encoding.Statement .yield := encoding_general _
theorem Encoding.vadd : ∀ x1 x2 x3 x4, Encoding.Statement (.vadd x1 x2 x3 x4) := fun _ _ _ _ => encoding_general _
theorem Encoding.vsub : ∀ x1 x2 x3 x4, Encoding.Statement (.vsub x1 x2 x3 x4) := fun _ _ _ _ => encoding_general _
theorem Encoding.vmul : ∀ x1 x2 x3 x4, Encoding.Statement (.vmul x1 x2 x3 x4) := fun _ _ _ _ => encoding_general _
theorem Encoding.vmulh : ∀ x1 x2 x3 x4, Encoding.Statement (.vmulh x1 x2 x3 x4) := fun _ _ _ _ => encoding_general _
theorem Encoding.vand : ∀ x1 x2 x3 x4, Encoding.Statement (.vand x1 x2 x3 x4) := fun _ _ _ _ => encoding_general _
theorem Encoding.vor : ∀ x1 x2 x3 x4, Encoding.Statement (.vor x1 x2 x3 x4) := fun _ _ _ _ => encoding_general _
theorem Encoding.vxor : ∀ x1 x2 x3 x4, Encoding.Statement (.vxor x1 x2 x3 x4) := fun _ _ _ _ => encoding_general _
theorem Encoding.vnot : ∀ x1 x2 x3, Encoding.Statement (.vnot x1 x2 x3) := fun _ _ _ => encoding_general _
theorem Encoding.vshl : ∀ x1 x2 x3 x4, Encoding.Statement (.vshl x1 x2 x3 x4) := fun _ _ _ _ => encoding_general _
theorem Encoding.vshr : ∀ x1 x2 x3 x4, Encoding.Statement (.vshr x1 x2 x3 x4) := fun _ _ _ _ => encoding_general _
theorem Encoding.vsra : ∀ x1 x2 x3 x4, Encoding.Statement (.vsra x1 x2 x3 x4) := fun _ _ _ _ => encoding_general _
theorem Encoding.vmin : ∀ x1 x2 x3 x4, Encoding.Statement (.vmin x1 x2 x3 x4) := fun _ _ _ _ => encoding_general _
theorem Encoding.vmax : ∀ x1 x2 x3 x4, Encoding.Statement (.vmax x1 x2 x3 x4) := fun _ _ _ _ => encoding_general _
theorem Encoding.vabs : ∀ x1 x2 x3, Encoding.Statement (.vabs x1 x2 x3) := fun _ _ _ => encoding_general _
theorem Encoding.vneg : ∀ x1 x2 x3, Encoding.Statement (.vneg x1 x2 x3) := fun _ _ _ => encoding_general _
theorem Encoding.vmov : ∀ x1 x2 x3, Encoding.Statement (.vmov x1 x2 x3) := fun _ _ _ => encoding_general _
theorem Encoding.vaddi : ∀ x1 x2 x3, Encoding.Statement (.vaddi x1 x2 x3) := fun _ _ _ => encoding_general _
theorem Encoding.vmovi : ∀ x1 x2, Encoding.Statement (.vmovi x1 x2) := fun _ _ => encoding_general _
theorem Encoding.vmad : ∀ x1 x2 x3 x4, Encoding.Statement (.vmad x1 x2 x3 x4) := fun _ _ _ _ => encoding_general _
theorem Encoding.vcmp : ∀ x1 x2 x3 x4 x5, Encoding.Statement (.vcmp x1 x2 x3 x4 x5) := fun _ _ _ _ _ => encoding_general _
theorem Encoding.vsel : ∀ x1 x2 x3 x4 x5, Encoding.Statement (.vsel x1 x2 x3 x4 x5) := fun _ _ _ _ _ => encoding_general _
theorem Encoding.vclz : ∀ x1 x2, Encoding.Statement (.vclz x1 x2) := fun _ _ => encoding_general _
theorem Encoding.vpopc : ∀ x1 x2, Encoding.Statement (.vpopc x1 x2) := fun _ _ => encoding_general _
theorem Encoding.vbfe : ∀ x1 x2 x3, Encoding.Statement (.vbfe x1 x2 x3) := fun _ _ _ => encoding_general _
theorem Encoding.vbfeSx : ∀ x1 x2 x3, Encoding.Statement (.vbfeSx x1 x2 x3) := fun _ _ _ => encoding_general _
theorem Encoding.vbfi : ∀ x1 x2 x3, Encoding.Statement (.vbfi x1 x2 x3) := fun _ _ _ => encoding_general _
theorem Encoding.vdot4 : ∀ x1 x2 x3 x4 x5 x6, Encoding.Statement (.vdot4 x1 x2 x3 x4 x5 x6) := fun _ _ _ _ _ _ => encoding_general _
theorem Encoding.vdot8 : ∀ x1 x2 x3 x4 x5 x6, Encoding.Statement (.vdot8 x1 x2 x3 x4 x5 x6) := fun _ _ _ _ _ _ => encoding_general _
theorem Encoding.vshfl : ∀ x1 x2 x3, Encoding.Statement (.vshfl x1 x2 x3) := fun _ _ _ => encoding_general _
theorem Encoding.vperm : ∀ x1 x2 x3, Encoding.Statement (.vperm x1 x2 x3) := fun _ _ _ => encoding_general _
theorem Encoding.vrdc : ∀ x1 x2 x3 x4, Encoding.Statement (.vrdc x1 x2 x3 x4) := fun _ _ _ _ => encoding_general _
theorem Encoding.pand : ∀ x1 x2 x3, Encoding.Statement (.pand x1 x2 x3) := fun _ _ _ => encoding_general _
theorem Encoding.por : ∀ x1 x2 x3, Encoding.Statement (.por x1 x2 x3) := fun _ _ _ => encoding_general _
theorem Encoding.pxor : ∀ x1 x2 x3, Encoding.Statement (.pxor x1 x2 x3) := fun _ _ _ => encoding_general _
theorem Encoding.pnot : ∀ x1 x2, Encoding.Statement (.pnot x1 x2) := fun _ _ => encoding_general _
theorem Encoding.pmov : ∀ x1 x2, Encoding.Statement (.pmov x1 x2) := fun _ _ => encoding_general _
theorem Encoding.vmovs : ∀ x1 x2, Encoding.Statement (.vmovs x1 x2) := fun _ _ => encoding_general _
theorem Encoding.vmovsHi : ∀ x1 x2, Encoding.Statement (.vmovsHi x1 x2) := fun _ _ => encoding_general _
theorem Encoding.pset : ∀ x1 x2, Encoding.Statement (.pset x1 x2) := fun _ _ => encoding_general _
theorem Encoding.vfadd : ∀ x1 x2 x3 x4 x5, Encoding.Statement (.vfadd x1 x2 x3 x4 x5) := fun _ _ _ _ _ => encoding_general _
theorem Encoding.vfsub : ∀ x1 x2 x3 x4 x5, Encoding.Statement (.vfsub x1 x2 x3 x4 x5) := fun _ _ _ _ _ => encoding_general _
theorem Encoding.vfmul : ∀ x1 x2 x3 x4 x5, Encoding.Statement (.vfmul x1 x2 x3 x4 x5) := fun _ _ _ _ _ => encoding_general _
theorem Encoding.vfmin : ∀ x1 x2 x3 x4, Encoding.Statement (.vfmin x1 x2 x3 x4) := fun _ _ _ _ => encoding_general _
theorem Encoding.vfmax : ∀ x1 x2 x3 x4, Encoding.Statement (.vfmax x1 x2 x3 x4) := fun _ _ _ _ => encoding_general _
theorem Encoding.vfscl : ∀ x1 x2 x3 x4 x5, Encoding.Statement (.vfscl x1 x2 x3 x4 x5) := fun _ _ _ _ _ => encoding_general _
theorem Encoding.vfmaF32 : ∀ x1 x2 x3 x4, Encoding.Statement (.vfmaF32 x1 x2 x3 x4) := fun _ _ _ _ => encoding_general _
theorem Encoding.vfmaF64 : ∀ x1 x2 x3 x4, Encoding.Statement (.vfmaF64 x1 x2 x3 x4) := fun _ _ _ _ => encoding_general _
theorem Encoding.vfmaF16x2 : ∀ x1 x2 x3 x4, Encoding.Statement (.vfmaF16x2 x1 x2 x3 x4) := fun _ _ _ _ => encoding_general _
theorem Encoding.vfmaBf16x2 : ∀ x1 x2 x3 x4, Encoding.Statement (.vfmaBf16x2 x1 x2 x3 x4) := fun _ _ _ _ => encoding_general _
theorem Encoding.vfabs : ∀ x1 x2 x3, Encoding.Statement (.vfabs x1 x2 x3) := fun _ _ _ => encoding_general _
theorem Encoding.vfneg : ∀ x1 x2 x3, Encoding.Statement (.vfneg x1 x2 x3) := fun _ _ _ => encoding_general _
theorem Encoding.vfclass : ∀ x1 x2 x3, Encoding.Statement (.vfclass x1 x2 x3) := fun _ _ _ => encoding_general _
theorem Encoding.vfrnd : ∀ x1 x2 x3 x4, Encoding.Statement (.vfrnd x1 x2 x3 x4) := fun _ _ _ _ => encoding_general _
theorem Encoding.vfcmp : ∀ x1 x2 x3 x4 x5, Encoding.Statement (.vfcmp x1 x2 x3 x4 x5) := fun _ _ _ _ _ => encoding_general _
theorem Encoding.vfdot2 : ∀ x1 x2 x3 x4, Encoding.Statement (.vfdot2 x1 x2 x3 x4) := fun _ _ _ _ => encoding_general _
theorem Encoding.vcvt : ∀ x1 x2 x3 x4 x5 x6, Encoding.Statement (.vcvt x1 x2 x3 x4 x5 x6) := fun _ _ _ _ _ _ => encoding_general _
theorem Encoding.vcvtsr : ∀ x1 x2 x3 x4 x5, Encoding.Statement (.vcvtsr x1 x2 x3 x4 x5) := fun _ _ _ _ _ => encoding_general _
theorem Encoding.vpack : ∀ x1 x2 x3 x4, Encoding.Statement (.vpack x1 x2 x3 x4) := fun _ _ _ _ => encoding_general _
theorem Encoding.vunpk : ∀ x1 x2 x3 x4, Encoding.Statement (.vunpk x1 x2 x3 x4) := fun _ _ _ _ => encoding_general _
theorem Encoding.vqnt : ∀ x1 x2 x3 x4, Encoding.Statement (.vqnt x1 x2 x3 x4) := fun _ _ _ _ => encoding_general _
theorem Encoding.vdqnt : ∀ x1 x2 x3 x4, Encoding.Statement (.vdqnt x1 x2 x3 x4) := fun _ _ _ _ => encoding_general _
theorem Encoding.vrng : ∀ x1 x2 x3, Encoding.Statement (.vrng x1 x2 x3) := fun _ _ _ => encoding_general _
theorem Encoding.vrcp : ∀ x1 x2 x3, Encoding.Statement (.vrcp x1 x2 x3) := fun _ _ _ => encoding_general _
theorem Encoding.vrsq : ∀ x1 x2 x3, Encoding.Statement (.vrsq x1 x2 x3) := fun _ _ _ => encoding_general _
theorem Encoding.vsqrt : ∀ x1 x2 x3, Encoding.Statement (.vsqrt x1 x2 x3) := fun _ _ _ => encoding_general _
theorem Encoding.vexp2 : ∀ x1 x2 x3, Encoding.Statement (.vexp2 x1 x2 x3) := fun _ _ _ => encoding_general _
theorem Encoding.vlog2 : ∀ x1 x2 x3, Encoding.Statement (.vlog2 x1 x2 x3) := fun _ _ _ => encoding_general _
theorem Encoding.vsin : ∀ x1 x2 x3, Encoding.Statement (.vsin x1 x2 x3) := fun _ _ _ => encoding_general _
theorem Encoding.vcos : ∀ x1 x2 x3, Encoding.Statement (.vcos x1 x2 x3) := fun _ _ _ => encoding_general _
theorem Encoding.vtanh : ∀ x1 x2 x3, Encoding.Statement (.vtanh x1 x2 x3) := fun _ _ _ => encoding_general _
theorem Encoding.vld : ∀ x1 x2 x3 x4, Encoding.Statement (.vld x1 x2 x3 x4) := fun _ _ _ _ => encoding_general _
theorem Encoding.vst : ∀ x1 x2 x3, Encoding.Statement (.vst x1 x2 x3) := fun _ _ _ => encoding_general _
theorem Encoding.vldr : ∀ x1 x2 x3, Encoding.Statement (.vldr x1 x2 x3) := fun _ _ _ => encoding_general _
theorem Encoding.vstr : ∀ x1 x2, Encoding.Statement (.vstr x1 x2) := fun _ _ => encoding_general _
theorem Encoding.sld : ∀ x1 x2 x3 x4, Encoding.Statement (.sld x1 x2 x3 x4) := fun _ _ _ _ => encoding_general _
theorem Encoding.sst : ∀ x1 x2 x3, Encoding.Statement (.sst x1 x2 x3) := fun _ _ _ => encoding_general _
theorem Encoding.vlds : ∀ x1 x2 x3 x4, Encoding.Statement (.vlds x1 x2 x3 x4) := fun _ _ _ _ => encoding_general _
theorem Encoding.vsts : ∀ x1 x2 x3, Encoding.Statement (.vsts x1 x2 x3) := fun _ _ _ => encoding_general _
theorem Encoding.vldc : ∀ x1 x2 x3 x4, Encoding.Statement (.vldc x1 x2 x3 x4) := fun _ _ _ _ => encoding_general _
theorem Encoding.vstc : ∀ x1 x2 x3, Encoding.Statement (.vstc x1 x2 x3) := fun _ _ _ => encoding_general _
theorem Encoding.vldd : ∀ x1 x2 x3 x4, Encoding.Statement (.vldd x1 x2 x3 x4) := fun _ _ _ _ => encoding_general _
theorem Encoding.vstd : ∀ x1 x2 x3, Encoding.Statement (.vstd x1 x2 x3) := fun _ _ _ => encoding_general _
theorem Encoding.vldp : ∀ x1 x2 x3 x4, Encoding.Statement (.vldp x1 x2 x3 x4) := fun _ _ _ _ => encoding_general _
theorem Encoding.vstp : ∀ x1 x2 x3, Encoding.Statement (.vstp x1 x2 x3) := fun _ _ _ => encoding_general _
theorem Encoding.prefL1 : ∀ x1, Encoding.Statement (.prefL1 x1) := fun _ => encoding_general _
theorem Encoding.prefL2 : ∀ x1, Encoding.Statement (.prefL2 x1) := fun _ => encoding_general _
theorem Encoding.prefSc : ∀ x1, Encoding.Statement (.prefSc x1) := fun _ => encoding_general _
theorem Encoding.cwb : ∀ x1 x2, Encoding.Statement (.cwb x1 x2) := fun _ _ => encoding_general _
theorem Encoding.cinv : ∀ x1, Encoding.Statement (.cinv x1) := fun _ => encoding_general _
theorem Encoding.vatom : ∀ x1 x2 x3 x4 x5 x6, Encoding.Statement (.vatom x1 x2 x3 x4 x5 x6) := fun _ _ _ _ _ _ => encoding_general _
theorem Encoding.vred : ∀ x1 x2 x3 x4 x5 x6, Encoding.Statement (.vred x1 x2 x3 x4 x5 x6) := fun _ _ _ _ _ _ => encoding_general _
theorem Encoding.satom : ∀ x1 x2 x3 x4 x5, Encoding.Statement (.satom x1 x2 x3 x4 x5) := fun _ _ _ _ _ => encoding_general _
theorem Encoding.fence : ∀ x1 x2, Encoding.Statement (.fence x1 x2) := fun _ _ => encoding_general _
theorem Encoding.waitm : ∀ x1 x2 x3 x4, Encoding.Statement (.waitm x1 x2 x3 x4) := fun _ _ _ _ => encoding_general _
theorem Encoding.bar : ∀ x1 x2, Encoding.Statement (.bar x1 x2) := fun _ _ => encoding_general _
theorem Encoding.bara : ∀ x1 x2, Encoding.Statement (.bara x1 x2) := fun _ _ => encoding_general _
theorem Encoding.barw : ∀ x1 x2, Encoding.Statement (.barw x1 x2) := fun _ _ => encoding_general _
theorem Encoding.gbar : Encoding.Statement .gbar := encoding_general _
theorem Encoding.mma : ∀ x1 x2 x3 x4 x5, Encoding.Statement (.mma x1 x2 x3 x4 x5) := fun _ _ _ _ _ => encoding_general _
theorem Encoding.mzero : ∀ x1, Encoding.Statement (.mzero x1) := fun _ => encoding_general _
theorem Encoding.mlda : ∀ x1 x2 x3 x4, Encoding.Statement (.mlda x1 x2 x3 x4) := fun _ _ _ _ => encoding_general _
theorem Encoding.msta : ∀ x1 x2 x3 x4, Encoding.Statement (.msta x1 x2 x3 x4) := fun _ _ _ _ => encoding_general _
theorem Encoding.mfrgRd : ∀ x1 x2 x3 x4, Encoding.Statement (.mfrgRd x1 x2 x3 x4) := fun _ _ _ _ => encoding_general _
theorem Encoding.mfrgWr : ∀ x1 x2 x3, Encoding.Statement (.mfrgWr x1 x2 x3) := fun _ _ _ => encoding_general _
theorem Encoding.medge : ∀ x1 x2, Encoding.Statement (.medge x1 x2) := fun _ _ => encoding_general _
theorem Encoding.medgeN : ∀ x1 x2, Encoding.Statement (.medgeN x1 x2) := fun _ _ => encoding_general _
theorem Encoding.mchk : ∀ x1 x2, Encoding.Statement (.mchk x1 x2) := fun _ _ => encoding_general _
theorem Encoding.nmv : ∀ x1 x2 x3 x4 x5, Encoding.Statement (.nmv x1 x2 x3 x4 x5) := fun _ _ _ _ _ => encoding_general _
theorem Encoding.cpy : ∀ x1 x2 x3 x4, Encoding.Statement (.cpy x1 x2 x3 x4) := fun _ _ _ _ => encoding_general _
theorem Encoding.hset : ∀ x1 x2, Encoding.Statement (.hset x1 x2) := fun _ _ => encoding_general _
theorem Encoding.hwait : ∀ x1, Encoding.Statement (.hwait x1) := fun _ => encoding_general _
theorem Encoding.htake : ∀ x1 x2, Encoding.Statement (.htake x1 x2) := fun _ _ => encoding_general _
theorem Encoding.hfree : ∀ x1, Encoding.Statement (.hfree x1) := fun _ => encoding_general _
theorem Encoding.hfill : ∀ x1 x2, Encoding.Statement (.hfill x1 x2) := fun _ _ => encoding_general _
theorem Encoding.hstat : ∀ x1 x2, Encoding.Statement (.hstat x1 x2) := fun _ _ => encoding_general _
theorem Encoding.tdset : ∀ x1 x2, Encoding.Statement (.tdset x1 x2) := fun _ _ => encoding_general _
theorem Encoding.tdldRow : ∀ x1 x2 x3 x4, Encoding.Statement (.tdldRow x1 x2 x3 x4) := fun _ _ _ _ => encoding_general _
theorem Encoding.tdldCol : ∀ x1 x2 x3 x4, Encoding.Statement (.tdldCol x1 x2 x3 x4) := fun _ _ _ _ => encoding_general _
theorem Encoding.redOpen : ∀ x1 x2, Encoding.Statement (.redOpen x1 x2) := fun _ _ => encoding_general _
theorem Encoding.redOpenDef : ∀ x1 x2, Encoding.Statement (.redOpenDef x1 x2) := fun _ _ => encoding_general _
theorem Encoding.redSub : ∀ x1 x2 x3, Encoding.Statement (.redSub x1 x2 x3) := fun _ _ _ => encoding_general _
theorem Encoding.redWait : ∀ x1, Encoding.Statement (.redWait x1) := fun _ => encoding_general _
theorem Encoding.redMap : ∀ x1 x2 x3, Encoding.Statement (.redMap x1 x2 x3) := fun _ _ _ => encoding_general _
theorem Encoding.redCorr : ∀ x1 x2 x3 x4, Encoding.Statement (.redCorr x1 x2 x3 x4) := fun _ _ _ _ => encoding_general _
theorem Encoding.redNext : ∀ x1 x2, Encoding.Statement (.redNext x1 x2) := fun _ _ => encoding_general _
theorem Encoding.redClose : ∀ x1, Encoding.Statement (.redClose x1) := fun _ => encoding_general _
theorem Encoding.redCloseDef : ∀ x1, Encoding.Statement (.redCloseDef x1) := fun _ => encoding_general _
theorem Encoding.launch : ∀ x1 x2, Encoding.Statement (.launch x1 x2) := fun _ _ => encoding_general _
theorem Encoding.lagg : ∀ x1 x2, Encoding.Statement (.lagg x1 x2) := fun _ _ => encoding_general _
theorem Encoding.lflush : Encoding.Statement .lflush := encoding_general _
theorem Encoding.tapePush : ∀ x1 x2 x3, Encoding.Statement (.tapePush x1 x2 x3) := fun _ _ _ => encoding_general _
theorem Encoding.tapeRun : ∀ x1 x2, Encoding.Statement (.tapeRun x1 x2) := fun _ _ => encoding_general _
theorem Encoding.tapeDrop : ∀ x1 x2, Encoding.Statement (.tapeDrop x1 x2) := fun _ _ => encoding_general _
theorem Encoding.qsig : ∀ x1 x2, Encoding.Statement (.qsig x1 x2) := fun _ _ => encoding_general _
theorem Encoding.region : ∀ x1 x2, Encoding.Statement (.region x1 x2) := fun _ _ => encoding_general _
theorem Encoding.railr : ∀ x1, Encoding.Statement (.railr x1) := fun _ => encoding_general _
theorem Encoding.railt : ∀ x1, Encoding.Statement (.railt x1) := fun _ => encoding_general _
theorem Encoding.railtScript : ∀ x1 x2, Encoding.Statement (.railtScript x1 x2) := fun _ _ => encoding_general _
theorem Encoding.tlmrDie : ∀ x1 x2, Encoding.Statement (.tlmrDie x1 x2) := fun _ _ => encoding_general _
theorem Encoding.tlmrOwn : ∀ x1 x2, Encoding.Statement (.tlmrOwn x1 x2) := fun _ _ => encoding_general _
theorem Encoding.auds : ∀ x1, Encoding.Statement (.auds x1) := fun _ => encoding_general _
theorem Encoding.boot : ∀ x1, Encoding.Statement (.boot x1) := fun _ => encoding_general _
theorem Encoding.recoveryVerifyEnd : ∀ x1 x2 x3, Encoding.Statement (.recoveryVerifyEnd x1 x2 x3) := fun _ _ _ => encoding_general _
theorem Encoding.dieResetEnd : ∀ x1 x2, Encoding.Statement (.dieResetEnd x1 x2) := fun _ _ => encoding_general _
theorem Encoding.launchCommand : ∀ x1, Encoding.Statement (.launchCommand x1) := fun _ => encoding_general _
theorem Encoding.copy : ∀ x1, Encoding.Statement (.copy x1) := fun _ => encoding_general _
theorem Encoding.signal : ∀ x1, Encoding.Statement (.signal x1) := fun _ => encoding_general _
theorem Encoding.waitge : ∀ x1, Encoding.Statement (.waitge x1) := fun _ => encoding_general _
theorem Encoding.waitgePoll : ∀ x1, Encoding.Statement (.waitgePoll x1) := fun _ => encoding_general _
theorem Encoding.keygen : ∀ x1, Encoding.Statement (.keygen x1) := fun _ => encoding_general _
theorem Encoding.keyimp : ∀ x1 x2, Encoding.Statement (.keyimp x1 x2) := fun _ _ => encoding_general _
theorem Encoding.keydel : ∀ x1, Encoding.Statement (.keydel x1) := fun _ => encoding_general _
theorem Encoding.tlbinv : ∀ x1, Encoding.Statement (.tlbinv x1) := fun _ => encoding_general _
theorem Encoding.copyChunk : ∀ x1, Encoding.Statement (.copyChunk x1) := fun _ => encoding_general _
theorem Encoding.instanceAdmission : ∀ x1 x2, Encoding.Statement (.instanceAdmission x1 x2) := fun _ _ => encoding_general _
theorem Encoding.teamDeal : ∀ x1 x2, Encoding.Statement (.teamDeal x1 x2) := fun _ _ => encoding_general _
theorem Encoding.instanceRetire : ∀ x1, Encoding.Statement (.instanceRetire x1) := fun _ => encoding_general _
theorem Encoding.aggWindowTimeout : ∀ x1 x2, Encoding.Statement (.aggWindowTimeout x1 x2) := fun _ _ => encoding_general _
theorem Encoding.teamStop : ∀ x1, Encoding.Statement (.teamStop x1) := fun _ => encoding_general _
theorem Encoding.teamResume : ∀ x1, Encoding.Statement (.teamResume x1) := fun _ => encoding_general _
theorem Encoding.loadCompletion : ∀ x1, Encoding.Statement (.loadCompletion x1) := fun _ => encoding_general _
theorem Encoding.atomicCompletion : ∀ x1, Encoding.Statement (.atomicCompletion x1) := fun _ => encoding_general _
theorem Encoding.sfCompletion : ∀ x1, Encoding.Statement (.sfCompletion x1) := fun _ => encoding_general _
theorem Encoding.frameMoveCompletion : ∀ x1 x2, Encoding.Statement (.frameMoveCompletion x1 x2) := fun _ _ => encoding_general _
theorem Encoding.cowServiceCompletion : ∀ x1, Encoding.Statement (.cowServiceCompletion x1) := fun _ => encoding_general _
theorem Encoding.waitmRecheck : ∀ x1 x2, Encoding.Statement (.waitmRecheck x1 x2) := fun _ _ => encoding_general _
theorem Encoding.cwbCompletion : ∀ x1, Encoding.Statement (.cwbCompletion x1) := fun _ => encoding_general _
theorem Encoding.engineQueueResend : ∀ x1, Encoding.Statement (.engineQueueResend x1) := fun _ => encoding_general _
theorem Encoding.nmvCompletion : ∀ x1, Encoding.Statement (.nmvCompletion x1) := fun _ => encoding_general _
theorem Encoding.railSlewStep : ∀ x1, Encoding.Statement (.railSlewStep x1) := fun _ => encoding_general _
theorem Encoding.tileProductAttemptEnd : ∀ x1 x2 x3, Encoding.Statement (.tileProductAttemptEnd x1 x2 x3) := fun _ _ _ => encoding_general _
theorem Encoding.auditEnd : ∀ x1 x2, Encoding.Statement (.auditEnd x1 x2) := fun _ _ => encoding_general _
theorem Encoding.auditMismatchTrap : ∀ x1, Encoding.Statement (.auditMismatchTrap x1) := fun _ => encoding_general _
theorem Encoding.accumulatorMoveCompletion : ∀ x1, Encoding.Statement (.accumulatorMoveCompletion x1) := fun _ => encoding_general _
theorem Encoding.contributionPresent : ∀ x1, Encoding.Statement (.contributionPresent x1) := fun _ => encoding_general _
theorem Encoding.nodeForwardingTime : ∀ x1 x2 x3, Encoding.Statement (.nodeForwardingTime x1 x2 x3) := fun _ _ _ => encoding_general _
theorem Encoding.roundGiveUp : ∀ x1 x2, Encoding.Statement (.roundGiveUp x1 x2) := fun _ _ => encoding_general _
theorem Encoding.redCorrCompletion : ∀ x1, Encoding.Statement (.redCorrCompletion x1) := fun _ => encoding_general _
theorem Encoding.flushReadCompletion : ∀ x1 x2, Encoding.Statement (.flushReadCompletion x1 x2) := fun _ _ => encoding_general _
theorem Encoding.functionReset : ∀ x1, Encoding.Statement (.functionReset x1) := fun _ => encoding_general _
theorem Encoding.meterTick : Encoding.Statement .meterTick := encoding_general _
theorem Encoding.sharedTurnEnd : Encoding.Statement .sharedTurnEnd := encoding_general _
theorem Encoding.stopTimeout : ∀ x1, Encoding.Statement (.stopTimeout x1) := fun _ => encoding_general _
theorem Encoding.watchdogExpiry : ∀ x1, Encoding.Statement (.watchdogExpiry x1) := fun _ => encoding_general _
theorem Encoding.configurationRequest : ∀ x1, Encoding.Statement (.configurationRequest x1) := fun _ => encoding_general _
theorem Encoding.recoveryGo : ∀ x1, Encoding.Statement (.recoveryGo x1) := fun _ => encoding_general _
theorem Encoding.hubDieReset : Encoding.Statement .hubDieReset := encoding_general _
theorem Encoding.computeDieReset : ∀ x1, Encoding.Statement (.computeDieReset x1) := fun _ => encoding_general _
theorem Encoding.memoryDieReset : ∀ x1, Encoding.Statement (.memoryDieReset x1) := fun _ => encoding_general _
theorem Encoding.currentPacing : ∀ x1 x2, Encoding.Statement (.currentPacing x1 x2) := fun _ _ => encoding_general _
theorem Encoding.powerClockStep : Encoding.Statement .powerClockStep := encoding_general _
theorem Encoding.powerClockRestore : Encoding.Statement .powerClockRestore := encoding_general _
theorem Encoding.thermalClockStep : ∀ x1, Encoding.Statement (.thermalClockStep x1) := fun _ => encoding_general _
theorem Encoding.thermalShutdownReset : ∀ x1, Encoding.Statement (.thermalShutdownReset x1) := fun _ => encoding_general _
theorem Encoding.thermalClockRestore : ∀ x1, Encoding.Statement (.thermalClockRestore x1) := fun _ => encoding_general _
theorem Encoding.supplyOff : Encoding.Statement .supplyOff := encoding_general _
theorem Encoding.flitReplay : ∀ x1, Encoding.Statement (.flitReplay x1) := fun _ => encoding_general _
theorem Encoding.portRetrain : ∀ x1 x2, Encoding.Statement (.portRetrain x1 x2) := fun _ _ => encoding_general _
theorem Encoding.portDown : ∀ x1 x2, Encoding.Statement (.portDown x1 x2) := fun _ _ => encoding_general _
theorem Encoding.cxlPoisonResponse : ∀ x1, Encoding.Statement (.cxlPoisonResponse x1) := fun _ => encoding_general _
theorem Encoding.flushReadTimeout : ∀ x1, Encoding.Statement (.flushReadTimeout x1) := fun _ => encoding_general _
theorem Encoding.remoteRequest : ∀ x1 x2 x3, Encoding.Statement (.remoteRequest x1 x2 x3) := fun _ _ _ => encoding_general _
theorem Encoding.timeExchange : ∀ x1 x2, Encoding.Statement (.timeExchange x1 x2) := fun _ _ => encoding_general _
theorem Encoding.syncLoss : Encoding.Statement .syncLoss := encoding_general _
theorem Encoding.domainJoin : ∀ x1 x2 x3 x4, Encoding.Statement (.domainJoin x1 x2 x3 x4) := fun _ _ _ _ => encoding_general _
theorem Encoding.bar2Read : ∀ x1 x2 x3, Encoding.Statement (.bar2Read x1 x2 x3) := fun _ _ _ => encoding_general _
theorem Encoding.bar2Write : ∀ x1 x2 x3 x4, Encoding.Statement (.bar2Write x1 x2 x3 x4) := fun _ _ _ _ => encoding_general _
theorem Encoding.hostAtomicop : ∀ x1, Encoding.Statement (.hostAtomicop x1) := fun _ => encoding_general _
theorem Encoding.doorbell : ∀ x1 x2 x3, Encoding.Statement (.doorbell x1 x2 x3) := fun _ _ _ => encoding_general _
theorem Encoding.feataWrite : ∀ x1 x2, Encoding.Statement (.feataWrite x1 x2) := fun _ _ => encoding_general _
theorem Encoding.vfEnable : ∀ x1, Encoding.Statement (.vfEnable x1) := fun _ => encoding_general _
theorem Encoding.functionResetTimeout : ∀ x1 x2, Encoding.Statement (.functionResetTimeout x1 x2) := fun _ _ => encoding_general _
theorem Encoding.queueEnable : ∀ x1 x2, Encoding.Statement (.queueEnable x1 x2) := fun _ _ => encoding_general _
theorem Encoding.queueResume : ∀ x1 x2, Encoding.Statement (.queueResume x1 x2) := fun _ _ => encoding_general _
theorem Encoding.errcntRead : ∀ x1, Encoding.Statement (.errcntRead x1) := fun _ => encoding_general _
theorem Encoding.registerWrite : ∀ x1 x2 x3, Encoding.Statement (.registerWrite x1 x2 x3) := fun _ _ _ => encoding_general _
theorem Encoding.spdmGetVersion : ∀ x1, Encoding.Statement (.spdmGetVersion x1) := fun _ => encoding_general _
theorem Encoding.spdmGetCapabilities : ∀ x1, Encoding.Statement (.spdmGetCapabilities x1) := fun _ => encoding_general _
theorem Encoding.spdmNegotiateAlgorithms : ∀ x1 x2, Encoding.Statement (.spdmNegotiateAlgorithms x1 x2) := fun _ _ => encoding_general _
theorem Encoding.spdmGetDigests : ∀ x1, Encoding.Statement (.spdmGetDigests x1) := fun _ => encoding_general _
theorem Encoding.spdmGetCertificate : ∀ x1 x2, Encoding.Statement (.spdmGetCertificate x1 x2) := fun _ _ => encoding_general _
theorem Encoding.spdmChallenge : ∀ x1, Encoding.Statement (.spdmChallenge x1) := fun _ => encoding_general _
theorem Encoding.spdmGetMeasurements : ∀ x1 x2, Encoding.Statement (.spdmGetMeasurements x1 x2) := fun _ _ => encoding_general _
theorem Encoding.spdmKeyExchange : ∀ x1, Encoding.Statement (.spdmKeyExchange x1) := fun _ => encoding_general _
theorem Encoding.spdmFinish : ∀ x1, Encoding.Statement (.spdmFinish x1) := fun _ => encoding_general _
theorem Encoding.spdmHeartbeat : ∀ x1, Encoding.Statement (.spdmHeartbeat x1) := fun _ => encoding_general _
theorem Encoding.spdmEndSession : ∀ x1, Encoding.Statement (.spdmEndSession x1) := fun _ => encoding_general _
theorem Encoding.spdmUnsupportedRequest : ∀ x1, Encoding.Statement (.spdmUnsupportedRequest x1) := fun _ => encoding_general _
theorem Encoding.heartbeatMiss : ∀ x1 x2, Encoding.Statement (.heartbeatMiss x1 x2) := fun _ _ => encoding_general _
theorem Encoding.pageWalk : ∀ x1 x2 x3, Encoding.Statement (.pageWalk x1 x2 x3) := fun _ _ _ => encoding_general _
theorem Encoding.frameMoveStart : ∀ x1 x2, Encoding.Statement (.frameMoveStart x1 x2) := fun _ _ => encoding_general _
theorem Encoding.eccUncorrectable : ∀ x1, Encoding.Statement (.eccUncorrectable x1) := fun _ => encoding_general _
theorem Encoding.partialArrival : ∀ x1, Encoding.Statement (.partialArrival x1) := fun _ => encoding_general _
theorem Encoding.deliveryArrival : ∀ x1, Encoding.Statement (.deliveryArrival x1) := fun _ => encoding_general _
theorem Encoding.correctionArrival : ∀ x1, Encoding.Statement (.correctionArrival x1) := fun _ => encoding_general _

end Sys2Proof.Laws
end

