-- ==== Sys2Proof/Tests/Slice0.lean ====
section
/-!
SUPPORT. The model's own tests: words written out from the encodings of the spec, a refusal of each check of the operands, single steps
with their results taken from the spec, and states that meet the hypotheses of the statements.
-/

namespace Sys2Proof.Tests

open Sys2Proof Sys2Proof.Machine

/-! ### Words (each put together from the fields of its page: spec/13 R276, R278; spec/14 to spec/18) -/

theorem test_decode_scalar :
    decode 0x080420C0 none = some (.sadd 1 2 3, 1) ∧ decode 0x0C0420C4 none = some (.scmp 1 2 3 .gt, 1) ∧
      decode 0x0E0420CC none = some (.sbfi 1 2 3, 1) ∧ decode 0x0F041000 none = some (.srdS 1 .group, 1) := by decide

theorem test_decode_control :
    decode 0x42281503 none = some (.live true false 0x81 5 3, 1) ∧ decode 0x06628380 none = some (.loop 1 (.imm 5) 7, 1) ∧
      decode 0x100A0010 none = some (.fsplit 2 true 0x10, 1) ∧ decode 0x05003000 none = some (.bri 3, 1) ∧
      decode 0x1300BEEF none = some (.trap 0xBEEF, 1) := by decide

theorem test_decode_vector :
    decode 0x180420C0 none = some (.vadd .i32 (.dir 1) (.dir 2) (.dir 3), 1) ∧
      decode 0x1A07FFFF none = some (.vmovi (.dir 1) 0x3FFFF, 1) ∧
      decode 0x1B0420C4 none = some (.vmad (.dir 1) (.dir 2) (.dir 3) (.dir 4), 1) ∧
      decode 0x1C0420C2 none = some (.vcmp 1 false .lt (.dir 2) (.dir 3), 1) ∧
      decode 0x1E0420C4 none = some (.vshfl (.dir 1) (.dir 2) (.xor 3), 1) ∧ decode 0x1F040047 none = some (.pset 1 true, 1) := by
  decide

theorem test_decode_float :
    decode 0x200420C4 none = some (.vfadd .f32 true (.dir 1) (.dir 2) (.dir 3), 1) ∧
      decode 0x2204203C none = some (.vfrnd .f32 .rdn (.dir 1) (.dir 2), 1) ∧
      decode 0x2A042500 none = some (.vsqrt (.dir 1) (.dir 2) true, 1) := by decide

theorem test_decode_memory :
    decode 0x2C105FC8 none = some (.vld 4 ⟨5, 63, none⟩ .b32 false, 1) ∧
      decode 0x2E105FCC none = some (.sld 4 ⟨5, 63, none⟩ .b64 false, 1) ∧ decode 0x351C1000 none = some (.fence .sys .acq, 1) ∧
      decode 0x36140088 none = some (.barw 5 2, 1) ∧ decode 0x3600000C none = some (.gbar, 1) := by decide

theorem test_decode_engines :
    decode 0x390C0000 none = some (.mzero 3, 1) ∧ decode 0x3D140001 none = some (.hwait 5, 1) ∧
      decode 0x3D044006 none = some (.tdset 1 4, 1) := by decide

theorem test_decode_system :
    decode 0x3E140007 none = some (.redClose 5, 1) ∧ decode 0x3E04200E none = some (.tapeDrop 1 2, 1) ∧
      decode 0x3E04200F none = some (.qsig 1 2, 1) ∧ decode 0x3F080001 none = some (.railr 2, 1) ∧
      decode 0x3F080006 none = some (.auds 2, 1) := by decide

/-- A bit that a page wants 0, a reserved code and an unused major (spec/13 R289). -/
theorem test_decode_refuses :
    decode 0x05103000 none = none ∧ decode 0x06E28380 none = none ∧ decode 0x1C0420CA none = none ∧ decode 0x17000000 none = none := by
  decide

/-! ### Operands that the checks refuse (spec/13 R284, R285) -/

theorem test_illformed_header : wellFormed (.hdr 0 12 0 false) = false := by decide
theorem test_illformed_two_indexes : wellFormed (.vadd .i32 (.idx 0 1) (.idx 1 2) (.dir 3)) = false := by decide
theorem test_illformed_odd_pair : wellFormed (.vadd .i64 (.dir 1) (.dir 2) (.dir 4)) = false := by decide
theorem test_illformed_abs_unsigned : wellFormed (.vabs .n32 (.dir 1) (.dir 2)) = false := by decide
theorem test_illformed_float_pair : wellFormed (.vfmaF64 (.dir 1) (.dir 2) (.dir 4) (.dir 6)) = false := by decide
theorem test_illformed_reduction : wellFormed (.vrdc .and .f32 (.dir 1) (.dir 2)) = false := by decide
theorem test_illformed_pack_element : wellFormed (.vpack .f16 (.dir 1) (.dir 2) 2) = false := by decide
theorem test_illformed_random_pair : wellFormed (.vrng (.dir 1) 3 4) = false := by decide
theorem test_illformed_fence : wellFormed (.fence .sys .none) = false := by decide
theorem test_illformed_fragment : wellFormed (.mfrgRd 33 0 0 false) = false := by decide
theorem test_illformed_scalar_pair : wellFormed (.tapePush 0 1 3) = false := by decide
theorem test_illformed_descriptor : wellFormed (.tdset 0 2) = false := by decide

/-! ### A device with a word in hand -/

/-- A device in service whose quarter 0 has a word in hand, the last of its clause, for the one fibre of 32 lanes of group 1; `f` gives
the group its registers. -/
def hand (f : Group → Group) : State :=
  let s := State.reset.withFetchWord 32 0
  let g := f (s.group 1)
  (s.setGroup 1 g).modIt fun it => { it with snap := g }

/-- The fibre of it. -/
def fibre : Fibre := { id := 0, mask := allLanes, at_ := {} }

/-- Scalar registers given. -/
def withS (l : List (Nat × Word)) (g : Group) : Group := { g with s := l.foldl (fun t e => t.put e.1 e.2) g.s }

/-- Vector registers given: lane, number, value. -/
def withV (l : List (Nat × Nat × W32)) (g : Group) : Group := l.foldl (fun g e => g.write (.v e.1 e.2.1 e.2.2)) g

/-- A handler set. -/
def withHandler (g : Group) : Group := { g with tvec := 0x2000 }

/-- The team of the word in hand changed. -/
def teamed (f : Team → Team) (s : State) : State := s.setTeam 1 (f (s.team 1))

/-- A context whose addresses below 1 GiB are one page at 0x40000000, of the given key, its tables at 0x10000 and 0x11000; `bits` are the
upper bits of the leaf. -/
def mapped (bits : Nat) (s : State) : State :=
  let page := 0x11000 + 2 ^ 54
  let leaf := 0x40000000 + 2 ^ 54 + 3 * 2 ^ 55 + bits
  { s with
    fns := [(0, { feata := BitVec.allOnes 64, lock := true, kcount := 1, qcount := 1 })],
    slots := [(0, { root := 0x10000 })], keys := [(0, { state := .live, key := 3 })],
    mem := putBytes (putBytes [] 0x10000 (leBytes 8 page)) 0x11000 (leBytes 8 leaf),
    units := [(0x10000 / 32, { key := 3, slot := 0 }), (0x11000 / 32, { key := 3, slot := 0 })],
    placed := [(1, .stack 0), (16384, .stack 0)] }

/-- What a step leaves in the group's scalar register, a lane's vector register, its flags, and its fibres. -/
def next (r : Res) : Option State := match r with
  | .next t => some t
  | .fault _ | .refused _ => none
def sOf (r : Res) (n : Nat) : Option Word := (next r).map fun t => (t.group 1).sreg n
def vOf (r : Res) (l n : Nat) : Option W32 := (next r).map fun t => (t.group 1).vreg l n
def fpsrOf (r : Res) : Option Word := (next r).map fun t => (t.group 1).fpsr

/-! ### Single steps -/

/-- R300: 64-bit sums wrap. -/
theorem test_sadd_wraps : sOf (exec (.sadd 1 2 3) (hand (withS [(2, 0xFFFFFFFFFFFFFFFF), (3, 2)]))) 1 = some 1 := by decide

/-- R300: SMULH is the signed high half. -/
theorem test_smulh_sign : sOf (exec (.smulh 1 2 3) (hand (withS [(2, 0xFFFFFFFFFFFFFFFF), (3, 2)]))) 1 =
    some 0xFFFFFFFFFFFFFFFF := by decide

/-- R319: VSUB in one lane, the destination being a source. -/
theorem test_vsub_lane : vOf (exec (.vsub .i32 (.dir 2) (.dir 2) (.dir 3)) (hand (withV [(5, 2, 1), (5, 3, 2)]))) 5 2 =
    some 0xFFFFFFFF := by decide

/-- R326, R265: 1.0 + 2^-24 is a tie, which goes to the even 1.0, and is inexact. -/
theorem test_vfadd_tie :
    let r := exec (.vfadd .f32 false (.dir 1) (.dir 2) (.dir 3)) (hand (withV [(0, 2, 0x3F800000), (0, 3, 0x33800000)]))
    vOf r 0 1 = some 0x3F800000 ∧ fpsrOf r = some fNX := by decide

/-- R326: the greater of -0 and +0 is +0. -/
theorem test_vfmax_zero :
    vOf (exec (.vfmax .f32 (.dir 1) (.dir 2) (.dir 3)) (hand (withV [(0, 2, 0x80000000), (0, 3, 0)]))) 0 1 = some 0 := by decide

/-- R327: 0 times infinity is the default NaN with NV, whatever the addend. -/
theorem test_vfma_invalid :
    let r := exec (.vfmaF32 (.dir 1) (.dir 2) (.dir 3) (.dir 4)) (hand (withV [(0, 2, 0), (0, 3, 0x7F800000), (0, 4, 0x7FC00001)]))
    vOf r 0 1 = some 0x7FC00000 ∧ fpsrOf r = some fNV := by decide

/-- R328: the class of the least positive subnormal is bit 5. -/
theorem test_vfclass_subnormal : vOf (exec (.vfclass .f32 (.dir 1) (.dir 2)) (hand (withV [(0, 2, 1)]))) 0 1 = some 32 := by decide

/-- R312, R240, R247: TRAP enters the handler with cause 0x11 and its code. -/
theorem test_trap_enters :
    (next (exec (.trap 7) (hand withHandler))).map (fun t => (t.group 1).fibres.map fun f =>
      (f.at_.pc, f.mask, f.trap.map fun x => (x.cause, x.tsyn))) = some [(0x2000, allLanes, some (17, 7))] := by decide

/-- R244: without a handler the instance is killed. -/
theorem test_trap_without_handler :
    (next (exec (.trap 7) (hand id))).map (fun t => (t.insts.map fun e => e.2.killed, (t.group 1).fibres)) = some ([true], []) := by decide

set_option maxRecDepth 8000 in
/-- R343: a store to scratchpad is little-endian, and the highest lane's stands where lanes meet. -/
theorem test_vsts_bytes :
    (next (exec (.vsts 4 ⟨5, 63, none⟩ .b32) (teamed (fun x => { x with scrBytes := 65536 }) (hand fun g =>
      withS [(5, 0x100)] (withV [(31, 4, 0x04030201)] g))))).map
        (fun t => readZ (t.team 1).scratch 0xFF 6) = some [0, 1, 2, 3, 4, 0] := by decide

/-- R405, R81: a full tape is not there; TAPE.DROP of tape 1024 leaves c[A] 0. -/
theorem test_tape_drop_range :
    (next (exec (.tapeDrop 1 2) (hand (withS [(2, 1024)])))).map (fun t => (t.group 1).fibres.map (·.c)) = some [0] := by decide

/-- R145: the worked case, its count and orientation after steps 3, 4, 7, 8, 9 and 10. -/
theorem test_sector_turns :
    let show_ (x : Sector) : Nat × Bool := (x.count, x.ori)
    let s3 := Sector.slices true 3 { fn := 0, tid := 7, trow := 0, tcol := 0, rows := [] }
    let s7 := Sector.slices true 3 (s3.slice false)
    let s9 := Sector.slices true 2 s7
    show_ s3 = (3, false) ∧ show_ (s3.slice false) = (0, false) ∧ show_ s7 = (3, false) ∧ show_ (s7.slice true) = (0, true) ∧
      show_ s9 = (0, true) ∧ show_ (s9.slice false) = (1, true) := by decide

/-- R22, R23: the first step of a device is its boot. -/
theorem test_reset_boots : State.reset.phase = .booting ∧ State.reset.agenda = [] := by decide

/-! ### States that meet the hypotheses of the statements -/

/-- Registers of direct operands. -/
def direct (l : List Nat) (_ : Nat) : List Nat := l

theorem met_clean : (hand id).clean ∧ (hand id).it.mask ≠ 0 := by unfold State.clean; decide

/-- O1, O2, O12, O15, O34, O41 to O43, O45: one fibre issues. -/
theorem met_lone : (hand id).lone fibre ∧ (hand id).regs.walloc ≤ 256 := by unfold State.lone State.clean; decide

/-- O3 to O8, O12, O13: operands of one register and of a pair, at the ends of the window. -/
theorem met_operands : (hand id).operands [⟨.dir 63, false⟩, ⟨.dir 0, false⟩, ⟨.dir 1, false⟩, ⟨.dir 2, false⟩] (direct [63, 0, 1, 2]) := by
  unfold State.operands; decide
theorem met_pairs : (hand id).operands [⟨.dir 62, true⟩, ⟨.dir 0, true⟩, ⟨.dir 2, true⟩, ⟨.dir 4, true⟩] (direct [62, 0, 2, 4]) := by
  unfold State.operands; decide
theorem met_pair_in : (hand id).operands [⟨.dir 63, false⟩, ⟨.dir 62, true⟩] (direct [63, 62]) := by
  unfold State.operands; decide

/-- O9, O10: supervisor mode; O11: user mode. -/
theorem met_special_access : (hand id).lone fibre ∧ (hand id).mySup = true ∧ (hand id).it.closes = true := by
  unfold State.lone State.clean; decide
def userHand : State := let s := hand withHandler; { s with insts := s.insts.map fun e => (e.1, { e.2 with sup := false }) }
theorem met_privilege : userHand.mayTrap fibre ∧ userHand.it.term = [] ∧ userHand.mySup = false := by
  unfold State.mayTrap State.alone State.lone State.clean; decide

/-- O17, O18, O33: a trap can be delivered; the word is the last of its clause. -/
theorem met_trap : (hand withHandler).mayTrap fibre ∧ (hand withHandler).it.term = [] ∧ (hand withHandler).it.lastPlace = true := by
  unfold State.mayTrap State.alone State.lone State.clean; decide

/-- O19: an index pair out of the 63 names, at both ends. -/
theorem met_bounds :
    let s := hand fun g => { withHandler g with x := (List.range 32).map fun l => (4 * l, (0xFFFF : BitVec 16)) }
    s.mayTrap fibre ∧ (∀ l < 32, (s.regs.xreg l 0).toInt + 0 = -1) := by
  unfold State.mayTrap State.alone State.lone State.clean; decide

/-- O20: a group without a handler; O21: a trap fibre; O22: the whole group of a word that ends its clause. -/
theorem met_double : ((hand id).group 1).fibre? 0 = some fibre ∧ allLanes &&& fibre.mask ≠ 0 ∧ tvecAddr ((hand id).group 1).tvec = 0 ∧
    Tab.sorted (hand id).teams = true := by decide
theorem met_return : (match next (exec (.trap 7) (hand withHandler)) with
    | some t => ((t.group 1).fibre? 1).any fun f => f.trap.isSome
    | none => false) = true := by decide
theorem met_solo : (hand id).solo fibre ∧ fibre.loops.levels = 0 := by
  unfold State.solo State.lastWord State.lone State.clean; decide

/-- O22: a group that a trap fibre alone is left of, and one whose lanes part at an FSPLIT in an open loop. -/
def trapped : Fibre :=
  let x : TrapRegs :=
    { cause := 16, sup := false, tsyn := 0, tunit := [], ttile := 0, tpc := 0, tl := 0, il := 0, retResume := { pc := 64 }, retWb := 0,
      retLoops := {}, retEntry := none, retFail := [], retPoison := [] }
  { fibre with trap := some x }
theorem met_solo_trap : (hand fun g => { g with fibres := [trapped] }).solo trapped ∧ trapped.trap.isSome = true := by
  unfold State.solo State.lastWord State.lone State.clean; decide
def looping : Fibre := { fibre with entry := some 0, loops := { levels := 1, lc := [(0, 0)], bound := [(0, 2)], start := [(0, 0x100)], stop := [(0, 0x20000)] } }
theorem met_solo_split :
    let s := hand fun g => { g with p := [(0, 1)], fibres := [looping], split := [(0, { join := allLanes, outer := none })] }
    s.solo looping ∧ s.regs.preg 0 0 = true ∧ s.regs.preg 1 0 = false ∧ s.mine.split.get? 1 = none ∧ s.mine.quarter = s.cur ∧
      looping.loops.levels = 1 ∧ s.it.clause + 4 * 100 ≤ looping.loops.stop.getD 0 0 := by
  unfold State.solo State.lastWord State.lone State.clean; decide

/-- O22: a split whose other part waits at FJOIN, one whose other part runs, and one whose other part waits in another split. -/
def joining (kind : FibreKind) (entry : Nat) : State :=
  hand fun g => { g with
    fibres := [{ fibre with mask := 0xFFFF, entry := some 0 }, { id := 1, mask := 0xFFFF0000, at_ := {}, kind := kind, entry := some entry }],
    split := [(0, { join := allLanes, outer := none }), (1, { join := allLanes, outer := none })],
    tvec := 0x40 }
theorem met_join :
    let m : Fibre := { fibre with mask := 0xFFFF, entry := some 0 }
    (∀ s ∈ [joining (.parked .join) 0, joining .run 0, joining (.parked .join) 1], s.lastWord m ∧ Tab.sorted s.mine.split = true ∧
      s.mine.joinable 1 { join := allLanes, outer := none } = false ∧ tvecAddr s.mine.tvec ≠ 0) ∧
    ((joining (.parked .join) 0).mine.fibres.map fun f => (f.kind == .parked .join && f.entry == some 0, f.id)) = [(false, 0), (true, 1)] ∧
    ((joining (.parked .join) 1).mine.fibres.map fun f => (f.kind == .parked .join && f.entry == some 0, f.id)) = [(false, 0), (false, 1)] := by
  unfold State.lastWord State.lone State.clean; decide

/-- O24, O27: an access of all lanes to scratchpad, at its last bytes. -/
def scratched : State := teamed (fun x => { x with scrBytes := 65536 }) (hand (withS [(5, 0xFFFC)]))
theorem met_reach_scratch : scratched.clean ∧ scratched.inBounds 4 1 63 ∧
    (∀ l ∈ lanesOf scratched.it.mask, scratched.reaches (.space .sp) (laneUnit l 0xFFFC) 4 0 4 .read (.scratch 1 0xFFFC)) := by
  unfold State.clean State.inBounds State.reaches State.oneWalk; decide

/-- O25, O28 to O30, O32, O35: a virtual address that a page maps for reading and writing. -/
def paged : State := mapped (2 ^ 57) (hand (withS [(5, 0x100)]))
theorem met_reach_virtual : paged.lone fibre ∧ paged.reaches (.space .virt) { lane := 0, lanes := lanesOf allLanes, ea := 0x100 } 8 0 8 .write
    (.frame 0x40000100 0) := by
  unfold State.lone State.clean State.reaches State.oneWalk; decide
theorem met_settled : paged.settled true (.frame 0x40000100 0) 8 ∧ paged.flushDue true [fibre] = false ∧ paged.it.lastPlace = true := by
  unfold State.settled State.settledOn
  refine ⟨⟨by decide, by decide, fun dom key _ => .inl rfl⟩, by decide, by decide⟩
theorem met_cwb : walk paged paged.myFn paged.mySlot 0x100 .read = .ok 0x40000100 0 ∧ paged.cachedLeaves paged.myCore paged.mySlot 0x100 = [] ∧
    paged.isOwn 0x40000100 = true := by decide

/-- O26, O31, O36, O37, O38, O39. -/
theorem met_completion : ∃ o, ({ hand id with ops := [(7, { kind := .load, group := 1, quarter := 0, flag := some 3, holders := [0], lanes := 1, writes := [] })] } : State).ops.get? 7 = some o ∧ o.kind = .load :=
  ⟨_, rfl, rfl⟩
theorem met_barrier : (hand id).alone fibre ∧ (hand id).it.reissue = [] ∧ fibre.trap = none ∧ fibre.kind = .run ∧
    (hand id).mine.quarter = (hand id).cur ∧ (hand id).it.term = [] ∧
    (((hand id).team (hand id).myTeam).barriers.getD 15 {}).lanes.getD (hand id).mine.num 0 = 0 := by
  unfold State.alone State.lone State.clean; decide
theorem met_matrix : (hand id).lone fibre ∧ fibre.mask = allLanes ∧ (hand id).room 3 ∧ 7 < ((hand id).team (hand id).myTeam).acc ∧
    (hand id).inBounds 32 32 63 := by
  unfold State.lone State.clean State.room State.inBounds; decide
theorem met_fragment : (let s := teamed (fun x => { x with scrBytes := 65536 }) (hand id)
    (s.localLoc s.myTeam .sp 49152 16384).isSome = true) := by decide
theorem met_handles : ((hand id).handle (hand id).myTeam 63).isRed = false ∧ ((hand id).handle (hand id).myTeam 63).state = .free ∧
    ((hand id).coreAt (hand id).myCore).cflip.arm = false := by decide

/-- O44 and O46. -/
theorem met_qsig : (hand id).regs.sreg 0 = 0 ∧ (hand id).flushDue true [fibre] = false := by decide
theorem met_qsig_flush :
    ({ hand id with
       fns := [(0, { posted := [{ at_ := 1, addr := 64, slot := 0, fenced := true }] })],
       order := { known := [((Who.team (hand id).myTeam).num, [1])] } } : State).flushDue true [fibre] = true := by decide

/-- O47, O48: boot, recovery, service and resets of dies; a unit of a frame that rests on a stack. -/
theorem met_boot : State.reset.phase = .booting := by decide
theorem met_recovery : ({ State.reset with phase := .recovery, rcv := { len := 16777216 } } : State).rcv.busy = false := by decide
theorem met_service : (hand id).phase = .ready ∧ ((hand id).dieAt 31).inrst = false ∧ ((hand id).memDies.getD 15 {}).inrst = false ∧
    (hand id).presented 0 = true ∧ (hand id).atRest := by unfold State.atRest; decide
theorem met_stack :
    let s := mapped (2 ^ 57) (hand id)
    s.phase = .ready ∧ (s.memDies.getD 0 {}).inrst = false ∧ s.engs = [] ∧ (1, Place.stack 0) ∈ s.placed ∧
      s.dom (65536 * 1) / 65536 = (0x11000 / 32) / 2048 ∧ s.unitSlot (0x11000 / 32) = some 0 := by
  decide

/-- O49, O59: a SIGNAL to host memory, and a TLBINV of everything, at the head of slot 0, whose ring is in host memory. -/
def headed (words : List Nat) : State :=
  { mapped (2 ^ 57) (hand id) with
    slots := [(0, { root := 0x10000, en := true, size := 4, tail := 1 })], hostMem := writeZ [] 0 (words.flatMap (leBytes 8)) }
theorem met_signal : (headed [3, 2 ^ 63 + 64, 5]).heads (headed [3, 2 ^ 63 + 64, 5]) 0 3 
    { opc := 3, fence := false, irq := false, a0 := 2 ^ 63 + 64, a1 := 5, a2 := 0, reserved := false } ∧
    atHost (2 ^ 63 + 64) = true := by
  unfold State.heads State.atRest
  refine ⟨⟨by decide, by decide, by decide, ⟨_, rfl, by decide⟩, by decide, by decide, by decide⟩, by decide⟩
theorem met_tlbinv : (headed [8, 0, 4096]).heads (headed [8, 0, 4096]) 0 8 
    { opc := 8, fence := false, irq := false, a0 := 0, a1 := 4096, a2 := 0, reserved := false } := by
  unfold State.heads State.atRest
  refine ⟨by decide, by decide, by decide, ⟨_, rfl, by decide⟩, by decide, by decide, by decide⟩

/-- O50: a team that a stop was asked of, and a function in service. -/
theorem met_stop : (let s := teamed (fun x => { x with stopReq := true }) (hand id)
    (s.team 1).stopReq = true ∧ (s.team 1).stopped = false ∧ (s.team 1).ended = false ∧ (s.fn (s.inst (s.team 1).inst).fn).reset = false) := by
  decide

/-- O51, O59: an audit, an accumulator move, and a walk that ends. -/
theorem met_move : (let s : State := { hand id with engs := [(9, { kind := .move (.zero 3), core := 0, team := 1, slot := 0, fn := 0 })] }
    ∃ e, s.engs.get? 9 = some e ∧ s.engWaits 9 e = false) := ⟨_, rfl, by decide⟩
theorem met_walk : paged.phase = .ready ∧ paged.slotFn 0 = 0 ∧ walk paged 0 0 0xFFF8 .read = .ok 0x4000FFF8 0 := by decide

/-- O51: a chunk of a copy; a copy-on-write whose entry stands, and one whose entry has gone, that pauses a copy; and an exact product with the
supply at V, beside another product of the core. -/
def engine (l : List (Nat × EngKind)) (s : State) : State :=
  { s with engs := l.map fun e => (e.1, { kind := e.2, core := 0, team := 1, slot := 0, fn := 0, started := true }) }
def copying : CopyOp := { handle := 5, ssp := .virt, src := 0x100, dsp := .virt, dst := 0x200, len := 64 }
theorem met_chunk : (let s := engine [(9, .copy copying)] paged
    (s.engs.get? 9).any fun e => !s.atBoundary e 5 0x200 && !s.engWaits 9 e && !s.heldBack 9 e && !s.copyLost copying &&
      (s.liveMembers copying).length == copying.members.length && (s.copyBytes e copying copying.chunk 0).isOk &&
      (s.copyDests e copying 0).isOk && (s.meter e.fn 64).isSome) = true := by decide +kernel
def cowServed (frame : Nat) : State :=
  { engine [(9, .copy { copying with service := some 20, faultBase := true })] (mapped (2 ^ 59) (hand id)) with
    services := [(20, .cow 0 0 0x11000 frame 0x200 0)] }
theorem met_cow : (cowServed 0x40000000).cowWaits 0 0x11000 0x40000000 = false ∧ (cowServed 0x40000000).cowStands 0x11000 0x40000000 = true ∧
    (cowServed 0x40000000).cowReaches 0x40000000 = true ∧ (cowServed 0x50000000).cowWaits 0 0x11000 0x50000000 = false ∧
    (cowServed 0x50000000).cowStands 0x11000 0x50000000 = false ∧
    ((cowServed 0x50000000).engs.get? 9).map (·.pausedOn) = some (some (20, 5, true)) ∧ (cowServed 0x40000000).takeFrame.isSome = true ∧
    ({ cowServed 0x40000000 with fns := [(0, { memq := 1 })] } : State).quotaLeft 0 1 = true := by decide +kernel
def exactOp : MmaOp :=
  { tile := 0, fmt := .e4m3, rows := 1, cols := 1, regs := [], aDesc := 0, bDesc := 0, space := .sp, aOff := 0, bOff := 0, gt := false, i := 0, j := 0,
    kk := 0, mode := .exact, limit := 0, addr := 0, fetched := some { fmt := .e4m3, rows := 1, cols := 1, a := [], b := [] } }
theorem met_head : (let s := engine [(9, .mma exactOp), (10, .mma { exactOp with tile := 1, mode := .checked })] (hand id)
    let s := s.setCore 0 { s.coreAt 0 with vcur := 40, vg := 90 }
    (s.engs.get? 9).any fun e => !s.engWaits 9 e && !s.behindHead 9 e && (s.mmaBarred e exactOp).isNone &&
      (s.mmaOperands e exactOp).2.isNone && decide ((s.coreAt e.core).vcur ≠ (s.coreAt e.core).vg)) = true := by decide +kernel

/-- O52, O59: a group of two whose node holds a round. -/
def reduced : State :=
  { hand id with redSlots := [(0, { fn := 0, kslot := 0, gid := 5, n := 2, self := 1, pkgs := [0, 0] })], nodes := [{ gid := 5, chan := 3, round := 0, op := 0, type := 0, len := 1, d := 1000, slack := 200 }] }
theorem met_node : ∃ x n, reduced.redGroup 5 = some x ∧ reduced.node? 5 3 0 = some n ∧ n.forwarded = false :=
  ⟨_, _, rfl, rfl, by decide⟩

/-- O52: a root whose own handle takes the delivery at the forwarding time. -/
def rooted : State :=
  let s : State := { reduced with redSlots := [(0, { fn := 0, kslot := 0, gid := 5, n := 2, self := 0, pkgs := [0, 0] })] }
  s.setHandle s.myTeam 4
    { state := .filling, isRed := true, red := { gid := 5, chan := 3, op := 0, type := 0, len := 1, d := 1000, slack := 200, openRounds := [(0, 1800)] } }
theorem met_root : ∃ x n, rooted.redGroup 5 = some x ∧ rooted.node? 5 3 0 = some n ∧ x.self = 0 ∧ rooted.dueRounds (n.due x) = [] ∧
    rooted.channelHandle 5 3 = some (rooted.myTeam, 4) ∧
    n.due x < giveUpTime x.n 1000 200 ∧ (rooted.handle rooted.myTeam 4).red.openRounds = [(0, giveUpTime x.n 1000 200)] :=
  ⟨_, _, rfl, rfl, by decide, by decide, by decide, by decide, by decide⟩

/-- O53, O54: a flushing read that a fibre awaits. -/
theorem met_flush : (let s : State := { hand id with flushes := [(4, { fn := 0, group := some 1, slot := none, irq := false, host := false, addr := 0, value := 0 })] }
    ∃ w, s.flushes.get? 4 = some w ∧ s.stalled = false ∧ w.group = some 1) := ⟨_, rfl, by decide, rfl⟩

/-! Where words are turned away -/

/-- O24, O25, O27 to O29: an address that is not aligned, one past the scratchpad's end, and one in a range that an operation writes. -/
theorem met_refuse_align : (hand withHandler).mayTrap fibre ∧
    ∀ l ∈ lanesOf (hand withHandler).it.mask, (hand withHandler).refuses (.space .virt) (laneUnit l 0x101) 4 0 4 .read 6 4 := by
  refine ⟨by unfold State.mayTrap State.alone State.lone State.clean; decide, fun l _ => ?_⟩
  unfold State.refuses laneUnit
  rw [if_pos (show (257 : Word).toNat % 4 ≠ 0 by decide)]
  exact ⟨rfl, rfl⟩
theorem met_refuse_bound : (teamed (fun x => { x with scrBytes := 65536 }) (hand withHandler)).refuses (.space .sp) (laneUnit 0 0xFFFE) 2 0 4 .write 7 2048 := by
  unfold State.refuses
  exact ⟨rfl, rfl⟩
def lockedHand : State :=
  let s := teamed (fun x => { x with scrBytes := 65536 }) (hand withHandler)
  s.setCore 0 { s.coreAt 0 with locks := [(2, { op := 0, slot := 0, space := .sp, team := 1, first := 64, last := 95, dst := true, start := 64, since := 0 })] }
theorem met_refuse_lock : lockedHand.mayTrap fibre ∧ lockedHand.refuses (.space .sp) (laneUnit 0 92) 4 0 4 .read 8 130 := by
  refine ⟨by unfold State.mayTrap State.alone State.lone State.clean; decide, ?_⟩
  unfold State.refuses
  exact ⟨rfl, 2, true, rfl, rfl⟩
def lockedPage : State :=
  let s := mapped (2 ^ 57) (hand withHandler)
  s.setCore 0 { s.coreAt 0 with locks := [(2, { op := 0, slot := 0, space := .virt, team := 0, first := 64, last := 95, dst := true, start := 64, since := 0 })] }
theorem met_refuse_virtual : lockedPage.mayTrap fibre ∧ lockedPage.oneWalk 92 .read ∧
    lockedPage.refuses (.space .virt) (laneUnit 0 92) 4 0 4 .read 8 130 := by
  refine ⟨by unfold State.mayTrap State.alone State.lone State.clean; decide, by unfold State.oneWalk; decide, ?_⟩
  unfold State.refuses
  exact ⟨rfl, 2, true, rfl, rfl⟩

/-- O12: a header whose wait mask names a flag of a failed product, and one of a poisoned load in every lane. -/
def headerHand (f : Fibre) : State :=
  let s := hand fun g => { withHandler g with fibres := [f] }
  s.modIt fun it => { it with pos := 0 }
def failedFibre : Fibre := { fibre with fail := [(2, { ops := [5], tsyn := 64, tunit := 0, ttile := 0 })] }
def poisonedFibre : Fibre := { fibre with poison := (List.range 32).map fun l => (32 * 2 + l, (0x1000 : Word)) }
theorem met_header_fail : (headerHand failedFibre).alone failedFibre ∧ (headerHand failedFibre).it.members = [failedFibre.id] ∧
    (headerHand failedFibre).waitClear 1 0 4 = true ∧ (headerHand failedFibre).mine.failed = [] ∧ failedFibre.drain = false ∧
    (failedFibre.fail.get? 2).isSome = true := by
  unfold State.alone State.lone State.clean; decide
theorem met_header_poison : (headerHand poisonedFibre).alone poisonedFibre ∧
    (∀ e ∈ poisonedFibre.poison, e.1 / 32 = 2 ∧ e.2 = 0x1000) ∧
    ∀ l < 32, poisonedFibre.mask.getLsbD l = true → ∃ e ∈ poisonedFibre.poison, e.1 = 32 * 2 + l := by
  unfold State.alone State.lone State.clean; decide

/-- O31, O36: a fibre that leaves a lane of its group to another. -/
def oneLane : Fibre := { fibre with mask := 1 }
def splitHand : State := hand fun g => { withHandler g with fibres := [oneLane, { fibre with id := 1, mask := 2 }], nextFibre := 2 }
theorem met_bara : splitHand.lone oneLane ∧ splitHand.mine.alive &&& ~~~splitHand.it.mask ≠ 0 ∧ splitHand.it.closes = true ∧
    splitHand.mine.fibre? oneLane.id = some oneLane := by unfold State.lone State.clean; decide
theorem met_converge : (hand fun g => { withHandler g with fibres := [oneLane] }).mayTrap oneLane ∧ oneLane.mask ≠ allLanes := by
  unfold State.mayTrap State.alone State.lone State.clean; decide

/-- O37, O39, O40: a FREE handle that is bound to nothing, where no node and no round is open. -/
theorem met_handle_error : (hand withHandler).ageNodes.mayTrap fibre ∧ (hand withHandler).ageNodes.it = (hand withHandler).it ∧
    ((hand withHandler).handle (hand withHandler).myTeam 5).isRed = false := by
  unfold State.mayTrap State.alone State.lone State.clean; decide
theorem met_nothing_due (s : State) (h : s.dueNodes s.time = []) (k : s.dueRounds s.time = []) : s.redUntil s.time = s := by
  simp [State.redUntil, State.dueItems, h, k, sortBy]
theorem met_none_due : (hand withHandler).dueNodes 5 = [] ∧ (hand withHandler).dueRounds 5 = [] := by decide

/-- O39, O40: a package that is not the root of the group. -/
theorem met_opens : reduced.opensOnly 5 3 1 5000 200 := by
  refine ⟨by unfold State.noneDue; decide, by decide, ?_⟩
  intro y h
  have e : some _ = some y := h
  cases e
  exact ⟨by decide, nofun⟩

/-- O38: a copy that an armed flip counts. -/
theorem met_flip : (let s := hand id
    let t := s.setCore 0 { s.coreAt 0 with cflip := { arm := true, skip := 0 } }
    (t.coreAt t.myCore).cflip.arm = true ∧ (t.coreAt t.myCore).cflip.targeted = false) := by decide

/-- O18: a word that decodes to nothing, and a clause whose second word is another header. -/
theorem met_group_fault : (hand withHandler).groupFault = some (1, 0, 1) ∧ (hand withHandler).it.groupPositions = [1] ∧
    (hand withHandler).it.decoded 1 = none ∧ (hand withHandler).it.only = none := by decide
theorem met_frame : frameFault [0x01000FF0, 0x01000FF0, 0x43000000] = some 1 := by decide

/-- O55, O57: a word that decodes. -/
theorem met_step : (hand id).phase = .ready ∧ (hand id).agenda = [] ∧ wellFormed (.sadd 1 2 3) = true ∧ Instr.isWord (.sadd 1 2 3) = true := by
  decide

/-- O57: two fibres of a batch at HSTAT s1, h0 | SADD s2, s1, s1 take turns (spec/06 R127), and the second reads what the first's HSTAT
has written. -/
def turnsHand (turns : List (Nat × Mask)) (seen : Option Group) : State :=
  splitHand.modIt fun it =>
    { it with members := [0, 1], words := [16781296, 0x3D040005 + 0x80000000, 0x08081040 + 0x40000000],
              turns := turns, seen := seen, only := (turns.head?).map (·.2), pos := ((turns.head?).map (·.1)).getD 1 }
theorem met_turns : (turnsHand [] none).it.groupPositions = [1, 2] ∧ (turnsHand [] none).it.scalarAt 1 = true ∧
    (turnsHand [] none).it.scalarAt 2 = true ∧ (turnsHand [] none).it.turnsOf = [(1, 1), (2, 1), (1, 2), (2, 2)] ∧
    (turnsHand [] none).it.whole.map (·.mask) = [1, 2] := by decide
theorem test_turn_sees : (next (exec (.sadd 2 1 1) (turnsHand [(2, 2)] (some (withS [(1, 5)] splitHand.regs))))).map
    (fun t => (t.group 1).sreg 2) = some 10 := by decide

/-- O60: the state after reset has the form. -/
theorem met_form : memoryForm State.reset = true := by decide

/-! Records and blocks in memory -/

/-- Eight-byte words at a virtual address of the page. -/
def holding (a : Nat) (words : List Nat) (s : State) : State :=
  let p := 0x40000000 + a
  { s with mem := s.mem ++ (List.range (8 * words.length)).map fun k =>
             (p + k, BitVec.ofNat 8 (words.getD (k / 8) 0 / 256 ^ (k % 8))),
           units := s.units ++ (List.range (words.length / 4 + 2)).map fun k => (p / 32 + k, { key := 3, slot := 0 }) }

/-- The forms of `State.atRest` and `State.clean` that evaluate. -/
def rests (s : State) : Bool := s.moving.isEmpty && (List.range 16).all fun d => !(s.memDies.getD d {}).inrst
def cleanly (s : State) : Bool :=
  s.issuing && decide (s.it.traps = [] ∧ s.it.waits = [] ∧ s.it.late = [] ∧ s.it.held = false ∧ s.stalled = false)

/-- O41, O42, O49: a block of one group at 0x100, and the launch, the merge and the replay of it. -/
def task : State := holding 0x100 ([0x20000, 0, 1 + 32 * 2 ^ 8] ++ List.replicate 29 0) paged
def launches (s u : State) (b : Tcb) : Bool :=
  rests u && cleanly s && !u.tableFull 0 && (u.insts.all fun e => e.2.blk != 256) && u.credits.isEmpty && !b.bad && !b.tpsh && !b.sup
theorem met_launch : ((task.readRecord fibre 0x100 256 256).toOption.any fun r =>
    launches r.1 r.1 (parseTcb r.2) && r.1.it == task.it && r.1.inst r.1.myInst == task.inst task.myInst) = true ∧
    task.regs.sreg 5 = 0x100 := by decide +kernel
def window (blk n : Nat) : Window :=
  { fn := 0, blk := blk, tcb := none, children := List.replicate n 64, opened := 0, slot := 0, sup := true, prio := 0 }
theorem met_lagg : (task.checkRange .virt 0x100 256 256 .read).bad = none ∧ rests task = true ∧ task.windows = [] ∧
    task.time < (window 256 62).opened + 2000 ∧ (window 256 62).children.length + 1 < 64 ∧ (window 256 63).children.length + 1 = 64 ∧
    ({ task with windows := (List.range 16).map fun k => window (512 + 256 * k) 1 } : State).openWindows 0 =
      window 512 1 :: (List.range 15).map fun k => window (768 + 256 * k) 1 := by decide +kernel
def taped : State := { task with tapes := [(0, { recs := [{ blk := 256, sup := true, arg := 9 }], owner := some (task.ownerSlot 0 0) })] }
theorem met_tape_run : taped.regs.sreg 0 = 0 ∧ (taped.tape 0).run = none ∧ (taped.handle taped.myTeam 5).isRed = false ∧
    (taped.handle taped.myTeam 5).state = .free ∧
    (let z : Handle := { taped.handle taped.myTeam 5 with state := .filling, tape := some 0, run := true, sum := 1 }
     let run : TapeRun := { team := taped.myTeam, handle := 5, slot := 0, fn := 0, prio := 0, total := 1, retired := 0, inst := none }
     let r := ((taped.setHandle taped.myTeam 5 z).setTape 0 { taped.tape 0 with run := some run }).readTcb 0 0 256
     (r.2.any fun b => launches taped r.1 b) = true) := by decide +kernel

/-- O42: a run whose record names a block with a reserved bit set, and a run on a handle that fills. -/
def badTask : State :=
  { holding 0x100 ([0x20000, 0, 2 ^ 63] ++ List.replicate 29 0) paged with tapes := taped.tapes }
theorem met_tape_fails : (let z : Handle := { badTask.handle badTask.myTeam 5 with state := .filling, tape := some 0, run := true, sum := 1 }
     let run : TapeRun := { team := badTask.myTeam, handle := 5, slot := 0, fn := 0, prio := 0, total := 1, retired := 0, inst := none }
     let r := ((badTask.setHandle badTask.myTeam 5 z).setTape 0 { badTask.tape 0 with run := some run }).readTcb 0 0 256
     r.2.any (·.bad) && rests r.1 && !r.1.stalled && !r.1.tableFull 0) = true ∧
    (badTask.teams.get? badTask.myTeam).any (fun k => !k.ended) = true ∧
    (let s := (hand withHandler).setHandle (hand withHandler).myTeam 5 { state := .filling }
     s.mayTrap fibre ∧ s.it.term = [] ∧ (s.handle s.myTeam 5).state = .filling) := by
  unfold State.mayTrap State.alone State.lone State.clean; decide +kernel

/-- O40: a binding record at 0 for a group slot of this function, and a definition record in the last bytes of a page, its list in the
next page. -/
def binding : State :=
  holding 0 [5 * 2 ^ 8 + 3 * 2 ^ 16 + 16 * 2 ^ 32, 900000, 2 + 2 * 2 ^ 32, 0x8000, 0x9000, 0]
    { paged with redSlots := [(5, { fn := 0, kslot := 0, gid := 7, n := 2, self := 1, pkgs := [1, 0] })] }
theorem met_binding : ((binding.ageNodes.readRecord fibre 0 16 48).toOption.any fun r =>
    !bindingBad r.2 && cleanly r.1 && recField r.2 0 8 / 2 ^ 8 % 2 ^ 8 == 5 && recField r.2 0 8 / 2 ^ 16 % 2 ^ 6 == 3 &&
      r.1.nodes.isEmpty && (r.1.redSlots.get? 5).any fun g => g.fn == r.1.myFn && !r.1.channelBound g 5 3) = true := by decide +kernel
def definition : State :=
  let leaf := 0x80000000 + 2 ^ 54 + 3 * 2 ^ 55 + 2 ^ 57
  holding 0x3FFFFFF0 [9 + 2 ^ 16 + 2 ^ 32, 0, 1]
    { paged with mem := putBytes paged.mem 0x11008 (leBytes 8 leaf), placed := paged.placed ++ [(32767, .stack 0), (32768, .stack 0)] }
theorem met_definition : ((definition.ageNodes.readRecord fibre 0x3FFFFFF0 16 16).toOption.any fun r =>
    let n := 2 * (recField r.2 0 8 / 2 ^ 16 % 1024 + 1)
    (r.1.readRecord fibre 0x40000000 2 n).toOption.any fun q =>
      n == 4 && cleanly q.1 && !definitionBad q.1.pkg (r.2 ++ q.2) && !q.1.slotTaken 4 q.1.myFn &&
        (q.1.liveKey q.1.myFn (recField r.2 0 8 / 2 ^ 48 % 4096)).isSome && decide (8 ≤ r.2.length)) = true ∧
    definition.ageNodes.slotTaken 4 definition.myFn = false ∧ definition.mySup = true := by decide +kernel
/-- O40: a reduction handle with a correction record, taken into a buffer that maps. -/
def corrected : State :=
  let s := paged
  s.setHandle s.myTeam 5 { s.handle s.myTeam 5 with isRed := true, state := .full, red := { (s.handle s.myTeam 5).red with
    grp := 5, chan := 3, gid := 7, len := 4, cqn := 2, cqa := 0x9000, dst := 0x8000, recs := [(0, 1)], wpos := 0 } }
theorem met_corr : (corrected.checkRange .virt 0x100 16 (144 + 16) .write).bad = none ∧
    (corrected.handle corrected.myTeam 5).isRed = true ∧ (corrected.handle corrected.myTeam 5).state = .full ∧
    (corrected.handle corrected.myTeam 5).round = 0 ∧ (corrected.handle corrected.myTeam 5).red.recs = [] ++ (0, 1) :: [] := by
  decide +kernel

/-- O23: a fibre at the end of a loop of two rounds that stands in another, in the first round and in the last. -/
def looped (k : Nat) : Fibre :=
  { fibre with loops := { levels := 2, lc := [(1, k)], bound := [(0, 5), (1, 2)], start := [(0, 0x100), (1, 0x200)], stop := [(0, 0x300), (1, 0x240)] } }
theorem met_loop : (looped 0).loops.levels = 2 ∧ (looped 0).loops.stop.getD 1 0 = 0x240 ∧
    (looped 0).loops.lc.getD 1 0 + 1 < (looped 0).loops.bound.getD 1 0 ∧ ¬(looped 1).loops.lc.getD 1 0 + 1 < (looped 1).loops.bound.getD 1 0 := by
  decide
theorem met_goto : ((hand id).group (hand id).it.group).fibre? 0 = some fibre := by decide

/-! O49: the other commands, at the head of slot 0. -/

def commandAt (opc a0 a1 a2 : Nat) : Command := { opc := opc, fence := false, irq := false, a0 := a0, a1 := a1, a2 := a2, reserved := false }
/-- Two local key slots, the second EMPTY, and a session that may bring keys. -/
def keyed (words : List Nat) : State :=
  let s := headed words
  { s with fns := [(0, { feata := BitVec.allOnes 64, lock := true, kcount := 2, qcount := 1, spdm := { live := true } })] }
theorem met_command_launch : (holding 0x100 ([0x20000, 0, 1 + 32 * 2 ^ 8] ++ List.replicate 29 0) (headed [1, 256])).heads
      (holding 0x100 ([0x20000, 0, 1 + 32 * 2 ^ 8] ++ List.replicate 29 0) (headed [1, 256])) 0 1 (commandAt 1 256 0 0) ∧
    (let r := (holding 0x100 ([0x20000, 0, 1 + 32 * 2 ^ 8] ++ List.replicate 29 0) (headed [1, 256])).readTcb 0 0 256
     (r.2.any fun b => launches (hand id) r.1 b) = true) := by
  refine ⟨?_, by decide +kernel⟩
  unfold State.heads State.atRest
  exact ⟨by decide, by decide, by decide, ⟨_, rfl, by decide⟩, by decide, by decide, by decide⟩
theorem met_command_copy : (headed [2, 0, 4096, 65]).heads (headed [2, 0, 4096, 65]) 0 2 (commandAt 2 0 4096 65) := by
  unfold State.heads State.atRest
  exact ⟨by decide, by decide, by decide, ⟨_, rfl, by decide⟩, by decide, by decide, by decide⟩
theorem met_waitge : (holding 0x100 [7] (headed [4, 0x100, 7])).heads (holding 0x100 [7] (headed [4, 0x100, 7])) 0 4 (commandAt 4 0x100 7 0) ∧
    (let s := holding 0x100 [7] (headed [4, 0x100, 7])
     ((s.setSlot 0 { s.slot 0 with qhead := (s.slot 0).next }).cpRead 0 0 0x100 8).2 = some (leBytes 8 7)) := by
  refine ⟨?_, by decide +kernel⟩
  unfold State.heads State.atRest
  exact ⟨by decide, by decide, by decide, ⟨_, rfl, by decide⟩, by decide, by decide, by decide⟩
theorem met_waitge_poll : let s := holding 0x100 [6] (headed [])
    let s := s.setSlot 0 { s.slot 0 with waitge := some (0x100, 7) }
    (s.slot 0).waitge = some (0x100, 7) ∧ (s.fn (s.slotFn 0)).reset = false ∧ (s.slotOwner 0).isSome = true ∧ s.stalled = false ∧
      (s.cpRead (s.slotFn 0) 0 0x100 8).2 = some (leBytes 8 6) := by decide +kernel
theorem met_keygen : (keyed [5, 1]).heads (keyed [5, 1]) 0 5 (commandAt 5 1 0 0) ∧ ((keyed [5, 1]).keySlot 1).state = .empty := by
  unfold State.heads State.atRest
  exact ⟨⟨by decide, by decide, by decide, ⟨_, rfl, by decide⟩, by decide, by decide, by decide⟩, by decide⟩
theorem met_keyimp : (keyed [6, 1, 2 ^ 63]).heads (keyed [6, 1, 2 ^ 63]) 0 6 (commandAt 6 1 (2 ^ 63) 0) ∧
    ((keyed [6, 1, 2 ^ 63]).keySlot 1).state = .empty ∧ ((keyed [6, 1, 2 ^ 63]).fn 0).spdm.live = true ∧ atHost (2 ^ 63) = true := by
  unfold State.heads State.atRest
  exact ⟨⟨by decide, by decide, by decide, ⟨_, rfl, by decide⟩, by decide, by decide, by decide⟩, by decide, by decide, by decide⟩
theorem met_keydel : (keyed [7, 0]).heads (keyed [7, 0]) 0 7 (commandAt 7 0 0 0) ∧ ((keyed [7, 0]).keySlot 0).state = .live ∧
    (keyed [7, 0]).services = [] := by
  unfold State.heads State.atRest
  exact ⟨⟨by decide, by decide, by decide, ⟨_, rfl, by decide⟩, by decide, by decide, by decide⟩, by decide, by decide⟩

/-- O50: a function of one core and one instance, at the head of its queue, with a team still to deal, with a stopped team that has room,
and over. -/
def served (i : Instance → Instance) (teams : Tab Team) : State :=
  let s := mapped (2 ^ 57) (hand id)
  { s with insts := [(1, i (s.inst 1))], teams := teams, groups := [], quarters := [], dies := [(0, { en := 1 })], nextId := 20 }
def queuedOne : State := served (fun i => { i with state := .ready }) []
theorem met_admission : queuedOne.mayDeal 0 true = true ∧ queuedOne.queueHead 0 = some [1] ∧ queuedOne.barred 0 [1] = none ∧ queuedOne.ownedTakes 0 = false ∧
    ((queuedOne.firstFit 0 true).any fun r => r.1 == .head [1] && !r.2.stalled) = true := by decide +kernel
/-- O50: the head of a queue whose function has no die. -/
theorem met_nodie :
    let s : State := { queuedOne with insts := queuedOne.insts.map fun e => (e.1, { e.2 with fn := 2 }), fns := [(2, {})] }
    s.phase = .ready ∧ (s.fn 2).reset = false ∧ s.dieSet 2 false = [] ∧ s.dieSet 2 true = [] ∧ s.queueHead 2 = some [1] ∧
      rests s = true ∧ s.stalled = false ∧ 1 < s.nextId := by decide +kernel
/-- O50: the head of a queue with a tape push, of a function that has not accepted TAPE. -/
theorem met_feat :
    let s : State := { queuedOne with insts := queuedOne.insts.map fun e => (e.1, { e.2 with fn := 2, tcb := { e.2.tcb with tpsh := true } }),
                                      fns := [(2, {})] }
    s.queueHead 2 = some [1] ∧ ((s.fn 2).lock && (s.fn 2).feata.getLsbD 5) = false ∧ (∃ id ∈ [1], (s.inst id).tcb.tpsh = true) ∧
      s.barred 0 [1] = some 4 ∧ rests s = true ∧ s.stalled = false := by decide +kernel
def runs (i : Instance) : Instance := { i with state := .running, shared := some true }
def dealt : State := served (fun i => { runs i with tcb := { i.tcb with clt := 2, nx := 1 }, dealt := 1 }) [(9, { inst := 1, shared := true, ended := true })]
theorem met_deal : dealt.mayDeal 0 true = true ∧ ((dealt.firstFit 0 true).any fun r => r.1 == .later 1) = true := by decide +kernel
def stoppedOne : State := served (fun i => { runs i with dealt := 1 }) [(9, { inst := 1, ngroups := 1, shared := true, stopped := true })]
theorem met_resume : (stoppedOne.team 9).stopped = true ∧ (stoppedOne.team 9).ended = false ∧ stoppedOne.mayDeal 0 true = true ∧
    (stoppedOne.resumesWith 9).all (fun j => !stoppedOne.imageLost j) = true ∧
    ((stoppedOne.firstFit 0 true).any fun r => r.1 == .resumed 9 && stoppedOne.isParty 9 r.1) = true := by decide +kernel
def overOne : State := served (fun i => { runs i with dealt := 1 }) []
theorem met_retire : overOne.instOver 1 = true ∧ 1 < overOne.nextId ∧ rests overOne = true ∧ overOne.stalled = false := by decide +kernel
/-- O50: a merge window that is due, of a block whose table is to stand at 0x400. -/
def mergedOne : State :=
  let w : Window := { window 256 2 with tcb := some { entry := 65536, g0 := 1, b0 := 32, aggt := 0x400 } }
  { served runs [] with insts := [], windows := [window 512 1, w] }
theorem met_merge : (mergedOne.windows.map fun w => (w.blk, w.closed)) = [(512, false), (256, false)] ∧ rests mergedOne = true ∧
    mergedOne.stalled = false ∧ mergedOne.tableFull 0 = false ∧ mergedOne.dueNodes 2000 = [] ∧ mergedOne.dueRounds 2000 = [] ∧
    (let r := ({ mergedOne with time := max mergedOne.time 2000, windows := [window 512 1] } : State).writeTable 0 0 0x400 [64, 64] 0
     r.2 && r.1.credits.isEmpty) = true := by decide +kernel
/-- O50: a team of a group that stands at a safe point, to stop, with frames for its image and without. -/
def stopping (memq : Nat) : State :=
  let s := teamed (fun x => { x with stopReq := true }) (hand fun g => { g with fibres := [{ fibre with live := some { q := true, h := true, ac := 0, sq := 0, vo := 0 } }] })
  { s with quarters := [], insts := [(1, { s.inst 1 with fn := 2 })], fns := [(2, { memq := memq })] }
theorem met_stop_image : (stopping 4).mayStop 1 = true ∧ ((stopping 4).takeFrames 2
    (((((stopping 4).freeFull 1).imageOf 1).length + 65535) / 65536)).isSome = true ∧ ((stopping 0).takeFrames 2
    (((((stopping 0).freeFull 1).imageOf 1).length + 65535) / 65536)).isNone = true := by decide +kernel
/-- O50: a group that waits alone at a barrier, and its timer. -/
def waiting (esc : Nat) (stopped : Bool) : State :=
  teamed (fun x => { x with stopped := stopped }) { hand fun g => { withHandler g with fibres := [{ fibre with kind := .parked (.barrier 0 false) }], expn := 1, esc := esc } with quarters := [] }
theorem met_starved : ((waiting 4 false).starved 1).map (·.id) = some 0 ∧ ((waiting 2 false).starved 1).map (·.id) = some 0 ∧
    ((waiting 4 true).starved 1).map (·.id) = some 0 ∧ 1 + 1 < max 1 4 ∧ max 1 2 ≤ 1 + 1 ∧
    ((waiting 2 false).inst 1).strikes = 0 ∧ ((waiting 2 false).teams.get? 1).isSome = true := by decide
/-- O50: a second function with work on the shared set, and resets that start, that wait for a virtual function, and that end. -/
def sharing : State := { hand id with fns := [(0, {}), (5, { en := true, share := true, kbase := 8, kcount := 2 })], insts := [(1, { (hand id).inst 1 with fn := 5, state := .ready })], teams := [], numVfs := 8 }
theorem met_turn : (sharing.turnsAfter sharing.turnFn).find? sharing.sharedWork = some 5 := by decide
theorem met_function_reset : sharing.phase = .ready ∧ sharing.presented 5 = true ∧ (sharing.fn 5).flr = false ∧ (sharing.fn 5).reset = false ∧
    sharing.stalled = false ∧ sharing.enabledVfs = [5] ∧
    (let s := sharing.setFn 5 { sharing.fn 5 with reset := true }
     s.quiet 5 = true ∧ rests s = true ∧ s.inForce 5 = true) := by decide
theorem met_reset_timeout : (let s := { hand id with fns := [(0, { reset := true })] }
    (s.teams.get? 1).any (fun x => x.inst == 1 && !x.ended && !x.stopped) = true ∧ (s.inst 1).fn = 0 ∧ (s.fn 0).reset = true) := by decide

/-- O52: participant 1 of 2 in the group of GID 7, whose team holds handle 5 of channel 3, FILLING; in flight are the reading of its own
value at 0x200 and two corrections. -/
def parted : State :=
  let s := holding 0x200 [5, 6] paged
  let e (k : EngKind) : EngOp := { kind := k, core := 0, team := 1, slot := 0, fn := 0, started := true }
  let s : State := { s with
    redSlots := [(5, { fn := 0, kslot := 0, gid := 7, n := 2, self := 1, pkgs := [1, 0] })], nextId := 40, peers := [1], links := [(57, { up := true })],
    engs := [(30, e (.sub { handle := 5, gid := 7, chan := 3, round := 0, op := 0, type := 2, len := 4, d := 900000, slack := 200, space := .virt, src := 0x200 })),
      (31, e (.corr { handle := 5, space := .virt, buf := 0x300, rec_ := none, round := 0 })),
      (32, e (.corr { handle := 5, space := .virt, buf := 0x400, rec_ := some 1, round := 0, area := 0x200, len := 16 }))] }
  s.setHandle 1 5 { s.handle 1 5 with isRed := true, state := .filling, red :=
    { grp := 5, chan := 3, gid := 7, len := 4, d := 900000, slack := 200, cqn := 2, cqa := 0x9000, dst := 0x8000, openRounds := [(0, 900800)] } }
def packet (sender cidx : Nat) : RedPacket :=
  { gid := 7, chan := 3, round := 0, op := 0, type := 0, len := 4, sender := sender, cidx := cidx, map := [0, 1], values := [1, 2, 3, 4],
    crc := 0, d := 900000, slack := 200, key := 3 }
def ownNode : NodeState := { gid := 7, chan := 3, round := 0, op := 0, type := 2, len := 4, d := 900000, slack := 200 }
def parent (s : State) : State :=
  { s with redSlots := [(5, { fn := 0, kslot := 0, gid := 7, n := 2, self := 0, pkgs := [0, 1] })], engs := [] }
theorem met_no_binding_waits : ∀ k, parted.bindingWaits k = false ∧ (parent parted).bindingWaits k = false := fun _ => ⟨rfl, rfl⟩
theorem met_contribution : rests parted = true ∧ parted.stalled = false ∧ ((parted.engs.get? 30).any fun e => !parted.engWaits 30 e &&
    (parted.handleRead e .virt 0x200 16).2.any fun bs => bs.all (fun b => !b.2) &&
      (let v := ((parted.handleRead e .virt 0x200 16).1.bump.dropEng 30).ageNodes
       (v.redGroup 7).isSome && v.nodes.isEmpty && (v.openNode ownNode).any fun w =>
         (w.node? 7 3 0).any fun n => n.agrees 0 2 4 && !n.forwarded)) = true := by decide +kernel
theorem met_partial : (let s := (parent parted).ageNodes
    (s.redGroup 7).any fun x => partialWhole (s.unseal x (packetOf (packet 1 0))) && s.upNode x 5 1 == some x.self && s.nodes.isEmpty &&
      (s.openNode { ownNode with type := 0 }).any fun w => (w.node? 7 3 0).any fun n => n.agrees 0 0 4 && !n.forwarded) = true := by decide +kernel
theorem met_forward : (let s := { parted with nodes := [ownNode] }
    (s.redGroup 7).any fun x => x.self != 0 && s.upNode x 5 x.self == some 0) = true ∧
    (∃ n, ({ parted with nodes := [ownNode] } : State).node? 7 3 0 = some n ∧ n.forwarded = false) := ⟨by decide, _, rfl, rfl⟩
theorem met_delivery : (let r := parted.ageNodes
    let y := r.handle 1 5
    (r.redGroup 7).any fun x => x.self != 0 && r.redKey x == 3 && y.red.agrees (r.unseal x (packetOf (packet 0 0))) &&
      r.upNode x 5 x.self == some 0 && decide (r.time < giveUpTime x.n y.red.d y.red.slack)) = true ∧
    parted.ageNodes.channelHandle 7 3 = some (1, 5) ∧ (parted.ageNodes.handle 1 5).state = .filling ∧
    (parted.ageNodes.handle 1 5).round = 0 ∧
    (parted.ageNodes.handle 1 5).red.recs.length + parted.ageNodes.takenRecs 1 5 < (parted.ageNodes.handle 1 5).red.cqn := by decide +kernel
theorem met_give_up : (parted.handle 1 5).isRed = true ∧ (parted.handle 1 5).red.nextRound = some (0, 900800) ∧ parted.nodes = [] := by decide
theorem met_corr_done : ((parted.engs.get? 31).any fun e => !parted.engWaits 31 e) = true ∧
    ((parted.engs.get? 32).any fun e => !parted.engWaits 32 e && (parted.handleRead e .virt 0x200 16).2.isSome) = true := by decide +kernel

/-- O53: a function to reset through VFCTL. -/
theorem met_rst : (hand id).vfsel ≤ 64 ∧ (3 : Word).getLsbD 1 = true ∧ (hand id).vfsel = 0 ∧
    ((hand id).fn (hand id).vfsel).resetting = false := by decide
/-- O53: features not yet locked; a slot to enable, to refuse and to resume; a doorbell; BAR2 with a slot and without; a virtual function to
enable; a session of recovery; and the ends of flushing reads that a slot and a fibre await. -/
def hosted (x : QSlot) : State := { headed [] with slots := [(0, x)] }
theorem met_features : (let s : State := { hand id with fns := [(0, {})], feato := BitVec.allOnes 64 }
    s.phase = .ready ∧ s.presented 0 = true ∧ (s.fn 0).lock = false ∧ ((2 ^ 63 + 1 : Word) &&& s.feato).getLsbD 0 = true ∧
      ((2 ^ 63 : Word) &&& s.feato).getLsbD 0 = false) := by decide +kernel
theorem met_enable : (hosted {}).selected 0 = some 0 ∧ ((hosted {}).fn 0).reset = false ∧ ((hosted {}).fn 0).lock = true ∧ (0 : Nat) < ((hosted {}).fn 0).kcount ∧
    (0x0043 : Word).getLsbD 0 = true ∧ (0x0043 : Word).toNat / 2 ^ 4 % 2 ^ 4 = 4 ∧ (0x0031 : Word).toNat / 2 ^ 4 % 2 ^ 4 = 3 ∧
    ((hosted { err := 2, skip := true }).slot 0).err ≠ 0 ∧ (0x0047 : Word).getLsbD 2 = true := by decide
theorem met_doorbell : (let s := hosted { en := true, size := 4 }
    0 < s.slotCount 0 ∧ (s.slot ((s.fn 0).qbase + 0)).en = true ∧ 15 % 65536 < 2 ^ (s.slot 0).size ∧ 2 ^ (s.slot 0).size ≤ 16 % 65536) := by decide
theorem met_bar2 : (let s := hosted { root := 0x10000 }
    s.slotCount 0 ≠ 0 ∧ s.stalled = false ∧ (s.bar2Pieces 0 0x100 16).length = 1 ∧
      ((State.bar2Places 0 (s.fn 0).qbase .read (s.bar2Pieces 0 0x100 16) s).2.any fun ps => ps.all fun p =>
        !(State.bar2Places 0 (s.fn 0).qbase .read (s.bar2Pieces 0 0x100 16) s).1.rangePoisoned p.1 p.2.2) = true ∧
      (s.cpWrite 0 (s.fn 0).qbase 0x100 [1, 2, 3]).2 = true) ∧ (hand id).slotCount 0 = 0 := by decide +kernel
theorem met_vf : (let s : State := { hand id with vfsel := 5, numVfs := 8, fns := [(0, {}), (5, { dies := 2, kbase := 8, kcount := 2 })] }
    s.vfsel ≠ 0 ∧ s.vfsel ≤ 64 ∧ s.presented 0 = true ∧ (s.fn s.vfsel).en = false ∧ s.enRefused s.vfsel = false) := by decide
theorem met_recovery_window : ({ State.reset with phase := .recovery } : State).phase = .recovery ∧ 0xFFFFF0 + 16 ≤ 16777216 := by decide
def flushSlot : State :=
  { hosted { root := 0x10000, busy := [.signal 4 false 0] } with
    flushes := [(4, { fn := 0, group := none, slot := some 0, irq := false, index := 0, host := true, addr := 64, value := 5 })] }
theorem met_flush_slot : (flushSlot.flushes.get? 4).any (fun w => decide (w.group = none) && decide (w.slot = some 0) && w.host &&
    decide (SlotWork.signal 4 w.irq w.index ∈ (flushSlot.slot 0).busy)) = true ∧ (flushSlot.slot 0).err = 0 ∧ flushSlot.stalled = false := by decide
def flushFibre : Fibre := { fibre with mask := 3, kind := .faultWait [4] }
def flushGroup : State :=
  { hand fun g => { withHandler g with fibres := [flushFibre] } with
    flushes := [(4, { fn := 0, group := some 1, slot := none, irq := false, host := false, addr := 0, value := 0, addrs := [(0, 64), (1, 72)] })] }
theorem met_flush_timeout : (flushGroup.group 1).fibres = [flushFibre] ∧ flushFibre.trap = none ∧ flushFibre.mask ≠ 0 ∧ tvecAddr (flushGroup.group 1).tvec ≠ 0 ∧
    (flushGroup.flushes.get? 4).any (fun w => (List.range 32).all fun i => !flushFibre.mask.getLsbD i || (w.addrs.get? i).isSome) = true := by decide

/-- O54: a port that retrains, a link that may go down, a request of another package that meets its tag and one that does not, a domain
without its master, a package that joins, and a session. -/
def linked (x : Link) : State := { hand id with links := [(linkNum (.ualink 3), x)] }
theorem met_retrain : ((linked { up := true, retraining := true, failed := [0, 1, 2] }).link (linkNum (.ualink 3))).retraining = true ∧
    ((linked { up := true, failed := [0, 1, 2] }).link (linkNum (.ualink 3))).up = true ∧
    3 ≤ ((linked { up := true, failed := [0, 1, 2] }).link (linkNum (.ualink 3))).failed.length := by decide
theorem met_remote : (let s : State := { paged with remoteTags := [(9, 5)] }
    s.phase = .ready ∧ 0x40000000 < s.frameEnd ∧ rests s = true ∧ s.stalled = false ∧ s.remoteTags.get? 9 = some 5 ∧
      s.remoteTags.get? 8 = none ∧ s.rangePoisoned (s.dom 0x40000000) 8 = false ∧ s.hasRoom (.stack 0) = true) := by decide +kernel
theorem met_sync : (let s : State := { hand id with master := false, exchTime := 0, time := 2000000 }
    s.master = false ∧ s.exchTime + 2000000 ≤ s.time) ∧ (let s : State := { hand id with insts := [] }
    s.insts = [] ∧ s.phase = .ready ∧ 1023 < 1024 ∧ s.npkg = 0) ∧ ({ hand id with npkg := 3 } : State).npkg ≠ 0 := by decide
theorem met_session : (let s : State := { hand id with fns := [(0, { spdm := { version := true, caps := true, algs := true, exchanged := true, live := true } })] }
    s.phase = .ready ∧ s.presented 0 = true ∧ (s.fn 0).spdm.algs = true ∧ (s.fn 0).spdm.live = true) ∧
    ((hand id).fn 0).spdm.algs = false := by decide

/-- O11, O20, O30: a privileged word that does not close its issue group, and a CWB of an address that nothing maps. -/
def openHand (s : State) : State := s.modIt fun it => { it with words := it.words.map (· ||| 0x80000000) ++ [0x43000000] }
theorem met_pended : (openHand userHand).lone fibre ∧ (openHand userHand).it.closes = false ∧ (openHand userHand).mySup = false := by
  unfold State.lone State.clean; decide
theorem met_cwb_trap : (hand withHandler).mayTrap fibre ∧ (hand withHandler).translate 0 0 0 0 .read = .fail 8 := by
  unfold State.mayTrap State.alone State.lone State.clean; decide +kernel

/-- O24 to O26, O35: a poisoned unit that no clean copy hides, and an operation that poison marks. -/
theorem met_tainted : ({ paged with poison := [0x40000100 / 32] } : State).tainted true (.frame 0x40000100 0) 8 := by
  refine ⟨by decide, by decide, fun dom key h => ?_, fun _ _ _ => .inl rfl⟩
  cases h
  exact ⟨0x40000100 / 32, by decide, by decide, by decide⟩
theorem met_poisoned : (let o : Op := { kind := .load, group := 1, quarter := 0, flag := some 3, holders := [0], lanes := 1, writes := [], poison := [(0, 0x100)] }
    ({ hand id with ops := [(7, o)] } : State).ops.get? 7 = some o ∧ o.poison.get? 0 = some 0x100) := ⟨rfl, rfl⟩

/-- O36: MMA.gt of two valid descriptors, no line of which is active. -/
def described : State := hand fun g => { g with em := [(0, 0), (1, 0)], t := [(0, BitVec.ofNat 256 (2 ^ 115 + 2 ^ 133 + 2 ^ 165)), (1, BitVec.ofNat 256 (2 ^ 115 + 2 ^ 133 + 2 ^ 165))] }
theorem met_gt : described.stateIllegal described.it (.mma .e4m3 0 7 (.gt 0 1 4) false) = false ∧
    dValid (described.regs.treg 0) = true ∧ described.regs.ereg 0 = 0 ∧ described.regs.ereg 1 = 0 := by decide +kernel

/-- O7, O8, O14: an element of each kind, and values that round. -/
theorem met_values : fmtF16.val 0x7C01 = .nan true ∧ fmtF16.val 0x8000 = .fin true 0 (-24) ∧ fmtBf16.val 0xFF80 = .inf true ∧
    fmtF32.val 1 = .fin false 1 (-149) ∧ cvtFmt .e2m1 = some fmtE2m1 ∧ cvtFmt .i4 = none := by decide

/-- Two wrong run sums of a q8 row, off by 1 and by -1 under different scales, cancel in the row's check alone (spec/09 R192). -/
theorem test_q8_runs :
    let q (c : Int) (k : Int) : List Elem := [{ val := .fin false 1 0, code := c, scale := .fin false 1 k }]
    let o : Operands := { fmt := .q8, rows := 1, cols := 3, a := [q 2 0], b := [q 3 0, q 5 1] }
    o.check (o.realWrongs [{ row := 0, col := 0, image := 7 }, { row := 0, col := 1, image := 9 }]) = { rows := [], cols := [0, 1] } := by
  decide +kernel

end Sys2Proof.Tests
end

section
/-!
Tables, sets of numbers and runs of folds: what the events of the package and of the host need of them.
-/

namespace Sys2Proof

/-- An entry of a table is still there after a write, or it was the first under the key written. -/
theorem Tab.mem_put_of_mem {V : Type} {t : Tab V} {e : Nat × V} (h : e ∈ t) (n : Nat) (v : V) :
    e ∈ t.put n v ∨ e.1 = n ∧ t.get? n = some e.2 ∧ (n, v) ∈ t.put n v := by
  induction t with
  | nil => cases h
  | cons a t ih =>
    obtain ⟨k, x⟩ := a
    simp only [Tab.put, Tab.get?]
    split
    · exact .inl (List.mem_cons_of_mem _ h)
    · split
      next hk =>
        subst hk
        rcases List.mem_cons.1 h with rfl | h
        · exact .inr ⟨rfl, rfl, List.mem_cons_self⟩
        · exact .inl (List.mem_cons_of_mem _ h)
      next hk =>
        rcases List.mem_cons.1 h with rfl | h
        · exact .inl List.mem_cons_self
        · rcases ih h with h | ⟨h1, h2, h3⟩
          · exact .inl (List.mem_cons_of_mem _ h)
          · exact .inr ⟨h1, h2, List.mem_cons_of_mem _ h3⟩

/-- A change of every value of a table, seen at one key. -/
theorem Tab.get?_map {V W : Type} (t : Tab V) (f : Nat → V → W) (n : Nat) :
    Tab.get? (List.map (fun e => (e.1, f e.1 e.2)) t) n = (t.get? n).map (f n) := by
  induction t with
  | nil => rfl
  | cons e t ih =>
    obtain ⟨k, x⟩ := e
    simp only [List.map_cons, Tab.get?]
    split
    next h => subst h; rfl
    next => exact ih

theorem NatSet.mem_add {l : NatSet} {n m : Nat} : m ∈ l.add n ↔ m = n ∨ m ∈ l := by
  induction l with
  | nil => simp [NatSet.add]
  | cons k t ih =>
    simp only [NatSet.add]
    split
    · simp
    · split
      next h => subst h; simp
      next => simp only [List.mem_cons, ih]; tauto

theorem NatSet.mem_foldl_add {us : List Nat} {l : NatSet} {m : Nat} : m ∈ us.foldl NatSet.add l ↔ m ∈ us ∨ m ∈ l := by
  induction us generalizing l with
  | nil => simp
  | cons u t ih => simp only [List.foldl_cons, ih, NatSet.mem_add, List.mem_cons]; tauto

/-- A set lists each of its numbers once where it did before: an entry is added at its place. -/
theorem NatSet.pairwise_add {l : NatSet} (h : l.Pairwise (· < ·)) (n : Nat) : (l.add n).Pairwise (· < ·) := by
  induction l with
  | nil => exact List.pairwise_singleton ..
  | cons k t ih =>
    obtain ⟨hk, ht⟩ := List.pairwise_cons.1 h
    simp only [NatSet.add]
    split
    next hlt =>
      exact List.pairwise_cons.2 ⟨fun m hm => (List.mem_cons.1 hm).elim (fun e => e ▸ hlt) fun hm => hlt.trans (hk m hm), h⟩
    next hlt =>
      split
      next => exact h
      next hne =>
        exact List.pairwise_cons.2 ⟨fun m hm => (NatSet.mem_add.1 hm).elim (fun e => by omega) (hk m), ih ht⟩

theorem Machine.mem_natsFrom {a n m : Nat} : m ∈ Machine.natsFrom a n ↔ a ≤ m ∧ m < a + n := by
  induction n generalizing a with
  | zero => simp [Machine.natsFrom]
  | succ n ih => simp only [Machine.natsFrom, List.mem_cons, ih]; omega

/-- What every step of a fold keeps, the fold keeps. -/
theorem foldl_keeps {α σ : Type} (P : σ → Prop) (f : σ → α → σ) (h : ∀ s x, P s → P (f s x)) (l : List α) {s : σ} (hs : P s) :
    P (l.foldl f s) := by
  induction l generalizing s with
  | nil => exact hs
  | cons x t ih => exact ih (h s x hs)

/-- What each step of a fold makes true of its own element, and every other step keeps, the fold makes true of all. -/
theorem foldl_reaches {α σ : Type} (P : α → σ → Prop) (f : σ → α → σ) (make : ∀ s x, P x (f s x))
    (keep : ∀ s x y, P y s → P y (f s x)) {l : List α} {x : α} (hx : x ∈ l) (s : σ) : P x (l.foldl f s) := by
  induction l generalizing s with
  | nil => cases hx
  | cons y t ih =>
    rcases List.mem_cons.1 hx with rfl | hx
    · exact foldl_keeps (P x) f (fun s y => keep s y x) t (make s x)
    · exact ih hx _

/-- What no step of a fold changes, the fold leaves as it was. -/
theorem foldl_field {α σ β : Type} (p : σ → β) (f : σ → α → σ) (h : ∀ s x, p (f s x) = p s) (l : List α) (s : σ) :
    p (l.foldl f s) = p s :=
  foldl_keeps (fun t => p t = p s) f (fun t x ht => (h t x).trans ht) l rfl

/-- An event's outcome, and what it says of the next state. -/
theorem Answers.of_exec {i : Instr} {s t : Machine.State} {P : Machine.State → Prop} (h : Machine.exec i s = .next t) (hp : P t) :
    Answers i s P := ⟨t, h, hp⟩

end Sys2Proof
end

section
/-!
Operations over memory, engines, handles and slots that leave the instances as they were, and that no event has to wait for.
-/

namespace Sys2Proof.Machine

open Sys2Proof

/-- The instances are as they were, and nothing has come to wait for a frame or a die. -/
def State.undisturbed (s t : State) : Prop := t.insts = s.insts ∧ t.stalled = s.stalled

theorem State.undisturbed.refl (s : State) : s.undisturbed s := ⟨rfl, rfl⟩

theorem State.undisturbed.trans {s t u : State} (h : s.undisturbed t) (k : t.undisturbed u) : s.undisturbed u :=
  ⟨k.1.trans h.1, k.2.trans h.2⟩

/-- A further change of other fields. -/
theorem State.undisturbed.then {s t u : State} (h : s.undisturbed t) (hi : u.insts = t.insts) (hs : u.stalled = t.stalled) :
    s.undisturbed u := h.trans ⟨hi, hs⟩

/-- A change of other fields first. -/
theorem State.undisturbed.after {s t u : State} (h : t.undisturbed u) (hi : t.insts = s.insts) (hs : t.stalled = s.stalled) :
    s.undisturbed u := State.undisturbed.trans ⟨hi, hs⟩ h

theorem State.undisturbed.foldl {α : Type} (f : State → α → State) (h : ∀ (s : State) (x : α), s.undisturbed (f s x)) (l : List α) (s : State) :
    s.undisturbed (l.foldl f s) :=
  foldl_keeps s.undisturbed f (fun t x ht => ht.trans (h t x)) l (.refl s)

theorem State.setFn_undisturbed (s : State) (n : Nat) (f : Function) : s.undisturbed (s.setFn n f) := ⟨rfl, rfl⟩

theorem State.modTele_undisturbed (s : State) (k : Nat) (f : Telemetry → Telemetry) : s.undisturbed (s.modTele k f) := ⟨rfl, rfl⟩

theorem State.dropLeaves_undisturbed (s : State) (p : TlbEntry → Bool) : s.undisturbed (s.dropLeaves p) := ⟨rfl, rfl⟩

/-! ### Caches, order and poison -/

theorem State.storesMoved.undisturbed {s t : State} (h : s.storesMoved t) : s.undisturbed t := by
  obtain ⟨⟨_, _, _, rfl⟩, -⟩ := h
  exact .refl s

theorem State.orderMoved.undisturbed {s t : State} (h : s.orderMoved t) : s.undisturbed t := by
  obtain ⟨_, rfl⟩ := h
  exact .refl s

theorem State.cachesMoved.undisturbed {s t : State} (h : s.cachesMoved t) : s.undisturbed t :=
  ⟨(congrArg State.insts h.1 :), (congrArg State.stalled h.1 :)⟩

theorem State.someEvicted_stores (s : State) : ∃ d x p, s.someEvicted = { s with dir := d, sectors := x, poison := p, free := s.free + 1 } := by
  obtain ⟨⟨d, x, p, h⟩, -⟩ := State.storesMoved.foldl (fun (s : State) (e : Nat × DirLine) => s.evictLine e.1)
    (fun s e => s.evictLine_stores e.1) (s.dir.filter fun e => Config.freeBool s.free (2 * e.1)) s
  unfold State.someEvicted
  rw [h]
  exact ⟨_, _, _, rfl⟩

theorem State.someEvicted_undisturbed (s : State) : s.undisturbed s.someEvicted := by
  obtain ⟨_, _, _, h⟩ := s.someEvicted_stores
  rw [h]
  exact .refl s

theorem State.poisonUnit_undisturbed (s : State) (dom : Nat) : s.undisturbed (s.poisonUnit dom) := by
  unfold State.poisonUnit
  split <;> exact ⟨rfl, rfl⟩

theorem State.poisonLoc_undisturbed (s : State) (l : Loc) : s.undisturbed (s.poisonLoc l) := by
  cases l with
  | frame dom key => exact s.poisonUnit_undisturbed dom
  | scratch | die | slice => exact ⟨rfl, rfl⟩

theorem State.chargeSlot_undisturbed (s : State) (k : Option Nat) : s.undisturbed (s.chargeSlot k) := by
  cases k <;> exact ⟨rfl, rfl⟩

theorem State.poisonLine_undisturbed (s : State) (l : Nat) : s.undisturbed (s.poisonLine l) :=
  State.chargeSlot_undisturbed _ _

theorem State.loseDie_undisturbed (s : State) (d : Nat) : s.undisturbed (s.loseDie d) :=
  s.someEvicted_undisturbed.trans (State.undisturbed.foldl State.poisonLine State.poisonLine_undisturbed _ _)

/-! ### Writes -/

theorem State.writePart_undisturbed (s : State) (k dom : Nat) (bs : List Byte) : s.undisturbed (s.writePart k dom bs) := by
  unfold State.writePart
  split <;> exact ⟨rfl, rfl⟩

theorem State.writeFrame_undisturbed (k n : Nat) (s : State) (dom : Nat) (bs : List Byte) :
    s.undisturbed (s.writeFrame k n dom bs) := by
  induction n generalizing s dom bs with
  | zero => exact .refl s
  | succ n ih =>
    unfold State.writeFrame
    dsimp only
    split
    · exact .refl s
    · refine State.undisturbed.trans ?_ (ih _ _ _)
      split
      · exact ⟨rfl, rfl⟩
      · exact s.writePart_undisturbed ..

theorem State.writeRange_undisturbed (s : State) (k dom : Nat) (bs : List Byte) : s.undisturbed (s.writeRange k dom bs) := by
  unfold State.writeRange
  split
  · exact State.writeFrame_undisturbed ..
  · exact ⟨rfl, rfl⟩

theorem State.homeWrite_undisturbed (s : State) (k dom : Nat) (bs : List Byte) : s.undisturbed (s.homeWrite k dom bs) := by
  refine (s.setMarks_moves (.frame dom k) bs.length [] .past).undisturbed.trans ?_
  unfold State.homeWrite
  dsimp only
  split
  · exact ((State.evictRange_stores ..).undisturbed.trans (State.writeRange_undisturbed ..)).trans
      (State.touchRange_stores ..).undisturbed
  · exact State.writeRange_undisturbed ..

theorem State.agentWrite_undisturbed (s : State) (l : Loc) (bs : List Byte) : s.undisturbed (s.agentWrite l bs) := by
  cases l with
  | frame dom key => exact s.homeWrite_undisturbed key dom bs
  | scratch | die | slice => exact (State.setMarks_moves ..).undisturbed.trans ⟨rfl, rfl⟩

theorem State.engineWrite_undisturbed (s : State) (cores : List Nat) (l : Loc) (bs : List Byte) :
    s.undisturbed (s.engineWrite cores l bs) := by
  cases l with
  | frame dom key => exact (s.agentWrite_undisturbed _ bs).trans (.foldl (fun s c => s.dropL1Range c dom bs.length) (fun _ _ => ⟨rfl, rfl⟩) _ _)
  | scratch | die | slice => exact s.agentWrite_undisturbed _ bs

theorem State.deposit_undisturbed (s : State) (cores : List Nat) (f slot a : Nat) (d : Dest) (bs : List (Byte × Bool)) :
    s.undisturbed (s.deposit cores f slot a d bs) := by
  cases d with
  | none => exact ⟨rfl, rfl⟩
  | some l => exact (s.engineWrite_undisturbed ..).trans (.foldl _ (fun s b => s.poisonLoc_undisturbed _) _ _)

/-! ### Ends of engine operations -/

theorem State.scramble_undisturbed (e : EngOp) (c : CopyOp) (n : Nat) (s : State) (p : Nat) :
    s.undisturbed (s.scramble e c n p) := by
  induction n generalizing s p with
  | zero => exact .refl s
  | succ n ih =>
    unfold State.scramble
    split
    · exact .refl s
    · dsimp only
      refine State.undisturbed.trans ?_ (ih _ _)
      split
      · exact State.undisturbed.trans (t := s.bump) ⟨rfl, rfl⟩ (.foldl _ (fun s d => s.deposit_undisturbed ..) _ _)
      · exact .refl s

theorem State.dropEng_undisturbed (s : State) (id : Nat) : s.undisturbed (s.dropEng id) := by
  unfold State.dropEng
  split <;> exact ⟨rfl, rfl⟩

theorem State.slotRetire_undisturbed (s : State) (g : Nat) (w : SlotWork) : s.undisturbed (s.slotRetire g w) := by
  unfold State.slotRetire
  dsimp only
  split
  · split <;> split <;> exact ⟨rfl, rfl⟩
  · exact .refl s

theorem State.slotFail_undisturbed (s : State) (g : Nat) (w : SlotWork) (code : Nat) : s.undisturbed (s.slotFail g w code) := by
  unfold State.slotFail
  dsimp only
  split
  · exact .refl s
  · split <;> exact ⟨rfl, rfl⟩

/-- A flip that a copy was to take is spent. -/
theorem State.flipSpent_undisturbed (s : State) (k : Option Nat) : s.undisturbed (k.elim s fun k => s.spendFlip k false) := by
  cases k <;> exact ⟨rfl, rfl⟩

theorem State.handleOver_undisturbed (s : State) (t h : Nat) (x y z : Handle) :
    s.undisturbed (if x.state = .draining then s.freeHandle t h y else s.fillHandle t h z) := by
  split <;> exact ⟨rfl, rfl⟩

theorem State.copyEnd_undisturbed (s : State) (id : Nat) (e : EngOp) (c : CopyOp) (upd : Handle → Handle) :
    s.undisturbed (s.copyEnd id e c upd) := by
  unfold State.copyEnd
  dsimp only
  refine (s.flipSpent_undisturbed c.flip).trans ?_
  generalize c.flip.elim s _ = t
  have hs : t.undisturbed (if decide (c.len ≤ c.done) then t else t.bump.scramble e c (c.len + 1) c.done) := by
    split
    · exact .refl t
    · exact State.undisturbed.trans (t := t.bump) ⟨rfl, rfl⟩ (State.scramble_undisturbed ..)
  refine hs.trans ?_
  generalize (if decide (c.len ≤ c.done) then t else _) = u
  split
  · split
    · exact ⟨rfl, rfl⟩
    · split
      · exact State.undisturbed.trans ⟨rfl, rfl⟩ (State.slotRetire_undisturbed ..)
      · exact State.undisturbed.trans ⟨rfl, rfl⟩ (State.slotFail_undisturbed ..)
  · exact (u.dropEng_undisturbed id).trans (State.undisturbed.trans (t := (u.dropEng id).bump) ⟨rfl, rfl⟩ (State.handleOver_undisturbed ..))

theorem State.nmvLose_undisturbed (s : State) (e : EngOp) (o : NmvOp) : s.undisturbed (s.nmvLose e o) :=
  s.bump.deposit_undisturbed ..

theorem State.nmvGone_undisturbed (s : State) (id : Nat) (e : EngOp) (o : NmvOp) : s.undisturbed (s.nmvGone id e o) := by
  have hl : s.undisturbed (if s.tagged e.team o.gen then s.nmvLose e o else s) := by
    split
    · exact s.nmvLose_undisturbed e o
    · exact .refl s
  exact hl.trans ((State.dropEng_undisturbed _ id).trans (State.handleOver_undisturbed ..))

theorem State.goneEngs_undisturbed (s : State) (p : State → Nat → EngOp → Bool) : s.undisturbed (s.goneEngs p) := by
  refine .foldl _ (fun s e => ?_) _ s
  split
  · exact s.copyEnd_undisturbed ..
  · exact s.nmvGone_undisturbed ..
  · exact .refl s

theorem State.cutShort_undisturbed (s : State) (e : EngOp) : s.undisturbed (s.cutShort e) := by
  unfold State.cutShort
  split
  · exact (s.flipSpent_undisturbed _).trans (State.undisturbed.trans ⟨rfl, rfl⟩ (State.scramble_undisturbed ..))
  · split
    · exact s.nmvLose_undisturbed ..
    · exact .refl s
  · exact .refl s

theorem State.resetEngs_undisturbed (s : State) (d : Nat) : s.undisturbed (s.resetEngs d) := by
  unfold State.resetEngs
  extract_lets t mine u
  have hu : t.undisturbed u := .foldl _ (fun s (e : Nat × EngOp) => s.cutShort_undisturbed e.2) _ t
  exact ((s.goneEngs_undisturbed _).trans hu).trans (.foldl _ State.dropEng_undisturbed _ _)

/-! ### Teams ended by force -/

theorem State.report_undisturbed (s : State) (m : HostMsg) : s.undisturbed (s.report m) := ⟨rfl, rfl⟩

theorem State.reportFailed_undisturbed (s : State) (g : Nat) : s.undisturbed (s.reportFailed g) := by
  unfold State.reportFailed
  dsimp only
  refine State.undisturbed.trans ?_ (.foldl _ (fun s d => ?_) _ _)
  · split
    · exact ⟨rfl, rfl⟩
    · exact ⟨rfl, rfl⟩
  · cases d
    · exact s.report_undisturbed _
    · exact .refl s

theorem State.setTeam_undisturbed (s : State) (t : Nat) (x : Team) : s.undisturbed (s.setTeam t x) := ⟨rfl, rfl⟩

theorem State.endTeam_undisturbed (s : State) (t : Nat) : s.undisturbed (s.endTeam t) := by
  unfold State.endTeam
  extract_lets gids _ u v x w
  have hv : u.undisturbed v := .foldl _ State.reportFailed_undisturbed _ u
  have hw : v.undisturbed w := (v.learn_moves ..).undisturbed
  exact ((hv.after rfl rfl).trans hw).trans (w.setTeam_undisturbed ..)

theorem State.endEngs_undisturbed (s : State) (p : EngOp → Bool) : s.undisturbed (s.endEngs p) := ⟨rfl, rfl⟩

theorem State.killTeam_undisturbed (s : State) (t : Nat) : s.undisturbed (s.killTeam t) := by
  unfold State.killTeam
  extract_lets v u
  have hv : v.undisturbed u := ⟨rfl, rfl⟩
  exact (((s.endEngs_undisturbed _).trans hv).trans (u.endTeam_undisturbed t)).trans (State.setTeam_undisturbed ..)

/-! ### Services of the command processor's own accesses -/

theorem State.served_undisturbed (s : State) (gone : Nat × Service → Bool) : s.undisturbed (s.served gone) := by
  obtain ⟨_, h⟩ := s.served_form gone
  rw [h]
  exact .refl s

theorem State.placeFrame_undisturbed (s : State) (frame fn entry : Nat) (p : Place) :
    s.undisturbed (s.placeFrame frame fn entry p) := by
  unfold State.placeFrame
  split <;> exact ⟨rfl, rfl⟩

theorem State.copyFrame_undisturbed (s : State) (k j src dst : Nat) : s.undisturbed (s.copyFrame k j src dst) :=
  ((s.homeRead_caches ..).undisturbed.trans (State.homeWrite_undisturbed ..)).trans
    (.foldl _ (fun s _ => s.poisonUnit_undisturbed _) _ _)

theorem State.putEntry_undisturbed (s : State) (entry e : Nat) : s.undisturbed (s.putEntry entry e) :=
  State.undisturbed.trans ((s.evictLine_stores _).undisturbed.trans ⟨rfl, rfl⟩) (State.touchUnit_stores ..).undisturbed

theorem State.takeFrame_undisturbed {s t : State} {f : Nat} (h : s.takeFrame = some (f, t)) : s.undisturbed t := by
  unfold State.takeFrame at h
  obtain ⟨_, -, h⟩ := Option.bind_eq_some_iff.mp h
  obtain ⟨_, -, h⟩ := Option.map_eq_some_iff.mp h
  cases h
  exact ⟨rfl, rfl⟩

theorem State.cowDone_undisturbed (s : State) (slot fn entry frame key : Nat) :
    s.undisturbed (s.cowDone slot fn entry frame key) := by
  have hr : s.undisturbed (s.restSource fn (s.entryAt entry) frame) := by
    unfold State.restSource
    split
    · exact s.placeFrame_undisturbed ..
    · exact .refl s
  unfold State.cowDone
  extract_lets _ u
  split
  · exact hr
  · split
    · exact hr
    next f t ht =>
      have hb (k j : Nat) : t.undisturbed ((t.copyFrame key j frame (t.dom (65536 * f))).putEntry entry k) :=
        (t.copyFrame_undisturbed ..).trans (State.putEntry_undisturbed ..)
      exact (hr.trans (State.takeFrame_undisturbed ht)).trans
        (((hb _ _).trans (State.dropLeaves_undisturbed ..)).trans ((State.setFn_undisturbed ..).trans (State.modTele_undisturbed ..)))

theorem State.serveNow_undisturbed (s : State) (fn slot va : Nat) (w : Walk) : s.undisturbed (s.serveNow fn slot va w) := by
  cases w with
  | cow entry frame key => exact (s.served_undisturbed _).trans (State.cowDone_undisturbed ..)
  | place frame e => exact s.placeFrame_undisturbed ..
  | ok | fail | barred | poison | stall => exact .refl s

/-- An access of the command processor that comes to a place has not had to wait. -/
theorem State.cpPlace_undisturbed (fn slot va : Nat) (kind : AccKind) (n : Nat) {s t : State} {x : Nat × Nat}
    (h : State.cpPlace fn slot va kind n s = (t, some x)) : s.undisturbed t := by
  induction n generalizing s with
  | zero => cases h
  | succ n ih =>
    have hw : s.undisturbed (s.walked 1152 fn slot va) := (s.walked_caches ..).undisturbed
    unfold State.cpPlace at h
    dsimp only at h
    split at h
    · cases h
      exact hw
    · cases h
    · cases h
    · cases h
    · cases h
    · split at h
      · cases h
      · exact hw.trans ((State.serveNow_undisturbed ..).trans (ih h))
    · split at h
      · cases h
      · exact hw.trans ((State.serveNow_undisturbed ..).trans (ih h))

theorem State.cpWrite_undisturbed {s t : State} {fn slot va : Nat} {bs : List Byte}
    (h : s.cpWrite fn slot va bs = (t, true)) : s.undisturbed t := by
  unfold State.cpWrite at h
  dsimp only at h
  split at h
  · cases h
  next dom key hp =>
    cases h
    exact ((State.cpPlace_undisturbed fn slot va .write 8 (Prod.ext rfl hp)).trans (State.homeWrite_undisturbed ..)).trans
      (State.setMarks_moves ..).undisturbed

end Sys2Proof.Machine
end

section
/-!
Boot, recovery and the resets of dies (spec/01 R22 to R28): what each event leaves, and the statement O47.
-/

namespace Sys2Proof.Machine

open Sys2Proof

/-! ### Instances killed -/

/-- All the instances of this number are killed. -/
def State.killedIn (s : State) (i : Nat) : Prop := ∀ e ∈ s.insts, e.1 = i → e.2.killed = true

theorem State.killInstance_insts (s : State) (i : Nat) :
    (s.killInstance i).insts =
      s.insts.map fun e => if (i :: (s.inst i).setMembers).contains e.1 then (e.1, { e.2 with killed := true }) else e := by
  unfold State.killInstance
  extract_lets all u
  have hu : s.undisturbed u := .foldl _ (fun s (e : Nat × Team) => s.killTeam_undisturbed e.1) _ s
  show List.map _ u.insts = _
  rw [hu.1]

theorem State.killInstance_killed (s : State) (i : Nat) : (s.killInstance i).killedIn i := by
  intro e he hi
  rw [s.killInstance_insts] at he
  obtain ⟨x, -, rfl⟩ := List.mem_map.1 he
  revert hi
  split
  · exact fun _ => rfl
  next hn => exact fun hi => absurd (by simp [hi]) hn

theorem State.killedIn.killInstance {s : State} {i : Nat} (h : s.killedIn i) (j : Nat) : (s.killInstance j).killedIn i := by
  intro e he hi
  rw [s.killInstance_insts] at he
  obtain ⟨x, hx, rfl⟩ := List.mem_map.1 he
  revert hi
  split
  · exact fun _ => rfl
  · exact h x hx

theorem State.killAll_killed {ids : List Nat} {i : Nat} (h : i ∈ ids) (s : State) : (ids.foldl State.killInstance s).killedIn i :=
  foldl_reaches (fun i s => State.killedIn s i) State.killInstance State.killInstance_killed (fun _ j _ h => h.killInstance j) h s

/-! ### Bringing dies up -/

/-- A die is in service, and its scratchpad is zero. -/
def Die.fresh (x : Die) : Prop := x.inrst = false ∧ x.scratch = [] ∧ x.scratchPoison = []

theorem State.setCores_form (f : Nat → Nat × Core) (l : List Nat) (s : State) :
    ∃ cs, l.foldl (fun (s : State) p => s.setCore (f p).1 (f p).2) s = { s with cores := cs } :=
  foldl_keeps (fun t => ∃ cs, t = { s with cores := cs }) _ (fun _ _ ⟨_, h⟩ => ⟨_, by rw [h]; rfl⟩) l ⟨_, rfl⟩

/-- A die brought up is fresh; its cores change, and a die short of cores is reported (spec/01 R25). -/
theorem State.bringDie_form (s : State) (f : BootFindings) (d : Nat) : ∃ cs x u, x.fresh ∧ u = ({ s with cores := cs } : State).setDie d x ∧
    s.bringDie f d = if (passingCores f d (fusedMap d)).length < 32 then u.report (.report 6 d []) else u := by
  obtain ⟨cs, h⟩ := State.setCores_form (fun p => (36 * d + p, freshCore
    ((((passingCores f d (fusedMap d)).find? fun e => e.1 == p).map (·.2)).getD 0))) (List.range 36) s
  refine ⟨cs, { fused := fusedMap d, calf := 36 - popCount (fusedMap d).toNat 36 - (passingCores f d (fusedMap d)).length,
                en := (passingCores f d (fusedMap d)).foldl (fun m e => m ||| BitVec.ofNat 36 (2 ^ e.1)) 0,
                clock := 1800 - 50 * min 12 s.powerSteps }, _, ⟨rfl, rfl, rfl⟩, rfl, ?_⟩
  unfold State.bringDie
  dsimp only at h ⊢
  rw [h]

theorem State.bringDie_mem (s : State) (f : BootFindings) (d : Nat) : (s.bringDie f d).mem = s.mem := by
  obtain ⟨cs, x, u, -, rfl, h⟩ := s.bringDie_form f d
  rw [h]
  split <;> rfl

theorem State.bringDie_fresh (s : State) (f : BootFindings) (d : Nat) : ((s.bringDie f d).dieAt d).fresh := by
  obtain ⟨cs, x, u, hx, rfl, h⟩ := s.bringDie_form f d
  have hd : (s.bringDie f d).dieAt d = x := by
    rw [h]
    split <;> exact State.dieAt_setDie_self ..
  rwa [hd]

theorem State.bringDie_other (s : State) (f : BootFindings) {d k : Nat} (hk : k ≠ d) :
    (s.bringDie f d).dieAt k = s.dieAt k := by
  obtain ⟨cs, x, u, -, rfl, h⟩ := s.bringDie_form f d
  rw [h]
  split <;> exact State.dieAt_setDie_ne _ _ hk

theorem State.bringDie_short (s : State) (f : BootFindings) (d : Nat) (h : (passingCores f d (fusedMap d)).length < 32) :
    (s.bringDie f d).hostLog = s.hostLog ++ [.report 6 d []] := by
  obtain ⟨cs, x, u, -, rfl, hb⟩ := s.bringDie_form f d
  rw [hb, if_pos h]
  rfl

theorem State.trainLinks_form (s : State) (f : BootFindings) : ∃ ls, s.trainLinks f = { s with links := ls } :=
  foldl_keeps (fun t => ∃ ls, t = { s with links := ls }) _ (fun _ _ ⟨_, h⟩ => ⟨_, by rw [h]; rfl⟩) f.links ⟨_, rfl⟩

/-- A device brought up: its dies are fresh, and no byte of memory has changed. -/
theorem State.bringUp_up (s : State) (f : BootFindings) (n : Nat) :
    (s.bringUp f n).mem = s.mem ∧ ∀ k < 32, ((s.bringUp f n).dieAt k).fresh := by
  unfold State.bringUp
  obtain ⟨ls, h⟩ := State.trainLinks_form ((List.range 32).foldl (fun s d => s.bringDie f d) s) f
  dsimp only
  rw [h]
  refine ⟨foldl_field State.mem _ (fun s d => s.bringDie_mem f d) _ s, fun k hk => ?_⟩
  refine foldl_reaches (fun k t => (State.dieAt t k).fresh) (fun s d => s.bringDie f d) (fun s d => s.bringDie_fresh f d)
    (fun t d k h => ?_) (List.mem_range.2 hk) s
  by_cases hkd : k = d
  · subst hkd
    exact t.bringDie_fresh f k
  · rwa [t.bringDie_other f hkd]

/-- What BOOT leaves where the device comes up. -/
theorem execBoot_up (s : State) (f : BootFindings)
    (h : s.phase = .resuming ∨ (s.phase = .booting ∧ ((if s.flashed = true then 0 else f.imageA) = 0 ∨ f.imageB = 0))) :
    ∃ g n, execBoot f s = .next (s.bringUp g n) := by
  rcases h with h | ⟨h, ha⟩
  · exact ⟨s.rcv.found.getD f, s.measure, congrArg _ (if_pos h)⟩
  · refine ⟨f, Config.firmwareDigest, ?_⟩
    unfold execBoot
    simp only [h, ne_eq, not_true_eq_false, reduceCtorEq, if_false, if_pos ha]

/-! ### The reset of a compute die -/

/-- The instances with a team on a die. -/
def State.onDie (s : State) (d : Nat) : List Nat :=
  (s.teams.filter fun e => dieOf e.2.core == d && s.onCore e.1).map fun e => e.2.inst

/-- A die that enters reset: the instances with a team on it are killed, its own state is gone, its link is down and it is reported. -/
theorem State.resetDie_form (s : State) (d : Nat) (h : (s.dieAt d).inrst = false) :
    ∃ u x, ((s.onDie d).foldl State.killInstance s).undisturbed u ∧ x.inrst = true ∧ x.scratch = [] ∧ x.counters = [] ∧
      s.resetDie d = ((u.setDie d x).setLink d { u.link d with up := false }).report (.report 1 d []) := by
  unfold State.resetDie
  rw [if_neg (by simp [h])]
  extract_lets here hit t v u x w
  have hv : t.undisturbed v := ⟨rfl, rfl⟩
  have hu : t.undisturbed u := hv.trans ((v.loseDie_undisturbed d).trans (State.resetEngs_undisturbed ..))
  clear_value u
  exact ⟨u, { x with inrst := true, scratch := [], scratchPoison := [], counters := [], pacing := false, thermal := false,
                     thermalSteps := 0 }, hu, rfl, rfl, rfl, rfl⟩

/-! ### The reset of a memory die -/

theorem State.loseWrites_form (l : List Nat) (s : State) :
    ∃ m p, l.foldl State.loseWrites s = { s with mem := m, poison := p } :=
  foldl_keeps (fun t => ∃ m p, t = { s with mem := m, poison := p }) _ (fun _ _ ⟨_, _, h⟩ => ⟨_, _, by rw [h]; rfl⟩) l ⟨_, _, rfl⟩

/-- What the loss of a store cache can change. -/
theorem State.loseStore_form (s : State) (d : Nat) :
    ∃ m dir x p n, s.loseStore d = { s with mem := m, dir := dir, sectors := x, poison := p, free := n } := by
  unfold State.loseStore
  obtain ⟨dir, x, p, h⟩ := s.someEvicted_stores
  extract_lets t lost u
  obtain ⟨m, q, hu⟩ := State.loseWrites_form (lost.flatMap (·.dirty)) t
  have hu : u = { t with mem := m, poison := q } := hu
  rw [hu, show t = _ from h]
  exact ⟨_, _, _, _, _, rfl⟩

theorem State.goneEngs_idle (s : State) (p : State → Nat → EngOp → Bool) (h : s.engs = []) : s.goneEngs p = s := by
  unfold State.goneEngs
  rw [h]
  rfl

theorem State.chargeSlot_form (s : State) (k : Option Nat) : ∃ ks, s.chargeSlot k = { s with keys := ks } := by
  cases k
  · exact ⟨s.keys, rfl⟩
  · exact ⟨_, rfl⟩

theorem State.chargeSlots_form (l : List Nat) (s : State) :
    ∃ ks, l.foldl (fun s u => s.chargeSlot (s.unitSlot u)) s = { s with keys := ks } := by
  refine foldl_keeps (fun t => ∃ ks, t = { s with keys := ks }) _ (fun t u ⟨ks, h⟩ => ?_) l ⟨s.keys, rfl⟩
  obtain ⟨js, hj⟩ := t.chargeSlot_form (t.unitSlot u)
  exact ⟨js, by rw [hj, h]⟩

/-- A unit lies in a frame that rests at a place. -/
def State.inPlace (s : State) (p : Place) (u : Nat) : Prop := ∃ fr, (fr, p) ∈ s.placed ∧ s.dom (65536 * fr) / 65536 = u / 2048

/-- Frames stay where they are when a store cache is lost, and units keep their tags. -/
theorem State.loseStore_keeps (s : State) (d : Nat) :
    (s.loseStore d).engs = s.engs ∧ (s.loseStore d).placed = s.placed ∧ (s.loseStore d).units = s.units ∧
      (s.loseStore d).dom = s.dom ∧ (s.loseStore d).inPlace = s.inPlace ∧ (s.loseStore d).unitSlot = s.unitSlot := by
  obtain ⟨_, _, _, _, _, h⟩ := s.loseStore_form d
  rw [h]
  exact ⟨rfl, rfl, rfl, rfl, rfl, rfl⟩

/-- The frames that rest at a place, in the domain's numbers. -/
def State.framesAt (s : State) (p : Place) : List Nat := (s.placed.filter fun e => decide (e.2 = p)).map fun e => s.dom (65536 * e.1) / 65536

theorem State.mem_framesAt (s : State) (p : Place) (u : Nat) : u / 2048 ∈ s.framesAt p ↔ s.inPlace p u := by
  simp only [State.framesAt, State.inPlace, List.mem_map, List.mem_filter, decide_eq_true_eq]
  constructor
  · rintro ⟨⟨fr, q⟩, ⟨hm, rfl⟩, hu⟩
    exact ⟨fr, hm, hu⟩
  · rintro ⟨fr, hm, hu⟩
    exact ⟨(fr, p), ⟨hm, rfl⟩, hu⟩

/-- What the loss of a place leaves of poison where no engine operation is in flight: the frames there are lost, and no unit of them has been
written since. -/
theorem State.losePlace_form (s : State) (p : Place) (h : s.engs = []) : (s.losePlace p).1.pkg = s.pkg ∧
    (s.losePlace p).1.lost = (s.framesAt p).foldl NatSet.add s.lost ∧
    (s.losePlace p).1.healed = s.healed.filter (fun u => !(s.framesAt p).contains (u / 2048)) := by
  unfold State.losePlace
  rw [s.goneEngs_idle _ h]
  extract_lets t fs mine us v w
  obtain ⟨ks, hk⟩ := State.chargeSlots_form us w
  dsimp only
  rw [hk]
  exact ⟨rfl, rfl, rfl⟩

/-- Every byte of a frame that rested at a lost place reads as poison (spec/01 R28). -/
theorem State.losePlace_poisoned (s : State) (p : Place) (h : s.engs = []) {fr off : Nat} (hm : (fr, p) ∈ s.placed)
    (hf : fr < 1073741824) (ho : off < 65536) : (s.losePlace p).1.poisoned (s.dom (65536 * fr + off)) = true := by
  obtain ⟨hp, hl, hh⟩ := s.losePlace_form p h
  have hown : (s.losePlace p).1.isOwn (s.dom (65536 * fr + off)) = true := by
    simp only [State.isOwn, State.dom, hp, beq_iff_eq]
    omega
  have hu : s.dom (65536 * fr + off) / 32 / 2048 ∈ s.framesAt p :=
    (s.mem_framesAt p _).2 ⟨fr, hm, by simp only [State.dom]; omega⟩
  have hlost : s.dom (65536 * fr + off) / 65536 ∈ (s.losePlace p).1.lost := by
    rw [hl, NatSet.mem_foldl_add]
    rw [Nat.div_div_eq_div_mul] at hu
    exact .inl hu
  have hheal : s.dom (65536 * fr + off) / 32 ∉ (s.losePlace p).1.healed := by
    rw [hh, List.mem_filter]
    simp [hu]
  simp only [State.poisoned, hown, if_true, List.contains_iff_mem.2 hlost, Bool.true_and, Bool.or_eq_true, Bool.not_eq_true']
  exact .inr (by simpa using hheal)

/-- The slots that the loss of a place charges where no engine operation is in flight. -/
theorem State.mem_losePlace_slots (s : State) (p : Place) (h : s.engs = []) (g : Nat) :
    g ∈ (s.losePlace p).2 ↔ ∃ x ∈ s.units, s.inPlace p x.1 ∧ s.unitSlot x.1 = some g := by
  have hs : (s.losePlace p).2 =
      (((s.units.filter fun e => (s.framesAt p).contains (e.1 / 2048)).map (·.1)).filterMap s.unitSlot).foldl NatSet.add [] := by
    unfold State.losePlace
    rw [s.goneEngs_idle _ h]
    rfl
  simp only [hs, NatSet.mem_foldl_add, List.mem_filterMap, List.mem_map, List.mem_filter, List.contains_iff_mem, s.mem_framesAt,
    List.not_mem_nil, or_false]
  constructor
  · rintro ⟨u, ⟨x, ⟨hx, hp⟩, rfl⟩, hu⟩
    exact ⟨x, hx, hp, hu⟩
  · rintro ⟨x, hx, hp, hu⟩
    exact ⟨x.1, ⟨x, ⟨hx, hp⟩, rfl⟩, hu⟩

/-! ### The statement -/

theorem bootEvents (s : State) (f : BootFindings) :
    (s.phase = .off → Answers (.boot f) s fun t => t = { s with phase := .booting }) ∧
    (s.phase = .resuming ∨ (s.phase = .booting ∧ ((if s.flashed = true then 0 else f.imageA) = 0 ∨ f.imageB = 0)) →
      Answers (.boot f) s fun t => t.phase = .ready ∧ t.time = 0 ∧ t.master = true ∧ t.sync = true ∧ t.mem = s.mem ∧
        ∀ k < 32, (t.dieAt k).fresh) ∧
    (s.phase = .booting → (if s.flashed = true then 0 else f.imageA) ≠ 0 → f.imageB ≠ 0 → Answers (.boot f) s fun t =>
      t = { s with phase := .recovery, rcv := { erra := if s.flashed = true then 0 else f.imageA, errb := f.imageB } }) := by
  refine ⟨fun h => ?_, fun h => ?_, fun h ha hb => ?_⟩
  · exact ⟨_, rfl, by simp [h]⟩
  · obtain ⟨g, n, he⟩ := execBoot_up s f h
    obtain ⟨hm, hd⟩ := s.bringUp_up g n
    exact .of_exec he ⟨rfl, rfl, rfl, rfl, hm, hd⟩
  · exact ⟨_, rfl, by simp [h, ha, hb]⟩

theorem recoveryEvents (s : State) (f : BootFindings) (b : Bool) :
    (s.phase = .recovery → s.rcv.busy = false → 0 < s.rcv.len → s.rcv.len ≤ 16777216 → Answers (.recoveryGo b) s fun t =>
      t = { s with rcv := { s.rcv with store := b, busy := true } }) ∧
    (s.phase = .recovery → s.rcv.busy = true →
      (∀ n, n ≠ 0 → Answers (.recoveryVerifyEnd n b f) s fun t =>
        t = { s with rcv := { s.rcv with busy := false, errh := n } }) ∧
      (s.rcv.store = true → b = false → Answers (.recoveryVerifyEnd 0 b f) s fun t =>
        t = { s with rcv := { s.rcv with busy := false, errh := 6 } }) ∧
      (s.rcv.store = false ∨ b = true → Answers (.recoveryVerifyEnd 0 b f) s fun t => t.phase = .resuming ∧
        t.rcv = { s.rcv with busy := false, errh := 5, found := some f } ∧ t.flashed = (s.flashed || s.rcv.store))) := by
  refine ⟨fun h hb h0 h1 => ⟨_, rfl, ?_⟩, fun h hb => ⟨fun n hn => ⟨_, rfl, ?_⟩, fun hs hf => ⟨_, rfl, ?_⟩, fun hs => ⟨_, rfl, ?_⟩⟩⟩
  · have hl : ¬(s.rcv.len = 0 ∨ 16777216 < s.rcv.len) := by omega
    simp [State.goWritten, h, hb, hl]
  · simp [h, hb, hn]
  · simp [h, hb, hs, hf]
  · have hg : (s.rcv.store && !b) = false := by rcases hs with hs | hs <;> simp [hs]
    simp [h, hb, hg]

theorem configurationEvents (s : State) (fn : Nat) (vfs : Option Nat) :
    (s.phase = .booting ∨ s.phase = .resuming → Answers (.configurationRequest ⟨fn, vfs⟩) s fun t =>
      t = { s with hostLog := s.hostLog ++ [.config true] }) ∧
    (s.phase = .ready → Answers (.configurationRequest ⟨fn, vfs⟩) s fun t =>
      t = { s with hostLog := s.hostLog ++ [if fn = 0 ∨ fn ≤ min 64 s.numVfs then .config false else .unsupported fn],
                   numVfs := if fn = 0 then vfs.getD s.numVfs else s.numVfs }) ∧
    (s.phase = .recovery → Answers (.configurationRequest ⟨fn, vfs⟩) s fun t =>
      t = { s with hostLog := s.hostLog ++ [if fn = 0 then .config false else .unsupported fn] }) := by
  have hp : (s.presented fn = true) = (fn = 0 ∨ fn ≤ min 64 s.numVfs) := by simp [State.presented]
  refine ⟨fun h => ?_, fun h => ?_, fun h => ?_⟩
  · have he : execConfigurationRequest ⟨fn, vfs⟩ s = .next (s.tell (.config true)) := by
      rcases h with h | h <;> simp only [execConfigurationRequest, h]
    exact .of_exec he rfl
  · have he : execConfigurationRequest ⟨fn, vfs⟩ s = .next
        { s.tell (if fn = 0 ∨ fn ≤ min 64 s.numVfs then .config false else .unsupported fn) with
          numVfs := if fn = 0 then vfs.getD s.numVfs else s.numVfs } := by
      simp only [execConfigurationRequest, h, hp]
      split <;> rfl
    exact .of_exec he rfl
  · have he : execConfigurationRequest ⟨fn, vfs⟩ s = .next (s.tell (if fn = 0 then .config false else .unsupported fn)) := by
      simp only [execConfigurationRequest, h]
    exact .of_exec he rfl

theorem computeDieReset_resets (s : State) (d : Fin 32) (hp : s.phase = .ready) (h : (s.dieAt d.val).inrst = false) :
    Answers (.computeDieReset d) s fun t =>
      (t.dieAt d.val).inrst = true ∧ (t.dieAt d.val).scratch = [] ∧ (t.dieAt d.val).counters = [] ∧
      (t.link d.val).up = false ∧ (∃ l, t.hostLog = l ++ [.report 1 d.val []]) ∧ (∃ l, t.msix = l ++ [(0, 0)]) ∧
      ∀ x ∈ s.teams, dieOf x.2.core = d.val → s.onCore x.1 = true → t.killedIn x.2.inst := by
  obtain ⟨u, x, hu, hx, hs, hc, he⟩ := s.resetDie_form d.val h
  have hd : (s.resetDie d.val).dieAt d.val = x := by
    rw [he]
    exact State.dieAt_setDie_self ..
  refine .of_exec (t := s.resetDie d.val) (congrArg _ (if_pos hp)) ?_
  refine ⟨by rw [hd, hx], by rw [hd, hs], by rw [hd, hc], ?_, ⟨u.hostLog, by rw [he]; rfl⟩, ⟨u.msix, by rw [he]; rfl⟩, ?_⟩
  · rw [he]
    exact congrArg Link.up (State.link_setLink_self ..)
  · intro y hy hdie hon e hmem
    have hin : y.2.inst ∈ s.onDie d.val :=
      List.mem_map.2 ⟨y, List.mem_filter.2 ⟨hy, by simp [hdie, hon]⟩, rfl⟩
    rw [he] at hmem
    have hi : e ∈ u.insts := hmem
    rw [hu.1] at hi
    exact State.killAll_killed hin s e hi

theorem memoryDieReset_resets (s : State) (e : Fin 16) (hp : s.phase = .ready) (h : (s.memDies.getD e.val {}).inrst = false) :
    Answers (.memoryDieReset e) s fun t =>
      (t.memDies.getD e.val {}).inrst = true ∧ (t.link (32 + e.val)).up = false ∧
      ∃ l slots, t.hostLog = l ++ [.report 2 e.val slots] ∧
        (s.engs = [] →
          (∀ fr off, (fr, Place.stack e) ∈ s.placed → fr < 1073741824 → off < 65536 →
            t.poisoned (s.dom (65536 * fr + off)) = true) ∧
          ∀ g, g ∈ slots ↔ ∃ x ∈ s.units, s.inPlace (.stack e) x.1 ∧ s.unitSlot x.1 = some g) := by
  obtain ⟨hengs, hplaced, hunits, hdom, hin, hslot⟩ := s.loseStore_keeps e.val
  have hlost (hidle : s.engs = []) {fr off : Nat} := (s.loseStore e.val).losePlace_poisoned (.stack e) (hengs.trans hidle) (fr := fr) (off := off)
  have hcharged (hidle : s.engs = []) := (s.loseStore e.val).mem_losePlace_slots (.stack e) (hengs.trans hidle)
  rw [hplaced, hdom] at hlost
  rw [hunits, hin, hslot] at hcharged
  refine .of_exec (t := s.resetMem e) (congrArg _ (if_pos hp)) ?_
  unfold State.resetMem
  rw [if_neg (by simp [h])]
  generalize State.losePlace _ _ = r at hlost hcharged
  exact ⟨congrArg MemDie.inrst (Tab.getD_put_self ..), congrArg Link.up (State.link_setLink_self ..), r.1.hostLog, r.2, rfl,
    fun hidle => ⟨fun fr off hm hf ho => hlost hidle hm hf ho, hcharged hidle⟩⟩

theorem computeDieResetEnd_serves (s : State) (d : Fin 32) (f : BootFindings) (h : (s.dieAt d.val).inrst = true) :
    Answers (.dieResetEnd (.compute d) f) s fun t =>
      (t.dieAt d.val).inrst = false ∧ (t.dieAt d.val).scratch = [] ∧ (t.link d.val).up = true ∧
      ((passingCores f d.val (fusedMap d.val)).length < 32 → t.hostLog = s.hostLog ++ [.report 6 d.val []]) := by
  refine .of_exec (congrArg Host.Outcome.next (if_pos h)) ?_
  obtain ⟨hr, hs, -⟩ := s.bringDie_fresh f d.val
  exact ⟨hr, hs, congrArg Link.up (State.link_setLink_self ..), s.bringDie_short f d.val⟩

theorem memoryDieResetEnd_serves (s : State) (e : Fin 16) (f : BootFindings) (h : (s.memDies.getD e.val {}).inrst = true) :
    Answers (.dieResetEnd (.memory e) f) s fun t =>
      (t.memDies.getD e.val {}).inrst = false ∧ (t.link (32 + e.val)).up = true :=
  .of_exec (congrArg Host.Outcome.next (if_pos h))
    ⟨congrArg MemDie.inrst (Tab.getD_put_self ..), congrArg Link.up (State.link_setLink_self ..)⟩

/-- A state cleared of everything that does not outlive a reset of the hub. -/
theorem State.cleared_empty (s : State) (p : Phase) :
    (s.cleared p).phase = p ∧ (s.cleared p).flashed = s.flashed ∧ (s.cleared p).hostMem = s.hostMem ∧
      (s.cleared p).mem = [] ∧ (s.cleared p).keys = [] ∧ (s.cleared p).fns = [] ∧ (s.cleared p).teams = [] ∧
      (s.cleared p).groups = [] ∧ (s.cleared p).dies = [] ∧ (s.cleared p).cores = [] :=
  ⟨rfl, rfl, rfl, rfl, rfl, rfl, rfl, rfl, rfl, rfl⟩

/-- Settles O47: boot and recovery by the branches of their events, the resets by what they end with. -/
theorem bootAndResetEvents : Obligations.BootAndResetEvents := by
  intro s f d e b fn a
  obtain ⟨hoff, hup, hfail⟩ := bootEvents s f
  obtain ⟨hgo, hend⟩ := recoveryEvents s f b
  refine ⟨hoff, hup, hfail, hgo, hend, configurationEvents s fn, computeDieReset_resets s d, memoryDieReset_resets s e,
    computeDieResetEnd_serves s d f, memoryDieResetEnd_serves s e f, ?_, fun h => ?_, ?_, ?_, ?_, ?_⟩
  · exact ⟨_, rfl, rfl⟩
  · exact .of_exec (congrArg Host.Outcome.next (if_neg h)) (s.cleared_empty .booting)
  · exact ⟨_, rfl, s.cleared_empty .off⟩
  · exact ⟨_, rfl, rfl⟩
  · exact ⟨_, rfl, rfl⟩
  · exact ⟨_, rfl, rfl⟩

end Sys2Proof.Machine
end

section
/-!
Pacing, clocks, rails, heartbeats and uncorrectable errors (spec/01 R18, R20, R21; spec/07 R158, R160; spec/09 R211), and the statement O48.
-/

namespace Sys2Proof.Machine

open Sys2Proof

/-! ### Throttle steps -/

/-- THROT of a key slot rises by one. -/
def State.throttled (s : State) (k : Nat) : State := s.modTele k fun t => { t with throt := sat64 (t.throt + 1) }

/-- Teams of a queue slot's OWNER slot `g` stand on a die. -/
def State.residentOn (s : State) (d g : Nat) : Bool :=
  s.teams.any fun e => dieOf e.2.core == d && s.onCore e.1 && s.ownerSlot (s.inst e.2.inst).fn (s.inst e.2.inst).slot == g

/-- A throttle step counts once for each key slot of a set. -/
theorem State.throttle_form (s : State) (d : Nat) : ∃ owners : NatSet, owners.Pairwise (· < ·) ∧
    (∀ g, g ∈ owners ↔ s.residentOn d g = true) ∧ s.throttle d = owners.foldl State.throttled s := by
  refine ⟨_, ?_, fun g => ?_, rfl⟩
  · exact foldl_keeps (fun l : NatSet => l.Pairwise (· < ·)) _ (fun l e h => NatSet.pairwise_add h _) _ List.Pairwise.nil
  · rw [← List.foldl_map (f := fun e : Nat × Team => s.ownerSlot (s.inst e.2.inst).fn (s.inst e.2.inst).slot) (g := NatSet.add),
      NatSet.mem_foldl_add]
    simp only [State.residentOn, List.mem_map, List.mem_filter, List.any_eq_true, Bool.and_eq_true, beq_iff_eq, List.not_mem_nil, or_false,
      and_assoc]

theorem State.throttledAll_form (l : List Nat) (s : State) : ∃ ks, l.foldl State.throttled s = { s with keys := ks } :=
  foldl_keeps (fun t => ∃ ks, t = { s with keys := ks }) _ (fun _ _ ⟨_, h⟩ => ⟨_, by rw [h]; rfl⟩) l ⟨s.keys, rfl⟩

theorem State.throttle_keys (s : State) (d : Nat) : ∃ ks, s.throttle d = { s with keys := ks } := by
  obtain ⟨l, -, -, h⟩ := s.throttle_form d
  rw [h]
  exact State.throttledAll_form l s

/-- Of key slots named once each, every one's THROT rises by one. -/
theorem State.throttledAll_throt (l : List Nat) (hl : l.Pairwise (· < ·)) (s : State) (g : Nat) :
    ((l.foldl State.throttled s).keySlot g).tele.throt =
      if g ∈ l then sat64 ((s.keySlot g).tele.throt + 1) else (s.keySlot g).tele.throt := by
  induction l generalizing s with
  | nil => rfl
  | cons k t ih =>
    obtain ⟨hk, ht⟩ := List.pairwise_cons.1 hl
    rw [List.foldl_cons, ih ht]
    by_cases hg : g = k
    · subst hg
      have hn : g ∉ t := fun hm => Nat.lt_irrefl _ (hk g hm)
      simp [hn, State.throttled, State.modTele]
    · simp [hg, State.throttled, State.modTele]

theorem State.throttle_throt (s : State) (d g : Nat) :
    ((s.throttle d).keySlot g).tele.throt =
      if s.residentOn d g = true then sat64 ((s.keySlot g).tele.throt + 1) else (s.keySlot g).tele.throt := by
  obtain ⟨l, hl, hm, h⟩ := s.throttle_form d
  rw [h, State.throttledAll_throt l hl]
  simp only [hm]

/-! ### Clocks -/

/-- The clock of a die is what the steps in force leave. -/
def State.clockSet (s : State) (j : Nat) : Prop := (s.dieAt j).clock = 1800 - 50 * min 12 (s.powerSteps + (s.dieAt j).thermalSteps)

theorem State.setClock_thermal (s : State) (d j : Nat) : ((s.setClock d).dieAt j).thermalSteps = (s.dieAt j).thermalSteps := by
  unfold State.setClock
  by_cases h : j = d
  · subst h
    rw [State.dieAt_setDie_self]
  · rw [State.dieAt_setDie_ne _ _ h]

theorem State.setClock_sets (s : State) (d : Nat) : (s.setClock d).clockSet d := by
  unfold State.clockSet
  rw [s.setClock_thermal]
  exact congrArg Die.clock (State.dieAt_setDie_self ..)

theorem State.clockSet.setClock {s : State} {j : Nat} (h : s.clockSet j) (d : Nat) : (s.setClock d).clockSet j := by
  by_cases hj : j = d
  · subst hj
    exact s.setClock_sets j
  · have hd : (s.setClock d).dieAt j = s.dieAt j := State.dieAt_setDie_ne _ _ hj
    unfold State.clockSet
    rw [hd]
    exact h

theorem State.setClocks_powerSteps (s : State) : s.setClocks.powerSteps = s.powerSteps := by
  unfold State.setClocks
  exact foldl_field State.powerSteps State.setClock (fun _ _ => rfl) _ s

/-- Every die's clock is moved to what the steps in force leave. -/
theorem State.setClocks_clock (s : State) (j : Nat) (hj : j < 32) :
    (s.setClocks.dieAt j).clock = 1800 - 50 * min 12 (s.powerSteps + (s.dieAt j).thermalSteps) := by
  have hp := s.setClocks_powerSteps
  unfold State.setClocks at hp ⊢
  have h := foldl_reaches (fun j t => State.clockSet t j) State.setClock State.setClock_sets (fun _ d _ h => h.setClock d)
    (List.mem_range.2 hj) s
  have ht := foldl_field (fun t => (State.dieAt t j).thermalSteps) State.setClock (fun t d => t.setClock_thermal d j) (List.range 32) s
  rw [h, hp, ht]

/-! ### Requests to stop keep teams on their cores -/

/-- Teams have been asked to stop: each is else as it was, and none has left the list. -/
def State.asked (s t : State) : Prop :=
  t.insts = s.insts ∧ (∀ k, ∃ b, t.team k = { s.team k with stopReq := (s.team k).stopReq || b }) ∧
    ∀ y ∈ s.teams, ∃ z ∈ t.teams, z.1 = y.1 ∧ z.2.core = y.2.core ∧ z.2.inst = y.2.inst

theorem State.asked.refl (s : State) : s.asked s :=
  ⟨rfl, fun _ => ⟨false, by rw [Bool.or_false]⟩, fun y hy => ⟨y, hy, rfl, rfl, rfl⟩⟩

theorem State.asked.trans {s t u : State} (h : s.asked t) (k : t.asked u) : s.asked u := by
  refine ⟨k.1.trans h.1, fun j => ?_, fun y hy => ?_⟩
  · obtain ⟨b, hb⟩ := h.2.1 j
    obtain ⟨c, hc⟩ := k.2.1 j
    exact ⟨b || c, by rw [hc, hb, Bool.or_assoc]⟩
  · obtain ⟨z, hz, h1, h2, h3⟩ := h.2.2 y hy
    obtain ⟨w, hw, k1, k2, k3⟩ := k.2.2 z hz
    exact ⟨w, hw, k1.trans h1, k2.trans h2, k3.trans h3⟩

theorem State.asked_setTeam (s : State) (k : Nat) : s.asked (s.setTeam k { s.team k with stopReq := true }) := by
  refine ⟨rfl, fun j => ?_, fun y hy => ?_⟩
  · by_cases hj : j = k
    · subst hj
      exact ⟨true, by rw [State.team_setTeam_self, Bool.or_true]⟩
    · exact ⟨false, by rw [State.team_setTeam_ne _ _ hj, Bool.or_false]⟩
  · rcases Tab.mem_put_of_mem hy k { s.team k with stopReq := true } with h | ⟨h1, h2, h3⟩
    · exact ⟨y, h, rfl, rfl, rfl⟩
    · have hy : s.team k = y.2 := by simp [State.team, Tab.getD, h2]
      exact ⟨_, h3, h1.symm, by rw [← hy], by rw [← hy]⟩

theorem State.asked_requestStop (s : State) (k : Nat) : s.asked (s.requestStop k) :=
  foldl_keeps s.asked _ (fun t k h => h.trans (t.asked_setTeam k)) _ (.refl s)

/-- A unit of teams loses none by the requests. -/
theorem State.asked.unitOf {s t : State} (h : s.asked t) {n k : Nat} (hk : k ∈ s.unitOf n) : k ∈ t.unitOf n := by
  obtain ⟨b, hb⟩ := h.2.1 n
  have hi (i : Nat) : t.inst i = s.inst i := by simp only [State.inst, h.1]
  simp only [State.unitOf, hb, hi] at hk ⊢
  split at hk
  next hc =>
    rw [if_pos hc]
    obtain ⟨y, hy, rfl⟩ := List.mem_map.1 hk
    obtain ⟨hy, hp⟩ := List.mem_filter.1 hy
    obtain ⟨z, hz, h1, -, h3⟩ := h.2.2 y hy
    exact List.mem_map.2 ⟨z, List.mem_filter.2 ⟨hz, by rw [h3]; exact hp⟩, h1⟩
  next hc =>
    rw [if_neg hc]
    exact hk

/-- A team that stood on its core still does. -/
theorem State.asked.onCore {s t : State} (h : s.asked t) {n : Nat} (hn : s.onCore n = true) : t.onCore n = true := by
  obtain ⟨b, hb⟩ := h.2.1 n
  simp only [State.onCore, Bool.and_eq_true, Bool.not_eq_true', Bool.and_eq_false_iff, hb] at hn ⊢
  refine ⟨hn.1, hn.2.imp id fun hu => ?_⟩
  by_contra hc
  rw [Bool.not_eq_false] at hc
  refine absurd (List.all_eq_true.2 fun k hk => ?_) (Bool.eq_false_iff.1 hu)
  obtain ⟨c, hk'⟩ := h.2.1 k
  have hall := List.all_eq_true.1 hc k (h.unitOf hk)
  rw [hk'] at hall
  revert hall
  cases (s.team k).ended <;> cases (s.team k).stopped <;> cases (s.team k).stopReq <;> simp

/-! ### A core marked degraded -/

theorem State.requestStop_cores (s : State) (k : Nat) : (s.requestStop k).cores = s.cores := by
  unfold State.requestStop
  refine foldl_field State.cores _ (fun u j => ?_) _ s
  rfl

/-- A degraded core has its flag, and every team has been asked at most to stop. -/
theorem State.degrade_marks (s : State) (c : Nat) : ((s.degrade c).coreAt c).degraded = true ∧ s.asked (s.degrade c) := by
  unfold State.degrade
  split
  next h => exact ⟨h, .refl s⟩
  next h =>
    extract_lets _ t ts
    have ht : s.asked t := .refl s
    have hu : s.asked (ts.foldl State.requestStop t) := foldl_keeps s.asked _ (fun t k h => h.trans (t.asked_requestStop k)) _ ht
    have hc : (ts.foldl State.requestStop t).cores = t.cores :=
      foldl_field State.cores _ State.requestStop_cores _ t
    refine ⟨?_, hu⟩
    show (State.coreAt (ts.foldl State.requestStop t) c).degraded = true
    rw [State.coreAt, hc]
    exact congrArg Core.degraded (State.coreAt_setCore_self ..)

theorem State.reportFailed_cores (s : State) (g : Nat) : (s.reportFailed g).cores = s.cores := by
  unfold State.reportFailed
  extract_lets _ core t u
  have hu : u.cores = s.cores := by
    show State.cores (if _ then t else _) = _
    split <;> rfl
  refine (foldl_field State.cores _ (fun t d => ?_) _ u).trans hu
  cases d <;> rfl

theorem State.endTeam_cores (s : State) (t : Nat) : (s.endTeam t).cores = s.cores := by
  unfold State.endTeam
  extract_lets gids drop u v x w
  have hv : v.cores = u.cores := foldl_field State.cores _ State.reportFailed_cores _ u
  obtain ⟨o, hw⟩ : v.orderMoved w := State.learn_moves ..
  show w.cores = s.cores
  rw [hw]
  exact hv

theorem Tab.map_degraded (t : Tab Core) (f : Nat × Core → Core) (h : ∀ e, (f e).degraded = e.2.degraded) (c : Nat) :
    (Tab.getD (List.map (fun e => (e.1, f e)) t) c {}).degraded = (t.getD c {}).degraded := by
  unfold Tab.getD
  rw [Tab.get?_map t fun k x => f (k, x)]
  cases t.get? c with
  | none => rfl
  | some x => exact h (c, x)

theorem State.endEngs_degraded (s : State) (p : EngOp → Bool) (c : Nat) : ((s.endEngs p).coreAt c).degraded = (s.coreAt c).degraded := by
  unfold State.endEngs State.unstall State.coreAt
  refine Tab.map_degraded s.cores _ (fun _ => ?_) c
  rfl

theorem State.killTeam_degraded (s : State) (t c : Nat) : ((s.killTeam t).coreAt c).degraded = (s.coreAt c).degraded := by
  have hc : (s.killTeam t).cores = (s.endEngs fun e => e.team == t && e.discards).cores := by
    unfold State.killTeam
    extract_lets u v
    rw [State.setTeam_cores, State.endTeam_cores]
  refine Eq.trans ?_ (s.endEngs_degraded (fun e => e.team == t && e.discards) c)
  unfold State.coreAt
  rw [hc]

theorem State.killInstance_degraded (s : State) (i c : Nat) : ((s.killInstance i).coreAt c).degraded = (s.coreAt c).degraded :=
  foldl_field (fun t => (State.coreAt t c).degraded) _ (fun t _ => t.killTeam_degraded _ c) _ s

/-! ### Poison -/

/-- Poison of one error at the home of some units: they hold it, and no byte has changed. -/
theorem State.poisonFor_poisons (s : State) (k : Option Nat) (us : List Nat) :
    (∀ u ∈ us, (s.poisonFor k us).poison.contains u = true) ∧ (s.poisonFor k us).mem = s.mem := by
  unfold State.poisonFor
  extract_lets t
  obtain ⟨ks, h⟩ := State.chargeSlot_form { t with poison := us.foldl NatSet.add t.poison, healed := t.healed.filter fun x => !us.contains x } k
  rw [h]
  exact ⟨fun u hu => List.contains_iff_mem.2 (NatSet.mem_foldl_add.2 (.inl hu)), rfl⟩

/-- So of one error that strikes cached copies of them, whatever the copies note of it. -/
theorem State.strikeCopies_poisons (s : State) (k : Option Nat) (us : List Nat) (clean : Nat → Bool) (mark : List Nat → State → State)
    (hm : ∀ l t, (mark l t).poison = t.poison ∧ (mark l t).mem = t.mem) :
    (∀ u ∈ us, (s.strikeCopies k us clean mark).poison.contains u = true) ∧ (s.strikeCopies k us clean mark).mem = s.mem := by
  unfold State.strikeCopies
  extract_lets alone t
  obtain ⟨ks, h⟩ := State.chargeSlot_form { t with poison := us.foldl NatSet.add t.poison } k
  rw [(hm _ _).1, (hm _ _).2, h]
  exact ⟨fun u hu => List.contains_iff_mem.2 (NatSet.mem_foldl_add.2 (.inl hu)), rfl⟩

theorem State.strikeLine_poisons (s : State) (l : Nat) :
    (∀ u ∈ lineUnits l, (s.strikeLine l).poison.contains u = true) ∧ (s.strikeLine l).mem = s.mem := by
  unfold State.strikeLine
  split
  · exact s.poisonFor_poisons _ _
  · exact s.strikeCopies_poisons _ _ _ _ fun _ _ => ⟨rfl, rfl⟩

theorem State.strikeSector_held (s : State) (u : Nat) {y : Sector} (hy : s.sectors.find? (fun x => x.held.contains u) = some y) :
    ∀ v ∈ y.held, (s.strikeSector u).poison.contains v = true := by
  unfold State.strikeSector
  rw [hy]
  exact (s.strikeCopies_poisons _ _ _ _ fun _ _ => ⟨rfl, rfl⟩).1

theorem State.strikeSector_around (s : State) (u : Nat) (hu : s.sectors.find? (fun x => x.held.contains u) = none) :
    ∀ v ∈ natsFrom (u / 32 * 32) 32, (s.strikeSector u).poison.contains v = true := by
  unfold State.strikeSector
  rw [hu]
  exact (s.poisonFor_poisons _ _).1

theorem State.strikeSector_mem (s : State) (u : Nat) : (s.strikeSector u).mem = s.mem := by
  unfold State.strikeSector
  split
  · exact (s.poisonFor_poisons _ _).2
  · exact (s.strikeCopies_poisons _ _ _ _ fun _ _ => ⟨rfl, rfl⟩).2

/-! ### The statement -/

theorem currentPacing_begins (s : State) (d : Fin 32) (h : (s.dieAt d.val).pacing = false) :
    Answers (.currentPacing d true) s fun t =>
      t.dieAt d.val = { s.dieAt d.val with pacing := true } ∧ (∀ j, j ≠ d.val → t.dieAt j = s.dieAt j) ∧
      ∀ g, (t.keySlot g).tele.throt =
        if s.residentOn d.val g = true then sat64 ((s.keySlot g).tele.throt + 1) else (s.keySlot g).tele.throt := by
  refine .of_exec (congrArg Host.Outcome.next (if_pos (by simp [h]))) ?_
  generalize hu : s.setDie d.val { s.dieAt d.val with pacing := true } = u
  obtain ⟨ks, hk⟩ := u.throttle_keys d.val
  have hd (j : Nat) : (u.throttle d.val).dieAt j = u.dieAt j := by rw [hk]; rfl
  refine ⟨?_, fun j hj => ?_, fun g => ?_⟩
  · rw [hd, ← hu, State.dieAt_setDie_self]
  · rw [hd, ← hu, State.dieAt_setDie_ne _ _ hj]
  · rw [u.throttle_throt, ← hu]
    rfl

theorem powerClockStep_clocks (s : State) (h : s.powerSteps < 12) : Answers .powerClockStep s fun t =>
    t.powerSteps = s.powerSteps + 1 ∧
      ∀ j < 32, (t.dieAt j).clock = 1800 - 50 * min 12 (s.powerSteps + 1 + (s.dieAt j).thermalSteps) := by
  refine .of_exec (congrArg Host.Outcome.next (if_neg (Nat.not_le.2 h))) ?_
  generalize hu : ({ s with powerSteps := s.powerSteps + 1 } : State).setClocks = u
  obtain ⟨ks, hk⟩ : ∃ ks, (List.range 32).foldl State.throttle u = { u with keys := ks } :=
    foldl_keeps (fun t => ∃ ks, t = { u with keys := ks }) _
      (fun t d ⟨_, ht⟩ => (t.throttle_keys d).imp fun _ hj => by rw [hj, ht]) _ ⟨u.keys, rfl⟩
  have hp := State.setClocks_powerSteps { s with powerSteps := s.powerSteps + 1 }
  have hc := State.setClocks_clock { s with powerSteps := s.powerSteps + 1 }
  rw [hu] at hp hc
  rw [hk]
  exact ⟨hp, hc⟩

theorem powerClockRestore_clocks (s : State) : Answers .powerClockRestore s fun t => t.powerSteps = s.powerSteps - 1 ∧
    ∀ j < 32, (t.dieAt j).clock = 1800 - 50 * min 12 (s.powerSteps - 1 + (s.dieAt j).thermalSteps) :=
  ⟨_, rfl, State.setClocks_powerSteps _, State.setClocks_clock _⟩

/-- The clock of a die whose record is being changed. -/
theorem State.setDie_setClock (s : State) (d : Nat) (x : Die) :
    ((s.setDie d x).setClock d).dieAt d = { x with clock := 1800 - 50 * min 12 (s.powerSteps + x.thermalSteps) } := by
  unfold State.setClock
  rw [State.dieAt_setDie_self, State.dieAt_setDie_self]
  rfl

theorem thermalClockStep_clock (s : State) (d : Fin 32) (h : (s.dieAt d.val).thermalSteps < 12) :
    Answers (.thermalClockStep d) s fun t => t.dieAt d.val =
      { s.dieAt d.val with thermal := true, thermalSteps := (s.dieAt d.val).thermalSteps + 1,
                           clock := 1800 - 50 * min 12 (s.powerSteps + ((s.dieAt d.val).thermalSteps + 1)) } := by
  refine .of_exec (congrArg Host.Outcome.next (if_neg (Nat.not_le.2 h))) ?_
  obtain ⟨ks, hk⟩ := State.throttle_keys
    ((s.setDie d.val { s.dieAt d.val with thermal := true, thermalSteps := (s.dieAt d.val).thermalSteps + 1 }).setClock d.val) d.val
  rw [hk]
  exact State.setDie_setClock ..

theorem railSlewStep_slews (s : State) (c : CoreId) {y : Core} (hy : s.cores.get? (36 * c.die.val + c.core.val) = some y) :
    (y.vcur < y.vcmd → Answers (.railSlewStep c) s fun t => t = s.setCore (36 * c.die.val + c.core.val) { y with vcur := y.vcur + 1 }) ∧
    (y.vcmd < y.vcur → Answers (.railSlewStep c) s fun t => t = s.setCore (36 * c.die.val + c.core.val) { y with vcur := y.vcur - 1 }) := by
  have hc : s.coreAt (36 * c.die.val + c.core.val) = y := by simp [State.coreAt, Tab.getD, hy]
  have he : execRailSlewStep c s = .next (s.setCore (36 * c.die.val + c.core.val) y.slew) := by
    simp only [execRailSlewStep, hy, hc, Option.isSome_some, if_true]
  refine ⟨fun h => .of_exec he ?_, fun h => .of_exec he ?_⟩
  · rw [Core.slew, if_pos h]
  · rw [Core.slew, if_neg (by omega), if_pos h]

theorem heartbeatMiss_hung (s : State) (c : CoreId) (n : Nat) (h : 4 ≤ n) :
    Answers (.heartbeatMiss c n) s fun t => (t.coreAt (36 * c.die.val + c.core.val)).degraded = true ∧
      ∀ y ∈ s.teams, y.2.core = 36 * c.die.val + c.core.val → s.onCore y.1 = true → t.killedIn y.2.inst := by
  refine .of_exec (congrArg Host.Outcome.next (if_neg (by omega))) ?_
  generalize 36 * c.die.val + c.core.val = k
  generalize hu : s.setCore k { s.coreAt k with missed := n } = u
  obtain ⟨hd, ha⟩ := u.degrade_marks k
  generalize u.degrade k = v at hd ha
  refine ⟨?_, fun y hy hc hon => ?_⟩
  · rw [← hd]
    exact foldl_field (fun t => (State.coreAt t k).degraded) _ (fun t i => t.killInstance_degraded i k) _ v
  · subst hu
    obtain ⟨z, hz, h1, h2, h3⟩ := ha.2.2 y hy
    refine h3 ▸ State.killAll_killed (List.mem_map.2 ⟨z, List.mem_filter.2 ⟨hz, ?_⟩, rfl⟩) v
    rw [h1, ha.onCore hon, h2, hc]
    simp

theorem eccUncorrectable_frame (s : State) (pa : Nat) (h : pa < s.frameEnd) :
    Answers (.eccUncorrectable (.unit pa)) s (fun t => t.poison.contains (s.dom pa / 32) = true ∧ t.mem = s.mem) ∧
    Answers (.eccUncorrectable (.sector pa)) s (fun t => t.mem = s.mem ∧
      (∀ pre y post, s.sectors = pre ++ y :: post → (∀ z ∈ pre, z.held.contains (s.dom pa / 32) = false) →
        y.held.contains (s.dom pa / 32) = true → ∀ u ∈ y.held, t.poison.contains u = true) ∧
      ((∀ z ∈ s.sectors, z.held.contains (s.dom pa / 32) = false) → ∀ u, u / 32 = s.dom pa / 1024 → t.poison.contains u = true)) ∧
    Answers (.eccUncorrectable (.line pa)) s (fun t => t.mem = s.mem ∧
      ∀ u, u / 4 = s.dom pa / 128 → t.poison.contains u = true) := by
  have hn : ¬s.frameEnd ≤ pa := Nat.not_le.2 h
  refine ⟨.of_exec (congrArg Host.Outcome.next (if_neg hn)) ?_, .of_exec (congrArg Host.Outcome.next (if_neg hn)) ?_,
    .of_exec (congrArg Host.Outcome.next (if_neg hn)) ?_⟩
  · obtain ⟨hp, hm⟩ := s.poisonFor_poisons ([s.dom pa / 32].findSome? s.unitSlot) [s.dom pa / 32]
    exact ⟨hp _ (List.mem_singleton.2 rfl), hm⟩
  · refine ⟨s.strikeSector_mem _, fun pre y post hs hpre hy => ?_, fun hz u hu => ?_⟩
    · refine s.strikeSector_held _ ?_
      rw [hs, List.find?_append, List.find?_eq_none.2 fun z hz => Bool.eq_false_iff.1 (hpre z hz), Option.none_or]
      exact List.find?_cons_of_pos (p := fun x : Sector => x.held.contains (s.dom pa / 32)) hy
    · refine s.strikeSector_around _ (List.find?_eq_none.2 fun z hm => Bool.eq_false_iff.1 (hz z hm)) u ?_
      rw [mem_natsFrom]
      omega
  · obtain ⟨hp, hm⟩ := s.strikeLine_poisons (lineOf (s.dom pa))
    refine ⟨hm, fun u hu => hp u ?_⟩
    simp only [lineUnits, lineOf, mem_natsFrom]
    omega

theorem eccUncorrectable_scratch (s : State) (tm off : Nat) (h : off < (s.team tm).scrBytes) :
    Answers (.eccUncorrectable (.scratch tm off)) s fun t =>
      (t.team tm).scratchPoison.contains (off / 32) = true ∧ (t.team tm).scratch = (s.team tm).scratch ∧ t.mem = s.mem := by
  refine .of_exec (congrArg Host.Outcome.next (if_pos h)) ?_
  have ht : ((s.poisonLoc (.scratch tm off)).chargeTeam tm).team tm =
      { s.team tm with scratchPoison := (s.team tm).scratchPoison.add (off / 32) } := State.team_setTeam_self ..
  rw [ht]
  exact ⟨List.contains_iff_mem.2 (NatSet.mem_add.2 (.inl rfl)), rfl, rfl⟩

theorem cxlPoisonResponse_poisons (s : State) (pa : Nat) {p : Fin 8} (h : s.placed.get? (pa / 65536) = some (.cxl p)) :
    Answers (.cxlPoisonResponse pa) s fun t => t.poison.contains (s.dom pa / 32) = true ∧ t.mem = s.mem := by
  have he : execCxlPoisonResponse pa s = .next (s.poisonUnits [s.dom pa / 32]) := by simp only [execCxlPoisonResponse, h]
  obtain ⟨hp, hm⟩ := s.poisonFor_poisons ([s.dom pa / 32].findSome? s.unitSlot) [s.dom pa / 32]
  exact .of_exec he ⟨hp _ (List.mem_singleton.2 rfl), hm⟩

/-- Settles O48: clocks by a fold over the dies, the teams on a hung core by what a request to stop leaves of them, poison by its set. -/
theorem powerAndHealthEvents : Obligations.PowerAndHealthEvents := by
  intro s d c n pa tm off x k
  refine ⟨currentPacing_begins s d, ⟨_, rfl, rfl⟩, powerClockStep_clocks s, powerClockRestore_clocks s, thermalClockStep_clock s d,
    ⟨_, rfl, State.setDie_setClock ..⟩, fun y hy => railSlewStep_slews s c hy, fun h => ?_, heartbeatMiss_hung s c n,
    eccUncorrectable_frame s pa, eccUncorrectable_scratch s tm off, fun p hp => cxlPoisonResponse_poisons s pa hp⟩
  exact .of_exec (congrArg Host.Outcome.next (if_pos h)) rfl

end Sys2Proof.Machine
end

section
/-!
What the host does to the device (spec/03 R49 to R59; spec/02 R31), and the statement O53.
-/

namespace Sys2Proof.Machine

open Sys2Proof

/-- A request whose outcome does not wait is done. -/
theorem State.orLater_going (s : State) {t : State} (h : t.stalled = false) : s.orLater t = t := if_neg (by simp [h])

/-! ### Features -/

theorem feataWrite_decides (s : State) (fn : Nat) (v : Word) (hp : s.phase = .ready) (hf : s.presented fn = true)
    (hv : v.getLsbD 63 = true) (hl : (s.fn fn).lock = false) :
    let r := (v &&& s.feato) &&& BitVec.ofNat 64 (2 ^ 63 - 1)
    (r.getLsbD 0 = true → Answers (.feataWrite fn v) s fun t => t = s.setFn fn { s.fn fn with feata := r, lock := true }) ∧
    (r.getLsbD 0 = false → Answers (.feataWrite fn v) s fun t => t = s.setFn fn { s.fn fn with badf := true }) := by
  intro r
  have he : execFeataWrite fn v s = .next (s.writeFeata fn v) := congrArg Host.Outcome.next (if_pos ⟨hp, hf⟩)
  have hw : s.writeFeata fn v =
      if r.getLsbD 0 then s.setFn fn { s.fn fn with feata := r, lock := true } else s.setFn fn { s.fn fn with badf := true } :=
    if_neg (by simp [hv, hl])
  exact ⟨fun h => .of_exec he (hw.trans (if_pos h)), fun h => .of_exec he (hw.trans (if_neg (Bool.eq_false_iff.1 h)))⟩

/-! ### Queue slots -/

/-- The fields of QCTL written. -/
def QSlot.fields (x : QSlot) (v : Word) : QSlot := { x with loc := v.getLsbD 1, size := part v 7 4, prio := part v 10 8, vec := part v 21 16 }

/-- A slot that has stopped goes on (spec/03 R57). -/
def QSlot.resumed (x : QSlot) : QSlot :=
  { x with err := 0, skip := false, past := none, qhead := if x.skip = true then x.past.getD x.next else x.qhead }

/-- The slot's fields allow EN = 1 (spec/03 R55). -/
def QSlot.fits (x : QSlot) (kcount : Nat) : Prop :=
  4 ≤ x.size ∧ x.size ≤ 15 ∧ x.owner < kcount ∧ (x.loc = true → x.qbase.toNat % 2 ^ (x.size + 6) = 0)

theorem State.enableError_fits (s : State) (fn : Nat) (x : QSlot) (hl : (s.fn fn).lock = true) (h : x.fits (s.fn fn).kcount) :
    s.enableError fn x = none := by
  obtain ⟨h4, h15, ho, ha⟩ := h
  have hn : ¬(x.size < 4 ∨ 15 < x.size ∨ (s.fn fn).kcount ≤ x.owner ∨ (x.loc = true ∧ x.qbase.toNat % 2 ^ (x.size + 6) ≠ 0)) := by
    rintro (h | h | h | ⟨h, k⟩)
    · omega
    · omega
    · omega
    · exact k (ha h)
  unfold State.enableError
  dsimp only
  rw [if_neg (by simp [hl]), if_neg hn]

theorem State.enableError_refuses (s : State) (fn : Nat) (x : QSlot) (h : ¬((s.fn fn).lock = true ∧ x.fits (s.fn fn).kcount)) :
    s.enableError fn x = some (if (s.fn fn).lock then 4 else 5) := by
  unfold State.enableError
  dsimp only
  cases hl : (s.fn fn).lock with
  | false => rfl
  | true =>
    refine (if_neg (by simp)).trans ((if_pos ?_).trans rfl)
    by_contra hc
    refine h ⟨hl, ?_⟩
    simp only [not_or, not_and, not_not, Nat.not_lt, Nat.not_le] at hc
    exact hc

/-- EN written to a slot whose other fields have been. -/
def State.writeEn (s : State) (fn g : Nat) (v : Word) (y : QSlot) : State :=
  if v.getLsbD 0 then
    match s.enableError fn y with
    | some e => (s.setSlot g { y with en := false }).slotError g e false
    | none => s.setSlot g { y with en := true }
  else s.setSlot g { y with en := false }

/-- A write of QCTL: RESUME, then the fields, then EN (log 44). -/
theorem State.writeQctl_eq (s : State) {fn g : Nat} (v : Word) (hg : s.selected fn = some g) (hr : (s.fn fn).reset = false) :
    s.writeQctl fn v =
      s.writeEn fn g v ((if v.getLsbD 2 && (s.slot g).err != 0 then (s.slot g).resumed else s.slot g).fields v) := by
  unfold State.writeQctl
  simp only [hg, hr, Bool.false_eq_true, if_false]
  rfl

theorem State.writeEn_sets (s : State) (fn g : Nat) (v : Word) (y : QSlot) (h0 : v.getLsbD 0 = true)
    (hl : (s.fn fn).lock = true) (hf : y.fits (s.fn fn).kcount) : s.writeEn fn g v y = s.setSlot g { y with en := true } := by
  unfold State.writeEn
  rw [if_pos h0, s.enableError_fits fn y hl hf]

theorem State.writeEn_refuses (s : State) (fn g : Nat) (v : Word) (y : QSlot) (h0 : v.getLsbD 0 = true)
    (h : ¬((s.fn fn).lock = true ∧ y.fits (s.fn fn).kcount)) :
    s.writeEn fn g v y = (s.setSlot g { y with en := false }).slotError g (if (s.fn fn).lock then 4 else 5) false := by
  unfold State.writeEn
  rw [if_pos h0, s.enableError_refuses fn y h]

theorem State.writeEn_clears (s : State) (fn g : Nat) (v : Word) (y : QSlot) (h0 : v.getLsbD 0 = false) :
    s.writeEn fn g v y = s.setSlot g { y with en := false } := if_neg (Bool.eq_false_iff.1 h0)

section
variable {s : State} {fn g : Nat} {v : Word} (hp : s.phase = .ready) (hf : s.presented fn = true) (hg : s.selected fn = some g)
  (hr : (s.fn fn).reset = false)
include hp hf hg hr

/-- QCTL written without a RESUME that has effect. -/
theorem queueEnable_writes (h2 : ¬(v.getLsbD 2 = true ∧ (s.slot g).err ≠ 0)) :
    (v.getLsbD 0 = true → (s.fn fn).lock = true → ((s.slot g).fields v).fits (s.fn fn).kcount → Answers (.queueEnable fn v) s fun t =>
      t.slot g = { (s.slot g).fields v with en := true }) ∧
    (v.getLsbD 0 = true → ¬((s.fn fn).lock = true ∧ ((s.slot g).fields v).fits (s.fn fn).kcount) →
      Answers (.queueEnable fn v) s fun t => (t.slot g).en = false ∧ (t.slot g).err = if (s.fn fn).lock then 4 else 5) ∧
    (v.getLsbD 0 = false → Answers (.queueEnable fn v) s fun t => t.slot g = { (s.slot g).fields v with en := false }) := by
  have he : execQueueEnable fn v s = .next (s.writeEn fn g v ((s.slot g).fields v)) := by
    refine congrArg Host.Outcome.next ((if_pos ⟨hp, hf⟩).trans ((s.writeQctl_eq v hg hr).trans ?_))
    rw [if_neg (by simpa using h2)]
  refine ⟨fun h0 hl hfit => .of_exec he ?_, fun h0 hn => .of_exec he ?_, fun h0 => .of_exec he ?_⟩
  · rw [s.writeEn_sets fn g v _ h0 hl hfit, State.slot_setSlot_self]
  · rw [s.writeEn_refuses fn g v _ h0 hn]
    have hs : ((s.setSlot g { (s.slot g).fields v with en := false }).slotError g (if (s.fn fn).lock then 4 else 5) false).slot g =
        { (s.slot g).fields v with en := false, err := if (s.fn fn).lock then 4 else 5, skip := false } := by
      refine (State.slot_setSlot_self ..).trans ?_
      rw [State.slot_setSlot_self]
    rw [hs]
    exact ⟨rfl, rfl⟩
  · rw [s.writeEn_clears fn g v _ h0, State.slot_setSlot_self]

/-- QCTL written with a RESUME that has effect. -/
theorem queueResume_resumes (h2 : v.getLsbD 2 = true ∧ (s.slot g).err ≠ 0)
    (h : v.getLsbD 0 = false ∨ (s.fn fn).lock = true ∧ ((s.slot g).fields v).fits (s.fn fn).kcount) :
    Answers (.queueResume fn v) s fun t => (t.slot g).err = 0 ∧ (t.slot g).skip = false ∧ (t.slot g).en = v.getLsbD 0 ∧
      (t.slot g).qhead = if (s.slot g).skip = true then (s.slot g).past.getD (s.slot g).next else (s.slot g).qhead := by
  have he : execQueueResume fn v s = .next (s.writeEn fn g v ((s.slot g).resumed.fields v)) := by
    refine congrArg Host.Outcome.next ((if_pos ⟨hp, hf⟩).trans ((s.writeQctl_eq v hg hr).trans ?_))
    rw [if_pos (by simpa using h2)]
  have hw : s.writeEn fn g v ((s.slot g).resumed.fields v) = s.setSlot g { (s.slot g).resumed.fields v with en := v.getLsbD 0 } := by
    cases h0 : v.getLsbD 0 with
    | false => exact s.writeEn_clears fn g v _ h0
    | true =>
      obtain ⟨hl, hfit⟩ := h.resolve_left (by rw [h0]; exact Bool.noConfusion)
      exact s.writeEn_sets fn g v _ h0 hl hfit
  refine .of_exec he ?_
  rw [hw, State.slot_setSlot_self]
  exact ⟨rfl, rfl, rfl, rfl⟩

end

theorem doorbell_rings (s : State) (fn q n : Nat) (hp : s.phase = .ready) (hf : s.presented fn = true) (hq : q < s.slotCount fn)
    (hr : (s.fn fn).reset = false) (hen : (s.slot ((s.fn fn).qbase + q)).en = true) :
    (n % 65536 < 2 ^ (s.slot ((s.fn fn).qbase + q)).size → Answers (.doorbell fn q n) s fun t =>
      t = s.setSlot ((s.fn fn).qbase + q) { s.slot ((s.fn fn).qbase + q) with tail := n % 65536 }) ∧
    (2 ^ (s.slot ((s.fn fn).qbase + q)).size ≤ n % 65536 → Answers (.doorbell fn q n) s fun t =>
      (t.slot ((s.fn fn).qbase + q)).err = 4 ∧
        (t.slot ((s.fn fn).qbase + q)).tail = (s.slot ((s.fn fn).qbase + q)).tail) := by
  have he : execDoorbell fn q n s = .next (s.ring fn q n) := congrArg Host.Outcome.next (if_pos ⟨hp, hf⟩)
  have hg : ¬(s.slotCount fn ≤ q ∨ (s.fn fn).reset = true ∨ (!(s.slot ((s.fn fn).qbase + q)).en) = true) := by
    simp [hq, hr, hen]
  refine ⟨fun h => .of_exec he ((if_neg hg).trans (if_neg (Nat.not_le.2 h))), fun h => .of_exec he ?_⟩
  rw [show s.ring fn q n = _ from (if_neg hg).trans (if_pos h)]
  have hs : (s.slotError ((s.fn fn).qbase + q) 4 false).slot ((s.fn fn).qbase + q) =
      { s.slot ((s.fn fn).qbase + q) with err := 4, skip := false } := State.slot_setSlot_self ..
  rw [hs]
  exact ⟨rfl, rfl⟩

/-! ### Registers -/

section
variable {s : State} {fn : Nat} (v : Word) (hp : s.phase = .ready) (hf : s.presented fn = true)
include hp hf

theorem registerWrite_qsel : Answers (.registerWrite fn 0x40 v) s fun t =>
    t = s.setFn fn { s.fn fn with qsel := v.toNat % 2 ^ 12 } := by
  have he : execRegisterWrite fn 0x40 v s = .next (s.setFn fn { s.fn fn with qsel := part v 11 0 }) := by
    simp [execRegisterWrite, hp, hf]
  exact .of_exec he (by simp [part, fieldOf])

theorem registerWrite_apbase : Answers (.registerWrite fn 0x68 v) s fun t =>
    t = s.setFn fn { s.fn fn with apbase := BitVec.ofNat 64 (v.toNat / 2 ^ 36 * 2 ^ 36) } := by
  have he : execRegisterWrite fn 0x68 v s = .next (s.setFn fn { s.fn fn with apbase := BitVec.ofNat 64 (v.toNat / 2 ^ 36 * 2 ^ 36) }) := by
    simp [execRegisterWrite, hp, hf]
  exact .of_exec he rfl

theorem registerWrite_qbase {g : Nat} (hg : s.selected fn = some g) : Answers (.registerWrite fn 0x48 v) s fun t =>
    t = s.setSlot g { s.slot g with qbase := BitVec.ofNat 64 (v.toNat / 4096 * 4096) } := by
  have he : execRegisterWrite fn 0x48 v s = .next (s.writeSlotReg fn 0x48 v) := by
    simp [execRegisterWrite, hp, hf]
  refine .of_exec he ?_
  unfold State.writeSlotReg
  rw [hg]
  rfl

theorem errcntRead_clears : Answers (.errcntRead fn) s fun t => (t.fn fn).wdrop = 0 ∧ (t.fn fn).rabrt = 0 ∧
    t.hostLog = s.hostLog ++ [.reg fn 0x70 (BitVec.ofNat 64 ((s.fn fn).wdrop + (s.fn fn).rabrt * 2 ^ 32))] := by
  have hb : s.bar0 fn 0x70 = BitVec.ofNat 64 ((s.fn fn).wdrop + (s.fn fn).rabrt * 2 ^ 32) := by
    simp [State.bar0, hp]
  refine .of_exec (congrArg Host.Outcome.next (if_neg (by simp [hp, hf]))) ?_
  rw [hb]
  refine ⟨?_, ?_, rfl⟩
  · exact congrArg Function.wdrop (State.fn_setFn_self ..)
  · exact congrArg Function.rabrt (State.fn_setFn_self ..)

end

/-- A write of a register of the windows of the physical function. -/
theorem execRegisterWrite_window {s : State} (v : Word) (hp : s.phase = .ready) {off : Nat} (h8 : off % 8 = 0) (hlo : 0x68 < off)
    (hhi : off < 0x1000) : execRegisterWrite 0 off v s = .next (s.writeWindow off v) := by
  have hf : s.presented 0 = true := rfl
  unfold execRegisterWrite
  simp only [hp, hf, h8]
  rw [if_neg (by simp), if_neg (by omega), if_neg (by omega), if_neg (by omega), if_neg (by omega), if_neg (by omega), if_neg (by omega),
    if_pos trivial]

theorem registerWrite_windows (s : State) (v : Word) (hp : s.phase = .ready) :
    Answers (.registerWrite 0 0x100 v) s (fun t => t = { s with vfsel := v.toNat % 2 ^ 7 }) ∧
    Answers (.registerWrite 0 0x130 v) s (fun t => t = { s with gqsel := v.toNat % 2 ^ 11 }) ∧
    (s.vfsel ≠ 0 → s.vfsel ≤ 64 → Answers (.registerWrite 0 0x120 v) s fun t => t = s.setFn s.vfsel
      { s.fn s.vfsel with tbRate := v.toNat % 2 ^ 20, tbEn := v.getLsbD 31, tbCap := v.toNat / 2 ^ 32 % 2 ^ 16,
                          tbBlim := v.toNat / 2 ^ 48 % 2 ^ 16 }) := by
  refine ⟨.of_exec (execRegisterWrite_window v hp rfl (by decide) (by decide)) ?_,
    .of_exec (execRegisterWrite_window v hp rfl (by decide) (by decide)) ?_,
    fun h0 h64 => .of_exec (execRegisterWrite_window v hp rfl (by decide) (by decide)) ?_⟩
  · simp [State.writeWindow, part, fieldOf]
  · simp [State.writeWindow, part, fieldOf]
  · simp [State.writeWindow, part, fieldOf, h0, Nat.not_lt.2 h64]

/-! ### Resources of virtual functions -/

/-- The scratchpad of a die is zero. -/
def State.zeroed (s : State) (d : Nat) : Prop := (s.dieAt d).scratch = [] ∧ (s.dieAt d).scratchPoison = []

/-- Dies that change their owner: their scratchpads are zeroed, and no function changes. -/
theorem State.zeroDies_zeroes (s : State) (dies : BitVec 32) : (s.zeroDies dies).fns = s.fns ∧
    ∀ d < 32, dies.getLsbD d = true → (s.zeroDies dies).zeroed d := by
  unfold State.zeroDies
  have make (t : State) (d : Nat) : (t.setDie d { t.dieAt d with scratch := [], scratchPoison := [] }).zeroed d := by
    unfold State.zeroed
    rw [State.dieAt_setDie_self]
    exact ⟨rfl, rfl⟩
  refine ⟨?_, fun d hd hb => ?_⟩
  · refine foldl_field State.fns _ (fun t d => ?_) _ s
    rfl
  · refine foldl_reaches (fun d t => State.zeroed t d) _ make (fun t d k h => ?_) (List.mem_filter.2 ⟨List.mem_range.2 hd, hb⟩) s
    by_cases hk : k = d
    · subst hk
      exact make t k
    · unfold State.zeroed
      rw [State.dieAt_setDie_ne _ _ hk]
      exact h

theorem vfEnable_enables (s : State) (v : Word) (hp : s.phase = .ready) (h0 : s.vfsel ≠ 0) (h64 : s.vfsel ≤ 64)
    (hen : v.getLsbD 0 = true) (hrst : v.getLsbD 1 = false) (hoff : (s.fn s.vfsel).en = false) (hok : s.enRefused s.vfsel = false) :
    Answers (.vfEnable v) s fun t => t.fns = s.fns.put s.vfsel { s.fn s.vfsel with en := true, err := false } ∧
      ∀ d < 32, (s.fn s.vfsel).dies.getLsbD d = true → (t.dieAt d).scratch = [] ∧ (t.dieAt d).scratchPoison = [] := by
  have hw : s.writeVfctl v = (s.setFn s.vfsel { s.fn s.vfsel with en := true, err := false }).zeroDies (s.fn s.vfsel).dies := by
    unfold State.writeVfctl
    simp only [Nat.not_lt.2 h64, h0, hen, hrst, hoff, hok, if_true, if_false, Bool.false_eq_true, Bool.false_and]
  refine .of_exec (congrArg Host.Outcome.next (if_pos hp)) ?_
  rw [hw]
  exact State.zeroDies_zeroes ..

/-- A reset that starts changes the function named alone. -/
theorem State.resetStart_fns (s : State) (fn : Nat) :
    (s.resetStart fn).fns = s.fns.put fn { s.fn fn with reset := true, flr := false } := by
  unfold State.resetStart
  extract_lets _ t u
  have hu : u.fns = t.fns := by
    obtain ⟨ts, h⟩ := t.served_form fun e => e.2.cowOf fn
    show (t.served _).fns = _
    rw [h]
  have hr (w : State) (k : Nat) : (w.requestStop k).fns = w.fns := by
    unfold State.requestStop
    refine foldl_field State.fns _ (fun w j => ?_) _ w
    rfl
  refine (foldl_field State.fns _ (fun w e => hr w _) _ u).trans hu

theorem vfEnable_resets (s : State) (v : Word) (hp : s.phase = .ready) (h64 : s.vfsel ≤ 64) (hrst : v.getLsbD 1 = true)
    (hen : s.vfsel = 0 ∨ v.getLsbD 0 = (s.fn s.vfsel).en) (hno : (s.fn s.vfsel).resetting = false) :
    Answers (.vfEnable v) s fun t => (t.fn s.vfsel).reset = true ∧ ∀ k, k ≠ s.vfsel → (t.fn k).reset = (s.fn k).reset := by
  have hw : s.writeVfctl v = s.resetStart s.vfsel := by
    unfold State.writeVfctl
    by_cases h0 : s.vfsel = 0
    · simp only [Nat.not_lt.2 h64, if_false, if_pos h0, hrst, hno, Bool.not_false, Bool.and_self, if_true]
    · have he : v.getLsbD 0 = (s.fn s.vfsel).en := hen.resolve_left h0
      cases hb : (s.fn s.vfsel).en <;> rw [hb] at he <;>
        simp only [Nat.not_lt.2 h64, if_false, if_neg h0, he, hb, hrst, hno, Bool.not_false, Bool.and_self, if_true, Bool.false_eq_true]
  refine .of_exec (congrArg Host.Outcome.next (if_pos hp)) ?_
  rw [hw]
  unfold State.fn
  rw [s.resetStart_fns]
  exact ⟨by rw [Tab.getD_put_self], fun k hk => by rw [Tab.getD_put_ne _ _ _ hk]⟩

/-! ### BAR2 -/

/-- A BAR2 access whose pages all come to a place has not had to wait. -/
theorem State.bar2Places_undisturbed (fn slot : Nat) (kind : AccKind) (l : List (Nat × Nat)) {s t : State} {ps : List (Nat × Nat × Nat)}
    (h : State.bar2Places fn slot kind l s = (t, some ps)) : s.undisturbed t := by
  induction l generalizing s ps with
  | nil =>
    cases h
    exact .refl _
  | cons p l ih =>
    unfold State.bar2Places at h
    dsimp only at h
    split at h
    · cases h
    next dom key hp =>
      obtain ⟨hs, hl⟩ := Prod.mk.inj h
      obtain ⟨qs, hq, -⟩ := Option.map_eq_some_iff.1 hl
      exact (State.cpPlace_undisturbed fn slot p.1 kind 8 (Prod.ext rfl hp)).trans (ih (Prod.ext hs hq))

theorem State.askLoc_caches (s : State) (l : Loc) (n : Nat) : s.cachesMoved (s.askLoc l n) := by
  cases l with
  | frame dom key => exact s.homeRead_caches ..
  | scratch | die | slice => exact .refl s

section
variable {s : State} {fn off : Nat} (hp : s.phase = .ready) (hf : s.presented fn = true)
include hp hf

theorem bar2Read_aborts {n : Nat} (hn : n ≠ 0) (hl : off + n ≤ 2 ^ 36) (hc : s.slotCount fn = 0) :
    Answers (.bar2Read fn off n) s fun t => (t.fn fn).rabrt = min ((s.fn fn).rabrt + 1) 4294967295 ∧
      t.hostLog = s.hostLog ++ [.abort fn off] := by
  have he : execBar2Read fn off n s = .next (s.countAbort fn off) := by
    simp only [execBar2Read, hp, hf, hc, Nat.not_lt.2 hl, hn, Bool.not_true, Bool.false_eq_true, or_self, if_false, if_true]
  refine .of_exec he ⟨?_, rfl⟩
  exact congrArg Function.rabrt (State.fn_setFn_self ..)

theorem bar2Read_reads {n : Nat} (hn : n ≠ 0) (hl : off + n ≤ 2 ^ 36) (hc : s.slotCount fn ≠ 0) (hs : s.stalled = false) {u : State}
    {ps : List (Nat × Nat × Nat)} (hu : State.bar2Places fn (s.fn fn).qbase .read (s.bar2Pieces fn off n) s = (u, some ps))
    (hok : ∀ p ∈ ps, u.rangePoisoned p.1 p.2.2 = false) : Answers (.bar2Read fn off n) s fun t => t.mem = u.mem ∧
      t.hostLog = u.hostLog ++ [.data fn off (ps.flatMap fun p => u.readFrame p.2.1 p.1 p.2.2) false] := by
  have hbad : (ps.any fun p => u.rangePoisoned p.1 p.2.2) = false := List.any_eq_false.2 fun p hm => Bool.eq_false_iff.1 (hok p hm)
  generalize hw : ps.foldl (fun s p => s.askLoc (.frame p.1 p.2.1) p.2.2) u = w
  have hc' : u.cachesMoved w := hw ▸ .foldl _ (fun s p => s.askLoc_caches ..) ps u
  have he : execBar2Read fn off n s =
      .next (s.orLater (w.bump.tell (.data fn off (ps.flatMap fun p => u.readFrame p.2.1 p.1 p.2.2) false))) := by
    simp only [execBar2Read, hp, hf, hc, Nat.not_lt.2 hl, hn, Bool.not_true, Bool.false_eq_true, or_self, if_false, hu, hbad, hw]
  have hstall : (w.bump.tell (.data fn off (ps.flatMap fun p => u.readFrame p.2.1 p.1 p.2.2) false)).stalled = false := by
    have h1 := (State.bar2Places_undisturbed _ _ _ _ hu).2
    exact hc'.undisturbed.2.trans (h1.trans hs)
  rw [s.orLater_going hstall] at he
  have hm : w.mem = u.mem := (congrArg State.mem hc'.1 :)
  have hlog : w.hostLog = u.hostLog := (congrArg State.hostLog hc'.1 :)
  exact .of_exec he ⟨hm, congrArg (· ++ _) hlog⟩

theorem bar2Write_drops {bytes : List Byte} (hl : off + bytes.length ≤ 2 ^ 36) :
    Answers (.bar2Write fn off bytes true) s fun t => t.mem = s.mem ∧ (t.fn fn).wdrop = min ((s.fn fn).wdrop + 1) 4294967295 := by
  have he : execBar2Write fn off bytes true s = .next (s.countDrop fn) := by
    simp only [execBar2Write, hp, hf, Nat.not_lt.2 hl, Bool.not_true, Bool.false_eq_true, or_self, if_false, Bool.true_or, if_true]
  refine .of_exec he ⟨rfl, ?_⟩
  exact congrArg Function.wdrop (State.fn_setFn_self ..)

theorem bar2Write_writes {bytes : List Byte} (hl : off + bytes.length ≤ 2 ^ 36) (hc : s.slotCount fn ≠ 0) (hs : s.stalled = false)
    {p : Nat × Nat} {u : State} (hpc : s.bar2Pieces fn off bytes.length = [p])
    (hu : s.cpWrite fn (s.fn fn).qbase p.1 (bytes.take p.2) = (u, true)) : Answers (.bar2Write fn off bytes false) s fun t => t = u := by
  have he : execBar2Write fn off bytes false s = .next (s.orLater u) := by
    simp only [execBar2Write, hp, hf, Nat.not_lt.2 hl, Bool.not_true, Bool.false_eq_true, or_self, if_false, Bool.false_or, beq_iff_eq, hc,
      hpc, List.foldl_cons, List.foldl_nil, hu, Bool.true_and, if_true]
  rw [s.orLater_going ((State.cpWrite_undisturbed hu).2.trans hs)] at he
  exact .of_exec he rfl

end

/-- The staging window of the recovery state (spec/01 R24). -/
theorem bar2_recovery (s : State) (off n : Nat) (bytes : List Byte) (hp : s.phase = .recovery) :
    (Answers (.bar2Read 0 off n) s fun t =>
      t = { s with hostLog := s.hostLog ++ [.data 0 off (readZ s.rcv.staging off n) false] }) ∧
    (off + bytes.length ≤ 16777216 → Answers (.bar2Write 0 off bytes false) s fun t =>
      t = { s with rcv := { s.rcv with staging := writeZ s.rcv.staging off bytes } }) := by
  refine ⟨?_, fun hl => ?_⟩
  · have he : execBar2Read 0 off n s = .next (s.tell (.data 0 off (readZ s.rcv.staging off n) false)) := by
      simp only [execBar2Read, hp, if_true]
    exact .of_exec he rfl
  · have ht : bytes.take (16777216 - off) = bytes := List.take_of_length_le (by omega)
    have he : execBar2Write 0 off bytes false s = .next { s with rcv := { s.rcv with staging := writeZ s.rcv.staging off bytes } } := by
      simp only [execBar2Write, hp, ht, ne_eq, not_true_eq_false, Bool.false_eq_true, or_self, if_false]
    exact .of_exec he rfl

/-! ### Flushing reads (spec/02 R31; spec/08 R186) -/

/-- The value that a table lists for each key of a list. -/
theorem Tab.getD_map_mem {V : Type} (f : Nat → V) {ls : List Nat} {i : Nat} (h : i ∈ ls) (d : V) :
    Tab.getD (ls.map fun l => (l, f l)) i d = f i := by
  unfold Tab.getD
  induction ls with
  | nil => cases h
  | cons l ls ih =>
    rw [List.map_cons, Tab.get?]
    split
    next hi => rw [hi]; rfl
    next hi => exact ih ((List.mem_cons.1 h).resolve_left hi)

/-- The mask of a list of lanes has the bit of each of them. -/
theorem getLsbD_maskOf {ls : List Nat} {i : Nat} (hi : i < 32) (h : i ∈ ls) : (maskOf ls).getLsbD i = true := by
  unfold maskOf
  refine foldl_reaches (fun l (m : Mask) => l < 32 → m.getLsbD l = true) _ (fun m l hl => ?_) (fun m l k hm hl => ?_) h 0 hi
  · rw [BitVec.getLsbD_or, getLsbD_laneBit]
    simp [hl]
  · rw [BitVec.getLsbD_or, hm hl, Bool.true_or]

/-- Every lane of a fibre whose lanes all have an address at a flushing read traps when it fails. -/
theorem flushTrap_lanes {f : Fibre} {w : Flush} (h : ∀ i < 32, f.mask.getLsbD i = true → (w.addrs.get? i).isSome = true) :
    (flushTrap f w).lanes &&& f.mask = f.mask := by
  refine BitVec.eq_of_getLsbD_eq fun i hi => ?_
  show ((f.mask &&& maskOf (w.addrs.map Prod.fst)) &&& f.mask).getLsbD i = _
  rw [BitVec.getLsbD_and, BitVec.getLsbD_and]
  cases hb : f.mask.getLsbD i with
  | false => simp
  | true =>
    obtain ⟨a, ha⟩ := Option.isSome_iff_exists.1 (h i hi hb)
    simp [getLsbD_maskOf hi (List.mem_map_of_mem (f := Prod.fst) (Tab.mem_of_get? ha))]

/-- A trap in every lane of the one fibre of a group: the fibre goes on at the handler, in place of the one that trapped. -/
theorem State.takeTrap_lone (s : State) {k : Nat} {p : PendTrap} {lanes : Mask} {r : Resume} {f : Fibre} (hg : (s.group k).fibres = [f])
    (hp : p.fibre = f.id) (hl : lanes &&& f.mask = f.mask) (ht : f.trap = none) (hm : f.mask ≠ 0)
    (hv : tvecAddr (s.group k).tvec ≠ 0) : ∃ g ops engs y x,
      s.takeTrap k p lanes r = { s.setGroup k g with ops := ops, engs := engs } ∧ g.fibres = [y] ∧ y.trap = some x ∧ x.cause = p.cause ∧
        x.tsyn = p.tsyn ∧ x.tunit = p.tunit ∧ y.mask = f.mask ∧ y.at_ = { pc := tvecAddr (s.group k).tvec } := by
  have hf : (s.group k).fibre? p.fibre = some f := by
    unfold Group.fibre?
    rw [hg, hp, List.find?_cons_of_pos (by simp)]
  have hkept : ([f].filter fun x => x.id != f.id) = [] := by simp
  have hrest : f.mask &&& ~~~f.mask = 0 := by simp
  unfold State.takeTrap
  simp only [hf, hl, hm, ht, hv, hrest, hg, hkept, if_false, if_true, Option.isSome_none, Bool.false_or, beq_iff_eq, List.nil_append]
  exact ⟨_, _, _, _, _, rfl, rfl, rfl, rfl, rfl, rfl, rfl, rfl⟩

/-- The failure of a flushing read that the one fibre of a group awaits is a trap of that fibre. -/
theorem State.flushGroup_lone (s : State) {k id : Nat} (w : Flush) {f : Fibre} {l : List Nat} (hg : (s.group k).fibres = [f])
    (hf : f.kind = .faultWait l) (hl : id ∈ l) :
    s.flushGroup k id w false = s.takeTrap k (flushTrap f w) (flushTrap f w).lanes f.at_ := by
  unfold State.flushGroup
  rw [if_neg Bool.false_ne_true, hg, List.filter_cons_of_pos, List.filter_nil]
  · rfl
  · rw [hf]
    exact List.contains_iff_mem.2 hl

/-- The SIGNAL in hand of a slot retires. -/
theorem State.slotRetire_retires (s : State) {g n i : Nat} {b : Bool} (h : .signal n b i ∈ (s.slot g).busy) :
    let t := s.slotRetire g (.signal n b i)
    (t.slot g).busy = (s.slot g).busy.erase (.signal n b i) ∧ t.flushes = s.flushes ∧ t.hostMem = s.hostMem := by
  have hb : ((s.setSlot g { s.slot g with busy := (s.slot g).busy.erase (.signal n b i) }).slot g).busy =
      (s.slot g).busy.erase (.signal n b i) := congrArg QSlot.busy (State.slot_setSlot_self ..)
  unfold State.slotRetire
  dsimp only
  rw [if_pos (List.contains_iff_mem.2 h)]
  cases b with
  | true => exact ⟨hb, rfl, rfl⟩
  | false => exact ⟨hb, rfl, rfl⟩

/-- A slot stopped at the SIGNAL that it had in hand (spec/03 R57). -/
def QSlot.stopped (x : QSlot) (n : Nat) (b : Bool) (i : Nat) : QSlot :=
  { x with busy := x.busy.erase (.signal n b i), qhead := i, past := some x.qhead }

/-- The SIGNAL in hand of a slot that has not stopped fails: the slot stops there. -/
theorem State.slotFail_stops (s : State) {g n i : Nat} {b : Bool} {code : Nat} (h : .signal n b i ∈ (s.slot g).busy)
    (he : (s.slot g).err = 0) : let t := s.slotFail g (.signal n b i) code
    (t.slot g).err = code ∧ (t.slot g).qhead = i ∧ t.flushes = s.flushes ∧ t.mem = s.mem ∧ t.hostMem = s.hostMem := by
  intro t
  have ht : t = (s.setSlot g ((s.slot g).stopped n b i)).slotError g code true := by
    show s.slotFail g (.signal n b i) code = _
    unfold State.slotFail
    dsimp only
    rw [if_neg (by simpa using h), if_neg (by simp [he])]
    rfl
  have hq : t.slot g = { (s.slot g).stopped n b i with err := code, skip := true } := by
    rw [ht]
    refine (State.slot_setSlot_self ..).trans ?_
    rw [State.slot_setSlot_self]
  rw [hq, ht]
  exact ⟨rfl, rfl, rfl, rfl, rfl⟩

/-- The writes of a function that a flushing read does not follow. -/
def State.flushedPosts (s : State) (w : Flush) : Function :=
  { s.fn w.fn with posted := (s.fn w.fn).posted.filter fun p => decide (w.upTo < p.at_) }

/-- The fibres that await a flushing read note that they have had it. -/
theorem Group.flushDone_fibre (g : Group) (id i : Nat) {f : Fibre} (h : g.fibres[i]? = some f) :
    (g.flushDone id).fibres[i]? = some
      { f with flushed := f.flushed || (match f.kind with | .faultWait l => l.contains id | _ => false) } := by
  unfold Group.flushDone
  rw [List.getElem?_map, h, Option.map_some]
  obtain ⟨fid, mask, at_, kind⟩ := f
  cases kind with
  | faultWait l => by_cases hl : id ∈ l <;> simp [hl]
  | run | header | parked => simp

section
variable {s : State} {id : Nat} {w : Flush} (hw : s.flushes.get? id = some w)
include hw

theorem flushReadCompletion_group (hs : s.stalled = false) {k : Nat} (hk : w.group = some k) (hn : w.slot = none) :
    Answers (.flushReadCompletion id false) s fun t => t.flushes.get? id = none ∧
      (t.fn w.fn).posted = (s.fn w.fn).posted.filter (fun x => decide (w.upTo < x.at_)) ∧
      { t.group k with fibres := (s.group k).fibres } = s.group k ∧
      t.mem = s.mem ∧ ∀ (i : Nat) (f : Fibre), (s.group k).fibres[i]? = some f → (t.group k).fibres[i]? = some
        { f with flushed := f.flushed || (match f.kind with | .faultWait l => l.contains id | _ => false) } := by
  have he : s.endFlush id true =
      (({ s with flushes := s.flushes.erase id } : State).setFn w.fn (s.flushedPosts w)).setGroup k ((s.group k).flushDone id) := by
    simp only [State.endFlush, hw, hk, hn, if_true, Option.elim_some, Option.elim_none]
    rfl
  have hg : (s.endFlush id true).group k = (s.group k).flushDone id := by rw [he, State.group_setGroup_self]
  have hf : (s.endFlush id true).fn w.fn = s.flushedPosts w := by rw [he, State.fn_setGroup, State.fn_setFn_self]
  refine .of_exec (congrArg Host.Outcome.next (s.orLater_going (t := s.endFlush id true) ?_)) ⟨?_, ?_, ?_, ?_, fun i f h => ?_⟩
  · rw [he]
    exact hs
  · rw [he]
    exact Tab.get?_erase_self ..
  · rw [hf]
    rfl
  · rw [hg]
    rfl
  · rw [he]
    rfl
  · rw [hg]
    exact Group.flushDone_fibre _ id i h

theorem flushReadCompletion_signal (hs : s.stalled = false) {g : Nat} (hn : w.group = none) (hg : w.slot = some g)
    (hb : .signal id w.irq w.index ∈ (s.slot g).busy) (hh : w.host = true) :
    Answers (.flushReadCompletion id false) s fun t => t.flushes.get? id = none ∧
      (t.slot g).busy = (s.slot g).busy.erase (.signal id w.irq w.index) ∧
      t.hostMem = writeZ s.hostMem w.addr (leBytes 8 w.value.toNat) := by
  generalize hu : ({ ({ s with flushes := s.flushes.erase id } : State).setFn w.fn (s.flushedPosts w) with
      hostMem := writeZ s.hostMem w.addr (leBytes 8 w.value.toNat) } : State) = u
  have he : s.endFlush id true = u.slotRetire g (.signal id w.irq w.index) := by
    simp only [State.endFlush, hw, hn, hg, if_true, Option.elim_some, Option.elim_none, State.signalWrite, hh, ← hu]
    rfl
  have hslot : u.slot g = s.slot g := by rw [← hu]; rfl
  have hstall : u.stalled = false := by rw [← hu]; exact hs
  obtain ⟨hbusy, hflush, hmem⟩ := u.slotRetire_retires (g := g) (n := id) (b := w.irq) (i := w.index) (by rw [hslot]; exact hb)
  have hgo : (s.endFlush id true).stalled = false := by
    rw [he]
    exact (u.slotRetire_undisturbed g _).2.trans hstall
  refine .of_exec ((congrArg Host.Outcome.next (s.orLater_going hgo)).trans (congrArg Host.Outcome.next he)) ?_
  refine ⟨?_, hbusy.trans (by rw [hslot]), hmem.trans ?_⟩
  · rw [hflush, ← hu]
    exact Tab.get?_erase_self ..
  · rw [← hu]

theorem flushReadTimeout_signal {g : Nat} (hn : w.group = none) (hg : w.slot = some g)
    (hb : .signal id w.irq w.index ∈ (s.slot g).busy) (herr : (s.slot g).err = 0) :
    Answers (.flushReadTimeout id) s fun t => t.flushes.get? id = none ∧ (t.slot g).err = 6 ∧
      (t.slot g).qhead = w.index ∧ t.mem = s.mem ∧ t.hostMem = s.hostMem := by
  have he : s.endFlush id false = ({ s with flushes := s.flushes.erase id } : State).slotFail g (.signal id w.irq w.index) 6 := by
    simp only [State.endFlush, hw, hn, hg, if_false, Bool.false_eq_true, Option.elim_some, Option.elim_none]
  obtain ⟨he6, hq, hf, hm, hh⟩ := ({ s with flushes := s.flushes.erase id } : State).slotFail_stops (code := 6) hb herr
  refine .of_exec (congrArg Host.Outcome.next he) ⟨?_, he6, hq, hm, hh⟩
  rw [hf]
  exact Tab.get?_erase_self ..

theorem flushReadTimeout_group {k : Nat} (hk : w.group = some k) (hn : w.slot = none) {f : Fibre} {l : List Nat}
    (hg : (s.group k).fibres = [f]) (hf : f.kind = .faultWait l) (hl : id ∈ l) (ht : f.trap = none) (hm : f.mask ≠ 0)
    (hv : tvecAddr (s.group k).tvec ≠ 0) (ha : ∀ i < 32, f.mask.getLsbD i = true → (w.addrs.get? i).isSome = true) :
    Answers (.flushReadTimeout id) s fun t => t.flushes.get? id = none ∧ (t.fn w.fn).posted = (s.fn w.fn).posted ∧
      t.mem = s.mem ∧ ∃ y x, y ∈ (t.group k).fibres ∧ y.trap = some x ∧ x.cause = 7 ∧ x.tsyn = 1 ∧ y.mask = f.mask ∧
        y.at_ = { pc := tvecAddr (s.group k).tvec } ∧ ∀ i < 32, f.mask.getLsbD i = true → x.tunit.getD i 0 = w.addrs.getD i 0 := by
  have he : s.endFlush id false =
      ({ s with flushes := s.flushes.erase id } : State).takeTrap k (flushTrap f w) (flushTrap f w).lanes f.at_ := by
    simp only [State.endFlush, hw, hk, hn, if_false, Bool.false_eq_true, Option.elim_some, Option.elim_none]
    exact State.flushGroup_lone _ w hg hf hl
  obtain ⟨g', ops, engs, y, x, ht', hy, hx, hc, hsyn, hu, hmask, hat⟩ :=
    ({ s with flushes := s.flushes.erase id } : State).takeTrap_lone (k := k) (p := flushTrap f w) (r := f.at_) hg rfl
      (flushTrap_lanes ha) ht hm hv
  refine .of_exec (congrArg Host.Outcome.next (he.trans ht')) ⟨Tab.get?_erase_self .., rfl, rfl, y, x, ?_, hx, hc, hsyn, hmask, hat, fun i hi hb => ?_⟩
  · have hgr : ({ (({ s with flushes := s.flushes.erase id } : State).setGroup k g') with ops := ops, engs := engs } : State).group k = g' :=
      Tab.getD_put_self ..
    rw [hgr, hy]
    exact List.mem_singleton.2 rfl
  · rw [hu]
    exact Tab.getD_map_mem (fun l => w.addrs.getD l 0) (mem_lanesOf.2 ⟨hi, hb⟩) 0

end

/-! ### The statement -/

/-- The fields of QCTL where RESUME has no effect. -/
theorem QSlot.fields_of_not_goes (x : QSlot) (v : Word) (h : ¬(v.getLsbD 2 = true ∧ x.err ≠ 0)) :
    ({ x with err := if v.getLsbD 2 = true then 0 else x.err, loc := v.getLsbD 1, size := v.toNat / 2 ^ 4 % 2 ^ 4,
              prio := v.toNat / 2 ^ 8 % 2 ^ 3, vec := v.toNat / 2 ^ 16 % 2 ^ 6 } : QSlot) = x.fields v := by
  have he : (if v.getLsbD 2 = true then 0 else x.err) = x.err := by
    split
    next h2 => exact Decidable.byContradiction fun hn => h ⟨h2, fun e => hn e.symm⟩
    · rfl
  rw [he]
  rfl

theorem hostAtomicop_refused (s : State) (fn : Nat) (h : s.phase ≠ .off) :
    Answers (.hostAtomicop fn) s fun t => t = { s with hostLog := s.hostLog ++ [.unsupported fn] } :=
  .of_exec (congrArg Host.Outcome.next (if_neg h)) rfl

/-- Settles O53: each request of the host by the branch of its own event that the clause's hypotheses leave. -/
theorem hostRequestResults : Obligations.HostRequestResults := by
  intro s fn off n g id v bytes f
  refine ⟨fun hp hf => ⟨feataWrite_decides s fn v hp hf, ?_, fun hq hr hen => doorbell_rings s fn off n hp hf hq hr hen,
      registerWrite_qsel v hp hf, registerWrite_apbase v hp hf, fun hg => registerWrite_qbase v hp hf hg, errcntRead_clears hp hf,
      fun hn hl => ⟨bar2Read_aborts hp hf hn hl, fun hc hs u ps hu hok => bar2Read_reads hp hf hn hl hc hs hu hok⟩,
      fun hl => ⟨bar2Write_drops hp hf hl, fun hc hs p u hpc hu => bar2Write_writes hp hf hl hc hs hpc hu⟩⟩,
    fun hp => ?_, hostAtomicop_refused s fn, fun hp => bar2_recovery s off n bytes hp, fun w hw hs => ⟨fun k hk hn => ?_, fun hn hg hb => ?_⟩⟩
  · intro hg hr x goes y fits
    refine ⟨fun h => ?_, fun h hen => queueResume_resumes hp hf hg hr h hen⟩
    have hy : y = (s.slot g).fields v := x.fields_of_not_goes v h
    have hfits : fits = ((s.slot g).fields v).fits (s.fn fn).kcount := rfl
    rw [hfits, hy]
    exact queueEnable_writes hp hf hg hr h
  · obtain ⟨hvfsel, hgqsel, hvftb⟩ := registerWrite_windows s v hp
    exact ⟨hvfsel, hgqsel, fun h0 h64 => ⟨hvftb h0 h64, fun hen hrst hoff hok => vfEnable_enables s v hp h0 h64 hen hrst hoff hok⟩,
      fun h64 hrst hen hno => vfEnable_resets s v hp h64 hrst hen hno⟩
  · exact ⟨flushReadCompletion_group hw hs hk hn, fun f l hg hf hl ht hm hv ha => flushReadTimeout_group hw hk hn hg hf hl ht hm hv ha⟩
  · exact ⟨fun hh => flushReadCompletion_signal hw hs hn hg hb hh, fun herr => flushReadTimeout_signal hw hn hg hb herr⟩

end Sys2Proof.Machine
end

section
/-!
The state after power-good (spec/01 R22, R23), and the statement O58: each table of `State.reset` is empty, so that each of its entries has
the initial values of the entry's own fields.
-/

namespace Sys2Proof.Machine

open Sys2Proof

theorem State.fn_reset (f : Nat) : State.reset.fn f = {} := rfl

theorem State.slot_reset (g : Nat) : State.reset.slot g = {} := rfl

theorem State.keySlot_reset (k : Nat) : State.reset.keySlot k = {} := rfl

theorem State.coreAt_reset (c : Nat) : State.reset.coreAt c = {} := rfl

theorem State.link_reset (l : Nat) : State.reset.link l = {} := rfl

/-- Settles O58: the entries of the tables of `State.reset` are the initial ones, and its memory is in its form. -/
theorem resetValues : Obligations.ResetValues := by
  refine ⟨rfl, rfl, rfl, rfl, rfl, fun f => ?_, fun g => ?_, fun k => ?_, fun c => ?_, fun l => ?_,
    rfl, rfl, rfl, rfl, rfl, rfl, rfl, Tests.met_form⟩
  · rw [State.fn_reset]
    exact ⟨rfl, rfl, rfl, rfl, rfl, rfl, rfl, rfl, rfl⟩
  · rw [State.slot_reset]
    exact ⟨rfl, rfl, rfl, rfl⟩
  · rw [State.keySlot_reset]
    exact ⟨rfl, rfl⟩
  · rw [State.coreAt_reset]
    exact ⟨rfl, rfl, rfl, rfl, rfl, rfl, rfl⟩
  · rw [State.link_reset]

end Sys2Proof.Machine
end

section
/-!
The statement O54 (spec/02 R37, R45; spec/07 R146): it bounds no CAPG. Frame space whose CXL ports map more than their 1,024 GiB each runs on past
the 46 bits that a domain address has for a package's own memory, and what lies there another package serves.
-/

namespace Sys2Proof.Machine

open Sys2Proof

/-- The domain address of a frame address that 46 bits do not hold is not this package's own (spec/02 R37). -/
theorem State.isOwn_dom_of_le (s : State) {pa : Nat} (h : 2 ^ 46 ≤ pa) : s.isOwn (s.dom pa) = false := by
  simp only [State.isOwn, State.dom, beq_eq_false_iff_ne]
  omega

/-- A read at home of memory that is not this package's own is passed on to its package (spec/07 R152), beside the reply. -/
theorem State.serveRemote_read_outgoing (s : State) (slot n : Nat) {a : Nat} (h : s.isOwn a = false) :
    (s.serveRemote slot a (.read n)).outgoing =
      s.outgoing ++ [.request (a / 2 ^ 46) slot (frameAddr a) (.read n)] ++ [.reply (s.readFrame slot a n) (s.rangePoisoned a n)] := by
  simp [State.serveRemote, State.homeRead, h, State.send, State.sendRequest]

theorem State.serveRemote_read_stalled (s : State) (slot a n : Nat) : (s.serveRemote slot a (.read n)).stalled = s.stalled :=
  (s.homeRead_caches true slot a n).undisturbed.2

/-- Placing a frame for another package sends nothing. -/
theorem State.remotePlace_outgoing (s : State) (frame : Nat) : (s.remotePlace frame).outgoing = s.outgoing := by
  unfold State.remotePlace
  dsimp only
  split
  · rfl
  · split
    · rfl
    · split
      · rfl
      · split <;> rfl

/-- A read that another package asks for, where no frame is awaited: it is served once the frame rests. -/
theorem execRemoteRequest_read {s : State} {slot pa n : Nat} (hp : s.phase = .ready) (hf : pa < s.frameEnd)
    (hs : (s.remotePlace (pa / 65536)).stalled = false) :
    execRemoteRequest slot pa (.read n) s =
      .next ((s.remotePlace (pa / 65536)).serveRemote slot ((s.remotePlace (pa / 65536)).dom pa) (.read n)) := by
  have hn : ¬(s.frameEnd ≤ pa ∨ s.phase ≠ .ready) := by simp [hp, hf]
  simp only [execRemoteRequest, if_neg hn, hs, Bool.false_eq_true, if_false]
  rw [State.orLater_going]
  rw [State.serveRemote_read_stalled, hs]

/-- A read of frame space past the 46 bits, where no frame is awaited, sends two messages: a request of its own and the reply. -/
theorem remoteRequest_read_passedOn {s : State} {slot pa n : Nat} (hp : s.phase = .ready) (hf : pa < s.frameEnd)
    (hs : (s.remotePlace (pa / 65536)).stalled = false) (h : 2 ^ 46 ≤ pa) :
    Answers (.remoteRequest slot pa (.read n)) s fun t => t.outgoing.length = s.outgoing.length + 2 := by
  refine .of_exec (execRemoteRequest_read hp hf hs) ?_
  rw [State.serveRemote_read_outgoing _ slot n (State.isOwn_dom_of_le _ h), State.remotePlace_outgoing]
  simp

/-- A package in service with one CXL port whose CAPG is 65,536 GiB, 64 times the most that R45 allows. -/
def overmapped : State := { State.reset with phase := .ready, links := [(linkNum (.cxl 0), { up := true, capg := 65536 })] }

theorem overmapped_frameEnd : 2 ^ 46 < overmapped.frameEnd := by decide

theorem overmapped_atRest : overmapped.atRest := ⟨rfl, fun _ => rfl⟩

theorem overmapped_places : (overmapped.remotePlace (2 ^ 46 / 65536)).stalled = false := by decide

/-- Refutes O54: nothing in it bounds CAPG, and in `overmapped` frame space runs on past 2^46, where `State.dom` names the next package. A read of
one byte there sends a request to that package as well as the reply, where the statement has the reply alone. -/
theorem not_linkAndSessionEvents : ¬ Obligations.LinkAndSessionEvents := by
  unfold Obligations.LinkAndSessionEvents
  intro h
  obtain ⟨-, -, -, hremote, -⟩ := h overmapped .host false 0 (2 ^ 46) 0 0 0 0
  obtain ⟨hread, -⟩ := hremote rfl overmapped_frameEnd overmapped_atRest rfl
  obtain ⟨t, ht, -, -, hone⟩ := hread 1
  obtain ⟨u, hu, htwo⟩ := remoteRequest_read_passedOn (slot := 0) (n := 1) rfl overmapped_frameEnd overmapped_places (Nat.le_refl _)
  cases ht.symm.trans hu
  rw [hone] at htwo
  simp at htwo

end Sys2Proof.Machine
end

section
/-!
The statement O49 (spec/08 R186): it finds the writes that a SIGNAL covers by the slot that made them or by their place in order, where the model has the
place in order alone. Nothing in it says that no two writes stand at one place; where two do, the two last writes differ.
-/

namespace Sys2Proof.Machine

open Sys2Proof

/-- A SIGNAL to address 0 of frame space. -/
def signalCommand : Command := { opc := 3, fence := false, irq := false, a0 := 0, a1 := 0, a2 := 0, reserved := false }

/-- A package in service whose queue slot 0 has a SIGNAL at QHEAD, read from host memory; of two writes to host memory at one place in order, the
first is of a COPY of slot 0 and the second of another slot. -/
def twicePosted : State :=
  { State.reset with
    phase := .ready,
    fns := [(0, { qcount := 2, posted := [{ at_ := 0, addr := 0, slot := 0 }, { at_ := 0, addr := 64, slot := 1 }] })],
    slots := [(0, { en := true, size := 4, tail := 1 })],
    hostMem := [(0, 3)] }

theorem twicePosted_command : commandOf (readZ twicePosted.hostMem 0 64) = signalCommand := by decide

theorem twicePosted_heads : twicePosted.heads twicePosted 0 3 signalCommand :=
  ⟨⟨rfl, fun _ => rfl⟩, rfl, by decide, ⟨_, rfl, twicePosted_command⟩, by decide, rfl, fun _ => rfl⟩

/-- The fence of the SIGNAL makes its slot know of the place in order, and the flushing read follows the last write that stands there. -/
theorem signal_twicePosted : Answers (.signal 0) twicePosted fun t => (t.flushes.get? 1).map Flush.read = some 64 :=
  ⟨_, rfl, by decide⟩

/-- Refutes O49: nothing in it keeps two writes to host memory from one place in order, and in `twicePosted` the flushing read of a SIGNAL goes to the
second of two, address 64, where the statement has it at the first, the last of its own slot, address 0. -/
theorem not_queueCommandResults : ¬ Obligations.QueueCommandResults := by
  unfold Obligations.QueueCommandResults
  intro h
  obtain ⟨-, -, -, hsignal, -⟩ := h twicePosted twicePosted 0 signalCommand
  obtain ⟨t, ht, -, -, -, hflush⟩ := hsignal twicePosted_heads (.inr (by decide))
  obtain ⟨u, hu, hread⟩ := signal_twicePosted
  cases ht.symm.trans hu
  rw [hflush] at hread
  exact absurd hread (by decide)

end Sys2Proof.Machine
end

section
/-!
The statement O50 (spec/11 R252; spec/02 R37, R45; spec/07 R146): as in O54, nothing in it bounds CAPG. A frame past the 46 bits that a domain address has for a
package's own memory lies with another package, and what a stop writes of an image into such a frame leaves as a request.
-/

namespace Sys2Proof.Machine

open Sys2Proof

/-! ### Images in frames of other packages -/

/-- A write at home to memory that is not this package's own leaves memory as it was. -/
theorem State.homeWrite_mem_of_foreign (s : State) (k : Nat) {a : Nat} (bs : List Byte) (h : s.isOwn a = false) :
    (s.homeWrite k a bs).mem = s.mem := by
  obtain ⟨o, ho⟩ := s.setMarks_moves (.frame a k) bs.length [] .past
  have hown : ({ s with order := o } : State).isOwn a = false := h
  simp [State.homeWrite, ho, State.writeRange, hown, State.sendRequest, State.send]

theorem State.writeImage_mem_of_foreign (s : State) (key : Nat) {fs : List Nat} (bs : List Byte) (h : ∀ f ∈ fs, 2 ^ 46 ≤ 65536 * f) :
    (s.writeImage key fs bs).mem = s.mem := by
  unfold State.writeImage
  generalize 0 = n
  induction fs generalizing s n with
  | nil => rfl
  | cons f fs ih =>
    rw [List.zipIdx_cons, List.foldl_cons, ih _ (fun g hg => h g (List.mem_cons_of_mem _ hg))]
    exact s.homeWrite_mem_of_foreign _ _ (s.isOwn_dom_of_le (h f List.mem_cons_self))

/-- A stop whose image goes to such frames leaves memory as it was. -/
theorem State.stopTeam_mem_of_foreign (s : State) (t : Nat) {fs : List Nat} (image : List Byte) (h : ∀ f ∈ fs, 2 ^ 46 ≤ 65536 * f) :
    (s.stopTeam t fs image).mem = s.mem := by
  refine (foldl_field State.mem _ (fun _ _ => ?_) _ _).trans ?_
  · rfl
  · simp only [State.bump_mem, State.setCore_mem, State.setTeam_mem, State.writeImage_mem_of_foreign _ _ _ h]
    rfl

/-! ### The length of an image (spec/11 R253) -/

theorem leBytes_length (n x : Nat) : (leBytes n x).length = n := by
  induction n generalizing x with
  | zero => rfl
  | succ n ih => exact congrArg (· + 1) (ih _)

theorem words8_length (l : List Nat) : (words8 l).length = 8 * l.length := by
  simp [words8, leBytes_length, Nat.mul_comm]

theorem sized_length (n : Nat) (bs : List Byte) : (sized n bs).length = max n bs.length := by
  simp only [sized, List.length_append, List.length_replicate]
  omega

theorem Handle.record_length (h : Handle) : h.record.length = 32 := words8_length _

theorem State.teamHeader_length (s : State) (t : Nat) : (s.teamHeader t).length = 512 := by
  simp [State.teamHeader, sized_length, words8_length]

/-- The image of a team that has no tiles, scratchpad, queue entries or groups is its header and its handles. -/
theorem State.imageOf_length (s : State) (t : Nat) (hacc : (s.team t).acc = 0) (hscr : (s.team t).scrBytes = 0)
    (hwaits : s.waitingEntries t = []) (hgroups : s.liveGroups t = []) : (s.imageOf t).length = 2560 := by
  simp [State.imageOf, State.teamHeader_length, Handle.record_length, hacc, hscr, hwaits, hgroups, readZ, natsFrom, sortBy]

/-! ### The statement -/

/-- `overmapped` with a team without groups that is asked to stop, and a MEMQ of 1 GiB. -/
def overmappedStop : State :=
  { overmapped with fns := [(0, { memq := 1 })], teams := [(0, { stopReq := true })] }

/-- The highest frame of its frame space. -/
def topFrame : Nat := overmapped.frameEnd / 65536 - 1

theorem topFrame_foreign : 2 ^ 46 ≤ 65536 * topFrame := by decide

theorem overmappedStop_mayStop : overmappedStop.mayStop 0 = true := by decide

theorem overmappedStop_image : ((overmappedStop.freeFull 0).imageOf 0).length = 2560 :=
  State.imageOf_length _ 0 rfl rfl rfl rfl

/-- What its stop leaves of it once it has taken the one frame that its image needs. -/
def overmappedTaken : State := { overmappedStop with placed := [(topFrame, .stack 0)] }

theorem overmappedStop_takes :
    overmappedStop.takeFrames 0 ((((overmappedStop.freeFull 0).imageOf 0).length + 65535) / 65536) = some ([topFrame], overmappedTaken) := by
  rw [overmappedStop_image]
  decide

/-- The stop leaves memory empty. -/
theorem teamStop_overmapped : Answers (.teamStop 0) overmappedStop fun t => t.mem = [] := by
  refine .of_exec (t := overmappedTaken.stopTeam 0 [topFrame] ((overmappedStop.freeFull 0).imageOf 0)) (congrArg Host.Outcome.next ?_)
    (State.stopTeam_mem_of_foreign _ 0 _ (List.forall_mem_singleton.2 topFrame_foreign))
  have htakes : overmappedStop.takeFrames (overmappedStop.inst (overmappedStop.team 0).inst).fn
      ((((overmappedStop.freeFull 0).imageOf 0).length + 65535) / 65536) = some ([topFrame], overmappedTaken) := overmappedStop_takes
  simp only [overmappedStop_mayStop, htakes, Bool.not_true, Bool.false_eq_true, if_false]

/-- Refutes O50: nothing in it bounds CAPG, and the image of the team of `overmappedStop` goes to a frame past 2^46, where `State.dom` names the next
package: the bytes leave as a request, and none of them stands in memory, where the statement has them all. -/
theorem not_gridEventResults : ¬ Obligations.GridEventResults := by
  unfold Obligations.GridEventResults
  intro h
  obtain ⟨-, -, -, -, -, -, hstop, -⟩ := h overmappedStop 0 0 0 false
  obtain ⟨t, ht, -, -, -, -, himage⟩ := hstop [topFrame] overmappedTaken overmappedStop_mayStop overmappedStop_takes
  have hfirst := himage rfl rfl (List.nodup_singleton _) 0 topFrame 0 rfl (by decide) (overmappedStop_image.symm ▸ by decide)
  obtain ⟨u, hu, hmem⟩ := teamStop_overmapped
  cases ht.symm.trans hu
  rw [hmem, Tab.get?_nil, eq_comm, List.getElem?_eq_none_iff, overmappedStop_image] at hfirst
  exact absurd hfirst (by decide)

end Sys2Proof.Machine
end

section
/-!
The statement O51 (spec/09 R207, R208): it counts two p that are not equal as a mismatch of an audit, and NaN equals nothing, itself included. The model
takes two NaN for the same p.
-/

namespace Sys2Proof.Machine

open Sys2Proof

/-- A product in audit of a register row that starts with a bf16 NaN, and one column; it was accepted with its one p, NaN. -/
def nanProduct : MmaOp :=
  { tile := 0, fmt := .bf16, rows := 1, cols := 1, regs := [0xC0, 0x7F] ++ List.replicate 4094 0, aDesc := 0, bDesc := 0, space := .sp,
    aOff := 0, bOff := 0, gt := false, i := 0, j := 0, kk := 0, mode := .checked, limit := 2, addr := 0, audited := true, ps := [.nan false] }

def nanAudit : EngOp := { kind := .mma nanProduct, core := 0, team := 0, slot := 0, fn := 0 }

/-- A team of one group, whose scratchpad holds zeros, with that audit in progress. -/
def auditsNan : State :=
  { State.reset with phase := .ready, teams := [(0, { scrBytes := 4096 })], groups := [(0, {})], engs := [(1, nanAudit)] }

/-- The replay gives the same p. -/
theorem auditsNan_replay :
    let o := (auditsNan.mmaOperands nanAudit nanProduct).1
    nanProduct.ps = ((List.range 64).filter fun i => o.rows.getLsbD i).flatMap fun i =>
      ((List.range 64).filter fun j => o.cols.getLsbD j).map fun j => o.p (o.realWrongs []) i j := by
  decide

/-- The model notes no mismatch: it takes the two NaN for the same p. -/
theorem auditEnd_auditsNan : Answers (.auditEnd 1 []) auditsNan fun t => t.group 0 = {} :=
  ⟨_, rfl, by decide⟩

/-- Refutes O51: in `auditsNan` the replay gives the p of the accepted attempt, and the audit only ends, where the statement has a mismatch noted for the
group, since the one NaN is not equal to itself. -/
theorem not_engineEventResults : ¬ Obligations.EngineEventResults := by
  unfold Obligations.EngineEventResults
  intro h
  obtain ⟨hengs, -⟩ := h auditsNan 1 0 0 (.stack 0) .read
  obtain ⟨-, -, -, -, -, haudit, -⟩ := hengs nanAudit rfl
  obtain ⟨-, hmiss⟩ := haudit nanProduct [] rfl rfl rfl
  obtain ⟨t, ht, -, k, hdue, -⟩ :=
    hmiss 0 {} (.nan false) (.nan false) rfl (congrArg (·[0]?) auditsNan_replay).symm rfl rfl rfl rfl
  obtain ⟨u, hu, hgroup⟩ := auditEnd_auditsNan
  cases ht.symm.trans hu
  have hnone : ([] : List Due) = [] ++ [.audit k] := (congrArg Group.due hgroup).symm.trans hdue
  cases hnone

end Sys2Proof.Machine
end

section
/-!
What the command processor's accesses to memory change: memory and what caches it, and for a service the handles that it paused. At rest none of
them has to wait (spec/01 R26; spec/07 R148).
-/

namespace Sys2Proof.Machine

open Sys2Proof

/-! ### Memory alone -/

/-- A state with the memory of another, its caches and what they note, its placement, and what has left for other packages. -/
def State.withMemoryOf (t s : State) : State :=
  { t with mem := s.mem, units := s.units, healed := s.healed, dir := s.dir, sectors := s.sectors, tlb := s.tlb, poison := s.poison,
           outgoing := s.outgoing, cores := s.cores, keys := s.keys, fns := s.fns, placed := s.placed, advice := s.advice, order := s.order,
           free := s.free }

/-- Nothing else has changed. -/
def State.memoryMoved (s t : State) : Prop := t.withMemoryOf s = s

theorem State.memoryMoved.refl (s : State) : s.memoryMoved s := rfl

theorem State.memoryMoved.trans {s t u : State} (h : s.memoryMoved t) (k : t.memoryMoved u) : s.memoryMoved u :=
  (congrArg (fun x : State => x.withMemoryOf s) k :).trans h

theorem State.memoryMoved.foldl {α : Type} (f : State → α → State) (h : ∀ (s : State) (x : α), s.memoryMoved (f s x)) (l : List α) (s : State) :
    s.memoryMoved (l.foldl f s) :=
  foldl_keeps s.memoryMoved f (fun t x ht => ht.trans (h t x)) l (.refl s)

theorem State.cachesMoved.memory {s t : State} (h : s.cachesMoved t) : s.memoryMoved t :=
  (congrArg (fun x : State => x.withMemoryOf s) h.1 :)

theorem State.writePart_memory (s : State) (k dom : Nat) (bs : List Byte) : s.memoryMoved (s.writePart k dom bs) := by
  unfold State.writePart
  split <;> rfl

theorem State.writeFrame_memory (k n : Nat) (s : State) (dom : Nat) (bs : List Byte) : s.memoryMoved (s.writeFrame k n dom bs) := by
  induction n generalizing s dom bs with
  | zero => exact .refl s
  | succ n ih =>
    unfold State.writeFrame
    dsimp only
    split
    · exact .refl s
    · refine State.memoryMoved.trans ?_ (ih _ _ _)
      split
      · rfl
      · exact s.writePart_memory ..

theorem State.writeRange_memory (s : State) (k dom : Nat) (bs : List Byte) : s.memoryMoved (s.writeRange k dom bs) := by
  unfold State.writeRange
  split
  · exact State.writeFrame_memory ..
  · exact (s.sendRequest_caches ..).memory

theorem State.homeWrite_memory (s : State) (k dom : Nat) (bs : List Byte) : s.memoryMoved (s.homeWrite k dom bs) := by
  refine (s.setMarks_moves (.frame dom k) bs.length [] .past).caches.memory.trans ?_
  unfold State.homeWrite
  dsimp only
  split
  · exact ((State.evictRange_stores ..).caches.memory.trans (State.writeRange_memory ..)).trans (State.touchRange_stores ..).caches.memory
  · exact State.writeRange_memory ..

theorem State.poisonUnit_memory (s : State) (dom : Nat) : s.memoryMoved (s.poisonUnit dom) := by
  unfold State.poisonUnit
  split <;> rfl

theorem State.dropLeaves_memory (s : State) (p : TlbEntry → Bool) : s.memoryMoved (s.dropLeaves p) := rfl

theorem State.setFn_memory (s : State) (n : Nat) (f : Function) : s.memoryMoved (s.setFn n f) := rfl

theorem State.modTele_memory (s : State) (k : Nat) (f : Telemetry → Telemetry) : s.memoryMoved (s.modTele k f) := rfl

/-! ### The services of an access (spec/03 R63; spec/07 R147) -/

theorem State.placeFrame_memory (s : State) (frame fn entry : Nat) (p : Place) : s.memoryMoved (s.placeFrame frame fn entry p) := by
  unfold State.placeFrame
  split <;> rfl

theorem State.restSource_memory (s : State) (fn e frame : Nat) : s.memoryMoved (s.restSource fn e frame) := by
  unfold State.restSource
  split
  · exact s.placeFrame_memory ..
  · exact .refl s

theorem State.takeFrame_memory {s t : State} {f : Nat} (h : s.takeFrame = some (f, t)) : s.memoryMoved t := by
  unfold State.takeFrame at h
  obtain ⟨_, -, h⟩ := Option.bind_eq_some_iff.mp h
  obtain ⟨_, -, h⟩ := Option.map_eq_some_iff.mp h
  cases h
  rfl

theorem State.copyFrame_memory (s : State) (k j src dst : Nat) : s.memoryMoved (s.copyFrame k j src dst) :=
  ((s.homeRead_caches ..).memory.trans (State.homeWrite_memory ..)).trans (.foldl _ (fun s _ => s.poisonUnit_memory _) _ _)

theorem State.putEntry_memory (s : State) (entry e : Nat) : s.memoryMoved (s.putEntry entry e) := by
  refine (s.evictLine_stores (lineOf (s.dom entry))).caches.memory.trans (.trans ?_ (State.touchUnit_stores ..).caches.memory)
  rfl

theorem State.cowDone_memory (s : State) (slot fn entry frame key : Nat) : s.memoryMoved (s.cowDone slot fn entry frame key) := by
  have hr := s.restSource_memory fn (s.entryAt entry) frame
  unfold State.cowDone
  extract_lets _ u
  split
  · exact hr
  · split
    · exact hr
    next f t ht =>
      have hb (k j : Nat) : t.memoryMoved ((t.copyFrame key j frame (t.dom (65536 * f))).putEntry entry k) :=
        (t.copyFrame_memory ..).trans (State.putEntry_memory ..)
      exact (hr.trans (State.takeFrame_memory ht)).trans
        (((hb _ _).trans (State.dropLeaves_memory ..)).trans ((State.setFn_memory ..).trans (State.modTele_memory ..)))

/-! ### At rest nothing waits (spec/01 R26; spec/07 R148) -/

theorem State.atRest.placeDown {s : State} (h : s.atRest) (f : Nat) (p : Place) : s.placeDown f p = false := by
  cases p with
  | stack d => exact h.2 d
  | cxl n => exact h.2 ⟨f % 16, Nat.mod_lt _ (by decide)⟩

theorem State.atRest.frameWaits {s : State} (h : s.atRest) (f : Nat) : s.frameWaits f = false := by
  have hd : s.placeDown f = fun _ => false := funext (h.placeDown f)
  simp [State.frameWaits, h.1, hd]

theorem State.atRest.restWaits {s : State} (h : s.atRest) (f fn e : Nat) (p : Place) : s.restWaits f fn e p = false := by
  by_cases hr : (s.restPlace f fn e p).isNone = true
  · simp only [State.restWaits, hr, Bool.true_and, List.any_eq_false]
    intro q hq hok
    unfold State.restPlace at hr
    dsimp only at hr
    split at hr
    · cases hr
    · exact List.find?_eq_none.1 (Option.isNone_iff_eq_none.1 hr) q hq (by simp [hok, h.placeDown])
  · simp [State.restWaits, hr]

theorem State.atRest.cowWaits {s : State} (h : s.atRest) (fn entry frame : Nat) : s.cowWaits fn entry frame = false := by
  simp [State.cowWaits, h.frameWaits, h.restWaits]

theorem State.atRest.rested_ne_stall {s : State} (h : s.atRest) (e pa : Nat) (ok : Place → Bool) {k : Walk} (hk : k ≠ .stall) :
    s.rested e pa ok k ≠ .stall := by
  unfold State.rested
  rw [h.frameWaits, if_neg Bool.false_ne_true]
  split
  · exact hk
  · split <;> simp

theorem State.atRest.upPlace_isSome {s : State} (h : s.atRest) (f : Nat) {l : List Place} (hl : l.isEmpty = false) :
    (s.upPlace f l).isNone = false := by
  cases l with
  | nil => cases hl
  | cons p l => simp [State.upPlace, h.placeDown]

theorem State.atRest.cowWalk_ne_stall {s : State} (h : s.atRest) (fn entry e key : Nat) : s.cowWalk fn entry e key ≠ .stall := by
  unfold State.cowWalk
  split
  · simp
  · split
    · simp
    · split
      · simp
      · split
        · simp
        · split
          · simp
          · split
            · simp
            next hroom =>
              rw [h.upPlace_isSome _ (Bool.eq_false_of_not_eq_true hroom), if_neg Bool.false_ne_true]
              simp

theorem State.atRest.leafWalk_ne_stall {s : State} (h : s.atRest) (fn va : Nat) (kind : AccKind) (entry e : Nat) :
    leafWalk s fn va kind entry e ≠ .stall := by
  unfold leafWalk
  dsimp only
  split
  · simp
  · split
    · simp
    · split
      · split
        · exact h.cowWalk_ne_stall _ _ _ _
        · simp
      · split
        · split <;> simp
        · split
          · simp
          · exact h.rested_ne_stall _ _ _ (by simp)

theorem State.atRest.tableBar_ne_stall {s : State} (h : s.atRest) (at_ : Nat) : s.tableBar at_ ≠ some .stall := by
  unfold State.tableBar
  dsimp only
  rw [h.frameWaits, if_neg Bool.false_ne_true]
  split
  · simp
  · split
    · split <;> simp
    · split
      · simp
      · split <;> simp

/-- What each step of a structural recursion keeps, its values have. A proof about `leafFrom` goes by this: through the function's equations the
kernel would count up to the end of a frame. -/
theorem brecOn_keeps {motive : Nat → Type} (F : ∀ n, Nat.below (motive := motive) n → motive n) (P : ∀ n, motive n → Prop)
    (zero : ∀ f, P 0 (F 0 f)) (succ : ∀ n (f : Nat.below (motive := motive) (n + 1)), P n f.1 → P (n + 1) (F (n + 1) f)) (n : Nat) :
    P n (Nat.brecOn n F) := by
  induction n with
  | zero => exact zero _
  | succ n ih => exact succ n _ ih

theorem State.atRest.leafFrom_ne_stall {s : State} (h : s.atRest) (fn va lvl tab k : Nat) :
    leafFrom s fn va lvl tab k ≠ .error .stall := by
  revert tab k
  delta leafFrom
  refine brecOn_keeps (motive := fun _ => Nat → Nat → Except Walk (Nat × Nat)) (leafFrom._f s fn va)
    (fun _ r => ∀ tab k, r tab k ≠ .error .stall) (fun f tab k => ?_) (fun n f ih tab k => ?_) lvl
  · simp [leafFrom._f]
  · dsimp -zeta only [leafFrom._f]
    have hbar := h.tableBar_ne_stall
    obtain ⟨bar, hb⟩ : ∃ bar, s.tableBar = bar := ⟨_, rfl⟩
    rw [hb] at hbar ⊢
    split
    · simp
    · dsimp only
      split
      next w hw => exact fun hs => hbar _ (hw.trans (congrArg some (Except.error.inj hs)))
      next =>
        split
        · simp
        · split
          · simp
          · split
            · exact ih _ _
            · simp

/-- A walk at rest does not end in a wait for a frame. -/
theorem State.atRest.walk_ne_stall {s : State} (h : s.atRest) (fn g va : Nat) (kind : AccKind) : walk s fn g va kind ≠ .stall := by
  unfold walk
  split
  next w hw =>
    rintro rfl
    unfold leafOf at hw
    split at hw
    · cases hw
    · exact h.leafFrom_ne_stall _ _ _ _ _ hw
  next => exact h.leafWalk_ne_stall _ _ _ _ _

end Sys2Proof.Machine
end

section
/-!
What submissions and the ends of instances and runs leave as it stands (spec/04 R68 to R73, R83): windows, time, and the word in hand with its registers.
-/

namespace Sys2Proof.Machine

open Sys2Proof

/-! ### What goes on beside the scheduler -/

/-- A clause in hand but for what its end does to its fibres. -/
def Issue.unended (it : Issue) : Issue := { it with term := [] }

/-- A group but for where its fibres stand. -/
def Group.placeless (g : Group) : Group := { g with fibres := [], expn := 0 }

/-- What submissions and the ends of instances and of runs leave alone: the windows, the time, what an access may have to wait for, the word in
hand, and the registers of every group. -/
structure Standing where
  windows : List Window
  time : Nat
  moving : Tab Place
  memDies : Tab MemDie
  issue : Option Issue
  groups : Nat → Group

def State.standing (s : State) : Standing :=
  { windows := s.windows, time := s.time, moving := s.moving, memDies := s.memDies,
    issue := (s.quarter s.cur).issue.map Issue.unended, groups := fun g => (s.group g).placeless }

/-- All of it stands as it stood, and where no access has to wait, none was found to. -/
def State.carriesOn (s t : State) : Prop := t.standing = s.standing ∧ (s.atRest → t.stalled = s.stalled)

theorem State.carriesOn.refl (s : State) : s.carriesOn s := ⟨rfl, fun _ => rfl⟩

theorem State.carriesOn.atRest {s t : State} (h : s.carriesOn t) (hs : s.atRest) : t.atRest :=
  ⟨(congrArg Standing.moving h.1 :).trans hs.1, by
    have hm : t.memDies = s.memDies := (congrArg Standing.memDies h.1 :)
    rw [hm]
    exact hs.2⟩

theorem State.carriesOn.trans {s t u : State} (h : s.carriesOn t) (k : t.carriesOn u) : s.carriesOn u :=
  ⟨k.1.trans h.1, fun hs => (k.2 (h.atRest hs)).trans (h.2 hs)⟩

theorem State.carriesOn.foldl {α : Type} (f : State → α → State) (h : ∀ (s : State) (x : α), s.carriesOn (f s x)) (l : List α) (s : State) :
    s.carriesOn (l.foldl f s) :=
  foldl_keeps s.carriesOn f (fun t x ht => ht.trans (h t x)) l (.refl s)

theorem State.memoryMoved.carriesOn {s t : State} (h : s.memoryMoved t) : s.carriesOn t :=
  ⟨(congrArg State.standing h :), fun _ => (congrArg State.stalled h :)⟩

theorem State.memoryMoved.insts {s t : State} (h : s.memoryMoved t) : t.insts = s.insts := (congrArg State.insts h :)

theorem State.orderMoved.carriesOn {s t : State} (h : s.orderMoved t) : s.carriesOn t := h.caches.memory.carriesOn

theorem State.learn_carriesOn (s : State) (p : Who) (xs : NatSet) : s.carriesOn (s.learn p xs) := (s.learn_moves p xs).carriesOn

theorem State.learn_insts (s : State) (p : Who) (xs : NatSet) : (s.learn p xs).insts = s.insts := (s.learn_moves p xs).caches.memory.insts

/-- The windows changed on both sides. -/
theorem State.carriesOn.withWindows {s t : State} (h : s.carriesOn t) (ws : List Window) :
    State.carriesOn { s with windows := ws } { t with windows := ws } :=
  ⟨(congrArg (fun x : Standing => { x with windows := ws }) h.1 :), h.2⟩

/-! #### What they leave of the word in hand -/

section
variable {s t : State} (h : s.carriesOn t)
include h

theorem State.carriesOn.windows : t.windows = s.windows := (congrArg Standing.windows h.1 :)

theorem State.carriesOn.time : t.time = s.time := (congrArg Standing.time h.1 :)

theorem State.carriesOn.issuing : t.issuing = s.issuing := by
  simpa [State.standing, State.issuing] using congrArg (fun x : Standing => x.issue.isSome) h.1

theorem State.carriesOn.it : t.it.unended = s.it.unended := by
  have hi (u : State) : u.it.unended = u.standing.issue.getD Issue.idle := by
    unfold State.it State.standing
    cases (u.quarter u.cur).issue <;> rfl
  rw [hi, hi, h.1]

theorem State.carriesOn.mine : t.mine.placeless = s.mine.placeless := by
  have hg : t.it.group = s.it.group := (congrArg Issue.group h.it :)
  unfold State.mine
  rw [hg]
  exact (congrArg (fun x : Standing => x.groups s.it.group) h.1 :)

theorem State.carriesOn.clean (hc : s.clean) (hs : s.atRest) : t.clean := by
  obtain ⟨h1, h2, h3, h4, h5, h6, h7⟩ := hc
  exact ⟨h.issuing.trans h1, (congrArg Issue.traps h.it :).trans h2, (congrArg Issue.waits h.it :).trans h3,
    (congrArg Issue.late h.it :).trans h4, (congrArg Issue.held h.it :).trans h5, (h.2 hs).trans h6, (congrArg Issue.turns h.it :).trans h7⟩

end

/-! ### Accesses of the command processor -/

theorem State.serveNow_carriesOn (s : State) (fn slot va : Nat) (w : Walk) : s.carriesOn (s.serveNow fn slot va w) := by
  refine ⟨?_, fun _ => (s.serveNow_undisturbed fn slot va w).2⟩
  cases w with
  | cow entry frame key =>
    obtain ⟨_, h⟩ := s.served_form fun e => e.2.sharesPage slot va
    refine (State.cowDone_memory _ slot fn entry frame key).carriesOn.1.trans ?_
    rw [h]
    rfl
  | place frame e => exact (s.placeFrame_memory ..).carriesOn.1
  | ok | fail | barred | poison | stall => rfl

theorem State.cpPlace_carriesOn (fn slot va : Nat) (kind : AccKind) (n : Nat) (s : State) :
    s.carriesOn (State.cpPlace fn slot va kind n s).1 ∧ (State.cpPlace fn slot va kind n s).1.insts = s.insts := by
  induction n generalizing s with
  | zero => exact ⟨.refl s, rfl⟩
  | succ n ih =>
    have hw := (s.walked_caches 1152 fn slot va).memory
    have hserve (w : Walk) : s.carriesOn (State.cpPlace fn slot va kind n ((s.walked 1152 fn slot va).serveNow fn slot va w)).1 ∧
        (State.cpPlace fn slot va kind n ((s.walked 1152 fn slot va).serveNow fn slot va w)).1.insts = s.insts :=
      ⟨hw.carriesOn.trans ((State.serveNow_carriesOn ..).trans (ih _).1),
        (ih _).2.trans ((State.serveNow_undisturbed ..).1.trans hw.insts)⟩
    have hstall (hno : ¬s.atRest) : s.carriesOn { s.walked 1152 fn slot va with stalled := true } ∧
        ({ s.walked 1152 fn slot va with stalled := true } : State).insts = s.insts :=
      ⟨⟨hw.carriesOn.1, fun hs => absurd hs hno⟩, hw.insts⟩
    unfold State.cpPlace
    dsimp only
    split
    · exact ⟨hw.carriesOn, hw.insts⟩
    · exact ⟨hw.carriesOn, hw.insts⟩
    · exact ⟨hw.carriesOn, hw.insts⟩
    · exact ⟨hw.carriesOn, hw.insts⟩
    next hstop => exact hstall fun hs => hs.walk_ne_stall _ _ _ _ hstop
    · split
      next hwait => exact hstall fun hs => by simp [hs.cowWaits] at hwait
      next => exact hserve _
    · split
      next hwait => exact hstall fun hs => by simp [hs.restWaits] at hwait
      next => exact hserve _

theorem State.cpRead_carriesOn (s : State) (fn slot va n : Nat) : s.carriesOn (s.cpRead fn slot va n).1 ∧ (s.cpRead fn slot va n).1.insts = s.insts := by
  obtain ⟨hp, hi⟩ := State.cpPlace_carriesOn fn slot va .read 8 s
  unfold State.cpRead
  dsimp only
  split
  · exact ⟨hp, hi⟩
  next dom key _ =>
    have hr := ((State.cpPlace fn slot va .read 8 s).1.homeRead_caches true key dom n).memory
    split
    · exact ⟨hp.trans hr.carriesOn, hr.insts.trans hi⟩
    · exact ⟨hp.trans hr.carriesOn, hr.insts.trans hi⟩

theorem State.cpWrite_carriesOn (s : State) (fn slot va : Nat) (bs : List Byte) (ms : List Mark) :
    s.carriesOn (s.cpWrite fn slot va bs ms).1 ∧ (s.cpWrite fn slot va bs ms).1.insts = s.insts := by
  obtain ⟨hp, hi⟩ := State.cpPlace_carriesOn fn slot va .write 8 s
  unfold State.cpWrite
  dsimp only
  split
  · exact ⟨hp, hi⟩
  next dom key _ =>
    have hw := ((State.cpPlace fn slot va .write 8 s).1.homeWrite_memory key dom bs).trans
      (State.setMarks_moves _ (.frame dom key) bs.length ms .past).caches.memory
    exact ⟨hp.trans hw.carriesOn, hw.insts.trans hi⟩

theorem State.readTcb_carriesOn (s : State) (fn slot blk : Nat) : s.carriesOn (s.readTcb fn slot blk).1 := by
  unfold State.readTcb
  split
  · exact .refl s
  · exact (s.cpRead_carriesOn ..).1

theorem State.writeStat_carriesOn (s : State) (i : Instance) (xs : NatSet) (st : InstState) (reason : Nat) (tfail : Bool) :
    s.carriesOn (s.writeStat i xs st reason tfail) := (s.cpWrite_carriesOn ..).1

theorem State.writeStat_insts (s : State) (i : Instance) (xs : NatSet) (st : InstState) (reason : Nat) (tfail : Bool) :
    (s.writeStat i xs st reason tfail).insts = s.insts := (s.cpWrite_carriesOn ..).2

/-! ### Waits that end -/

/-- What a change of every value of a table keeps of each, one looked up has still. -/
theorem Tab.view_getD_map {V W : Type} (view : V → W) (f : Nat × V → V) (h : ∀ e, view (f e) = view e.2) (t : Tab V) (n : Nat) (d : V) :
    view (Tab.getD (List.map (fun e => (e.1, f e)) t) n d) = view (t.getD n d) := by
  unfold Tab.getD
  induction t with
  | nil => rfl
  | cons e t ih =>
    rw [List.map_cons, Tab.get?, Tab.get?]
    split
    · exact h e
    · exact ih

theorem State.wakeWhere_carriesOn (s : State) (p : Nat → Fibre → Wait → Bool) (upd : Fibre → Fibre) : s.carriesOn (s.wakeWhere p upd) := by
  have hissue : ((s.wakeWhere p upd).quarter s.cur).issue.map Issue.unended = (s.quarter s.cur).issue.map Issue.unended := by
    refine Tab.view_getD_map (fun q : Quarter => q.issue.map Issue.unended) _ (fun e => ?_) s.quarters s.cur {}
    dsimp only
    split
    next it h => rw [h]; rfl
    next => rfl
  have hgroup (g : Nat) : ((s.wakeWhere p upd).group g).placeless = (s.group g).placeless := by
    refine Tab.view_getD_map Group.placeless _ (fun e => ?_) s.groups g {}
    dsimp only
    split <;> rfl
  exact ⟨congrArg₂ (fun i g => ({ s.standing with issue := i, groups := g } : Standing)) hissue (funext hgroup), fun _ => rfl⟩

theorem State.setTeam_carriesOn (s : State) (t : Nat) (x : Team) : s.carriesOn (s.setTeam t x) := ⟨rfl, fun _ => rfl⟩

theorem State.setTape_carriesOn (s : State) (t : Nat) (x : Tape) : s.carriesOn (s.setTape t x) := ⟨rfl, fun _ => rfl⟩

theorem State.fillHandle_carriesOn (s : State) (t h : Nat) (x : Handle) : s.carriesOn (s.fillHandle t h x) :=
  (s.setTeam_carriesOn ..).trans (State.wakeWhere_carriesOn ..)

theorem State.freeHandle_carriesOn (s : State) (t h : Nat) (x : Handle) : s.carriesOn (s.freeHandle t h x) :=
  (s.setTeam_carriesOn ..).trans (State.wakeWhere_carriesOn ..)

theorem State.informWaiting_moves (s : State) (p : Nat → Fibre → Wait → Bool) (xs : NatSet) : s.orderMoved (s.informWaiting p xs) := by
  unfold State.informWaiting
  split
  · exact .refl s
  · refine foldl_keeps s.orderMoved _ (fun t e ht => foldl_keeps s.orderMoved _ (fun u f hu => ?_) _ ht) _ (.refl s)
    split
    · exact hu.trans (u.inform_moves ..)
    · exact hu

theorem State.acquired_carriesOn (s : State) (core : Nat) (acq : Bool) : s.carriesOn (s.acquired core acq) := by
  unfold State.acquired
  split
  · exact ⟨rfl, fun _ => rfl⟩
  · exact .refl s

/-! ### The ends of runs and instances (spec/04 R73, R83) -/

theorem State.ranUntil_carriesOn (s : State) (t : Nat) (r : TapeRun) : s.carriesOn (s.ranUntil t r) := by
  have hl := s.learn_carriesOn (.handle r.team r.handle) (s.known (.tape t))
  unfold State.ranUntil
  dsimp only
  split
  · exact (hl.trans (State.informWaiting_moves ..).carriesOn).trans (State.acquired_carriesOn ..)
  · exact hl

theorem State.endRun_carriesOn (s : State) (t : Nat) (gone : Bool) : s.carriesOn (s.endRun t gone) := by
  unfold State.endRun
  extract_lets x u v
  have hv : u.carriesOn v := by
    dsimp only [v]
    split
    · exact .refl u
    · split
      · exact .refl u
      · split
        · exact u.freeHandle_carriesOn ..
        · exact (u.ranUntil_carriesOn ..).trans (State.fillHandle_carriesOn ..)
  exact ((s.setTape_carriesOn ..).trans hv).trans (v.forget_moves _).carriesOn

theorem State.slotRetire_carriesOn (s : State) (g : Nat) (w : SlotWork) : s.carriesOn (s.slotRetire g w) := by
  unfold State.slotRetire
  dsimp only
  split
  · split <;> split <;> exact ⟨rfl, fun _ => rfl⟩
  · exact .refl s

theorem State.afterFail_carriesOn (s : State) (e : Ended) : s.carriesOn (s.afterFail e) := by
  unfold State.afterFail
  split
  · exact .refl s
  next id _ =>
    extract_lets isIt u
    have hu : s.carriesOn u := by
      dsimp only [u]
      split
      · exact (s.learn_carriesOn ..).trans (State.slotRetire_carriesOn ..)
      · exact .refl s
    split
    · split
      · exact (hu.trans (u.learn_carriesOn ..)).trans (State.endRun_carriesOn ..)
      · exact hu
    · exact hu

theorem State.formSet_carriesOn (s : State) (fn gsid : Nat) : s.carriesOn (s.formSet fn gsid) := by
  unfold State.formSet
  dsimp only
  split
  · exact .refl s
  · split
    · exact .refl s
    · exact ⟨rfl, fun _ => rfl⟩

theorem State.makeReady_carriesOn (s : State) (id : Nat) : s.carriesOn (s.makeReady id) := by
  refine State.carriesOn.trans (State.carriesOn.trans ?_ (State.writeStat_carriesOn ..)) (State.formSet_carriesOn ..)
  exact ⟨rfl, fun _ => rfl⟩

theorem State.ending_carriesOn (s : State) (id reason : Nat) : s.carriesOn (s.ending id reason).1 := ⟨rfl, fun _ => rfl⟩

theorem State.successors_carriesOn (s : State) (e : Ended) : s.carriesOn (s.successors e).1 := by
  unfold State.successors
  extract_lets b now skip r
  split
  · exact .refl s
  · have hr : s.carriesOn r.1 :=
      foldl_keeps (fun acc : State × List (Option Nat) => s.carriesOn acc.1) _ (fun acc k h => h.trans (acc.1.cpRead_carriesOn ..).1) _ (.refl s)
    split <;> exact hr

theorem State.decrement_carriesOn (s : State) (fn addr : Nat) (failed : Bool) : s.carriesOn (s.decrement fn addr failed).1 := by
  unfold State.decrement
  dsimp only
  split
  · split
    · exact .refl s
    · exact ⟨rfl, fun _ => rfl⟩
  · split
    · exact ⟨rfl, fun _ => rfl⟩
    · exact .refl s

theorem State.drain_carriesOn (n : Nat) (s : State) (l out : List Ended) : s.carriesOn (State.drain n s l out).1 := by
  induction n generalizing s l out with
  | zero => exact .refl s
  | succ n ih =>
    cases l with
    | nil => exact .refl s
    | cons e rest =>
      unfold State.drain
      extract_lets st u r d _ v z
      have hd : s.carriesOn d.1 := by
        refine foldl_keeps (fun acc : State × Bool × List Nat => s.carriesOn acc.1) _ (fun acc a h => ?_) _
          ((s.writeStat_carriesOn ..).trans (u.successors_carriesOn e))
        split
        · exact h
        · split
          · exact h
          · exact (h.trans (acc.1.learn_carriesOn ..)).trans (State.decrement_carriesOn ..)
      have hv : s.carriesOn v := by
        dsimp only [v]
        split
        · exact hd.trans (d.1.writeStat_carriesOn ..)
        · exact hd
      have hz : s.carriesOn z.1 := by
        refine foldl_keeps (fun acc : State × List Ended => s.carriesOn acc.1) _ (fun acc k h => ?_) _ hv
        dsimp only
        split
        · exact h.trans (acc.1.ending_carriesOn k 6)
        · exact h.trans (acc.1.makeReady_carriesOn ..)
      exact hz.trans (ih ..)

theorem State.failAll_carriesOn (s : State) (e : Ended) : s.carriesOn (s.failAll e) :=
  (s.drain_carriesOn ..).trans (.foldl _ State.afterFail_carriesOn _ _)

theorem State.rejected_carriesOn (s : State) (e : Ended) : s.carriesOn (s.rejected e) := by
  unfold State.rejected
  split
  · exact s.writeStat_carriesOn ..
  · exact s.failAll_carriesOn e

/-! ### Submissions (spec/04 R68, R70, R71, R79) -/

theorem State.writeTable_carriesOn (fn slot at_ : Nat) (l : List Word) (s : State) (c : Nat) : s.carriesOn (s.writeTable fn slot at_ l c).1 := by
  induction l generalizing s c with
  | nil => exact .refl s
  | cons p l ih =>
    unfold State.writeTable
    dsimp only
    split
    · exact (s.cpWrite_carriesOn ..).1.trans (ih _ _)
    · exact (s.cpWrite_carriesOn ..).1

theorem State.freeCredit_carriesOn (s : State) (fn blk : Nat) : s.carriesOn (s.freeCredit fn blk) := ⟨rfl, fun _ => rfl⟩

theorem State.submit_carriesOn (s : State) (o : Submission) (tcb : Option Tcb) : s.carriesOn (s.submit o tcb).1 := by
  unfold State.submit
  split
  · exact .refl s
  · split
    · exact s.freeCredit_carriesOn ..
    next b =>
      extract_lets i after fails w c u j id v x
      have hfails (t : State) (k : Nat) : t.carriesOn (fails t k).1 := by
        dsimp only [fails]
        split
        · exact .refl t
        · exact (t.freeCredit_carriesOn ..).trans (State.forget_moves ..).carriesOn
      have hu : s.carriesOn u := (s.writeTable_carriesOn ..).trans (State.freeCredit_carriesOn ..)
      split
      · exact hfails s _
      · split
        · exact hu.trans (hfails u 1)
        · split
          · exact hu.trans (hfails u 6)
          · have hx : s.carriesOn x := (hu.trans (u := v) ⟨rfl, fun _ => rfl⟩).trans (v.learn_carriesOn ..)
            dsimp only
            split
            · exact hx.trans (x.makeReady_carriesOn ..)
            · exact hx.trans (x.writeStat_carriesOn ..)

end Sys2Proof.Machine
end

section
/-!
The aggregator's windows (spec/04 R85, R86): what submitting one leaves of the table, and where a child offered goes.
-/

namespace Sys2Proof.Machine

open Sys2Proof

/-! ### Windows (spec/04 R85, R86) -/

/-- A window closed, if it is `w`. -/
def Window.closedIf (w x : Window) : Window := if x = w then { x with closed := true } else x

/-- A window submitted leaves the table, or waits there, closed. -/
theorem State.submitWindow_form (s : State) (w : Window) : ∃ ws, (ws = s.windows.erase w ∨ ws = s.windows.map w.closedIf) ∧
    State.carriesOn { s with windows := ws } (s.submitWindow w) := by
  unfold State.submitWindow
  extract_lets gone y
  have hy : gone.carriesOn y.1 := gone.submit_carriesOn ..
  split
  · exact ⟨_, .inr rfl, .refl _⟩
  · exact ⟨_, .inl rfl, hy⟩
  · exact ⟨_, .inl rfl, hy.trans (y.1.forget_moves _).carriesOn⟩
  · exact ⟨_, .inl rfl, hy.trans (y.1.rejected_carriesOn _)⟩

/-- An open window of a function's block. -/
def Window.takes (fn blk : Nat) (w : Window) : Bool := w.fn == fn && w.blk == blk && !w.closed

theorem Window.takes_iff {fn blk : Nat} {w : Window} : w.takes fn blk = true ↔ w.fn = fn ∧ w.blk = blk ∧ w.closed = false := by
  simp [Window.takes, and_assoc]

/-- A child that its window still takes. -/
theorem State.offerChild_of_takes {s : State} {fn blk : Nat} {w : Window} (slot : Nat) (sup : Bool) (prio : Nat) (p : Word)
    (hf : s.windows.find? (Window.takes fn blk) = some w) (hteams : (w.children.length + 1) * w.tcb.elim 1 (·.teams) ≤ 4294967296)
    (ht : s.time < w.opened + 2000) :
    s.offerChild fn slot blk sup prio p =
      let w' := { w with children := w.children ++ [p] }
      let t : State := { s with windows := s.windows.map fun x => if x = w then w' else x }
      if w'.children.length = 64 then t.submitWindow w' else t := by
  have hpast : ¬(decide (4294967296 < (w.children.length + 1) * w.tcb.elim 1 (·.teams)) || decide (w.opened + 2000 ≤ s.time)) = true := by
    simp [hteams, ht]
  have hg : s.windows.find? (fun w : Window => w.fn == fn && w.blk == blk && !w.closed) = some w := hf
  unfold State.offerChild
  simp only [hg, hpast, if_false, Bool.false_eq_true]

/-- The state in which a function has room for a window. -/
def State.windowRoom (s : State) (fn : Nat) : State :=
  match s.openWindows fn with
  | w :: rest => if 16 ≤ rest.length + 1 then s.submitWindow w else s
  | [] => s

/-- A child for which a window opens. -/
theorem State.offerChild_of_none {s : State} {fn blk : Nat} (slot : Nat) (sup : Bool) (prio : Nat) (p : Word)
    (hf : s.windows.find? (Window.takes fn blk) = none) :
    s.offerChild fn slot blk sup prio p =
      let b := (s.windowRoom fn).readTcb fn slot blk
      { b.1 with windows := b.1.windows ++
          [{ fn := fn, blk := blk, tcb := b.2, children := [p], opened := b.1.time, slot := slot, sup := sup, prio := prio }] } := by
  have hg : s.windows.find? (fun w : Window => w.fn == fn && w.blk == blk && !w.closed) = none := hf
  unfold State.offerChild
  simp only [hg]
  rfl

/-- The open windows of a function once one of its windows is submitted: all but that one. -/
theorem State.submitWindow_open (s : State) {w : Window} {fn : Nat} (hw : w.fn = fn) : ∃ ws,
    State.carriesOn { s with windows := ws } (s.submitWindow w) ∧
      (({ s with windows := ws } : State).openWindows fn = (s.openWindows fn).erase w ∨
        ({ s with windows := ws } : State).openWindows fn = (s.openWindows fn).filter fun x => decide (x ≠ w)) ∧
      ws.filter (fun x => x.fn != fn) = s.windows.filter fun x => x.fn != fn := by
  obtain ⟨ws, hws, hc⟩ := s.submitWindow_form w
  refine ⟨ws, hc, ?_⟩
  rcases hws with rfl | rfl
  · have hne : w ∉ s.windows.filter fun x => x.fn != fn := by simp [hw]
    refine ⟨.inl (List.erase_filter ..).symm, ?_⟩
    rw [← List.erase_filter, List.erase_of_not_mem hne]
  · refine ⟨.inr ?_, ?_⟩
    · unfold State.openWindows
      dsimp only
      generalize s.windows = l
      induction l with
      | nil => rfl
      | cons x l ih =>
        by_cases hx : x = w
        · simp [Window.closedIf, hx, ih]
        · by_cases hp : x.fn = fn ∧ x.closed = false <;> simp_all [Window.closedIf]
    · generalize s.windows = l
      induction l with
      | nil => rfl
      | cons x l ih =>
        by_cases hx : x = w
        · simp [Window.closedIf, hx, hw, ih]
        · simp [Window.closedIf, hx, List.filter_cons, ih]

/-- The windows of a list that holds every open window of a function, submitted one by one: none is open any more. -/
theorem State.submitAll_closes {fn : Nat} (l : List Window) (hl : ∀ w ∈ l, w.fn = fn) (s : State) (hs : (s.openWindows fn).Sublist l) :
    ∃ ws, State.carriesOn { s with windows := ws } (l.foldl State.submitWindow s) ∧ ({ s with windows := ws } : State).openWindows fn = [] ∧
      ws.filter (fun x => x.fn != fn) = s.windows.filter fun x => x.fn != fn := by
  induction l generalizing s with
  | nil => exact ⟨s.windows, .refl s, List.sublist_nil.1 hs, rfl⟩
  | cons w l ih =>
    obtain ⟨vs, hv, hopen, hother⟩ := s.submitWindow_open (hl w List.mem_cons_self)
    have hvs : (s.submitWindow w).windows = vs := hv.windows
    have hsub : ((s.submitWindow w).openWindows fn).Sublist l := by
      have ho : (s.submitWindow w).openWindows fn = ({ s with windows := vs } : State).openWindows fn := congrArg (List.filter _) hvs
      rw [ho]
      rcases hopen with h | h
      · rw [h]
        simpa using hs.erase w
      · rw [h]
        exact (hs.filter _).trans (by simp)
    obtain ⟨ws, hw, hnone, hrest⟩ := ih (fun x hx => hl x (List.mem_cons_of_mem _ hx)) (s.submitWindow w) hsub
    rw [hvs] at hrest
    exact ⟨ws, (hv.withWindows ws).trans hw, hnone, hrest.trans hother⟩

theorem State.windowRoom_room {s : State} {fn : Nat} (h : (s.openWindows fn).length < 16) : s.windowRoom fn = s := by
  unfold State.windowRoom
  split
  next w rest hw =>
    rw [hw, List.length_cons] at h
    exact if_neg (by omega)
  · rfl

/-- The oldest of 16 windows makes room. -/
theorem State.windowRoom_full {s : State} {fn : Nat} {w : Window} {rest : List Window} (h : s.openWindows fn = w :: rest)
    (hn : rest.length = 15) (hw : w ∉ rest) : ∃ ws, State.carriesOn { s with windows := ws } (s.windowRoom fn) ∧
      ({ s with windows := ws } : State).openWindows fn = rest := by
  have hfn : w.fn = fn := by
    have hm : w ∈ s.openWindows fn := h ▸ List.mem_cons_self
    simpa using (Bool.and_eq_true_iff.1 (List.mem_filter.1 hm).2).1
  have hr : s.windowRoom fn = s.submitWindow w := by
    unfold State.windowRoom
    rw [h]
    exact if_pos (by omega)
  obtain ⟨ws, hc, hopen, -⟩ := s.submitWindow_open hfn
  refine ⟨ws, hr ▸ hc, ?_⟩
  rw [h] at hopen
  rcases hopen with ho | ho
  · simpa using ho
  · rw [ho, List.filter_cons_of_neg (by simp)]
    exact List.filter_eq_self.2 fun x hx => decide_eq_true fun he => hw (he ▸ hx)

end Sys2Proof.Machine
end

section
/-!
LAUNCH, LAGG and LFLUSH (spec/18 R401, R402), and the statement O41.
-/

namespace Sys2Proof

theorem Answers.imp {i : Instr} {s : Machine.State} {P Q : Machine.State → Prop} (h : Answers i s P) (hpq : ∀ t, P t → Q t) : Answers i s Q :=
  Exists.imp (fun t ht => ⟨ht.1, hpq t ht.2⟩) h

end Sys2Proof

namespace Sys2Proof.Machine

open Sys2Proof

/-! ### The words -/

/-- An address of programs that is reached leaves what its translation leaves. -/
theorem State.reach_caches (s : State) (lane a n : Nat) (kind : AccKind) {l : Loc} :
    (s.reach (.space .virt) lane a n kind).2 = .ok l → s.cachesMoved (s.reach (.space .virt) lane a n kind).1 := by
  unfold State.reach
  dsimp only
  split
  · exact fun _ => (s.walked_caches ..).trans (State.cacheLeaf_caches ..)
  · exact nofun
  · exact nofun
  · exact nofun
  · exact nofun
  · exact nofun

/-- So does a range of them that passes its check. -/
theorem State.reachRange_caches (s : State) (a n : Nat) (kind : AccKind) :
    (s.reachRange .virt a n kind).bad = none → s.cachesMoved (s.reachRange .virt a n kind).st := by
  refine foldl_keeps (fun r : Ranged => r.bad = none → s.cachesMoved r.st) _ (fun r p hr => ?_) _ fun _ => .refl s
  dsimp only
  split
  · exact hr
  next hnone =>
    split
    next l hl => exact fun _ => (hr hnone).trans (r.st.reach_caches 0 p.1 p.2 kind hl)
    next => exact nofun

theorem State.checkRange_caches (s : State) (ea : Word) (align n : Nat) (kind : AccKind) :
    (s.checkRange .virt ea align n kind).bad = none → s.cachesMoved (s.checkRange .virt ea align n kind).st := by
  unfold State.checkRange
  split
  · exact nofun
  · dsimp only
    split
    · split
      · exact s.reachRange_caches _ _ _
      · exact nofun
    · exact s.reachRange_caches _ _ _

/-- An access word of the one fibre that issues, whose run meets no trap and no wait. -/
theorem accessEach_next {s v : State} {m : Fibre} {f : Fibre → Group → State → MRes} {ws : List GWrite} (h : s.lone m)
    (hf : f m s.regs s = { st := v, writes := ws }) (hv : v.clean) : accessEach s f = .next (v.commit ws) := by
  obtain ⟨⟨-, -, -, -, -, -, hturns⟩, hparts⟩ := h
  have hf : f m s.it.snap s = { st := v, writes := ws } := hf
  have := accessEach_lone s m f hparts hturns (by rw [hf]; exact hv) (by rw [hf]) (by rw [hf])
  rwa [hf] at this

/-- Register writes change the groups and what the quarters note. -/
theorem State.commit_rest {s : State} (h : s.clean) (ws : List GWrite) : { s.commit ws with groups := s.groups, quarters := s.quarters } = s :=
  (State.commit_only s ws h.1).1

theorem State.commit_insts {s : State} (h : s.clean) (ws : List GWrite) : (s.commit ws).insts = s.insts :=
  (congrArg State.insts (State.commit_rest h ws) :)

theorem State.commit_windows {s : State} (h : s.clean) (ws : List GWrite) : (s.commit ws).windows = s.windows :=
  (congrArg State.windows (State.commit_rest h ws) :)

theorem State.commit_teams {s : State} (h : s.clean) (ws : List GWrite) : (s.commit ws).teams = s.teams :=
  (congrArg State.teams (State.commit_rest h ws) :)

theorem State.commit_time {s : State} (h : s.clean) (ws : List GWrite) : (s.commit ws).time = s.time :=
  (congrArg State.time (State.commit_rest h ws) :)

theorem State.commit_nil_mine {s : State} (h : s.clean) : (s.commit []).mine = s.mine := by
  obtain ⟨hi, -, -, -, -, -, ht⟩ := h
  exact State.commit_mine s [] hi ht

theorem State.commit_c_mine {s : State} (h : s.clean) (id n : Nat) (b : Bool) : (s.commit [.c id n b]).mine = s.mine.write (.c id n b) := by
  obtain ⟨hi, -, -, -, -, -, ht⟩ := h
  exact State.commit_mine s [.c id n b] hi ht

/-- A condition bit written to 1 is 1 in its fibre. -/
theorem Group.write_c_bit (g : Group) (id : Nat) (n : CReg) :
    ∀ f ∈ (g.write (.c id n.val true)).fibres, f.id = id → f.c.getLsbD n.val = true := by
  intro f hf hid
  obtain ⟨x, -, rfl⟩ := List.mem_map.1 (show f ∈ g.fibres.map _ from hf)
  dsimp only at hid ⊢
  split at hid
  next hx =>
    rw [if_pos hx]
    show (x.c ||| BitVec.ofNat 8 (2 ^ n.val)).getLsbD n.val = true
    rw [BitVec.getLsbD_or, BitVec.getLsbD_ofNat, Nat.testBit_two_pow_self, Bool.and_true, decide_eq_true n.isLt, Bool.or_true]
  next hx => exact absurd (beq_iff_eq.2 hid) hx

/-! ### LAGG (spec/18 R402) -/

/-- What a child offered by LAGG does to the windows, whatever its check leaves of the caches, the word does. -/
theorem lagg_windows {s : State} {m : Fibre} {a b : SReg} (h : s.lone m) (hr : s.atRest)
    (hb : (s.checkRange .virt (s.regs.sreg a.val) 256 256 .read).bad = none) {P : List Window → Prop}
    (ho : ∀ u : State, u.windows = s.windows → u.time = s.time → ∃ ws, P ws ∧ State.carriesOn { u with windows := ws }
      (u.offerChild (s.inst s.myInst).fn (s.inst s.myInst).slot (s.regs.sreg a.val).toNat (s.inst s.myInst).sup (s.inst s.myInst).prio
        (s.regs.sreg b.val))) :
    Answers (.lagg a b) s fun t => t.mine.s = s.mine.s ∧ P t.windows ∧ t.time = s.time := by
  have hu := s.checkRange_caches (s.regs.sreg a.val) 256 256 .read hb
  have hi : (s.checkRange .virt (s.regs.sreg a.val) 256 256 .read).st.inst (s.checkRange .virt (s.regs.sreg a.val) 256 256 .read).st.myInst =
      s.inst s.myInst := (congrArg (fun x : State => x.inst x.myInst) hu.1 :)
  have hsu : s.carriesOn (s.checkRange .virt (s.regs.sreg a.val) 256 256 .read).st := hu.memory.carriesOn
  obtain ⟨ws, hP, hv⟩ := ho _ hsu.windows hsu.time
  have hsv := (hsu.withWindows ws).trans hv
  generalize hw : State.offerChild _ _ _ _ _ _ _ = v at hv hsv
  have hl := hsv.trans (v.learn_carriesOn (.window (s.inst s.myInst).fn (s.regs.sreg a.val).toNat) (v.knows v.it.group m.mask))
  have hc := hl.clean (s := { s with windows := ws }) h.1 hr
  refine .of_exec (t := State.commit _ []) (accessEach_next h ?_ hc) ⟨?_, ?_, ?_⟩
  · show (match (s.checkRange .virt (s.regs.sreg a.val) 256 256 .read).bad with | some _ => _ | none => _) = _
    rw [hb]
    dsimp only
    rw [hi, hw]
  · rw [State.commit_nil_mine hc]
    exact (congrArg Group.s hl.mine :)
  · rw [State.commit_windows hc, hl.windows]
    exact hP
  · rw [State.commit_time hc]
    exact hl.time

/-- The first open window of a function's block, where it stands. -/
theorem Window.find_takes {fn blk : Nat} {w : Window} {pre post : List Window} (hw : w.takes fn blk = true)
    (hpre : ∀ y ∈ pre, y.takes fn blk = false) : (pre ++ w :: post).find? (Window.takes fn blk) = some w := by
  rw [List.find?_append, List.find?_eq_none.2 fun y hy => by simp [hpre y hy]]
  simp [hw]

/-- A window replaced, where it stands. -/
theorem Window.map_replaces {w w' : Window} {pre post : List Window} (hne : ∀ y ∈ pre ++ post, y ≠ w) :
    (pre ++ w :: post).map (fun x => if x = w then w' else x) = pre ++ w' :: post := by
  have hkeep (l : List Window) (hl : ∀ y ∈ l, y ≠ w) : l.map (fun x => if x = w then w' else x) = l :=
    (List.map_congr_left fun y hy => if_neg (hl y hy)).trans (List.map_id l)
  rw [List.map_append, List.map_cons, if_pos rfl, hkeep pre fun y hy => hne y (List.mem_append_left _ hy),
    hkeep post fun y hy => hne y (List.mem_append_right _ hy)]

/-- So many teams are no more than a window may hold. -/
theorem Window.teams_fit {w : Window} (hlen : w.children.length + 1 ≤ 64)
    (hk : ∀ k, w.tcb = some k → (w.children.length + 1) * k.teams ≤ 2 ^ 32) :
    (w.children.length + 1) * w.tcb.elim 1 (·.teams) ≤ 4294967296 := by
  cases htcb : w.tcb with
  | none =>
    show (w.children.length + 1) * 1 ≤ 4294967296
    omega
  | some k => exact hk k htcb

section
variable {s : State} {fn blk : Nat} {w : Window} {pre post : List Window} (hs : s.windows = pre ++ w :: post)
  (hw : w.takes fn blk = true) (ht : s.time < w.opened + 2000)
include hs hw ht

/-- A child before the 64th stands last in its window. -/
theorem State.offerChild_adds (hpre : ∀ y ∈ pre, y.takes fn blk = false) (hne : ∀ y ∈ pre ++ post, y ≠ w) (hlen : w.children.length + 1 < 64)
    (hk : ∀ k, w.tcb = some k → (w.children.length + 1) * k.teams ≤ 2 ^ 32) (slot : Nat) (sup : Bool) (prio : Nat) (p : Word) :
    s.offerChild fn slot blk sup prio p = { s with windows := pre ++ { w with children := w.children ++ [p] } :: post } := by
  rw [State.offerChild_of_takes slot sup prio p (hs ▸ Window.find_takes hw hpre) (Window.teams_fit (by omega) hk) ht]
  dsimp only
  rw [if_neg (by rw [List.length_append, List.length_singleton]; omega), hs, Window.map_replaces hne]

/-- The 64th child closes its window. -/
theorem State.offerChild_fills (hno : ∀ y ∈ pre ++ post, y.takes fn blk = false) (hlen : w.children.length + 1 = 64)
    (hk : ∀ k, w.tcb = some k → (w.children.length + 1) * k.teams ≤ 2 ^ 32) (slot : Nat) (sup : Bool) (prio : Nat) (p : Word) :
    ∃ ws, (∀ y ∈ ws, y.takes fn blk = false) ∧
      State.carriesOn { s with windows := ws } (s.offerChild fn slot blk sup prio p) := by
  have hne (y : Window) (hy : y ∈ pre ++ post) : y ≠ w := fun he => by simp [he ▸ hno y hy] at hw
  rw [State.offerChild_of_takes slot sup prio p (hs ▸ Window.find_takes hw fun y hy => hno y (List.mem_append_left _ hy))
    (Window.teams_fit (by omega) hk) ht]
  dsimp only
  rw [if_pos (by rw [List.length_append, List.length_singleton, hlen]), hs, Window.map_replaces hne]
  obtain ⟨hfn, hblk, hopen⟩ := Window.takes_iff.1 hw
  generalize hw' : ({ w with children := w.children ++ [p] } : Window) = w'
  have hw2 : w'.takes fn blk = true := by rw [← hw']; exact hw
  have hpre : w' ∉ pre := fun hm => by simp [hno w' (List.mem_append_left _ hm)] at hw2
  obtain ⟨ws, hws, hc⟩ := ({ s with windows := pre ++ w' :: post } : State).submitWindow_form w'
  refine ⟨ws, ?_, hc⟩
  rcases hws with rfl | rfl
  · dsimp only
    rw [List.erase_append_right _ hpre, List.erase_cons_head]
    exact hno
  · intro y hy
    obtain ⟨x, hx, rfl⟩ := List.mem_map.1 hy
    unfold Window.closedIf
    split
    · simp [Window.takes]
    next hxw =>
      refine hno x ?_
      have hx : x ∈ pre ∨ x = w' ∨ x ∈ post := by simpa using hx
      rcases hx with hx | hx | hx
      · exact List.mem_append_left _ hx
      · exact absurd hx hxw
      · exact List.mem_append_right _ hx

end

/-- The window that LAGG opens. -/
theorem State.offerChild_opens {s : State} {fn blk : Nat} (hno : ∀ y ∈ s.windows, y.takes fn blk = false) {vs : List Window}
    (hroom : State.carriesOn { s with windows := vs } (s.windowRoom fn)) (slot : Nat) (sup : Bool) (prio : Nat) (p : Word) :
    ∃ w : Window, State.carriesOn { s with windows := vs ++ [w] } (s.offerChild fn slot blk sup prio p) ∧ w.fn = fn ∧ w.blk = blk ∧
      w.children = [p] ∧ w.slot = slot ∧ w.sup = sup ∧ w.prio = prio ∧ w.closed = false ∧ w.opened = s.time := by
  have hr := hroom.trans (State.readTcb_carriesOn _ fn slot blk)
  rw [State.offerChild_of_none slot sup prio p (List.find?_eq_none.2 fun y hy => by simp [hno y hy])]
  generalize (s.windowRoom fn).readTcb fn slot blk = b at hr ⊢
  have hwindows : b.1.windows = vs := hr.windows
  let w : Window := { fn := fn, blk := blk, tcb := b.2, children := [p], opened := b.1.time, slot := slot, sup := sup, prio := prio }
  refine ⟨w, ?_, rfl, rfl, rfl, rfl, rfl, rfl, rfl, hr.time⟩
  show State.carriesOn _ { b.1 with windows := b.1.windows ++ [w] }
  rw [hwindows]
  exact hr.withWindows (vs ++ [w])

theorem Window.takes_false_iff {fn blk : Nat} {w : Window} :
    w.takes fn blk = false ↔ ¬(w.fn = fn ∧ w.blk = blk ∧ w.closed = false) := by
  rw [← Window.takes_iff, Bool.not_eq_true]

/-! ### LFLUSH (spec/18 R402) -/

theorem lflush_closes {s : State} {m : Fibre} (h : s.lone m) (hr : s.atRest) :
    Answers .lflush s fun t => (∀ w ∈ t.windows, w.fn = s.myFn → w.closed = true) ∧
      t.windows.filter (fun w => w.fn != s.myFn) = s.windows.filter (fun w => w.fn != s.myFn) ∧
      t.mine.placeless = s.mine.placeless := by
  obtain ⟨ws, hv, hopen, hother⟩ := State.submitAll_closes (fn := s.myFn) (s.openWindows s.myFn)
    (fun w hw => by simpa using (Bool.and_eq_true_iff.1 (List.mem_filter.1 hw).2).1) s (List.Sublist.refl _)
  have hc := hv.clean (s := { s with windows := ws }) h.1 hr
  refine .of_exec (accessEach_next h rfl hc) ⟨?_, ?_, ?_⟩
  · rw [State.commit_windows hc, hv.windows]
    intro w hw hfn
    by_contra hcl
    have hm : w ∈ ({ s with windows := ws } : State).openWindows s.myFn := List.mem_filter.2 ⟨hw, by simp [hfn, hcl]⟩
    rw [hopen] at hm
    exact List.not_mem_nil hm
  · rw [State.commit_windows hc, hv.windows]
    exact hother
  · rw [State.commit_nil_mine hc]
    exact hv.mine

/-! ### LAGG by its window (spec/18 R402) -/

section
variable {s : State} {m : Fibre} {a b : SReg} (h : s.lone m) (hr : s.atRest)
  (hb : (s.checkRange .virt (s.regs.sreg a.val) 256 256 .read).bad = none)
include h hr hb

/-- An open window of the block the word names takes its child. -/
theorem lagg_adds {pre post : List Window} {w : Window} (hs : s.windows = pre ++ w :: post)
    (hw : w.takes (s.inst s.myInst).fn (s.regs.sreg a.val).toNat = true)
    (hpre : ∀ y ∈ pre, y.takes (s.inst s.myInst).fn (s.regs.sreg a.val).toNat = false) (hne : ∀ y ∈ pre ++ post, y ≠ w)
    (hlen : w.children.length + 1 < 64) (hk : ∀ k, w.tcb = some k → (w.children.length + 1) * k.teams ≤ 2 ^ 32)
    (ht : s.time < w.opened + 2000) :
    Answers (.lagg a b) s fun t => t.mine.s = s.mine.s ∧
      t.windows = pre ++ { w with children := w.children ++ [s.regs.sreg b.val] } :: post := by
  refine (lagg_windows (P := fun ws => ws = pre ++ { w with children := w.children ++ [s.regs.sreg b.val] } :: post) h hr hb
    fun u hu hut => ⟨_, rfl, ?_⟩).imp fun t ⟨hms, hwin, _⟩ => ⟨hms, hwin⟩
  rw [State.offerChild_adds (hu.trans hs) hw (hut ▸ ht) hpre hne hlen hk]
  exact .refl _

/-- The 64th child closes it. -/
theorem lagg_fills {pre post : List Window} {w : Window} (hs : s.windows = pre ++ w :: post)
    (hw : w.takes (s.inst s.myInst).fn (s.regs.sreg a.val).toNat = true)
    (hno : ∀ y ∈ pre ++ post, y.takes (s.inst s.myInst).fn (s.regs.sreg a.val).toNat = false)
    (hlen : w.children.length + 1 = 64) (hk : ∀ k, w.tcb = some k → 64 * k.teams ≤ 2 ^ 32) (ht : s.time < w.opened + 2000) :
    Answers (.lagg a b) s fun t => t.mine.s = s.mine.s ∧
      ∀ y ∈ t.windows, y.takes (s.inst s.myInst).fn (s.regs.sreg a.val).toNat = false :=
  (lagg_windows (P := fun ws => ∀ y ∈ ws, y.takes (s.inst s.myInst).fn (s.regs.sreg a.val).toNat = false) h hr hb
    fun _ hu hut => State.offerChild_fills (hu.trans hs) hw (hut ▸ ht) hno hlen (hlen ▸ hk) _ _ _ _).imp
      fun _ ⟨hms, hwin, _⟩ => ⟨hms, hwin⟩

/-- With none, one opens with the child, after the windows that stay where it needs room. -/
theorem lagg_opens (hno : ∀ y ∈ s.windows, y.takes (s.inst s.myInst).fn (s.regs.sreg a.val).toNat = false) {P : List Window → Prop}
    (hroom : ∀ u : State, u.windows = s.windows → ∃ vs, P vs ∧
      State.carriesOn { u with windows := vs } (u.windowRoom (s.inst s.myInst).fn)) :
    Answers (.lagg a b) s fun t => t.mine.s = s.mine.s ∧ ∃ vs w, P vs ∧ t.windows = vs ++ [w] ∧
      w.fn = (s.inst s.myInst).fn ∧ w.blk = (s.regs.sreg a.val).toNat ∧ w.children = [s.regs.sreg b.val] ∧
      w.slot = (s.inst s.myInst).slot ∧ w.sup = (s.inst s.myInst).sup ∧ w.prio = (s.inst s.myInst).prio ∧ w.closed = false ∧
      w.opened = t.time := by
  refine (lagg_windows (P := fun ws => ∃ vs w, P vs ∧ ws = vs ++ [w] ∧
      w.fn = (s.inst s.myInst).fn ∧ w.blk = (s.regs.sreg a.val).toNat ∧ w.children = [s.regs.sreg b.val] ∧
      w.slot = (s.inst s.myInst).slot ∧ w.sup = (s.inst s.myInst).sup ∧ w.prio = (s.inst s.myInst).prio ∧ w.closed = false ∧
      w.opened = s.time) h hr hb fun u hu hut => ?_).imp fun t ⟨hms, hwin, ht⟩ => ⟨hms, ht.symm ▸ hwin⟩
  obtain ⟨vs, hP, hv⟩ := hroom u hu
  obtain ⟨w, hc, hfn, hblk, hch, hslot, hsup, hprio, hcl, hop⟩ := State.offerChild_opens (hu ▸ hno) hv _ _ _ (s.regs.sreg b.val)
  exact ⟨_, ⟨vs, w, hP, rfl, hfn, hblk, hch, hslot, hsup, hprio, hcl, hop.trans hut⟩, hc⟩

end

/-! ### Instances that are made (spec/04 R70, R71, R75) -/

/-- A set that forms names their fellows to its members. -/
theorem State.formSet_get (s : State) (fn gsid n : Nat) {i : Instance} (h : s.insts.get? n = some i) :
    ∃ ms, (s.formSet fn gsid).insts.get? n = some { i with setMembers := ms } := by
  unfold State.formSet
  split
  · exact ⟨_, h⟩
  · extract_lets ms ids
    split
    · exact ⟨_, h⟩
    · have hmap : (fun e : Nat × Instance => if ids.contains e.1 then (e.1, { e.2 with setMembers := ids.filter (fun k => k != e.1) }) else e) =
          fun e => (e.1, if ids.contains e.1 then { e.2 with setMembers := ids.filter (fun k => k != e.1) } else e.2) := by
        funext e
        split <;> rfl
      dsimp only
      rw [hmap, Tab.get?_map s.insts (fun k i => if ids.contains k then { i with setMembers := ids.filter (fun j => j != k) } else i), h]
      by_cases hn : ids.contains n = true
      · exact ⟨_, congrArg some (if_pos hn)⟩
      · exact ⟨i.setMembers, congrArg some (if_neg hn)⟩

/-- A task made READY is as it was but for its order and its set. -/
theorem State.makeReady_get (s : State) (n : Nat) :
    ∃ seq ms, (s.makeReady n).insts.get? n = some { s.inst n with state := .ready, seq := seq, setMembers := ms } := by
  refine ⟨s.nextId, ?_⟩
  unfold State.makeReady
  refine State.formSet_get (i := { s.inst n with state := .ready, seq := s.nextId }) _ _ _ n ?_
  rw [State.writeStat_insts]
  exact Tab.get?_put_self ..

/-- The entry of a submission in the table, before it is READY or waits. -/
def State.enters (s : State) (o : Submission) (b : Tcb) : State :=
  State.learn { s.freeCredit o.fn o.blk with insts := s.insts.put s.nextId (o.instance_ b), nextId := s.nextId + 1 } (.inst s.nextId)
    (o.after.flatMap s.known)

theorem State.enters_insts (s : State) (o : Submission) (b : Tcb) : (s.enters o b).insts = s.insts.put s.nextId (o.instance_ b) :=
  State.learn_insts ..

theorem State.enters_inst (s : State) (o : Submission) (b : Tcb) : (s.enters o b).inst s.nextId = o.instance_ b := by
  unfold State.inst
  rw [State.enters_insts, Tab.getD_put_self]

section
variable {s : State} {o : Submission} {b : Tcb} (hfull : s.tableFull o.fn = false) (hno : s.rejectReason o b = none)
  (hch : o.children = []) (hcr : s.creditFor o.fn o.blk = none)
include hfull hno hch hcr

theorem State.submit_enters :
    s.submit o (some b) =
      (if (o.instance_ b).count = 0 then (s.enters o b).makeReady s.nextId
        else (s.enters o b).writeStat (o.instance_ b) ((s.enters o b).behind s.nextId) .pending 0 false, .live s.nextId) := by
  unfold State.submit
  rw [if_neg (by simp [hfull])]
  dsimp only
  rw [hno, hch]
  dsimp only [State.writeTable]
  rw [hcr]
  simp only [Option.elim, Option.any, Bool.not_true, Bool.false_eq_true, if_false, and_false, Nat.sub_zero]
  rfl

/-- A plain submission that nothing refuses and no credit waits for makes its entry. -/
theorem State.submit_makes :
    ∃ n seq ms, (s.submit o (some b)).2 = .live n ∧ (s.submit o (some b)).1.insts.get? n = some
      { o.instance_ b with state := if (o.instance_ b).count = 0 then .ready else .pending, seq := seq, setMembers := ms } := by
  rw [State.submit_enters hfull hno hch hcr]
  by_cases hc : (o.instance_ b).count = 0
  · rw [if_pos hc, if_pos hc]
    obtain ⟨seq, ms, hms⟩ := (s.enters o b).makeReady_get s.nextId
    rw [State.enters_inst] at hms
    exact ⟨s.nextId, seq, ms, rfl, hms⟩
  · rw [if_neg hc, if_neg hc]
    refine ⟨s.nextId, 0, [], rfl, ?_⟩
    dsimp only
    rw [State.writeStat_insts, State.enters_insts, Tab.get?_put_self]
    rfl

end

/-- A submission whose block is live already fails, and changes nothing. -/
theorem State.submit_duplicate {s : State} {o : Submission} (hdup : s.duplicate o = true) (b : Tcb) : ∃ e,
    s.submit o (some b) = (s, .failed e) ∧ e.reason = 5 ∧ e.inst = o.instance_ b := by
  unfold State.submit
  rw [if_neg (by simp [hdup])]
  dsimp only
  unfold State.rejectReason
  rw [if_pos hdup]
  exact ⟨_, rfl, rfl, rfl⟩

/-! ### LAUNCH (spec/18 R401) -/

/-- The submission of LAUNCH. -/
def State.launchOf (s : State) (m : Fibre) (ea : Word) : Submission :=
  { fn := (s.inst s.myInst).fn, slot := (s.inst s.myInst).slot, blk := ea.toNat, cap := (s.inst s.myInst).prio, sup := (s.inst s.myInst).sup,
    after := s.voices m }

/-- The bit of the fibre that the word wrote. -/
theorem State.commit_c_bit {s : State} (h : s.clean) (id : Nat) (n : CReg) :
    ∀ f ∈ (s.commit [.c id n.val true]).mine.fibres, f.id = id → f.c.getLsbD n.val = true := by
  rw [State.commit_c_mine h]
  exact Group.write_c_bit _ _ _

section
variable {s u : State} {m : Fibre} {c : CReg} {a : SReg} {bs : List Byte} (h : s.lone m)
  (hread : s.readRecord m (s.regs.sreg a.val) 256 256 = .ok (u, bs))
include h hread

/-- A full table refuses the block. -/
theorem launch_full (hu : u.clean) (hfull : u.tableFull (u.inst u.myInst).fn = true) :
    Answers (.launch c a) s fun t => u.wroteC t m c.val false := by
  refine .of_exec (accessEach_next (v := u) h ?_ hu) (u.commit_wroteC m c.val false hu.1 hu.2.2.2.2.2.2)
  dsimp only
  rw [hread]
  exact if_pos hfull

/-- With room, what the submission leads to is what the word leads to, and it writes 1. -/
theorem launch_fails {e : Ended} (hfull : u.tableFull (u.inst u.myInst).fn = false)
    (hsub : u.submit (u.launchOf m (s.regs.sreg a.val)) (some (parseTcb bs)) = (u, .failed e)) (hc : (u.failedSubmission e).clean) :
    exec (.launch c a) s = .next ((u.failedSubmission e).commit [.c m.id c.val true]) := by
  refine accessEach_next h ?_ hc
  unfold State.launchOf at hsub
  dsimp only
  rw [hread]
  dsimp only
  rw [if_neg (by simp [hfull]), hsub]

theorem launch_lives {n : Nat} (hfull : u.tableFull (u.inst u.myInst).fn = false)
    (hsub : (u.submit (u.launchOf m (s.regs.sreg a.val)) (some (parseTcb bs))).2 = .live n)
    (hc : (u.submit (u.launchOf m (s.regs.sreg a.val)) (some (parseTcb bs))).1.clean) :
    exec (.launch c a) s =
      .next ((u.submit (u.launchOf m (s.regs.sreg a.val)) (some (parseTcb bs))).1.commit [.c m.id c.val true]) := by
  refine accessEach_next h ?_ hc
  unfold State.launchOf at hsub ⊢
  dsimp only
  rw [hread]
  dsimp only
  rw [if_neg (by simp [hfull]), hsub]

/-- A block that stands in the table is not made again. -/
theorem launch_duplicate (hu : u.clean) (hr : u.atRest) (hfull : u.tableFull (u.inst u.myInst).fn = false)
    (hdup : u.duplicate (u.launchOf m (s.regs.sreg a.val)) = true) :
    Answers (.launch c a) s fun t =>
      (∀ f ∈ t.mine.fibres, f.id = m.id → f.c.getLsbD c.val = true) ∧ t.insts = u.insts ∧ t.mine.s = u.mine.s := by
  obtain ⟨e, hsub, he, -⟩ := State.submit_duplicate hdup (parseTcb bs)
  have hw : u.failedSubmission e = u.writeStat e.inst e.behind .failed 5 false := by
    unfold State.failedSubmission State.rejected
    rw [if_pos he, if_pos he]
  have hv := u.writeStat_carriesOn e.inst e.behind .failed 5 false
  rw [← hw] at hv
  have hc := hv.clean hu hr
  refine .of_exec (launch_fails h hread hfull hsub hc) ⟨State.commit_c_bit hc m.id c, ?_, ?_⟩
  · rw [State.commit_insts hc, hw, State.writeStat_insts]
  · rw [State.commit_c_mine hc]
    exact (congrArg Group.s hv.mine :)

/-- A block that nothing refuses gets its entry. -/
theorem launch_makes (hu : u.clean) (hr : u.atRest) (hfull : u.tableFull (u.inst u.myInst).fn = false)
    (hno : u.rejectReason (u.launchOf m (s.regs.sreg a.val)) (parseTcb bs) = none)
    (hcr : u.creditFor (u.inst u.myInst).fn (s.regs.sreg a.val).toNat = none) :
    Answers (.launch c a) s fun t =>
      (∀ f ∈ t.mine.fibres, f.id = m.id → f.c.getLsbD c.val = true) ∧ t.mine.s = u.mine.s ∧ ∃ n seq ms, t.insts.get? n = some
        { (u.launchOf m (s.regs.sreg a.val)).instance_ (parseTcb bs) with
          state := if (parseTcb bs).predc = 0 then .ready else .pending, seq := seq, setMembers := ms } := by
  obtain ⟨n, seq, ms, hlive, hget⟩ := State.submit_makes (o := u.launchOf m (s.regs.sreg a.val)) hfull hno rfl hcr
  have hv := u.submit_carriesOn (u.launchOf m (s.regs.sreg a.val)) (some (parseTcb bs))
  have hc := hv.clean hu hr
  refine .of_exec (launch_lives h hread hfull hlive hc) ⟨State.commit_c_bit hc m.id c, ?_, n, seq, ms, ?_⟩
  · rw [State.commit_c_mine hc]
    exact (congrArg Group.s hv.mine :)
  · rw [State.commit_insts hc]
    exact hget

end

/-! ### The claim on LAUNCH, LAGG and LFLUSH -/

theorem State.duplicate_iff {s : State} {o : Submission} (hch : o.children = []) :
    s.duplicate o = true ↔ ∃ e ∈ s.insts, (e.2.fn = o.fn ∧ e.2.blk = o.blk) ∧ e.2.children = [] := by
  simp [State.duplicate, hch]

/-- Nothing refuses a plain submission whose block is not live yet, breaks no rule, and asks for no right that the submitter lacks. -/
theorem State.rejectReason_none {s : State} {o : Submission} {b : Tcb} (hch : o.children = [])
    (hno : ∀ e ∈ s.insts, ¬(e.2.fn = o.fn ∧ e.2.blk = o.blk)) (hbad : b.bad = false) (hsup : b.sup = true → o.sup = true) :
    s.rejectReason o b = none := by
  have hdup : s.duplicate o = false := by
    refine Bool.eq_false_iff.2 fun hd => ?_
    obtain ⟨e, he, hsame, -⟩ := (State.duplicate_iff hch).1 hd
    exact hno e he hsame
  have hpriv : (b.sup && !o.sup) = false := by
    cases hb : b.sup with
    | false => rfl
    | true => rw [hsup hb]; rfl
  simp [State.rejectReason, hdup, hbad, hch, hpriv]

theorem State.creditFor_none {s : State} {fn blk : Nat} (h : ∀ x ∈ s.credits, ¬(x.fn = fn ∧ x.blk = blk)) : s.creditFor fn blk = none :=
  List.find?_eq_none.2 fun x hx => by simpa using h x hx


/-- Settles O41: a submission, a window and what they leave standing (`State.carriesOn`), by the case of each word. -/
theorem launchWordResults : Obligations.LaunchWordResults := by
  unfold Obligations.LaunchWordResults
  intro s m c a b h
  dsimp only
  refine ⟨fun u bs hread hu _ hi hr => ⟨fun hfull hdup => ?_, fun hfull => ?_, fun hfull hno hcr hbad hsup => ?_⟩,
    fun hb hr => ⟨fun pre w post hs hw hpre hne hlen hk ht => ?_, fun hno hroom => ?_, fun pre w post hs hw hno hlen hk ht => ?_,
      fun w rest hno hopen hn hw => ?_⟩, fun hr => ?_⟩
  · rw [← hi] at hfull hdup
    exact launch_duplicate h hread hu hr hfull ((State.duplicate_iff rfl).2 hdup)
  · rw [← hi] at hfull
    exact launch_full h hread hu hfull
  · rw [← hi] at hfull hno hcr hsup ⊢
    refine (launch_makes h hread hu hr hfull (State.rejectReason_none rfl hno hbad hsup) (State.creditFor_none hcr)).imp
      fun t ⟨hbit, hs, n, seq, ms, hget⟩ => ⟨hbit, hs, n, _, hget, rfl, rfl, rfl, rfl, rfl, rfl, rfl, rfl⟩
  · exact lagg_adds h hr hb hs (Window.takes_iff.2 hw) (fun y hy => Window.takes_false_iff.2 (hpre y hy)) hne hlen hk ht
  · refine (lagg_opens h hr hb (fun y hy => Window.takes_false_iff.2 (hno y hy)) (P := fun vs => vs = s.windows)
      fun u hu => ⟨_, hu, ?_⟩).imp fun t ⟨hms, vs, w, hvs, hwin, hw⟩ => ⟨hms, w, hvs ▸ hwin, hw⟩
    rw [State.windowRoom_room (by unfold State.openWindows; rw [hu]; exact hroom)]
    exact .refl u
  · exact (lagg_fills h hr hb hs (Window.takes_iff.2 hw) (fun y hy => Window.takes_false_iff.2 (hno y hy)) hlen hk ht).imp
      fun t ⟨hms, hwin⟩ => ⟨hms, fun y hy => Window.takes_false_iff.1 (hwin y hy)⟩
  · refine (lagg_opens h hr hb (fun y hy => Window.takes_false_iff.2 (hno y hy))
      (P := fun vs => vs.filter (fun w => w.fn == (s.inst s.myInst).fn && !w.closed) = rest) fun u hu => ?_).imp
      fun t ⟨hms, vs, x, hvs, hwin, hfn, hblk, hch, _, _, _, hcl, _⟩ => ⟨hms, x, ?_, hblk, hch⟩
    · obtain ⟨ws, hc, hrest⟩ := State.windowRoom_full (s := u) (by unfold State.openWindows; rw [hu]; exact hopen) hn hw
      exact ⟨ws, hrest, hc⟩
    · unfold State.openWindows
      rw [hwin, List.filter_append, hvs]
      simp [hfn, hcl]
  · exact (lflush_closes h hr).imp fun t ⟨hcl, hother, hmine⟩ =>
      ⟨hcl, hother, (congrArg Group.s hmine :), (congrArg Group.v hmine :), (congrArg Group.p hmine :)⟩

end Sys2Proof.Machine
end

section
/-!
The statement O42 (spec/18 R404; spec/07 R147): it has FAULT of the handle stand at 0 after a run that ends at its first record. Nothing in it says that
no operation on the same handle is paused for a service, and STAT of a record that is a duplicate is written after the run's end: where that write
serves the page for which an operation is paused, FAULT becomes what it was when the operation paused.
-/

namespace Sys2Proof.Machine

open Sys2Proof

/-! ### Services and handles -/

theorem State.setHandle_carriesOn (s : State) (t h : Nat) (x : Handle) : s.carriesOn (s.setHandle t h x) := s.setTeam_carriesOn ..

/-- A service for which no operation is paused changes no handle. -/
theorem State.served_unpaused {s : State} (h : ∀ e ∈ s.engs, e.2.pausedOn = none) (gone : Nat × Service → Bool) :
    (s.served gone).teams = s.teams ∧ (s.served gone).engs = s.engs := by
  have hfree : ∀ e ∈ s.engs, s.freed gone e.2 = false := fun e he => by simp [State.freed, h e he]
  have hnone : s.engs.filter (fun e => s.freed gone e.2) = [] := List.filter_eq_nil_iff.2 fun e he => by simp [hfree e he]
  have hmap : s.engs.map (fun e => (e.1, if s.freed gone e.2 then e.2.unpaused else e.2)) = s.engs :=
    (List.map_congr_left fun e he => by rw [hfree e he]; rfl).trans (List.map_id _)
  unfold State.served
  rw [hnone, hmap]
  exact ⟨rfl, rfl⟩

theorem State.memoryMoved.teams {s t : State} (h : s.memoryMoved t) : t.teams = s.teams := (congrArg State.teams h :)

theorem State.memoryMoved.engs {s t : State} (h : s.memoryMoved t) : t.engs = s.engs := (congrArg State.engs h :)

theorem State.serveNow_unpaused {s : State} (h : ∀ e ∈ s.engs, e.2.pausedOn = none) (fn slot va : Nat) (w : Walk) :
    (s.serveNow fn slot va w).teams = s.teams ∧ (s.serveNow fn slot va w).engs = s.engs := by
  cases w with
  | cow entry frame key =>
    obtain ⟨ht, he⟩ := State.served_unpaused h fun e => e.2.sharesPage slot va
    have hm := State.cowDone_memory (s.served fun e => e.2.sharesPage slot va) slot fn entry frame key
    exact ⟨hm.teams.trans ht, hm.engs.trans he⟩
  | place frame e => exact ⟨(s.placeFrame_memory frame fn e (.stack 0)).teams, (s.placeFrame_memory frame fn e (.stack 0)).engs⟩
  | ok | fail | barred | poison | stall => exact ⟨rfl, rfl⟩

/-- With no operation paused an access of the command processor changes no handle. -/
theorem State.cpPlace_unpaused (fn slot va : Nat) (kind : AccKind) (n : Nat) {s : State} (h : ∀ e ∈ s.engs, e.2.pausedOn = none) :
    (State.cpPlace fn slot va kind n s).1.teams = s.teams := by
  induction n generalizing s with
  | zero => rfl
  | succ n ih =>
    have hw := (s.walked_caches 1152 fn slot va).memory
    have hserve (w : Walk) : (State.cpPlace fn slot va kind n ((s.walked 1152 fn slot va).serveNow fn slot va w)).1.teams = s.teams := by
      obtain ⟨ht, he⟩ := State.serveNow_unpaused (s := s.walked 1152 fn slot va) (hw.engs ▸ h) fn slot va w
      exact ((ih (he.trans hw.engs ▸ h)).trans ht).trans hw.teams
    unfold State.cpPlace
    dsimp only
    split
    · exact hw.teams
    · exact hw.teams
    · exact hw.teams
    · exact hw.teams
    · exact hw.teams
    · split
      · exact hw.teams
      · exact hserve _
    · split
      · exact hw.teams
      · exact hserve _

/-- A write of the command processor into a copy-on-write page leaves the handles of what was paused there as their operations' pauses had them, where no
other operation is paused. -/
theorem State.cpWrite_cow {s : State} {fn slot va entry frame key : Nat} (hw : walk s fn slot va .write = .cow entry frame key)
    (hwait : s.cowWaits fn entry frame = false)
    (hno : ∀ e ∈ ((s.walked 1152 fn slot va).served fun e => e.2.sharesPage slot va).engs, e.2.pausedOn = none) (bs : List Byte) (ms : List Mark) :
    (s.cpWrite fn slot va bs ms).1.teams = ((s.walked 1152 fn slot va).served fun e => e.2.sharesPage slot va).teams := by
  have hm := State.cowDone_memory ((s.walked 1152 fn slot va).served fun e => e.2.sharesPage slot va) slot fn entry frame key
  have hplace : (State.cpPlace fn slot va .write 8 s).1.teams = ((s.walked 1152 fn slot va).served fun e => e.2.sharesPage slot va).teams := by
    unfold State.cpPlace
    dsimp only
    rw [hw]
    dsimp only
    rw [hwait, if_neg Bool.false_ne_true]
    exact (State.cpPlace_unpaused fn slot va .write 7 (hm.engs ▸ hno)).trans hm.teams
  unfold State.cpWrite
  dsimp only
  split
  · exact hplace
  next dom k _ =>
    exact ((State.homeWrite_memory ..).trans (State.setMarks_moves _ (.frame dom k) bs.length ms .past).caches.memory).teams.trans hplace

/-- So does STAT written there. -/
theorem State.writeStat_cow {s : State} {i : Instance} {fn slot blk entry frame key : Nat} (hfn : i.fn = fn) (hslot : i.slot = slot) (hblk : i.blk = blk)
    (hw : walk s fn slot (blk + 248) .write = .cow entry frame key) (hwait : s.cowWaits fn entry frame = false)
    (hno : ∀ e ∈ ((s.walked 1152 fn slot (blk + 248)).served fun e => e.2.sharesPage slot (blk + 248)).engs, e.2.pausedOn = none) (xs : NatSet)
    (st : InstState) (reason : Nat) (tfail : Bool) :
    (s.writeStat i xs st reason tfail).teams = ((s.walked 1152 fn slot (blk + 248)).served fun e => e.2.sharesPage slot (blk + 248)).teams := by
  subst hfn hslot hblk
  exact State.cpWrite_cow hw hwait hno _ _

/-! ### A record whose block is live already (spec/04 R83; spec/18 R404) -/

/-- A run ended at its top record, whose block was read. -/
def State.runStops (s : State) (t : Nat) (r : TapeRun) (top : TapeRec) (rest : List TapeRec) : State :=
  ((s.readTcb r.fn r.slot top.blk).1.setTape t
    { s.tape t with recs := rest, owner := if rest.isEmpty then none else (s.tape t).owner, run := some r }).endRun t true

theorem State.runStops_carriesOn (s : State) (t : Nat) (r : TapeRun) (top : TapeRec) (rest : List TapeRec) : s.carriesOn (s.runStops t r top rest) :=
  ((s.readTcb_carriesOn ..).trans (State.setTape_carriesOn ..)).trans (State.endRun_carriesOn ..)

/-- The run ends, and STAT of what fails is written. -/
theorem State.tapeNext_duplicate {s : State} {t : Nat} {r : TapeRun} {top : TapeRec} {rest : List TapeRec} {b : Tcb}
    (hrun : (s.tape t).run = some r) (hrecs : (s.tape t).recs = top :: rest) (hread : (s.readTcb r.fn r.slot top.blk).2 = some b)
    (hdup : ∃ e ∈ (s.readTcb r.fn r.slot top.blk).1.insts, (e.2.fn = r.fn ∧ e.2.blk = top.blk) ∧ e.2.children = []) :
    ∃ i xs, i.fn = r.fn ∧ i.slot = r.slot ∧ i.blk = top.blk ∧ s.tapeNext t = (s.runStops t r top rest).writeStat i xs .failed 5 false := by
  obtain ⟨e, hsub, he, hi⟩ := State.submit_duplicate
    (o := { fn := r.fn, slot := r.slot, blk := top.blk, cap := r.prio, sup := top.sup, replay := some (t, top.arg), after := [.tape t] })
    ((State.duplicate_iff rfl).2 hdup) b
  refine ⟨e.inst, e.behind, by rw [hi]; rfl, by rw [hi]; rfl, by rw [hi]; rfl, ?_⟩
  unfold State.tapeNext State.runStops
  dsimp only
  rw [hrun, hrecs]
  dsimp only
  rw [hread, hsub]
  exact if_pos he

/-! ### TAPE.RUN -/

/-- A run on a handle as it begins, before its first record is submitted. -/
def State.tapeRunning (s : State) (m : Fibre) (h t : Nat) : State :=
  let run : TapeRun := { team := s.myTeam, handle := h, slot := s.mySlot, fn := s.myFn, prio := (s.inst s.myInst).prio,
                         total := (s.tape t).recs.length, retired := 0, inst := none }
  let u := s.setHandle s.myTeam h { (s.handle s.myTeam h).fresh 0 (BitVec.ofNat 32 (s.tape t).recs.length) with
    state := .filling, tape := some t, run := true }
  ((u.forget (.handle s.myTeam h)).learn (.tape t) (u.knows u.it.group m.mask)).setTape t { s.tape t with run := some run }

theorem State.tapeRunning_carriesOn (s : State) (m : Fibre) (h t : Nat) : s.carriesOn (s.tapeRunning m h t) :=
  (((s.setTeam_carriesOn ..).trans (State.forget_moves ..).carriesOn).trans (State.learn_carriesOn ..)).trans (State.setTape_carriesOn ..)

/-- A run that begins goes on to its first record. -/
theorem tapeRun_runs {s : State} {m : Fibre} {h : HReg} {a : SReg} (hl : s.lone m)
    (hfree : ((s.handle s.myTeam h.val).isRed || (s.handle s.myTeam h.val).busy) = false)
    (hmine : s.tapeMine (s.regs.sreg a.val).toNat = true) (hlost : (s.tape (s.regs.sreg a.val).toNat).lost = false)
    (hc : ((s.tapeRunning m h.val (s.regs.sreg a.val).toNat).tapeNext (s.regs.sreg a.val).toNat).clean) :
    exec (.tapeRun h a) s = .next (((s.tapeRunning m h.val (s.regs.sreg a.val).toNat).tapeNext (s.regs.sreg a.val).toNat).commit []) := by
  refine accessEach_next hl ?_ hc
  unfold onHandle
  dsimp only
  rw [if_neg (by simp [hfree]), if_neg (by simp [hmine]), if_neg (by simp [hlost])]
  rfl

/-! ### A run on a handle with a copy paused -/

/-- A copy with a place in its page still to come, paused for the service 20; FAULT of its handle, 5, stood at 1 as it paused. -/
def pausedCopy : CopyOp := { Tests.copying with service := some 20, faultBase := true }

/-- The block at 0 is that of the task in hand, and the one record of tape 0 names it. Its page, frame 2, is a copy-on-write page of
64 KiB, its tables in frame 1. -/
def cowTape : State :=
  let tables := [(0x10000, 0x11000 + 2 ^ 54), (0x11000, 0x12000 + 2 ^ 54), (0x12000, 0x13000 + 2 ^ 54), (0x13000, 0x20000 + 2 ^ 54 + 2 ^ 55 + 2 ^ 59)]
  { Tests.engine [(9, .copy pausedCopy)] (Tests.hand id) with
    fns := [(0, { feata := BitVec.allOnes 64, lock := true, kcount := 1, qcount := 1, memq := 1 })],
    slots := [(0, { root := 0x10000 })], keys := [(0, { state := .live, key := 3 })],
    mem := tables.foldl (fun m e => putBytes m e.1 (leBytes 8 e.2)) [],
    units := tables.map fun e => (e.1 / 32, { key := 3, slot := 0 }),
    placed := [(1, .stack 0), (2, .stack 0)],
    services := [(20, .cow 0 0 0x13000 0x20000 0 0)],
    tapes := [(0, { recs := [{ blk := 0, sup := true, arg := 0 }] })] }

theorem cowTape_rests : cowTape.lone Tests.fibre ∧ cowTape.atRest := by
  unfold State.lone State.clean State.atRest
  decide +kernel

/-- The run of tape 0 on handle 5 as it begins, and as it ends at its first record. -/
def cowRun : TapeRun := { team := 1, handle := 5, slot := 0, fn := 0, prio := 0, total := 1, retired := 0, inst := none }

def cowBegins : State := cowTape.tapeRunning Tests.fibre 5 0

def cowEnded : State := cowBegins.runStops 0 cowRun { blk := 0, sup := true, arg := 0 } []

theorem cowBegins_tape : (cowBegins.tape 0).run = some cowRun ∧ (cowBegins.tape 0).recs = [{ blk := 0, sup := true, arg := 0 }] := by decide +kernel

/-- Its record's block can be read, and the task in hand has it. -/
theorem cowBegins_read : (cowBegins.readTcb 0 0 0).2.isSome = true ∧
    ∃ e ∈ (cowBegins.readTcb 0 0 0).1.insts, (e.2.fn = 0 ∧ e.2.blk = 0) ∧ e.2.children = [] := by decide +kernel

theorem cowEnded_walk : walk cowEnded 0 0 248 .write = .cow 0x13000 0x20000 0 ∧ cowEnded.cowWaits 0 0x13000 0x20000 = false := by decide +kernel

/-- The copy goes on once the page is served, with FAULT as its pause had it, and no other operation is paused. -/
theorem cowEnded_served : (∀ e ∈ ((cowEnded.walked 1152 0 0 248).served fun e => e.2.sharesPage 0 248).engs, e.2.pausedOn = none) ∧
    (((cowEnded.walked 1152 0 0 248).served fun e => e.2.sharesPage 0 248).handle 1 5).fault = true := by decide +kernel

/-- TAPE.RUN leaves FAULT of its handle at 1. -/
theorem tapeRun_cowTape : Answers (.tapeRun 5 0) cowTape fun t => (t.handle 1 5).fault = true := by
  obtain ⟨hlone, hrest⟩ := cowTape_rests
  obtain ⟨hrun, hrecs⟩ := cowBegins_tape
  obtain ⟨hsome, hdup⟩ := cowBegins_read
  obtain ⟨b, hb⟩ := Option.isSome_iff_exists.1 hsome
  obtain ⟨i, xs, hfn, hslot, hblk, hnext⟩ := State.tapeNext_duplicate hrun hrecs hb hdup
  have hv : cowTape.carriesOn (cowBegins.tapeNext 0) := by
    rw [hnext]
    exact ((cowTape.tapeRunning_carriesOn ..).trans (cowBegins.runStops_carriesOn ..)).trans (State.writeStat_carriesOn ..)
  have hc := hv.clean hlone.1 hrest
  refine .of_exec (tapeRun_runs hlone (by decide +kernel) (by decide +kernel) (by decide +kernel) hc) ?_
  have hteams : ((cowBegins.tapeNext 0).commit []).teams = ((cowEnded.walked 1152 0 0 248).served fun e => e.2.sharesPage 0 248).teams := by
    rw [State.commit_teams hc, hnext]
    exact State.writeStat_cow hfn hslot hblk cowEnded_walk.1 cowEnded_walk.2 cowEnded_served.1 xs _ _ _
  have hhandle : ((cowBegins.tapeNext 0).commit []).handle 1 5 = ((cowEnded.walked 1152 0 0 248).served fun e => e.2.sharesPage 0 248).handle 1 5 := by
    unfold State.handle State.team
    rw [hteams]
  exact (congrArg Handle.fault hhandle).trans cowEnded_served.2

/-- Refutes O42: in `cowTape` a copy of the team's is paused on handle 5, for a write to the page of the block that the tape's one record names. TAPE.RUN
on that handle begins, its record is a duplicate, and the run ends with FAULT at 0; STAT of the duplicate then writes the page, the copy goes on, and FAULT
of the handle is as the copy's pause had it, 1. -/
theorem not_tapeWordResults : ¬ Obligations.TapeWordResults := by
  unfold Obligations.TapeWordResults
  intro h
  obtain ⟨hlone, hrest⟩ := cowTape_rests
  obtain ⟨-, -, -, -, -, hstalled, -⟩ := hlone.1
  obtain ⟨-, -, -, hruns⟩ := h cowTape Tests.fibre 0 5 0 0 hlone
  obtain ⟨-, -, -, -, hrun⟩ := hruns (by decide +kernel) (by decide +kernel)
  obtain ⟨-, hfails, -⟩ := hrun { blk := 0, sup := true, arg := 0 } [] (by decide +kernel) (by decide +kernel) (by decide +kernel)
  have hread (q k t fn slot blk : Nat) (x : Handle) (y : Tape) : cowTape.carriesOn (((cowTape.setHandle q k x).setTape t y).readTcb fn slot blk).1 :=
    ((cowTape.setHandle_carriesOn ..).trans (State.setTape_carriesOn ..)).trans (State.readTcb_carriesOn ..)
  obtain ⟨t, ht, -, hfault, -⟩ := hfails _ _ Prod.mk.eta.symm ((hread ..).atRest hrest) (((hread ..).2 hrest).trans hstalled) (by decide +kernel)
    (by decide +kernel) fun _ _ => .inl (by decide +kernel)
  obtain ⟨u, hu, hset⟩ := tapeRun_cowTape
  cases ht.symm.trans hu
  exact Bool.false_ne_true (hfault.symm.trans hset)

end Sys2Proof.Machine
end

section
/-!
A trap in every lane of the one fibre of a group: what the word in hand notes of it, and its delivery at the end of the issue group (spec/11 R239,
R240, R246).
-/

namespace Sys2Proof.Machine

open Sys2Proof

/-! ### What the lanes of a fibre note -/

theorem getLsbD_maskOf_iff {ls : List Nat} {i : Nat} (hi : i < 32) : (maskOf ls).getLsbD i = true ↔ i ∈ ls := by
  refine ⟨fun h => ?_, getLsbD_maskOf hi⟩
  induction ls using List.reverseRecOn with
  | nil => simp [maskOf] at h
  | append_singleton ls l ih =>
    have hm : maskOf (ls ++ [l]) = maskOf ls ||| laneBit l := List.foldl_append
    rw [hm, BitVec.getLsbD_or, getLsbD_laneBit, Bool.or_eq_true] at h
    rcases h with h | h
    · exact List.mem_append_left _ (ih h)
    · simp_all

theorem maskOf_lanesOf (m : Mask) : maskOf (lanesOf m) = m := by
  refine BitVec.eq_of_getLsbD_eq fun i hi => Bool.eq_iff_iff.2 ?_
  rw [getLsbD_maskOf_iff hi, mem_lanesOf]
  exact and_iff_right hi

theorem lanesOf_ne_nil {m : Mask} (h : m ≠ 0) : lanesOf m ≠ [] := fun hn => h (by rw [← maskOf_lanesOf m, hn]; rfl)

/-- The trap of the word in hand in some lanes of a fibre, with %tunit by lane. -/
def Issue.trapIn (it : Issue) (fibre cause : Nat) (tsyn : Word) (tunit : Nat → Word) (ls : List Nat) : PendTrap :=
  { fibre := fibre, lanes := maskOf ls, cause := cause, tsyn := tsyn, tunit := ls.foldl (fun t l => t.put l (tunit l)) [],
    tpc := it.addr it.pos, resume := resumeOf cause, word := it.pos }

theorem Issue.trapIn_tunit (it : Issue) (fibre cause : Nat) (tsyn : Word) (tunit : Nat → Word) {ls : List Nat} {l : Nat} (h : l ∈ ls) :
    (it.trapIn fibre cause tsyn tunit ls).tunit.getD l 0 = tunit l := by
  refine foldl_reaches (fun l (t : Tab Word) => t.getD l 0 = tunit l) _ (fun t l => Tab.getD_put_self ..) (fun t k l hl => ?_) h []
  by_cases hlk : l = k
  · rw [hlk]
    exact Tab.getD_put_self ..
  · rw [Tab.getD_put_ne _ _ _ hlk]
    exact hl

/-- The same trap found in lanes of one fibre is one trap. -/
theorem Issue.joinTrap_lanes (it : Issue) {fibre : Nat} (cause : Nat) (tsyn : Word) (tunit : Nat → Word) {ls : List Nat} (hne : ls ≠ [])
    (h : ∀ l ∈ ls, (it.fibreOf l).id = fibre) :
    (ls.map fun l => ({ lane := l, cause := cause, tsyn := tsyn, tunit := tunit l } : LaneTrap)).foldl
      (fun acc t => joinTrap (it.fibreOf t.lane).id it.pos (it.addr it.pos) t acc) [] = [it.trapIn fibre cause tsyn tunit ls] := by
  induction ls using List.reverseRecOn with
  | nil => exact absurd rfl hne
  | append_singleton ls l ih =>
    have hl : (it.fibreOf l).id = fibre := h l (by simp)
    rw [List.map_append, List.foldl_append]
    by_cases hls : ls = []
    · subst hls
      simp [joinTrap, Issue.trapIn, maskOf, hl, Tab.put]
    · rw [ih hls fun k hk => h k (List.mem_append_left _ hk)]
      simp [joinTrap, Issue.trapIn, maskOf, hl]

/-- Every lane of the one fibre that issues is that fibre's. -/
theorem Issue.fibreOf_lone {it : Issue} {m : Fibre} (h : it.parts = [m]) {l : Nat} (hl : l ∈ lanesOf m.mask) : it.fibreOf l = m := by
  have hb : m.mask.getLsbD l = true := (mem_lanesOf.1 hl).2
  simp [Issue.fibreOf, h, hb]

/-! ### The delivery -/

theorem State.onlyMine.cur {s t : State} (h : s.onlyMine t) : t.cur = s.cur := (congrArg State.cur h.1 :)

theorem State.onlyMine.modIt {s t : State} (h : s.onlyMine t) (f : Issue → Issue) : s.onlyMine (t.modIt f) := by
  obtain ⟨hrest, hgroups, hquarters⟩ := h
  have hcur : t.cur = s.cur := State.onlyMine.cur ⟨hrest, hgroups, hquarters⟩
  obtain ⟨hm, hq⟩ := t.modIt_only f
  refine ⟨?_, fun g hg => (t.modIt_group f g).trans (hgroups g hg), fun q hne => (hq q (hcur ▸ hne)).trans (hquarters q hne)⟩
  exact (congrArg (fun u : State => { u with groups := s.groups, quarters := s.quarters }) hm :).trans hrest

theorem claimTraps_single {p : PendTrap} (hp : p.lanes ≠ 0) : claimTraps [p] 0 = [(p, p.lanes)] := by
  have hfree : p.lanes &&& ~~~(0 : Mask) = p.lanes := BitVec.and_allOnes
  simp only [claimTraps, hfree, hp, if_false]

theorem deliveryOrder_single (e : PendTrap × Mask) : deliveryOrder [e] = [e] := by
  by_cases hc : e.1.cause = 14 <;> simp [deliveryOrder, sortBy, insertBy, hc]

/-- At the end of an issue group that has met one trap, that trap is taken. -/
theorem State.finish_trap {s : State} {p : PendTrap} (hcl : s.it.closes = true) (hl : s.it.late = []) (hw : s.it.waits = [])
    (ht : s.it.traps = [p]) (hp : p.lanes ≠ 0) :
    s.finish = (s.modIt fun it => { it with traps := [], waits := [] }).takeTrap s.it.group p p.lanes (resumeFor s.it p p.lanes) := by
  have hdue : deliveryOrder (claimTraps (sortBy (·.word) [p]) 0) = [(p, p.lanes)] :=
    (congrArg deliveryOrder (claimTraps_single hp)).trans (deliveryOrder_single _)
  unfold State.finish State.settle
  simp only [hcl, hl, hw, ht, hdue]
  rfl

/-- The holders of an operation, with the trap fibre `n` beside the fibre `m` that it leaves. -/
theorem ops_holders (ops : Tab Op) (g m n : Nat) :
    (ops.map fun e => if e.2.group == g then (e.1, { e.2 with holders := if e.2.holders.contains m then e.2.holders ++ [n] else e.2.holders }) else e) =
      ops.map fun e => (e.1, if e.2.group = g ∧ m ∈ e.2.holders then { e.2 with holders := e.2.holders ++ [n] } else e.2) := by
  refine List.map_congr_left fun e _ => ?_
  by_cases hg : e.2.group = g
  · by_cases hm : m ∈ e.2.holders
    · simp [hg, hm]
    · simp only [hg, hm, List.contains_iff_mem, and_false, if_false, beq_self_eq_true, if_true]
      rw [← hg]
  · simp [hg]

/-- A trap in every lane of the one fibre of the group of the word in hand. -/
theorem State.takeTrap_tookTraps {s u : State} {m : Fibre} {p : PendTrap} {tunit : Nat → Word} {r : Resume} (hu : s.onlyMine u)
    (hit : u.it.group = s.it.group) (hmine : u.group s.it.group = s.mine) (hone : s.mine.fibres = [m]) (hm : m.mask ≠ 0)
    (ht : m.trap = none) (hv : tvecAddr s.mine.tvec ≠ 0) (hp : p.fibre = m.id)
    (hunit : ∀ l < 32, m.mask.getLsbD l = true → p.tunit.getD l 0 = tunit l) :
    s.tookTraps (u.takeTrap s.it.group p m.mask r) m p.cause p.tsyn tunit p.tpc r := by
  have hf : s.mine.fibre? p.fibre = some m := by
    unfold Group.fibre?
    rw [hone, hp, List.find?_cons_of_pos (by simp)]
  have hsup : (u.inst (u.team s.mine.team).inst).sup = s.mySup :=
    (congrArg (fun x : State => (x.inst (x.team s.mine.team).inst).sup) hu.1 :)
  have hops : u.ops = s.ops := (congrArg State.ops hu.1 :)
  obtain ⟨hrest, hgroups, hquarters⟩ := hu
  unfold State.takeTrap
  simp only [hmine, hf, BitVec.and_self, BitVec.and_not_self, hm, ht, beq_eq_false_iff_ne.2 hv, Option.isSome_none, Bool.or_false, Bool.false_eq_true,
    if_false, if_true, hsup]
  refine ⟨⟨(congrArg (fun x : State => { x with ops := s.ops, engs := s.engs }) hrest :),
    fun g hg => (State.group_setGroup_ne u _ hg).trans (hgroups g hg), hquarters⟩, ?_⟩
  have hgot (x : Group) (ops : Tab Op) (engs : Tab EngOp) : ({ u.setGroup s.it.group x with ops := ops, engs := engs } : State).mine = x := by
    show (u.setGroup s.it.group x).group u.it.group = x
    rw [hit, State.group_setGroup_self]
  rw [hgot]
  exact ⟨rfl, _, _, rfl, rfl, rfl, rfl, rfl, rfl, rfl, rfl, rfl, rfl, rfl, rfl, rfl, hunit, rfl, rfl, rfl, rfl, rfl, rfl, rfl,
    (ops_holders ..).trans (congrArg (List.map _) hops)⟩

/-! ### A word that traps in every lane -/

/-- What a word leaves, before its issue group ends, that has nothing else to do than its trap in every lane of the fibre. -/
def State.trapped (s : State) (m : Fibre) (cause : Nat) (tsyn : Word) (tunit : Nat → Word) : State :=
  ({ st := s, traps := (lanesOf m.mask).map fun l => { lane := l, cause := cause, tsyn := tsyn, tunit := tunit l } } : MRes).apply

section
variable {s : State} {m : Fibre} (h : s.mayTrap m) (cause : Nat) (tsyn : Word) (tunit : Nat → Word)
include h

/-- Such a word writes no register and notes one trap. -/
theorem State.trapped_notes : ∃ note : Issue → Issue, s.trapped m cause tsyn tunit = (s.commit []).modIt note ∧
    note s.it = { s.it with traps := [s.it.trapIn m.id cause tsyn tunit (lanesOf m.mask)] } := by
  obtain ⟨⟨⟨⟨-, ht, -⟩, hparts⟩, -, hm⟩, -⟩ := h
  refine ⟨_, State.modIt_modIt .., ?_⟩
  rw [ht]
  dsimp only [List.foldl_nil]
  rw [Issue.joinTrap_lanes s.it cause tsyn tunit (lanesOf_ne_nil hm) fun l hl => congrArg Fibre.id (Issue.fibreOf_lone hparts hl)]

theorem State.trapped_issuing : (s.trapped m cause tsyn tunit).issuing = true := by
  obtain ⟨note, hn, -⟩ := State.trapped_notes h cause tsyn tunit
  obtain ⟨⟨⟨⟨hi, -⟩, -⟩, -⟩, -⟩ := h
  rw [hn, State.modIt_issuing, State.commit_issuing, hi]

theorem State.trapped_it : (s.trapped m cause tsyn tunit).it =
    { s.it with traps := [s.it.trapIn m.id cause tsyn tunit (lanesOf m.mask)] } := by
  obtain ⟨note, hn, hit⟩ := State.trapped_notes h cause tsyn tunit
  obtain ⟨⟨⟨⟨hi, -, -, -, -, -, hturns⟩, -⟩, -⟩, -⟩ := h
  have hc : (s.commit []).it = s.it := by
    rw [State.commit_it s [] hi hturns]
    simp [flagsOf]
  rw [hn, State.modIt_it _ _ ((State.commit_issuing ..).trans hi), hc, hit]

theorem State.trapped_only : s.onlyMine (s.trapped m cause tsyn tunit) ∧ (s.trapped m cause tsyn tunit).group s.it.group = s.mine := by
  obtain ⟨note, hn, -⟩ := State.trapped_notes h cause tsyn tunit
  obtain ⟨⟨⟨⟨hi, -⟩, -⟩, -⟩, -⟩ := h
  rw [hn]
  exact ⟨(State.commit_only s [] hi).modIt note, (State.modIt_group ..).trans (State.commit_group s [] hi)⟩

theorem State.trapped_going : (s.trapped m cause tsyn tunit).it.held = false ∧ (s.trapped m cause tsyn tunit).stalled = false := by
  obtain ⟨hrest, -, -⟩ := (State.trapped_only h cause tsyn tunit).1
  rw [State.trapped_it h]
  obtain ⟨⟨⟨⟨-, -, -, -, hheld, hstalled, -⟩, -⟩, -⟩, -⟩ := h
  exact ⟨hheld, (congrArg State.stalled hrest :).trans hstalled⟩

/-- A trap after which the fibre goes on behind the word, as the issue group ends. -/
theorem State.trapped_finish (hterm : s.it.term = []) (hr : resumeOf cause = .after) :
    s.tookTraps (s.trapped m cause tsyn tunit).finish m cause tsyn tunit (s.it.addr s.it.pos) s.resumeAfter := by
  have hi := State.trapped_issuing h cause tsyn tunit
  have hit := State.trapped_it h cause tsyn tunit
  obtain ⟨honly, hmine⟩ := State.trapped_only h cause tsyn tunit
  generalize s.trapped m cause tsyn tunit = u at hi hit honly hmine
  obtain ⟨⟨⟨⟨-, -, hw, hl, -⟩, -⟩, hone, hm⟩, hcl, ht, hv⟩ := h
  have hlanes : (s.it.trapIn m.id cause tsyn tunit (lanesOf m.mask)).lanes = m.mask := maskOf_lanesOf m.mask
  have hgroup : u.it.group = s.it.group := (congrArg Issue.group hit :)
  have hres : resumeFor u.it (s.it.trapIn m.id cause tsyn tunit (lanesOf m.mask)) m.mask = s.resumeAfter := by
    rw [hit]
    simp only [resumeFor, Issue.trapIn, hr, waitingOf, termOf, hw, hterm]
    rfl
  rw [State.finish_trap (by rw [hit]; exact hcl) (by rw [hit]; exact hl) (by rw [hit]; exact hw) (congrArg Issue.traps hit)
    (by rw [hlanes]; exact hm), hlanes, hres, hgroup]
  refine State.takeTrap_tookTraps (honly.modIt _) ?_ ((State.modIt_group ..).trans hmine) hone hm ht hv rfl fun l hl hb =>
    Issue.trapIn_tunit _ _ _ _ _ (mem_lanesOf.2 ⟨hl, hb⟩)
  rw [State.modIt_it _ _ hi]
  exact hgroup

end

end Sys2Proof.Machine
end

section
/-!
The illegal-wait trap (spec/05 R97, R98), and the statement O33.
-/

namespace Sys2Proof.Machine

open Sys2Proof

/-! ### Legality (spec/05 R97) -/

/-- At the levels that have a class, a wait is legal where the class lets it wait. -/
theorem waitmIllegal_class (i : Instance) {l : WLevel} (hl : l = .fibre ∨ l = .group ∨ l = .team) (any : Bool) :
    waitmIllegal i l any = if levelClass i.tcb l = 0 ∨ (levelClass i.tcb l = 1 ∧ (!any) = true) then none
      else some (BitVec.ofNat 64 (levelCode l + 8 * bnat any + 16 * levelClass i.tcb l)) := by
  rcases hl with rfl | rfl | rfl <;> simp [waitmIllegal, bnat]

/-- A wait of level grid is legal in a member of a formed set. -/
theorem waitmIllegal_grid (i : Instance) (any : Bool) :
    waitmIllegal i .grid any = if i.setMembers ≠ [] then none else some (BitVec.ofNat 64 (3 + 8 * bnat any + 16 * 3 + 64 * 1)) := by
  by_cases hs : i.setMembers = [] <;> simp [waitmIllegal, Instance.inSet, levelClass, levelCode, bnat, hs]

theorem waitmIllegal_class_none (i : Instance) {l : WLevel} (hl : l = .fibre ∨ l = .group ∨ l = .team) (any : Bool) :
    waitmIllegal i l any = none ↔ levelClass i.tcb l = 0 ∨ (levelClass i.tcb l = 1 ∧ (!any) = true) := by
  rw [waitmIllegal_class i hl, ite_eq_left_iff, imp_iff_not (Option.some_ne_none _), not_not]

theorem waitmIllegal_grid_none (i : Instance) (any : Bool) : waitmIllegal i .grid any = none ↔ i.setMembers ≠ [] := by
  rw [waitmIllegal_grid, ite_eq_left_iff, imp_iff_not (Option.some_ne_none _), not_not]

/-! ### The trap (spec/05 R98) -/

/-- The run of a terminal word that does nothing but trap in every lane of the one fibre. -/
theorem State.runEach_trapped {s : State} {m : Fibre} {f : Fibre → Group → State → MRes × Option Term} {cause : Nat} {tsyn tunit : Word}
    (h : s.lone m) (hf : f m s.regs s = ({ st := s, traps := trapLanes m.mask cause tsyn tunit }, none)) :
    s.runEach (withTerm f) = s.trapped m cause tsyn fun _ => tunit := by
  obtain ⟨⟨-, -, -, -, -, -, hturns⟩, hparts⟩ := h
  have hf : f m s.it.snap s = _ := hf
  unfold State.runEach
  rw [hparts, Issue.view_nil _ hturns]
  simp only [runMembers, withTerm, hf]
  rfl

section
variable {s : State} {m : Fibre} (h : s.mayTrap m) (hterm : s.it.term = []) (hlast : s.it.lastPlace = true)
  {f : Fibre → Group → State → MRes × Option Term} {cause : Nat} {tsyn tunit : Word} (hr : resumeOf cause = .after)
  (hf : f m s.regs s = ({ st := s, traps := trapLanes m.mask cause tsyn tunit }, none))
include h hterm hlast hr hf

theorem terminalWord_traps : ∃ t, terminalWord s f = .next t ∧ s.tookTrap t m cause tsyn tunit s.resumeAfter := by
  refine ⟨_, ?_, State.trapped_finish h cause tsyn (fun _ => tunit) hterm hr⟩
  unfold terminalWord perMember done
  rw [if_pos hlast, State.runEach_trapped h.1.1 hf]

theorem terminalAccess_traps : ∃ t, terminalAccess s f = .next t ∧ s.tookTrap t m cause tsyn tunit s.resumeAfter := by
  obtain ⟨hheld, hstalled⟩ := State.trapped_going h cause tsyn fun _ => tunit
  refine ⟨_, ?_, State.trapped_finish h cause tsyn (fun _ => tunit) hterm hr⟩
  unfold terminalAccess accessEach unlessHeld done
  rw [if_pos hlast, State.runEach_trapped h.1.1 hf, hheld, hstalled]
  exact if_neg Bool.false_ne_true

end

section
variable {s : State} {m : Fibre} (h : s.mayTrap m) (hterm : s.it.term = []) (hlast : s.it.lastPlace = true) {y : Word}
include h hterm hlast

theorem gbar_traps (hy : gbarIllegal (s.inst s.myInst) = some y) : Answers .gbar s fun t => s.tookTrap t m 11 y 0 s.resumeAfter :=
  terminalWord_traps h hterm hlast rfl (by dsimp only; rw [hy])

theorem waitm_traps {base cmp : SReg} {space : Space} {lit : WLit} (hy : waitmIllegal (s.inst s.myInst) lit.level lit.any = some y) :
    Answers (.waitm base cmp space lit) s fun t => s.tookTrap t m 11 y 0 s.resumeAfter :=
  terminalAccess_traps h hterm hlast rfl (by dsimp only; rw [hy])

/-- A wait at a level whose class does not let it wait. -/
theorem waitm_class_traps {base cmp : SReg} {space : Space} {lit : WLit} {l : WLevel} (hlit : lit.level = l)
    (hl : l = .fibre ∨ l = .group ∨ l = .team)
    (hbad : ¬(levelClass (s.inst s.myInst).tcb l = 0 ∨ (levelClass (s.inst s.myInst).tcb l = 1 ∧ (!lit.any) = true))) :
    Answers (.waitm base cmp space lit) s fun t => s.tookTrap t m 11
      (BitVec.ofNat 64 (levelCode l + 8 * bnat lit.any + 16 * levelClass (s.inst s.myInst).tcb l)) 0 s.resumeAfter :=
  waitm_traps h hterm hlast (by rw [hlit, waitmIllegal_class _ hl, if_neg hbad])

/-- A wait of level grid outside a formed set. -/
theorem waitm_grid_traps {base cmp : SReg} {space : Space} {lit : WLit} (hlit : lit.level = .grid) (hset : (s.inst s.myInst).setMembers = []) :
    Answers (.waitm base cmp space lit) s fun t => s.tookTrap t m 11
      (BitVec.ofNat 64 (3 + 8 * bnat lit.any + 16 * 3 + 64 * 1)) 0 s.resumeAfter :=
  waitm_traps h hterm hlast (by rw [hlit, waitmIllegal_grid, if_neg (not_not.2 hset)])

end

/-- Settles O33: an illegal wait notes its trap in every lane and nothing else, and the trap is taken as its issue group ends. -/
theorem illegalWaits : Obligations.IllegalWaits := by
  unfold Obligations.IllegalWaits
  intro s m h hterm hlast
  dsimp only
  refine ⟨fun hclt => gbar_traps h hterm hlast (if_neg hclt), fun lit => ?_, fun base cmp space lit =>
    ⟨fun hl hbad => waitm_class_traps h hterm hlast hl (.inl rfl) hbad, fun hl hbad => waitm_class_traps h hterm hlast hl (.inr (.inl rfl)) hbad,
      fun hl hbad => waitm_class_traps h hterm hlast hl (.inr (.inr rfl)) hbad, fun hl hset => waitm_grid_traps h hterm hlast hl hset⟩⟩
  cases lit.level with
  | fibre => exact (waitmIllegal_class_none _ (.inl rfl) lit.any).trans not_not.symm
  | group => exact (waitmIllegal_class_none _ (.inr (.inl rfl)) lit.any).trans not_not.symm
  | team => exact (waitmIllegal_class_none _ (.inr (.inr rfl)) lit.any).trans not_not.symm
  | grid => exact waitmIllegal_grid_none _ lit.any
  | ext => exact iff_of_true rfl trivial

end Sys2Proof.Machine
end

section
/-!
The statement O30 (spec/16 R348): it finds what the lanes of a CWB meet from the state in which the word issues. Where the entry of a table was struck in a
die cache alone, under another key slot, the first lane's walk drops that copy with its poison (spec/07 R141, R158; log 48), and the lanes after it read on.
-/

namespace Sys2Proof.Machine

open Sys2Proof

/-- A CWB in hand whose lanes all name address 0. The entry of the root table that they walk through is 0, and poisoned by a strike in a die cache that
holds its line, clean, under key slot 1. -/
def struckTable : State :=
  { Tests.hand Tests.withHandler with
    fns := [(0, { feata := BitVec.allOnes 64, lock := true, kcount := 1, qcount := 1 })],
    slots := [(0, { root := 0x10000 })], keys := [(0, { state := .live, key := 3 })],
    mem := putBytes [] 0x10000 (leBytes 8 0),
    units := [(0x10000 / 32, { key := 3, slot := 0 })],
    placed := [(1, .stack 0)],
    dir := [(0x10000 / 128, { slot := 1, sharers := 1, owner := some 0, dirty := false, struck := [0x10000 / 32] })],
    poison := [0x10000 / 32] }

theorem struckTable_mayTrap : struckTable.mayTrap Tests.fibre ∧ struckTable.it.term = [] := by
  unfold State.mayTrap State.alone State.lone State.clean
  decide +kernel

/-- Before any lane has walked, every lane would meet the poison. -/
theorem struckTable_poisoned (l : Nat) :
    struckTable.translate struckTable.myCore struckTable.myFn struckTable.mySlot (struckTable.ea ⟨0, 63, none⟩ 1 l).toNat .read = .poison 0x10000 := by
  have h : struckTable.ea ⟨0, 63, none⟩ 1 l = 0 := rfl
  rw [h]
  decide +kernel

/-- What an instruction answers, read off its next state. -/
theorem Answers.of_next {i : Instr} {s : State} {α : Type} {f : State → α} {x : α} (h : (Tests.next (exec i s)).map f = some x) :
    Answers i s fun t => f t = x := by
  obtain ⟨t, ht, hx⟩ := Option.map_eq_some_iff.1 h
  cases he : exec i s with
  | next u =>
    rw [he] at ht
    cases ht
    exact ⟨_, he, hx⟩
  | fault r => rw [he] at ht; cases ht
  | refused r => rw [he] at ht; cases ht

/-- One lane takes 0x09 and the others the trap of an entry without V, each in a trap fibre of its own. -/
theorem cwb_struckTable : Answers (.cwb ⟨0, 63, none⟩ false) struckTable fun t => t.mine.fibres.length = 2 :=
  Answers.of_next (by decide +kernel)

/-- Refutes O30: in `struckTable` every lane of a CWB would meet the poison of one table's entry, but the first lane's walk drops the struck copy, and only
that lane takes 0x09; the others read the entry, which is 0, and take 0x07. -/
theorem not_cacheWordResults : ¬ Obligations.CacheWordResults := by
  unfold Obligations.CacheWordResults
  intro h
  obtain ⟨hmay, hterm⟩ := struckTable_mayTrap
  obtain ⟨-, -, -, -, -, hcwb⟩ := h struckTable ⟨0, 63, none⟩ hmay.1.1.1
  obtain ⟨-, hpoison⟩ := hcwb Tests.fibre false hmay hterm (.inl rfl)
  obtain ⟨t, ht, u, ⟨hcaches, -⟩, -, -, f, x, hfibres, -⟩ := hpoison fun l _ => ⟨_, struckTable_poisoned l⟩
  obtain ⟨v, hv, hlength⟩ := cwb_struckTable
  cases ht.symm.trans hv
  have hone : u.mine.fibres = [Tests.fibre] := (congrArg (fun y : State => y.mine.fibres) hcaches :).trans hmay.1.2.1
  rw [hfibres, hone] at hlength
  have hlength : 1 = 2 := hlength
  omega

end Sys2Proof.Machine
end

section
/-!
A word that does nothing but trap in every lane of the one fibre: what it leaves in an issue group that goes on (spec/11 R239), the trap that issues the
word again (R237), and the statements O11 and O19.
-/

namespace Sys2Proof.Machine

open Sys2Proof

/-! ### The lanes of the one fibre that issues -/

theorem Issue.mask_lone {it : Issue} {m : Fibre} (h : it.parts = [m]) : it.mask = m.mask := by
  unfold Issue.mask
  rw [h]
  exact BitVec.zero_or

theorem Issue.wb_lone {it : Issue} {m : Fibre} (h : it.parts = [m]) : it.wb = m.wb := by
  unfold Issue.wb
  rw [h]
  rfl

/-! ### The runs -/

section
variable {s : State} {m : Fibre} {cause : Nat} {tsyn : Word}

theorem batchWord_trapped (h : s.it.parts = [m]) {f : Issue → Group → State → MRes}
    (hf : f s.it s.it.snap s = { st := s, traps := trapLanes s.it.mask cause tsyn }) :
    batchWord s f = .next (s.trapped m cause tsyn fun _ => 0).finish := by
  unfold batchWord
  rw [hf, Issue.mask_lone h]
  rfl

theorem perMember_trapped (h : s.lone m) {f : Fibre → Group → State → MRes} (hf : f m s.regs s = { st := s, traps := trapLanes m.mask cause tsyn }) :
    perMember s f = .next (s.trapped m cause tsyn fun _ => 0).finish := by
  obtain ⟨⟨-, -, -, -, -, -, hturns⟩, hparts⟩ := h
  have hf : f m s.it.snap s = _ := hf
  unfold perMember State.runEach
  rw [hparts, Issue.view_nil _ hturns]
  simp only [runMembers, hf]
  rfl

end

/-! ### An issue group that goes on -/

theorem State.quarter_modIt {s : State} (h : s.issuing = true) (f : Issue → Issue) :
    (s.modIt f).quarter s.cur = { s.quarter s.cur with issue := some (f s.it) } := by
  obtain ⟨it, hi⟩ := Option.isSome_iff_exists.1 h
  unfold State.modIt State.it
  rw [hi]
  exact State.quarter_setQuarter_self ..

/-- The clause in hand after no write is as it was. -/
theorem State.commit_nil_it {s : State} (h : s.clean) : (s.commit []).it = s.it := by
  obtain ⟨hi, -, -, -, -, -, hturns⟩ := h
  rw [State.commit_it s [] hi hturns]
  simp [flagsOf]

/-- A note on the clause in hand after no write. -/
theorem State.quarter_modIt_commit_nil {s : State} (h : s.clean) (f : Issue → Issue) :
    ((s.commit []).modIt f).quarter s.cur = { s.quarter s.cur with issue := some (f s.it) } := by
  obtain ⟨hi, -, -, -, -, -, hturns⟩ := id h
  obtain ⟨it, hq, -⟩ := State.commit_unnoted s [] hi hturns
  have hm := State.quarter_modIt ((State.commit_issuing s []).trans hi) f
  rw [State.commit_cur, hq, State.commit_nil_it h] at hm
  exact hm

/-- A word that changes nothing and notes something of its clause has changed its quarter alone. -/
theorem State.onlyMine_modIt_commit_nil {s : State} (h : s.clean) (f : Issue → Issue) :
    s.onlyMine ((s.commit []).modIt f) ∧ ((s.commit []).modIt f).it = f s.it ∧ ((s.commit []).modIt f).group s.it.group = s.mine := by
  obtain ⟨hi, -⟩ := id h
  refine ⟨(State.commit_only s [] hi).modIt f, ?_, (State.modIt_group ..).trans (State.commit_group s [] hi)⟩
  rw [State.modIt_it _ _ ((State.commit_issuing ..).trans hi), State.commit_nil_it h]

/-- The trap that every lane notes stands among those that the end of the issue group delivers. -/
theorem State.trapped_pended {s : State} {m : Fibre} (h : s.lone m) (hcl : s.it.closes = false) (cause : Nat) (tsyn : Word) (tunit : Nat → Word) :
    s.pended (s.trapped m cause tsyn tunit).finish cause tsyn := by
  obtain ⟨hc, hparts⟩ := h
  obtain ⟨-, htraps, -⟩ := id hc
  obtain ⟨note, hnote, hit⟩ : ∃ note : Issue → Issue, s.trapped m cause tsyn tunit = (s.commit []).modIt note ∧
      note s.it = { s.it with traps := (note s.it).traps } ∧
      (m.mask ≠ 0 → (note s.it).traps = [s.it.trapIn m.id cause tsyn tunit (lanesOf m.mask)]) := by
    refine ⟨_, State.modIt_modIt .., rfl, fun hm => ?_⟩
    dsimp only
    rw [htraps]
    exact Issue.joinTrap_lanes s.it cause tsyn tunit (lanesOf_ne_nil hm) fun l hl => congrArg Fibre.id (Issue.fibreOf_lone hparts hl)
  obtain ⟨hnoted, hone⟩ := hit
  obtain ⟨honly, hui, hgroup⟩ := State.onlyMine_modIt_commit_nil hc note
  have hq := State.quarter_modIt_commit_nil hc note
  rw [← hnote] at honly hui hgroup hq
  have hfin : (s.trapped m cause tsyn tunit).finish = s.trapped m cause tsyn tunit := by
    have hcl : (s.trapped m cause tsyn tunit).it.closes = false := by
      rw [hui, hnoted]
      exact hcl
    unfold State.finish
    rw [hcl]
    rfl
  rw [hfin]
  refine ⟨honly, ?_, hq.trans ?_, fun l hl => ?_⟩
  · unfold State.mine
    rw [hui, hnoted]
    exact hgroup
  · rw [hui, hnoted]
  · rw [Issue.mask_lone hparts] at hl
    have hm : m.mask ≠ 0 := fun hz => by simp [lanesOf, hz] at hl
    refine ⟨s.it.trapIn m.id cause tsyn tunit (lanesOf m.mask), by rw [hui, hone hm]; exact List.mem_singleton_self _, ?_, rfl, rfl, rfl, ?_⟩
    · show (maskOf (lanesOf m.mask)).getLsbD l = true
      rw [maskOf_lanesOf]
      exact (mem_lanesOf.1 hl).2
    · exact (congrArg Fibre.id (Issue.fibreOf_lone hparts hl)).symm

/-! ### Privilege (spec/06 R133; spec/18 R392) -/

/-- A word that only takes the privilege trap, in an issue group that closes and in one that goes on. -/
theorem privilegeTrap_answers {s : State} {m : Fibre} {i : Instr} {tsyn : Word}
    (hexec : s.lone m → exec i s = .next (s.trapped m 3 tsyn fun _ => 0).finish) :
    (s.mayTrap m → s.it.term = [] → Answers i s fun t => s.tookTrap t m 3 tsyn 0 s.resumeAfter) ∧
    (s.lone m → s.it.closes = false → Answers i s fun t => s.pended t 3 tsyn) :=
  ⟨fun h hterm => ⟨_, hexec h.1.1, State.trapped_finish h 3 tsyn _ hterm rfl⟩, fun h hcl => ⟨_, hexec h, State.trapped_pended h hcl 3 tsyn _⟩⟩

theorem srd_user_traps {s : State} {m : Fibre} {n : SpecialReg} {i : Instr} (hsup : s.mySup = false) (hn : 32 ≤ n.code)
    (hi : (∃ d, i = .srdS d n) ∨ ∃ d hi, i = .srdV d n hi) (h : s.lone m) :
    exec i s = .next (s.trapped m 3 (BitVec.ofNat 64 n.code) fun _ => 0).finish := by
  have hbar : (supervisorOnly n && !s.mySup) = true := by simp [supervisorOnly, hn, hsup]
  rcases hi with ⟨d, rfl⟩ | ⟨d, hi, rfl⟩ <;> exact perMember_trapped h (if_pos hbar)

theorem userWritable_iff (n : SpecialReg) : userWritable n = true ↔ n ∈ ([.fpsr, .wdog, .tvec] : List SpecialReg) := by
  cases n <;> decide

theorem swr_user_traps {s : State} {m : Fibre} {n : SpecialReg} {a : SReg} (hsup : s.mySup = false)
    (hn : n ∉ ([.fpsr, .wdog, .tvec] : List SpecialReg)) (h : s.lone m) :
    exec (.swr n a) s = .next (s.trapped m 3 (BitVec.ofNat 64 n.code) fun _ => 0).finish := by
  have hbar : (!userWritable n && !s.mySup) = true := by
    rw [hsup, Bool.eq_false_iff.2 fun hw => hn ((userWritable_iff n).1 hw)]
    rfl
  exact perMember_trapped h (if_pos hbar)

theorem privileged_user_traps {s : State} {m : Fibre} {tsyn : Word} {r : Res} (hsup : s.mySup = false) (h : s.lone m) :
    privileged s tsyn r = .next (s.trapped m 3 tsyn fun _ => 0).finish := by
  unfold privileged
  rw [hsup, if_neg Bool.false_ne_true]
  exact batchWord_trapped h.2 rfl

/-- A special register that user mode may not read or write. -/
theorem special_user_traps {s : State} {m : Fibre} {n : SpecialReg} {i : Instr} (hsup : s.mySup = false)
    (hi : (32 ≤ n.code ∧ ((∃ d, i = .srdS d n) ∨ ∃ d hi, i = .srdV d n hi)) ∨ (n ∉ ([.fpsr, .wdog, .tvec] : List SpecialReg) ∧ ∃ a, i = .swr n a))
    (h : s.lone m) : exec i s = .next (s.trapped m 3 (BitVec.ofNat 64 n.code) fun _ => 0).finish := by
  rcases hi with ⟨hn, hi⟩ | ⟨hn, a, rfl⟩
  · exact srd_user_traps hsup hn hi h
  · exact swr_user_traps hsup hn h

/-- Settles O11: each of the words only notes the trap 0x03 in its lanes, and the issue group delivers it where it closes. -/
theorem privilegeTraps : Obligations.PrivilegeTraps := by
  unfold Obligations.PrivilegeTraps
  refine ⟨fun s m n i h hterm hsup hi => (privilegeTrap_answers (special_user_traps hsup hi)).1 h hterm,
    fun s m n i h hcl hsup hi => (privilegeTrap_answers (special_user_traps hsup hi)).2 h hcl, fun s m a b c i hsup hi => privilegeTrap_answers ?_⟩
  simp only [List.mem_cons, List.not_mem_nil, or_false] at hi
  rcases hi with rfl | rfl | rfl | rfl | rfl <;> exact privileged_user_traps hsup

/-! ### Register bounds (spec/06 R132) -/

/-- The words without effect in the lanes of one trap: the word in hand, once. -/
theorem Issue.reissueOf_trapIn {it : Issue} {m : Mask} (hm : m ≠ 0) (hw : it.waits = []) (fibre cause : Nat) (tsyn : Word) (tunit : Nat → Word) :
    reissueOf { it with traps := [it.trapIn fibre cause tsyn tunit (lanesOf m)] } m = [(it.pos, m)] := by
  have hlanes : (0 : Mask) ||| (maskOf (lanesOf m) &&& m) = m := by
    rw [maskOf_lanesOf, BitVec.and_self]
    exact BitVec.zero_or
  have hne : (m != 0) = true := bne_iff_ne.2 hm
  show wordsFor (_ ++ it.waits.map _) m = _
  rw [hw]
  show List.filter (fun e => e.2 != 0) [(it.pos, (0 : Mask) ||| (maskOf (lanesOf m) &&& m))] = _
  rw [hlanes]
  exact List.filter_cons_of_pos (p := fun e : Nat × Mask => e.2 != 0) hne

/-- A trap after which the word issues again, as the issue group ends. -/
theorem State.trapped_finish_word {s : State} {m : Fibre} (h : s.mayTrap m) (cause : Nat) (tsyn : Word) (tunit : Nat → Word) (hterm : s.it.term = [])
    (hr : resumeOf cause = .word) :
    s.tookTraps (s.trapped m cause tsyn tunit).finish m cause tsyn tunit (s.it.addr s.it.pos) (s.resumeWord m) := by
  have hi := State.trapped_issuing h cause tsyn tunit
  have hit := State.trapped_it h cause tsyn tunit
  obtain ⟨honly, hmine⟩ := State.trapped_only h cause tsyn tunit
  generalize s.trapped m cause tsyn tunit = u at hi hit honly hmine
  obtain ⟨⟨⟨⟨-, -, hw, hl, -⟩, -⟩, hone, hm⟩, hcl, ht, hv⟩ := h
  have hlanes : (s.it.trapIn m.id cause tsyn tunit (lanesOf m.mask)).lanes = m.mask := maskOf_lanesOf m.mask
  have hgroup : u.it.group = s.it.group := (congrArg Issue.group hit :)
  have hres : resumeFor u.it (s.it.trapIn m.id cause tsyn tunit (lanesOf m.mask)) m.mask = s.resumeWord m := by
    rw [hit]
    unfold resumeFor
    rw [show (s.it.trapIn m.id cause tsyn tunit (lanesOf m.mask)).resume = .word from hr]
    dsimp only
    rw [Issue.reissueOf_trapIn hm hw]
    unfold termOf
    rw [hterm]
    rfl
  rw [State.finish_trap (by rw [hit]; exact hcl) (by rw [hit]; exact hl) (by rw [hit]; exact hw) (congrArg Issue.traps hit)
    (by rw [hlanes]; exact hm), hlanes, hres, hgroup]
  refine State.takeTrap_tookTraps (honly.modIt _) ?_ ((State.modIt_group ..).trans hmine) hone hm ht hv rfl fun l hl hb =>
    Issue.trapIn_tunit _ _ _ _ _ (mem_lanesOf.2 ⟨hl, hb⟩)
  rw [State.modIt_it _ _ hi]
  exact hgroup

/-- An index register as R132 reads it. -/
theorem signedOf_toNat (x : BitVec 16) : signedOf 16 x.toNat = x.toInt := by
  have hx := x.isLt
  unfold signedOf
  rw [BitVec.toInt_eq_toNat_cond, Nat.mod_eq_of_lt hx]
  dsimp only
  split <;> split <;> omega

/-- The lanes of operands that fail alike. -/
theorem laneRegs_error {it : Issue} {g : Group} {ops : List VArg} {d : Word} (h : ∀ l ∈ lanesOf it.mask, resolveAll g it.wb l ops = .error d) :
    laneRegs it g ops = (lanesOf it.mask).map fun l => (l, .error d) :=
  List.map_congr_left fun l hl => by rw [h l hl]

theorem goodLanes_error (ls : List Nat) (d : Word) : goodLanes (ls.map fun l => (l, .error d)) = [] := by
  unfold goodLanes
  rw [List.filterMap_map]
  exact List.filterMap_eq_nil_iff.2 fun _ _ => rfl

theorem boundTraps_error (ls : List Nat) (d : Word) :
    boundTraps (ls.map fun l => (l, .error d)) = ls.map fun l => { lane := l, cause := 4, tsyn := d } := by
  unfold boundTraps
  rw [List.filterMap_map]
  exact congrFun (List.filterMap_eq_map (f := fun l => ({ lane := l, cause := 4, tsyn := d } : LaneTrap))) ls

/-- A lane-wise word whose operands fail alike in every lane. -/
theorem laneWord_bounds {s : State} {m : Fibre} {ops : List VArg} {d : Word} (h : s.mayTrap m) (hterm : s.it.term = [])
    (hd : ∀ l ∈ lanesOf s.it.mask, resolveAll s.regs s.it.wb l ops = .error d) (f : Group → Nat → List Nat → List GWrite) :
    ∃ t, laneWord s ops f = .next t ∧ s.tookTrap t m 4 d 0 (s.resumeWord m) := by
  refine ⟨_, batchWord_trapped h.1.1.2 ?_, State.trapped_finish_word h 4 d _ hterm rfl⟩
  dsimp only
  have hr := laneRegs_error hd
  unfold State.regs at hr
  rw [hr, goodLanes_error, boundTraps_error]
  rfl

section
variable {s : State} {m : Fibre} {o : VOp} {d : Int} (h : s.mayTrap m)
  (hd : d < 0 ∨ 63 < d ∨ (s.regs.walloc : Int) ≤ m.wb + d)
  (ho : match o with
    | .dir n => d = n.val
    | .idx x imm => ∀ l, m.mask.getLsbD l = true → d = (s.regs.xreg l x.val).toInt + imm.val)
include h hd ho

/-- The operand of R132 is out of bounds in every lane, and so is every list of operands that begins with it. -/
theorem resolveAll_outside (rest : List VArg) {l : Nat} (hl : l ∈ lanesOf s.it.mask) :
    resolveAll s.regs s.it.wb l ({ op := o, wide := false } :: rest) = .error (BitVec.ofInt 64 d) := by
  obtain ⟨⟨⟨-, hparts⟩, -⟩, -⟩ := h
  rw [Issue.mask_lone hparts] at hl
  have hindex : opIndex s.regs l o = d := by
    cases o with
    | dir n => exact ho.symm
    | idx x imm =>
      unfold opIndex
      dsimp only
      rw [signedOf_toNat]
      exact (ho l (mem_lanesOf.1 hl).2).symm
  have houtside : regInside s.regs m.wb d = false := by
    unfold regInside
    exact decide_eq_false (by omega)
  unfold resolveAll resolve
  rw [Issue.wb_lone hparts]
  simp only [hindex, houtside, Bool.false_eq_true, if_false]
  rfl

end

/-- Settles O19: the destination fails in every lane, and the trap of the lanes is taken as the issue group ends. -/
theorem registerBoundsTrap : Obligations.RegisterBoundsTrap := by
  unfold Obligations.RegisterBoundsTrap
  intro s m o a b c d h hterm hd ho
  have hlane (rest : List VArg) (f : Group → Nat → List Nat → List GWrite) :=
    laneWord_bounds h hterm (fun l hl => resolveAll_outside h hd ho rest hl) f
  have hvec (srcs : List VArg) (f : Group → Nat → List Nat → Nat × Word) :
      ∃ t, vecWord s { op := o } srcs f = .next t ∧ s.tookTrap t m 4 (BitVec.ofInt 64 d) 0 (s.resumeWord m) := hlane srcs _
  refine ⟨?_, ?_, fun p => ?_, fun imm => ?_, fun st dt mode sat hw => ?_⟩
  · show ∃ t, execVadd .i32 o a b s = .next t ∧ _
    unfold execVadd vint2 vec2
    exact hvec _ _
  · show ∃ t, execVmad o a b c s = .next t ∧ _
    unfold execVmad
    exact hvec _ _
  · show ∃ t, execVsel o false p a b s = .next t ∧ _
    unfold execVsel
    exact hlane _ _
  · show ∃ t, execVmovi o imm s = .next t ∧ _
    unfold execVmovi
    exact hvec _ _
  · show ∃ t, execVcvt st dt mode sat o a s = .next t ∧ _
    unfold execVcvt
    rw [hw]
    exact hvec _ _

end Sys2Proof.Machine
end

section
/-!
Reads of special registers (spec/06 R133; spec/14 R304), and the statement O9.
-/

namespace Sys2Proof.Machine

open Sys2Proof

/-! ### Lane by lane -/

/-- Registers written lane by lane, as `State.wroteV` has them. -/
theorem State.commit_wroteV {s : State} (hc : s.clean) (wide : Bool) {rd : Nat → Nat} (val : Nat → Nat) (flags : Nat → Word)
    (hreg : ∀ l ∈ lanesOf s.it.mask, rd l < 256 ∧ (wide = true → rd l + 1 < 256)) :
    s.wroteV (s.commit ((lanesOf s.it.mask).flatMap fun l => laneOut l wide (rd l) (val l) (flags l))) wide rd val flags := by
  obtain ⟨hi, -, -, -, -, -, hturns⟩ := hc
  have hkeep := keepFlags_lanes s.it.gflags (lanesOf s.it.mask) (fun l => laneOut l wide (rd l) (val l) (flags l)) fun l w hl => by
    rcases laneOut_form _ _ _ _ _ w hl with ⟨_, _, _, rfl⟩ | ⟨_, rfl⟩ <;> rfl
  have hm := State.commit_mine s ((lanesOf s.it.mask).flatMap fun l => laneOut l wide (rd l) (val l) (flags l)) hi hturns
  rw [hkeep] at hm
  refine ⟨State.commit_only s _ hi, State.commit_unnoted s _ hi hturns, ?_⟩
  rw [hm]
  exact Group.writes_lanes (lanesOf s.it.mask) (lanesOf_nodup _) wide rd val flags hreg s.mine

/-! ### Fields of the values -/

theorem fieldOf_low (x hi : Nat) : fieldOf x hi 0 = x % 2 ^ (hi + 1) := by
  unfold fieldOf
  rw [Nat.pow_zero, Nat.div_one]
  rfl

theorem bnat_mul (x : Bool) (k : Nat) : bnat x * k = if x then k else 0 := by
  cases x
  · exact Nat.zero_mul k
  · exact Nat.one_mul k

/-- Ones counted are the places that hold one. -/
theorem popCount_eq_length (x n : Nat) : popCount x n = ((List.range n).filter fun p => x.testBit p).length := by
  induction n with
  | zero => rfl
  | succ n ih =>
    rw [List.range_succ, List.filter_append, List.length_append, ← ih]
    show popCount x n + x / 2 ^ n % 2 = _
    rw [List.filter_singleton, Nat.testBit_eq_decide_div_mod_eq]
    rcases Nat.mod_two_eq_zero_or_one (x / 2 ^ n) with h | h <;> simp [h]

theorem State.selectedLink_eq (s : State) : s.selectedLink =
    let i := s.lksel.toNat / 2 ^ 8 % 64
    match s.lksel.toNat % 4 with
    | 0 => if i < 48 then some i else none
    | 1 => if i = 0 then some 48 else none
    | 2 => if i < 8 then some (49 + i) else none
    | _ => if i < 24 then some (57 + i) else none := by
  unfold State.selectedLink
  rw [fieldOf_low]
  rfl

theorem linkShape_fields (up : Bool) (n : Nat) :
    (if up then linkShape n else (0, 0)).1 * 2 + (if up then linkShape n else (0, 0)).2 * 256 =
      if up = true ∧ 48 ≤ n then (if n < 57 then 16 else 4) * 2 + (if n = 48 then 128 else if n < 57 then 64 else 200) * 256 else 0 := by
  unfold linkShape
  cases up with
  | false => simp
  | true =>
    by_cases h48 : n < 48
    · simp [h48, Nat.not_le.2 h48]
    · by_cases he : n = 48
      · simp [he]
      · by_cases h57 : n < 57 <;> simp [h48, he, h57, Nat.not_lt.1 h48]

/-! ### What a read does beside it -/

theorem State.clearLkstat_form (s : State) : ∃ ls, s.clearLkstat = { s with links := ls } := by
  unfold State.clearLkstat
  split
  · exact ⟨_, rfl⟩
  · exact ⟨_, rfl⟩

theorem State.clearLkstat_clears {s : State} {l : Nat} (h : (if s.myFn = 0 then s.selectedLink else none) = some l) :
    (s.clearLkstat.link l).retrn = 0 ∧ (s.clearLkstat.link l).replay = 0 := by
  unfold State.clearLkstat
  rw [h]
  dsimp only
  rw [State.link_setLink_self]
  exact ⟨rfl, rfl⟩

/-- Where nothing of a reduction is due, time goes on and nothing else happens. -/
theorem State.overtake_idle {s : State} {t : Nat} (hn : s.dueNodes t = []) (hr : s.dueRounds t = []) : s.overtake t = { s with time := t } := by
  unfold State.overtake
  rw [hn, hr]
  rfl

/-- What a first read of %time makes of the state. -/
def State.counted (s : State) : State :=
  ({ s with time := s.time + Config.timeStep s.free, free := s.free + 1 } : State).modIt fun it => { it with time := some (s.time + Config.timeStep s.free) }

theorem State.counted_it {s : State} (h : s.issuing = true) : s.counted.it = { s.it with time := some (s.time + Config.timeStep s.free) } :=
  State.modIt_it _ _ h

theorem State.beforeRead_time {s : State} (ht : s.it.time = none) (hn : s.dueNodes (s.time + Config.timeStep s.free) = [])
    (hr : s.dueRounds (s.time + Config.timeStep s.free) = []) : s.beforeRead .time = s.counted := by
  unfold State.beforeRead
  rw [ht]
  dsimp only
  rw [State.overtake_idle hn hr]
  rfl

theorem State.beforeRead_time_again {s : State} (ht : s.it.time ≠ none) : s.beforeRead .time = s := by
  obtain ⟨t, ht⟩ := Option.ne_none_iff_exists'.1 ht
  unfold State.beforeRead
  rw [ht]

theorem State.beforeRead_other (s : State) {n : SpecialReg} (h : n ≠ .time) : s.beforeRead n = s := by
  unfold State.beforeRead
  split
  · exact absurd rfl h
  · rfl

theorem State.afterRead_other (s : State) {n : SpecialReg} (h : n ≠ .lkstat) : s.afterRead n = s := by
  unfold State.afterRead
  split
  · exact absurd rfl h
  · rfl

theorem State.counted_clean {s : State} (h : s.clean) : s.counted.clean := by
  obtain ⟨hi, ht, hw, hl, hh, hs, hn⟩ := h
  have hstalled : s.counted.stalled = s.stalled :=
    (congrArg State.stalled (State.modIt_only ({ s with time := s.time + Config.timeStep s.free, free := s.free + 1 } : State) _).1 :)
  refine ⟨(State.modIt_issuing ..).trans hi, ?_, ?_, ?_, ?_, hstalled.trans hs, ?_⟩ <;> rw [State.counted_it hi] <;> assumption

theorem State.clearLkstat_clean {s : State} (h : s.clean) : s.clearLkstat.clean := by
  obtain ⟨ls, hls⟩ := s.clearLkstat_form
  rw [hls]
  exact h

/-! ### The words -/

theorem srd_allowed {s : State} {n : SpecialReg} (hn : n.code < 32 ∨ s.mySup = true) : (supervisorOnly n && !s.mySup) = false := by
  rcases hn with hn | hn
  · rw [show supervisorOnly n = false from decide_eq_false (by omega)]
    rfl
  · rw [hn]
    exact Bool.and_false _

section
variable {s v : State} {m : Fibre} {n : SpecialReg} (h : s.lone m) (hn : n.code < 32 ∨ s.mySup = true)
  (hread : (s.beforeRead n).afterRead n = v) (hv : v.clean)
include h hn hread hv

/-- SRD to a scalar register: the value of the lowest lane. -/
theorem srdS_writes (d : SReg) : Answers (.srdS d n) s fun u => v.wroteS u d.val ((s.beforeRead n).special m s.regs (lowLane m.mask) n) := by
  have hallowed := srd_allowed hn
  obtain ⟨⟨-, -, -, -, -, -, hturns⟩, hparts⟩ := h
  obtain ⟨hi, -, -, -, -, -, hvturns⟩ := id hv
  refine ⟨v.commit [.s d.val _], ?_, State.commit_wroteS v d.val _ hi hvturns⟩
  show execSrdS d n s = _
  unfold execSrdS
  rw [perMember_lone s m _ hparts hturns] <;> rw [hallowed]
  · exact congrArg (fun w : State => Host.Outcome.next (w.commit _)) hread
  · show ((s.beforeRead n).afterRead n).clean
    rw [hread]
    exact hv
  · rfl
  · rfl

/-- SRD to a vector register: each lane its own value. -/
theorem srdV_writes (d : VOp) (hi : Bool) {rd : Nat → Nat} (ho : s.operands [⟨d, false⟩] fun l => [rd l]) (hmask : v.it.mask = s.it.mask) :
    Answers (.srdV d n hi) s fun u => v.wroteV u false rd
      (fun l => ((s.beforeRead n).special m s.regs l n).toNat / (if hi then 4294967296 else 1)) fun _ => 0 := by
  have hallowed := srd_allowed hn
  obtain ⟨⟨-, -, -, -, -, -, hturns⟩, hparts⟩ := h
  obtain ⟨hwalloc, hops⟩ := ho
  rw [Issue.mask_lone hparts, Issue.wb_lone hparts] at hops
  have hgood : goodLanes ((lanesOf m.mask).map fun l => (l, resolveAll s.it.snap m.wb l [{ op := d }])) = (lanesOf m.mask).map fun l => (l, [rd l]) :=
    goodLanes_map _ _ _ hops
  have htraps : boundTraps ((lanesOf m.mask).map fun l => (l, resolveAll s.it.snap m.wb l [{ op := d }])) = [] := boundTraps_map _ _ _ hops
  refine ⟨_, ?_, State.commit_wroteV hv false _ _ fun l hl => ?_⟩
  · show execSrdV d n hi s = _
    unfold execSrdV
    rw [perMember_lone s m _ hparts hturns] <;> rw [hallowed]
    · simp only [Bool.false_eq_true, if_false, hgood, hread, List.flatMap_map, hmask, Issue.mask_lone hparts]
      rfl
    · show ((s.beforeRead n).afterRead n).clean
      rw [hread]
      exact hv
    · exact htraps
    · rfl
  · rw [hmask, Issue.mask_lone hparts] at hl
    exact resolve_lt hwalloc (resolveAll_head (hops l hl))

end

/-- Settles O9: a read leaves what `State.beforeRead` and `State.afterRead` make of the state, with the value of the register as it is named there. -/
theorem specialReadResults : Obligations.SpecialReadResults := by
  unfold Obligations.SpecialReadResults
  intro s m h g t b nx ny nat bit f core place dies link val now counted
  have hbit (x : Bool) (k : Nat) : bit x k = bnat x * 2 ^ k := (bnat_mul x _).symm
  have hlink : link = if s.myFn = 0 then s.selectedLink else none := by
    rw [State.selectedLink_eq]
    exact ite_not ..
  have hval (l : Nat) {n : SpecialReg} (hn : n ≠ .time) : s.special m s.regs l n = val l n := by
    cases n with
    | time => exact absurd rfl hn
    | region => exact congrArg (fun k => BitVec.ofNat 64 (s.it.region0.1.code + k)) (Nat.mul_comm ..)
    | rail =>
      dsimp only [val]
      rw [hbit]
      rfl
    | dtst =>
      dsimp only [val]
      rw [hbit, hbit]
      rfl
    | wdog =>
      dsimp only [val]
      rw [Nat.mul_comm 256, Nat.mul_comm 4096, Nat.mul_comm 65536]
      rfl
    | tcause => exact congrArg (m.trap.elim 0) (funext fun r => congrArg (fun k => BitVec.ofNat 64 (r.cause + k)) (bnat_mul ..))
    | tlanes => exact congrArg (m.trap.elim 0) (funext fun r => congrArg (fun k => BitVec.ofNat 64 (r.tl.toNat + k)) (Nat.mul_comm ..))
    | pcore => rfl
    | hmap =>
      dsimp only [val]
      show s.hmapValue = _
      unfold State.hmapValue
      split
      · next hd => simp only [dies, f, hd]
      · next d hd =>
        simp only [dies, f, hd, hbit]
        exact congrArg (fun k => BitVec.ofNat 64 ((s.dieAt d).en.toNat + k * 2 ^ 36 + (s.dieAt d).calf * 2 ^ 42 + 2 ^ 48 + bnat (s.dieAt d).inrst * 2 ^ 49))
          (popCount_eq_length ..)
    | ltab => rfl
    | lkstat =>
      dsimp only [val]
      rw [hlink]
      show s.lkstatValue = _
      unfold State.lkstatValue
      cases (if s.myFn = 0 then s.selectedLink else none) with
      | none => rfl
      | some k =>
        have hshape := linkShape_fields (s.link k).up k
        dsimp only
        rw [hbit, Nat.pow_zero, Nat.mul_one, Nat.add_assoc (bnat _), hshape]
        rfl
    | cflip =>
      dsimp only [val]
      rw [hbit, hbit, hbit, Nat.pow_zero, Nat.mul_one]
      rfl
    | _ => rfl
  have hcounted (ht : s.it.time = none) : counted = s.counted := if_pos ht
  have hnow (ht : s.it.time = none) (l : Nat) : s.counted.special m s.regs l .time = val l .time := by
    show BitVec.ofNat 64 _ = BitVec.ofNat 64 _
    rw [State.counted_it h.1.1, ht]
    rfl
  have hagain (ht : s.it.time ≠ none) (l : Nat) : s.special m s.regs l .time = val l .time := by
    obtain ⟨t', ht⟩ := Option.ne_none_iff_exists'.1 ht
    show BitVec.ofNat 64 _ = BitVec.ofNat 64 _
    rw [ht]
    rfl
  have hread {n : SpecialReg} (h1 : n ≠ .time) (h2 : n ≠ .lkstat) : (s.beforeRead n).afterRead n = s := by
    rw [State.beforeRead_other s h1, State.afterRead_other s h2]
  refine ⟨fun d n hn => ⟨fun h1 h2 => ?_, fun h1 ht hnodes hrounds => ?_, fun h1 ht => ?_, fun h1 => ?_⟩, fun d rd n hi hn ho hdue => ?_⟩
  · have hw := srdS_writes h hn (hread h1 h2) h.1 d
    rw [State.beforeRead_other s h1, hval _ h1] at hw
    exact hw
  · subst h1
    have hb := State.beforeRead_time ht hnodes hrounds
    have hw := srdS_writes h hn ((congrArg (State.afterRead · .time) hb).trans (State.afterRead_other _ nofun)) (State.counted_clean h.1) d
    rw [hb, hnow ht] at hw
    rw [hcounted ht]
    exact hw
  · subst h1
    have hb := State.beforeRead_time_again ht
    have hw := srdS_writes h hn ((congrArg (State.afterRead · .time) hb).trans (State.afterRead_other _ nofun)) h.1 d
    rw [hb, hagain ht] at hw
    exact hw
  · subst h1
    have h1 : SpecialReg.lkstat ≠ .time := nofun
    have hw := srdS_writes h hn (congrArg (State.afterRead · .lkstat) (State.beforeRead_other s h1)) (State.clearLkstat_clean h.1) d
    rw [State.beforeRead_other s h1, hval _ h1] at hw
    obtain ⟨u, hu, hwrote⟩ := hw
    obtain ⟨⟨⟨honly, -⟩, -⟩, -⟩ := id hwrote
    refine ⟨u, hu, hwrote, fun k hk => ?_⟩
    have hlinks : u.link k = s.clearLkstat.link k := (congrArg (fun x : State => x.link k) honly :)
    rw [hlinks]
    exact State.clearLkstat_clears (hlink ▸ hk)
  · by_cases h1 : n = .time
    · subst h1
      rw [if_pos rfl]
      by_cases ht : s.it.time = none
      · obtain ⟨hnodes, hrounds⟩ := hdue rfl ht
        have hb := State.beforeRead_time ht hnodes hrounds
        have hw := srdV_writes h hn ((congrArg (State.afterRead · .time) hb).trans (State.afterRead_other _ nofun)) (State.counted_clean h.1) d hi ho
          ((congrArg Issue.mask (State.counted_it h.1.1)).trans rfl)
        simp only [hb, hnow ht] at hw
        rw [hcounted ht]
        exact hw
      · have hb := State.beforeRead_time_again ht
        have hw := srdV_writes h hn ((congrArg (State.afterRead · .time) hb).trans (State.afterRead_other _ nofun)) h.1 d hi ho rfl
        simp only [hb, hagain ht] at hw
        rw [show counted = s from if_neg ht]
        exact hw
    · rw [if_neg h1]
      by_cases h2 : n = .lkstat
      · subst h2
        obtain ⟨ls, hls⟩ := s.clearLkstat_form
        have hw := srdV_writes h hn (congrArg (State.afterRead · .lkstat) (State.beforeRead_other s h1)) (State.clearLkstat_clean h.1) d hi ho
          (by show s.clearLkstat.it.mask = _; rw [hls]; rfl)
        simp only [State.beforeRead_other s h1, hval _ h1] at hw
        exact hw
      · have hw := srdV_writes h hn (hread h1 h2) h.1 d hi ho rfl
        simp only [State.beforeRead_other s h1, hval _ h1] at hw
        rw [if_neg h2]
        exact hw

end Sys2Proof.Machine
end

section
/-!
Writes of special registers (spec/06 R133; spec/14 R304), and the statement O10.
-/

namespace Sys2Proof.Machine

open Sys2Proof

/-- The group of the word in hand written leaves what else the word may not change. -/
theorem State.onlyMine.setGroup {s t : State} (h : s.onlyMine t) (x : Group) : s.onlyMine (t.setGroup s.it.group x) := by
  obtain ⟨hrest, hgroups, hquarters⟩ := h
  exact ⟨hrest, fun g hg => (State.group_setGroup_ne _ _ hg).trans (hgroups g hg), hquarters⟩

/-- A write of a group's registers and a note on the clause in hand do not meet. -/
theorem State.setGroup_modIt (s : State) (f : Issue → Issue) (n : Nat) (x : Group) : (s.modIt f).setGroup n x = (s.setGroup n x).modIt f := by
  have hq : ((s.setGroup n x).quarter (s.setGroup n x).cur).issue = (s.quarter s.cur).issue := rfl
  unfold State.modIt
  rw [hq]
  cases (s.quarter s.cur).issue with
  | none => rfl
  | some it => rfl

/-! ### The run -/

section
variable {s v : State} {m : Fibre} (h : s.lone m)
include h

/-- A run that meets no trap and no wait, whatever the state that it leaves. -/
theorem perMember_runs {f : Fibre → Group → State → MRes} {r : MRes} (hf : f m s.regs s = r) (ht : r.traps = []) (hw : r.waits = []) :
    perMember s f = done (r.st.commit r.writes) := by
  obtain ⟨⟨-, -, -, -, -, -, hturns⟩, hparts⟩ := h
  have hf : f m s.it.snap s = r := hf
  unfold perMember State.runEach
  rw [hparts, Issue.view_nil _ hturns]
  simp only [runMembers, hf]
  rw [MRes.apply_quiet _ ht hw]

theorem swr_runs {n : SpecialReg} {a : SReg} {ws : List GWrite} (hn : userWritable n = true ∨ s.mySup = true)
    (hr : specialWrite n (s.regs.sreg a.val) s = { st := v, writes := ws }) : exec (.swr n a) s = done (v.commit ws) := by
  have hallowed : ¬(!userWritable n && !s.mySup) = true := by
    rcases hn with hn | hn <;> simp [hn]
  show execSwr n a s = _
  unfold execSwr
  exact perMember_runs (r := { st := v, writes := ws }) h ((if_neg hallowed).trans hr) rfl rfl

/-- SWR of a register that it writes at once. -/
theorem swr_writes {n : SpecialReg} {a : SReg} {ws : List GWrite} (hn : userWritable n = true ∨ s.mySup = true)
    (hr : specialWrite n (s.regs.sreg a.val) s = { st := v, writes := ws }) (hv : v.clean) :
    Answers (.swr n a) s fun t => v.wrote t (ws.map (keepFlags v.it.gflags)) := by
  obtain ⟨hi, -, -, -, -, -, hturns⟩ := id hv
  refine ⟨v.commit ws, (swr_runs h hn hr).trans ?_, State.commit_only v ws hi, State.commit_unnoted v ws hi hturns, State.commit_mine v ws hi hturns⟩
  unfold done
  rw [State.finish_quiet _ (State.commit_clean v ws hv)]

end

/-! ### Writes for the end of the issue group -/

theorem State.settle_quiet {s : State} (ht : s.it.traps = []) (hw : s.it.waits = []) : s.settle = s := by
  unfold State.settle
  exact if_pos (by rw [ht, hw]; rfl)

theorem State.later_commit_nil {s : State} (hi : s.issuing = true) (x : LateWrite) :
    (s.later x).commit [] = (s.commit []).modIt fun it => { it with late := it.late ++ [x] } := by
  unfold State.later State.commit
  simp only [State.modIt_issuing, hi, if_true, State.modIt_it _ _ hi, State.modIt_group, State.setGroup_modIt, State.modIt_modIt]
  refine congrArg (State.modIt _) (funext fun it => ?_)
  unfold Issue.note
  split <;> rfl

section
variable {s : State} (h : s.clean) (x : LateWrite)
include h

theorem State.later_it : ((s.later x).commit []).it = { s.it with late := [x] } := by
  obtain ⟨hi, -, -, hlate, -⟩ := id h
  obtain ⟨-, hit, -⟩ := State.onlyMine_modIt_commit_nil h fun it => { it with late := it.late ++ [x] }
  rw [State.later_commit_nil hi, hit, hlate]
  rfl

/-- In an issue group that goes on, the write is left for its end. -/
theorem State.later_left (hcl : s.it.closes = false) :
    let t := ((s.later x).commit []).finish
    s.onlyMine t ∧ t.mine = s.mine ∧ t.quarter s.cur = { s.quarter s.cur with issue := some { s.it with late := [x] } } := by
  obtain ⟨hi, -, -, hlate, -⟩ := id h
  have hit := State.later_it h x
  have hfin : ((s.later x).commit []).finish = (s.later x).commit [] := by
    unfold State.finish
    rw [hit]
    exact if_pos (congrArg not hcl)
  have hq := State.quarter_modIt_commit_nil h fun it => { it with late := it.late ++ [x] }
  obtain ⟨honly, -, hgroup⟩ := State.onlyMine_modIt_commit_nil h fun it => { it with late := it.late ++ [x] }
  rw [← State.later_commit_nil hi x] at honly hgroup hq
  dsimp only
  rw [hfin]
  refine ⟨honly, ?_, hq.trans ?_⟩
  · unfold State.mine
    rw [hit]
    exact hgroup
  · rw [hlate]
    rfl

/-- As the issue group ends, the write is made on the state that the word leaves otherwise. -/
theorem State.later_made (hcl : s.it.closes = true) : ∃ (u : State) (it : Issue), ((s.later x).commit []).finish = u.lateWrite it x ∧
    s.onlyMine u ∧ u.group s.it.group = s.mine ∧ u.quarter s.cur = s.quarter s.cur ∧ u.it = s.it ∧ it.group = s.it.group := by
  obtain ⟨hi, htraps, hwaits, hlate, -⟩ := id h
  have hit := State.later_it h x
  let back : Issue → Issue := fun it => { it with late := [] }
  refine ⟨(s.commit []).modIt back, { s.it with late := [x] }, ?_, ?_⟩
  · have hsettle : ((s.later x).commit []).settle = (s.later x).commit [] :=
      State.settle_quiet (by rw [hit]; exact htraps) (by rw [hit]; exact hwaits)
    unfold State.finish
    rw [hit, hsettle, State.later_commit_nil hi, State.modIt_modIt]
    exact if_neg (Bool.not_eq_true _ ▸ congrArg not hcl)
  · have hback : back s.it = s.it := by
      unfold back
      rw [← hlate]
    obtain ⟨honly, hbit, hgroup⟩ := State.onlyMine_modIt_commit_nil h back
    obtain ⟨it, hq⟩ := Option.isSome_iff_exists.1 hi
    refine ⟨honly, hgroup, (State.quarter_modIt_commit_nil h back).trans ?_, hbit.trans hback, rfl⟩
    have hin : s.it = it := by
      unfold State.it
      rw [hq]
      rfl
    rw [hback, hin, ← hq]

end

/-- Where its quarter is as it was, the word noted nothing. -/
theorem State.unnoted_of_same {s t : State} (hi : s.issuing = true) (hq : t.quarter s.cur = s.quarter s.cur) : s.unnoted t := by
  obtain ⟨it, hs⟩ := Option.isSome_iff_exists.1 hi
  have hit : s.it = it := by
    unfold State.it
    rw [hs]
    rfl
  refine ⟨s.it, hq.trans ?_, rfl⟩
  rw [hit, ← hs]

/-! ### Fields of what is written -/

theorem getLsbD_tvecAddr (y : Word) : ∀ k < 64, (tvecAddr y).getLsbD k = (y.getLsbD k && decide (2 ≤ k ∧ k ≤ 56)) := by
  have hmask : ∀ k < 64, (BitVec.ofNat 64 144115188075855868).getLsbD k = decide (2 ≤ k ∧ k ≤ 56) := by decide
  intro k hk
  unfold tvecAddr
  rw [BitVec.getLsbD_and, hmask k hk]

/-- A field of one bit. -/
theorem fieldOf_bit (y : Word) (k : Nat) : (fieldOf y.toNat k k == 1) = y.getLsbD k := by
  unfold fieldOf
  rw [Nat.add_sub_cancel_left, BitVec.getLsbD, Nat.testBit_eq_decide_div_mod_eq]
  rfl

theorem Cflip.written_eq (x : Cflip) (y : Word) : x.written y =
    let kept := !y.getLsbD 0
    { arm := y.getLsbD 0, done := x.done && y.getLsbD 1 && kept, miss := x.miss && y.getLsbD 2 && kept,
      skip := y.toNat / 2 ^ 4 % 2 ^ 4, bit := y.toNat / 2 ^ 8 % 2 ^ 3, offset := y.toNat / 2 ^ 32, targeted := x.targeted && kept } := by
  have hoff : fieldOf y.toNat 63 32 = y.toNat / 2 ^ 32 := Nat.mod_eq_of_lt (Nat.div_lt_of_lt_mul y.isLt)
  unfold Cflip.written
  simp only [fieldOf_bit, hoff, Bool.and_assoc]
  simp only [Bool.and_comm (!y.getLsbD 0), Bool.and_assoc]
  rfl

/-- Settles O10: the word runs once, and what it gives is written at once or, of %tvec and %cflip, as the issue group ends. -/
theorem specialWriteResults : Obligations.SpecialWriteResults := by
  unfold Obligations.SpecialWriteResults
  intro s m a h y f core left
  have hc := h.1
  have hnow {n : SpecialReg} {v : State} {ws ws' : List GWrite} (hn : userWritable n = true ∨ s.mySup = true)
      (hr : specialWrite n y s = { st := v, writes := ws }) (hv : v.clean) (hws : ws.map (keepFlags v.it.gflags) = ws') :
      Answers (.swr n a) s fun t => v.wrote t ws' := hws ▸ swr_writes h hn hr hv
  have hlater {n : SpecialReg} (x : LateWrite) (hn : userWritable n = true ∨ s.mySup = true) (hr : specialWrite n y s = { st := s.later x })
      {P : State → Prop} (hp : P ((s.later x).commit []).finish) : Answers (.swr n a) s P := ⟨_, swr_runs h hn hr, hp⟩
  refine ⟨hnow (.inl rfl) rfl hc rfl, ?_, ⟨tvecAddr y, getLsbD_tvecAddr y, fun hcl => ?_, fun hcl => ?_⟩, fun hsup => ⟨?_, ?_, ?_, fun hcl => ?_, fun hcl => ?_, fun n hn => ?_⟩⟩
  · obtain ⟨t, ht, honly, hun, hmine⟩ := hnow (n := .wdog) (.inl rfl) rfl hc rfl
    refine ⟨t, ht, honly, hun, hmine.trans ?_⟩
    show ({ s.mine with texp := fieldOf y.toNat 5 0, esc := _ } : Group) = _
    rw [fieldOf_low]
    rfl
  · obtain ⟨u, it, hfin, honly, hgroup, hq, hit, hig⟩ := State.later_made hc (.tvec (tvecAddr y)) hcl
    refine hlater _ (.inl rfl) rfl ?_
    have hset : u.lateWrite it (.tvec (tvecAddr y)) = u.setGroup s.it.group { s.mine with tvec := tvecAddr y } := by
      rw [← hgroup, ← hig]
      rfl
    rw [hfin, hset]
    refine ⟨honly.setGroup _, s.unnoted_of_same hc.1 hq, ?_⟩
    unfold State.mine
    rw [State.setGroup_it, hit]
    exact State.group_setGroup_self ..
  · exact hlater _ (.inl rfl) rfl (State.later_left hc _ hcl)
  · refine hnow (ws := []) (.inr hsup) ?_ hc rfl
    show ({ st := s.setFn f { s.fn f with hmdie := fieldOf y.toNat 4 0 } } : MRes) = _
    rw [fieldOf_low]
    rfl
  · refine hnow (v := s.setFn f _) (ws := []) (.inr hsup) ?_ hc rfl
    show (if (s.team s.myTeam).shared = true then ({ st := s.setFn f { s.fn f with ltselShared := fieldOf y.toNat 10 0 } } : MRes)
      else { st := s.setFn f { s.fn f with ltselOwn := fieldOf y.toNat 10 0 } }) = _
    rw [fieldOf_low]
    split <;> rfl
  · exact hnow (v := { s with lksel := y &&& 0x3F03 }) (.inr hsup) rfl hc rfl
  · obtain ⟨u, it, hfin, honly, hgroup, hq, hit, hig⟩ := State.later_made hc (.cflip y) hcl
    refine hlater _ (.inr hsup) rfl ?_
    have hcore : (u.team (u.group it.group).team).core = core := by
      rw [hig, hgroup]
      exact (congrArg (fun z : State => (z.team s.mine.team).core) honly.1 :)
    have hat : u.coreAt core = s.coreAt core := (congrArg (fun z : State => z.coreAt core) honly.1 :)
    rw [hfin]
    show (s.setCore core _).wrote (u.setCore (u.team (u.group it.group).team).core { u.coreAt _ with cflip := (u.coreAt _).cflip.written y }) []
    rw [hcore, hat, Cflip.written_eq]
    obtain ⟨hrest, hgroups, hquarters⟩ := honly
    refine ⟨⟨(congrArg (fun z : State => z.setCore core _) hrest :), hgroups, hquarters⟩, s.unnoted_of_same hc.1 hq, ?_⟩
    show u.group u.it.group = _
    rw [hit]
    exact hgroup
  · exact hlater _ (.inr hsup) rfl (State.later_left hc _ hcl)
  · refine hnow (ws := []) (.inr hsup) ?_ hc rfl
    cases n with
    | fpsr | wdog | tvec | hmdie | ltsel | lksel | cflip => simp at hn
    | _ => rfl

end Sys2Proof.Machine
end

section
/-!
One step (spec/06 R120, R124, R127; spec/13 R275, R280), and the statement O57.
-/

namespace Sys2Proof.Machine

open Sys2Proof

/-! ### A quarter in turn -/

theorem State.issuing_of_canIssue {s : State} (h : s.canIssue s.cur = true) : s.issuing = true := by
  unfold State.canIssue at h
  unfold State.issuing
  cases hi : (s.quarter s.cur).issue with
  | none => rw [hi] at h; exact absurd h Bool.false_ne_true
  | some it => rfl

/-- Notes that agree on the clause in hand are one. -/
theorem State.modIt_congr {s : State} {f g : Issue → Issue} (h : f s.it = g s.it) : s.modIt f = s.modIt g := by
  unfold State.it at h
  unfold State.modIt
  cases hi : (s.quarter s.cur).issue with
  | none => rfl
  | some it =>
    rw [hi] at h
    have h : f it = g it := h
    dsimp only
    rw [h]

theorem step_ready {s : State} (hp : s.phase = .ready) (ha : s.agenda = []) (hc : s.turn.canIssue s.turn.cur = true) :
    step s = stepWord s.turn := by
  unfold step
  rw [hp, ha]
  exact if_pos hc

theorem runWord_decoded {s : State} {i : Instr} {n : Nat} (h : s.it.decoded s.it.pos = some (i, n)) : runWord s = onNext (exec i s) State.advance := by
  unfold runWord
  rw [h]

/-! ### The word in hand -/

section
variable {s : State}

theorem stepWord_decoded {i : Instr} {n : Nat} (h : s.it.decoded s.it.pos = some (i, n)) (hs : s.it.pos = 0 ∨ s.it.started = true) :
    stepWord s = onNext (exec i s) State.advance := by
  unfold stepWord
  by_cases hz : s.it.pos = 0
  · rw [if_pos hz, ← hz, h]
  · rw [if_neg hz, if_pos (hs.resolve_left hz)]
    exact runWord_decoded h

theorem stepWord_undecoded (h : s.it.decoded s.it.pos = none) :
    (s.it.pos = 0 → stepWord s = .next s.badHeader.advance) ∧
    (s.it.pos ≠ 0 → s.it.started = true → stepWord s = .next (s.failGroup 1 s.image s.it.pos)) := by
  unfold stepWord
  refine ⟨fun hz => ?_, fun hz hs => ?_⟩
  · rw [if_pos hz, ← hz, h]
  · rw [if_neg hz, if_pos hs]
    unfold runWord
    rw [h]

variable (hz : s.it.pos ≠ 0) (hs : s.it.started = false)
include hz hs

theorem stepWord_fault {c p : Nat} {y : Word} (h : s.groupFault = some (c, y, p)) : stepWord s = .next (s.failGroup c y p) := by
  unfold stepWord
  rw [if_neg hz, hs, if_neg Bool.false_ne_true, h]

/-- An issue group that begins runs the word that `it` names. -/
theorem stepWord_begins (hi : s.issuing = true) (h : s.groupFault = none) {f : Issue → Issue} {i : Instr} {n : Nat} (hf : s.it.begun = f s.it)
    (hd : (f s.it).decoded (f s.it).pos = some (i, n)) : stepWord s = onNext (exec i (s.modIt f)) State.advance := by
  unfold stepWord
  rw [if_neg hz, hs, if_neg Bool.false_ne_true, h]
  dsimp only
  rw [State.modIt_congr hf]
  refine runWord_decoded (n := n) ?_
  rw [State.modIt_it _ _ hi]
  exact hd

end

/-! ### Past the word in hand -/

section
variable {s : State} (hi : s.issuing = true) (hh : s.it.held = false)
include hi hh

theorem State.advance_inside (hr : s.it.reissue = []) (ht : s.it.turns = []) (hcl : s.it.closes = false) (hz : s.it.pos ≠ 0) :
    s.advance = s.modIt fun it => { it with pos := s.it.pos + s.it.len s.it.pos } := by
  have hgo : ¬(s.it.closes || s.it.pos == 0) = true := by simp [hcl, hz]
  unfold State.advance
  dsimp only
  rw [hi, hh, ht, hr]
  exact if_neg hgo

theorem State.advance_turns {e t : Nat × Mask} {rest : List (Nat × Mask)} (ht : s.it.turns = e :: t :: rest) :
    s.advance = s.modIt fun it => it.nextTurn t rest := by
  unfold State.advance
  dsimp only
  rw [hi, hh, ht]
  rfl

end

theorem Issue.begun_nil {it : Issue} (h : it.turnsOf = []) : it.begun = { it with started := true } := by
  unfold Issue.begun
  rw [h]

theorem Issue.begun_turns {it : Issue} {t : Nat × Mask} {rest : List (Nat × Mask)} (h : it.turnsOf = t :: rest) :
    it.begun = { it with started := true, pos := t.1, only := some t.2, turns := t :: rest } := by
  unfold Issue.begun
  rw [h]

/-- A note on the clause in hand is all that has changed. -/
theorem State.modIt_effect {s : State} (hi : s.issuing = true) (f : Issue → Issue) :
    (s.modIt f).it = f s.it ∧ (s.modIt f).mem = s.mem ∧ (s.modIt f).groups = s.groups :=
  ⟨State.modIt_it s f hi, (congrArg State.mem (State.modIt_only s f).1 :), State.modIt_groups s f⟩

/-! ### Members that take turns -/

theorem allLanes_and (m : Mask) : allLanes &&& m = m := BitVec.allOnes_and

section
variable {it : Issue} {f g : Fibre} {p q : Nat} (hr : it.reissue = []) (hg : it.groupPositions = [p, q]) (hw : it.whole = [f, g])
include hr hg hw

theorem Issue.turnsOf_pair (hp : it.scalarAt p = true) (hq : it.scalarAt q = true) (hf : f.mask ≠ 0) (hm : g.mask ≠ 0) :
    it.turnsOf = [(p, f.mask), (q, f.mask), (p, g.mask), (q, g.mask)] := by
  unfold Issue.turnsOf
  rw [hr, hg, hw]
  have hf' : (f.mask != 0#32) = true := bne_iff_ne.2 hf
  have hm' : (g.mask != 0#32) = true := bne_iff_ne.2 hm
  simp [-bne_iff_ne, hp, hq, hf', hm', allLanes_and, List.filter_cons]

theorem Issue.turnsOf_few (h : it.scalarAt p = false ∨ it.scalarAt q = false) : it.turnsOf = [] := by
  unfold Issue.turnsOf
  rw [hr, hg, hw]
  refine if_pos ?_
  rcases h with h | h
  · cases hq : it.scalarAt q <;> simp [h, hq]
  · cases hp : it.scalarAt p <;> simp [h, hp]

end

theorem State.finish_of_quiet {s : State} (ht : s.it.traps = []) (hw : s.it.waits = []) (hl : s.it.late = []) : s.finish = s := by
  unfold State.finish State.settle
  simp [ht, hw, hl]

theorem Group.sreg_write_s (g : Group) (d n : Nat) (x : Word) : (g.writes [.s d x]).sreg n = if n = d then x else g.sreg n :=
  Tab.getD_put ..

/-- SADD of one member in turn: it reads what the members before it have written, and notes what it writes. -/
theorem sadd_in_turn {s : State} {m : Fibre} (d a b : SReg) {e : Nat × Mask} {rest : List (Nat × Mask)} (hi : s.issuing = true)
    (htraps : s.it.traps = []) (hw : s.it.waits = []) (hl : s.it.late = []) (ht : s.it.turns = e :: rest) (hparts : s.it.parts = [m]) :
    Answers (.sadd d a b) s fun t => t.mine.sreg d.val = s.it.view.sreg a.val + s.it.view.sreg b.val ∧
      t.it.made = some ((s.it.made.getD s.it.view).writes [.s d.val (s.it.view.sreg a.val + s.it.view.sreg b.val)]) := by
  have hit : (s.commit [.s d.val (s.it.view.sreg a.val + s.it.view.sreg b.val)]).it =
      { s.it with gflags := s.it.gflags ||| 0,
                  made := some ((s.it.made.getD s.it.view).writes [.s d.val (s.it.view.sreg a.val + s.it.view.sreg b.val)]) } := by
    unfold State.commit
    rw [if_pos hi]
    refine (State.modIt_it (s.setGroup s.it.group _) _ hi).trans ?_
    unfold Issue.note
    dsimp only
    rw [if_neg (by rw [State.setGroup_it, ht]; exact Bool.false_ne_true)]
    rfl
  refine ⟨s.commit [.s d.val (s.it.view.sreg a.val + s.it.view.sreg b.val)], ?_, ?_, ?_⟩
  · show scalar2 d a b _ s = _
    unfold scalar2 scalarWord perMember done State.runEach
    rw [hparts]
    simp only [runMembers]
    rw [MRes.apply_quiet _ rfl rfl, State.finish_of_quiet] <;> rw [hit] <;> assumption
  · unfold State.mine
    rw [hit]
    dsimp only
    rw [State.commit_group _ _ hi]
    exact (Group.sreg_write_s ..).trans (if_pos rfl)
  · rw [hit]

/-- Settles O57: each clause is one branch of `step`, `State.advance` or `Issue.turnsOf`, and the last is one run of SADD. -/
theorem stepRunsDecoded : Obligations.StepRunsDecoded := by
  unfold Obligations.StepRunsDecoded
  intro s
  refine ⟨fun hp ha => ?_, fun f rest hp ha => ?_, fun e rest t hp ha he ht => ?_, fun hp ha => ?_, ?_, ?_, ?_, ?_, ?_, ?_, ?_, ?_⟩
  · unfold step stepOff
    rw [if_pos hp, ha]
  · unfold step stepOff
    rw [if_pos hp, ha]
  · unfold step stepEvent
    rw [if_neg hp, ha]
    dsimp only
    rw [he]
    exact if_neg (ht ▸ Bool.false_ne_true)
  · unfold step
    rcases hp with hp | hp <;> rw [hp, ha] <;> rfl
  · intro t i n hp ha hc hd
    rw [step_ready hp ha hc]
    exact ⟨stepWord_decoded hd, fun hz hs hg ht => stepWord_begins hz hs (State.issuing_of_canIssue hc) hg (Issue.begun_nil ht) hd⟩
  · intro t p m rest i n hp ha hc hz hs hg ht hd
    rw [step_ready hp ha hc]
    exact stepWord_begins hz hs (State.issuing_of_canIssue hc) hg (Issue.begun_turns ht) hd
  · intro t hp ha hc hz hs c y p hg
    rw [step_ready hp ha hc]
    exact stepWord_fault hz hs hg
  · intro t hp ha hc hd
    rw [step_ready hp ha hc]
    exact stepWord_undecoded hd
  · intro n hi hh hr ht hcl hz hn
    subst hn
    rw [State.advance_inside hi hh hr ht hcl hz]
    exact State.modIt_effect hi _
  · intro it f g p q hr hg hlt hf hm hw
    exact ⟨fun hp hq => Issue.turnsOf_pair hr hg hw hp hq hf hm, fun hp => Issue.turnsOf_few hr hg hw (.inl hp),
      fun hq => Issue.turnsOf_few hr hg hw (.inr hq)⟩
  · intro e p m rest hi hh ht
    rw [State.advance_turns hi hh ht]
    exact State.modIt_effect hi _
  · intro m d a b e rest hi htraps hw hl ht hparts view
    have hview : s.it.view = view := by
      unfold Issue.view
      rw [ht]
      rfl
    have hadd := sadd_in_turn d a b hi htraps hw hl ht hparts
    rw [hview] at hadd
    obtain ⟨t, hexec, hsum, hmade⟩ := hadd
    exact ⟨t, hexec, hsum, _, hmade, fun n => Group.sreg_write_s ..⟩

end Sys2Proof.Machine
end

section
/-!
Completions of operations in flight (spec/06 R129; spec/11 R241, R243; spec/16 R348), and the statement O26.
-/

namespace Sys2Proof.Machine

open Sys2Proof

/-! ### Poison marks (spec/11 R243) -/

theorem Tab.get?_cons {V : Type} (j : Nat) (v : V) (t : Tab V) (k : Nat) :
    Tab.get? ((j, v) :: t) k = if k = j then some v else t.get? k := rfl

/-- A mark that stands is kept, and else the first one added is read. -/
theorem addPoison_get? (a b : Tab Word) (k : Nat) : (addPoison a b).get? k = (a.get? k).or (b.get? k) := by
  induction b generalizing a with
  | nil => exact (Option.or_none ..).symm
  | cons e b ih =>
    obtain ⟨j, v⟩ := e
    rw [Tab.get?_cons]
    refine (ih _).trans ?_
    by_cases hk : k = j
    · subst hk
      cases ha : a.get? k <;> simp [ha]
    · by_cases ha : (a.get? j).isSome = true
      · simp [ha, hk]
      · simp [ha, hk, Tab.get?_put_ne _ _ hk]

/-- The marks of an operation on one flag in some lanes, as a table of marks reads them. -/
theorem laneMarks_get? (p : Tab Word) (m : Mask) (flag n l : Nat) (hl : l < 32) :
    Tab.get? ((p.filter fun e => m.getLsbD e.1).map fun e => (32 * flag + e.1, e.2)) (32 * n + l) =
      if flag = n ∧ m.getLsbD l = true then p.get? l else none := by
  induction p with
  | nil => simp
  | cons e p ih =>
    obtain ⟨j, v⟩ := e
    by_cases hm : m.getLsbD j = true
    · have hj : j < 32 := by
        by_contra hj
        rw [BitVec.getLsbD_of_ge _ _ (Nat.le_of_not_lt hj)] at hm
        exact Bool.false_ne_true hm
      rw [List.filter_cons_of_pos (by exact hm), List.map_cons]
      rw [Tab.get?_cons, Tab.get?_cons, ih]
      by_cases hk : 32 * n + l = 32 * flag + j
      · have hn : flag = n := by omega
        have hlj : l = j := by omega
        subst hn hlj
        simp [hm]
      · by_cases hn : flag = n
        · have hlj : l ≠ j := fun h => hk (by rw [h, hn])
          simp [hk, hlj]
        · simp [hk, hn]
    · rw [List.filter_cons_of_neg (by exact hm), ih, Tab.get?_cons]
      by_cases hlj : l = j
      · subst hlj
        simp [hm]
      · simp [hlj]

/-- What the end of an operation makes of a fibre of its group: its marks, under its flag, in a fibre that holds it. -/
def Op.mark (o : Op) (f : Fibre) : Fibre :=
  match o.flag with
  | none => f
  | some n => if o.holders.contains f.id then f.marked n o.poison else f

theorem Op.mark_unmarked (o : Op) (f : Fibre) : { o.mark f with poison := [] } = { f with poison := [] } := by
  unfold Op.mark
  split
  · rfl
  · split <;> rfl

theorem Op.mark_none {o : Op} (h : o.poison = [] ∨ o.flag = none) (f : Fibre) : o.mark f = f := by
  unfold Op.mark
  split
  · rfl
  · next n hn =>
    have hp : o.poison = [] := h.resolve_right (hn ▸ nofun)
    unfold Fibre.marked
    rw [hp]
    exact ite_self _

theorem Op.mark_poison (o : Op) (f : Fibre) (n : Nat) {l : Nat} (hl : l < 32) : (o.mark f).poison.get? (32 * n + l) =
    if o.flag = some n ∧ f.id ∈ o.holders ∧ f.mask.getLsbD l = true ∧ f.poison.get? (32 * n + l) = none then o.poison.get? l
    else f.poison.get? (32 * n + l) := by
  unfold Op.mark
  cases ho : o.flag with
  | none => simp
  | some k =>
    by_cases hin : f.id ∈ o.holders
    · simp only [List.contains_iff_mem, hin, if_true, Fibre.marked, addPoison_get?, laneMarks_get? _ _ _ _ _ hl, Option.some.injEq, true_and]
      cases f.poison.get? (32 * n + l) <;> simp
    · simp [hin]

/-! ### An operation ends -/

/-- Writes that are not of a fibre's own state leave the fibres. -/
theorem Group.writes_fibres (ws : List GWrite) (h : ∀ w ∈ ws, ∀ g : Group, (g.write w).fibres = g.fibres) (g : Group) :
    (g.writes ws).fibres = g.fibres := by
  induction ws generalizing g with
  | nil => rfl
  | cons w ws ih => exact (ih (fun x hx => h x (List.mem_cons_of_mem _ hx)) _).trans (h w (List.mem_cons_self ..) g)

/-- The register writes that an operation makes as it ends. -/
def Op.made (o : Op) : List GWrite := o.writes.map RegWrite.toWrite ++ [.flags (o.fpsr.foldl (fun m e => m ||| e.2) 0)]

theorem Op.made_fibres (o : Op) (g : Group) : (g.writes o.made).fibres = g.fibres := by
  refine Group.writes_fibres _ (fun w hw g => ?_) g
  rcases List.mem_append.1 hw with hw | hw
  · obtain ⟨r, -, rfl⟩ := List.mem_map.1 hw
    cases r <;> rfl
  · rw [List.mem_singleton.1 hw]
    rfl

theorem State.endOp_eq (s : State) (id : Nat) (o : Op) : s.endOp id o =
    { s.setGroup o.group { (s.group o.group).writes o.made with fibres := (s.group o.group).fibres.map o.mark } with ops := s.ops.erase id } := by
  have hfib := o.made_fibres (s.group o.group)
  unfold State.endOp
  dsimp only
  rw [← hfib]
  unfold Op.mark
  cases o.flag with
  | none => rw [List.map_id']; rfl
  | some n => rfl

theorem State.complete_due {s : State} {id : Nat} {o : Op} (h : s.ops.get? id = some o) : s.complete o.kind id = s.endOp id o := by
  unfold State.complete
  rw [h]
  exact if_pos rfl

theorem State.complete_other {s : State} {id : Nat} {o : Op} {k : OpKind} (h : s.ops.get? id = some o) (hk : o.kind ≠ k) : s.complete k id = s := by
  unfold State.complete
  rw [h]
  exact if_neg hk

theorem State.oldestSf_iff {s : State} {id : Nat} {o : Op} (h : s.ops.get? id = some o) :
    s.oldestSf id = true ↔ ∀ e ∈ s.ops, e.2.kind = .sf → e.2.quarter = o.quarter → id ≤ e.1 := by
  unfold State.oldestSf
  rw [h]
  simp only [List.all_eq_true, Bool.or_eq_true, bne_iff_ne, decide_eq_true_eq]
  refine forall₂_congr fun e _ => ?_
  tauto

/-! ### Lines written back (spec/16 R348) -/

/-- No cache holds the line dirty. -/
def State.lineClean (s : State) (l : Nat) : Prop :=
  (∀ x, s.dir.get? l = some x → x.dirty = false) ∧ ∀ y ∈ s.sectors, ∀ u ∈ y.dirty, u / 4 ≠ l

theorem State.cleanLine_dir_ne (s : State) {l k : Nat} (h : k ≠ l) : (s.cleanLine l).dir.get? k = s.dir.get? k := by
  unfold State.cleanLine
  dsimp only
  split
  · exact Tab.get?_put_ne _ _ h
  · rfl

theorem State.cleanLine_clean (s : State) (l : Nat) : (s.cleanLine l).lineClean l := by
  refine ⟨fun x hx => ?_, fun y hy u hu hul => ?_⟩
  · unfold State.cleanLine at hx
    dsimp only at hx
    split at hx
    · rw [Tab.get?_put_self] at hx
      cases hx
      rfl
    · next hn => exact absurd (hn.symm.trans hx) nofun
  · obtain ⟨z, -, rfl⟩ := List.mem_map.1 hy
    have hin : u ∈ lineUnits l := mem_natsFrom.2 (by omega)
    have hout := (List.mem_filter.1 hu).2
    simp [hin] at hout

theorem State.cleanLine_keeps {s : State} {k : Nat} (h : s.lineClean k) (l : Nat) : (s.cleanLine l).lineClean k := by
  by_cases hkl : k = l
  · subst hkl
    exact s.cleanLine_clean k
  · obtain ⟨hdir, hsec⟩ := h
    refine ⟨fun x hx => hdir x ((s.cleanLine_dir_ne hkl).symm.trans hx), fun y hy u hu => ?_⟩
    obtain ⟨z, hz, rfl⟩ := List.mem_map.1 hy
    exact hsec z hz u (List.mem_filter.1 hu).1

theorem State.cleanLines_keep {s : State} {k : Nat} (h : s.lineClean k) (ls : List Nat) : (ls.foldl State.cleanLine s).lineClean k := by
  induction ls generalizing s with
  | nil => exact h
  | cons l ls ih => exact ih (State.cleanLine_keeps h l)

theorem State.cleanLines_clean (s : State) {ls : List Nat} {k : Nat} (hk : k ∈ ls) : (ls.foldl State.cleanLine s).lineClean k := by
  induction ls generalizing s with
  | nil => exact absurd hk List.not_mem_nil
  | cons l ls ih =>
    rcases List.mem_cons.1 hk with rfl | hk
    · exact State.cleanLines_keep (s.cleanLine_clean k) ls
    · exact ih _ hk

theorem State.cleanLines_others (s : State) (ls : List Nat) : (ls.foldl State.cleanLine s).mem = s.mem ∧ (ls.foldl State.cleanLine s).ops = s.ops ∧
    ∀ k, k ∉ ls → (ls.foldl State.cleanLine s).dir.get? k = s.dir.get? k := by
  induction ls generalizing s with
  | nil => exact ⟨rfl, rfl, fun _ _ => rfl⟩
  | cons l ls ih =>
    obtain ⟨hmem, hops, hdir⟩ := ih (s.cleanLine l)
    exact ⟨hmem, hops, fun k hk => (hdir k fun h => hk (List.mem_cons_of_mem _ h)).trans (s.cleanLine_dir_ne fun h => hk (h ▸ List.mem_cons_self ..))⟩

/-- Settles O26: every completion is `State.endOp`, and that of a write-back cleans its lines after it. -/
theorem loadCompletionResults : Obligations.LoadCompletionResults := by
  unfold Obligations.LoadCompletionResults
  intro s id o ho ends
  have hends {i : Instr} (hi : exec i s = .next (s.endOp id o)) : ends i := by
    refine ⟨_, hi, ?_⟩
    have hgroup : (s.endOp id o).group o.group = { (s.group o.group).writes o.made with fibres := (s.group o.group).fibres.map o.mark } := by
      rw [State.endOp_eq]
      exact State.group_setGroup_self ..
    dsimp only
    rw [hgroup, State.endOp_eq]
    refine ⟨rfl, Tab.get?_erase_self .., fun k hk => Tab.get?_erase_ne _ hk, fun g hg => State.group_setGroup_ne _ _ hg, ?_, ?_, fun hno => ?_,
      fun i f hf => ⟨o.mark f, ?_, fun n l hl => o.mark_poison f n hl⟩⟩
    · rw [← o.made_fibres (s.group o.group)]
      refine congrArg (fun f => (s.group o.group).writes (o.writes.map f ++ _)) (funext fun w => ?_)
      cases w <;> rfl
    · show List.map _ (List.map _ _) = _
      rw [List.map_map]
      exact List.map_congr_left fun f _ => o.mark_unmarked f
    · exact (List.map_congr_left fun f _ => Op.mark_none hno f).trans (List.map_id' _)
    · show (List.map _ _)[i]? = _
      rw [List.getElem?_map, hf]
      rfl
  have hdue {k : OpKind} (hk : o.kind = k) : s.complete k id = s.endOp id o := hk ▸ State.complete_due ho
  refine ⟨fun hk => hends (congrArg Host.Outcome.next (hdue hk)), fun hk => hends (congrArg Host.Outcome.next (hdue hk)), fun hk hold => hends ?_,
    fun hk hold => ?_, fun hk => congrArg Host.Outcome.next (State.complete_other ho hk), fun hk => ?_⟩
  · show Host.Outcome.next (if s.oldestSf id then _ else s) = _
    rw [if_pos ((State.oldestSf_iff ho).2 hold), hdue hk]
  · obtain ⟨e, he, hsf, hq, hlt⟩ := hold
    show Host.Outcome.next (if s.oldestSf id then _ else s) = _
    rw [if_neg fun h => Nat.not_lt.2 ((State.oldestSf_iff ho).1 h e he hsf hq) hlt]
  · have hlines : ((s.ops.get? id).filter fun o => o.kind == .cwb).elim [] (·.lines) = o.lines := by
      rw [ho, Option.filter_some, if_pos (by rw [hk]; rfl)]
      rfl
    have hrun : exec (.cwbCompletion id) s = .next (o.lines.foldl State.cleanLine (s.endOp id o)) := by
      show Host.Outcome.next (List.foldl _ (s.complete .cwb id) _) = _
      rw [hlines, hdue hk]
    obtain ⟨hmem, hops, hdir⟩ := (s.endOp id o).cleanLines_others o.lines
    refine ⟨_, hrun, ?_, ?_, fun k hne => ?_, fun l hl => ?_, fun l hl => (s.endOp id o).cleanLines_clean hl⟩
    · rw [hops]
      exact Tab.get?_erase_self ..
    · exact hmem
    · rw [hops]
      exact Tab.get?_erase_ne _ hne
    · exact hdir l hl

end Sys2Proof.Machine
end

section
/-!
The end of a clause (spec/06 R124): what a terminal word of the one fibre leaves, and what the boundary makes of a group.
-/

namespace Sys2Proof.Machine

open Sys2Proof

/-! ### Fibres of a group -/

theorem Group.write_ids (g : Group) (w : GWrite) : (g.write w).fibres.map Fibre.id = g.fibres.map Fibre.id := by
  have hmod (fib : Nat) (f : Fibre → Fibre) (hf : ∀ x, (f x).id = x.id) : (g.modFibre fib f).fibres.map Fibre.id = g.fibres.map Fibre.id := by
    show List.map _ (List.map _ _) = _
    rw [List.map_map]
    refine List.map_congr_left fun x _ => ?_
    show (if x.id == fib then f x else x).id = x.id
    split
    · exact hf x
    · rfl
  cases w with
  | c fib n b => exact hmod fib _ fun _ => rfl
  | wb fib n => exact hmod fib _ fun _ => rfl
  | loops fib l => exact hmod fib _ fun _ => rfl
  | live fib l => exact hmod fib _ fun _ => rfl
  | _ => rfl

theorem Group.writes_ids (g : Group) (ws : List GWrite) : (g.writes ws).fibres.map Fibre.id = g.fibres.map Fibre.id := by
  induction ws generalizing g with
  | nil => rfl
  | cons w ws ih => exact (ih _).trans (g.write_ids w)

theorem Group.fibre?_isSome (g : Group) (id : Nat) : (g.fibre? id).isSome = true ↔ id ∈ g.fibres.map Fibre.id := by
  unfold Group.fibre?
  simp [List.find?_isSome]

theorem Group.modFibre_ids (g : Group) (id : Nat) {f : Fibre → Fibre} (hf : ∀ x, (f x).id = x.id) :
    (g.modFibre id f).fibres.map Fibre.id = g.fibres.map Fibre.id := by
  show List.map _ (List.map _ _) = _
  rw [List.map_map]
  refine List.map_congr_left fun x _ => ?_
  show (if x.id == id then f x else x).id = x.id
  split
  · exact hf x
  · rfl

/-! ### A terminal word of the one fibre -/

/-- The group as a terminal word of the fibre `m` leaves it, these registers written. -/
def State.termGroup (s : State) (m : Fibre) (ws : List GWrite) : Group :=
  (s.mine.modFibre m.id fun f => { f with reenter := s.it.again }).writes (ws.map (keepFlags s.it.gflags))

/-- `s` at its clause's boundary, with the clause's end of `m` noted and these registers written. -/
def State.clauseOver (s v : State) (m : Fibre) (t : Term) (ws : List GWrite) : Prop :=
  { v with groups := s.groups, quarters := s.quarters } = s ∧ v.it.group = s.it.group ∧ v.it.members = [m.id] ∧ v.it.term = [(m.id, t)] ∧
    v.it.sequential = s.it.sequential ∧ v.group s.it.group = s.termGroup m ws

section
variable {s : State} (hi : s.issuing = true) (m : Fibre) (t : Term) (ws : List GWrite)

theorem State.setTerm_issuing : (s.setTerm m.id t).issuing = s.issuing := by
  unfold State.setTerm
  split
  · exact State.modIt_issuing (s.setGroup s.it.group _) _
  · rfl

include hi

theorem State.setTerm_it : (s.setTerm m.id t).it = { s.it with term := (m.id, t) :: s.it.term } := by
  unfold State.setTerm
  rw [if_pos hi]
  exact State.modIt_it (s.setGroup s.it.group _) _ hi

theorem State.setTerm_form : { s.setTerm m.id t with groups := s.groups, quarters := s.quarters } = s ∧
    (s.setTerm m.id t).group s.it.group = s.mine.modFibre m.id fun f => { f with reenter := s.it.again } := by
  unfold State.setTerm
  rw [if_pos hi]
  refine ⟨(congrArg (fun z : State => { z with groups := s.groups })
    (State.modIt_only (s.setGroup s.it.group ((s.group s.it.group).modFibre m.id fun f => { f with reenter := s.it.again })) _).1 :), ?_⟩
  rw [State.modIt_group]
  exact State.group_setGroup_self ..

/-- Past its last word, the clause comes to its boundary. -/
theorem State.newGroup_past {id p : Nat} (hmem : s.it.members = [id]) (hsome : ((s.group s.it.group).fibre? id).isSome = true)
    (hp : s.it.words.length ≤ p) : ∃ f : Issue → Issue, s.newGroup p = (s.modIt f).boundary ∧ (f s.it).group = s.it.group ∧
      (f s.it).members = [id] ∧ (f s.it).term = s.it.term ∧ (f s.it).sequential = s.it.sequential := by
  refine ⟨_, if_pos ?_, rfl, ?_, rfl, rfl⟩
  · rw [State.modIt_it _ _ hi]
    exact Bool.or_eq_true_iff.2 (.inr (decide_eq_true hp))
  · show s.it.members.filter _ = _
    rw [hmem]
    exact List.filter_cons_of_pos hsome

/-- What a terminal word leaves of its clause. -/
theorem State.noted_it (ht : s.it.turns = []) : ∃ flags fpsr,
    ((s.setTerm m.id t).commit ws).it = { s.it with term := (m.id, t) :: s.it.term, gflags := flags, fpsr0 := fpsr } := by
  have hit := State.setTerm_it hi m t
  have hc := State.commit_it (s.setTerm m.id t) ws ((State.setTerm_issuing m t).trans hi) (by rw [hit]; exact ht)
  rw [hit] at hc
  exact ⟨_, _, hc⟩

theorem State.noted_form : { (s.setTerm m.id t).commit ws with groups := s.groups, quarters := s.quarters } = s ∧
    ((s.setTerm m.id t).commit ws).group s.it.group = s.termGroup m ws := by
  have hsi := (State.setTerm_issuing m t).trans hi
  obtain ⟨hrest, hgroup⟩ := State.setTerm_form hi m t
  refine ⟨(congrArg (fun z : State => { z with groups := s.groups, quarters := s.quarters }) (State.commit_only _ ws hsi).1 :).trans hrest, ?_⟩
  have hc := State.commit_group (s.setTerm m.id t) ws hsi
  have hit := State.setTerm_it hi m t
  rw [show (s.setTerm m.id t).it.group = s.it.group by rw [hit], show (s.setTerm m.id t).it.gflags = s.it.gflags by rw [hit], hgroup] at hc
  exact hc

end

section
variable {s : State} {m : Fibre} {t : Term} {ws : List GWrite} (h : s.lastWord m)
include h

theorem terminalWord_runs {f : Fibre → Group → State → MRes × Option Term} (hf : f m s.regs s = ({ st := s, writes := ws }, some t)) :
    terminalWord s f = .next ((s.setTerm m.id t).commit ws) := by
  obtain ⟨⟨⟨hi, htraps, hwaits, hlate, -, -, hturns⟩, hparts⟩, -, -, -, hend, -⟩ := h
  have hlast : s.it.lastPlace = true := by
    unfold Issue.lastPlace
    rw [hend]
    simp
  have hf : f m s.it.snap s = _ := hf
  obtain ⟨flags, fpsr, hit⟩ := State.noted_it hi m t ws hturns
  unfold terminalWord perMember done State.runEach
  rw [if_pos hlast, hparts, Issue.view_nil _ hturns]
  simp only [runMembers, withTerm, hf]
  rw [MRes.apply_quiet _ rfl rfl, State.finish_of_quiet] <;> rw [hit] <;> assumption

/-- The fibre that ended its clause is one of the group's still. -/
theorem State.termGroup_holds (ws : List GWrite) : ((s.termGroup m ws).fibre? m.id).isSome = true := by
  obtain ⟨-, -, -, -, -, -, -, -, -, hfib, -⟩ := h
  unfold State.termGroup
  rw [Group.fibre?_isSome, Group.writes_ids, Group.modFibre_ids, ← Group.fibre?_isSome, hfib]
  · rfl
  · exact fun _ => rfl

/-- The word and what follows it come to the boundary of the clause. -/
theorem terminal_boundary {f : Fibre → Group → State → MRes × Option Term} (hf : f m s.regs s = ({ st := s, writes := ws }, some t)) :
    ∃ v : State, onNext (terminalWord s f) State.advance = .next v.boundary ∧ s.clauseOver v m t ws := by
  have hsome := State.termGroup_holds h ws
  rw [terminalWord_runs h hf]
  obtain ⟨⟨⟨hi, -, -, -, hheld, -, hturns⟩, -⟩, hre, -, hcl, hend, hmem, hterm, -⟩ := h
  obtain ⟨flags, fpsr, hit⟩ := State.noted_it hi m t ws hturns
  obtain ⟨hrest, hgroup⟩ := State.noted_form hi m t ws
  have hui := (State.commit_issuing (s.setTerm m.id t) ws).trans ((State.setTerm_issuing m t).trans hi)
  generalize (s.setTerm m.id t).commit ws = u at hit hgroup hui hrest
  have hclu : (u.it.closes || u.it.pos == 0) = true := by
    have hcl : u.it.closes = true := by
      rw [hit]
      exact hcl
    rw [hcl]
    rfl
  have hp : u.it.words.length ≤ u.it.pos + u.it.len u.it.pos := by
    rw [hit]
    exact Nat.le_of_eq hend.symm
  have hadv : u.advance = u.newGroup (u.it.pos + u.it.len u.it.pos) := by
    unfold State.advance
    rw [hui, show u.it.held = false by rw [hit]; exact hheld]
    dsimp only
    rw [show u.it.turns = [] by rw [hit]; exact hturns, show u.it.reissue = [] by rw [hit]; exact hre]
    exact if_pos hclu
  have hig : u.it.group = s.it.group := by rw [hit]
  obtain ⟨f, hnew, hfg, hfm, hft, hfs⟩ := State.newGroup_past hui (by rw [hit]; exact hmem) (by rw [hig, hgroup]; exact hsome) hp
  have hfi := State.modIt_it u f hui
  refine ⟨u.modIt f, congrArg Host.Outcome.next (hadv.trans hnew), ?_, ?_, ?_, ?_, ?_, (State.modIt_group ..).trans hgroup⟩
  · exact (congrArg (fun z : State => { z with groups := s.groups, quarters := s.quarters }) (State.modIt_only u f).1 :).trans hrest
  · rw [hfi, hfg, hig]
  · rw [hfi, hfm]
  · rw [hfi, hft, hit, hterm]
  · rw [hfi, hfs, hit]
    rfl

end

end Sys2Proof.Machine
end

section
/-!
The boundary of a clause at which nothing of the team waits (spec/06 R118 to R124; spec/05 R92).
-/

namespace Sys2Proof.Machine

open Sys2Proof

/-! ### What the boundary makes of a group -/

/-- A fibre past YIELD's boundary (spec/14 R312). -/
def Fibre.unyielded (f : Fibre) : Fibre := { f with yielded := false }

/-- A group past its boundary: the entries that nothing holds freed, and its fibres past YIELD's boundary or not. -/
def Group.settled (g : Group) (parked yields : Bool) : Group :=
  { g with split := (Group.freeSplit 31 g).split, parked := parked, fibres := if yields then g.fibres else g.fibres.map Fibre.unyielded }

/-- The quarter in hand drops its clause, and CNT of the group returns to 0 (spec/05 R104). -/
def State.restarted (s : State) (gid : Nat) : State :=
  s.dropIssue.setGroup gid { s.group gid with cnt := 0, parked := false, served := false }

theorem Group.freeSplit_form (n : Nat) (g : Group) : Group.freeSplit n g = { g with split := (Group.freeSplit n g).split } := by
  induction n generalizing g with
  | zero => rfl
  | succ n ih => exact ih _

theorem State.setGroup_setGroup (s : State) (n : Nat) (x y : Group) : (s.setGroup n x).setGroup n y = s.setGroup n y :=
  congrArg (fun g => { s with groups := g }) (Tab.put_put ..)

theorem State.applyTerm_cur (s : State) (it : Issue) (id : Nat) (t : Term) : (s.applyTerm it id t).cur = s.cur := by
  unfold State.applyTerm
  dsimp only
  split
  · rfl
  · cases t with
    | split a b target =>
      unfold State.splitFibre
      dsimp only
      split
      · rfl
      · split <;> rfl
    | rett =>
      unfold State.returnTrap
      dsimp only
      split
      · rfl
      · split <;> rfl
    | _ => rfl

theorem State.boundary_one {v w : State} {id : Nat} {t : Term} (hmem : v.it.members = [id]) (hterm : v.it.term = [(id, t)])
    (hw : v.applyTerm v.it id t = w) : v.boundary =
      let y := (w.restarted v.it.group).settleGroup v.it.group
      if y.anyReady y.cur then y else y.pastYield y.cur := by
  have ht : (termOf v.it id).getD .next = t := by
    unfold termOf
    rw [hterm]
    simp
  unfold State.boundary
  dsimp only
  rw [hmem]
  simp only [List.foldl_cons, List.foldl_nil, ht, hw]
  rfl

theorem State.pastYield_group (s : State) (q n : Nat) : (s.pastYield q).group n =
    if (s.group n).quarter == q then { s.group n with fibres := (s.group n).fibres.map Fibre.unyielded } else s.group n := by
  unfold State.group Tab.getD State.pastYield
  rw [Tab.get?_map s.groups (fun _ g => if g.quarter == q then { g with fibres := g.fibres.map fun f => { f with yielded := false } } else g)]
  cases s.groups.get? n with
  | none =>
    show ({} : Group) = _
    split <;> rfl
  | some g => rfl

/-! ### Nothing waits -/

/-- No lane of the group's team has arrived at a barrier, and no team at a grid barrier. -/
def State.noBarrier (s : State) (gid : Nat) : Prop := (s.team (s.group gid).team).barriers = [] ∧ ∀ e ∈ s.teams, e.2.gbar = []

section
variable {s : State} {gid : Nat} (h : s.noBarrier gid)
include h

theorem State.noBarrier_arrives (l : List Nat) : l.foldl (fun s n => s.tryArrive gid n) s = s := by
  obtain ⟨hb, -⟩ := h
  induction l with
  | nil => rfl
  | cons n l ih =>
    have harrive : s.tryArrive gid n = s := by
      unfold State.tryArrive
      dsimp only
      rw [hb]
      rfl
    rw [List.foldl_cons, harrive]
    exact ih

theorem State.noBarrier_grid (i : Nat) : s.tryGbar i = s := by
  have hno : (s.teams.any fun e => e.2.inst == i && e.2.gbar != []) = false := by
    simp only [List.any_eq_false]
    intro e he
    simp [h.2 e he]
  unfold State.tryGbar
  rw [hno]
  rfl

end

theorem State.noteParked_form (s : State) (gid : Nat) (x : Group) : ∃ k, (s.setGroup gid x).noteParked gid = s.setGroup gid { x with parked := k } := by
  unfold State.noteParked
  split
  · refine ⟨true, ?_⟩
    rw [State.group_setGroup_self, State.setGroup_setGroup]
  · exact ⟨x.parked, rfl⟩

/-- A group of which some fibre goes on, and not into a join, and which no barrier holds: no more than its free entries changes. -/
theorem State.settleGroup_calm {s u : State} {gid : Nat} (hj : s.joins 32 gid = u) {f : Fibre} (hf : f ∈ (u.group gid).fibres)
    (hrun : f.kind ≠ .parked .join) (hb : u.noBarrier gid) :
    ∃ k, s.settleGroup gid = u.setGroup gid { u.group gid with split := (Group.freeSplit 31 (u.group gid)).split, parked := k } := by
  have hform := Group.freeSplit_form 31 (u.group gid)
  generalize hx : Group.freeSplit 31 (u.group gid) = x at hform
  have hfib : x.fibres = (u.group gid).fibres := by rw [hform]
  have hteam : x.team = (u.group gid).team := by rw [hform]
  have hend : (u.setGroup gid x).endCheck gid = u.setGroup gid x := by
    unfold State.endCheck
    dsimp only
    rw [State.group_setGroup_self, hfib]
    refine if_neg fun h => ?_
    rw [List.isEmpty_iff.1 h] at hf
    exact List.not_mem_nil hf
  have hre : (u.setGroup gid x).rejoinTrap gid = u.setGroup gid x := by
    unfold State.rejoinTrap
    dsimp only
    rw [State.group_setGroup_self, hfib]
    refine if_neg fun h => hrun ?_
    exact beq_iff_eq.1 (List.all_eq_true.1 h f hf)
  have hbar : (u.setGroup gid x).noBarrier gid := by
    refine ⟨?_, hb.2⟩
    rw [State.group_setGroup_self, hteam]
    exact hb.1
  obtain ⟨k, hk⟩ := State.noteParked_form u gid x
  refine ⟨k, ?_⟩
  unfold State.settleGroup
  dsimp only
  rw [hj, hx, hend, hre, State.noBarrier_arrives hbar, State.noBarrier_grid hbar, hk, hform]

section
variable {v w u : State} {id gid : Nat} {t : Term} (hgid : v.it.group = gid) (hmem : v.it.members = [id]) (hterm : v.it.term = [(id, t)])
  (hw : v.applyTerm v.it id t = w) (hj : (w.restarted gid).joins 32 gid = u) (hq : u.quarters = (w.restarted gid).quarters ∧ u.cur = w.cur)
include hgid hmem hterm hw hj hq

/-- A boundary at which the group goes on: the fibres of `u` go on, or first pass YIELD's boundary where no fibre of the quarter is ready. -/
theorem State.boundary_goes_on {f : Fibre} (hf : f ∈ (u.group gid).fibres) (hrun : f.kind ≠ .parked .join) (hb : u.noBarrier gid) :
    ∃ k, let y := u.setGroup gid { u.group gid with split := (Group.freeSplit 31 (u.group gid)).split, parked := k }
      v.boundary = (if y.anyReady v.cur then y else y.pastYield v.cur) ∧ (y.quarter v.cur).issue = none := by
  subst hgid
  obtain ⟨hquarters, hcur⟩ := hq
  have hcur : u.cur = v.cur := hcur.trans (hw ▸ State.applyTerm_cur ..)
  obtain ⟨k, hk⟩ := State.settleGroup_calm hj hf hrun hb
  refine ⟨k, ?_, ?_⟩
  · rw [State.boundary_one hmem hterm hw, hk, ← hcur]
    rfl
  · show (u.quarter v.cur).issue = none
    have hcv : v.cur = w.cur := (hw ▸ State.applyTerm_cur ..).symm
    have hdrop : u.quarter v.cur = w.dropIssue.quarter w.cur := by
      unfold State.quarter
      rw [hquarters, hcv]
      rfl
    rw [hdrop]
    exact congrArg Quarter.issue (State.quarter_setQuarter_self ..)

/-- What such a boundary leaves of the quarter, the operations in flight and the group. -/
theorem State.boundary_settles {f : Fibre} (hf : f ∈ (u.group gid).fibres) (hrun : f.kind ≠ .parked .join) (hb : u.noBarrier gid) :
    (v.boundary.quarter v.cur).issue = none ∧ v.boundary.ops = u.ops ∧ ∃ k y, v.boundary.group gid = (u.group gid).settled k y := by
  obtain ⟨k, hk, hissue⟩ := State.boundary_goes_on hgid hmem hterm hw hj hq hf hrun hb
  dsimp only at hk
  rw [hk]
  split
  · exact ⟨hissue, rfl, k, true, State.group_setGroup_self ..⟩
  · refine ⟨hissue, rfl, k, (u.group gid).quarter != v.cur, ?_⟩
    rw [State.pastYield_group, State.group_setGroup_self]
    unfold Group.settled
    by_cases hqu : (u.group gid).quarter = v.cur <;> simp [hqu]

end

/-! ### Joins that cannot complete -/

theorem State.joins_none {s : State} {gid : Nat} (h : ∀ z ∈ (s.group gid).split, (s.group gid).joinable z.1 z.2 = false) (n : Nat) :
    s.joins n gid = s := by
  cases n with
  | zero => rfl
  | succ n =>
    unfold State.joins
    rw [List.find?_eq_none.2 fun z hz => Bool.eq_false_iff.1 (h z hz)]

/-- Where no fibre waits at FJOIN, no join can complete. -/
theorem Group.not_joinable {g : Group} (h : ∀ f ∈ g.fibres, f.kind ≠ .parked .join) (e : Nat) (x : SplitEntry) : g.joinable e x = false := by
  have hnone : g.joiners e = [] := by
    unfold Group.joiners
    rw [List.filter_eq_nil_iff.2 fun f hf hk => h f hf (beq_iff_eq.1 (Bool.and_eq_true_iff.1 hk).1)]
    rfl
  unfold Group.joinable
  rw [hnone]
  rfl

end Sys2Proof.Machine
end

section
/-!
The clause's end of the one fibre of its group that goes on (spec/14 R306 to R312).
-/

namespace Sys2Proof.Machine

open Sys2Proof

/-! ### What a clause's end does to a fibre -/

section
variable {v : State} {it : Issue} {id : Nat} {f : Fibre} (h : (v.group it.group).fibre? id = some f)
include h

theorem State.applyTerm_next : v.applyTerm it id .next = v.modFibre it.group id fun x => x.fall it.sequential := by
  unfold State.applyTerm
  dsimp only
  rw [h]

theorem State.applyTerm_goto (pc : Word) : v.applyTerm it id (.goto pc) = v.modFibre it.group id fun x => { x with at_ := { pc := pc } } := by
  unfold State.applyTerm
  dsimp only
  rw [h]

theorem State.applyTerm_yield : v.applyTerm it id .yield = v.modFibre it.group id fun x => { x.fall it.sequential with yielded := true } := by
  unfold State.applyTerm
  dsimp only
  rw [h]

theorem State.applyTerm_park (w : Wait) : v.applyTerm it id (.park w) =
    v.modFibre it.group id fun x => { x with at_ := { pc := it.sequential }, kind := .parked w, again := false } := by
  unfold State.applyTerm
  dsimp only
  rw [h]

theorem State.applyTerm_split (a b : Mask) (pc : Word) : v.applyTerm it id (.split a b pc) = v.splitFibre it.group f a b pc it.sequential := by
  unfold State.applyTerm
  dsimp only
  rw [h]

end

theorem Group.fibre?_one {g : Group} {f : Fibre} (h : g.fibres = [f]) : g.fibre? f.id = some f := by
  unfold Group.fibre?
  rw [h]
  simp

theorem Group.modFibre_one {g : Group} {f : Fibre} (h : g.fibres = [f]) (upd : Fibre → Fibre) : g.modFibre f.id upd = { g with fibres := [upd f] } := by
  unfold Group.modFibre
  rw [h]
  simp

/-! ### The one fibre -/

section
variable {s : State} {m : Fibre} {t : Term} {ws : List GWrite} (h : s.solo m)
include h

theorem State.termGroup_one : (s.termGroup m []).fibres = [{ m with reenter := s.it.again }] :=
  congrArg Group.fibres (Group.modFibre_one h.2 _)

section
variable {v w : State} {G : Group} {f : Fibre} (hv : s.clauseOver v m t ws) (hw : v.applyTerm v.it m.id t = w) (hteams : w.teams = s.teams)
  (hG : w.group s.it.group = G) (hteam : G.team = s.mine.team)
include hteams hG hteam

/-- The group as its clause is dropped, which no join and no barrier changes where its fibres run. -/
theorem solo_calm (hrun : ∀ f ∈ G.fibres, f.kind = .run) :
    (w.restarted s.it.group).group s.it.group = { G with cnt := 0, parked := false, served := false } ∧
    (w.restarted s.it.group).joins 32 s.it.group = w.restarted s.it.group ∧ (w.restarted s.it.group).noBarrier s.it.group := by
  obtain ⟨⟨-, -, -, -, -, -, -, -, -, -, -, hb, hg⟩, -⟩ := h
  have hgroup : (w.restarted s.it.group).group s.it.group = { G with cnt := 0, parked := false, served := false } := by
    rw [← hG]
    exact State.group_setGroup_self ..
  have hno : ∀ x ∈ ((w.restarted s.it.group).group s.it.group).fibres, x.kind ≠ .parked .join := by
    rw [hgroup]
    exact fun x hx => (hrun x hx).symm ▸ nofun
  refine ⟨hgroup, State.joins_none (fun z _ => Group.not_joinable hno z.1 z.2) 32, ?_⟩
  unfold State.noBarrier
  rw [hgroup]
  have ht : (w.restarted s.it.group).teams = s.teams := hteams
  refine ⟨?_, by rw [ht]; exact hg⟩
  unfold State.team
  dsimp only
  rw [ht, hteam]
  exact hb

include hv hw in
/-- The one fibre is left one fibre, or more, that run: the group stands so, but for what every boundary does. -/
theorem solo_settles (hf : f ∈ G.fibres) (hrun : ∀ f ∈ G.fibres, f.kind = .run) :
    (v.boundary.quarter s.cur).issue = none ∧ v.boundary.ops = w.ops ∧
      ∃ k y, v.boundary.group s.it.group = ({ G with cnt := 0, parked := false, served := false } : Group).settled k y := by
  obtain ⟨hgroup, hj, hbar⟩ := solo_calm h hteams hG hteam hrun
  obtain ⟨hrest, hig, hmem, hterm, -⟩ := hv
  have hcur : v.cur = s.cur := (congrArg State.cur hrest :)
  have hset := State.boundary_settles hig hmem hterm hw hj ⟨rfl, rfl⟩ (f := f) (by rw [hgroup]; exact hf) (hrun f hf ▸ nofun) hbar
  rw [hgroup, hcur] at hset
  exact hset

end

/-- The one fibre goes on as `upd` makes it, past YIELD's boundary or not. -/
theorem solo_goes {f : Fibre → Group → State → MRes × Option Term} (hf : f m s.regs s = ({ st := s, writes := ws }, some t)) {n : Fibre}
    (hone : (s.termGroup m ws).fibres = [n]) (hid : n.id = m.id) {upd : Fibre → Fibre} (hrun : (upd n).kind = .run)
    (hteam : (s.termGroup m ws).team = s.mine.team)
    (happly : ∀ v : State, v.it.sequential = s.it.sequential → (v.group v.it.group).fibre? m.id = some n →
      v.applyTerm v.it m.id t = v.modFibre v.it.group m.id upd) :
    ∃ u, onNext (terminalWord s f) State.advance = .next u ∧ (u.quarter s.cur).issue = none ∧ ∃ k y,
      u.group s.it.group = ({ s.termGroup m ws with cnt := 0, served := false, fibres := [upd n] } : Group).settled k y := by
  obtain ⟨v, hnext, hv⟩ := terminal_boundary h.1 hf
  obtain ⟨hrest, hig, -, -, hseq, hgroup⟩ := id hv
  have hfib : (v.group v.it.group).fibre? m.id = some n := by
    rw [hig, hgroup, ← hid]
    exact Group.fibre?_one hone
  have hG : (v.modFibre v.it.group m.id upd).group s.it.group = { s.termGroup m ws with fibres := [upd n] } := by
    unfold State.modFibre
    rw [hig, hgroup, ← hid, Group.modFibre_one hone]
    exact State.group_setGroup_self ..
  obtain ⟨hissue, -, k, y, hset⟩ := solo_settles h hv (happly v hseq hfib) (congrArg State.teams hrest :) hG hteam (List.mem_singleton_self _)
    fun x hx => List.mem_singleton.1 hx ▸ hrun
  exact ⟨v.boundary, hnext, hissue, k, y, hset⟩

end

/-! ### One fibre, which stands at an address -/

/-- The one fibre of the group stands at `pc` with the loops `l`, its lanes and the rest of the group's life as they were. -/
def State.standsAt (s : State) (m : Fibre) (g : Group) (pc : Word) (l : LoopState) : Prop :=
  g.ended = s.mine.ended ∧ ∃ f, g.fibres = [f] ∧ f.id = m.id ∧ f.mask = m.mask ∧ f.at_ = { pc := pc } ∧ f.loops = l ∧ f.kind = .run

theorem Group.settled_one {g : Group} {n : Fibre} (hg : g.fibres = [n]) (k y : Bool) : (g.settled k y).fibres = [n] ∨ (g.settled k y).fibres = [n.unyielded] := by
  unfold Group.settled
  rw [hg]
  cases y with
  | true => exact .inl rfl
  | false => exact .inr rfl

theorem Group.settled_ended (g : Group) (k y : Bool) : (g.settled k y).ended = g.ended := by
  unfold Group.settled
  dsimp only

theorem Group.settled_s (g : Group) (k y : Bool) : (g.settled k y).s = g.s := by
  unfold Group.settled
  dsimp only

theorem State.standsAt_settled {s : State} {m n : Fibre} {g : Group} {pc : Word} (hended : g.ended = s.mine.ended) (hg : g.fibres = [n])
    (hid : n.id = m.id) (hmask : n.mask = m.mask) (hat : n.at_ = { pc := pc }) (hrun : n.kind = .run) (k y : Bool) :
    s.standsAt m (g.settled k y) pc n.loops := by
  refine ⟨(g.settled_ended k y).trans hended, ?_⟩
  rcases Group.settled_one hg k y with hone | hone
  · exact ⟨n, hone, hid, hmask, hat, rfl, hrun⟩
  · exact ⟨n.unyielded, hone, hid, hmask, hat, rfl, hrun⟩

section
variable {s : State} {m : Fibre} {ws : List GWrite} (h : s.solo m) {f : Fibre → Group → State → MRes × Option Term}
include h

theorem solo_run : m.kind = .run := by
  obtain ⟨⟨-, -, -, -, -, -, -, hrun, -⟩, -⟩ := h
  exact hrun

/-- A transfer, with the scalar registers that the word wrote. -/
theorem solo_calls {pc : Word} (hf : f m s.regs s = ({ st := s, writes := ws }, some (.goto pc))) {n : Fibre} (hone : (s.termGroup m ws).fibres = [n])
    (hid : n.id = m.id) (hmask : n.mask = m.mask) (hrun : n.kind = .run) (hteam : (s.termGroup m ws).team = s.mine.team)
    (hended : (s.termGroup m ws).ended = s.mine.ended) :
    ∃ u, onNext (terminalWord s f) State.advance = .next u ∧ (u.quarter s.cur).issue = none ∧
      s.standsAt m (u.group s.it.group) pc n.loops ∧ (u.group s.it.group).s = (s.termGroup m ws).s := by
  obtain ⟨u, hu, hissue, k, y, hset⟩ := solo_goes h hf hone hid (upd := fun x => { x with at_ := { pc := pc } }) hrun hteam
    fun v _ hfib => State.applyTerm_goto hfib pc
  refine ⟨u, hu, hissue, ?_, ?_⟩ <;> rw [hset]
  · exact State.standsAt_settled (n := { n with at_ := { pc := pc } }) (by exact hended) rfl hid hmask rfl hrun k y
  · exact Group.settled_s ..

/-- A transfer that writes nothing. -/
theorem solo_transfers {pc : Word} (hf : f m s.regs s = ({ st := s }, some (.goto pc))) :
    ∃ u, onNext (terminalWord s f) State.advance = .next u ∧ (u.quarter s.cur).issue = none ∧ s.standsAt m (u.group s.it.group) pc m.loops := by
  have hrun := solo_run h
  obtain ⟨u, hu, hissue, hstands, -⟩ := solo_calls h hf (State.termGroup_one h) rfl rfl hrun rfl rfl
  exact ⟨u, hu, hissue, hstands⟩

/-- A transfer that opens or closes loop levels. -/
theorem solo_loops {pc : Word} {l : LoopState} (hf : f m s.regs s = ({ st := s, writes := [.loops m.id l] }, some (.goto pc))) :
    ∃ u, onNext (terminalWord s f) State.advance = .next u ∧ (u.quarter s.cur).issue = none ∧ s.standsAt m (u.group s.it.group) pc l := by
  have hone : (s.termGroup m [.loops m.id l]).fibres = [{ m with reenter := s.it.again, loops := l }] :=
    congrArg Group.fibres (Group.modFibre_one (State.termGroup_one h) fun x => { x with loops := l })
  have hrun := solo_run h
  obtain ⟨u, hu, hissue, hstands, -⟩ := solo_calls h hf hone rfl rfl hrun rfl rfl
  exact ⟨u, hu, hissue, hstands⟩

/-- A fall to the sequential address. -/
theorem solo_falls (hf : f m s.regs s = ({ st := s }, some .next)) :
    ∃ u, onNext (terminalWord s f) State.advance = .next u ∧ (u.quarter s.cur).issue = none ∧
      s.standsAt m (u.group s.it.group) (m.fall s.it.sequential).at_.pc (m.fall s.it.sequential).loops := by
  obtain ⟨u, hu, hissue, k, y, hset⟩ := solo_goes h hf (State.termGroup_one h) rfl (upd := fun x => x.fall s.it.sequential) rfl rfl
    fun v hseq hfib => hseq ▸ State.applyTerm_next hfib
  refine ⟨u, hu, hissue, ?_⟩
  rw [hset]
  exact State.standsAt_settled (n := ({ m with reenter := s.it.again } : Fibre).fall s.it.sequential) (by rfl) rfl rfl rfl rfl rfl k y

end

end Sys2Proof.Machine
end

section
/-!
YIELD, and the clause ends that leave the group no fibre, another fibre or two (spec/14 R312, R313; spec/11 R248; spec/06 R116, R118).
-/

namespace Sys2Proof.Machine

open Sys2Proof

/-! ### A walk reads no group -/

section
variable (s : State) (gs : Tab Group)

theorem State.freeFrame_groups (n f : Nat) : State.freeFrame { s with groups := gs } n f = s.freeFrame n f := by
  induction n generalizing f with
  | zero => rfl
  | succ n ih =>
    unfold State.freeFrame
    rw [ih]

theorem State.cowWalk_groups (fn entry e key : Nat) : State.cowWalk { s with groups := gs } fn entry e key = s.cowWalk fn entry e key := by
  have hnext : State.nextFrame { s with groups := gs } = s.nextFrame := State.freeFrame_groups ..
  unfold State.cowWalk
  rw [hnext]
  rfl

theorem leafWalk_groups (fn va : Nat) (kind : AccKind) (entry e : Nat) :
    leafWalk { s with groups := gs } fn va kind entry e = leafWalk s fn va kind entry e := by
  unfold leafWalk
  simp only [State.cowWalk_groups]
  rfl

/-- One level of the walk at a time: unfolded at a level above none, the kernel would count up to the end of a frame. -/
theorem leafFrom_groups (fn va lvl tab k : Nat) : leafFrom { s with groups := gs } fn va lvl tab k = leafFrom s fn va lvl tab k := by
  have hkey (k : Nat) : State.liveKey { s with groups := gs } fn k = s.liveKey fn k := rfl
  have hbar (a : Nat) : State.tableBar { s with groups := gs } a = s.tableBar a := rfl
  have hread (k dom n : Nat) : State.readFrame { s with groups := gs } k dom n = s.readFrame k dom n := rfl
  have hdom (a : Nat) : State.dom { s with groups := gs } a = s.dom a := rfl
  have hlevel : leafFrom._f { s with groups := gs } fn va = leafFrom._f s fn va := by
    delta leafFrom._f
    simp -zeta only [hkey, hbar, hread, hdom]
    rfl
  delta leafFrom
  rw [hlevel]

theorem State.translate_groups (core fn g va : Nat) (kind : AccKind) :
    State.translate { s with groups := gs } core fn g va kind = s.translate core fn g va kind := by
  have hleaf : leafOf { s with groups := gs } fn g va = leafOf s fn g va := by
    unfold leafOf
    rw [leafFrom_groups]
    rfl
  have hwalk : walk { s with groups := gs } fn g va kind = walk s fn g va kind := by
    unfold walk
    simp only [hleaf, leafWalk_groups]
  unfold State.translate
  simp only [hwalk, leafWalk_groups]
  rfl

end

/-! ### Readiness past YIELD's boundary -/

theorem State.headerMask_pastYield (s : State) (q : Nat) (g : Group) (fs : List Fibre) (f : Fibre) :
    (s.pastYield q).headerMask { g with fibres := fs } f.unyielded = s.headerMask g f := by
  unfold State.headerMask State.pastYield
  simp only [State.translate_groups]
  rfl

theorem State.ready_pastYield (s : State) (q n : Nat) (g : Group) (f : Fibre) :
    (s.pastYield q).ready n { g with fibres := g.fibres.map Fibre.unyielded } f.unyielded = s.ready n g f := by
  have hany : ((g.fibres.map Fibre.unyielded).any fun x => x.drain && decide (x.delivered < f.unyielded.delivered)) =
      g.fibres.any fun x => x.drain && decide (x.delivered < f.delivered) := List.any_map ..
  unfold State.ready State.readyBare
  rw [State.headerMask_pastYield]
  dsimp only
  rw [hany]
  rfl

/-- The states that a boundary may lead to: a fibre that has yielded is passed over exactly where another of its quarter is ready. -/
theorem State.yielded_iff (y : State) (gid : Nat) (hy : ∀ f ∈ (y.group gid).fibres, f.yielded = true) {f : Fibre} :
    let t := if y.anyReady (y.group gid).quarter then y else y.pastYield (y.group gid).quarter
    f ∈ (t.group gid).fibres → (f.yielded = true ↔ ∃ e ∈ t.groups, e.2.quarter = (y.group gid).quarter ∧ ∃ x ∈ e.2.fibres, t.ready e.1 e.2 x = true) := by
  intro t hf
  by_cases hr : y.anyReady (y.group gid).quarter = true
  · have ht : t = y := if_pos hr
    rw [ht] at hf ⊢
    refine iff_of_true (hy f hf) ?_
    obtain ⟨e, he, hq⟩ := List.any_eq_true.1 hr
    obtain ⟨hq, hx⟩ := Bool.and_eq_true_iff.1 hq
    obtain ⟨x, hx, hready⟩ := List.any_eq_true.1 hx
    exact ⟨e, he, beq_iff_eq.1 hq, x, hx, hready⟩
  · have ht : t = y.pastYield (y.group gid).quarter := if_neg hr
    rw [ht] at hf ⊢
    rw [State.pastYield_group, if_pos (beq_self_eq_true _)] at hf
    obtain ⟨z, -, rfl⟩ := List.mem_map.1 hf
    refine iff_of_false Bool.false_ne_true fun ⟨e, he, hq, x, hx, hready⟩ => hr ?_
    obtain ⟨d, hd, rfl⟩ := List.mem_map.1 he
    dsimp only at hq hx hready
    by_cases hdq : d.2.quarter = (y.group gid).quarter
    · simp only [hdq, beq_self_eq_true, if_true] at hx hready
      obtain ⟨w, hw, rfl⟩ := List.mem_map.1 hx
      have hready : (y.pastYield _).ready d.1 { d.2 with fibres := d.2.fibres.map Fibre.unyielded } w.unyielded = true := hdq ▸ hready
      rw [State.ready_pastYield] at hready
      exact List.any_eq_true.2 ⟨d, hd, Bool.and_eq_true_iff.2 ⟨beq_iff_eq.2 hdq, List.any_eq_true.2 ⟨w, hw, hready⟩⟩⟩
    · rw [if_neg (by simpa using hdq)] at hq
      exact absurd hq hdq

/-! ### The group ends -/

/-- The group `gid` has ended, quarter `q` issues nothing, and no barrier waits for the group's team. -/
def State.over (s : State) (gid q : Nat) : Prop :=
  (s.group gid).fibres = [] ∧ (s.group gid).ended = true ∧ (s.quarter q).issue = none ∧ s.noBarrier gid

theorem State.report_over {s : State} {gid q : Nat} (h : s.over gid q) (x : HostMsg) : (s.report x).over gid q := h

theorem State.reportFailed_over {s : State} {gid q : Nat} (h : s.over gid q) (n : Nat) : (s.reportFailed n).over gid q := by
  have hset : (s.setGroup n { s.group n with failed := [], due := [] }).over gid q := by
    obtain ⟨hfib, hended, hissue, hbar⟩ := h
    unfold State.over State.noBarrier
    by_cases hn : gid = n
    · subst hn
      rw [State.group_setGroup_self]
      exact ⟨hfib, hended, hissue, hbar⟩
    · rw [State.group_setGroup_ne _ _ hn]
      exact ⟨hfib, hended, hissue, hbar⟩
  have hfold (l : List Due) (t : State) (ht : t.over gid q) (core : Nat) :
      (l.foldl (fun s d => match d with | .audit _ => s.report (.report 5 core []) | .timeout => s) t).over gid q := by
    induction l generalizing t with
    | nil => exact ht
    | cons d l ih =>
      cases d with
      | audit x => exact ih _ (State.report_over ht _)
      | timeout => exact ih _ ht
  unfold State.reportFailed
  dsimp only
  refine hfold _ _ ?_ _
  split
  · exact hset
  · exact State.report_over hset _

theorem State.learn_over {s : State} {gid q : Nat} (h : s.over gid q) (p : Who) (xs : NatSet) : (s.learn p xs).over gid q := by
  obtain ⟨o, ho⟩ := s.learn_moves p xs
  rw [ho]
  exact h

theorem State.team_gbar {s : State} (h : ∀ e ∈ s.teams, e.2.gbar = []) (n : Nat) : (s.team n).gbar = [] := by
  unfold State.team Tab.getD
  cases hn : s.teams.get? n with
  | none => rfl
  | some x => exact h _ (Tab.mem_of_get? hn)

theorem State.setTeam_over {s : State} {gid q : Nat} (h : s.over gid q) {n : Nat} {x : Team} (hb : x.barriers = (s.team n).barriers)
    (hg : x.gbar = (s.team n).gbar) : (s.setTeam n x).over gid q := by
  obtain ⟨hfib, hended, hissue, hbar, hgbar⟩ := h
  refine ⟨hfib, hended, hissue, ?_, fun e he => ?_⟩
  · show ((s.setTeam n x).team (s.group gid).team).barriers = []
    by_cases hn : (s.group gid).team = n
    · rw [← hn, State.team_setTeam_self, hb, ← hn]
      exact hbar
    · rw [State.team_setTeam_ne _ _ hn]
      exact hbar
  · rcases Tab.mem_put he with rfl | he
    · exact hg.trans (State.team_gbar hgbar n)
    · exact hgbar e he

/-- Groups that end, and quarters that drop their clauses, leave what has ended so. -/
theorem State.over_dropped {s : State} {gid q : Nat} (h : s.over gid q) {ends : Group → Bool} {drop : Quarter → Quarter}
    (hdrop : ∀ x : Quarter, x.issue = none → (drop x).issue = none) (ops : Tab Op) :
    State.over { s with groups := s.groups.map fun e => (e.1, if ends e.2 then { e.2 with fibres := [], ended := true } else e.2),
                        quarters := s.quarters.map fun e => (e.1, drop e.2), ops := ops } gid q := by
  obtain ⟨hfib, hended, hissue, hbar⟩ := h
  have hgroup : Tab.getD (List.map (fun e : Nat × Group => (e.1, if ends e.2 then { e.2 with fibres := [], ended := true } else e.2)) s.groups) gid {} =
      s.group gid := by
    unfold State.group Tab.getD at hfib hended ⊢
    rw [Tab.get?_map s.groups (fun _ g => if ends g then { g with fibres := [], ended := true } else g)]
    cases hg : s.groups.get? gid with
    | none => rfl
    | some g =>
      rw [hg] at hfib hended
      have hfib : g.fibres = [] := hfib
      have hended : g.ended = true := hended
      show (if ends g then { g with fibres := [], ended := true } else g) = g
      rw [← hfib, ← hended]
      exact ite_self g
  refine ⟨?_, ?_, ?_, ?_⟩
  · exact (congrArg Group.fibres hgroup).trans hfib
  · exact (congrArg Group.ended hgroup).trans hended
  · unfold State.quarter Tab.getD at hissue ⊢
    dsimp only
    rw [Tab.get?_map s.quarters fun _ x => drop x]
    cases hq : s.quarters.get? q with
    | none => rfl
    | some x => exact hdrop x (by rw [hq] at hissue; exact hissue)
  · refine ⟨?_, hbar.2⟩
    exact (congrArg (fun g : Group => (s.team g.team).barriers) hgroup).trans hbar.1

theorem State.endTeam_over {s : State} {gid q : Nat} (h : s.over gid q) (n : Nat) : (s.endTeam n).over gid q := by
  unfold State.endTeam
  extract_lets gids drop u v x w
  have hdrop (x : Quarter) (hx : x.issue = none) : (drop x).issue = none := by
    unfold drop
    rw [hx]
    exact hx
  have hu : u.over gid q := State.over_dropped (ends := fun g => g.team == n) h hdrop _
  have hv : v.over gid q := by
    unfold v
    generalize gids = l at *
    clear_value u
    induction l generalizing u with
    | nil => exact hu
    | cons k l ih => exact ih _ (State.reportFailed_over hu k)
  have hw : w.over gid q := State.learn_over hv _ _
  have hteams : w.teams = v.teams := by
    obtain ⟨o, ho⟩ := v.learn_moves (.inst x.inst) (v.teamKnows n)
    exact (congrArg State.teams ho :)
  refine State.setTeam_over hw ?_ ?_ <;> · unfold State.team; rw [hteams]; rfl

theorem State.setGroup_over {s : State} {gid q : Nat} {x : Group} (hfib : x.fibres = []) (hended : x.ended = true) (hissue : (s.quarter q).issue = none)
    (hb : (s.team x.team).barriers = []) (hg : ∀ e ∈ s.teams, e.2.gbar = []) (ops : Tab Op) :
    State.over { s.setGroup gid x with ops := ops } gid q := by
  have hx : State.group { s.setGroup gid x with ops := ops } gid = x := State.group_setGroup_self ..
  unfold State.over State.noBarrier
  rw [hx]
  exact ⟨hfib, hended, hissue, hb, hg⟩

/-- A group without a fibre ends. -/
theorem State.endCheck_over {s : State} {gid q : Nat} (hfib : (s.group gid).fibres = []) (hissue : (s.quarter q).issue = none) (hb : s.noBarrier gid) :
    (s.endCheck gid).over gid q := by
  have hended := State.setGroup_over (gid := gid) (x := { s.group gid with ended := true }) hfib rfl hissue hb.1 hb.2 (s.ops.filter fun e => e.2.group != gid)
  have hreported := State.reportFailed_over hended gid
  unfold State.endCheck
  dsimp only
  rw [if_pos (List.isEmpty_iff.2 hfib)]
  split
  · exact State.endTeam_over hreported _
  · exact hreported

/-- What has ended stays as it is at the rest of a boundary. -/
theorem State.over_stays {s : State} {gid q : Nat} (h : s.over gid q) : s.rejoinTrap gid = s ∧ s.noteParked gid = s := by
  obtain ⟨hfib, -⟩ := h
  constructor
  · unfold State.rejoinTrap
    dsimp only
    rw [hfib]
    rfl
  · have hidle : s.idle gid = false := by
      unfold State.idle
      dsimp only
      rw [hfib]
      rfl
    unfold State.noteParked
    rw [hidle]
    rfl

/-- A boundary at which no fibre of the group is left. -/
theorem State.settleGroup_over {s : State} {gid q : Nat} (hfib : (s.group gid).fibres = []) (hissue : (s.quarter q).issue = none)
    (hb : s.noBarrier gid) : (s.settleGroup gid).over gid q := by
  have hj : s.joins 32 gid = s := State.joins_none (fun z _ => Group.not_joinable (by rw [hfib]; exact fun _ h => absurd h List.not_mem_nil) z.1 z.2) 32
  have hform := Group.freeSplit_form 31 (s.group gid)
  generalize hx : Group.freeSplit 31 (s.group gid) = x at hform
  have hself := State.group_setGroup_self (s := s) gid x
  have hcheck := State.endCheck_over (s := s.setGroup gid x) (gid := gid) (q := q) (by rw [hself, hform]; exact hfib) hissue
    ⟨by rw [hself, hform]; exact hb.1, hb.2⟩
  unfold State.settleGroup
  dsimp only
  rw [hj, hx]
  generalize (s.setGroup gid x).endCheck gid = u at hcheck
  obtain ⟨hre, hpark⟩ := State.over_stays hcheck
  obtain ⟨-, -, -, hbar⟩ := id hcheck
  rw [hre, State.noBarrier_arrives hbar, State.noBarrier_grid hbar, hpark]
  exact hcheck

theorem State.pastYield_over {s : State} {gid q : Nat} (h : s.over gid q) (k : Nat) : (s.pastYield k).over gid q := by
  obtain ⟨hfib, hended, hissue, hb, hg⟩ := h
  have hgroup : (s.pastYield k).group gid = s.group gid := by
    rw [State.pastYield_group, hfib]
    split
    · show ({ s.group gid with fibres := [] } : Group) = _
      rw [← hfib]
    · rfl
  unfold State.over State.noBarrier
  rw [hgroup]
  exact ⟨hfib, hended, hissue, hb, hg⟩

/-- The clause end that leaves the one fibre's group without a fibre. -/
theorem solo_ended {s v w : State} {m : Fibre} {t : Term} {ws : List GWrite} (h : s.solo m) (hv : s.clauseOver v m t ws) (hw : v.applyTerm v.it m.id t = w)
    (hteams : w.teams = s.teams) (hfib : (w.group s.it.group).fibres = []) (hteam : (w.group s.it.group).team = s.mine.team) :
    v.boundary.over s.it.group s.cur := by
  obtain ⟨hgroup, -, hbar⟩ := solo_calm h hteams rfl hteam (by rw [hfib]; exact fun _ h => absurd h List.not_mem_nil)
  obtain ⟨hrest, hig, hmem, hterm, -⟩ := hv
  have hcur : w.cur = s.cur := (hw ▸ State.applyTerm_cur ..).trans (congrArg State.cur hrest :)
  have hissue : ((w.restarted s.it.group).quarter s.cur).issue = none := by
    rw [← hcur]
    exact congrArg Quarter.issue (State.quarter_setQuarter_self ..)
  have hover := State.settleGroup_over (by rw [hgroup]; exact hfib) hissue hbar
  rw [State.boundary_one hmem hterm hw, hig]
  dsimp only
  split
  · exact hover
  · exact State.pastYield_over hover _

end Sys2Proof.Machine
end

section
/-!
YIELD, RETT and FSPLIT of the one fibre of its group (spec/14 R312, R313; spec/11 R248; spec/06 R118).
-/

namespace Sys2Proof.Machine

open Sys2Proof

theorem Group.settled_split (g : Group) (k b : Bool) : (g.settled k b).split = (Group.freeSplit 31 g).split := by
  unfold Group.settled
  dsimp only

theorem Group.settled_two {g : Group} {x y : Fibre} (hg : g.fibres = [y, x]) (k b : Bool) :
    (g.settled k b).fibres = [y, x] ∨ (g.settled k b).fibres = [y.unyielded, x.unyielded] := by
  unfold Group.settled
  rw [hg]
  cases b with
  | true => exact .inl rfl
  | false => exact .inr rfl

/-- The first entry that is free is. -/
theorem Tab.get?_freeFrom {V : Type} (t : Tab V) (n fuel : Nat) (h : ∃ e, n ≤ e ∧ e < n + fuel ∧ t.get? e = none) : t.get? (t.freeFrom n fuel) = none := by
  induction fuel generalizing n with
  | zero =>
    obtain ⟨e, hlo, hhi, -⟩ := h
    omega
  | succ fuel ih =>
    unfold Tab.freeFrom
    by_cases hn : (t.get? n).isSome = true
    · rw [if_pos hn]
      obtain ⟨e, hlo, hhi, he⟩ := h
      have hne : e ≠ n := fun hen => by
        rw [← hen, he] at hn
        exact Bool.false_ne_true hn
      exact ih _ ⟨e, by omega, by omega, he⟩
    · rw [if_neg hn]
      exact Option.not_isSome_iff_eq_none.1 hn

theorem Tab.get?_filter_key {V : Type} (t : Tab V) (p : Nat → Bool) {n : Nat} (hn : p n = true) : Tab.get? (t.filter fun e => p e.1) n = t.get? n := by
  induction t with
  | nil => rfl
  | cons e t ih =>
    obtain ⟨k, v⟩ := e
    by_cases hk : n = k
    · subst hk
      rw [List.filter_cons_of_pos (by exact hn)]
      simp [Tab.get?]
    · by_cases hp : p k = true
      · rw [List.filter_cons_of_pos (by exact hp)]
        simp [Tab.get?, hk, ih]
      · rw [List.filter_cons_of_neg (by exact hp)]
        simp [Tab.get?, hk, ih]

/-- An entry that a fibre holds is not freed. -/
theorem Group.freeSplit_keeps {e : Nat} {f : Fibre} (he : f.entry = some e) (n : Nat) (g : Group) (hf : f ∈ g.fibres) :
    (Group.freeSplit n g).split.get? e = g.split.get? e := by
  induction n generalizing g with
  | zero => rfl
  | succ n ih =>
    have hused : g.entryUsed e = true := by
      unfold Group.entryUsed
      rw [Bool.or_eq_true, List.any_eq_true]
      exact .inl ⟨f, hf, by rw [he]; simp⟩
    exact (ih { g with split := g.split.filter fun e => g.entryUsed e.1 } hf).trans (Tab.get?_filter_key _ _ hused)

theorem State.applyTerm_rett {v : State} {it : Issue} {id : Nat} {n : Fibre} {x : TrapRegs} (hn : (v.group it.group).fibre? id = some n) (hx : n.trap = some x) :
    ∃ ops engs, v.applyTerm it id .rett = { v.setGroup it.group { v.group it.group with
      fibres := ((v.group it.group).fibres.filter fun y => y.id != id) ++ [returned n x (v.group it.group).nextFibre],
      nextFibre := (v.group it.group).nextFibre + 1 } with ops := ops, engs := engs } := by
  unfold State.applyTerm
  dsimp only
  rw [hn]
  unfold State.returnTrap
  dsimp only
  rw [hn]
  dsimp only
  rw [hx]
  exact ⟨_, _, rfl⟩

section
variable {s : State} {m : Fibre} (h : s.solo m) {f : Fibre → Group → State → MRes × Option Term}
include h

/-- The one fibre, found at the boundary. -/
theorem solo_found {v : State} {t : Term} (hv : s.clauseOver v m t []) :
    (v.group v.it.group).fibre? m.id = some { m with reenter := s.it.again } ∧ v.it.group = s.it.group ∧ v.group s.it.group = s.termGroup m [] ∧
      v.teams = s.teams := by
  obtain ⟨hrest, hig, -, -, -, hgroup⟩ := hv
  refine ⟨?_, hig, hgroup, (congrArg State.teams hrest :)⟩
  rw [hig, hgroup]
  exact Group.fibre?_one (State.termGroup_one h)

/-! ### YIELD -/

theorem solo_yields (hf : f m s.regs s = ({ st := s }, some .yield)) :
    ∃ u, onNext (terminalWord s f) State.advance = .next u ∧ (u.quarter s.cur).issue = none ∧
      s.standsAt m (u.group s.it.group) (m.fall s.it.sequential).at_.pc (m.fall s.it.sequential).loops := by
  obtain ⟨u, hu, hissue, k, y, hset⟩ := solo_goes h hf (State.termGroup_one h) rfl
    (upd := fun x => { x.fall s.it.sequential with yielded := true }) rfl rfl fun v hseq hfib => hseq ▸ State.applyTerm_yield hfib
  refine ⟨u, hu, hissue, ?_⟩
  rw [hset]
  exact State.standsAt_settled (n := { ({ m with reenter := s.it.again } : Fibre).fall s.it.sequential with yielded := true }) (by rfl) rfl rfl rfl rfl rfl k y

/-- After YIELD the fibre is passed over exactly where its quarter has a ready one. -/
theorem solo_yielded (hf : f m s.regs s = ({ st := s }, some .yield)) (hq : s.mine.quarter = s.cur) :
    ∃ u, onNext (terminalWord s f) State.advance = .next u ∧ ∀ f ∈ (u.group s.it.group).fibres,
      f.yielded = true ↔ ∃ e ∈ u.groups, e.2.quarter = s.cur ∧ ∃ x ∈ e.2.fibres, u.ready e.1 e.2 x = true := by
  obtain ⟨v, hnext, hv⟩ := terminal_boundary h.1 hf
  obtain ⟨hfib, -, hgroup, hteams⟩ := solo_found h hv
  let n : Fibre := { ({ m with reenter := s.it.again } : Fibre).fall s.it.sequential with yielded := true }
  have hw : v.applyTerm v.it m.id .yield = v.setGroup s.it.group { s.termGroup m [] with fibres := [n] } := by
    obtain ⟨-, hig, -, -, hseq, -⟩ := hv
    rw [State.applyTerm_yield hfib]
    unfold State.modFibre
    rw [hig, hgroup, show m.id = ({ m with reenter := s.it.again } : Fibre).id from rfl, Group.modFibre_one (State.termGroup_one h), hseq]
  obtain ⟨hrg, hj, hbar⟩ := solo_calm h (w := v.setGroup s.it.group { s.termGroup m [] with fibres := [n] }) hteams (State.group_setGroup_self ..) rfl
    fun x hx => List.mem_singleton.1 hx ▸ rfl
  obtain ⟨hrest, hig, hmem, hterm, -⟩ := hv
  have hcur : v.cur = s.cur := (congrArg State.cur hrest :)
  obtain ⟨k, hk, -⟩ := State.boundary_goes_on hig hmem hterm hw hj ⟨rfl, rfl⟩ (f := n) (by rw [hrg]; exact List.mem_singleton_self _) nofun hbar
  rw [hrg, hcur] at hk
  refine ⟨v.boundary, hnext, ?_⟩
  dsimp only at hk
  rw [hk, ← hq]
  generalize hy : State.setGroup _ s.it.group _ = y
  have hyg := (congrArg (fun z : State => z.group s.it.group) hy).symm.trans (State.group_setGroup_self ..)
  have hyq : (y.group s.it.group).quarter = s.mine.quarter := by
    rw [hyg]
    rfl
  have hiff (f : Fibre) := y.yielded_iff s.it.group (f := f) fun x hx => by
    rw [hyg] at hx
    rw [List.mem_singleton.1 hx]
  rw [hyq] at hiff
  exact hiff

/-! ### RETT -/

/-- A trap fibre goes on where its trap returns, with its own condition bits. -/
theorem solo_returns {x : TrapRegs} (hf : f m s.regs s = ({ st := s }, some .rett)) (hx : m.trap = some x) :
    ∃ u, onNext (terminalWord s f) State.advance = .next u ∧ (u.quarter s.cur).issue = none ∧ ∃ n, (u.group s.it.group).fibres = [n] ∧
      n.mask = m.mask ∧ n.trap = none ∧ n.at_ = x.retResume ∧ n.wb = x.retWb ∧ n.c = m.c ∧ n.loops = x.retLoops ∧ n.entry = x.retEntry := by
  obtain ⟨v, hnext, hv⟩ := terminal_boundary h.1 hf
  obtain ⟨hfib, hig, hgroup, hteams⟩ := solo_found h hv
  obtain ⟨ops, engs, hw⟩ := State.applyTerm_rett hfib hx
  generalize hn : returned { m with reenter := s.it.again } x (v.group v.it.group).nextFibre = n at hw
  have hgone : (s.termGroup m []).fibres.filter (fun y => y.id != m.id) = [] := by
    rw [State.termGroup_one h]
    simp
  rw [hig, hgroup, hgone] at hw
  obtain ⟨hissue, -, k, y, hset⟩ := solo_settles h (w := _) (G := { s.termGroup m [] with fibres := [n], nextFibre := (s.termGroup m []).nextFibre + 1 })
    (f := n) hv hw hteams (State.group_setGroup_self ..) rfl (List.mem_singleton_self _) fun z hz => by rw [List.mem_singleton.1 hz, ← hn]; rfl
  refine ⟨v.boundary, hnext, hissue, ?_⟩
  rw [hset]
  subst hn
  rcases Group.settled_one (g := { s.termGroup m [] with
      fibres := [returned { m with reenter := s.it.again } x (v.group v.it.group).nextFibre], nextFibre := (s.termGroup m []).nextFibre + 1, cnt := 0, parked := false, served := false })
      rfl k y with hone | hone
  · exact ⟨_, hone, rfl, rfl, rfl, rfl, rfl, rfl, rfl⟩
  · exact ⟨_, hone, rfl, rfl, rfl, rfl, rfl, rfl, rfl⟩

/-! ### FSPLIT -/

theorem solo_splits_none {a b : Mask} {pc : Word} (hf : f m s.regs s = ({ st := s }, some (.split a b pc))) (hb : b &&& m.mask = 0) :
    ∃ u, onNext (terminalWord s f) State.advance = .next u ∧ (u.quarter s.cur).issue = none ∧ s.standsAt m (u.group s.it.group) pc m.loops := by
  have hrun := solo_run h
  obtain ⟨u, hu, hissue, k, y, hset⟩ := solo_goes h hf (State.termGroup_one h) rfl (upd := fun x => { x with at_ := { pc := pc } }) hrun rfl
    fun v _ hfib => (State.applyTerm_split hfib a b pc).trans (if_pos hb)
  refine ⟨u, hu, hissue, ?_⟩
  rw [hset]
  exact State.standsAt_settled (n := { m with reenter := s.it.again, at_ := { pc := pc } }) (by rfl) rfl rfl rfl rfl hrun k y

theorem solo_splits_all {a b : Mask} {pc : Word} (hf : f m s.regs s = ({ st := s }, some (.split a b pc))) (hb : b &&& m.mask ≠ 0)
    (ha : a &&& m.mask = 0) :
    ∃ u, onNext (terminalWord s f) State.advance = .next u ∧ (u.quarter s.cur).issue = none ∧
      s.standsAt m (u.group s.it.group) (m.fall s.it.sequential).at_.pc (m.fall s.it.sequential).loops := by
  obtain ⟨u, hu, hissue, k, y, hset⟩ := solo_goes h hf (State.termGroup_one h) rfl (upd := fun x => x.fall s.it.sequential) rfl rfl
    fun v hseq hfib => hseq ▸ (State.applyTerm_split hfib a b pc).trans ((if_neg hb).trans (if_pos ha))
  refine ⟨u, hu, hissue, ?_⟩
  rw [hset]
  exact State.standsAt_settled (n := ({ m with reenter := s.it.again } : Fibre).fall s.it.sequential) (by rfl) rfl rfl rfl rfl rfl k y

/-- The two fibres of a split, on an entry that was free. -/
theorem solo_splits {a b : Mask} {pc : Word} (hf : f m s.regs s = ({ st := s }, some (.split a b pc))) (hb : b &&& m.mask ≠ 0) (ha : a &&& m.mask ≠ 0)
    (hfree : ∃ e < 31, s.mine.split.get? e = none) :
    ∃ u, onNext (terminalWord s f) State.advance = .next u ∧ (u.quarter s.cur).issue = none ∧ ∃ (x y : Fibre) (e : Nat),
      (u.group s.it.group).fibres = [y, x] ∧ s.mine.split.get? e = none ∧
      (u.group s.it.group).split.get? e = some { join := m.mask, outer := m.entry } ∧ x.at_ = { pc := pc } ∧ x.loops = m.loops ∧
      y.at_ = (m.fall s.it.sequential).at_ ∧ y.loops = (m.fall s.it.sequential).loops ∧ x.entry = some e ∧ y.entry = some e ∧
      x.mask = a &&& m.mask ∧ y.mask = b &&& m.mask ∧ (x.id = y.id → m.id = s.mine.nextFibre) := by
  obtain ⟨v, hnext, hv⟩ := terminal_boundary h.1 hf
  obtain ⟨hfib, hig, hgroup, hteams⟩ := solo_found h hv
  let e := freeEntry s.mine.split
  let x : Fibre := { m with reenter := s.it.again, id := s.mine.nextFibre, mask := a &&& m.mask, at_ := { pc := pc }, entry := some e,
                            poison := markIn m.poison (a &&& m.mask) }
  let y : Fibre := ({ m with reenter := s.it.again, mask := b &&& m.mask, entry := some e, poison := markIn m.poison (b &&& m.mask) } : Fibre).fall s.it.sequential
  let G : Group := { s.termGroup m [] with split := s.mine.split.put e { join := m.mask, outer := m.entry }, nextFibre := s.mine.nextFibre + 1, fibres := [y, x] }
  have hw : v.applyTerm v.it m.id (.split a b pc) = (v.setGroup s.it.group G).hold s.it.group [m.id] s.mine.nextFibre := by
    obtain ⟨-, -, -, -, hseq, -⟩ := id hv
    have hone : ((s.termGroup m []).fibres.map fun z => if z.id == m.id then y else z) = [y] := by
      rw [State.termGroup_one h]
      simp
    rw [State.applyTerm_split hfib]
    unfold State.splitFibre
    dsimp only
    rw [if_neg hb, if_neg ha, hig, hgroup, hseq]
    refine congrArg (fun fs => (v.setGroup s.it.group { G with fibres := fs }).hold s.it.group [m.id] s.mine.nextFibre) ?_
    exact congrArg (· ++ [x]) hone
  have hkind := solo_run h
  have hrun : ∀ z ∈ G.fibres, z.kind = .run := by
    intro z hz
    rcases List.mem_cons.1 hz with rfl | hz
    · rfl
    · rw [List.mem_singleton.1 hz]
      exact hkind
  obtain ⟨hissue, -, k, yields, hset⟩ := solo_settles h (w := _) (G := G) (f := y) hv hw hteams (State.group_setGroup_self ..) rfl (List.mem_cons_self ..) hrun
  refine ⟨v.boundary, hnext, hissue, ?_⟩
  rw [hset]
  have hkeeps := Group.freeSplit_keeps (e := e) (f := x) rfl 31 { G with cnt := 0, parked := false, served := false }
    (List.mem_cons_of_mem _ (List.mem_singleton_self _))
  rw [← Group.settled_split _ k yields] at hkeeps
  have hsplit := hkeeps.trans (Tab.get?_put_self ..)
  have hnone : s.mine.split.get? e = none := by
    obtain ⟨k, hk, hfree⟩ := hfree
    exact Tab.get?_freeFrom _ 0 31 ⟨k, Nat.zero_le k, by omega, hfree⟩
  rcases Group.settled_two (g := { G with cnt := 0, parked := false, served := false }) rfl k yields with htwo | htwo
  · exact ⟨x, y, e, htwo, hnone, hsplit, rfl, rfl, rfl, rfl, rfl, rfl, rfl, rfl, fun hid => hid.symm⟩
  · exact ⟨x.unyielded, y.unyielded, e, htwo, hnone, hsplit, rfl, rfl, rfl, rfl, rfl, rfl, rfl, rfl, fun hid => hid.symm⟩

end

end Sys2Proof.Machine
end

section
/-!
FEND, GEND, the lanes of a split, and the words of a fibre that is the one of its group (spec/14 R305 to R313).
-/

namespace Sys2Proof.Machine

open Sys2Proof

/-! ### FEND and GEND -/

theorem State.applyTerm_ends {v : State} {it : Issue} {m n : Fibre} {t : Term} (hn : (v.group it.group).fibre? m.id = some n)
    (hone : (v.group it.group).fibres = [n]) (hid : n.id = m.id) (ht : t = .endLanes ∨ t = .endGroup) :
    (v.applyTerm it m.id t).teams = v.teams ∧ (v.applyTerm it m.id t).group it.group = { v.group it.group with fibres := [] } := by
  have hgone : (v.group it.group).fibres.filter (fun x => x.id != m.id) = [] := by
    rw [hone]
    simp [hid]
  unfold State.applyTerm
  dsimp only
  rw [hn]
  rcases ht with rfl | rfl
  · refine ⟨rfl, ?_⟩
    dsimp only
    rw [hgone]
    exact State.group_setGroup_self ..
  · exact ⟨rfl, State.group_setGroup_self ..⟩

theorem solo_ends {s : State} {m : Fibre} (h : s.solo m) {f : Fibre → Group → State → MRes × Option Term} {t : Term}
    (hf : f m s.regs s = ({ st := s }, some t)) (ht : t = .endLanes ∨ t = .endGroup) :
    ∃ u, onNext (terminalWord s f) State.advance = .next u ∧ (u.quarter s.cur).issue = none ∧ (u.group s.it.group).fibres = [] ∧
      (u.group s.it.group).ended = true := by
  obtain ⟨v, hnext, hv⟩ := terminal_boundary h.1 hf
  obtain ⟨hfib, hig, hgroup, hteams⟩ := solo_found h hv
  obtain ⟨hends, hg⟩ := State.applyTerm_ends hfib (by rw [hig, hgroup]; exact State.termGroup_one h) rfl ht
  rw [hig, hgroup] at hg
  obtain ⟨hempty, hended, hissue, -⟩ := solo_ended h hv rfl (hends.trans hteams) (by rw [hg]) (by rw [hg]; rfl)
  exact ⟨v.boundary, hnext, hissue, hempty, hended⟩

/-! ### The lanes of a split (spec/14 R313) -/

/-- The lanes of a fibre that go to the target of FSPLIT, and those that fall. -/
def splitLanes (p m : Mask) (n : Bool) : Mask × Mask :=
  let one := p &&& m
  let zero := m &&& ~~~one
  if n then (zero, one) else (one, zero)

theorem splitLanes_bits (p m : Mask) (n : Bool) (l : Nat) (hl : l < 32) :
    ((splitLanes p m n).1 &&& m).getLsbD l = (m.getLsbD l && p.getLsbD l != n) ∧
    ((splitLanes p m n).2 &&& m).getLsbD l = (m.getLsbD l && p.getLsbD l == n) := by
  have hzero : (m &&& ~~~(p &&& m)).getLsbD l = (m.getLsbD l && !(p.getLsbD l && m.getLsbD l)) := by
    rw [BitVec.getLsbD_and, BitVec.getLsbD_not, BitVec.getLsbD_and, decide_eq_true hl, Bool.true_and]
  unfold splitLanes
  rw [BitVec.getLsbD_and, BitVec.getLsbD_and]
  cases n <;> simp only [Bool.false_eq_true, if_true, if_false, hzero, BitVec.getLsbD_and] <;>
    cases m.getLsbD l <;> cases p.getLsbD l <;> exact ⟨rfl, rfl⟩

theorem splitLanes_or (p m : Mask) (n : Bool) : ((splitLanes p m n).1 &&& m) ||| ((splitLanes p m n).2 &&& m) = m := by
  refine BitVec.eq_of_getLsbD_eq fun l hl => ?_
  obtain ⟨h1, h2⟩ := splitLanes_bits p m n l hl
  rw [BitVec.getLsbD_or, h1, h2]
  cases m.getLsbD l <;> cases p.getLsbD l <;> cases n <;> rfl

theorem mask_eq_zero {m : Mask} {b : Nat → Bool} (hm : ∀ l < 32, m.getLsbD l = b l) : m = 0 ↔ ∀ l < 32, b l = false := by
  refine ⟨fun h l hl => ?_, fun h => BitVec.eq_of_getLsbD_eq fun l hl => ?_⟩
  · rw [← hm l hl, h]
    exact BitVec.getLsbD_zero
  · rw [hm l hl, h l hl]
    exact BitVec.getLsbD_zero.symm

theorem mask_ne_zero {m : Mask} {b : Nat → Bool} (hm : ∀ l < 32, m.getLsbD l = b l) (h : ∃ l < 32, b l = true) : m ≠ 0 := by
  obtain ⟨l, hl, hb⟩ := h
  exact fun h0 => Bool.false_ne_true (((mask_eq_zero hm).1 h0 l hl).symm.trans hb)

/-- What FSPLIT notes for the end of its clause. -/
def fsplitNote (p : PReg) (n : Bool) (off : BitVec 17) (s : State) (m : Fibre) (g : Group) (st : State) : MRes × Option Term :=
  ({ st := st }, some (.split (splitLanes (g.p.getD p.val 0) m.mask n).1 (splitLanes (g.p.getD p.val 0) m.mask n).2 (s.it.target off)))

theorem execFsplit_eq (p : PReg) (n : Bool) (off : BitVec 17) (s : State) : execFsplit p n off s = terminalWord s (fsplitNote p n off s) := by
  cases n <;> rfl

end Sys2Proof.Machine
end

section
/-!
FJOIN at a clause's end (spec/06 R119, R122): what a group's joins see of the fibre that parks.
-/

namespace Sys2Proof.Machine

open Sys2Proof

/-! ### Lists in order of a key, and the lanes of several fibres -/

section
variable {α : Type} {key : α → Nat}

theorem mem_insertBy {a x : α} {l : List α} : a ∈ insertBy key x l ↔ a = x ∨ a ∈ l := by
  induction l with
  | nil => simp [insertBy]
  | cons y t ih =>
    unfold insertBy
    split
    · exact List.mem_cons
    · rw [List.mem_cons, ih, List.mem_cons]
      exact or_left_comm

theorem mem_sortBy {a : α} {l : List α} : a ∈ sortBy key l ↔ a ∈ l := by
  have hfold (acc : List α) : a ∈ l.foldl (fun acc x => insertBy key x acc) acc ↔ a ∈ acc ∨ a ∈ l := by
    induction l generalizing acc with
    | nil => simp
    | cons x l ih =>
      rw [List.foldl_cons, ih, mem_insertBy, List.mem_cons, or_assoc, or_left_comm]
  exact (hfold []).trans (by simp)

theorem insertBy_ordered (x : α) {l : List α} (h : l.Pairwise fun a b => key a ≤ key b) : (insertBy key x l).Pairwise fun a b => key a ≤ key b := by
  induction l with
  | nil => exact List.pairwise_singleton ..
  | cons y t ih =>
    obtain ⟨hy, ht⟩ := List.pairwise_cons.1 h
    unfold insertBy
    split
    · next hlt =>
      refine List.pairwise_cons.2 ⟨fun b hb => ?_, h⟩
      rcases List.mem_cons.1 hb with rfl | hb
      · exact hlt.le
      · exact hlt.le.trans (hy b hb)
    · next hle =>
      refine List.pairwise_cons.2 ⟨fun b hb => ?_, ih ht⟩
      rcases mem_insertBy.1 hb with rfl | hb
      · exact Nat.not_lt.1 hle
      · exact hy b hb

theorem sortBy_ordered (l : List α) : (sortBy key l).Pairwise fun a b => key a ≤ key b := by
  have hfold (acc : List α) (h : acc.Pairwise fun a b => key a ≤ key b) :
      (l.foldl (fun acc x => insertBy key x acc) acc).Pairwise fun a b => key a ≤ key b := by
    induction l generalizing acc with
    | nil => exact h
    | cons x l ih => exact ih _ (insertBy_ordered x h)
  exact hfold [] .nil

/-- The one element of the least key comes first. -/
theorem sortBy_first {l : List α} {r : α} (hr : r ∈ l) (hleast : ∀ a ∈ l, a ≠ r → key r < key a) : ∃ rest, sortBy key l = r :: rest := by
  have hmem := mem_sortBy (key := key) (l := l) (a := r)
  have hord := sortBy_ordered (key := key) l
  have hall : ∀ a ∈ sortBy key l, a ∈ l := fun a ha => mem_sortBy.1 ha
  cases hl : sortBy key l with
  | nil =>
    rw [hl] at hmem
    exact absurd (hmem.2 hr) List.not_mem_nil
  | cons y rest =>
    rw [hl] at hmem hord hall
    have hy : y = r := by
      by_contra hne
      have hlt := hleast y (hall y (List.mem_cons_self ..)) hne
      rcases List.mem_cons.1 (hmem.2 hr) with rfl | hin
      · exact hne rfl
      · exact Nat.not_le.2 hlt ((List.pairwise_cons.1 hord).1 r hin)
    exact ⟨rest, by rw [hy]⟩

end

theorem lanes_foldl (fs : List Fibre) (z : Mask) (i : Nat) :
    (fs.foldl (fun m f => m ||| f.mask) z).getLsbD i = true ↔ z.getLsbD i = true ∨ ∃ f ∈ fs, f.mask.getLsbD i = true := by
  induction fs generalizing z with
  | nil => simp
  | cons f fs ih =>
    rw [List.foldl_cons, ih, BitVec.getLsbD_or, Bool.or_eq_true, List.exists_mem_cons_iff, or_assoc]

theorem lanes_zero (fs : List Fibre) (i : Nat) : (fs.foldl (fun m f => m ||| f.mask) (0 : Mask)).getLsbD i = true ↔ ∃ f ∈ fs, f.mask.getLsbD i = true := by
  rw [lanes_foldl]
  simp

theorem lowest_lt {m : Mask} (h : lowLane m < 32) : m ≠ 0 := by
  rintro rfl
  revert h
  decide

theorem joinFibre_form (f : Fibre) (rest : List Fibre) (outer : Option Nat) : ∃ a b c, joinFibre f rest outer =
    { f with mask := rest.foldl (fun m x => m ||| x.mask) f.mask, fail := a, poison := b, live := c, entry := outer } := by
  unfold joinFibre
  induction rest generalizing f with
  | nil => exact ⟨_, _, _, rfl⟩
  | cons x rest ih => exact ih _

/-- Two fibres of a group are one where their numbers are. -/
theorem fibre_unique {fs : List Fibre} (h : (fs.map (·.id)).Nodup) {x y : Fibre} (hx : x ∈ fs) (hy : y ∈ fs) (hid : x.id = y.id) : x = y :=
  List.inj_on_of_nodup_map h hx hy hid

/-! ### The group with its fibre parked -/

/-- A fibre of the group as FJOIN of the fibre `m` leaves it. -/
def State.joinParked (s : State) (m f : Fibre) : Fibre :=
  if f.id == m.id then { f with reenter := s.it.again, at_ := { pc := s.it.sequential }, kind := .parked .join, again := false } else f

/-- The group at its boundary, the fibre `m` parked at FJOIN. -/
def State.atJoin (s : State) (m : Fibre) : Group :=
  { s.mine with cnt := 0, parked := false, served := false, fibres := s.mine.fibres.map (s.joinParked m) }

section
variable (s : State) (m f : Fibre)

@[simp] theorem State.joinParked_id : (s.joinParked m f).id = f.id := by unfold State.joinParked; split <;> rfl
@[simp] theorem State.joinParked_mask : (s.joinParked m f).mask = f.mask := by unfold State.joinParked; split <;> rfl
@[simp] theorem State.joinParked_entry : (s.joinParked m f).entry = f.entry := by unfold State.joinParked; split <;> rfl
@[simp] theorem State.joinParked_trap : (s.joinParked m f).trap = f.trap := by unfold State.joinParked; split <;> rfl
@[simp] theorem State.joinParked_wb : (s.joinParked m f).wb = f.wb := by unfold State.joinParked; split <;> rfl
@[simp] theorem State.joinParked_c : (s.joinParked m f).c = f.c := by unfold State.joinParked; split <;> rfl

variable {s m f}

theorem State.joinParked_other (h : f.id ≠ m.id) : s.joinParked m f = f := if_neg fun hid => h (beq_iff_eq.1 hid)

theorem State.joinParked_same (h : f.id = m.id) :
    s.joinParked m f = { f with reenter := s.it.again, at_ := { pc := s.it.sequential }, kind := .parked .join, again := false } :=
  if_pos (beq_iff_eq.2 h)

/-- The fibre `f` has come to the join of entry `e` once `m` has. -/
def Fibre.comesTo (f m : Fibre) (e : Nat) : Prop := f.id = m.id ∨ f.kind = .parked .join ∧ f.entry = some e

end

section
variable {s : State} {m : Fibre} (h : s.lastWord m)
include h

theorem lastWord_fibres : m ∈ s.mine.fibres ∧ (s.mine.fibres.map (·.id)).Nodup ∧ m.kind = .run ∧ m.mask ≠ 0 := by
  obtain ⟨-, -, -, -, -, -, -, hrun, hmask, hfib, hnodup, -⟩ := h
  exact ⟨List.mem_of_find?_eq_some hfib, hnodup, hrun, hmask⟩

theorem lastWord_self {f : Fibre} (hf : f ∈ s.mine.fibres) (hid : f.id = m.id) : f = m := by
  obtain ⟨hm, hnodup, -⟩ := lastWord_fibres h
  exact fibre_unique hnodup hf hm hid

theorem joinParked_ids : ((s.atJoin m).fibres.map (·.id)).Nodup := by
  obtain ⟨-, hnodup, -⟩ := lastWord_fibres h
  have hids : (s.atJoin m).fibres.map (·.id) = s.mine.fibres.map (·.id) := by
    unfold State.atJoin
    rw [List.map_map]
    exact List.map_congr_left fun x _ => s.joinParked_id m x
  rwa [hids]

/-- The fibres that wait at the join of the entry of `m`. -/
theorem joinParked_comes {e : Nat} (he : m.entry = some e) {f : Fibre} (hf : f ∈ s.mine.fibres) :
    (((s.joinParked m f).kind == .parked .join) && ((s.joinParked m f).entry == some e)) = true ↔ f.comesTo m e := by
  rw [Bool.and_eq_true, beq_iff_eq, beq_iff_eq, s.joinParked_entry]
  unfold Fibre.comesTo
  by_cases hid : f.id = m.id
  · refine iff_of_true ⟨?_, ?_⟩ (.inl hid)
    · rw [State.joinParked_same hid]
    · rw [lastWord_self h hf hid, he]
  · rw [State.joinParked_other hid]
    simp [hid]

theorem mem_joiners {e : Nat} (he : m.entry = some e) {y : Fibre} :
    y ∈ (s.atJoin m).joiners e ↔ ∃ f ∈ s.mine.fibres, f.comesTo m e ∧ s.joinParked m f = y := by
  unfold Group.joiners State.atJoin
  rw [mem_sortBy, List.mem_filter, List.mem_map]
  constructor
  · rintro ⟨⟨f, hf, rfl⟩, hk⟩
    exact ⟨f, hf, (joinParked_comes h he hf).1 hk, rfl⟩
  · rintro ⟨f, hf, hc, rfl⟩
    exact ⟨⟨f, hf, rfl⟩, (joinParked_comes h he hf).2 hc⟩

omit h in
theorem alive_atJoin (i : Nat) : (s.atJoin m).alive.getLsbD i = true ↔ ∃ f ∈ s.mine.fibres, f.mask.getLsbD i = true := by
  unfold Group.alive State.atJoin
  rw [lanes_zero]
  constructor
  · rintro ⟨y, hy, hi⟩
    obtain ⟨f, hf, rfl⟩ := List.mem_map.1 hy
    exact ⟨f, hf, by rwa [s.joinParked_mask] at hi⟩
  · rintro ⟨f, hf, hi⟩
    exact ⟨_, List.mem_map.2 ⟨f, hf, rfl⟩, by rwa [s.joinParked_mask]⟩

/-- No other entry's join sees that `m` has parked. -/
theorem joinable_other {e : Nat} (he : m.entry = some e) {z : Nat} (hz : z ≠ e) (x : SplitEntry) : (s.atJoin m).joinable z x = s.mine.joinable z x := by
  obtain ⟨-, -, hrun, -⟩ := lastWord_fibres h
  have hjoin : (s.atJoin m).joiners z = s.mine.joiners z := by
    have hmine (f : Fibre) (hf : f ∈ s.mine.fibres) : (((s.joinParked m f).kind == .parked .join) && ((s.joinParked m f).entry == some z)) =
        ((f.kind == .parked .join) && (f.entry == some z)) := by
      by_cases hid : f.id = m.id
      · have hne : (some e == some z) = false := beq_eq_false_iff_ne.2 fun h => hz (Option.some.inj h).symm
        rw [State.joinParked_same hid, lastWord_self h hf hid, he, hne, Bool.and_false, Bool.and_false]
      · rw [State.joinParked_other hid]
    unfold Group.joiners State.atJoin
    rw [List.filter_map]
    refine congrArg (sortBy _) ?_
    rw [List.filter_congr (p := _ ∘ _) (q := fun f => (f.kind == .parked .join) && (f.entry == some z)) hmine]
    conv_rhs => rw [← List.map_id (List.filter _ _)]
    refine List.map_congr_left fun f hf => State.joinParked_other fun hid => ?_
    obtain ⟨hmem, hk⟩ := List.mem_filter.1 hf
    rw [lastWord_self h hmem hid, hrun] at hk
    exact absurd hk (by simp)
  have halive : (s.atJoin m).alive = s.mine.alive := by
    refine BitVec.eq_of_getLsbD_eq fun i _ => Bool.eq_iff_iff.2 ?_
    rw [alive_atJoin]
    exact (lanes_zero ..).symm
  unfold Group.joinable
  rw [hjoin, halive]

/-- The join of the entry of `m` completes exactly where every lane of the entry that is alive has come to it. -/
theorem joinable_iff {e : Nat} (he : m.entry = some e) (x : SplitEntry) : (s.atJoin m).joinable e x = true ↔
    ∀ l < 32, x.join.getLsbD l = true → (∃ f ∈ s.mine.fibres, f.mask.getLsbD l = true) → ∃ f ∈ s.mine.fibres, f.comesTo m e ∧ f.mask.getLsbD l = true := by
  obtain ⟨hm, -, -, hmask⟩ := lastWord_fibres h
  let come := ((s.atJoin m).joiners e).foldl (fun m f => m ||| f.mask) (0 : Mask)
  have hcome (l : Nat) : come.getLsbD l = true ↔ ∃ f ∈ s.mine.fibres, f.comesTo m e ∧ f.mask.getLsbD l = true := by
    unfold come
    rw [lanes_zero]
    constructor
    · rintro ⟨y, hy, hl⟩
      obtain ⟨f, hf, hc, rfl⟩ := (mem_joiners h he).1 hy
      exact ⟨f, hf, hc, by rwa [s.joinParked_mask] at hl⟩
    · rintro ⟨f, hf, hc, hl⟩
      exact ⟨_, (mem_joiners h he).2 ⟨f, hf, hc, rfl⟩, by rwa [s.joinParked_mask]⟩
  have hne : come ≠ 0 := fun h0 => hmask <| (mask_eq_zero fun l _ => rfl).2 fun l _ => Bool.eq_false_iff.2 fun hl => by
    have hl := (hcome l).2 ⟨m, hm, .inl rfl, hl⟩
    rw [h0] at hl
    exact Bool.false_ne_true (BitVec.getLsbD_zero.symm.trans hl)
  have hgoal : (s.atJoin m).joinable e x = true ↔ x.join &&& (s.atJoin m).alive &&& ~~~come = 0 := by
    unfold Group.joinable
    rw [Bool.and_eq_true, bne_iff_ne, beq_iff_eq]
    exact and_iff_right hne
  rw [hgoal, mask_eq_zero fun l hl => rfl]
  refine forall₂_congr fun l hl => ?_
  rw [BitVec.getLsbD_and, BitVec.getLsbD_and, BitVec.getLsbD_not, decide_eq_true hl, Bool.true_and, ← alive_atJoin (m := m), ← hcome]
  cases x.join.getLsbD l <;> cases (s.atJoin m).alive.getLsbD l <;> cases come.getLsbD l <;> simp

/-! ### The boundary after FJOIN -/

theorem fjoin_boundary {e : Nat} (he : m.entry = some e) : ∃ v w : State, onNext (exec .fjoin s) State.advance = .next v.boundary ∧
    s.clauseOver v m (.park .join) [] ∧ v.applyTerm v.it m.id (.park .join) = w ∧
    (w.restarted s.it.group).group s.it.group = s.atJoin m ∧ w.teams = s.teams ∧ w.ops = s.ops ∧ w.cur = s.cur := by
  have hsome : (if m.entry.isSome then Term.park .join else .next) = .park .join := by
    rw [he]
    rfl
  obtain ⟨v, hnext, hv⟩ := terminal_boundary (ws := []) (t := .park .join) h (f := fun m _ st => ({ st := st }, some (if m.entry.isSome then .park .join else .next)))
    (congrArg (fun t => (({ st := s } : MRes), some t)) hsome)
  have hfound := State.termGroup_holds h []
  obtain ⟨hrest, hig, -, -, hseq, hgroup⟩ := id hv
  obtain ⟨n, hn⟩ := Option.isSome_iff_exists.1 hfound
  have hw := State.applyTerm_park (v := v) (it := v.it) (id := m.id) (f := n) (by rw [hig, hgroup]; exact hn) .join
  refine ⟨v, _, hnext, hv, rfl, ?_, ?_, ?_, ?_⟩
  · rw [hw, hig, hseq]
    unfold State.restarted
    rw [State.group_setGroup_self]
    have hg : (v.modFibre s.it.group m.id fun x => { x with at_ := { pc := s.it.sequential }, kind := .parked .join, again := false }).group s.it.group =
        { s.mine with fibres := s.mine.fibres.map (s.joinParked m) } := by
      unfold State.modFibre
      rw [State.group_setGroup_self, hgroup]
      unfold State.termGroup Group.modFibre
      refine congrArg (fun fs => ({ s.mine with fibres := fs } : Group)) ?_
      show List.map _ (List.map _ s.mine.fibres) = _
      rw [List.map_map]
      refine List.map_congr_left fun f _ => ?_
      unfold State.joinParked
      by_cases hid : (f.id == m.id) = true
      · simp only [Function.comp, hid, if_true]
      · simp only [Function.comp, hid, Bool.false_eq_true, if_false]
    have hg' := congrArg (fun g : Group => ({ g with cnt := 0, parked := false, served := false } : Group)) hg
    exact hg'
  · rw [hw]
    exact (congrArg State.teams hrest :)
  · rw [hw]
    exact (congrArg State.ops hrest :)
  · rw [hw]
    exact (congrArg State.cur hrest :)

end

end Sys2Proof.Machine
end

section
/-!
FJOIN in an open split: the fibre that waits, and the join that completes (spec/06 R119).
-/

namespace Sys2Proof.Machine

open Sys2Proof

/-- In a table whose keys rise, what stands under a key is what is found under it. -/
theorem Tab.get?_of_mem {V : Type} {t : Tab V} (h : Tab.sorted t = true) {e : Nat × V} (he : e ∈ t) : t.get? e.1 = some e.2 := by
  induction t with
  | nil => exact absurd he List.not_mem_nil
  | cons a t ih =>
    obtain ⟨k, v⟩ := a
    obtain ⟨habove, hs⟩ := (Tab.sorted_cons k v t).1 h
    rcases List.mem_cons.1 he with rfl | he
    · simp [Tab.get?]
    · have hne : e.1 ≠ k := (habove e he).ne'
      simp [Tab.get?, hne, ih hs he]

/-- No entry once freed stands again. -/
theorem Group.freeSplit_none {e : Nat} (n : Nat) (g : Group) (h : g.split.get? e = none) : (Group.freeSplit n g).split.get? e = none := by
  induction n generalizing g with
  | zero => exact h
  | succ n ih =>
    refine ih _ ?_
    by_cases hu : g.entryUsed e = true
    · exact (Tab.get?_filter_key _ _ hu).trans h
    · refine Option.eq_none_iff_forall_not_mem.2 fun x hx => hu ?_
      exact (List.mem_filter.1 (Tab.mem_of_get? hx)).2

section
variable {s : State} {m : Fibre} (h : s.lastWord m) {e : Nat} (he : m.entry = some e)
  (hothers : ∀ z ∈ s.mine.split, z.1 ≠ e → s.mine.joinable z.1 z.2 = false)
include h

theorem lastWord_noBarrier {w : State} (hg : (w.restarted s.it.group).group s.it.group = s.atJoin m) (hteams : w.teams = s.teams) :
    (w.restarted s.it.group).noBarrier s.it.group := by
  obtain ⟨-, -, -, -, -, -, -, -, -, -, -, hb, hgbar⟩ := h
  unfold State.noBarrier
  rw [hg]
  have ht : (w.restarted s.it.group).teams = s.teams := hteams
  refine ⟨?_, by rw [ht]; exact hgbar⟩
  unfold State.team
  rw [ht]
  exact hb

include he hothers

/-- A lane of the split that is alive and has not come keeps every join from completing. -/
theorem atJoin_stuck {x : SplitEntry} (hx : s.mine.split.get? e = some x) (hs : Tab.sorted s.mine.split = true) {l : Nat} (hl : l < 32)
    (hjoin : x.join.getLsbD l = true) (halive : ∃ f ∈ s.mine.fibres, f.mask.getLsbD l = true)
    (haway : ∀ f ∈ s.mine.fibres, f.comesTo m e → f.mask.getLsbD l = false) :
    ∀ z ∈ (s.atJoin m).split, (s.atJoin m).joinable z.1 z.2 = false := by
  intro z hz
  by_cases hze : z.1 = e
  · have hzx : z.2 = x := Option.some.inj ((Tab.get?_of_mem hs hz).symm.trans (hze ▸ hx))
    rw [hze, hzx]
    refine Bool.eq_false_iff.2 fun hc => ?_
    obtain ⟨f, hf, hcomes, hfl⟩ := (joinable_iff h he x).1 hc l hl hjoin halive
    exact Bool.false_ne_true ((haway f hf hcomes).symm.trans hfl)
  · rw [joinable_other h he hze]
    exact hothers z hz hze

omit hothers in
/-- FJOIN that completes no join, with another fibre of the group that goes on: the fibre waits. -/
theorem fjoin_parks (hstuck : ∀ z ∈ (s.atJoin m).split, (s.atJoin m).joinable z.1 z.2 = false)
    {f : Fibre} (hf : f ∈ s.mine.fibres) (hid : f.id ≠ m.id) (hrun : f.kind ≠ .parked .join) :
    ∃ u, onNext (exec .fjoin s) State.advance = .next u ∧ (u.quarter s.cur).issue = none ∧ ∃ n ∈ (u.group s.it.group).fibres,
      n.id = m.id ∧ n.kind = .parked .join ∧ n.at_ = { pc := s.it.sequential } ∧ n.mask = m.mask ∧ n.entry = some e ∧ n.c = m.c ∧
      n.loops = m.loops := by
  obtain ⟨v, w, hnext, hv, hw, hg, hteams, -, hcur⟩ := fjoin_boundary h he
  obtain ⟨hm, -⟩ := lastWord_fibres h
  obtain ⟨hrest, hig, hmem, hterm, -⟩ := hv
  have hcv : v.cur = s.cur := (congrArg State.cur hrest :)
  have hj : (w.restarted s.it.group).joins 32 s.it.group = w.restarted s.it.group := State.joins_none (by rw [hg]; exact hstuck) 32
  have hin : f ∈ (s.atJoin m).fibres := List.mem_map.2 ⟨f, hf, State.joinParked_other hid⟩
  obtain ⟨hissue, -, k, y, hset⟩ := State.boundary_settles hig hmem hterm hw hj ⟨rfl, rfl⟩ (f := f) (by rw [hg]; exact hin) hrun
    (lastWord_noBarrier h hg hteams)
  rw [hcv] at hissue
  rw [hg] at hset
  refine ⟨v.boundary, hnext, hissue, ?_⟩
  rw [hset]
  have hself : s.joinParked m m ∈ (s.atJoin m).fibres := List.mem_map.2 ⟨m, hm, rfl⟩
  rw [State.joinParked_same rfl] at hself
  unfold Group.settled
  dsimp only
  cases y with
  | true => exact ⟨_, hself, rfl, rfl, rfl, rfl, he, rfl, rfl⟩
  | false => exact ⟨_, List.mem_map.2 ⟨_, hself, rfl⟩, rfl, rfl, rfl, rfl, he, rfl, rfl⟩

end

end Sys2Proof.Machine
end

section
/-!
The join that completes at FJOIN (spec/06 R119).
-/

namespace Sys2Proof.Machine

open Sys2Proof

/-! ### One join -/

/-- A new fibre holds every operation that one of the others held. -/
theorem State.hold_form (s : State) (gid : Nat) (from_ : List Nat) (id : Nat) : ∃ ops engs, s.hold gid from_ id = { s with ops := ops, engs := engs } ∧
    ∀ o ∈ s.ops, o.2.group = gid → (∃ i ∈ from_, i ∈ o.2.holders) → ∃ p ∈ ops, p.1 = o.1 ∧ id ∈ p.2.holders := by
  refine ⟨_, _, rfl, fun o ho hg ⟨i, hi, hio⟩ => ⟨_, List.mem_map.2 ⟨o, ho, rfl⟩, rfl, ?_⟩⟩
  have hany : (o.2.holders.any from_.contains) = true := List.any_eq_true.2 ⟨i, hio, List.contains_iff_mem.2 hi⟩
  dsimp only
  rw [if_pos (beq_iff_eq.2 hg)]
  show id ∈ if _ then _ else _
  rw [hany, Bool.true_and]
  by_cases hid : o.2.holders.contains id = true
  · rw [hid]
    exact List.contains_iff_mem.1 hid
  · rw [Bool.eq_false_iff.2 hid]
    exact List.mem_append_right _ (List.mem_singleton_self _)

/-- A group with the fibres at the join of an entry made the one fibre `n`. -/
def Group.joinedAt (g : Group) (e : Nat) (n : Fibre) : Group :=
  { g with split := g.split.erase e, expn := 0, fibres := (g.fibres.filter fun x => !((g.joiners e).map (·.id)).contains x.id) ++ [n] }

theorem State.joinAt_form {s : State} {gid e : Nat} {f : Fibre} {rest : List Fibre} (hj : (s.group gid).joiners e = f :: rest) :
    let n := (joinFibre f rest (((s.group gid).split.get? e).bind (·.outer))).wake
    ∃ o ops engs, s.joinAt gid e = { s.setGroup gid ((s.group gid).joinedAt e n) with order := o, ops := ops, engs := engs } ∧
      ∀ o ∈ s.ops, o.2.group = gid → (∃ y ∈ (s.group gid).joiners e, y.id ∈ o.2.holders) → ∃ p ∈ ops, p.1 = o.1 ∧ n.id ∈ p.2.holders := by
  intro n
  obtain ⟨o, ho⟩ := s.inform_moves gid n.mask (s.knows gid n.mask)
  obtain ⟨ops, engs, hhold, hops⟩ := State.hold_form ({ s.setGroup gid ((s.group gid).joinedAt e n) with order := o } : State) gid ((f :: rest).map (·.id)) n.id
  refine ⟨o, ops, engs, ?_, fun p hp hpg hpj => hops p hp hpg ?_⟩
  · unfold State.joinAt
    dsimp only
    rw [hj]
    dsimp only
    rw [show s.inform gid n.mask (s.knows gid n.mask) = { s with order := o } from ho]
    refine Eq.trans ?_ hhold
    unfold Group.joinedAt
    rw [hj]
    rfl
  · obtain ⟨y, hy, hyo⟩ := hpj
    exact ⟨y.id, List.mem_map.2 ⟨y, hj ▸ hy, rfl⟩, hyo⟩

theorem State.joins_found {s : State} {n gid : Nat} {z : Nat × SplitEntry}
    (hz : ((s.group gid).split.find? fun z => (s.group gid).joinable z.1 z.2) = some z) : s.joins (n + 1) gid = (s.joinAt gid z.1).joins n gid := by
  conv_lhs => unfold State.joins
  rw [hz]

theorem joinFibre_wake (f : Fibre) (rest : List Fibre) (outer : Option Nat) : let n := (joinFibre f rest outer).wake
    n.id = f.id ∧ n.kind = .run ∧ n.mask = (f :: rest).foldl (fun m x => m ||| x.mask) 0 ∧ n.at_ = f.wake.at_ ∧ n.loops = f.wake.loops ∧
      n.wb = f.wb ∧ n.c = f.c ∧ n.entry = outer := by
  obtain ⟨a, b, c, hform⟩ := joinFibre_form f rest outer
  intro n
  have hn : n = Fibre.wake _ := congrArg Fibre.wake hform
  rw [hn, List.foldl_cons, show (0 : Mask) ||| f.mask = f.mask from BitVec.zero_or]
  exact ⟨rfl, rfl, rfl, rfl, rfl, rfl, rfl, rfl⟩

/-! ### The join of the entry of FJOIN's fibre -/

/-- A fibre of the group as it goes on past its FJOIN, that of `m` in the clause at hand. -/
def State.pastJoin (s : State) (m r : Fibre) : Fibre := if r.id = m.id then m.fall s.it.sequential else r.fall r.at_.pc

section
variable {s : State} {m : Fibre} (h : s.lastWord m)
include h

theorem joinParked_wake {r : Fibre} (hr : r ∈ s.mine.fibres) :
    (s.joinParked m r).wake.at_ = (s.pastJoin m r).at_ ∧ (s.joinParked m r).wake.loops = (s.pastJoin m r).loops := by
  unfold State.pastJoin
  by_cases hid : r.id = m.id
  · rw [if_pos hid, State.joinParked_same hid, lastWord_self h hr hid]
    exact ⟨rfl, rfl⟩
  · rw [if_neg hid, State.joinParked_other hid]
    exact ⟨rfl, rfl⟩

variable {e : Nat} (he : m.entry = some e)
include he

/-- The fibre with the lowest lane of those that have come is the join's first. -/
theorem joiners_first {r : Fibre} (hr : r ∈ s.mine.fibres) (hc : r.comesTo m e)
    (hlow : ∀ f ∈ s.mine.fibres, f.comesTo m e → f.id ≠ r.id → lowLane r.mask < lowLane f.mask) :
    ∃ rest, (s.atJoin m).joiners e = s.joinParked m r :: rest := by
  have hmem {y : Fibre} (hy : y ∈ (s.atJoin m).fibres.filter fun f => f.kind == .parked .join && f.entry == some e) :=
    (mem_joiners h he).1 (mem_sortBy.2 hy)
  refine sortBy_first (mem_sortBy.1 ((mem_joiners h he).2 ⟨r, hr, hc, rfl⟩)) fun y hy hne => ?_
  obtain ⟨f, hf, hfc, rfl⟩ := hmem hy
  rw [s.joinParked_mask, s.joinParked_mask]
  obtain ⟨-, hnodup, -⟩ := lastWord_fibres h
  exact hlow f hf hfc fun hid => hne (by rw [fibre_unique hnodup hf hr hid])

theorem comesTo_ids {f : Fibre} (hf : f ∈ s.mine.fibres) :
    (((s.atJoin m).joiners e).map (·.id)).contains (s.joinParked m f).id = true ↔ f.comesTo m e := by
  obtain ⟨-, hnodup, -⟩ := lastWord_fibres h
  rw [List.contains_iff_mem, List.mem_map, s.joinParked_id]
  constructor
  · rintro ⟨y, hy, hid⟩
    obtain ⟨k, hk, hkc, rfl⟩ := (mem_joiners h he).1 hy
    rw [s.joinParked_id] at hid
    exact fibre_unique hnodup hk hf hid ▸ hkc
  · exact fun hc => ⟨_, (mem_joiners h he).2 ⟨f, hf, hc, rfl⟩, s.joinParked_id m f⟩

variable {n : Fibre} (hrun : n.kind = .run)
  (hmask : ∀ l, n.mask.getLsbD l = true ↔ ∃ f ∈ s.mine.fibres, f.comesTo m e ∧ f.mask.getLsbD l = true)

/-- The fibres that have not come stand beside the joined one as they were. -/
theorem mem_joinedAt {y : Fibre} : y ∈ ((s.atJoin m).joinedAt e n).fibres ↔ (y ∈ s.mine.fibres ∧ ¬y.comesTo m e) ∨ y = n := by
  have hkept : y ∈ (s.atJoin m).fibres.filter (fun x => !(((s.atJoin m).joiners e).map (·.id)).contains x.id) ↔ y ∈ s.mine.fibres ∧ ¬y.comesTo m e := by
    rw [List.mem_filter]
    constructor
    · rintro ⟨hy, hnot⟩
      obtain ⟨f, hf, rfl⟩ := List.mem_map.1 hy
      have hnc : ¬f.comesTo m e := fun hc => by
        rw [(comesTo_ids h he hf).2 hc] at hnot
        exact Bool.false_ne_true hnot
      have hsame : s.joinParked m f = f := State.joinParked_other fun hid => hnc (.inl hid)
      rw [hsame]
      exact ⟨hf, hnc⟩
    · rintro ⟨hy, hnc⟩
      have hsame : s.joinParked m y = y := State.joinParked_other fun hid => hnc (.inl hid)
      refine ⟨List.mem_map.2 ⟨y, hy, hsame⟩, ?_⟩
      have hnot := mt (comesTo_ids h he hy).1 hnc
      rw [hsame] at hnot
      rw [Bool.eq_false_iff.2 hnot]
      rfl
  show y ∈ List.filter _ _ ++ [n] ↔ _
  rw [List.mem_append, hkept, List.mem_singleton]

include hmask in
theorem alive_joinedAt : ((s.atJoin m).joinedAt e n).alive = (s.atJoin m).alive := by
  refine BitVec.eq_of_getLsbD_eq fun i _ => Bool.eq_iff_iff.2 ?_
  rw [alive_atJoin]
  unfold Group.alive
  rw [lanes_zero]
  constructor
  · rintro ⟨y, hy, hi⟩
    rcases (mem_joinedAt h he).1 hy with ⟨hy, -⟩ | rfl
    · exact ⟨y, hy, hi⟩
    · obtain ⟨f, hf, -, hfi⟩ := (hmask i).1 hi
      exact ⟨f, hf, hfi⟩
  · rintro ⟨f, hf, hi⟩
    by_cases hc : f.comesTo m e
    · exact ⟨n, (mem_joinedAt h he).2 (.inr rfl), (hmask i).2 ⟨f, hf, hc, hi⟩⟩
    · exact ⟨f, (mem_joinedAt h he).2 (.inl ⟨hf, hc⟩), hi⟩

include hrun in
theorem joiners_joinedAt {z : Nat} (hz : z ≠ e) : ((s.atJoin m).joinedAt e n).joiners z = (s.atJoin m).joiners z := by
  have hno : (n.kind == .parked .join) = false := by
    rw [hrun]
    rfl
  unfold Group.joiners Group.joinedAt
  dsimp only
  rw [List.filter_append, List.filter_filter, List.filter_cons_of_neg (by rw [hno]; exact Bool.false_ne_true), List.filter_nil, List.append_nil]
  refine congrArg (sortBy _) (List.filter_congr fun y hy => ?_)
  obtain ⟨f, hf, rfl⟩ := List.mem_map.1 hy
  by_cases hc : f.comesTo m e
  · have hentry := (Bool.and_eq_true_iff.1 ((joinParked_comes h he hf).2 hc)).2
    have hne : ((s.joinParked m f).entry == some z) = false := by
      rw [beq_iff_eq.1 hentry]
      exact beq_eq_false_iff_ne.2 fun hez => hz (Option.some.inj hez).symm
    rw [hne, Bool.and_false, Bool.false_and]
  · have hnot := Bool.eq_false_iff.2 (mt (comesTo_ids h he hf).1 hc)
    rw [hnot, Bool.not_false, Bool.and_true]

include hrun hmask in
/-- Once the join is complete, no other entry's join can complete. -/
theorem joinedAt_stuck (hs : Tab.sorted s.mine.split = true) (hothers : ∀ z ∈ s.mine.split, z.1 ≠ e → s.mine.joinable z.1 z.2 = false) :
    ∀ z ∈ ((s.atJoin m).joinedAt e n).split, ((s.atJoin m).joinedAt e n).joinable z.1 z.2 = false := by
  intro z hz
  have hze : z.1 ≠ e := fun hze => by
    have hfound := Tab.get?_of_mem (t := s.mine.split.erase e) (Tab.sorted_erase _ _ hs) hz
    rw [hze, Tab.get?_erase_self] at hfound
    cases hfound
  have hin : z ∈ s.mine.split := Tab.mem_erase hz
  rw [← hothers z hin hze, ← joinable_other h he hze]
  unfold Group.joinable
  rw [joiners_joinedAt h he hrun hze, alive_joinedAt h he hmask]

end

end Sys2Proof.Machine
end

section
/-!
FJOIN in an open split at its clause's boundary: the join, and the rejoin deadlock (spec/06 R119, R122).
-/

namespace Sys2Proof.Machine

open Sys2Proof

section
variable {s : State} {m : Fibre} (h : s.lastWord m) {e : Nat} (he : m.entry = some e) {x : SplitEntry} (hx : s.mine.split.get? e = some x)
  (hs : Tab.sorted s.mine.split = true) (hothers : ∀ z ∈ s.mine.split, z.1 ≠ e → s.mine.joinable z.1 z.2 = false)

/-- The fibre that goes on from the join of the entry `e`: the first of those that have come, with the lanes of all. -/
def State.joinsTo (s : State) (m r : Fibre) (e : Nat) (x : SplitEntry) (n : Fibre) : Prop :=
  n.id = r.id ∧ n.kind = .run ∧ (∀ l, n.mask.getLsbD l = true ↔ ∃ f ∈ s.mine.fibres, f.comesTo m e ∧ f.mask.getLsbD l = true) ∧
    n.at_ = (s.pastJoin m r).at_ ∧ n.loops = (s.pastJoin m r).loops ∧ n.wb = r.wb ∧ n.c = r.c ∧ n.entry = x.outer

include h he hx

/-- The join itself. -/
theorem joinAt_atJoin {w : State} (hg : w.group s.it.group = s.atJoin m) {r : Fibre} (hr : r ∈ s.mine.fibres) (hc : r.comesTo m e)
    (hlow : ∀ f ∈ s.mine.fibres, f.comesTo m e → f.id ≠ r.id → lowLane r.mask < lowLane f.mask) :
    ∃ n o ops engs, s.joinsTo m r e x n ∧
      w.joinAt s.it.group e = { w.setGroup s.it.group ((s.atJoin m).joinedAt e n) with order := o, ops := ops, engs := engs } ∧
      ∀ o ∈ w.ops, o.2.group = s.it.group → (∃ f ∈ s.mine.fibres, f.comesTo m e ∧ f.id ∈ o.2.holders) → ∃ p ∈ ops, p.1 = o.1 ∧ n.id ∈ p.2.holders := by
  obtain ⟨rest, hfirst⟩ := joiners_first h he hr hc hlow
  have hform := State.joinAt_form (s := w) (gid := s.it.group) (e := e) (f := s.joinParked m r) (rest := rest) (by rw [hg]; exact hfirst)
  obtain ⟨hid, hrun, hmask, hat, hloops, hwb, hcb, hentry⟩ := joinFibre_wake (s.joinParked m r) rest x.outer
  obtain ⟨hpast, hpastl⟩ := joinParked_wake h hr
  have houter : ((w.group s.it.group).split.get? e).bind (·.outer) = x.outer := by
    rw [hg]
    exact congrArg (Option.bind · (·.outer)) hx
  dsimp only at hform
  rw [houter, hg] at hform
  obtain ⟨o, ops, engs, hjoin, hops⟩ := hform
  generalize (joinFibre (s.joinParked m r) rest x.outer).wake = n at *
  refine ⟨n, o, ops, engs, ⟨?_, hrun, fun l => ?_, ?_, ?_, ?_, ?_, ?_⟩, hjoin, fun p hp hpg ⟨f, hf, hfc, hfh⟩ => ?_⟩
  · rw [hid, s.joinParked_id]
  · rw [hmask, ← hfirst, lanes_zero]
    constructor
    · rintro ⟨y, hy, hl⟩
      obtain ⟨f, hf, hfc, rfl⟩ := (mem_joiners h he).1 hy
      exact ⟨f, hf, hfc, by rwa [s.joinParked_mask] at hl⟩
    · rintro ⟨f, hf, hfc, hl⟩
      exact ⟨_, (mem_joiners h he).2 ⟨f, hf, hfc, rfl⟩, by rwa [s.joinParked_mask]⟩
  · rw [hat, hpast]
  · rw [hloops, hpastl]
  · rw [hwb, s.joinParked_wb]
  · rw [hcb, s.joinParked_c]
  · exact hentry
  · exact hops p hp hpg ⟨_, (mem_joiners h he).2 ⟨f, hf, hfc, rfl⟩, by rwa [s.joinParked_id]⟩

include hs hothers

/-- The entry's join completes, and it alone. -/
theorem joins_atJoin {w : State} (hg : w.group s.it.group = s.atJoin m)
    (hall : ∀ f ∈ s.mine.fibres, f.mask &&& x.join ≠ 0 → f.comesTo m e) {r : Fibre} (hr : r ∈ s.mine.fibres) (hc : r.comesTo m e)
    (hlow : ∀ f ∈ s.mine.fibres, f.comesTo m e → f.id ≠ r.id → lowLane r.mask < lowLane f.mask) :
    ∃ n o ops engs, s.joinsTo m r e x n ∧
      w.joins 32 s.it.group = { w.setGroup s.it.group ((s.atJoin m).joinedAt e n) with order := o, ops := ops, engs := engs } ∧
      ∀ o ∈ w.ops, o.2.group = s.it.group → (∃ f ∈ s.mine.fibres, f.comesTo m e ∧ f.id ∈ o.2.holders) → ∃ p ∈ ops, p.1 = o.1 ∧ n.id ∈ p.2.holders := by
  obtain ⟨n, o, ops, engs, hn, hjoin, hops⟩ := joinAt_atJoin h he hx hg hr hc hlow
  refine ⟨n, o, ops, engs, hn, ?_, hops⟩
  have hcan : (s.atJoin m).joinable e x = true := (joinable_iff h he x).2 fun l hl hjl ⟨f, hf, hfl⟩ =>
    ⟨f, hf, hall f hf (mask_ne_zero (fun k _ => BitVec.getLsbD_and) ⟨l, hl, by rw [hfl, hjl]; rfl⟩), hfl⟩
  obtain ⟨z, hz⟩ : ∃ z, (s.atJoin m).split.find? (fun z => (s.atJoin m).joinable z.1 z.2) = some z :=
    Option.isSome_iff_exists.1 (List.find?_isSome.2 ⟨(e, x), Tab.mem_of_get? hx, hcan⟩)
  have hze : z.1 = e := by
    by_contra hne
    have hyes := List.find?_some hz
    have hin : z ∈ s.mine.split := List.mem_of_find?_eq_some hz
    rw [joinable_other h he hne, hothers z hin hne] at hyes
    exact Bool.false_ne_true hyes
  have hstep : w.joins 32 s.it.group = (w.joinAt s.it.group e).joins 31 s.it.group := by
    rw [← hze]
    exact State.joins_found (n := 31) (by rw [hg]; exact hz)
  obtain ⟨-, hrun, hmask, -⟩ := hn
  rw [hstep, State.joins_none, hjoin]
  rw [hjoin]
  have hself : State.group { w.setGroup s.it.group ((s.atJoin m).joinedAt e n) with order := o, ops := ops, engs := engs } s.it.group =
      (s.atJoin m).joinedAt e n := State.group_setGroup_self ..
  rw [hself]
  exact joinedAt_stuck h he hrun hmask hs hothers

/-- FJOIN of the last fibre of the split to come. -/
theorem fjoin_joins (hall : ∀ f ∈ s.mine.fibres, f.mask &&& x.join ≠ 0 → f.comesTo m e) {r : Fibre} (hr : r ∈ s.mine.fibres) (hc : r.comesTo m e)
    (hlow : ∀ f ∈ s.mine.fibres, f.comesTo m e → f.id ≠ r.id → lowLane r.mask < lowLane f.mask) :
    ∃ u, onNext (exec .fjoin s) State.advance = .next u ∧ (u.quarter s.cur).issue = none ∧ ∃ n ∈ (u.group s.it.group).fibres,
      s.joinsTo m r e x n ∧ (u.group s.it.group).split.get? e = none ∧
      (∀ y ∈ (u.group s.it.group).fibres, y.id ≠ n.id → ∃ f ∈ s.mine.fibres, ¬f.comesTo m e ∧ y.id = f.id ∧ y.mask = f.mask ∧ y.at_ = f.at_ ∧ y.kind = f.kind) ∧
      ∀ o ∈ s.ops, o.2.group = s.it.group → (∃ f ∈ s.mine.fibres, f.comesTo m e ∧ f.id ∈ o.2.holders) →
        ∃ p ∈ u.ops, p.1 = o.1 ∧ n.id ∈ p.2.holders := by
  obtain ⟨v, w, hnext, hv, hw, hg, hteams, hwops, hcur⟩ := fjoin_boundary h he
  obtain ⟨hrest, hig, hmem, hterm, -⟩ := hv
  have hcv : v.cur = s.cur := (congrArg State.cur hrest :)
  obtain ⟨n, o, ops, engs, hn, hj, hops⟩ := joins_atJoin h he hx hs hothers hg hall hr hc hlow
  have hself : State.group { (w.restarted s.it.group).setGroup s.it.group ((s.atJoin m).joinedAt e n) with order := o, ops := ops, engs := engs }
      s.it.group = (s.atJoin m).joinedAt e n := State.group_setGroup_self ..
  have hbar : State.noBarrier { (w.restarted s.it.group).setGroup s.it.group ((s.atJoin m).joinedAt e n) with order := o, ops := ops, engs := engs }
      s.it.group := by
    have hb := lastWord_noBarrier h hg hteams
    unfold State.noBarrier at hb ⊢
    rw [hg] at hb
    rw [hself]
    exact hb
  obtain ⟨-, hrun, -⟩ := id hn
  obtain ⟨hissue, huops, k, y, hset⟩ := State.boundary_settles hig hmem hterm hw hj ⟨rfl, rfl⟩ (f := n)
    (by rw [hself]; exact (mem_joinedAt h he).2 (.inr rfl)) (by rw [hrun]; nofun) hbar
  rw [hcv] at hissue
  rw [hself] at hset
  have hfree : ((s.atJoin m).joinedAt e n).split.get? e = none := Tab.get?_erase_self ..
  refine ⟨v.boundary, hnext, hissue, ?_⟩
  have hkeep (p : Nat × Op) (hp : p ∈ s.ops) (hpg : p.2.group = s.it.group) (hph : ∃ f ∈ s.mine.fibres, f.comesTo m e ∧ f.id ∈ p.2.holders) :
      ∃ q ∈ v.boundary.ops, q.1 = p.1 ∧ n.id ∈ q.2.holders := by
    rw [huops]
    exact hops p (show p ∈ w.ops by rw [hwops]; exact hp) hpg hph
  have hbeside (z : Fibre) (hz : z ∈ ((s.atJoin m).joinedAt e n).fibres) (hid : z.id ≠ n.id) : z ∈ s.mine.fibres ∧ ¬z.comesTo m e :=
    ((mem_joinedAt h he).1 hz).resolve_right fun hzn => hid (congrArg Fibre.id hzn)
  have hin : n ∈ ((s.atJoin m).joinedAt e n).fibres := (mem_joinedAt h he).2 (.inr rfl)
  rw [hset, Group.settled_split]
  have hsplit := Group.freeSplit_none 31 _ hfree
  unfold Group.settled
  dsimp only
  cases y with
  | true =>
    refine ⟨n, hin, hn, hsplit, fun z hz hid => ?_, hkeep⟩
    obtain ⟨hzm, hzc⟩ := hbeside z hz hid
    exact ⟨z, hzm, hzc, rfl, rfl, rfl, rfl⟩
  | false =>
    refine ⟨n.unyielded, List.mem_map.2 ⟨n, hin, rfl⟩, hn, hsplit, fun z hz hid => ?_, hkeep⟩
    obtain ⟨f, hf, rfl⟩ := List.mem_map.1 hz
    obtain ⟨hfm, hfc⟩ := hbeside f hf hid
    exact ⟨f, hfm, hfc, rfl, rfl, rfl, rfl⟩

end

end Sys2Proof.Machine
end

section
/-!
The rejoin deadlock at FJOIN (spec/06 R122).
-/

namespace Sys2Proof.Machine

open Sys2Proof

theorem lowLane_le (m : Mask) : lowLane m ≤ 32 := by
  unfold lowLane
  cases hl : (lanesOf m).head? with
  | none => exact le_rfl
  | some l =>
    have hmem : l ∈ lanesOf m := List.mem_of_mem_head? hl
    unfold lanesOf at hmem
    exact (List.mem_range.1 (List.mem_filter.1 hmem).1).le

theorem Group.fibre?_modFibre {g : Group} {id : Nat} {f : Fibre} (h : g.fibre? id = some f) {upd : Fibre → Fibre} (hid : (upd f).id = id) :
    (g.modFibre id upd).fibre? id = some (upd f) := by
  unfold Group.fibre? Group.modFibre at *
  dsimp only
  revert h
  induction g.fibres with
  | nil => exact fun h => absurd h nofun
  | cons x fs ih =>
    intro h
    rw [List.map_cons]
    cases hx : x.id == id with
    | true =>
      simp only [List.find?_cons, hx] at h
      simp only [Option.some.inj h, if_true, List.find?_cons, beq_iff_eq.2 hid]
    | false =>
      simp only [List.find?_cons, hx] at h
      simp only [Bool.false_eq_true, if_false, List.find?_cons, hx]
      exact ih h

/-- A trap in every lane of a fibre that holds no trap: the lanes go on at the handler. -/
theorem State.takeTrap_all (s : State) {k : Nat} {p : PendTrap} {r : Resume} {f : Fibre} (hf : (s.group k).fibre? p.fibre = some f)
    (ht : f.trap = none) (hm : f.mask ≠ 0) (hv : tvecAddr (s.group k).tvec ≠ 0) : ∃ g ops engs n y,
      s.takeTrap k p f.mask r = { s.setGroup k g with ops := ops, engs := engs } ∧ g.team = (s.group k).team ∧ n ∈ g.fibres ∧ n.trap = some y ∧
        y.cause = p.cause ∧ y.tsyn = p.tsyn ∧ n.mask = f.mask ∧ n.at_ = { pc := tvecAddr (s.group k).tvec } ∧ y.retResume = r ∧
        y.retLoops = f.loops ∧ y.retEntry = f.entry := by
  have hand : f.mask &&& f.mask = f.mask := BitVec.and_self
  have hno : ¬(f.trap.isSome || tvecAddr (s.group k).tvec == 0) = true := by
    rw [ht]
    simpa using hv
  unfold State.takeTrap
  dsimp only
  rw [hf]
  dsimp only
  rw [hand, if_neg hm, if_neg hno]
  exact ⟨_, _, _, _, _, rfl, rfl, List.mem_append_right _ (List.mem_singleton_self _), rfl, rfl, rfl, rfl, rfl, rfl, rfl, rfl⟩

/-- Every fibre of the group waits at an FJOIN: the one with the lowest lane takes the trap. -/
theorem State.rejoinTrap_takes {s : State} {gid : Nat} (hall : ∀ f ∈ (s.group gid).fibres, f.kind = .parked .join) {r : Fibre} {rest : List Fibre}
    (hfirst : sortBy (fun f => lowLane f.mask) (s.group gid).fibres = r :: rest) (hr : (s.group gid).fibre? r.id = some r)
    (ht : r.trap = none) (hm : r.mask ≠ 0) (hv : tvecAddr (s.group gid).tvec ≠ 0) : ∃ g ops engs n y,
      s.rejoinTrap gid = ({ s with ops := ops, engs := engs } : State).setGroup gid g ∧ g.team = (s.group gid).team ∧ n ∈ g.fibres ∧ n.trap = some y ∧
        y.cause = 12 ∧ y.tsyn = BitVec.ofNat 64 (r.entry.getD 31) ∧ n.mask = r.mask ∧ n.at_ = { pc := tvecAddr (s.group gid).tvec } ∧
        y.retResume = { pc := r.wake.at_.pc } ∧ y.retLoops = r.wake.loops ∧ y.retEntry = r.entry := by
  have hwoken : (s.modFibre gid r.id Fibre.wake).group gid = (s.group gid).modFibre r.id Fibre.wake := State.group_setGroup_self ..
  obtain ⟨g, ops, engs, n, y, htake, hteam, hrest⟩ := (s.modFibre gid r.id Fibre.wake).takeTrap_all (k := gid)
    (p := { fibre := r.id, lanes := r.mask, cause := 12, tsyn := BitVec.ofNat 64 (r.entry.getD 31), tpc := r.parkedAt,
            resume := .clause r.wake.at_.pc, word := 0 }) (r := { pc := r.wake.at_.pc }) (f := r.wake)
    (by rw [hwoken]; exact Group.fibre?_modFibre hr rfl) ht hm (by rw [hwoken]; exact hv)
  rw [hwoken] at hteam hrest
  refine ⟨g, ops, engs, n, y, ?_, hteam, hrest⟩
  unfold State.rejoinTrap
  dsimp only
  rw [if_pos (List.all_eq_true.2 fun f hf => beq_iff_eq.2 (hall f hf)), hfirst]
  refine htake.trans ?_
  exact State.setGroup_setGroup ({ s with ops := ops, engs := engs } : State) gid _ g

section
variable {v w : State} {id gid : Nat} {t : Term} (hgid : v.it.group = gid) (hmem : v.it.members = [id]) (hterm : v.it.term = [(id, t)])
  (hw : v.applyTerm v.it id t = w) (hj : (w.restarted gid).joins 32 gid = w.restarted gid) (hb : (w.restarted gid).noBarrier gid)
include hgid hmem hterm hw hj hb

/-- The boundary at which every fibre of the group waits at an FJOIN and no join completes. -/
theorem State.boundary_deadlocks (hall : ∀ f ∈ ((w.restarted gid).group gid).fibres, f.kind = .parked .join) {r : Fibre} {rest : List Fibre}
    (hfirst : sortBy (fun f => lowLane f.mask) ((w.restarted gid).group gid).fibres = r :: rest)
    (hr : ((w.restarted gid).group gid).fibre? r.id = some r) (ht : r.trap = none) (hm : r.mask ≠ 0)
    (hv : tvecAddr ((w.restarted gid).group gid).tvec ≠ 0) :
    (v.boundary.quarter v.cur).issue = none ∧ ∃ n ∈ (v.boundary.group gid).fibres, ∃ y, n.trap = some y ∧ y.cause = 12 ∧
      y.tsyn = BitVec.ofNat 64 (r.entry.getD 31) ∧ n.mask = r.mask ∧ n.at_ = { pc := tvecAddr ((w.restarted gid).group gid).tvec } ∧
      y.retResume = { pc := r.wake.at_.pc } ∧ y.retLoops = r.wake.loops ∧ y.retEntry = r.entry := by
  have hcur : w.cur = v.cur := hw ▸ State.applyTerm_cur ..
  have hissue : ((w.restarted gid).quarter v.cur).issue = none := by
    rw [← hcur]
    exact congrArg Quarter.issue (State.quarter_setQuarter_self ..)
  have hbound := State.boundary_one hmem hterm hw
  rw [hgid] at hbound
  have hrc : (w.restarted gid).cur = v.cur := hcur
  generalize w.restarted gid = a at *
  have hform := Group.freeSplit_form 31 (a.group gid)
  generalize hx : Group.freeSplit 31 (a.group gid) = x at hform
  have hself : (a.setGroup gid x).group gid = x := State.group_setGroup_self ..
  have hfib : x.fibres = (a.group gid).fibres := by rw [hform]
  have hteam : x.team = (a.group gid).team := by rw [hform]
  have htvec : x.tvec = (a.group gid).tvec := by rw [hform]
  have hend : (a.setGroup gid x).endCheck gid = a.setGroup gid x := by
    unfold State.endCheck
    dsimp only
    rw [hself, hfib]
    refine if_neg fun he => ?_
    rw [List.isEmpty_iff.1 he] at hfirst
    exact absurd hfirst nofun
  obtain ⟨g, ops, engs, n, y, htrap, hgteam, hn, hrest⟩ := State.rejoinTrap_takes (s := a.setGroup gid x) (gid := gid)
    (by rw [hself, hfib]; exact hall) (by rw [hself, hfib]; exact hfirst) (by unfold Group.fibre? at hr ⊢; rw [hself, hfib]; exact hr) ht hm
    (by rw [hself, htvec]; exact hv)
  rw [hself, htvec] at hrest
  rw [hself, hteam] at hgteam
  let b : State := { a.setGroup gid x with ops := ops, engs := engs }
  have hbar : (b.setGroup gid g).noBarrier gid := by
    obtain ⟨hteams, hgrids⟩ := hb
    refine ⟨?_, hgrids⟩
    rw [State.group_setGroup_self, hgteam]
    exact hteams
  obtain ⟨k, hk⟩ := State.noteParked_form b gid g
  have hsettle : a.settleGroup gid = b.setGroup gid { g with parked := k } := by
    unfold State.settleGroup
    dsimp only
    rw [hj, hx, hend, htrap, State.noBarrier_arrives hbar, State.noBarrier_grid hbar]
    exact hk
  have hlast : (b.setGroup gid { g with parked := k }).group gid = { g with parked := k } := State.group_setGroup_self ..
  rw [hbound]
  dsimp only
  rw [hsettle]
  split
  · rw [hlast]
    exact ⟨hissue, n, hn, y, hrest⟩
  · refine ⟨hissue, ?_⟩
    rw [State.pastYield_group, hlast]
    split
    · exact ⟨n.unyielded, List.mem_map.2 ⟨n, hn, rfl⟩, y, hrest⟩
    · exact ⟨n, hn, y, hrest⟩

end

section
variable {s : State} {m : Fibre} (h : s.lastWord m) {e : Nat} (he : m.entry = some e)
include h he

/-- FJOIN that completes no join, with every fibre of the group at an FJOIN. -/
theorem fjoin_deadlocks (hstuck : ∀ z ∈ (s.atJoin m).split, (s.atJoin m).joinable z.1 z.2 = false)
    (hall : ∀ f ∈ s.mine.fibres, f.id ≠ m.id → f.kind = .parked .join) {r : Fibre} (hr : r ∈ s.mine.fibres)
    (hlow : ∀ f ∈ s.mine.fibres, f.id ≠ r.id → lowLane r.mask < lowLane f.mask) (ht : r.trap = none) (hv : tvecAddr s.mine.tvec ≠ 0) :
    ∃ u, onNext (exec .fjoin s) State.advance = .next u ∧ (u.quarter s.cur).issue = none ∧ ∃ n ∈ (u.group s.it.group).fibres, ∃ y,
      n.trap = some y ∧ y.cause = 12 ∧ y.tsyn = BitVec.ofNat 64 (r.entry.getD 31) ∧ n.mask = r.mask ∧ n.at_ = { pc := tvecAddr s.mine.tvec } ∧
      y.retResume = { pc := (s.pastJoin m r).at_.pc } ∧ y.retLoops = (s.pastJoin m r).loops ∧ y.retEntry = r.entry := by
  obtain ⟨v, w, hnext, hv', hw, hg, hteams, -, -⟩ := fjoin_boundary h he
  obtain ⟨hm, hnodup, -, hmask⟩ := lastWord_fibres h
  obtain ⟨hrest, hig, hmem, hterm, -⟩ := hv'
  have hcv : v.cur = s.cur := (congrArg State.cur hrest :)
  have hj : (w.restarted s.it.group).joins 32 s.it.group = w.restarted s.it.group := State.joins_none (by rw [hg]; exact hstuck) 32
  have hparked : ∀ y ∈ (s.atJoin m).fibres, y.kind = .parked .join := by
    intro y hy
    obtain ⟨f, hf, rfl⟩ := List.mem_map.1 hy
    by_cases hid : f.id = m.id
    · rw [State.joinParked_same hid]
    · rw [State.joinParked_other hid]
      exact hall f hf hid
  have hin : s.joinParked m r ∈ (s.atJoin m).fibres := List.mem_map.2 ⟨r, hr, rfl⟩
  obtain ⟨rest, hfirst⟩ := sortBy_first (key := fun f => lowLane f.mask) hin fun y hy hne => by
    obtain ⟨f, hf, rfl⟩ := List.mem_map.1 hy
    rw [s.joinParked_mask, s.joinParked_mask]
    exact hlow f hf fun hid => hne (by rw [fibre_unique hnodup hf hr hid])
  have hfound : (s.atJoin m).fibre? (s.joinParked m r).id = some (s.joinParked m r) := by
    have hids := joinParked_ids h
    obtain ⟨y, hy⟩ := Option.isSome_iff_exists.1 (((s.atJoin m).fibre?_isSome _).2 (List.mem_map_of_mem hin))
    have hy' : (s.atJoin m).fibres.find? (fun f => f.id == (s.joinParked m r).id) = some y := hy
    have hyid := List.find?_some hy'
    rw [hy, fibre_unique hids (List.mem_of_find?_eq_some hy') hin (beq_iff_eq.1 hyid)]
  have hrm : r.mask ≠ 0 := by
    by_cases hid : m.id = r.id
    · rw [← fibre_unique hnodup hm hr hid]
      exact hmask
    · exact lowest_lt (Nat.lt_of_lt_of_le (hlow m hm hid) (lowLane_le m.mask))
  obtain ⟨hissue, n, hn, y, hy, hcause, hsyn, hnm, hna, hres, hloops, hentry⟩ := State.boundary_deadlocks hig hmem hterm hw hj (lastWord_noBarrier h hg hteams)
    (by rw [hg]; exact hparked) (by rw [hg]; exact hfirst) (by rw [hg]; exact hfound) ((s.joinParked_trap m r).trans ht)
    (by rw [s.joinParked_mask]; exact hrm) (by rw [hg]; exact hv)
  obtain ⟨hpast, hpastl⟩ := joinParked_wake h hr
  rw [hcv] at hissue
  rw [s.joinParked_entry] at hsyn hentry
  rw [hpast] at hres
  exact ⟨v.boundary, hnext, hissue, n, hn, y, hy, hcause, hsyn, hnm.trans (s.joinParked_mask m r), hna.trans (by rw [hg]; rfl), hres,
    hloops.trans hpastl, hentry⟩

end

end Sys2Proof.Machine
end

section
/-!
LOOP, LBRK and the statement of the clause's end.
-/

namespace Sys2Proof.Machine

open Sys2Proof

theorem loop_transfers {s : State} {m : Fibre} (h : s.solo m) {lc : LcReg} {cnt : LoopCount} {len : BitVec 8} (hk : lc.val = m.loops.levels) (h3 : m.loops.levels < 3)
    (hstop : m.loops.levels ≠ 0 → s.it.sequential + BitVec.ofNat 64 (4 * (len.toNat + 1)) ≤ m.loops.stop.getD (m.loops.levels - 1) 0) :
    (loopCount s.regs cnt = 0 → ∃ u, onNext (execLoop lc cnt len s) State.advance = .next u ∧ (u.quarter s.cur).issue = none ∧
      s.standsAt m (u.group s.it.group) (s.it.sequential + BitVec.ofNat 64 (4 * (len.toNat + 1))) m.loops) ∧
    (loopCount s.regs cnt ≠ 0 → ∃ u, onNext (execLoop lc cnt len s) State.advance = .next u ∧ (u.quarter s.cur).issue = none ∧
      s.standsAt m (u.group s.it.group) s.it.sequential
        (openLevel m.loops (loopCount s.regs cnt) s.it.sequential (s.it.sequential + BitVec.ofNat 64 (4 * (len.toNat + 1))))) := by
  have hopen : ¬(lc.val ≠ m.loops.levels ∨ (m.loops.levels ≠ 0 ∧ (m.loops.stop.getD (m.loops.levels - 1) 0).toNat <
      (s.it.sequential + BitVec.ofNat 64 (4 * (len.toNat + 1))).toNat)) := by
    rintro (hne | ⟨hk0, hlt⟩)
    · exact hne hk
    · exact Nat.not_le.2 hlt (hstop hk0)
  unfold execLoop
  refine ⟨fun hn => solo_transfers h ?_, fun hn => solo_loops h ?_⟩
  · dsimp only
    rw [if_neg (Nat.not_le.2 h3), if_neg hopen, if_pos hn]
  · dsimp only
    rw [if_neg (Nat.not_le.2 h3), if_neg hopen, if_neg hn]

theorem lbrk_transfers {s : State} {m : Fibre} (h : s.solo m) (lc : LcReg) (c : Option CReg) :
    let breaks : Prop := lc.val < m.loops.levels ∧ ∀ b, c = some b → m.c.getLsbD b.val = true
    (breaks → ∃ u, onNext (execLbrk lc c s) State.advance = .next u ∧ (u.quarter s.cur).issue = none ∧
      s.standsAt m (u.group s.it.group) (m.loops.stop.getD lc.val 0) { m.loops with levels := lc.val }) ∧
    (¬breaks → ∃ u, onNext (execLbrk lc c s) State.advance = .next u ∧ (u.quarter s.cur).issue = none ∧
      s.standsAt m (u.group s.it.group) (m.fall s.it.sequential).at_.pc (m.fall s.it.sequential).loops) := by
  intro breaks
  have hcond : (m.loops.levels ≤ lc.val ∨ c.elim false (fun c => !m.c.getLsbD c.val) = true) ↔ ¬breaks := by
    unfold breaks
    rw [not_and_or, Nat.not_lt]
    cases c <;> simp
  unfold execLbrk
  refine ⟨fun hb => solo_loops h ?_, fun hb => solo_falls h ?_⟩
  · exact if_neg fun hno => hcond.1 hno hb
  · exact if_pos (hcond.2 hb)

/-- Settles O22: the boundary of the clause takes what the terminal word noted, and completes, parks or traps what waits at FJOIN. -/
theorem clauseEndTransfers : Obligations.ClauseEndTransfers := by
  unfold Obligations.ClauseEndTransfers
  refine ⟨fun s m e x h he hx hs hothers => ?_, fun s m h => ?_⟩
  · intro seq others waits part woken absent first ends
    have hother {f : Fibre} : f ∈ others ↔ f ∈ s.mine.fibres ∧ f.id ≠ m.id := by
      unfold others
      rw [List.mem_filter, bne_iff_ne]
    have hstuck (ha : absent) : ∀ z ∈ (s.atJoin m).split, (s.atJoin m).joinable z.1 z.2 = false := by
      obtain ⟨l, hl, hjl, ⟨f, hf, hfl⟩, haway⟩ := ha
      exact atJoin_stuck h he hothers hx hs hl hjl ⟨f, (hother.1 hf).1, hfl⟩ haway
    refine ⟨fun r hall ⟨hr, hc, hlow⟩ => ?_, fun ha ⟨f, hf, hrun⟩ => ?_, fun r ha hall ⟨hr, _, hlow⟩ ht hv => ?_⟩
    · have hcome : ∀ f ∈ s.mine.fibres, f.mask &&& x.join ≠ 0 → f.comesTo m e := fun f hf hfx =>
        or_iff_not_imp_left.2 fun hid => hall f (hother.2 ⟨hf, hid⟩) hfx
      obtain ⟨u, hu, hissue, n, hn, ⟨-, hrun, hmask, hat, hloops, hwb, hcb, hentry⟩, hsplit, hbeside, hops⟩ :=
        fjoin_joins h he hx hs hothers hcome hr hc hlow
      refine ⟨u, hu, hissue, n, hn, hrun, fun l _ => hmask l, hat, hloops, hwb, hcb, hentry, hsplit, fun y hy hid => ?_, hops⟩
      obtain ⟨f, hf, hfc, hrest⟩ := hbeside y hy hid
      exact ⟨f, hother.2 ⟨hf, fun hfm => hfc (.inl hfm)⟩, fun hw => hfc (.inr hw), hrest⟩
    · exact fjoin_parks h he (hstuck ha) (hother.1 hf).1 (hother.1 hf).2 hrun
    · obtain ⟨u, hu, hissue, n, hn, y, hy, hcause, hsyn, hrest⟩ := fjoin_deadlocks h he (hstuck ha) (fun f hf hid => hall f (hother.2 ⟨hf, hid⟩)) hr
        (fun f hf hid => hlow f hf trivial hid) ht hv
      refine ⟨u, hu, hissue, n, hn, y, hy, hcause, fun k hk => ?_, hrest⟩
      rw [hsyn, hk]
      rfl
  · intro target seq stands goes falls
    have hrun := solo_run h
    have hnext {i : Instr} {f : Fibre → Group → State → MRes × Option Term} (hi : exec i s = terminalWord s f)
        (hf : f m s.regs s = ({ st := s }, some .next)) : falls i := by
      obtain ⟨u, hu, hend⟩ := solo_falls h hf
      exact ⟨u, hi ▸ hu, hend⟩
    have hgoto {i : Instr} {f : Fibre → Group → State → MRes × Option Term} {pc : Word} (hi : exec i s = terminalWord s f)
        (hf : f m s.regs s = ({ st := s }, some (.goto pc))) : goes i pc := by
      obtain ⟨u, hu, hend⟩ := solo_transfers h hf
      exact ⟨u, hi ▸ hu, hend⟩
    let noted (x : Option Word) : MRes × Option Term := ({ st := s }, some (x.elim .next .goto))
    refine ⟨fun off => ⟨hgoto rfl rfl, fun c n => ⟨fun hn => hgoto rfl ?_, fun hn => hnext rfl ?_⟩⟩, fun l off => ?_, fun a ha => ⟨hgoto rfl ?_, hgoto rfl ?_⟩,
      fun he => hnext rfl ?_, ?_, fun hq => ?_, ?_, ?_, ?_, ?_, fun x hx => ?_, ?_⟩
    · exact congrArg noted (if_pos (bne_iff_ne.2 hn))
    · exact congrArg noted (if_neg fun hne => bne_iff_ne.1 hne hn)
    · obtain ⟨u, hu, hissue, hstands, hs⟩ := solo_calls (ws := [.s (56 + l.val) s.it.sequential]) h (f := fun _ _ st =>
        ({ st := st, writes := [.s (56 + l.val) s.it.sequential] }, some (.goto (s.it.target off)))) rfl (State.termGroup_one h) rfl rfl hrun rfl rfl
      refine ⟨u, hu, hissue, hstands, fun k _ => ?_⟩
      unfold Group.sreg
      rw [hs]
      exact Tab.getD_put ..
    · exact if_pos ha
    · exact if_pos ha
    · exact congrArg (fun t => (({ st := s } : MRes), some t)) (if_neg (by rw [he]; exact Bool.false_ne_true))
    · exact solo_yields h rfl
    · exact solo_yielded h rfl hq
    · intro lc cnt len k stop n hk h3 hstop
      obtain ⟨hzero, hmore⟩ := loop_transfers (cnt := cnt) h hk h3 hstop
      cases cnt <;> exact ⟨hzero, hmore⟩
    · intro lc c breaks
      exact lbrk_transfers h lc c
    · exact solo_ends h rfl (.inl rfl)
    · exact solo_ends h rfl (.inr rfl)
    · exact solo_returns h (if_pos (by rw [hx]; rfl)) hx
    · intro p n off takes stays
      have hlanes := splitLanes_bits (s.regs.p.getD p.val 0) m.mask n
      have hone := splitLanes_or (s.regs.p.getD p.val 0) m.mask n
      have hstays : ∀ l < 32, _ := fun l hl => (hlanes l hl).2
      have htakes : ∀ l < 32, _ := fun l hl => (hlanes l hl).1
      have hends {P : Group → Prop} (hP : ∃ u, onNext (terminalWord s (fsplitNote p n off s)) State.advance = .next u ∧
          (u.quarter s.cur).issue = none ∧ P (u.group s.it.group)) : ClauseEnds (.fsplit p n off) s P := by
        obtain ⟨u, hu, hend⟩ := hP
        exact ⟨u, (congrArg (onNext · State.advance) (execFsplit_eq p n off s)).trans hu, hend⟩
      refine ⟨fun hno => hends (solo_splits_none h rfl ((mask_eq_zero hstays).2 hno)), fun hsome hno =>
        hends (solo_splits_all h rfl (mask_ne_zero hstays hsome) ((mask_eq_zero htakes).2 hno)), fun hsome hmore hfree => ?_⟩
      obtain ⟨u, hu, hissue, x, y, e, hfib, hfr, hsplit, hxa, hxl, hya, hyl, hxe, hye, hxm, hym, hid⟩ :=
        solo_splits h (f := fsplitNote p n off s) rfl (mask_ne_zero hstays hmore) (mask_ne_zero htakes hsome) hfree
      refine hends ⟨u, hu, hissue, x, y, e, hfib, hfr, hsplit, hxa, hxl, hya, hyl, hxe, hye, ?_, hid, fun l hl => ?_⟩
      · rw [hxm, hym]
        exact hone
      · rw [hxm, hym]
        exact hlanes l hl

end Sys2Proof.Machine
end

section

/-! The statement about the form of memory, O60 (spec/07 R134, R141, R146; log 2). `State.formed` is the form; per operation of the
model a lemma `State.formed.<operation>` says that it keeps it, in the order of the model's files, so that the proof for an
operation reads as the chain of the operations it is made of. `State.formed.update` serves where a memory changes (`putBytes`,
`writeZ`, `keyUnit`, the renumbering of devices, resets); elsewhere `State.formed.frame` says that all three stand as they were. -/

namespace Sys2Proof.Machine
open Sys2Proof

/-! ### The form of memory, and what keeps it -/

/-- Frame space, host memory and the staging window of a state are in their canonical forms (spec/07 R146; log 2). -/
def State.formed (s : State) : Prop := memoryForm s = true

/-- Frame space, host memory and the staging window of a state. -/
def State.memories (s : State) : FrameMem × Memory × Memory := (s.mem, s.hostMem, s.rcv.staging)

/-- A next state that the outcome answers is formed. -/
def Res.formed (r : Res) : Prop := ∀ t, r = .next t → t.formed

/-- What a run of a word leaves is formed. -/
def MRes.formed (r : MRes) : Prop := r.st.formed

section
variable {s t : State}

theorem State.formed_iff : s.formed ↔ s.mem.wf = true ∧ s.hostMem.wf = true ∧ s.rcv.staging.wf = true := by
  simp [State.formed, memoryForm, and_assoc]

theorem State.memories_eq (e : t.memories = s.memories) :
    t.mem = s.mem ∧ t.hostMem = s.hostMem ∧ t.rcv.staging = s.rcv.staging := by
  simpa [State.memories] using e

/-- Each of the three memories keeps its form. -/
theorem State.formed.update (h : s.formed) (hm : s.mem.wf = true → t.mem.wf = true)
    (hh : s.hostMem.wf = true → t.hostMem.wf = true) (hr : s.rcv.staging.wf = true → t.rcv.staging.wf = true) : t.formed := by
  rw [State.formed_iff] at h ⊢
  exact ⟨hm h.1, hh h.2.1, hr h.2.2⟩

/-- Other fields alone have changed. -/
theorem State.formed.frame (h : s.formed) (e : t.memories = s.memories) : t.formed := by
  obtain ⟨hm, hh, hr⟩ := State.memories_eq e
  exact h.update (fun k => hm ▸ k) (fun k => hh ▸ k) (fun k => hr ▸ k)

theorem State.formed.ite {c : Prop} [Decidable c] (h : s.formed) (k : t.formed) : (if c then s else t).formed := by
  split
  · exact h
  · exact k

theorem State.formed.foldl {α : Type} {f : State → α → State} {l : List α} (h : s.formed)
    (hf : ∀ {s : State} (x : α), s.formed → (f s x).formed) : (l.foldl f s).formed :=
  foldl_keeps State.formed f (fun _ x => hf x) l h

/-- A fold that takes a state along with a value. -/
theorem State.formed.foldl_fst {α β : Type} {f : State × β → α → State × β} {l : List α} {b : β} (h : s.formed)
    (hf : ∀ {r : State × β} (x : α), r.1.formed → (f r x).1.formed) : (l.foldl f (s, b)).1.formed :=
  foldl_keeps (fun r : State × β => r.1.formed) f (fun _ x => hf x) l h

theorem State.formed.elim {α : Type} {o : Option α} {f : α → State} (h : s.formed) (hf : ∀ x, (f x).formed) :
    (o.elim s f).formed := by
  cases o with
  | none => exact h
  | some x => exact hf x

theorem State.formed.getD {o : Option State} (h : s.formed) (ho : ∀ t, o = some t → t.formed) : (o.getD s).formed := by
  cases o with
  | none => exact h
  | some x => exact ho x rfl

/-- A change that may come to nothing. -/
theorem State.formed.bind {o : Option State} {f : State → Option State} (ho : ∀ t, o = some t → t.formed)
    (hf : ∀ s t : State, s.formed → f s = some t → t.formed) (e : o.bind f = some t) : t.formed := by
  obtain ⟨u, hu, ht⟩ := Option.bind_eq_some_iff.1 e
  exact hf u t (ho u hu) ht

/-- A fold of changes each of which may come to nothing. -/
theorem State.formed.foldl_bind {α : Type} {f : State → α → Option State} {l : List α} (h : s.formed)
    (hf : ∀ (s t : State) (x : α), s.formed → f s x = some t → t.formed)
    (e : l.foldl (fun o x => o.bind fun s => f s x) (some s) = some t) : t.formed := by
  refine foldl_keeps (fun o : Option State => ∀ t, o = some t → t.formed) _ (fun o x ho t ht => ?_) l ?_ t e
  · exact .bind ho (fun s t => hf s t x) ht
  · rintro t ⟨⟩
    exact h

theorem State.formed.findSome {α : Type} {f : α → Option State} {l : List α} (hf : ∀ x t, f x = some t → t.formed)
    (e : l.findSome? f = some t) : t.formed := by
  obtain ⟨x, -, hx⟩ := List.exists_of_findSome?_eq_some e
  exact hf x t hx

end

theorem Res.formed.next {s : State} (h : s.formed) : Res.formed (.next s) := by
  rintro t ⟨⟩
  exact h

theorem Res.formed.fault {e : Fault} : Res.formed (.fault e) := by
  rintro t ⟨⟩

theorem Res.formed.refused {e : Refusal} : Res.formed (.refused e) := by
  rintro t ⟨⟩

theorem Res.formed.ite {c : Prop} [Decidable c] {r q : Res} (h : Res.formed r) (k : Res.formed q) : Res.formed (if c then r else q) := by
  split
  · exact h
  · exact k

theorem MRes.formed.ite {c : Prop} [Decidable c] {r q : MRes} (h : r.formed) (k : q.formed) : MRes.formed (if c then r else q) := by
  split
  · exact h
  · exact k

/-- A read that ends in the traps of a word, or in bytes or values with the state that it leaves: this state is formed in either case. -/
def Read.formed {α : Type} (r : Except MRes (State × α)) : Prop := (∀ q, r = .error q → q.formed) ∧ ∀ x, r = .ok x → x.1.formed

theorem Read.formed.error {α : Type} {q : MRes} (h : q.formed) : Read.formed (α := α) (.error q) := by
  constructor
  · rintro _ ⟨⟩
    exact h
  · rintro _ ⟨⟩

theorem Read.formed.ok {α : Type} {x : State × α} (h : x.1.formed) : Read.formed (.ok x) := by
  constructor
  · rintro _ ⟨⟩
  · rintro _ ⟨⟩
    exact h

theorem Read.formed.of_error {α : Type} {r : Except MRes (State × α)} {q : MRes} (h : Read.formed r) (e : r = .error q) : q.formed :=
  h.1 q e

theorem Read.formed.of_ok {α : Type} {r : Except MRes (State × α)} {s : State} {x : α} (h : Read.formed r) (e : r = .ok (s, x)) :
    s.formed :=
  h.2 (s, x) e

section
variable {s t : State}

/-! ### Sys2Proof/Machine/Mem -/

theorem State.formed.setFn {f x} (h : s.formed) : (s.setFn f x).formed := h.frame (by rfl)

theorem State.formed.setSlot {g x} (h : s.formed) : (s.setSlot g x).formed := h.frame (by rfl)

theorem State.formed.setKey {g x} (h : s.formed) : (s.setKey g x).formed := h.frame (by rfl)

theorem State.formed.setCore {c x} (h : s.formed) : (s.setCore c x).formed := h.frame (by rfl)

theorem State.formed.setDie {d x} (h : s.formed) : (s.setDie d x).formed := h.frame (by rfl)

theorem State.formed.setLink {l x} (h : s.formed) : (s.setLink l x).formed := h.frame (by rfl)

theorem State.formed.setTeam {t x} (h : s.formed) : (s.setTeam t x).formed := h.frame (by rfl)

theorem State.formed.setGroup {g x} (h : s.formed) : (s.setGroup g x).formed := h.frame (by rfl)

theorem State.formed.setQuarter {q x} (h : s.formed) : (s.setQuarter q x).formed := h.frame (by rfl)

theorem State.formed.bump (h : s.formed) : s.bump.formed := h.frame (by rfl)

theorem State.formed.modTele {k f} (h : s.formed) : (s.modTele k f).formed := h.setKey

theorem State.formed.send {o} (h : s.formed) : (s.send o).formed := h.frame (by rfl)

theorem State.formed.sendRequest {k dom r} (h : s.formed) : (s.sendRequest k dom r).formed := h.send

theorem State.formed.keyUnit {k dom} (h : s.formed) : (s.keyUnit k dom).formed :=
  h.update (s.keyUnit_wf k dom) id id

theorem State.formed.writePart {k dom bs} (h : s.formed) : (s.writePart k dom bs).formed :=
  h.ite (h.keyUnit.update (putBytes_wf _ _ _) id id)

theorem State.formed.writeUnit {k dom bs} (h : s.formed) : (s.writeUnit k dom bs).formed :=
  State.formed.update (State.formed.keyUnit (h.frame (by rfl))) (putBytes_wf _ _ _) id id

theorem State.formed.poisonUnit {dom} (h : s.formed) : (s.poisonUnit dom).formed := (h.frame (by rfl)).ite h.send

theorem State.formed.writeFrame {k n dom bs} (h : s.formed) : (s.writeFrame k n dom bs).formed := by
  induction n generalizing s dom bs with
  | zero => exact h
  | succ n ih => exact h.ite (ih (h.writeUnit.ite h.writePart))

theorem State.formed.writeRange {k dom bs} (h : s.formed) : (s.writeRange k dom bs).formed := h.writeFrame.ite h.sendRequest

theorem State.formed.serve {fn g va x4} (h : s.formed) : (s.serve fn g va x4).1.formed := by
  unfold State.serve
  dsimp only
  split
  · split
    · exact h
    · exact h.frame (by rfl)
  · split
    · exact h
    · exact h.frame (by rfl)
  · exact h

theorem State.formed.writeLoc {l bs} (h : s.formed) : (s.writeLoc l bs).formed := by
  unfold State.writeLoc
  dsimp only
  split
  · exact h.writeRange
  · exact h.setTeam
  · exact h.setDie
  · exact h.setGroup

theorem State.formed.poisonLoc {l} (h : s.formed) : (s.poisonLoc l).formed := by
  unfold State.poisonLoc
  dsimp only
  split
  · exact h.poisonUnit
  · exact h.setTeam
  · exact h.setDie
  · exact h.setGroup

theorem State.formed.lock {core e} (h : s.formed) : (s.lock core e).formed := h.ite h.setCore

theorem State.formed.unstall (h : s.formed) : s.unstall.formed := h.frame (by rfl)

theorem State.formed.unlock {op} (h : s.formed) : (s.unlock op).formed := (h.frame (by rfl)).unstall

/-! ### Sys2Proof/Machine/Order -/

theorem State.formed.learn {p xs} (h : s.formed) : (s.learn p xs).formed := h.ite (h.frame (by rfl))

theorem State.formed.forget {p} (h : s.formed) : (s.forget p).formed := h.frame (by rfl)

theorem State.formed.inform {g m xs} (h : s.formed) : (s.inform g m xs).formed := h.foldl fun _ h => h.learn

theorem State.formed.setMarks {l n ms carry} (h : s.formed) : (s.setMarks l n ms carry).formed := h.ite (h.frame (by rfl))

theorem State.formed.copyMarks {core l n} (h : s.formed) : (s.copyMarks core l n).formed := h.ite (h.frame (by rfl))

theorem State.formed.readMarks {p sync ms} (h : s.formed) : (s.readMarks p sync ms).formed :=
  h.ite ((h.frame (by rfl)).inform.ite (h.frame (by rfl)))

theorem State.formed.writeMarks {p sync atomic l n} (h : s.formed) : (s.writeMarks p sync atomic l n).formed := h.setMarks.copyMarks

theorem State.formed.fenceMarks {p scope ord} (h : s.formed) : (s.fenceMarks p scope ord).formed :=
  (h.inform.ite h).ite ((h.inform.ite h).frame (by rfl))

/-! ### Sys2Proof/Machine/Cache -/

theorem State.formed.cacheLeaf {core fn g va} (h : s.formed) : (s.cacheLeaf core fn g va).formed := by
  unfold State.cacheLeaf
  dsimp only
  split
  · split
    · exact h.frame (by rfl)
    · exact h
  · exact h

theorem State.formed.dropLeaves {p} (h : s.formed) : (s.dropLeaves p).formed := h.frame (by rfl)

theorem State.formed.touchUnit {k u dirty} (h : s.formed) : (s.touchUnit k u dirty).formed :=
  (h.frame (by rfl)).ite ((h.frame (by rfl)).ite (h.frame (by rfl)))

theorem State.formed.readUnit {k u} (h : s.formed) : (s.readUnit k u).formed := h.touchUnit.frame (by rfl)

theorem State.formed.touchRange {k dom n dirty} (h : s.formed) : (s.touchRange k dom n dirty).formed := h.foldl fun _ h => h.touchUnit

theorem State.formed.loseStruck {us} (h : s.formed) : (s.loseStruck us).formed := h.frame (by rfl)

theorem State.formed.evictLine {line} (h : s.formed) : (s.evictLine line).formed := by
  unfold State.evictLine
  dsimp only
  split
  · exact h
  · split
    · exact (h.frame (by rfl)).foldl fun _ h => h.touchUnit
    · exact (h.frame (by rfl)).loseStruck

theorem State.formed.evictOther {k line} (h : s.formed) : (s.evictOther k line).formed := h.evictLine.ite h

theorem State.formed.dirJoin {fetch d k dom} (h : s.formed) (hf : ∀ {s0 : State} x1, s0.formed → (fetch s0 x1).formed) :
    (s.dirJoin fetch d k dom).formed := by
  unfold State.dirJoin
  dsimp only
  split
  · split
    · exact h.evictOther
    · exact h.evictOther.frame (by rfl)
  · exact (h.evictOther.foldl hf).frame (by rfl)

theorem State.formed.dirRead {d k dom rows} (h : s.formed) : (s.dirRead d k dom rows).formed :=
  h.dirJoin fun _ h => h.readUnit.ite h.touchUnit

theorem State.formed.dirWrite {d k dom} (h : s.formed) : (s.dirWrite d k dom).formed :=
  (h.dirJoin fun _ h => h.touchUnit).frame (by rfl)

theorem State.formed.evictRange {dom n} (h : s.formed) : (s.evictRange dom n).formed := h.foldl fun _ h => h.evictLine

theorem State.formed.cleanLine {line} (h : s.formed) : (s.cleanLine line).formed := h.frame (by rfl)

theorem State.formed.modL1 {core f} (h : s.formed) : (s.modL1 core f).formed := h.setCore

theorem State.formed.clearL1 {core} (h : s.formed) : (s.clearL1 core).formed := h.setCore

theorem State.formed.dropL1 {core dom} (h : s.formed) : (s.dropL1 core dom).formed := h.modL1

theorem State.formed.dropL1Range {core dom n} (h : s.formed) : (s.dropL1Range core dom n).formed := h.modL1

theorem State.formed.fillL1 {core k dom} (h : s.formed) : (s.fillL1 core k dom).formed := h.modL1.copyMarks

theorem State.formed.patchL1 {core k dom bs} (h : s.formed) : (s.patchL1 core k dom bs).formed := h.modL1

theorem State.formed.fetchLine {d k dom rows} (h : s.formed) : (s.fetchLine d k dom rows).formed := h.dirRead.ite h.sendRequest

theorem State.formed.readThrough {core l rows} (h : s.formed) : (s.readThrough core l rows).formed := by
  unfold State.readThrough
  split
  · split
    · exact h
    · exact h.fetchLine.fillL1
  · exact h
  · exact h
  · exact h

theorem State.formed.threadWrite {core l bs} (h : s.formed) : (s.threadWrite core l bs).formed := by
  unfold State.threadWrite
  dsimp only
  split
  · exact (h.writeLoc.dirWrite.ite h.writeLoc).patchL1
  · exact h.writeLoc
  · exact h.writeLoc
  · exact h.writeLoc

theorem State.formed.homeWrite {k dom bs} (h : s.formed) : (s.homeWrite k dom bs).formed :=
  h.setMarks.evictRange.writeRange.touchRange.ite h.setMarks.writeRange

theorem State.formed.agentWrite {l bs} (h : s.formed) : (s.agentWrite l bs).formed := by
  unfold State.agentWrite
  split
  · exact h.homeWrite
  · exact h.setMarks.writeLoc
  · exact h.setMarks.writeLoc
  · exact h.setMarks.writeLoc

theorem State.formed.engineWrite {cores l bs} (h : s.formed) : (s.engineWrite cores l bs).formed := by
  unfold State.engineWrite
  dsimp only
  split
  · exact h.agentWrite.foldl fun _ h => h.dropL1Range
  · exact h.agentWrite
  · exact h.agentWrite
  · exact h.agentWrite

theorem State.formed.homeRead {linear k dom n} (h : s.formed) : (s.homeRead linear k dom n).formed :=
  h.sendRequest.ite (h.ite (((h.foldl fun _ h => h.evictOther).foldl fun _ h => h.ite h.readUnit).ite (h.foldl fun _ h => h.evictOther)))

theorem State.formed.askLoc {l n} (h : s.formed) : (s.askLoc l n).formed := by
  unfold State.askLoc
  split
  · exact h.homeRead
  · exact h
  · exact h
  · exact h

theorem State.formed.walked {core fn g va} (h : s.formed) : (s.walked core fn g va).formed := h.ite (h.foldl fun _ h => h.homeRead)

theorem State.formed.readTile {core fn g tid base pitch i j n column} (h : s.formed) :
    (s.readTile core fn g tid base pitch i j n column).formed := by
  have hs := h.ite (c := tid = 0) (h.foldl (l := List.range 32) fun r h =>
    h.walked (core := core) (fn := fn) (g := g) (va := base + (32 * i + r) * pitch + 32 * j))
  unfold State.readTile
  dsimp only
  split
  · exact hs
  · exact hs.frame (by rfl)

theorem State.formed.askRange {linear core fn g a n} (h : s.formed) : (s.askRange linear core fn g a n).formed := by
  unfold State.askRange
  dsimp only
  refine h.foldl fun _ h => ?_
  split
  · exact h.walked.homeRead
  · exact h.walked

theorem State.formed.chargeSlot {k} (h : s.formed) : (s.chargeSlot k).formed := h.elim fun _ => h.modTele

theorem State.formed.poisonFor {k us} (h : s.formed) : (s.poisonFor k us).formed := (h.frame (by rfl)).chargeSlot

theorem State.formed.poisonUnits {us} (h : s.formed) : (s.poisonUnits us).formed := h.poisonFor

theorem State.formed.poisonLine {line} (h : s.formed) : (s.poisonLine line).formed := h.poisonFor

theorem State.formed.loseWrites {u} (h : s.formed) : (s.loseWrites u).formed := by
  obtain ⟨hm, hh, hr⟩ := State.formed_iff.1 h
  refine State.formed_iff.2 ⟨s.loseWrites_wf u hm, ?_⟩
  simp only [State.loseWrites]
  exact ⟨hh, hr⟩

theorem State.formed.someEvicted (h : s.formed) : s.someEvicted.formed := ((h.foldl fun _ h => h.evictLine).frame (by rfl)).loseStruck.bump

theorem State.formed.loseDie {d} (h : s.formed) : (s.loseDie d).formed :=
  ((h.someEvicted.foldl fun _ h => h.poisonLine).frame (by rfl)).loseStruck

theorem State.formed.loseStore {d} (h : s.formed) : (s.loseStore d).formed :=
  ((h.someEvicted.foldl fun _ h => h.loseWrites).frame (by rfl)).loseStruck.bump

theorem State.formed.dropKey {k} (h : s.formed) : (s.dropKey k).formed :=
  ((h.someEvicted.foldl fun _ h => h.loseWrites).frame (by rfl)).loseStruck.bump

/-! ### Sys2Proof/Machine/Ops -/

theorem State.formed.msi {fn vec} (h : s.formed) : (s.msi fn vec).formed := h.frame (by rfl)

theorem State.formed.tell {m} (h : s.formed) : (s.tell m).formed := h.frame (by rfl)

theorem State.formed.report {m} (h : s.formed) : (s.report m).formed := h.tell.msi

theorem State.formed.modIt {f} (h : s.formed) : (s.modIt f).formed := by
  unfold State.modIt
  dsimp only
  split
  · exact h.setQuarter
  · exact h

theorem State.formed.pend {ts} (h : s.formed) : (s.pend ts).formed := h.modIt

theorem State.formed.pendWait {ws} (h : s.formed) : (s.pendWait ws).formed := h.modIt

theorem State.formed.commit {ws} (h : s.formed) : (s.commit ws).formed := h.setGroup.modIt.ite h

theorem State.formed.endEngs {p} (h : s.formed) : (s.endEngs p).formed := (h.frame (by rfl)).unstall

theorem State.formed.reportFailed {gid} (h : s.formed) : (s.reportFailed gid).formed := by
  unfold State.reportFailed
  dsimp only
  refine (h.setGroup.ite h.setGroup.report).foldl fun _ h => ?_
  split
  · exact h.report
  · exact h

theorem State.formed.endTeam {t} (h : s.formed) : (s.endTeam t).formed := ((h.frame (by rfl)).foldl fun _ h => h.reportFailed).learn.setTeam

theorem State.formed.killTeam {t} (h : s.formed) : (s.killTeam t).formed := (h.frame (by rfl)).endTeam.setTeam

theorem State.formed.killInstance {i} (h : s.formed) : (s.killInstance i).formed := (h.foldl fun _ h => h.killTeam).frame (by rfl)

theorem State.formed.takeTrap {gid p lanes r} (h : s.formed) : (s.takeTrap gid p lanes r).formed := by
  unfold State.takeTrap
  dsimp only
  split
  · exact h
  · split
    · exact h
    · split
      · exact h.killInstance
      · exact h.frame (by rfl)

theorem State.formed.takeWait {gid fid lanes services r} (h : s.formed) : (s.takeWait gid fid lanes services r).formed := by
  unfold State.takeWait
  dsimp only
  split
  · exact h
  · split
    · exact h
    · exact h.frame (by rfl)

theorem State.formed.settle (h : s.formed) : s.settle.formed := h.ite ((h.modIt.foldl fun _ h => h.takeWait).foldl fun _ h => h.takeTrap)

theorem State.formed.later {x} (h : s.formed) : (s.later x).formed := h.modIt

theorem State.formed.lateWrite {it x2} (h : s.formed) : (State.lateWrite it s x2).formed := by
  unfold State.lateWrite
  dsimp only
  split
  · exact h.setGroup
  · exact h.setCore
  · exact h.setTeam.modIt

theorem State.formed.finish (h : s.formed) : s.finish.formed := h.ite (h.settle.ite (h.settle.modIt.foldl fun _ h => h.lateWrite))

theorem State.formed.done (h : s.formed) : Res.formed (done s) := .next h.finish

theorem State.formed.returnTrap {gid fid} (h : s.formed) : (s.returnTrap gid fid).formed := by
  unfold State.returnTrap
  dsimp only
  split
  · exact h
  · split
    · exact h
    · exact h.frame (by rfl)

theorem State.formed.addOp {o} (h : s.formed) : (s.addOp o).formed := h.frame (by rfl)

theorem MRes.formed.apply {r} (h : r.formed) : (MRes.apply r).formed := h.commit.pend.pendWait

theorem State.formed.runMembers {f : Fibre → Group → State → MRes} {ms : List Fibre} {view}
    (h : s.formed) (hf : ∀ {s : State} m g, s.formed → (f m g s).formed) : (runMembers f ms view s).formed := by
  induction ms generalizing s view with
  | nil => exact h
  | cons m ms ih => exact ih (hf m view h).apply

theorem State.formed.runEach {f} (h : s.formed) (hf : ∀ {s2 : State} x0 x1, s2.formed → (f x0 x1 s2).formed) : (s.runEach f).formed :=
  h.runMembers hf

theorem State.formed.perMember {f} (h : s.formed) (hf : ∀ {s2 : State} x0 x1, s2.formed → (f x0 x1 s2).formed) :
    Res.formed (perMember s f) :=
  (h.runEach hf).done

theorem State.formed.scalarWord {f} (h : s.formed) : Res.formed (scalarWord s f) := h.perMember fun _ _ h => h

theorem State.formed.hold_ (h : s.formed) : s.hold_.formed := h.modIt

theorem State.formed.orWait (h : s.formed) (h1 : t.formed) : (s.orWait t).formed := h.ite h1

theorem State.formed.orLater (h : s.formed) (h1 : t.formed) : (s.orLater t).formed := (h.frame (by rfl)).ite h1

theorem State.formed.unlessHeld (h : s.formed) (h1 : t.formed) : Res.formed (unlessHeld s t) := .ite (.next h.hold_) h1.done

theorem State.formed.accessEach {f} (h : s.formed) (hf : ∀ {s2 : State} x0 x1, s2.formed → (f x0 x1 s2).formed) :
    Res.formed (accessEach s f) :=
  h.unlessHeld (h.runEach hf)

theorem State.formed.accessWord {f} (h : s.formed) (hf : ∀ {s2 : State} x0 x1, s2.formed → (f x0 x1 s2).formed) :
    Res.formed (accessWord s f) :=
  h.unlessHeld (hf _ _ h).apply

theorem State.formed.batchWord {f} (h : s.formed) (hf : ∀ {s2 : State} x0 x1, s2.formed → (f x0 x1 s2).formed) :
    Res.formed (batchWord s f) :=
  (hf _ _ h).apply.done

theorem State.formed.illegalWord (h : s.formed) : Res.formed (illegalWord s) := h.batchWord fun _ _ h => h

theorem State.formed.privileged {tsyn r} (h : s.formed) (h1 : Res.formed r) : Res.formed (privileged s tsyn r) :=
  .ite h1 (h.batchWord fun _ _ h => h)

theorem State.formed.setTerm {fid t} (h : s.formed) : (s.setTerm fid t).formed := h.setGroup.modIt.ite h

theorem State.formed.withTerm {f : Fibre → Group → State → MRes × Option Term} {m g} (h : s.formed)
    (hf : ∀ {s : State} m g, s.formed → (f m g s).1.formed) : (withTerm f m g s).formed := by
  have hr : (f m g s).1.st.formed := hf m g h
  unfold Machine.withTerm
  dsimp only
  split
  · exact hr.setTerm
  · exact hr

theorem State.formed.terminalWord {f} (h : s.formed) (hf : ∀ {s2 : State} x0 x1, s2.formed → (f x0 x1 s2).1.formed) :
    Res.formed (terminalWord s f) :=
  .ite (h.perMember fun _ _ h => h.withTerm hf) h.illegalWord

theorem State.formed.terminalAccess {f} (h : s.formed) (hf : ∀ {s2 : State} x0 x1, s2.formed → (f x0 x1 s2).1.formed) :
    Res.formed (terminalAccess s f) :=
  .ite (h.accessEach fun _ _ h => h.withTerm hf) h.illegalWord

/-! ### Sys2Proof/Machine/Operands -/

theorem State.formed.laneWord {ops f} (h : s.formed) : Res.formed (laneWord s ops f) := h.batchWord fun _ _ h => h

theorem State.formed.vecWord {d srcs f} (h : s.formed) : Res.formed (vecWord s d srcs f) := h.laneWord

theorem State.formed.vec2 {wide d a b f} (h : s.formed) : Res.formed (vec2 s wide d a b f) := h.vecWord

theorem State.formed.vec1 {wide d a f} (h : s.formed) : Res.formed (vec1 s wide d a f) := h.vecWord

theorem State.formed.vecPred {p wide a b f} (h : s.formed) : Res.formed (vecPred s p wide a b f) := h.laneWord

/-! ### Sys2Proof/Machine/Boundary -/

theorem State.formed.modFibre {gid fid f} (h : s.formed) : (s.modFibre gid fid f).formed := h.setGroup

theorem State.formed.hold {gid from_ id} (h : s.formed) : (s.hold gid from_ id).formed := h.frame (by rfl)

theorem State.formed.informWaiting {p xs} (h : s.formed) : (s.informWaiting p xs).formed :=
  h.ite (h.foldl fun _ h => h.foldl fun _ h => h.inform.ite h)

theorem State.formed.wakeWhere {p upd} (h : s.formed) : (s.wakeWhere p upd).formed := h.frame (by rfl)

theorem State.formed.splitFibre {gid f t n target seq} (h : s.formed) : (s.splitFibre gid f t n target seq).formed :=
  h.modFibre.ite (h.modFibre.ite h.setGroup.hold)

theorem State.formed.joinAt {gid e} (h : s.formed) : (s.joinAt gid e).formed := by
  unfold State.joinAt
  dsimp only
  split
  · exact h
  · exact h.inform.setGroup.hold

theorem State.formed.joins {n gid} (h : s.formed) : (State.joins n s gid).formed := by
  induction n generalizing s with
  | zero => exact h
  | succ n ih =>
    unfold State.joins
    split
    · exact h
    · exact ih h.joinAt

theorem State.formed.rejoinTrap {gid} (h : s.formed) : (s.rejoinTrap gid).formed := by
  unfold State.rejoinTrap
  dsimp only
  split
  · split
    · exact h
    · exact h.modFibre.takeTrap
  · exact h

theorem State.formed.wakeBarrier {t n phase} (h : s.formed) : (s.wakeBarrier t n phase).formed :=
  h.forget.forget.learn.informWaiting.wakeWhere.foldl fun _ h => h.wakeWhere

theorem State.formed.arrive {t n num want lanes} (h : s.formed) : (s.arrive t n num want lanes).formed :=
  h.setTeam.ite h.setTeam.wakeBarrier

theorem State.formed.tryArrive {gid n} (h : s.formed) : (s.tryArrive gid n).formed := h.arrive.ite h

theorem State.formed.tryGbar {i} (h : s.formed) : (s.tryGbar i).formed :=
  ((h.informWaiting.frame (by rfl)).foldl fun _ h => h.clearL1).wakeWhere.ite h

theorem State.formed.noteParked {gid} (h : s.formed) : (s.noteParked gid).formed := h.setGroup.ite h

theorem State.formed.endLanes {gid m} (h : s.formed) : (s.endLanes gid m).formed := h.frame (by rfl)

theorem State.formed.applyTerm {it fid t} (h : s.formed) : (s.applyTerm it fid t).formed := by
  unfold State.applyTerm
  dsimp only
  split
  · exact h
  · split
    · exact h.modFibre
    · exact h.modFibre
    · exact h.modFibre
    · exact h.splitFibre
    · exact h.setGroup.endLanes
    · exact h.setGroup
    · exact h.modFibre
    · exact h.returnTrap

theorem State.formed.endCheck {gid} (h : s.formed) : (s.endCheck gid).formed :=
  ((h.frame (by rfl)).reportFailed.endTeam.ite (h.frame (by rfl)).reportFailed).ite h

theorem State.formed.settleGroup {gid} (h : s.formed) : (s.settleGroup gid).formed :=
  (h.joins.setGroup.endCheck.rejoinTrap.foldl fun _ h => h.tryArrive).tryGbar.noteParked

theorem State.formed.pastYield {q} (h : s.formed) : (s.pastYield q).formed := h.frame (by rfl)

theorem State.formed.dropIssue (h : s.formed) : s.dropIssue.formed := h.setQuarter

theorem State.formed.boundary (h : s.formed) : s.boundary.formed := by
  unfold State.boundary
  dsimp only
  split
  · exact (h.foldl fun _ h => h.applyTerm).dropIssue.setGroup.settleGroup
  · exact (h.foldl fun _ h => h.applyTerm).dropIssue.setGroup.settleGroup.pastYield

theorem State.formed.newGroup {p} (h : s.formed) : (s.newGroup p).formed := h.modIt.boundary.ite h.modIt

theorem State.formed.advance (h : s.formed) : s.advance.formed := by
  unfold State.advance
  dsimp only
  split
  · exact h
  · split
    · exact h.modIt
    · exact h.modIt
    · split
      · exact h.newGroup
      · exact h.modIt
    · exact h.newGroup

theorem State.formed.failGroup {cause tsyn p} (h : s.formed) : (s.failGroup cause tsyn p).formed :=
  h.modIt.pend.settle.newGroup.ite h.modIt.pend.settle

theorem State.formed.headerWait {wait} (h : s.formed) : (s.headerWait wait).formed :=
  ((h.foldl fun _ h => h.modFibre).foldl fun _ h => h.ite h.modFibre).setGroup.modIt.settle.modIt

theorem State.formed.frameTrap {p} (h : s.formed) : (s.frameTrap p).formed := h.modIt.settle

theorem State.formed.chosen {q gid fs} (h : s.formed) : (s.chosen q gid fs).formed := h.pastYield.setGroup.setQuarter

theorem State.formed.startMembers {seta setb safe} (h : s.formed) : (s.startMembers seta setb safe).formed :=
  (h.foldl fun _ h => h.modFibre).setGroup.bump.modIt

theorem State.formed.header {wait seta setb safe} (h : s.formed) : (s.header wait seta setb safe).formed := by
  unfold State.header
  dsimp only
  split
  · split
    · exact h.headerWait
    · split
      · exact h.headerWait.frameTrap
      · exact h.headerWait.startMembers
  · exact h

theorem State.formed.badHeader (h : s.formed) : s.badHeader.formed := h.headerWait.ite h.headerWait.frameTrap

theorem State.formed.startTrap {gid fs mk r} (h : s.formed) : (s.startTrap gid fs mk r).formed :=
  (h.foldl fun _ h => h.takeTrap).settleGroup

/-- A clause is put in hand. -/
theorem State.formed.inHand {q x} (h : s.formed) : State.formed { s.setQuarter q x with cur := q } := h.frame (by rfl)

theorem State.formed.startClause {q gid fs} (h : s.formed) : (s.startClause q gid fs).formed := by
  unfold State.startClause
  dsimp only
  split
  · exact h
  · split
    · exact h
    · exact h.chosen.askRange.startTrap
    · exact h.chosen.askRange.modTele.startTrap
    · exact (h.chosen.askRange.serve.foldl fun _ h => h.takeWait).noteParked
    · split
      · exact h.chosen.askRange.cacheLeaf.bump.startTrap
      · split
        · exact (h.chosen.askRange.cacheLeaf.bump.foldl fun _ h => h.modFibre).inHand.boundary
        · exact (h.chosen.askRange.cacheLeaf.bump.foldl fun _ h => h.modFibre).inHand

/-! ### Sys2Proof/Machine/Access -/

theorem State.formed.countPoison (h : s.formed) : s.countPoison.formed := h.modTele

theorem State.formed.reach {tgt lane a n kind} (h : s.formed) : (s.reach tgt lane a n kind).1.formed := by
  unfold State.reach
  dsimp only
  split
  · exact h
  · split
    · exact h.walked.cacheLeaf
    · exact h.walked
    · exact h.walked
    · exact h.walked.countPoison
    · exact h.walked
    · exact h.walked.serve
  · exact h

theorem State.formed.locate {tgt lane a n kind} (h : s.formed) : (s.locate tgt lane a n kind).1.formed := by
  unfold State.locate
  dsimp only
  split
  · exact h.reach
  · exact h.reach

theorem State.formed.check {tgt u align off n kind} (h : s.formed) : (s.check tgt u align off n kind).1.formed := by
  unfold State.check
  split
  · exact h
  · exact h.locate

theorem State.formed.checkAll {tgt us align off n kind} (h : s.formed) : (s.checkAll tgt us align off n kind).st.formed := by
  refine foldl_keeps (fun c : Checked => c.st.formed) _ (fun c u hc => ?_) us h
  dsimp only
  split
  · exact hc.check
  · exact hc.check
  · exact hc.check
  · exact hc.check.hold_

theorem State.formed.awaitFlush {ms us} (h : s.formed) : (s.awaitFlush ms us).1.formed := h.frame (by rfl)

theorem State.formed.released {rel ms} (h : s.formed) : (s.released rel ms).formed := (h.foldl fun _ h => h.modFibre).ite h

theorem State.formed.perform {c rel ms k} (h : c.st.formed) (hf : ∀ {s0 : State} x1, s0.formed → (k s0 x1).formed) :
    (Checked.perform c rel ms k).formed :=
  .ite (hf _ h).released (h.awaitFlush.ite (hf _ h.awaitFlush).released)

theorem State.formed.readAll {sync us n} (h : s.formed) : (s.readAll sync us n).formed := h.foldl fun _ h => h.readMarks

theorem State.formed.acquired {core acq} (h : s.formed) : (s.acquired core acq).formed := h.clearL1.ite h

/-! ### Sys2Proof/Machine/Memory -/

theorem State.formed.readUnits {us off n w rows} (h : s.formed) : (readUnits s us off n w rows).st.formed := by
  refine foldl_keeps (fun r : Loaded => r.st.formed) _ (fun r u hr => ?_) us h
  dsimp only
  split
  · exact hr.readThrough.countPoison
  · exact hr.readThrough

theorem State.formed.loadUnits {st it holders flag sync tgt us align off n w} (h : st.formed) :
    (loadUnits st it holders flag sync tgt us align off n w).formed :=
  h.checkAll.acquired.readAll.readUnits.bump.ite h.checkAll.acquired.readAll.readUnits.bump.addOp

theorem State.formed.vectorLoad {tgt reg k m align off n sel w} (h : s.formed) :
    Res.formed (vectorLoad tgt reg k m align off n sel w s) := by
  unfold Machine.vectorLoad
  refine h.accessWord fun _ _ h => ?_
  split
  · exact h
  · exact h.loadUnits

theorem State.formed.plainLoad {tgt reg m wd sel} (h : s.formed) : Res.formed (plainLoad tgt reg m wd sel s) := by
  unfold Machine.plainLoad
  exact h.vectorLoad

theorem State.formed.storeUnits {st sync ms tgt us align off n x} (h : st.formed) : (storeUnits st sync ms tgt us align off n x).formed :=
  h.checkAll.perform fun _ h => (h.foldl fun _ h => h.threadWrite.writeMarks).bump

theorem State.formed.vectorStore {tgt reg k first cnt m align off n} (h : s.formed) :
    Res.formed (vectorStore tgt reg k first cnt m align off n s) := by
  unfold Machine.vectorStore
  refine h.accessWord fun _ _ h => ?_
  split
  · exact h
  · exact h.storeUnits

theorem State.formed.plainStore {tgt reg m wd} (h : s.formed) : Res.formed (plainStore tgt reg m wd s) := h.vectorStore

theorem State.formed.execVldr {reg m sel} (h : s.formed) : Res.formed (execVldr reg m sel s) := by
  unfold Machine.execVldr
  exact h.vectorLoad

theorem State.formed.indexedWord {m} {k : State → Nat → Nat → State} (h : s.formed)
    (hk : ∀ {s : State} dom key, s.formed → (k s dom key).formed) : Res.formed (indexedWord m s k) := by
  refine h.accessWord fun it g h => ?_
  split
  · exact h
  · refine State.formed.bump (h.foldl_fst fun x h => ?_)
    dsimp only
    split
    · split
      · exact h.walked
      · exact hk _ _ h.walked
    · exact h.walked.hold_
    · exact h.walked.countPoison
    · exact h.walked

theorem State.formed.cwbLane {ea} (h : s.formed) : (cwbLane s ea).1.formed := by
  unfold Machine.cwbLane
  dsimp only
  split
  · exact h.walked.cacheLeaf
  · exact h.walked
  · exact h.walked
  · exact h.walked
  · exact h.walked
  · exact h.walked
  · exact h.walked.countPoison
  · exact h.walked.hold_

theorem State.formed.lane {x : CwbLanes} {l ea} (h : x.st.formed) : (x.lane l ea).st.formed := by
  have hc : (Machine.cwbLane x.st ea).1.formed := h.cwbLane
  unfold CwbLanes.lane
  split <;> rename_i e <;> rw [e] at hc
  · exact hc
  · exact hc
  · split
    · exact hc
    · split
      · exact hc
      · exact hc.sendRequest

theorem State.formed.execCwb {m sel} (h : s.formed) : Res.formed (execCwb m sel s) := by
  refine h.accessWord fun {st} it g h => ?_
  split
  · exact h
  · rename_i es _
    have hr := foldl_keeps (fun x : CwbLanes => x.st.formed)
      (fun (x : CwbLanes) l => x.lane l (effAddr g l m.base es 1 (gOff m))) (fun _ _ h => h.lane) (lanesOf it.mask)
      (s := { st := st }) h
    exact State.formed.ite hr hr.addOp

/-! ### Sys2Proof/Machine/Atomic -/

theorem State.formed.atomRead {p l n} (h : s.formed) : (s.atomRead p l n).formed := by
  unfold State.atomRead
  split
  · exact h.readThrough
  · exact h.fetchLine
  · exact h.askLoc
  · exact h

theorem State.formed.atomWrite {p l bs} (h : s.formed) : (s.atomWrite p l bs).formed := by
  unfold State.atomWrite
  split
  · exact h.readThrough.threadWrite
  · exact h.fetchLine.threadWrite.dropL1
  · exact h.evictRange.askLoc.agentWrite.dropL1
  · exact h.writeLoc

theorem State.formed.atomOne {lit l x y left} (h : s.formed) : (s.atomOne lit l x y left).1.formed := by
  unfold State.atomOne
  dsimp only
  split
  · exact (h.frame (by rfl)).sendRequest.dropL1
  · split
    · exact h.atomRead
    · exact h.atomWrite

theorem State.formed.atomUnits {us lit ops w} (h : s.formed) : (atomUnits s us lit ops w).st.formed := by
  refine foldl_keeps (fun r : Loaded × Tab (Nat × Bool) => r.1.st.formed) _ (fun r u hr => ?_) us h
  extract_lets
  split_ifs
  · exact hr.readMarks.atomOne.countPoison
  · exact hr.readMarks.atomOne.writeMarks

theorem State.formed.atomicUnits {st it ms sel space us lit ops w} (h : st.formed) : (atomicUnits st it ms sel space us lit ops w).formed :=
  h.checkAll.perform fun _ h => h.acquired.atomUnits.bump.ite h.acquired.atomUnits.bump.addOp

theorem State.formed.vectorAtomic {a b idx space sel lit old} (h : s.formed) : Res.formed (vectorAtomic a b idx space sel lit old s) := by
  unfold Machine.vectorAtomic
  refine h.accessWord fun _ _ h => ?_
  split
  · exact h
  · exact h.atomicUnits

/-! ### Sys2Proof/Machine/Slots -/

theorem State.formed.slotError {g code skip} (h : s.formed) : (s.slotError g code skip).formed := h.setSlot.msi

theorem State.formed.slotRetire {g w} (h : s.formed) : (s.slotRetire g w).formed := (h.setSlot.msi.ite h.setSlot).ite h

theorem State.formed.slotFail {g w code} (h : s.formed) : (s.slotFail g w code).formed := h.ite (h.setSlot.msi.ite h.setSlot.slotError)

/-! ### Sys2Proof/Machine/Service -/

theorem State.formed.setHandle {t h' x} (h : s.formed) : (s.setHandle t h' x).formed := h.setTeam

theorem State.formed.setEng {id e} (h : s.formed) : (s.setEng id e).formed := h.frame (by rfl)

theorem State.formed.restoreFault {e} (h : s.formed) : (s.restoreFault e).formed := by
  unfold State.restoreFault
  dsimp only
  split
  · split
    · exact h
    · exact h.setHandle
  · exact h

theorem State.formed.served {gone} (h : s.formed) : (s.served gone).formed := (h.frame (by rfl)).foldl fun _ h => h.restoreFault

theorem State.formed.placeFrame {frame fn entry offer} (h : s.formed) : (s.placeFrame frame fn entry offer).formed := by
  unfold State.placeFrame
  split
  · exact h.frame (by rfl)
  · exact h

theorem State.formed.takeFrame {f} (h : s.formed) (e : s.takeFrame = some (f, t)) : t.formed := by
  unfold State.takeFrame at e
  obtain ⟨n, -, hn⟩ := Option.bind_eq_some_iff.1 e
  obtain ⟨p, -, hp⟩ := Option.map_eq_some_iff.1 hn
  obtain ⟨-, rfl⟩ := Prod.mk.inj hp
  exact h.frame (by rfl)

theorem State.formed.copyFrame {srcKey dstKey src dst} (h : s.formed) : (s.copyFrame srcKey dstKey src dst).formed :=
  h.homeRead.homeWrite.foldl fun _ h => h.poisonUnit

theorem State.formed.putEntry {entry e} (h : s.formed) : (s.putEntry entry e).formed :=
  State.formed.touchUnit (h.evictLine.update (putBytes_wf _ _ _) id id)

theorem State.formed.restSource {fn e frame} (h : s.formed) : (s.restSource fn e frame).formed := h.placeFrame.ite h

theorem State.formed.cowDone {slot fn entry frame srcKey} (h : s.formed) : (s.cowDone slot fn entry frame srcKey).formed := by
  unfold State.cowDone
  dsimp only
  split
  · exact h.restSource
  · split
    next => exact h.restSource
    next e => exact (h.restSource.takeFrame e).copyFrame.putEntry.dropLeaves.setFn.modTele

theorem State.formed.cowEnd {id} (h : s.formed) : (s.cowEnd id).formed := by
  unfold State.cowEnd
  dsimp only
  split
  · split
    · exact h.frame (by rfl)
    · split
      · exact h.served.cowDone
      · exact h.served
  · exact h

theorem State.formed.endCows {k} (h : s.formed) : (s.endCows k).formed := h.foldl fun _ h => h.cowEnd

theorem State.formed.serveNow {fn slot va x4} (h : s.formed) : (s.serveNow fn slot va x4).formed := by
  unfold State.serveNow
  split
  · exact h.served.cowDone
  · exact h.placeFrame
  · exact h

theorem State.formed.cpPlace {fn slot va kind n} (h : s.formed) : (State.cpPlace fn slot va kind n s).1.formed := by
  induction n generalizing s with
  | zero => exact h
  | succ n ih =>
    unfold State.cpPlace
    dsimp only
    split
    · exact h.walked
    · exact h.walked
    · exact h.walked
    · exact h.walked
    · exact h.walked.frame (by rfl)
    · split
      · exact h.walked.frame (by rfl)
      · exact ih h.walked.serveNow
    · split
      · exact h.walked.frame (by rfl)
      · exact ih h.walked.serveNow

theorem State.formed.cpRead {fn slot va n} (h : s.formed) : (s.cpRead fn slot va n).1.formed := by
  unfold State.cpRead
  dsimp only
  split
  · exact h.cpPlace
  · split
    · exact h.cpPlace.homeRead
    · exact h.cpPlace.homeRead.bump

theorem State.formed.cpWrite {fn slot va bs ms} (h : s.formed) : (s.cpWrite fn slot va bs ms).1.formed := by
  unfold State.cpWrite
  dsimp only
  split
  · exact h.cpPlace
  · exact h.cpPlace.homeWrite.setMarks

/-! ### Sys2Proof/Machine/Engine -/

theorem State.formed.converged {f it g st} (hf : ∀ {s2 : State} x0 x1, s2.formed → (f x0 x1 s2).formed) (h : st.formed) :
    (converged f it g st).formed :=
  .ite (hf _ _ h) h

theorem State.formed.collective {f} (h : s.formed) (hf : ∀ {s2 : State} x0 x1, s2.formed → (f x0 x1 s2).formed) :
    Res.formed (collective s f) :=
  h.batchWord fun _ _ h => h.converged hf

theorem State.formed.collectiveAccess {f} (h : s.formed) (hf : ∀ {s2 : State} x0 x1, s2.formed → (f x0 x1 s2).formed) :
    Res.formed (collectiveAccess s f) :=
  h.accessWord fun _ _ h => h.converged hf

theorem State.formed.trapAll {st it cause tsyn tunit} (h : st.formed) : (trapAll st it cause tsyn tunit).formed := h

theorem State.formed.countDie {d i} (h : s.formed) : (s.countDie d i).formed := h.setDie

theorem State.formed.tally {e k} (h : s.formed) : (s.tally e k).formed := h.modTele.countDie

theorem State.formed.engPoison {e} (h : s.formed) : (s.engPoison e).formed := h.modTele

theorem State.formed.lockAll {core slot op ls} (h : s.formed) : (s.lockAll core slot op ls).formed := h.foldl fun _ h => h.ite h.lock

theorem State.formed.enqueue {core op} (h : s.formed) : (s.enqueue core op).1.formed := by
  unfold State.enqueue
  dsimp only
  split
  · exact h.setCore
  · exact h.setCore

theorem State.formed.addEng {k flag holders ls} (h : s.formed) : (s.addEng k flag holders ls).formed :=
  State.formed.lockAll (State.formed.frame (State.formed.enqueue (s := { s with nextId := s.nextId + 1 }) (h.frame (by rfl))) (by rfl))

theorem State.formed.addFree {k flag holders ls} (h : s.formed) : (s.addFree k flag holders ls).formed := (h.frame (by rfl)).lockAll

theorem State.formed.withRoom {ls r} (h : s.formed) (h1 : r.formed) : (withRoom s ls r).formed := .ite h.hold_ h1

theorem State.formed.dropEng {id} (h : s.formed) : (s.dropEng id).formed := by
  unfold State.dropEng
  dsimp only
  split
  · exact h
  · exact (h.frame (by rfl)).unlock

theorem State.formed.engWrite {e space n a bs} (h : s.formed) : (s.engWrite e space n a bs).formed := by
  induction n generalizing s a bs with
  | zero => exact h
  | succ n ih =>
    unfold State.engWrite
    dsimp only
    split
    · exact h
    · refine ih ?_
      split
      · exact h.engineWrite.ite h
      · exact h

theorem State.formed.handleError {st m h' x} (h : st.formed) : (handleError st m h' x).formed := h

theorem State.formed.wakeHandle {t h'} (h : s.formed) : (s.wakeHandle t h').formed := h.wakeWhere

theorem State.formed.fillHandle {t h' x} (h : s.formed) : (s.fillHandle t h' x).formed := h.setHandle.wakeHandle

theorem State.formed.freeHandle {t h' x} (h : s.formed) : (s.freeHandle t h' x).formed := h.setHandle.wakeHandle

theorem State.formed.readSlices {core fn g d nib column es} (h : s.formed) : (s.readSlices core fn g d nib column es).formed :=
  h.foldl fun _ h => h.readTile

theorem State.formed.fetchElems {core fn g d nib column es} (h : s.formed) : (s.fetchElems core fn g d nib column es).formed :=
  (h.readSlices.foldl fun _ h => h.askRange).foldl fun _ h => h.askRange

/-! ### Sys2Proof/Machine/Sync -/

theorem State.formed.execFence {scope ord} (h : s.formed) : Res.formed (execFence scope ord s) := by
  unfold Machine.execFence
  refine h.batchWord fun {st} it _ h => ?_
  have hr (due : List Fibre) (xs) : (if due.isEmpty = true then (st, []) else st.awaitFlush due xs).1.formed := by
    split
    · exact h
    · exact h.awaitFlush
  exact State.formed.ite (hr _ _) ((hr _ _).released.foldl fun _ h => h.fenceMarks).acquired

theorem State.formed.metWait (h : s.formed) : s.metWait.formed := h.setGroup

theorem State.formed.execWaitm {base cmp space lit} (h : s.formed) : Res.formed (execWaitm base cmp space lit s) := by
  unfold Machine.execWaitm
  refine h.terminalAccess fun m g h => ?_
  split
  · exact h
  · extract_lets n k u c
    have hc : c.st.formed := h.checkAll
    clear_value c
    split
    · exact hc
    · dsimp only
      split
      · exact hc.acquired.readThrough.countPoison
      · split
        · exact hc.acquired.readThrough.readMarks.bump.metWait
        · exact hc.acquired.readThrough.bump

theorem State.formed.laneArrive {n want lanes again} (h : s.formed) : (s.laneArrive n want lanes again).formed :=
  h.ite h.setTeam.learn.tryArrive

theorem State.formed.execBarw {n c} (h : s.formed) : Res.formed (execBarw n c s) := by
  unfold Machine.execBarw
  dsimp only
  refine h.terminalWord fun _ _ h => ?_
  split
  · exact h.inform.metWait
  · exact h

theorem State.formed.execGbar (h : s.formed) : Res.formed (execGbar s) := by
  unfold Machine.execGbar
  dsimp only
  refine h.terminalWord fun _ _ h => ?_
  split
  · exact h
  · exact h.learn.setTeam

/-! ### Sys2Proof/Machine/HandleWords -/

theorem State.formed.onHandle {h' bad k m g st} (hf : ∀ {s2 : State} x0 x1 x3, s2.formed → (k x0 x1 s2 x3).formed) (h : st.formed) :
    (onHandle h' bad k m g st).formed :=
  .ite h.handleError (hf _ _ _ h)

theorem State.formed.handleWord {h' bad k} (h : s.formed) (hf : ∀ {s2 : State} x0 x1 x3, s2.formed → (k x0 x1 s2 x3).formed) :
    Res.formed (handleWord s h' bad k) :=
  h.perMember fun _ _ h => h.onHandle hf

theorem State.formed.observed {m h' x seen} (h : s.formed) : (s.observed m h' x seen).formed := h.inform.acquired.ite h

theorem State.formed.execHwait {h'} (h : s.formed) : Res.formed (execHwait h' s) := by
  unfold Machine.execHwait
  dsimp only
  refine h.terminalWord fun _ _ h => ?_
  split
  · exact h
  · exact h.observed.metWait

theorem State.formed.stopHandle {x} (h : s.formed) : (s.stopHandle x).formed := by
  unfold State.stopHandle
  dsimp only
  split
  · exact h.frame (by rfl)
  · exact h

theorem State.formed.execHfree {h'} (h : s.formed) : Res.formed (execHfree h' s) := by
  unfold Machine.execHfree
  refine h.handleWord fun _ _ _ h => ?_
  split
  · exact h.freeHandle
  · exact h.setHandle.stopHandle
  · exact h
  · exact h

theorem State.formed.tensorLoad {d t sel column place} (h : s.formed) : Res.formed (tensorLoad d t sel column place s) := by
  unfold Machine.tensorLoad
  dsimp only
  refine h.accessWord fun _ _ h => ?_
  split
  · exact h
  · exact h.checkAll.readSlices.readAll.readUnits.bump.ite h.checkAll.readSlices.readAll.readUnits.bump.addOp

/-! ### Sys2Proof/Machine/Copy -/

theorem State.formed.meter {f n} (h : s.formed) (e : s.meter f n = some t) : t.formed := by
  unfold State.meter at e
  dsimp only at e
  split at e
  · cases e
    exact h
  · split at e
    · cases e
      exact h.setFn
    · split at e
      · cases e
        exact h.frame (by rfl)
      · cases e

theorem State.formed.deposit {cores f slot a d bs} (h : s.formed) : (s.deposit cores f slot a d bs).formed := by
  cases d with
  | none => exact h.update id (writeZ_wf _ _ _) id
  | some l => exact h.engineWrite.foldl fun _ h => h.poisonLoc

theorem State.formed.scramble {e c n p} (h : s.formed) : (s.scramble e c n p).formed := by
  induction n generalizing s p with
  | zero => exact h
  | succ n ih =>
    unfold State.scramble
    dsimp only
    split
    · exact h
    · refine ih ?_
      split
      · exact h.bump.foldl fun _ h => h.deposit
      · exact h

theorem State.formed.spendFlip {core hit} (h : s.formed) : (s.spendFlip core hit).formed := h.setCore

theorem State.formed.copyEnd {id e c upd} (h : s.formed) : (s.copyEnd id e c upd).formed := by
  unfold State.copyEnd
  extract_lets full s1 s2 s3 irq x y s4
  have h1 : s1.formed := h.elim fun k => h.spendFlip
  have h2 : s2.formed := h1.ite h1.bump.scramble
  have h3 : s3.formed := h2.frame (by rfl)
  have h4 : s4.formed := h2.dropEng.bump
  split
  · split
    · exact h3
    · exact h3.slotRetire.ite h3.slotFail
  · exact h4.freeHandle.ite h4.fillHandle

theorem State.formed.shrinkLocks {core id n} (h : s.formed) : (s.shrinkLocks core id n).formed := h.setCore

theorem State.formed.copyFetch {e c p n} (h : s.formed) : (s.copyFetch e c p n).formed := by
  unfold State.copyFetch
  dsimp only
  split
  · split
    · exact h
    · exact h.walked
  · split
    · exact (h.ite h.walked).fetchElems
    · split
      · exact (h.ite h.walked).askRange
      · split
        · exact h
        · exact h.walked

theorem State.formed.moveChunk {id e c ds bs} (h : s.formed) : (s.moveChunk id e c ds bs).formed := by
  unfold State.moveChunk
  extract_lets fl hit flipped free put s1 s2 s3 s4 c1 s5 s6
  have h1 : s1.formed := h.copyFetch
  have h2 : s2.formed := by
    unfold s2
    split
    · exact h1
    · exact h1.deposit.foldl fun _ h => h.deposit
  have h3 : s3.formed := (h2.elim fun _ => h2.spendFlip).ite h2
  have h6 : s6.formed := h3.bump.setEng.modTele
  exact h6.ite h6.setHandle.shrinkLocks

theorem State.formed.pauseCopy {id e c w va} (h : s.formed) : (s.pauseCopy id e c w va).formed :=
  h.serve.setEng.ite h.serve.setEng.setHandle

theorem State.formed.copyBarred {id e c w va} (h : s.formed) : (s.copyBarred id e c w va).formed := by
  unfold State.copyBarred
  dsimp only
  split
  · exact (h.ite h.walked).pauseCopy
  · exact (h.ite h.walked).pauseCopy
  · split
    · exact h
    · exact h.walked
  · exact (h.ite h.walked).copyEnd
  · exact (h.ite h.walked).copyEnd

theorem State.formed.chunkNow {id e c} (h : s.formed) : (s.chunkNow id e c).formed := by
  unfold State.chunkNow
  extract_lets _ s1
  have h1 : s1.formed := h.setHandle.ite h
  refine h.copyEnd.ite ?_
  split
  · exact h1.copyBarred
  · exact h1.copyBarred
  · split
    next => exact h1
    next k =>
      extract_lets s2
      have h2 : s2.formed := (h1.meter k).moveChunk
      split
      · split
        · exact h2.copyEnd.ite h2
        · exact h2
      · exact h2

theorem State.formed.copyChunk {id e c} (h : s.formed) : (s.copyChunk id e c).formed := h.copyEnd.ite (h.ite (h.ite h.chunkNow))

theorem State.formed.startCopy {h' x l c} (h : s.formed) : (s.startCopy h' x l c).formed :=
  (h.setCore.spendFlip.ite h.setCore).fillHandle.ite h.setCore.setHandle.addEng

/-! ### Sys2Proof/Machine/VectorInt -/

theorem State.formed.vint2 {ty d a b f} (h : s.formed) : Res.formed (vint2 ty d a b f s) := h.vec2

theorem State.formed.vint1 {ty d a f} (h : s.formed) : Res.formed (vint1 ty d a f s) := h.vec1

theorem State.formed.dotWord {w sa sb sat d a b} (h : s.formed) : Res.formed (dotWord w sa sb sat d a b s) := h.vecWord

theorem State.formed.predWord {d a b f} (h : s.formed) : Res.formed (predWord d a b f s) := h.laneWord

/-! ### Sys2Proof/Machine/Matrix -/

theorem State.formed.tileOk {st it tile k} (h : st.formed) (h1 : k.formed) : (tileOk st it tile k).formed := .ite h.trapAll h1

theorem State.formed.offsetOk {st it space off align n k} (h : st.formed) (h1 : k.formed) : (offsetOk st it space off align n k).formed :=
  .ite h.trapAll (.ite h1 h.trapAll)

theorem State.formed.probe {as_} (h : s.formed) : (s.probe as_).1.formed := by
  have ht := h.foldl (l := as_) (f := fun t a => t.walked s.myCore s.myFn s.mySlot a) fun _ h => h.walked
  unfold State.probe
  dsimp only
  split
  · exact ht.hold_
  · split
    · exact ht
    · exact ht
    · refine ht.foldl_fst fun a h => ?_
      split
      · exact h.cacheLeaf
      · exact h.serve

theorem State.formed.probeTrap {st it b a} (h : st.formed) : (probeTrap st it b a).formed := .ite h.countPoison.trapAll h.trapAll

theorem State.formed.startMma {st it sel op ls} (h : st.formed) : (startMma st it sel op ls).formed := h.withRoom h.addEng

theorem State.formed.execMma {fmt pair tile form sel} (h : s.formed) : Res.formed (execMma fmt pair tile form sel s) := by
  refine h.collectiveAccess fun it g {st} h => h.tileOk ?_
  dsimp only
  split
  · split
    · exact h.trapAll
    · exact h.offsetOk h.startMma
  · exact .ite h.trapAll (h.offsetOk (h.offsetOk (h.offsetOk h.startMma)))
  · rename_i a b co
    split <;> rename_i e <;> have hp := congrArg Prod.fst e ▸ h.probe
    · exact hp.probeTrap
    · exact hp.startMma
    · exact hp

theorem State.formed.tileImage {tile off space flag dst k} (h : s.formed) : Res.formed (tileImage tile off space flag dst k s) :=
  h.collectiveAccess fun _ _ h => h.tileOk (h.offsetOk (h.withRoom h.addEng))

theorem State.formed.fragmentWord {tile v k} (h : s.formed) (hf : ∀ {s0 : State} x1 x2 x3, s0.formed → (k s0 x1 x2 x3).formed) :
    Res.formed (fragmentWord tile v s k) := by
  unfold Machine.fragmentWord
  refine h.collective fun _ _ h => ?_
  refine h.tileOk ?_
  split
  · exact h.trapAll
  · exact hf _ _ _ h

/-! ### Sys2Proof/Machine/NearMem -/

theorem State.formed.nmvEnd {id e o upd} (h : s.formed) : (s.nmvEnd id e o upd).formed := h.dropEng.freeHandle.ite h.dropEng.fillHandle

theorem State.formed.nmvLose {e o} (h : s.formed) : (s.nmvLose e o).formed := h.bump.deposit.bump

theorem State.formed.nmvMake {id e o} (h : s.formed) : (s.nmvMake id e o).formed :=
  h.askRange.askRange.deposit.bump.setHandle.shrinkLocks.nmvEnd.ite h.askRange.askRange.deposit.bump.setHandle.shrinkLocks.setEng

theorem State.formed.nmvGone {id e o} (h : s.formed) : (s.nmvGone id e o).formed := (h.nmvLose.ite h).nmvEnd

theorem State.formed.cutShort {e} (h : s.formed) : (s.cutShort e).formed := by
  unfold State.cutShort
  split
  · exact (h.elim fun _ => h.spendFlip).bump.scramble
  · split
    · exact h.nmvLose
    · exact h
  · exact h

theorem State.formed.nmvStep {id e o} (h : s.formed) : (s.nmvStep id e o).formed := by
  unfold State.nmvStep
  dsimp only
  split
  · exact (h.nmvLose.ite h).nmvEnd
  · split
    · exact h
    · split
      · exact h.nmvEnd
      · split
        · exact h.nmvEnd
        · split
          · exact h.nmvMake
          · split
            · split
              · exact h
              · exact h.walked
            · exact (h.ite h.walked).nmvLose.nmvEnd
            · exact (h.ite h.walked).serve.setEng.setHandle
            · exact (h.ite h.walked).serve.setEng.setHandle
            · exact (h.ite h.walked).nmvLose.nmvEnd

/-! ### Sys2Proof/Machine/Reduce -/

theorem State.formed.reachRange {space a n kind} (h : s.formed) : (s.reachRange space a n kind).st.formed := by
  refine foldl_keeps (fun r : Ranged => r.st.formed) _ (fun r p hr => ?_) _ h
  dsimp only
  split
  · exact hr
  · split
    · exact hr.reach
    · exact hr.reach

theorem State.formed.checkRange {space ea align n kind} (h : s.formed) : (s.checkRange space ea align n kind).st.formed := by
  unfold State.checkRange
  dsimp only
  split
  · exact h
  · split
    · split
      · exact h.reachRange
      · exact h.reachRange
    · exact h.reachRange

theorem State.formed.checkFails {r m ea x3} (h : r.st.formed) : (checkFails r m ea x3).formed := by
  unfold Machine.checkFails
  split
  · exact h
  · exact h
  · exact h
  · exact h.hold_

theorem State.formed.readRecord {m ea align n} (h : s.formed) : Read.formed (s.readRecord m ea align n) := by
  unfold State.readRecord
  dsimp only
  split
  · exact .error h.checkRange.checkFails
  · split
    · exact .error (State.formed.countPoison (h.checkRange.foldl fun _ h => h.askLoc))
    · exact .ok (State.formed.bump (h.checkRange.foldl fun _ h => h.askLoc))

theorem State.formed.modRed {t h' f} (h : s.formed) : (s.modRed t h' f).formed := h.setHandle

theorem State.formed.countConf {gid chan} (h : s.formed) : (s.countConf gid chan).formed := by
  unfold State.countConf
  split
  · exact h.modRed
  · exact h

theorem State.formed.countStale {t h'} (h : s.formed) : (s.countStale t h').formed := h.modRed

theorem State.formed.fullRed {t h' x} (h : s.formed) : (s.fullRed t h' x).formed := (h.elim fun _ => h.unlock).setHandle.wakeHandle

theorem State.formed.freeRed {t h' x} (h : s.formed) : (s.freeRed t h' x).formed := (h.elim fun _ => h.unlock.unlock).freeHandle

theorem State.formed.setNode {n} (h : s.formed) : (s.setNode n).formed := h.frame (by rfl)

theorem State.formed.openNode {n} (h : s.formed) (e : s.openNode n = some t) : t.formed := by
  unfold State.openNode at e
  split at e
  · cases e
    exact h
  · split at e
    · cases e
    · cases e
      exact h.setNode

theorem State.formed.startNode {n} (h : s.formed) : (s.startNode n).formed := by
  unfold State.startNode
  dsimp only
  split
  · exact h.getD fun _ => h.openNode
  · split
    · exact State.formed.getD (h.frame (by rfl)) fun _ => State.formed.openNode (h.frame (by rfl))
    · exact h.setNode

theorem State.formed.ageNodes (h : s.formed) : s.ageNodes.formed := h.frame (by rfl)

theorem State.formed.redTrap {st m code} (h : st.formed) : (redTrap st m code).formed := h

theorem State.formed.putSlot {n x} (h : s.formed) : (s.putSlot n x).formed := by
  unfold State.putSlot
  dsimp only
  split
  · exact h.frame (by rfl)
  · exact h.frame (by rfl)

theorem State.formed.execRedOpenDef {b c} (h : s.formed) : Res.formed (execRedOpenDef b c s) := by
  refine h.privileged (h.accessEach fun m g h => .ite h.ageNodes.redTrap ?_)
  split
  next e => exact h.ageNodes.readRecord.of_error e
  next e =>
    have h1 := h.ageNodes.readRecord.of_ok e
    split
    next e => exact h1.readRecord.of_error e
    next e =>
      have h2 := h1.readRecord.of_ok e
      exact .ite h2.redTrap (.ite h2.redTrap h2.putSlot)

theorem State.formed.execRedWait {h'} (h : s.formed) : Res.formed (execRedWait h' s) := by
  unfold Machine.execRedWait
  dsimp only
  refine h.terminalWord fun _ _ h => ?_
  split
  · exact h.metWait
  · split
    · exact h
    · exact h.handleError

/-! ### Sys2Proof/Machine/Nodes -/

theorem State.formed.handlePlace {e space a n kind} (h : s.formed) : (s.handlePlace e space a n kind).1.formed := by
  unfold State.handlePlace
  dsimp only
  split
  · exact h.cpPlace
  · split
    · exact h
    · exact h

theorem State.formed.handleWrite {e space a bs} (h : s.formed) : (s.handleWrite e space a bs).1.formed := by
  refine h.foldl_fst fun p h => ?_
  dsimp only
  split
  · exact h.handlePlace.deposit
  · exact h.handlePlace

theorem State.formed.handleRead {e space a n} (h : s.formed) : (s.handleRead e space a n).1.formed := by
  refine h.foldl_fst fun p h => ?_
  dsimp only
  split
  · exact h.handlePlace.askLoc
  · exact h.handlePlace

theorem State.formed.acceptDelivery {t h' n p} (h : s.formed) : (s.acceptDelivery t h' n p).formed :=
  (h.frame (by rfl)).ite h.handleWrite.fullRed

theorem State.formed.localDelivery {x p} (h : s.formed) : (s.localDelivery x p).formed := by
  unfold State.localDelivery
  dsimp only
  split
  · exact h
  · split
    · exact h.countConf
    · split
      · exact h.acceptDelivery
      · exact h.countStale

theorem State.formed.appendCorr {t h' p} (h : s.formed) : (s.appendCorr t h' p).formed :=
  h.modRed.ite ((h.frame (by rfl)).ite (h.handleWrite.modRed.ite h.handleWrite.modRed.setHandle))

theorem State.formed.localCorr {p} (h : s.formed) : (s.localCorr p).formed := by
  unfold State.localCorr
  dsimp only
  split
  · exact h
  · split
    · exact h.countConf
    · split
      · exact h.appendCorr
      · exact h.countStale

theorem State.formed.sendTo {x i mk} (h : s.formed) : (s.sendTo x i mk).formed := (h.frame (by rfl)).ite h

theorem State.formed.passDown {x p mk} (h : s.formed) : (s.passDown x p mk).formed := h.foldl fun _ h => h.sendTo

theorem State.formed.deliverHere {x p} (h : s.formed) : (s.deliverHere x p).formed := h.localDelivery.passDown

theorem State.formed.correctHere {x p} (h : s.formed) : (s.correctHere x p).formed := h.localCorr.passDown

theorem State.formed.lateArrival {x p} (h : s.formed) : (s.lateArrival x p).formed := h.correctHere.ite h.sendTo

theorem State.formed.forward {x n} (h : s.formed) : (s.forward x n).formed := by
  unfold State.forward
  dsimp only
  split
  · exact h.setNode.deliverHere
  · split
    · exact h.setNode.sendTo
    · exact h.setNode

theorem State.formed.tryForward {x n} (h : s.formed) : (s.tryForward x n).formed := h.forward.ite h

theorem State.formed.giveUp {t h' round g} (h : s.formed) : (s.giveUp t h' round g).formed := (h.modRed.fullRed.ite h.modRed).ite h

theorem State.formed.drained {t h'} (h : s.formed) : (s.drained t h').formed := h.freeRed.ite h

theorem State.formed.dueItem {e} (h : s.formed) : (s.dueItem e).formed := by
  unfold State.dueItem
  dsimp only
  split
  · exact State.formed.frame (State.formed.forward (s := { s with time := e.1 }) (h.frame (by rfl))) (by rfl)
  · exact State.formed.frame (State.formed.drained (State.formed.giveUp (s := { s with time := e.1 }) (h.frame (by rfl)))) (by rfl)

theorem State.formed.dueItems {l} (h : s.formed) : (s.dueItems l).formed := h.foldl fun _ h => h.ite h.dueItem

theorem State.formed.forwardBefore {t} (h : s.formed) : (s.forwardBefore t).formed := h.dueItems

theorem State.formed.redUntil {t} (h : s.formed) : (s.redUntil t).formed := h.dueItems

theorem State.formed.overtake {t} (h : s.formed) : (s.overtake t).formed := (h.foldl fun _ h => h.orWait h.dueItem).frame (by rfl)

theorem State.formed.joinNode {x base} {late : State → State} {upd} (h : s.formed) (hl : ∀ {s : State}, s.formed → (late s).formed) :
    (s.joinNode x base late upd).formed := by
  unfold State.joinNode
  dsimp only
  split
  next => exact h.forwardBefore.countConf
  next e =>
    have ho := h.forwardBefore.openNode e
    split
    · exact ho.countConf
    · split
      · exact hl ho
      · exact ho.setNode.tryForward

theorem State.formed.contribute {x c values} (h : s.formed) : (s.contribute x c values).formed := h.joinNode fun h => h.lateArrival

theorem State.formed.subFault {t c} (h : s.formed) : (s.subFault t c).formed := h.setHandle.ite h

theorem State.formed.subDone {id e c} (h : s.formed) : (s.subDone id e c).formed := by
  unfold State.subDone
  dsimp only
  split
  · exact h.handleRead.bump.dropEng.ageNodes.subFault
  · split
    · exact h.handleRead.bump.dropEng.ageNodes.subFault
    · split
      · exact h.handleRead.bump.dropEng.ageNodes.contribute
      · exact h.handleRead.bump.dropEng.ageNodes

theorem State.formed.execContributionPresent {op} (h : s.formed) : Res.formed (execContributionPresent op s) := by
  unfold Machine.execContributionPresent
  refine .next ?_
  split
  · split
    · split
      · exact h
      · exact h.orWait h.subDone
    · exact h
  · exact h

theorem State.formed.execPartialArrival {p} (h : s.formed) : Res.formed (execPartialArrival p s) := by
  unfold Machine.execPartialArrival
  dsimp only
  refine .next ?_
  split
  · exact h.ageNodes
  · split
    · exact h.ageNodes.bump.countConf
    · exact h.ageNodes.bump.orLater (h.ageNodes.bump.joinNode fun h => h.ite h.lateArrival)

theorem State.formed.execNodeForwardingTime {gid chan round} (h : s.formed) : Res.formed (execNodeForwardingTime gid chan round s) := by
  unfold Machine.execNodeForwardingTime
  dsimp only
  refine .next ?_
  split
  · split
    · exact h
    · exact h.orWait (h.redUntil.dueItems.frame (by rfl)).ageNodes
  · exact h

theorem State.formed.execDeliveryArrival {p} (h : s.formed) : Res.formed (execDeliveryArrival p s) := by
  unfold Machine.execDeliveryArrival
  dsimp only
  refine .next ?_
  split
  · exact h.ageNodes
  · split
    · exact h.ageNodes.countConf
    · exact h.ageNodes.orLater h.ageNodes.bump.deliverHere

theorem State.formed.execCorrectionArrival {p} (h : s.formed) : Res.formed (execCorrectionArrival p s) := by
  unfold Machine.execCorrectionArrival
  refine .next ?_
  split
  · exact h.ageNodes
  · exact State.formed.ite (h.ageNodes.orLater h.ageNodes.bump.correctHere) h.ageNodes.countConf

theorem State.formed.execRoundGiveUp {team h'} (h : s.formed) : Res.formed (execRoundGiveUp team h' s) := by
  unfold Machine.execRoundGiveUp
  dsimp only
  refine .next ?_
  refine h.orWait ?_
  split
  · exact h
  · split
    · exact (h.redUntil.frame (by rfl)).ageNodes
    · exact h.drained

theorem State.formed.corrDone {e c} (h : s.formed) : (s.corrDone e c).formed := by
  unfold State.corrDone
  dsimp only
  split
  · exact h.handleWrite
  · split
    · exact h.handleRead.bump.handleWrite
    · split
      · exact h.handleRead.bump.setHandle
      · exact h.handleRead.bump

theorem State.formed.execRedCorrCompletion {op} (h : s.formed) : Res.formed (execRedCorrCompletion op s) := by
  unfold Machine.execRedCorrCompletion
  refine .next ?_
  split
  · split
    · split
      · exact h
      · exact h.orWait h.corrDone.dropEng
    · exact h
  · exact h

/-! ### Sys2Proof/Machine/Special -/

theorem State.formed.clearLkstat (h : s.formed) : s.clearLkstat.formed := by
  unfold State.clearLkstat
  dsimp only
  split
  · exact h
  · exact h.setLink

theorem State.formed.beforeRead {n} (h : s.formed) : (s.beforeRead n).formed := by
  unfold State.beforeRead
  dsimp only
  split
  · exact (h.overtake.frame (by rfl)).modIt
  · exact h

theorem State.formed.afterRead {n} (h : s.formed) : (s.afterRead n).formed := by
  unfold State.afterRead
  split
  · exact h.clearLkstat
  · exact h

theorem State.formed.specialWrite {n y st} (h : st.formed) : (specialWrite n y st).formed := by
  unfold Machine.specialWrite
  dsimp only
  split
  · exact h
  · exact h
  · exact h.later
  · exact h.setFn
  · split
    · exact h.setFn
    · exact h.setFn
  · exact h.frame (by rfl)
  · exact h.later
  · exact h

/-! ### Sys2Proof/Machine/Device -/

theorem State.formed.bringDie {f d} (h : s.formed) : (s.bringDie f d).formed :=
  (h.foldl fun _ h => h.setCore).setDie.report.ite (h.foldl fun _ h => h.setCore).setDie

theorem State.formed.trainLinks {f} (h : s.formed) : (s.trainLinks f).formed := h.foldl fun _ h => h.setLink

theorem State.formed.bringUp {f measure} (h : s.formed) : (s.bringUp f measure).formed :=
  (h.foldl fun _ h => h.bringDie).trainLinks.frame (by rfl)

theorem State.formed.execBoot {f} (h : s.formed) : Res.formed (execBoot f s) :=
  .next (h.bringUp.ite ((h.frame (by rfl)).ite (h.ite (h.bringUp.ite (h.update id id fun _ => rfl)))))

theorem State.formed.execConfigurationRequest {r} (h : s.formed) : Res.formed (execConfigurationRequest r s) := by
  unfold Machine.execConfigurationRequest
  dsimp only
  refine .next ?_
  split
  · exact h
  · exact h.tell
  · exact h.tell
  · exact h.tell
  · split
    · exact h.frame (by rfl)
    · exact h.tell

theorem State.formed.goWritten {store} (h : s.formed) : (s.goWritten store).formed := h.ite ((h.frame (by rfl)).ite (h.frame (by rfl)))

theorem State.formed.execRecoveryVerifyEnd {code flashOk f} (h : s.formed) : Res.formed (execRecoveryVerifyEnd code flashOk f s) :=
  .next (h.ite ((h.frame (by rfl)).ite ((h.frame (by rfl)).ite (h.frame (by rfl)))))

theorem State.formed.goneEngs {p} (h : s.formed) : (s.goneEngs p).formed := by
  unfold State.goneEngs
  refine h.foldl fun _ h => ?_
  split
  · exact h.copyEnd
  · exact h.nmvGone
  · exact h

theorem State.formed.resetEngs {d} (h : s.formed) : (s.resetEngs d).formed :=
  (h.goneEngs.foldl fun _ h => h.cutShort).foldl fun _ h => h.dropEng

theorem State.formed.resetDie {d} (h : s.formed) : (s.resetDie d).formed :=
  h.ite ((h.foldl fun _ h => h.killInstance).frame (by rfl)).loseDie.resetEngs.setDie.setLink.report

theorem State.formed.execComputeDieReset {d} (h : s.formed) : Res.formed (execComputeDieReset d s) := .next (h.resetDie.ite h)

theorem State.formed.losePlace {p} (h : s.formed) : (s.losePlace p).1.formed := (h.goneEngs.frame (by rfl)).foldl fun _ h => h.chargeSlot

theorem State.formed.resetMem {d} (h : s.formed) : (s.resetMem d).formed := h.ite (h.loseStore.losePlace.frame (by rfl)).setLink.report

theorem State.formed.execMemoryDieReset {d} (h : s.formed) : Res.formed (execMemoryDieReset d s) := .next (h.resetMem.ite h)

theorem State.formed.cleared {p} (h : s.formed) : (s.cleared p).formed :=
  h.update (fun _ => rfl) id fun _ => rfl

theorem State.formed.execHubDieReset (h : s.formed) : Res.formed (execHubDieReset s) := .next (h.ite h.cleared)

theorem State.formed.execDieResetEnd {d f} (h : s.formed) : Res.formed (execDieResetEnd d f s) := by
  unfold Machine.execDieResetEnd
  dsimp only
  split
  · exact h.execBoot
  · refine .next ?_
    split
    · exact h.bringDie.setLink
    · exact h
  · refine .next ?_
    split
    · exact (h.frame (by rfl)).setLink.unstall
    · exact h

theorem State.formed.throttle {d} (h : s.formed) : (s.throttle d).formed := h.foldl fun _ h => h.modTele

theorem State.formed.setClock {d} (h : s.formed) : (s.setClock d).formed := h.setDie

theorem State.formed.setClocks (h : s.formed) : s.setClocks.formed := h.foldl fun _ h => h.setClock

theorem State.formed.execThermalShutdownReset {d} (h : s.formed) : Res.formed (execThermalShutdownReset d s) := by
  unfold Machine.execThermalShutdownReset
  split
  · exact h.execHubDieReset
  · exact h.execComputeDieReset
  · exact h.execMemoryDieReset

/-! ### Sys2Proof/Machine/Complete -/

theorem State.formed.endOp {id o} (h : s.formed) : (s.endOp id o).formed := h.frame (by rfl)

theorem State.formed.complete {kind id} (h : s.formed) : (s.complete kind id).formed := by
  unfold State.complete
  split
  · split
    · exact h.endOp
    · exact h
  · exact h

theorem State.formed.execFrameMoveStart {frame dest} (h : s.formed) : Res.formed (execFrameMoveStart frame dest s) := by
  unfold Machine.execFrameMoveStart
  refine .next ?_
  split
  · split
    · exact h
    · exact h.frame (by rfl)
  · exact h

theorem State.formed.execFrameMoveCompletion {frame dest} (h : s.formed) : Res.formed (execFrameMoveCompletion frame dest s) := by
  unfold Machine.execFrameMoveCompletion
  dsimp only
  refine .next ?_
  split
  · exact h
  · split
    · split
      · exact h
      · exact (h.frame (by rfl)).unstall
    · split
      · split
        · exact h
        · exact h.placeFrame.served
      · exact h

theorem State.formed.waitmTrap {gid f cause tsyn ea} (h : s.formed) : (s.waitmTrap gid f cause tsyn ea).formed := h.takeTrap.settleGroup

theorem State.formed.groupPoison {gid} (h : s.formed) : (s.groupPoison gid).formed := h.modTele

theorem State.formed.recheck {gid f ea space n cond k scope} (h : s.formed) :
    (s.recheck gid f ea space n cond k scope).formed := by
  unfold State.recheck
  extract_lets t i unit c at_ s1
  have h1 : s1.formed := h.walked.ite h
  split
  · exact h1.waitmTrap
  · exact h1.groupPoison.waitmTrap
  · exact h
  · exact h1.serve.takeWait
  · split
    · exact h1.waitmTrap
    · have h2 {scope l} : ((s1.acquired c scope).readThrough c l).formed := h1.acquired.readThrough
      exact h2.groupPoison.waitmTrap.ite (h2.readMarks.bump.wakeWhere.ite (h2.bump.modFibre.ite h2.bump))

theorem State.formed.execWaitmRecheck {group fibre} (h : s.formed) : Res.formed (execWaitmRecheck group fibre s) := by
  unfold Machine.execWaitmRecheck
  refine .next ?_
  split
  · exact h.recheck
  · exact h

theorem State.formed.chargeTeam {t} (h : s.formed) : (s.chargeTeam t).formed := h.modTele

theorem State.formed.strikeCopies {k us clean mark} (h : s.formed) (hf : ∀ {s1 : State} x0, s1.formed → (mark x0 s1).formed) :
    (s.strikeCopies k us clean mark).formed :=
  hf _ (h.frame (by rfl)).chargeSlot

theorem State.formed.strikeSector {u} (h : s.formed) : (s.strikeSector u).formed := by
  unfold State.strikeSector
  split
  · exact h.poisonUnits
  · exact h.strikeCopies fun _ h => h.frame (by rfl)

theorem State.formed.strikeLine {l} (h : s.formed) : (s.strikeLine l).formed := by
  unfold State.strikeLine
  dsimp only
  split
  · exact h.poisonLine
  · exact h.strikeCopies fun _ h => h.frame (by rfl)

theorem State.formed.execEccUncorrectable {e} (h : s.formed) : Res.formed (execEccUncorrectable e s) := by
  unfold Machine.execEccUncorrectable
  refine .next ?_
  split
  · split
    · exact h
    · exact h.poisonUnits
  · split
    · exact h
    · exact h.strikeSector
  · split
    · exact h
    · exact h.strikeLine
  · split
    · exact h.poisonLoc.chargeTeam
    · exact h
  · split
    · exact h.foldl fun _ h => h.poisonLoc
    · exact h
  · split
    · exact h.poisonLoc.chargeTeam
    · exact h

/-! ### Sys2Proof/Machine/Control -/

theorem State.formed.transfer {f} (h : s.formed) : Res.formed (transfer s f) := h.terminalWord fun _ _ h => h

theorem State.formed.jumpTo {m x} (h : s.formed) : (jumpTo m x s).1.formed := by
  unfold Machine.jumpTo
  split
  · exact h
  · exact h

theorem State.formed.execLoop {lc cnt len} (h : s.formed) : Res.formed (execLoop lc cnt len s) := by
  unfold Machine.execLoop
  dsimp only
  refine h.terminalWord fun _ _ h => ?_
  split
  · exact h
  · split
    · exact h
    · split
      · exact h
      · exact h

theorem State.formed.execLbrk {lc cond} (h : s.formed) : Res.formed (execLbrk lc cond s) := by
  unfold Machine.execLbrk
  dsimp only
  refine h.terminalWord fun _ _ h => ?_
  split
  · exact h
  · exact h

theorem State.formed.moveWindow {base a imm} (h : s.formed) : Res.formed (moveWindow base a imm s) := h.perMember fun _ _ h => .ite h h

theorem State.formed.indexWord {d src imm f} (h : s.formed) : Res.formed (indexWord d src imm f s) := h.perMember fun _ _ h => h

theorem State.formed.execRett (h : s.formed) : Res.formed (execRett s) := by
  unfold Machine.execRett
  refine h.terminalWord fun _ _ h => ?_
  split
  · exact h
  · exact h

/-! ### Sys2Proof/Machine/CrossLane -/

theorem State.formed.crossWord {ops f} (h : s.formed) : Res.formed (crossWord s ops f) := h.batchWord fun _ _ h => h

theorem State.formed.execVshfl {d a sel} (h : s.formed) : Res.formed (execVshfl d a sel s) := by
  unfold Machine.execVshfl
  exact h.crossWord

/-! ### Sys2Proof/Machine/Launch -/

theorem State.formed.readTcb {fn slot blk} (h : s.formed) : (s.readTcb fn slot blk).1.formed := by
  unfold State.readTcb
  dsimp only
  split
  · exact h
  · exact h.cpRead

theorem State.formed.writeStat {i xs st reason tfail} (h : s.formed) : (s.writeStat i xs st reason tfail).formed := h.cpWrite

theorem State.formed.formSet {fn gsid} (h : s.formed) : (s.formSet fn gsid).formed := h.ite (h.ite (h.frame (by rfl)))

theorem State.formed.makeReady {id} (h : s.formed) : (s.makeReady id).formed := (h.frame (by rfl)).writeStat.formSet

theorem State.formed.ending {id reason} (h : s.formed) : (s.ending id reason).1.formed := (h.frame (by rfl)).forget

theorem State.formed.successors {e} (h : s.formed) : (s.successors e).1.formed := by
  unfold State.successors
  extract_lets b inline_ skip r
  have hr : r.1.formed := h.foldl_fst fun _ h => h.cpRead
  split
  · exact h
  · split
    · exact hr
    · exact hr

theorem State.formed.decrement {fn addr failed} (h : s.formed) : (s.decrement fn addr failed).1.formed := by
  unfold State.decrement
  dsimp only
  split
  · split
    · exact h
    · exact h.frame (by rfl)
  · split
    · exact h.frame (by rfl)
    · exact h

theorem State.formed.drain {n es out} (h : s.formed) : (State.drain n s es out).1.formed := by
  induction n generalizing s es out with
  | zero => exact h
  | succ n ih =>
    cases es with
    | nil => exact h
    | cons e rest =>
      unfold State.drain
      extract_lets st s1 r d _ s2 z
      have hr : r.1.formed := h.writeStat.successors
      have hd : d.1.formed := hr.foldl_fst fun a h => by
        split
        · exact h
        · split
          · exact h
          · exact h.learn.decrement
      have h2 : s2.formed := hd.writeStat.ite hd
      have hz : z.1.formed := h2.foldl_fst fun k h => by
        dsimp only
        split
        · exact h.ending (reason := 6)
        · exact h.makeReady
      exact ih hz

theorem State.formed.setTape {t x} (h : s.formed) : (s.setTape t x).formed := h.frame (by rfl)

theorem State.formed.tapePush {t owner r} (h : s.formed) : (s.tapePush t owner r).1.formed := by
  unfold State.tapePush
  dsimp only
  split
  · exact h
  · split
    · exact h.setTape
    · split
      · exact h
      · split
        · exact h.setTape
        · exact h.setTape

theorem State.formed.ranUntil {t r} (h : s.formed) : (s.ranUntil t r).formed := h.learn.informWaiting.acquired.ite h.learn

theorem State.formed.endRun {t gone} (h : s.formed) : (s.endRun t gone).formed := by
  unfold State.endRun
  dsimp only
  refine State.formed.forget ?_
  split
  · exact h.setTape
  · split
    · exact h.setTape
    · exact h.setTape.freeHandle.ite h.setTape.ranUntil.fillHandle

theorem State.formed.afterFail {e} (h : s.formed) : (s.afterFail e).formed := by
  unfold State.afterFail
  split
  · exact h
  · extract_lets isIt s1
    have h1 : s1.formed := by
      unfold s1
      split
      · exact h.learn.slotRetire
      · exact h
    split
    · exact h1.learn.endRun.ite h1
    · exact h1

theorem State.formed.failAll {e} (h : s.formed) : (s.failAll e).formed := h.drain.foldl fun _ h => h.afterFail

theorem State.formed.writeTable {fn slot at_ ps c} (h : s.formed) : (State.writeTable s fn slot at_ ps c).1.formed := by
  induction ps generalizing s c with
  | nil => exact h
  | cons p ps ih =>
    unfold State.writeTable
    dsimp only
    split
    · exact ih h.cpWrite
    · exact h.cpWrite

theorem State.formed.freeCredit {fn blk} (h : s.formed) : (s.freeCredit fn blk).formed := h.frame (by rfl)

theorem State.formed.submit {o tcb} (h : s.formed) : (s.submit o tcb).1.formed := by
  unfold State.submit
  dsimp only
  split
  · exact h
  · split
    · exact h.freeCredit
    · split
      · split
        · exact h
        · exact h.freeCredit.forget
      · split
        · split
          · exact h.writeTable.freeCredit
          · exact h.writeTable.freeCredit.freeCredit.forget
        · split
          · split
            · exact h.writeTable.freeCredit
            · exact h.writeTable.freeCredit.freeCredit.forget
          · exact (h.writeTable.frame (by rfl)).learn.makeReady.ite (h.writeTable.frame (by rfl)).learn.writeStat

theorem State.formed.rejected {e} (h : s.formed) : (s.rejected e).formed := h.writeStat.ite h.failAll

theorem State.formed.tapeNext {t} (h : s.formed) : (s.tapeNext t).formed := by
  unfold State.tapeNext
  dsimp only
  split
  · exact h
  · split
    · exact h.endRun
    · split
      · exact h.setTape
      · exact h.readTcb.submit.setTape.endRun
      · exact h.readTcb.submit.setTape.endRun.rejected
      · exact h.readTcb.submit.setTape

theorem State.formed.tapeRetired {t} (h : s.formed) : (s.tapeRetired t).formed := by
  unfold State.tapeRetired
  dsimp only
  split
  · exact h
  · refine State.formed.tapeNext ?_
    split
    · exact h.setTape.setHandle.learn
    · exact h.setTape

theorem State.formed.submitWindow {w} (h : s.formed) : (s.submitWindow w).formed := by
  unfold State.submitWindow
  dsimp only
  split
  · exact h.frame (by rfl)
  · exact (h.frame (by rfl)).submit
  · exact (h.frame (by rfl)).submit.forget
  · exact (h.frame (by rfl)).submit.rejected

theorem State.formed.pump (h : s.formed) : s.pump.formed := (h.foldl fun _ h => h.tapeNext).foldl fun _ h => h.submitWindow

theorem State.formed.failedSubmission {e} (h : s.formed) : (s.failedSubmission e).formed := h.rejected.ite h.rejected.pump

theorem State.formed.offerChild {fn slot blk sup prio param} (h : s.formed) :
    (s.offerChild fn slot blk sup prio param).formed := by
  unfold State.offerChild
  extract_lets mine past s1
  have h1 : s1.formed := by
    unfold s1
    split
    · exact h.submitWindow.ite h
    · exact h
  split
  · exact State.formed.ite (State.formed.submitWindow (h1.frame (by rfl))) (h1.frame (by rfl))
  next s2 b _ _ _ =>
    have h2 : s2.formed := by
      unfold s2
      split
      · exact h1.submitWindow.ite h1
      · exact h1
    have hb : b.1.formed := h2.readTcb
    exact hb.frame (by rfl)

theorem State.formed.execLaunch {c a} (h : s.formed) : Res.formed (execLaunch c a s) := by
  refine h.accessEach fun m g h => ?_
  dsimp only
  split
  next e => exact h.readRecord.of_error e
  next e =>
    refine .ite (h.readRecord.of_ok e) ?_
    unfold MRes.formed
    dsimp only
    split
    · exact (h.readRecord.of_ok e).submit.failedSubmission
    · exact (h.readRecord.of_ok e).submit
    · exact (h.readRecord.of_ok e).submit
    · exact (h.readRecord.of_ok e).submit

theorem State.formed.execLagg {a b} (h : s.formed) : Res.formed (execLagg a b s) := by
  unfold Machine.execLagg
  dsimp only
  refine h.accessEach fun _ _ h => ?_
  split
  · exact h.checkRange.checkFails
  · exact h.checkRange.offerChild.learn

theorem State.formed.raiseSlot (h : s.formed) : s.raiseSlot.formed := h.msi

/-! ### Sys2Proof/Machine/Deal -/

theorem State.formed.nextGen {c} (h : s.formed) : (s.nextGen c).1.formed := h.setCore

theorem State.formed.startTeam {id k c} (h : s.formed) : (s.startTeam id k c).formed :=
  (h.frame (by rfl)).clearL1.learn.foldl fun _ h => h.frame (by rfl)

theorem State.formed.freeFrames {fn fs} (h : s.formed) : (s.freeFrames fn fs).formed := h.frame (by rfl)

theorem State.formed.resumeTeam {t c} (h : s.formed) : (s.resumeTeam t c).formed := by
  unfold State.resumeTeam
  extract_lets s1 x old moved ls s2 s3 g s4 slot gids s5 s6 s7 s8
  have h4 : s4.formed := h.clearL1.setCore.freeFrames.nextGen
  have h6 : s6.formed := State.formed.setTeam (h4.foldl fun _ h => h.setGroup)
  have h8 : s8.formed := State.formed.foldl (h6.foldl fun _ h => h.setGroup.noteParked) fun _ h => h.lock
  refine h8.foldl fun _ h => ?_
  split
  · exact h
  · exact h.enqueue.setEng

theorem State.formed.placeTeam {id k c} (h : s.formed) : (s.placeTeam id k c).formed := by
  unfold State.placeTeam
  split
  · exact h.resumeTeam
  · exact h.startTeam

theorem State.formed.setCursor {fn shared j} (h : s.formed) : (s.setCursor fn shared j).formed := (h.frame (by rfl)).ite h.setFn

theorem State.formed.dealOne {d k} (h : s.formed) (e : s.dealOne d k = some t) : t.formed := by
  unfold State.dealOne at e
  dsimp only at e
  split at e
  · cases e
  · cases e
    exact h.placeTeam.setCursor

theorem State.formed.dealSet {d ks} (h : s.formed) (e : s.dealSet d ks = some t) : t.formed := by
  unfold State.dealSet at e
  dsimp only at e
  split at e
  · cases e
  · cases e
    exact State.formed.setCursor (h.foldl fun _ h => h.placeTeam)

theorem State.formed.dealRange {d hi n k} (h : s.formed) (e : State.dealRange d hi n k s = some t) : t.formed := by
  induction n generalizing s t k with
  | zero =>
    cases e
    exact h
  | succ n ih =>
    unfold State.dealRange at e
    dsimp only at e
    split at e
    · cases e
      exact h
    · split at e
      · split at e
        · exact ih h e
        · exact .bind (fun _ => h.dealOne) (fun _ _ h => ih h) e
      · split at e
        · exact ih h e
        · exact .bind (fun _ => h.dealSet) (fun _ _ h => ih h) e

theorem State.formed.dealUnit {d k} (h : s.formed) (e : s.dealUnit d k = some t) : t.formed := by
  unfold State.dealUnit at e
  dsimp only at e
  split at e
  · exact h.dealRange e
  · exact .findSome (fun _ _ => h.dealRange) e

theorem State.formed.dealAll {d n k} (h : s.formed) (e : State.dealAll d n k s = some t) : t.formed := by
  induction n generalizing s t k with
  | zero =>
    cases e
    exact h
  | succ n ih =>
    unfold State.dealAll at e
    dsimp only at e
    split at e
    · cases e
      exact h
    · exact .bind (fun _ => h.dealUnit) (fun _ _ h => ih h) e

theorem State.formed.dealFirst {d} (h : s.formed) (e : s.dealFirst d = some t) : t.formed := by
  unfold State.dealFirst at e
  dsimp only at e
  split at e
  · exact h.dealAll e
  · exact h.dealUnit e

theorem State.formed.letIn {fn shared ids} (h : s.formed) (e : s.letIn fn shared ids = some t) : t.formed := by
  unfold State.letIn at e
  obtain ⟨u, hu, rfl⟩ := Option.map_eq_some_iff.1 e
  refine State.formed.foldl (h.foldl_bind (fun _ _ _ h => ?_) hu) fun _ h => h.writeStat
  exact State.formed.dealFirst (h.frame (by rfl))

theorem State.formed.emptied (h : s.formed) : s.emptied.formed := h.frame (by rfl)

theorem State.formed.requestStop {t} (h : s.formed) : (s.requestStop t).formed := h.foldl fun _ h => h.setTeam

theorem State.formed.preemptFor {fn shared prio} (h : s.formed) : (s.preemptFor fn shared prio).formed := by
  unfold State.preemptFor
  dsimp only
  split
  · exact h
  · split
    · exact h
    · exact h.foldl fun _ h => h.requestStop

theorem State.formed.placeParty {fn shared p} (h : s.formed) (e : s.placeParty fn shared p = some t) : t.formed := by
  unfold State.placeParty at e
  split at e
  · dsimp only at e
    split at e
    · exact h.foldl_bind (fun _ _ _ h => h.dealAll) e
    · exact h.dealUnit e
  · exact h.dealUnit e
  · exact h.letIn e

theorem State.formed.preemptLater {t} (h : s.formed) : (s.preemptLater t).formed := h.ite (h.foldl fun _ h => h.requestStop)

theorem State.formed.firstFit {fn shared p} (h : s.formed) (e : s.firstFit fn shared = some (p, t)) : t.formed := by
  unfold State.firstFit at e
  obtain ⟨q, -, hq⟩ := List.exists_of_findSome?_eq_some e
  obtain ⟨u, hu, hp⟩ := Option.map_eq_some_iff.1 hq
  obtain ⟨-, rfl⟩ := Prod.mk.inj hp
  exact h.placeParty hu

theorem State.formed.turnAway {ids reason} (h : s.formed) : (s.turnAway ids reason).formed :=
  h.orWait (h.foldl fun _ h => h.ending.failAll).pump

theorem State.formed.execInstanceAdmission {fn shared} (h : s.formed) : Res.formed (execInstanceAdmission fn shared s) := by
  unfold Machine.execInstanceAdmission
  refine .next ?_
  dsimp only
  split
  · exact h
  · split
    · exact h.turnAway
    · split
      · exact h
      · split
        · exact h
        · split
          next e => exact h.orWait (h.firstFit e)
          next => exact h.ite (h.turnAway.ite h.preemptFor)

theorem State.formed.execTeamDeal {fn shared} (h : s.formed) : Res.formed (execTeamDeal fn shared s) := by
  unfold Machine.execTeamDeal
  refine .next (h.ite ?_)
  split
  next e => exact h.firstFit e
  next => exact h

theorem State.formed.execTeamResume {team} (h : s.formed) : Res.formed (execTeamResume team s) := by
  unfold Machine.execTeamResume
  refine .next (h.ite (h.killInstance.ite ?_))
  split
  next e => exact (h.firstFit e).ite h
  next => exact h.preemptLater.ite h

theorem State.formed.execSharedTurnEnd (h : s.formed) : Res.formed (execSharedTurnEnd s) := by
  unfold Machine.execSharedTurnEnd
  dsimp only
  refine .next ?_
  split
  · exact h
  · exact (h.foldl fun _ h => h.requestStop).frame (by rfl)

/-! ### Sys2Proof/Machine/Image -/

theorem State.formed.takeFrames {fn n fs} (h : s.formed) (e : s.takeFrames fn n = some (fs, t)) : t.formed := by
  unfold State.takeFrames at e
  split at e
  · cases e
  · refine foldl_keeps (fun o : Option (List Nat × State) => ∀ r, o = some r → r.2.formed) _ (fun o _ ho r hr => ?_) _ ?_ _ e
    · obtain ⟨x, hx, hy⟩ := Option.bind_eq_some_iff.1 hr
      obtain ⟨f, hf, rfl⟩ := Option.map_eq_some_iff.1 hy
      exact (ho x hx).takeFrame hf
    · rintro r ⟨⟩
      exact h

theorem State.formed.writeImage {key fs bs} (h : s.formed) : (s.writeImage key fs bs).formed := h.foldl fun _ h => h.homeWrite

/-! ### Sys2Proof/Machine/Teams -/

theorem State.formed.retirePush {i} (h : s.formed) : (s.retirePush i).1.formed := by
  unfold State.retirePush
  split
  · exact h
  · exact h.foldl_fst fun _ h => h.tapePush

theorem State.formed.afterRetire {e} (h : s.formed) : (s.afterRetire e).formed := by
  unfold State.afterRetire
  split
  · exact h
  · extract_lets isIt s1
    have h1 : s1.formed := by
      unfold s1
      split
      · exact h.learn.slotRetire
      · exact h
    split
    · exact h1.learn.tapeRetired.ite h1
    · exact h1

theorem State.formed.freeInstance {id} (h : s.formed) : (s.freeInstance id).formed := h.frame (by rfl)

theorem State.formed.endInstance {id} (h : s.formed) : (s.endInstance id).formed := by
  unfold State.endInstance
  extract_lets i e s1 p _ r
  have h1 : s1.formed := h.freeInstance.forget
  have hp : p.1.formed := by
    unfold p
    split
    · exact h1.msi
    · exact (h1.learn.ite h1).retirePush
  have hr : r.1.formed := hp.drain
  exact State.formed.pump (hr.foldl fun _ h => h.afterFail.ite h.afterRetire)

theorem State.formed.execAggWindowTimeout {fn blk} (h : s.formed) : Res.formed (execAggWindowTimeout fn blk s) := by
  unfold Machine.execAggWindowTimeout
  refine .next ?_
  split
  · exact h.orWait h.overtake.submitWindow
  · exact h

theorem State.formed.freeFull {t} (h : s.formed) : (s.freeFull t).formed := h.setTeam

theorem State.formed.stopTeam {t frames image} (h : s.formed) : (s.stopTeam t frames image).formed :=
  (h.setFn.freeFull.writeImage.frame (by rfl)).bump.foldl fun _ h => h.setGroup.bump

theorem State.formed.execTeamStop {team} (h : s.formed) : Res.formed (execTeamStop team s) := by
  unfold Machine.execTeamStop
  refine .next (h.ite ?_)
  dsimp only
  split
  next e => exact (h.takeFrames e).stopTeam
  next => exact h.killInstance

theorem State.formed.strike {t} (h : s.formed) : (s.strike t).formed := (h.frame (by rfl)).killInstance.ite (h.frame (by rfl)).requestStop

theorem State.formed.expire {group f} (h : s.formed) : (s.expire group f).formed := h.setGroup.strike.ite h.setGroup.takeTrap.settleGroup

theorem State.formed.execWatchdogExpiry {group} (h : s.formed) : Res.formed (execWatchdogExpiry group s) := by
  unfold Machine.execWatchdogExpiry
  dsimp only
  refine .next ?_
  split
  · exact h
  · split
    · exact h.setGroup
    · exact h.expire

theorem State.formed.degrade {c} (h : s.formed) : (s.degrade c).formed := h.ite (h.setCore.countDie.foldl fun _ h => h.requestStop).report

/-! ### Sys2Proof/Machine/Queue -/

theorem State.formed.ringBytes {g} (h : s.formed) : (s.ringBytes g).1.formed := by
  unfold State.ringBytes
  dsimp only
  split
  · exact h.cpRead
  · exact h

theorem State.formed.passed {g} (h : s.formed) : (s.passed g).formed := h.setSlot

theorem State.formed.retireNow {g irq} (h : s.formed) : (s.retireNow g irq).formed := h.passed.msi.ite h.passed

theorem State.formed.startWork {g w} (h : s.formed) : (s.startWork g w).formed := h.passed.setSlot

theorem State.formed.commandError {g code} (h : s.formed) : (s.commandError g code).formed := h.slotError

theorem State.formed.fencePosts {g} (h : s.formed) : (s.fencePosts g).formed := h.setFn.learn

theorem State.formed.runCommand {opc g k} (h : s.formed) (hf : ∀ {s0 : State} x1, s0.formed → (k s0 x1).formed) :
    Res.formed (runCommand opc g s k) := by
  unfold Machine.runCommand
  dsimp only
  refine .next ?_
  refine h.orWait ?_
  split
  · exact h
  · split
    · exact h.ringBytes.commandError
    · split
      · exact h.ringBytes.commandError
      · split
        · exact h
        · split
          · exact h
          · exact hf _ (h.ringBytes.fencePosts.ite h.ringBytes)

theorem State.formed.execLaunchCommand {slot} (h : s.formed) : Res.formed (execLaunchCommand slot s) := by
  unfold Machine.execLaunchCommand
  dsimp only
  refine h.runCommand fun _ h => ?_
  split
  · exact h
  · exact h.readTcb.submit.commandError
  · exact h.readTcb.submit.failedSubmission.retireNow
  · exact h.readTcb.submit.startWork

theorem State.formed.waitRead {g a v irq} (h : s.formed) : (s.waitRead g a v irq).formed := by
  unfold State.waitRead
  dsimp only
  split
  · split
    · exact h.cpRead.setSlot.msi
    · exact h.cpRead.setSlot.commandError
  · split
    · split
      · exact h.cpRead.setSlot.learn.msi
      · exact h.cpRead.setSlot.learn
    · exact h.cpRead.setSlot

theorem State.formed.execWaitgePoll {slot} (h : s.formed) : Res.formed (execWaitgePoll slot s) := by
  unfold Machine.execWaitgePoll
  dsimp only
  refine .next ?_
  split
  · split
    · exact h
    · exact h.orWait h.waitRead
  · exact h

theorem State.formed.keyCommand {opc slot need k} (h : s.formed) (hf : ∀ {s0 : State} x1 x2, s0.formed → (k s0 x1 x2).formed) :
    Res.formed (keyCommand opc slot need s k) :=
  h.runCommand fun _ h => h.commandError.ite (hf _ _ h)

theorem State.formed.liven {g key} (h : s.formed) : (s.liven g key).formed := h.setKey

theorem State.formed.execKeyimp {slot unwrapped} (h : s.formed) : Res.formed (execKeyimp slot unwrapped s) := by
  unfold Machine.execKeyimp
  refine h.keyCommand fun c g h => ?_
  extract_lets fn rd r
  refine h.commandError.ite ?_
  have hr : r.1.formed := by
    unfold r
    split
    · exact h
    · exact h.foldl_fst fun _ h => h.cpRead
  refine hr.commandError.ite ?_
  split
  · exact hr.commandError
  · exact hr.liven.retireNow

/-- A key slot and the tapes alone have changed. -/
theorem State.formed.setKeyTapes {g x ts} (h : s.formed) : State.formed { s.setKey g x with tapes := ts } := h.frame (by rfl)

theorem State.formed.eraseKey {g} (h : s.formed) : (s.eraseKey g).formed := by
  unfold State.eraseKey
  exact h.dropKey.setKeyTapes

/-! ### Sys2Proof/Machine/Host -/

theorem State.formed.writeFeata {fn v} (h : s.formed) : (s.writeFeata fn v).formed := h.ite (h.setFn.ite h.setFn)

theorem State.formed.resetStart {fn} (h : s.formed) : (s.resetStart fn).formed := h.setFn.served.foldl fun _ h => h.requestStop

theorem State.formed.dropOwn {fn} (h : s.formed) : (s.dropOwn fn).formed := h.frame (by rfl)

theorem State.formed.resetWork {fn} (h : s.formed) : (s.resetWork fn).formed := by
  unfold State.resetWork
  extract_lets mine s1 s2 ids inQ inK tape s3 s4
  have h1 : s1.formed := h.foldl fun _ h => h.cutShort
  have h3 : s3.formed := State.formed.dropOwn (h1.endEngs.foldl fun _ h => h.freeInstance)
  have h4 : s4.formed := h3.frame (by rfl)
  exact h4.served.unstall.ageNodes

theorem State.formed.resetEnd {fn} (h : s.formed) : (s.resetEnd fn).formed := by
  unfold State.resetEnd
  extract_lets f s1 s2 s3 s4 f1
  have h1 : s1.formed := h.foldl fun _ h => h.eraseKey
  have h2 : s2.formed := h1.dropLeaves
  have h3 : s3.formed := h2.frame (by rfl)
  have h4 : s4.formed := h3.foldl fun _ h => h.setDie
  exact h4.setFn.pump

theorem State.formed.functionReset {fn} (h : s.formed) : (s.functionReset fn).formed :=
  (h.resetStart.ite h).ite ((h.resetWork.resetEnd.ite h).ite ((h.setFn.foldl fun _ h => h.ite h.resetStart).ite h.resetStart))

theorem State.formed.execFunctionResetTimeout {fn inst} (h : s.formed) : Res.formed (execFunctionResetTimeout fn inst s) :=
  .next (h.killInstance.ite h)

theorem State.formed.zeroDies {dies} (h : s.formed) : (s.zeroDies dies).formed := h.foldl fun _ h => h.setDie

theorem State.formed.writeVfctl {v} (h : s.formed) : (s.writeVfctl v).formed := by
  unfold State.writeVfctl
  extract_lets sel f s1
  have h1 : s1.formed := h.ite ((h.ite (h.setFn.ite h.setFn.zeroDies)).ite (h.setFn.zeroDies.ite h))
  exact h.ite (h1.resetStart.ite h1)

theorem State.formed.writeVfres {second v} (h : s.formed) : (s.writeVfres second v).formed := h.ite (h.ite h.setFn)

theorem State.formed.writeQctl {fn v} (h : s.formed) : (s.writeQctl fn v).formed := by
  unfold State.writeQctl
  dsimp only
  split
  · exact h
  · split
    · exact h
    · split
      · split
        · exact h.setSlot.slotError
        · exact h.setSlot
      · exact h.setSlot

theorem State.formed.ring {fn q value} (h : s.formed) : (s.ring fn q value).formed := h.ite (h.slotError.ite h.setSlot)

theorem State.formed.writeSlotReg {fn off v} (h : s.formed) : (s.writeSlotReg fn off v).formed := by
  unfold State.writeSlotReg
  dsimp only
  split
  · exact h
  · split
    · exact h.setSlot
    · split
      · exact h.setSlot
      · exact h

theorem State.formed.writeWindow {off v} (h : s.formed) : (s.writeWindow off v).formed :=
  have hslot := h.ite h.setSlot
  have hrate := h.ite h.setFn
  have hcap := State.formed.ite (h.frame (by rfl)) h
  have hfn := h.ite (h.writeVfres.ite (h.writeVfres.ite (h.writeVfctl.ite (hrate.ite hcap))))
  (h.frame (by rfl)).ite ((h.frame (by rfl)).ite (hslot.ite hfn))

theorem State.formed.writeRecovery {off v} (h : s.formed) : (s.writeRecovery off v).formed :=
  (h.frame (by rfl)).ite ((h.goWritten.ite (h.frame (by rfl))).ite h)

theorem State.formed.execRegisterWrite {fn off value} (h : s.formed) : Res.formed (execRegisterWrite fn off value s) := by
  unfold Machine.execRegisterWrite
  dsimp only
  refine .next ?_
  split
  · exact h
  · split
    · split
      · exact h.writeRecovery
      · exact h
    · split
      · exact h.writeFeata
      · split
        · exact h.setFn
        · split
          · exact h.writeQctl
          · split
            · exact h.writeSlotReg
            · split
              · exact h.setFn
              · split
                · exact h.ring
                · split
                  · exact h.writeWindow
                  · exact h
    · exact h

theorem State.formed.countDrop {fn} (h : s.formed) : (s.countDrop fn).formed := h.setFn

theorem State.formed.countAbort {fn off} (h : s.formed) : (s.countAbort fn off).formed := h.setFn.tell

theorem State.formed.bar2Places {fn slot kind ps} (h : s.formed) : (State.bar2Places fn slot kind ps s).1.formed := by
  induction ps generalizing s with
  | nil => exact h
  | cons p ps ih =>
    unfold State.bar2Places
    dsimp only
    split
    · exact h.cpPlace
    · exact ih h.cpPlace

theorem State.formed.execBar2Read {fn off n} (h : s.formed) : Res.formed (execBar2Read fn off n s) := by
  unfold Machine.execBar2Read
  dsimp only
  refine .next ?_
  split
  · split
    · exact h.tell
    · exact h
  · split
    · exact h
    · split
      · exact h.countAbort
      · refine h.orLater ?_
        split
        · exact h.bar2Places.countAbort
        · exact ((h.bar2Places.foldl fun _ h => h.askLoc).modTele.ite (h.bar2Places.foldl fun _ h => h.askLoc)).bump.tell
  · exact h

theorem State.formed.execBar2Write {fn off bytes poisoned} (h : s.formed) : Res.formed (execBar2Write fn off bytes poisoned s) := by
  unfold Machine.execBar2Write
  refine .next ?_
  split
  · exact h.ite (h.update id id (writeZ_wf _ _ _))
  · refine h.ite (h.countDrop.ite (h.orLater ?_))
    have hr := h.foldl_fst (l := s.bar2Pieces fn off bytes.length) (b := (true, bytes))
      (f := fun acc p => ((acc.1.cpWrite fn (s.fn fn).qbase p.1 (acc.2.2.take p.2)).1,
        acc.2.1 && (acc.1.cpWrite fn (s.fn fn).qbase p.1 (acc.2.2.take p.2)).2, acc.2.2.drop p.2)) fun _ h => h.cpWrite
    exact hr.ite hr.countDrop
  · exact h

theorem State.formed.refill {fn} (h : s.formed) : (s.refill fn).formed := h.ite (h.frame (by rfl))

theorem State.formed.execMeterTick (h : s.formed) : Res.formed (execMeterTick s) := by
  unfold Machine.execMeterTick
  refine .next (h.ite ?_)
  extract_lets s1 waits order s2
  have h2 : s2.formed := h.overtake.foldl fun _ h => h.refill
  clear_value s2 order
  split
  · exact h2
  · refine State.formed.foldl (h2.frame (by rfl)) fun _ h => ?_
    split
    · exact h.copyChunk
    · exact h

theorem State.formed.spdm {fn code param f} (h : s.formed) : (s.spdm fn code param f).formed := h.setFn.tell.ite h

theorem State.formed.spdmError {fn reason} (h : s.formed) : (s.spdmError fn reason).formed := h.spdm

theorem State.formed.spdmStep {fn code ok f} (h : s.formed) : (s.spdmStep fn code ok f).formed := h.spdm.ite h.spdmError

theorem State.formed.spdmAnswer {fn code ok} (h : s.formed) : (s.spdmAnswer fn code ok).formed := h.spdmStep

theorem State.formed.execSpdmGetMeasurements {fn idx} (h : s.formed) : Res.formed (execSpdmGetMeasurements fn idx s) := by
  unfold Machine.execSpdmGetMeasurements
  dsimp only
  refine .next ?_
  split
  · split
    · exact h.spdmAnswer.tell
    · exact h.spdmAnswer
  · exact h.spdmAnswer

/-! ### Sys2Proof/Machine/Links -/

theorem State.formed.electMaster (h : s.formed) : s.electMaster.formed := h.frame (by rfl)

theorem State.formed.losePackages {lost} (h : s.formed) : (s.losePackages lost).formed :=
  ((h.goneEngs.frame (by rfl)).foldl fun _ h => h.report).electMaster

theorem State.formed.flushGroup {gid id fl ok} (h : s.formed) : (s.flushGroup gid id fl ok).formed :=
  h.setGroup.ite (h.foldl fun _ h => h.takeTrap)

theorem State.formed.signalWrite {g w f} (h : s.formed) : (s.signalWrite g w f).formed := by
  have hw : State.formed { s with hostMem := writeZ s.hostMem f.addr (leBytes 8 f.value.toNat) } :=
    h.update id (writeZ_wf _ _ _) id
  exact hw.slotRetire.ite (h.cpWrite.slotRetire.ite h.cpWrite.slotFail)

theorem State.formed.endFlush {id ok} (h : s.formed) : (s.endFlush id ok).formed := by
  unfold State.endFlush
  split
  · exact h
  · extract_lets s1 x s2 s3
    have h1 : s1.formed := h.frame (by rfl)
    have h2 : s2.formed := h1.setFn.ite h1
    have h3 : s3.formed := h2.elim fun _ => h2.flushGroup
    exact h3.elim fun _ => h3.signalWrite.ite h3.slotFail

theorem State.formed.execPortDown {l lost} (h : s.formed) : Res.formed (execPortDown l lost s) := by
  unfold Machine.execPortDown
  refine .next (h.ite ?_)
  dsimp only
  split
  · split
    · exact h.setLink.resetDie
    · exact h.setLink.resetMem
  · exact h.setLink.foldl fun _ h => h.endFlush
  · exact h.setLink.losePlace
  · exact h.losePackages.setLink

theorem State.formed.execCxlPoisonResponse {pa} (h : s.formed) : Res.formed (execCxlPoisonResponse pa s) := by
  unfold Machine.execCxlPoisonResponse
  refine .next ?_
  split
  · exact h.poisonUnits
  · exact h

theorem State.formed.remotePlace {frame} (h : s.formed) : (s.remotePlace frame).formed := by
  unfold State.remotePlace
  dsimp only
  split
  · exact h.frame (by rfl)
  · split
    · exact h
    · split
      · exact h.frame (by rfl)
      · split
        · exact h
        · exact h.frame (by rfl)

theorem State.formed.serveRemote {slot a r} (h : s.formed) : (s.serveRemote slot a r).formed := by
  cases r with
  | read n => exact h.homeRead.send.bump
  | write bs => exact h.homeWrite
  | clean => exact h.cleanLine
  | fetch => exact h.evictOther.touchRange
  | atomic tag op wd x e =>
    simp only [State.serveRemote]
    split
    · exact h.send
    · exact h.homeRead.send.ite (h.evictRange.homeRead.send.bump.homeWrite.frame (by rfl))

theorem State.formed.regainPackages {peers} (h : s.formed) : (s.regainPackages peers).formed := (h.frame (by rfl)).electMaster

theorem renumber_sorted {V : Type} (t : Tab V) (unit old new : Nat) : Tab.sorted (renumber t unit old new) = true := by
  unfold renumber
  refine foldl_keeps (fun m : Tab V => Tab.sorted m = true) _ (fun m e hm => ?_) t rfl
  split
  · exact Tab.sorted_put m _ _ hm
  · exact Tab.sorted_put m _ _ hm

theorem State.formed.execDomainJoin {pkg npkg time peers} (h : s.formed) : Res.formed (execDomainJoin pkg npkg time peers s) :=
  .next (h.ite (h.regainPackages.ite (h.ite (State.formed.electMaster (h.update (fun _ => renumber_sorted _ _ _ _) id id)))))

/-! ### Sys2Proof/Machine/Products -/

theorem State.formed.execCopyChunk {op} (h : s.formed) : Res.formed (execCopyChunk op s) := by
  unfold Machine.execCopyChunk
  refine .next ?_
  split
  · split
    · exact h.copyChunk
    · exact h
  · exact h

theorem State.formed.execNmvCompletion {op} (h : s.formed) : Res.formed (execNmvCompletion op s) := by
  unfold Machine.execNmvCompletion
  refine .next ?_
  split
  · split
    · exact h.nmvStep
    · exact h
  · exact h

theorem State.formed.acceptEntry {core id rest} (h : s.formed) : (s.acceptEntry core id rest).formed := by
  unfold State.acceptEntry
  dsimp only
  split
  · exact h.setCore.setEng
  · exact h.setCore

theorem State.formed.execEngineQueueResend {c} (h : s.formed) : Res.formed (execEngineQueueResend c s) := by
  unfold Machine.execEngineQueueResend
  dsimp only
  refine .next ?_
  split
  · exact h
  · split
    · exact h.acceptEntry
    · exact h.setCore

theorem State.formed.modHolders {e f} (h : s.formed) : (s.modHolders e f).formed := h.ite h.setGroup

theorem State.formed.engMarked {e unit} (h : s.formed) : (s.engMarked e unit).formed := h.engPoison.elim fun _ => h.engPoison.modHolders

theorem State.formed.setTile {t k x} (h : s.formed) : (s.setTile t k x).formed := h.setTeam

theorem State.formed.moveDone {e x2} (h : s.formed) : (s.moveDone e x2).formed := by
  unfold State.moveDone
  dsimp only
  split
  · exact h.setTile
  · split
    · exact h.engMarked
    · exact h.bump.setTile
  · exact h.engWrite
  · split
    · exact h
    · exact h.setGroup
  · exact h.setTile

theorem State.formed.execAccumulatorMoveCompletion {op} (h : s.formed) : Res.formed (execAccumulatorMoveCompletion op s) := by
  unfold Machine.execAccumulatorMoveCompletion
  refine .next ?_
  split
  · split
    · split
      · exact h
      · exact h.moveDone.dropEng
    · exact h
  · exact h

theorem State.formed.mmaBarred {e m} (h : s.formed) (k : s.mmaBarred e m = some t) : t.formed := by
  unfold State.mmaBarred at k
  split at k
  · cases k
  · refine .findSome (fun a t k => ?_) k
    dsimp only at k
    split at k
    · cases k
      exact h.walked
    · cases k
      exact h.walked.serve
    · cases k

theorem State.formed.mmaFetch {e m} (h : s.formed) : (s.mmaFetch e m).formed :=
  ((h.fetchElems.foldl fun _ h => h.askRange).fetchElems.foldl fun _ h => h.askRange).ite h

theorem State.formed.modCore {c f} (h : s.formed) : (s.modCore c f).formed := h.setCore

theorem State.formed.vgMismatch {c} (h : s.formed) : (s.vgMismatch c).formed := h.countDie.setCore.degrade.ite h.countDie.setCore

theorem State.formed.setCheck {e m x} (h : s.formed) : (s.setCheck e m x).formed := h.setTeam

theorem State.formed.thatched {e m} (h : s.formed) : (s.thatched e m).formed := h.ite h.modCore

theorem State.formed.noteFailed {id e} (h : s.formed) : (s.noteFailed id e).formed := h.report.ite h.setGroup

theorem State.formed.mmaFail {id e m v} (h : s.formed) : (s.mmaFail id e m v).formed :=
  (h.tally.setCheck.elim fun _ => h.tally.setCheck.modHolders).noteFailed.thatched.dropEng

theorem State.formed.mmaOver {id e m ps sampled} (h : s.formed) : (s.mmaOver id e m ps sampled).formed :=
  h.dropEng.ite (h.countDie.dropEng.ite h.setCore.setEng.bump)

theorem State.formed.mmaAccept {id e m o w unl sampled} (h : s.formed) : (s.mmaAccept id e m o w unl sampled).formed :=
  (h.setTile.ite h.setTile.setGroup).setCheck.thatched.mmaOver

theorem State.formed.mmaPoison {id e m unit} (h : s.formed) : (s.mmaPoison id e m unit).formed := h.setCheck.engMarked.dropEng

theorem State.formed.mmaAgain {id e m} (h : s.formed) : (s.mmaAgain id e m).formed := h.setEng

theorem State.formed.mmaRetry {id e m o w v} (h : s.formed) : (s.mmaRetry id e m o w v).formed :=
  h.tally.mmaAccept.ite ((h.tally.modCore.ite h.tally).mmaAgain.ite (h.mmaAgain.ite h.mmaFail))

theorem State.formed.mmaCorrect {id e m o w i j sampled} (h : s.formed) : (s.mmaCorrect id e m o w i j sampled).formed := by
  unfold State.mmaCorrect
  dsimp only
  split
  · exact h.tally.modCore.mmaAccept
  · exact h.tally.modCore.mmaRetry

theorem State.formed.mmaOutcome {id e m o w sampled} (h : s.formed) : (s.mmaOutcome id e m o w sampled).formed := by
  unfold State.mmaOutcome
  dsimp only
  split
  · split
    · exact h.tally.modCore.mmaAccept
    · exact h.tally.modCore.mmaFail
  · split
    · exact h.mmaAccept
    · split
      · exact h.mmaRetry
      · exact h.mmaCorrect
    · exact h.mmaRetry

theorem State.formed.mmaRun {id e m o errs sampled} (h : s.formed) : (s.mmaRun id e m o errs sampled).formed :=
  ((h.ite h.setCore).bump.tally.vgMismatch.ite (h.ite h.setCore).bump.tally).mmaOutcome

theorem State.formed.mmaStep {id e m errs sampled} (h : s.formed) : (s.mmaStep id e m errs sampled).formed := by
  unfold State.mmaStep
  split
  next k => exact h.mmaBarred k
  next =>
    dsimp only
    split
    · exact h.mmaFetch.bump.mmaPoison
    · split
      · split
        · exact h.mmaFetch.bump.setEng.modCore.mmaRun
        · exact h.mmaFetch.bump.setEng.modCore.setEng
      · exact h.mmaFetch.bump.setEng.modCore.mmaRun

theorem State.formed.execTileProductAttemptEnd {op errs sampled} (h : s.formed) :
    Res.formed (execTileProductAttemptEnd op errs sampled s) := by
  unfold Machine.execTileProductAttemptEnd
  refine .next ?_
  split
  · split
    · split
      · exact h
      · exact h.mmaStep
    · exact h
  · exact h

theorem State.formed.auditMiss {e m xs} (h : s.formed) : (s.auditMiss e m xs).formed := h.tally.report.ite h.tally.setGroup

theorem State.formed.execAuditEnd {op errs} (h : s.formed) : Res.formed (execAuditEnd op errs s) := by
  unfold Machine.execAuditEnd
  refine .next ?_
  split
  · split
    · refine h.ite ?_
      split
      next k => exact h.mmaBarred k
      next => exact h.mmaFetch.bump.countDie.dropEng.ite h.mmaFetch.bump.countDie.dropEng.auditMiss
    · exact h
  · exact h

theorem State.formed.auditTrap {group f k} (h : s.formed) : (s.auditTrap group f k).formed := h.modFibre.takeTrap.settleGroup

theorem State.formed.deliverDue {group} (h : s.formed) : (s.deliverDue group).formed := by
  unfold State.deliverDue
  dsimp only
  split
  · exact h
  · split
    · exact h.setGroup.auditTrap
    · exact h.setGroup.expire
    · exact h.setGroup

/-! ### Sys2Proof/Machine/RedWords -/

theorem State.formed.redWord {h' ok k} (h : s.formed) (hf : ∀ {s2 : State} x0 x1 x3, s2.formed → (k x0 x1 s2 x3).formed) :
    Res.formed (redWord s h' ok k) :=
  h.accessEach fun _ _ h => .ite (hf _ _ _ h.redUntil) h.redUntil.handleError

theorem State.formed.execRedSub {h' a space} (h : s.formed) : Res.formed (execRedSub h' a space s) := by
  unfold Machine.execRedSub
  dsimp only
  refine h.redWord fun _ _ _ h => ?_
  split
  · exact h.handleError
  · split
    · exact h.checkRange.checkFails
    · exact h.checkRange.withRoom h.checkRange.modRed.addFree

theorem State.formed.execRedCorr {h' b space sel} (h : s.formed) : Res.formed (execRedCorr h' b space sel s) := by
  unfold Machine.execRedCorr
  dsimp only
  refine h.redWord fun _ _ _ h => ?_
  split
  · exact h.checkRange.checkFails
  · exact h.checkRange.withRoom h.checkRange.modRed.addFree

theorem State.formed.openRound {t h' n x} (h : s.formed) : (s.openRound t h' n x).formed := by
  unfold State.openRound
  dsimp only
  refine State.formed.redUntil ?_
  split
  · exact h.setHandle.forwardBefore.startNode.tryForward
  · exact h.setHandle.forwardBefore.startNode

theorem State.formed.bindRed {h' x slot r} (h : s.formed) : (s.bindRed h' x slot r).formed := (h.frame (by rfl)).lockAll.lockAll.openRound

theorem State.formed.execRedOpen {h' b} (h : s.formed) : Res.formed (execRedOpen h' b s) := by
  refine h.accessEach fun m g h => .ite h.redUntil.ageNodes.handleError ?_
  split
  next e => exact h.redUntil.ageNodes.readRecord.of_error e
  next e =>
    have h1 := h.redUntil.ageNodes.readRecord.of_ok e
    refine .ite h1.redTrap ?_
    split
    · exact h1.redTrap
    · exact .ite h1.redTrap (.ite h1.redTrap (h1.withRoom h1.bindRed))

theorem State.formed.endCorr {id e} (h : s.formed) : (s.endCorr id e).formed := by
  unfold State.endCorr
  split
  · split
    · exact h.frame (by rfl)
    · exact h.corrDone.dropEng
  · exact h

theorem State.formed.leaveRound {t h'} (h : s.formed) : (s.leaveRound t h').formed := h.foldl fun _ h => h.ite h.endCorr

/-! ### Sys2Proof/Machine/Scalar -/

theorem State.formed.scalar2 {d a b f} (h : s.formed) : Res.formed (scalar2 d a b f s) := h.scalarWord

theorem State.formed.scalar1 {d a f} (h : s.formed) : Res.formed (scalar1 d a f s) := h.scalarWord

/-! ### Sys2Proof/Machine/SpecialFn -/

theorem State.formed.sfWord {fn d a sel} (h : s.formed) : Res.formed (sfWord fn d a sel s) := h.batchWord fun _ _ h => h.ite h.addOp

/-! ### Sys2Proof/Machine/System -/

theorem State.formed.readScript {m n a acc} (h : s.formed) : Read.formed (State.readScript m n s a acc) := by
  induction n generalizing s a acc with
  | zero => exact .ok h
  | succ n ih =>
    unfold State.readScript
    split
    next e => exact .error (h.readRecord.of_error e)
    next e =>
      have h1 := h.readRecord.of_ok e
      dsimp only
      split
      · split
        next e =>
          split
          · exact .ok h1
          · exact .error ((ih h1).of_error e)
        next e =>
          split
          · exact .ok h1
          · exact .ok ((ih h1).of_ok e)
      · split
        · exact .ok h1
        · exact ih h1

theorem State.formed.armScript {c l} (h : s.formed) : (s.armScript c l).formed := h.frame (by rfl)

theorem State.formed.execRailtScript {c b} (h : s.formed) : Res.formed (execRailtScript c b s) := by
  refine h.privileged (h.accessEach fun m g h => .ite h.armScript ?_)
  split
  next e => exact h.readScript.of_error e
  next e => exact h.readScript.of_ok e
  next e => exact (h.readScript.of_ok e).armScript

/-! ### Sys2Proof/Machine/VectorFloat -/

theorem State.formed.vfloat2 {ty d a b f} (h : s.formed) : Res.formed (vfloat2 ty d a b f s) := h.vecWord

theorem State.formed.vfloat1 {ty d a f} (h : s.formed) : Res.formed (vfloat1 ty d a f s) := h.vecWord

theorem State.formed.vfma {ty d a b c} (h : s.formed) : Res.formed (vfma ty d a b c s) := by
  unfold Machine.vfma
  exact h.vecWord

theorem State.formed.execVfdot2 {bf d a b} (h : s.formed) : Res.formed (execVfdot2 bf d a b s) := by
  unfold Machine.execVfdot2
  exact h.vecWord

/-! ### Sys2Proof/Machine/Dispatch -/

/-- Every instruction and every event keeps the form: the arms of `exec` in turn. -/
theorem State.formed.exec {i} (h : s.formed) : Res.formed (exec i s) := by
  unfold Machine.exec
  cases i with
  | hdr => exact .next h.header
  | live | smovLc | smovi | smovh | scmp | scmpi | ssel | sbfi | spredSp | spredPs | svoteAny | svoteAll | svoteUni | medge | medgeN
    | tdset => exact h.scalarWord
  | nop => exact h.done
  | sadd | ssub | smul | smulh | smulhn | sand | sor | sxor | sshl | sshr | ssra | smin | smax | sminn | smaxn | sbfe | sbfeSx =>
    exact h.scalar2
  | smov | saddi | sclz | spopc => exact h.scalar1
  | srdS | srdV => exact h.perMember fun _ _ h => .ite h h.beforeRead.afterRead
  | swr => exact h.perMember fun _ _ h => .ite h h.specialWrite
  | slane => exact h.perMember fun _ _ h => h.bump
  | brCond | brAlways => exact h.transfer
  | call | fsplit | fjoin | fend | gend | yield => exact h.terminalWord fun _ _ h => h
  | bri | ret => exact h.terminalWord fun _ _ h => h.jumpTo
  | loop => exact h.execLoop
  | lbrk => exact h.execLbrk
  | winset | winadd => exact h.moveWindow
  | xmov | xadd => exact h.indexWord
  | trap | bkpt | railr | tlmrOwn => exact h.perMember fun _ _ h => h
  | rett => exact h.execRett
  | vadd | vsub | vmul | vmulh | vand | vor | vxor | vshl | vshr | vsra | vmin | vmax => exact h.vint2
  | vnot | vabs | vneg | vmov => exact h.vint1
  | vaddi | vclz | vpopc => exact h.vec1
  | vmovi | vmad | vbfi | vmovs | vmovsHi | vfscl | vfclass | vcvt | vcvtsr | vpack | vunpk | vqnt | vdqnt | vrng => exact h.vecWord
  | vcmp | vfcmp => exact h.vecPred
  | vsel => exact h.laneWord
  | vbfe | vbfeSx => exact h.vec2
  | vdot4 | vdot8 => exact h.dotWord
  | vshfl => exact h.execVshfl
  | vperm | vrdc => exact h.crossWord
  | pand | por | pxor | pnot | pmov | pset => exact h.predWord
  | vfadd | vfsub | vfmul | vfmin | vfmax => exact h.vfloat2
  | vfmaF32 | vfmaF64 | vfmaF16x2 | vfmaBf16x2 => exact h.vfma
  | vfabs | vfneg | vfrnd => exact h.vfloat1
  | vfdot2 => exact h.execVfdot2
  | vrcp | vrsq | vsqrt | vexp2 | vlog2 | vsin | vcos | vtanh => exact h.sfWord
  | vld | vlds | vldc | vldd | vldp => exact h.plainLoad
  | vst | vsts | vstc | vstd | vstp => exact h.plainStore
  | vldr => exact h.execVldr
  | vstr => exact h.vectorStore
  | sld => exact h.accessEach fun _ _ h => h.loadUnits
  | sst => exact h.accessEach fun _ _ h => h.storeUnits
  | prefL1 => exact h.indexedWord fun _ _ h => h.readThrough
  | prefL2 => exact h.indexedWord fun _ _ h => h.dirRead.ite h
  | prefSc => exact h.indexedWord fun _ _ h => h.evictOther.touchRange.ite h.sendRequest
  | cwb => exact h.execCwb
  | cinv => exact h.indexedWord fun _ _ h => h.dropL1
  | vatom | vred => exact h.vectorAtomic
  | satom => exact h.accessEach fun _ _ h => h.atomicUnits
  | fence => exact h.execFence
  | waitm => exact h.execWaitm
  | bar => exact .ite (h.batchWord fun _ _ h => (h.foldl fun _ h => h.setTerm).laneArrive) h.illegalWord
  | bara => exact h.batchWord fun _ _ h => .ite h.laneArrive h
  | barw => exact h.execBarw
  | gbar => exact h.execGbar
  | mma => exact h.execMma
  | mzero => exact h.collective fun _ _ h => h.tileOk h.addEng
  | mlda | msta => exact h.tileImage
  | mfrgRd | mfrgWr => exact h.fragmentWord fun _ _ _ h => h.addEng
  | mchk => exact h.perMember fun _ _ h => .ite h h
  | nmv => exact h.accessEach fun _ _ h => .ite h.handleError (.ite h (.ite h (.ite h (.ite h (.ite h (h.withRoom h.setHandle.addEng))))))
  | cpy => exact h.accessEach fun _ _ h => .ite h.handleError (.ite h (.ite h (h.withRoom h.startCopy)))
  | hset => exact h.handleWord fun _ _ _ h => h.setHandle
  | hwait => exact h.execHwait
  | htake => exact h.handleWord fun _ _ _ h => .ite h.freeHandle h
  | hfree => exact h.execHfree
  | hfill | hstat => exact h.handleWord fun _ _ _ h => h.observed
  | tdldRow | tdldCol => exact h.tensorLoad
  | redOpen => exact h.execRedOpen
  | redOpenDef => exact h.execRedOpenDef
  | redSub => exact h.execRedSub
  | redWait => exact h.execRedWait
  | redMap => exact h.redWord fun _ _ _ h => h
  | redCorr => exact h.execRedCorr
  | redNext => exact h.redWord fun _ _ _ h => h.withRoom (h.elim fun _ => (h.frame (by rfl)).lockAll).leaveRound.openRound
  | redClose => exact h.redWord fun _ _ _ h => .ite h.freeRed h.setHandle
  | redCloseDef =>
    exact h.privileged (h.perMember fun _ _ h => .ite h.ageNodes.redTrap (.ite h.ageNodes (.ite h.ageNodes.redTrap h.ageNodes.putSlot)))
  | launch => exact h.execLaunch
  | lagg => exact h.execLagg
  | lflush => exact h.accessEach fun _ _ h => h.foldl fun _ h => h.submitWindow
  | tapePush => exact h.perMember fun _ _ h => h.tapePush.learn
  | tapeRun =>
    exact h.accessEach fun _ _ h => h.onHandle fun _ _ _ h =>
      .ite h.fillHandle (.ite h.setTape.forget.fillHandle h.setHandle.forget.learn.setTape.tapeNext)
  | tapeDrop => exact h.perMember fun _ _ h => .ite h.setTape.forget h
  | qsig => exact h.accessEach fun _ _ h => .ite (.ite h.awaitFlush h.released.raiseSlot) (.ite h.storeUnits.raiseSlot h.storeUnits)
  | region => exact h.perMember fun _ _ h => h.later
  | railt => exact h.perMember fun _ _ h => .ite h h.setCore
  | railtScript => exact h.execRailtScript
  | tlmrDie => exact h.privileged (h.perMember fun _ _ h => h.bump)
  | auds => exact h.privileged (h.perMember fun _ _ h => h.setFn)
  | boot => exact h.execBoot
  | recoveryVerifyEnd => exact h.execRecoveryVerifyEnd
  | dieResetEnd => exact h.execDieResetEnd
  | launchCommand => exact h.execLaunchCommand
  | copy => exact h.runCommand fun _ h => h.retireNow.ite (h.frame (by rfl)).startWork
  | signal => exact h.runCommand fun _ h => (h.frame (by rfl)).startWork.ite (h.cpWrite.retireNow.ite h.cpWrite.commandError)
  | waitge => exact h.runCommand fun _ h => h.passed.waitRead
  | waitgePoll => exact h.execWaitgePoll
  | keygen => exact h.keyCommand fun _ _ h => (h.frame (by rfl)).liven.retireNow
  | keyimp => exact h.execKeyimp
  | keydel => exact h.keyCommand fun _ _ h => h.endCows.eraseKey.retireNow
  | tlbinv => exact h.runCommand fun _ h => h.dropLeaves.retireNow
  | copyChunk => exact h.execCopyChunk
  | instanceAdmission => exact h.execInstanceAdmission
  | teamDeal => exact h.execTeamDeal
  | instanceRetire => exact .next ((h.orWait h.endInstance).ite h)
  | aggWindowTimeout => exact h.execAggWindowTimeout
  | teamStop => exact h.execTeamStop
  | teamResume => exact h.execTeamResume
  | loadCompletion | atomicCompletion => exact .next h.complete
  | sfCompletion => exact .next (h.complete.ite h)
  | frameMoveCompletion => exact h.execFrameMoveCompletion
  | cowServiceCompletion => exact .next (h.orWait h.cowEnd)
  | waitmRecheck => exact h.execWaitmRecheck
  | cwbCompletion => exact .next (h.complete.foldl fun _ h => h.cleanLine)
  | engineQueueResend => exact h.execEngineQueueResend
  | nmvCompletion => exact h.execNmvCompletion
  | railSlewStep => exact .next (h.setCore.ite h)
  | tileProductAttemptEnd => exact h.execTileProductAttemptEnd
  | auditEnd => exact h.execAuditEnd
  | auditMismatchTrap => exact .next h.deliverDue
  | accumulatorMoveCompletion => exact h.execAccumulatorMoveCompletion
  | contributionPresent => exact h.execContributionPresent
  | nodeForwardingTime => exact h.execNodeForwardingTime
  | roundGiveUp => exact h.execRoundGiveUp
  | redCorrCompletion => exact h.execRedCorrCompletion
  | flushReadCompletion => exact .next (h.orLater h.endFlush)
  | functionReset => exact .next ((h.orLater h.functionReset).ite h)
  | meterTick => exact h.execMeterTick
  | sharedTurnEnd => exact h.execSharedTurnEnd
  | stopTimeout => exact .next (h.killInstance.ite h)
  | watchdogExpiry => exact h.execWatchdogExpiry
  | configurationRequest => exact h.execConfigurationRequest
  | recoveryGo => exact .next h.goWritten
  | hubDieReset => exact h.execHubDieReset
  | computeDieReset => exact h.execComputeDieReset
  | memoryDieReset => exact h.execMemoryDieReset
  | currentPacing => exact .next (h.setDie.throttle.ite (h.ite h.setDie))
  | powerClockStep => exact .next (h.ite ((h.frame (by rfl)).setClocks.foldl fun _ h => h.throttle))
  | powerClockRestore => exact .next (h.frame (by rfl)).setClocks
  | thermalClockStep => exact .next (h.ite h.setDie.setClock.throttle)
  | thermalShutdownReset => exact h.execThermalShutdownReset
  | thermalClockRestore => exact .next h.setDie.setClock
  | supplyOff => exact .next h.cleared
  | flitReplay => exact .next h.setLink
  | portRetrain => exact .next (h.ite (h.setLink.ite h.setLink))
  | portDown => exact h.execPortDown
  | cxlPoisonResponse => exact h.execCxlPoisonResponse
  | flushReadTimeout => exact .next h.endFlush
  | remoteRequest => exact .next (h.ite (h.orLater (h.remotePlace.ite h.remotePlace.serveRemote)))
  | timeExchange => exact .next ((h.elim fun _ => h.send).overtake.frame (by rfl))
  | syncLoss => exact .next (h.ite (h.frame (by rfl)))
  | domainJoin => exact h.execDomainJoin
  | bar2Read => exact h.execBar2Read
  | bar2Write => exact h.execBar2Write
  | hostAtomicop => exact .next (h.ite h.tell)
  | doorbell => exact .next (h.ring.ite h)
  | feataWrite => exact .next (h.writeFeata.ite h)
  | vfEnable => exact .next (h.writeVfctl.ite h)
  | functionResetTimeout => exact h.execFunctionResetTimeout
  | queueEnable | queueResume => exact .next (h.writeQctl.ite h)
  | errcntRead => exact .next (h.ite h.setFn.tell)
  | registerWrite => exact h.execRegisterWrite
  | spdmGetVersion => exact .next h.spdm
  | spdmGetCapabilities | spdmKeyExchange | spdmFinish | spdmEndSession => exact .next h.spdmStep
  | spdmNegotiateAlgorithms => exact .next (h.spdmStep.ite h.spdmError)
  | spdmGetDigests | spdmChallenge | spdmHeartbeat => exact .next h.spdmAnswer
  | spdmGetCertificate => exact .next (h.spdmAnswer.ite h.spdmError)
  | spdmGetMeasurements => exact h.execSpdmGetMeasurements
  | spdmUnsupportedRequest => exact .next h.spdmError
  | heartbeatMiss => exact .next (h.setCore.ite (h.setCore.degrade.foldl fun _ h => h.killInstance))
  | pageWalk => exact .next (h.walked.serve.ite h)
  | frameMoveStart => exact h.execFrameMoveStart
  | eccUncorrectable => exact h.execEccUncorrectable
  | partialArrival => exact h.execPartialArrival
  | deliveryArrival => exact h.execDeliveryArrival
  | correctionArrival => exact h.execCorrectionArrival

/-! ### Sys2Proof/Machine/Schedule -/

theorem State.formed.turn (h : s.formed) : s.turn.formed := by
  unfold State.turn
  dsimp only
  split
  · exact h.frame (by rfl)
  · split
    · exact h
    · split
      · exact h.frame (by rfl)
      · exact h

theorem State.formed.still (h : s.formed) : s.still.formed := h.frame (by rfl)

/-! ### Sys2Proof/Machine/Step -/

theorem Res.formed.onNext {r f} (h : Res.formed r) (hf : ∀ {s : State}, s.formed → (f s).formed) : Res.formed (onNext r f) := by
  cases r with
  | next s => exact .next (hf (h s rfl))
  | fault => exact .fault
  | refused => exact .refused

theorem State.formed.runWord (h : s.formed) : Res.formed (runWord s) := by
  unfold Machine.runWord
  split
  · exact h.exec.onNext fun h => h.advance
  · exact .next h.failGroup

theorem State.formed.stepWord (h : s.formed) : Res.formed (stepWord s) := by
  unfold Machine.stepWord
  split
  · split
    · exact h.exec.onNext fun h => h.advance
    · exact .next h.badHeader.advance
  · split
    · exact h.runWord
    · split
      · exact .next h.failGroup
      · exact h.modIt.runWord

theorem Res.formed.changed {r} (h : Res.formed r) (e : changed s r = some t) : t.formed := by
  unfold Machine.changed at e
  split at e
  · split at e
    · cases e
    · cases e
      exact h _ rfl
  · cases e

theorem State.formed.firstChange {es} (h : s.formed) (e : firstChange es s = some t) : t.formed :=
  .findSome (fun _ _ => h.exec.changed) e

theorem State.formed.firstEvent {es} (h : s.formed) : (firstEvent es s).formed := h.getD fun _ => h.firstChange

theorem State.formed.idleStep (h : s.formed) : (idleStep s).formed := by
  refine h.getD fun t e => ?_
  rcases Option.or_eq_some_iff.1 (Option.orElse_eq_or .. ▸ e) with e | ⟨-, e⟩
  · rcases Option.or_eq_some_iff.1 (Option.orElse_eq_or .. ▸ e) with e | ⟨-, e⟩
    · exact h.firstChange e
    · exact .findSome (fun _ _ => h.execFunctionResetTimeout.changed) e
  · exact h.firstChange e

theorem State.formed.stepReady (h : s.formed) : Res.formed (stepReady s) := by
  unfold Machine.stepReady
  dsimp only
  split
  · exact h.stepWord
  · split
    · split
      · exact .next h.deliverDue
      · exact .next h.startClause.firstEvent
    · exact .next h.idleStep

theorem State.formed.stepEvent {e rest} (h : s.formed) : Res.formed (stepEvent e rest s) := by
  have he : Res.formed (Machine.exec e { s with agenda := rest }) := State.formed.exec (h.frame (by rfl))
  unfold Machine.stepEvent
  split
  next k =>
    have ht := he _ k
    split
    · exact State.formed.stepReady (State.formed.turn (ht.frame (by rfl)))
    · exact .next ht
  next => exact he

theorem State.formed.stepOff (h : s.formed) : Res.formed (stepOff s) := by
  unfold Machine.stepOff
  split
  · exact .fault
  · exact (h.frame (by rfl)).exec
  · exact .next (h.frame (by rfl))

theorem State.formed.step (h : s.formed) : Res.formed (step s) := by
  unfold Machine.step
  split
  · exact h.stepOff
  · split
    · exact h.stepEvent
    · split
      · exact h.exec
      · exact h.exec
      · exact h.turn.stepReady
      · exact .next h

end

/-- Settles O60: each operation of the model keeps the form (`State.formed`), so each instruction and event (`State.formed.exec`) and
the step itself (`State.formed.step`) do. -/
theorem memoryFormKept : Obligations.MemoryFormKept := fun _ t h e => State.formed.step h t e

end Sys2Proof.Machine
end
